-- ==== Sys2Proof/Word.lean ====
section
/-!
DEFINITION. Words, masks, names and the plainest arithmetic on them (00_scope.md R1, R2; 02_execution.md R16, R26).
Byte order, bit fields and sign extension, which a test could show wrong, stand under Machine/ (Machine/Bits.lean), not here.
-/

namespace Sys2Proof

/-- One byte of storage. -/
abbrev Byte := BitVec 8
/-- One 32-bit lane value or instruction word (R47, R179). -/
abbrev Word := BitVec 32
/-- One 64-bit scalar value (R52). -/
abbrev DWord := BitVec 64
/-- One bit for each lane position 0–1023 (R26, R53). -/
abbrev Mask := BitVec 1024
/-- A register field of an instruction word (R181). -/
abbrev Reg := BitVec 7
/-- A k- or a-register field: bits 2:0 of a register field whose bits 6:3 are zero (R181). -/
abbrev Reg3 := BitVec 3
/-- The lookahead field (R189). -/
abbrev La := BitVec 4

end Sys2Proof
end

