-- ==== Sys2Proof/Machine/Bits.lean ====
section
/-!
DEFINITION. Bit fields, sign extension, byte order and the plain integer readings of words (00_scope.md R1, R3; 04_numbers.md
R65).
-/

namespace Sys2Proof.Machine

/-- Bits h down to l of a number (R1). -/
def bits (x : Nat) (h l : Nat) : Nat := (x >>> l) % 2 ^ (h + 1 - l)

/-- One bit of a number. -/
def bit (x i : Nat) : Bool := x.testBit i

/-- The low n bits of x read as a signed number. -/
def sextN (n x : Nat) : Int :=
  let y := x % 2 ^ n
  if y < 2 ^ (n - 1) then (y : Int) else (y : Int) - 2 ^ n

/-- A number as n little-endian bytes (R1). -/
def toBytes : Nat → Nat → List Byte
  | 0, _ => []
  | n + 1, x => BitVec.ofNat 8 x :: toBytes n (x / 256)

/-- Little-endian bytes as a number (R1). -/
def ofBytes : List Byte → Nat
  | [] => 0
  | b :: bs => b.toNat + 256 * ofBytes bs

/-- Replace bits h..l of a number. -/
def setBits (x : Nat) (h l v : Nat) : Nat :=
  x - (bits x h l) * 2 ^ l + (v % 2 ^ (h + 1 - l)) * 2 ^ l

/-- Ceiling division. -/
def cdiv (a b : Nat) : Nat := if b = 0 then 0 else (a + b - 1) / b

/-- How many bits are set. -/
def popcount (n x : Nat) : Nat := (List.range n).foldl (fun c i => c + (x.testBit i).toNat) 0

/-- A Bool as 0 or 1. -/
def b2n (t : Bool) : Nat := t.toNat

end Sys2Proof.Machine
end

