-- ==== Sys2Proof/Machine/Keccak.lean ====
section
/-!
DEFINITION. SHAKE256 (R146) and SHAKE128 as FIPS 202 defines them: sponges over Keccak-f[1600], whose tables are computed here from
FIPS 202's own recurrences. The state is one number of 1,600 bits: lane (x, y) is its bits 64 (x + 5 y) upward, so that a plane, the
five lanes of one y, is 320 bits of it.
-/

namespace Sys2Proof.Machine

/-- A number that has x in each of n fields of w bits. -/
def everyField (w n x : Nat) : Nat := Nat.mul x ((List.range n).foldl (fun m i => m + 2 ^ (w * i)) 0)

/-- Every lane of a plane turned left by one bit. -/
def turnPlane (p : Nat) : Nat :=
  let top := Nat.land p (everyField 64 5 (2 ^ 63))
  Nat.lor (Nat.shiftLeft (Nat.xor p top) 1) (Nat.shiftRight top 63)

/-- The lanes of a plane moved from x to x + k. -/
def movePlane (p k : Nat) : Nat :=
  Nat.mod (Nat.lor (Nat.shiftLeft p (64 * k)) (Nat.shiftRight p (320 - 64 * k))) (2 ^ 320)

/-- Each column takes in the parity of the one before it and, turned, of the one after it. -/
def theta (a : Nat) : Nat :=
  let parity := Nat.mod ((List.range 5).foldl (fun p y => Nat.xor p (Nat.shiftRight a (320 * y))) 0) (2 ^ 320)
  Nat.xor a (everyField 320 5 (Nat.xor (movePlane parity 1) (movePlane (turnPlane parity) 4)))

/-- A lane's place, how far it is turned, and the place that it goes to. -/
structure LaneStep where
  src : Nat
  by_ : Nat
  dst : Nat

/-- ρ and π as one walk: from (1, 0), step t takes the lane at (x, y), turned by the t-th triangular number, to (y, 2 x + 3 y), and goes
on from there. -/
def laneWalk : Nat → Nat → Nat → Nat → List LaneStep
  | 0, _, _, _ => []
  | fuel + 1, t, x, y =>
    let z := (2 * x + 3 * y) % 5
    { src := 64 * (x + 5 * y), by_ := t * (t + 1) / 2 % 64, dst := 64 * (y + 5 * z) } :: laneWalk fuel (t + 1) y z

/-- The lane at a place, turned left. -/
def turnedLane (a : Nat) (w : LaneStep) : Nat :=
  let x := Nat.mod (Nat.shiftRight a w.src) (2 ^ 64)
  Nat.mod (Nat.lor (Nat.shiftLeft x w.by_) (Nat.shiftRight x (Nat.sub 64 w.by_))) (2 ^ 64)

/-- Lane (0, 0) stays, and the others walk. -/
def rhoPi (a : Nat) : Nat :=
  (laneWalk 24 1 1 0).foldl (fun b w => Nat.lor b (Nat.shiftLeft (turnedLane a w) w.dst)) (Nat.mod a (2 ^ 64))

/-- The lanes of every plane moved from x to x − k. -/
def backLanes (a k : Nat) : Nat :=
  let stay := everyField 320 5 (everyField 64 (5 - k) (2 ^ 64 - 1))
  let wrap := everyField 320 5 (everyField 64 k (2 ^ 64 - 1))
  Nat.lor (Nat.land (Nat.shiftRight a (64 * k)) stay) (Nat.shiftLeft (Nat.land a wrap) (64 * (5 - k)))

def chi (b : Nat) : Nat := Nat.xor b (Nat.land (Nat.xor (backLanes b 1) (2 ^ 1600 - 1)) (backLanes b 2))

/-- One step of the 8-bit shift register of ι: x⁸ + x⁶ + x⁵ + x⁴ + 1. -/
def lfsr (r : Nat) : Nat := let d := 2 * r; if 256 ≤ d then (d - 256) ^^^ 0x71 else d

/-- Seven steps give a round's constant, its bit 2^j − 1 from step j, and the register for the next round. -/
def roundConst : Nat → Nat → Nat → Nat → Nat × Nat
  | 0, _, c, r => (c, r)
  | fuel + 1, j, c, r => roundConst fuel (j + 1) (c + r % 2 * 2 ^ (2 ^ j - 1)) (lfsr r)

/-- Rounds, the shift register carried along. -/
def rounds : Nat → Nat → Nat → Nat
  | 0, _, a => a
  | n + 1, r, a =>
    let k := roundConst 7 0 0 r
    rounds n k.2 (chi (rhoPi (theta a)) ^^^ k.1)

/-- Keccak-f[1600]. -/
def permute (a : Nat) : Nat := rounds 24 1 a

/-- SHAKE's suffix 1111, the first 1 of the padding and its last, as one number added to a message in its last block. -/
def shakePad (rate : Nat) (m : List Byte) : List Byte :=
  let gap := rate - m.length % rate
  m ++ toBytes gap (0x1F + 0x80 * 256 ^ (gap - 1))

/-- Take blocks in. -/
def absorb (rate : Nat) : Nat → List Byte → Nat → Nat
  | 0, _, a => a
  | n + 1, m, a => absorb rate n (m.drop rate) (permute (a ^^^ ofBytes (m.take rate)))

/-- The state once a message has been taken in. -/
def absorbed (rate : Nat) (m : List Byte) : Nat :=
  let p := shakePad rate m
  absorb rate (p.length / rate) p 0

/-- The first n ≤ 136 bytes of SHAKE256. -/
def shake256 (m : List Byte) (n : Nat) : List Byte := toBytes n (absorbed 136 m)

end Sys2Proof.Machine
end

