-- ==== Sys2Proof/Config.lean ====
section
/-!
DEFINITION. What this device fixes: the sizes of Tables 1-1 to 1-3 and Table 2-2, and the free values, constants with no
body for what the manual leaves open. No statement rests on a value of a free value.
-/

namespace Sys2Proof.Config

/-! ### Sizes (R6–R8, R24, R25) -/

def cores : Nat := 256
def maxClasses : Nat := 32
def maxForms : Nat := 8
def registerStore : Nat := 2 * 1024 * 1024
def scratchSize : Nat := 1024 * 1024
def operandBuffer : Nat := 512 * 1024
def bstoreSize : Nat := 2 * 1024 * 1024
/-- HBM4: 8 stacks of 64 GiB (R5, R12), at physical address 0 (log entry 3). -/
def hbmBytes : Nat := 8 * 64 * 2 ^ 30
/-- DDR-5 fitted, at the address after HBM4 (log entry 3): the 2 TiB that R12 allows at most. -/
def ddrBytes : Nat := 2 * 2 ^ 40
/-- End of the physical memory that exists. -/
def memLimit : Nat := hbmBytes + ddrBytes

/-! ### Free values -/

/-- Results of the transcendental functions where R91 bounds and does not fix them: fixed functions of the input bits. -/
opaque rcp   : Word → Word
opaque rsq   : Word → Word
opaque exp2  : Word → Word
opaque log2  : Word → Word
opaque tanh  : Word → Word
opaque sinpi : Word → Word
opaque cospi : Word → Word

/-- A key of AES-256-XTS by reset and number: what the random-bit generator gave (R446, R448). -/
opaque xtsKey : Nat → Nat → BitVec 512
/-- Bytes of a content store's areas, whose layout software does not see (R140): of the store's lines, as one number, and the place in
the areas. -/
opaque contentLayout : Nat → Nat → Byte
/-- What THERM reads: the highest junction temperature, by a fresh number. -/
opaque temperature : Nat → DWord
/-- Bytes of a saved context as they lie in DRAM (R394: its layout is not architectural), by a fresh number and offset. -/
opaque contextByte : Nat → Nat → Byte
/-- The device secret of the integrity tags, by reset number (R395). -/
opaque deviceSecret : Nat → BitVec 256
/-- The ROM's digest (R456 step 1). -/
opaque romDigest : BitVec 512
/-- What a remote device answers to a peer request (R434), by a fresh number: nothing when it refuses. -/
opaque peerAnswer : Nat → Option Nat
/-- What one answers to a walk that reads an entry of a table in a peer window, by a fresh number and the entry's address. -/
opaque peerTable : Nat → Nat → Option Nat
/-- Which memory controller a 512-byte line lies at, of its tier's: the map is not given (R102, R422; log entry 3). -/
opaque controller : Nat → Nat
/-- The die on which a DDR-5 line is homed, and the slice of its die that a line is homed in: the hash that level 0 fixes at boot
(R102; log entry 3). -/
opaque ddrHome : Nat → Nat
opaque homeSlice : Nat → Nat
/-- The set of its slice that a line belongs to: L2's ways are not given (R105). -/
opaque l2Set : Nat → Nat
/-- The set of the quad's L2 TLB that a page belongs to (R362). -/
opaque tlbSet : Nat → Nat
/-- Units of 64 bytes that a block of a compressed page takes on the DRAM interface, by its bytes (R105, R106): the compression is
not given. -/
opaque compressed : List Byte → Nat
/-- Which of several the hardware takes where the manual leaves the choice to it (a class slot, a tag, a place in the copy
window), by a fresh number. -/
opaque choice : Nat → Nat
/-- Units of 64 bytes that a request at a content monitor brings over the DRAM interface, at most 8 of them, and the controller that
brings them, by the request's number (R422: the areas' layout is not given). -/
opaque contentUnits : Nat → Nat
opaque contentController : Nat → Nat
/-- The identity seed that the SRAM PUF of the H-die yields with the helper data (R456 step 2). -/
opaque identitySeed : List Byte → BitVec 256
/-- A session's keys (R458), by a fresh number and direction: what ML-KEM-768 establishes. -/
opaque sessionKey : Nat → Bool → BitVec 256
/-- Whether a partition's queue set-up, its control words, names a requester (R458: the place is not given). -/
opaque namesRequester : List (BitVec 64) → Nat → Bool
/-- What SPDM answers carry beyond the measurements: certificate chain and signatures (R458), by a fresh number. -/
opaque spdmBytes : Nat → List Byte

end Sys2Proof.Config
end

