-- ==== Sys2Proof/Machine/Fp.lean ====
section
/-!
DEFINITION. Floating-point formats, rounding and arithmetic (04_numbers.md R67–R92). A number is a sign, a natural m and an
exponent e, the value ±m·2^e exactly; every operation computes exactly and rounds once.
-/

namespace Sys2Proof.Machine

/-! ### CSTAT flag bits (R62, Table 3-5) -/

def fNX : Word := 0x01
def fUF : Word := 0x02
def fOF : Word := 0x04
def fDZ : Word := 0x08
def fNV : Word := 0x10
def fSAT : Word := 0x20
def fTWSPLIT : Word := 0x40

def flagIf (t : Bool) (f : Word) : Word := if t then f else 0

/-- A result and the flags that come with it. -/
structure Fl (α : Type) where
  val   : α
  flags : Word := 0
  deriving DecidableEq, Repr

/-! ### Formats (Table 4-2) -/

/-- How a format spends its largest exponent field. -/
inductive FmtKind where
  | ieee   -- infinities and NaNs; a NaN with the top mantissa bit clear is signalling
  | e5m2   -- infinities and NaNs, every NaN quiet (R77)
  | e4m3   -- one NaN code, no infinity (R68)
  | finite -- neither
  deriving DecidableEq, Repr

structure Fmt where
  eb   : Nat
  mb   : Nat
  kind : FmtKind
  deriving DecidableEq, Repr

def F32 : Fmt := ⟨8, 23, .ieee⟩
def F16 : Fmt := ⟨5, 10, .ieee⟩
def BF16 : Fmt := ⟨8, 7, .ieee⟩
def E5M2 : Fmt := ⟨5, 2, .e5m2⟩
def E4M3 : Fmt := ⟨4, 3, .e4m3⟩
def E2M1 : Fmt := ⟨2, 1, .finite⟩
def E3M2 : Fmt := ⟨3, 2, .finite⟩
def E2M3 : Fmt := ⟨2, 3, .finite⟩

def Fmt.bias (f : Fmt) : Nat := 2 ^ (f.eb - 1) - 1
def Fmt.emin (f : Fmt) : Int := 1 - (f.bias : Int)
def Fmt.width (f : Fmt) : Nat := 1 + f.eb + f.mb
/-- The sign bit. -/
def Fmt.sign (f : Fmt) (neg : Bool) : Nat := if neg then 2 ^ (f.eb + f.mb) else 0
/-- The canonical NaN (Table 4-2); for E4M3 the code 0x7F. -/
def Fmt.qnan (f : Fmt) : Nat :=
  match f.kind with
  | .e4m3 => 2 ^ (f.eb + f.mb) - 1
  | .ieee | .e5m2 | .finite => (2 ^ f.eb - 1) * 2 ^ f.mb + 2 ^ (f.mb - 1)
/-- The positive infinity's code, in formats that have one. -/
def Fmt.infCode (f : Fmt) : Nat := (2 ^ f.eb - 1) * 2 ^ f.mb
/-- The code of the largest finite magnitude. -/
def Fmt.maxCode (f : Fmt) : Nat :=
  match f.kind with
  | .ieee | .e5m2 => f.infCode - 1
  | .e4m3 => 2 ^ (f.eb + f.mb) - 2
  | .finite => 2 ^ (f.eb + f.mb) - 1

/-- What a code stands for. -/
inductive FpVal where
  | nan (signalling : Bool)
  | inf (neg : Bool)
  | fin (neg : Bool) (m : Nat) (e : Int)
  deriving DecidableEq, Repr

/-- The value of a code (R67, R68, R77). -/
def Fmt.decode (f : Fmt) (x : Nat) : FpVal :=
  let neg := bit x (f.eb + f.mb)
  let ef := bits x (f.eb + f.mb - 1) f.mb
  let m := x % 2 ^ f.mb
  let num : FpVal :=
    if ef = 0 then .fin neg m (f.emin - f.mb) else .fin neg (m + 2 ^ f.mb) ((ef : Int) - f.bias - f.mb)
  match f.kind with
  | .finite => num
  | .e4m3 => if x % 2 ^ (f.eb + f.mb) = 2 ^ (f.eb + f.mb) - 1 then .nan false else num
  | .e5m2 => if ef = 2 ^ f.eb - 1 then (if m = 0 then .inf neg else .nan false) else num
  | .ieee => if ef = 2 ^ f.eb - 1 then (if m = 0 then .inf neg else .nan (!bit x (f.mb - 1))) else num

def FpVal.isNan : FpVal → Bool
  | .nan _ => true
  | .inf _ => false
  | .fin _ _ _ => false

def FpVal.isSig : FpVal → Bool
  | .nan s => s
  | .inf _ => false
  | .fin _ _ _ => false

def FpVal.neg : FpVal → FpVal
  | .nan s => .nan s
  | .inf n => .inf (!n)
  | .fin n m e => .fin (!n) m e

def FpVal.absV : FpVal → FpVal
  | .nan s => .nan s
  | .inf _ => .inf false
  | .fin _ m e => .fin false m e

/-- Signed numerator of ±m·2^e at the exponent e0 ≤ e. -/
def scaledInt (neg : Bool) (m : Nat) (e e0 : Int) : Int :=
  let v : Int := m * 2 ^ (e - e0).toNat
  if neg then -v else v

/-- The order of two numbers that are not NaN; −0 equals +0. -/
def FpVal.lt : FpVal → FpVal → Bool
  | .fin n1 m1 e1, .fin n2 m2 e2 =>
    let e0 := min e1 e2
    decide (scaledInt n1 m1 e1 e0 < scaledInt n2 m2 e2 e0)
  | .inf n, .inf n2 => n && !n2
  | .inf n, .fin _ _ _ => n
  | .fin _ _ _, .inf n => !n
  | .nan _, _ => false
  | _, .nan _ => false

def FpVal.eqV (a b : FpVal) : Bool := !a.isNan && !b.isNan && !a.lt b && !b.lt a

def FpVal.signBit : FpVal → Bool
  | .nan _ => false
  | .inf n => n
  | .fin n _ _ => n

/-- `a` orders below `b` with −0 below +0 (R77). -/
def FpVal.below (a b : FpVal) : Bool := a.lt b || (a.eqV b && a.signBit && !b.signBit)

/-! ### Rounding (R74) -/

inductive RMode where
  | rne | rz | rd | ru
  deriving DecidableEq, Repr

/-- Whether the magnitude `q` with a discarded part (compared with half a unit: `lo` is below, `tie` equal, else above;
nonzero) is rounded up. -/
def roundUp (mode : RMode) (neg odd : Bool) (half : Ordering) : Bool :=
  match mode with
  | .rz => false
  | .rd => neg
  | .ru => !neg
  | .rne =>
    match half with
    | .lt => false
    | .gt => true
    | .eq => odd

/-- m·2^e rounded to a multiple of 2^q: the multiple and whether it is inexact. -/
def roundAt (mode : RMode) (neg : Bool) (m : Nat) (e q : Int) : Nat × Bool :=
  if q ≤ e then (m * 2 ^ (e - q).toNat, false)
  else
    let sh := (q - e).toNat
    if m.log2 + 2 ≤ sh then
      if m = 0 then (0, false) else (b2n (roundUp mode neg false .lt), true)
    else
      let a := m >>> sh
      let r := m % 2 ^ sh
      if r = 0 then (a, false)
      else (a + b2n (roundUp mode neg (a % 2 == 1) (compare r (2 ^ (sh - 1)))), true)

/-- Overflow behaviour of a conversion: R74 for the arithmetic formats, or one of the rows of Table 4-5. -/
inductive Overflow where
  | ieee                -- infinity or largest finite by mode; OF, NX
  | saturate            -- ± largest finite; SAT, NX
  | nanCode             -- S.1111.111; OF, NX (E4M3, not saturating)
  deriving DecidableEq, Repr

/-- ±m·2^e, and something below the last place of m when `sticky`, rounded to the format, with its flags (R74–R76, R78–R80). -/
def Fmt.round (f : Fmt) (mode : RMode) (ov : Overflow) (neg : Bool) (m0 : Nat) (e0 : Int) (sticky : Bool := false) :
    Fl Nat :=
  let m := 2 * m0 + b2n sticky
  let e := e0 - 1
  if m = 0 then ⟨f.sign neg, 0⟩
  else
    let top : Int := m.log2 + e
    let q := max top f.emin - f.mb
    let r := roundAt mode neg m e q
    let code := (q - (f.emin - f.mb)).toNat * 2 ^ f.mb + r.1
    if code ≤ f.maxCode then
      let tiny := decide (top < f.emin) &&
        (decide (top + 1 < f.emin) || decide ((roundAt mode neg m e (top - f.mb)).1 < 2 ^ (f.mb + 1)))
      ⟨f.sign neg + code, flagIf r.2 fNX ||| flagIf (tiny && r.2) fUF⟩
    else
      match ov with
      | .saturate => ⟨f.sign neg + f.maxCode, fSAT ||| fNX⟩
      | .nanCode => ⟨f.sign neg + f.qnan, fOF ||| fNX⟩
      | .ieee =>
        let toInf := match mode with
          | .rne => true
          | .rz => false
          | .rd => neg
          | .ru => !neg
        ⟨f.sign neg + (if toInf then f.infCode else f.maxCode), fOF ||| fNX⟩

/-- Round to the format in RNE, as every arithmetic operation does (R75). -/
def Fmt.rne (f : Fmt) (neg : Bool) (m : Nat) (e : Int) (sticky : Bool := false) : Fl Nat :=
  f.round .rne .ieee neg m e sticky

/-- The canonical NaN, with NV when asked. -/
def Fmt.nanR (f : Fmt) (nv : Bool) : Fl Nat := ⟨f.qnan, flagIf nv fNV⟩

/-! ### Fused multiply-add, and the operations that are cases of it (R240, R241) -/

/-- rne(a·b + c) of values, one rounding (R75, R241). -/
def Fmt.fma (f : Fmt) (a b c : FpVal) : Fl Nat :=
  let sig := a.isSig || b.isSig || c.isSig
  match a, b with
  | .fin n1 m1 e1, .fin n2 m2 e2 =>
    match c with
    | .nan _ => f.nanR sig
    | .inf n => ⟨f.sign n + f.infCode, 0⟩
    | .fin n3 m3 e3 =>
      let np := n1 != n2
      let ep := e1 + e2
      let e0 := min ep e3
      let s := scaledInt np (m1 * m2) ep e0 + scaledInt n3 m3 e3 e0
      if s = 0 then ⟨f.sign (np && n3), 0⟩ else f.rne (decide (s < 0)) s.natAbs e0
  | .nan _, .nan _ => f.nanR sig
  | .nan _, .inf _ => f.nanR sig
  | .nan _, .fin _ _ _ => f.nanR sig
  | .inf _, .nan _ => f.nanR sig
  | .fin _ _ _, .nan _ => f.nanR sig
  | .inf n1, .fin n2 m2 _ => if m2 = 0 then f.nanR true else infPlus (n1 != n2) c sig
  | .fin n1 m1 _, .inf n2 => if m1 = 0 then f.nanR true else infPlus (n1 != n2) c sig
  | .inf n1, .inf n2 => infPlus (n1 != n2) c sig
where
  /-- An infinite product plus c. -/
  infPlus (n : Bool) (c : FpVal) (sig : Bool) : Fl Nat :=
    match c with
    | .nan _ => f.nanR sig
    | .inf n' => if n = n' then ⟨f.sign n + f.infCode, 0⟩ else f.nanR true
    | .fin _ _ _ => ⟨f.sign n + f.infCode, 0⟩

def one : FpVal := .fin false 1 0
def negZero : FpVal := .fin true 0 0

def Fmt.add (f : Fmt) (a b : FpVal) : Fl Nat := f.fma a one b
def Fmt.sub (f : Fmt) (a b : FpVal) : Fl Nat := f.fma a one b.neg
def Fmt.mul (f : Fmt) (a b : FpVal) : Fl Nat := f.fma a b negZero

/-- minimumNumber, maximumNumber and the magnitude forms (R77); the number chosen keeps its code. -/
def Fmt.minMax (f : Fmt) (isMax magnitude : Bool) (x y : Nat) : Fl Nat :=
  let a := f.decode x
  let b := f.decode y
  let fl := flagIf (a.isSig || b.isSig) fNV
  let less := if magnitude then
      (if a.absV.lt b.absV then true else if b.absV.lt a.absV then false else a.below b)
    else a.below b
  if a.isNan && b.isNan then ⟨f.qnan, fl⟩
  else if a.isNan then ⟨y, fl⟩
  else if b.isNan then ⟨x, fl⟩
  else if isMax then ⟨if less then y else x, fl⟩
  else ⟨if less then x else if a.eqV b && a.signBit == b.signBit then x else y, fl⟩

/-- Clear the sign of a result, as ABSD does; a NaN stays canonical. -/
def Fmt.absR (f : Fmt) (r : Fl Nat) : Fl Nat := ⟨r.val % 2 ^ (f.eb + f.mb), r.flags⟩

/-- Sign inverted or cleared; a NaN gives the canonical NaN, NV when signalling (R243, R244). -/
def Fmt.signOp (f : Fmt) (clear : Bool) (x : Nat) : Fl Nat :=
  let v := f.decode x
  if v.isNan then f.nanR v.isSig
  else
    let body := x % 2 ^ (f.eb + f.mb)
    ⟨if clear then body else body + f.sign (!bit x (f.eb + f.mb)), 0⟩

/-! ### Conversions (R79–R82) -/

/-- Convert a value to a narrower or equal format in one rounding (Table 4-5). -/
def Fmt.convert (f : Fmt) (mode : RMode) (ov : Overflow) (v : FpVal) : Fl Nat :=
  match v with
  | .nan s => f.nanR s
  | .inf n =>
    match ov with
    | .ieee => ⟨f.sign n + f.infCode, 0⟩
    | .saturate => ⟨f.sign n + f.maxCode, fSAT⟩
    | .nanCode => ⟨f.sign n + f.qnan, fNV⟩
  | .fin n m e => f.round mode ov n m e

/-- F32 to E4M3 or E5M2, saturating or not (Table 4-5). -/
def toFp8 (e5 sat : Bool) (v : FpVal) : Fl Nat :=
  let f := if e5 then E5M2 else E4M3
  f.convert .rne (if sat then .saturate else if e5 then .ieee else .nanCode) v

/-- Widen a code to F32 exactly; a NaN gives 0x7FC0_0000, NV when signalling (R79, R246). -/
def widen (f : Fmt) (x : Nat) : Fl Nat :=
  match f.decode x with
  | .nan s => F32.nanR s
  | .inf n => ⟨F32.sign n + F32.infCode, 0⟩
  | .fin n m e => F32.rne n m e

/-- A value rounded to an integer: magnitude and inexactness. -/
def roundToInt (mode : RMode) (neg : Bool) (m : Nat) (e : Int) : Nat × Bool := roundAt mode neg m e 0

/-- Float to I32 or N32 (R81): rounded, then clamped. -/
def toInt32 (signed : Bool) (mode : RMode) (v : FpVal) : Fl Word :=
  let lim (neg : Bool) : Word :=
    if signed then (if neg then 0x80000000 else 0x7FFFFFFF) else (if neg then 0 else 0xFFFFFFFF)
  match v with
  | .nan _ => ⟨0, fNV⟩
  | .inf n => ⟨lim n, fNV ||| fSAT⟩
  | .fin n m e =>
    let r := roundToInt mode n m e
    let i : Int := if n then -(r.1 : Int) else r.1
    let ok := if signed then decide (-2 ^ 31 ≤ i ∧ i < 2 ^ 31) else decide (0 ≤ i ∧ i < 2 ^ 32)
    if ok then ⟨BitVec.ofInt 32 i, flagIf r.2 fNX⟩ else ⟨lim n, fNV ||| fSAT⟩

/-- I32 or N32 to a floating format with RNE (R82). -/
def Fmt.ofInt (f : Fmt) (i : Int) : Fl Nat := f.rne (decide (i < 0)) i.natAbs 0

/-- The value of an F32 word. -/
def f32 (w : Word) : FpVal := F32.decode w.toNat

def Fl.word (r : Fl Nat) : Fl Word := ⟨BitVec.ofNat 32 r.val, r.flags⟩

/-! ### Integral and class functions of FUN (R243) -/

/-- FLOOR, CEIL, TRUNC, RINT: the integral F32 in the mode, sign of a kept, no NX. -/
def integral (mode : RMode) (a : Word) : Fl Word :=
  match f32 a with
  | .nan s => (F32.nanR s).word
  | .inf _ => ⟨a, 0⟩
  | .fin n m e =>
    let r := roundToInt mode n m e
    ⟨BitVec.ofNat 32 (F32.rne n r.1 0).val, 0⟩

/-- FRAC: a − TRUNC(a), exact, keeping the sign of a; NV for ±∞. -/
def fracF (a : Word) : Fl Word :=
  match f32 a with
  | .nan s => (F32.nanR s).word
  | .inf _ => (F32.nanR true).word
  | .fin n m e =>
    if 0 ≤ e then ⟨BitVec.ofNat 32 (F32.sign n), 0⟩
    else ⟨BitVec.ofNat 32 (F32.rne n (m % 2 ^ (-e).toNat) e).val, 0⟩

/-- The class word of Table 11-3. -/
def classF (a : Word) : Fl Word :=
  match f32 a with
  | .nan true => ⟨1, fNV⟩
  | .nan false => ⟨2, 0⟩
  | .inf n => ⟨if n then 4 else 0x200, 0⟩
  | .fin n m _ =>
    if m = 0 then ⟨if n then 0x20 else 0x40, 0⟩
    else if m < 2 ^ 23 then ⟨if n then 0x10 else 0x80, 0⟩
    else ⟨if n then 0x08 else 0x100, 0⟩

/-! ### Transcendental functions (R91, R92)

Each function first delivers its special and exact results. Elsewhere R91 gives a bound in ulp and no value: the result is
the free value of Config when it lies within the bound, and the correctly rounded result of the model's own approximation
when it does not. The approximations carry relative error below 2^-60, and lie on the exact result's side of 1, and of the argument
where that is tiny, so that the ulp is the exact result's and the bound is tested as it stands (log entry 9). -/

/-- A non-negative dyadic number m·2^e. -/
structure Dy where
  m : Nat
  e : Int
  deriving DecidableEq, Repr

def Dy.le (a b : Dy) : Bool :=
  let e0 := min a.e b.e
  decide (a.m * 2 ^ (a.e - e0).toNat ≤ b.m * 2 ^ (b.e - e0).toNat)

def Dy.add (a b : Dy) : Dy :=
  let e0 := min a.e b.e
  ⟨a.m * 2 ^ (a.e - e0).toNat + b.m * 2 ^ (b.e - e0).toNat, e0⟩

/-- |a − b|. -/
def Dy.dist (a b : Dy) : Dy :=
  let e0 := min a.e b.e
  let x : Int := a.m * 2 ^ (a.e - e0).toNat
  let y : Int := b.m * 2 ^ (b.e - e0).toNat
  ⟨(x - y).natAbs, e0⟩

/-- ulp(x) of R91. -/
def ulpOf (x : Dy) : Dy := ⟨1, max ((x.m.log2 : Int) + x.e) (-126) - 23⟩

/-- The free F32 result `r`, if it is finite, has the sign `neg` (or is a zero), and lies within `n` ulp of `x`; the
rounded `x` otherwise. Flags: NX, and UF when `tiny` (R91). -/
def bounded (neg : Bool) (n : Nat) (x : Dy) (tiny : Bool) (r : Word) : Fl Word :=
  let u := ulpOf x
  let near : Dy := ⟨n * u.m, u.e⟩
  let own := F32.rne neg x.m x.e true
  let ok := match f32 r with
    | .fin s m e => (s == neg || m == 0) && ((Dy.mk m e).dist x).le near
    | .inf _ => false
    | .nan _ => false
  ⟨if ok then r else BitVec.ofNat 32 own.val, fNX ||| flagIf tiny fUF⟩

/-- Integer square root by bits from the top: `k` bits of result. -/
def isqrtBits : Nat → Nat → Nat → Nat
  | 0, _, acc => acc
  | k + 1, x, acc =>
    let t := acc + 2 ^ k
    isqrtBits k x (if t * t ≤ x then t else acc)

/-- floor(√x). -/
def isqrt (x : Nat) : Nat := isqrtBits (x.log2 / 2 + 1) x 0

/-- √(m·2^e) for m > 0, to at least 40 significant bits, with its sticky part. -/
def sqrtDy (m : Nat) (e : Int) : Nat × Int × Bool :=
  let odd := e % 2 ≠ 0
  let m1 := if odd then 2 * m else m
  let e1 := if odd then e - 1 else e
  let x := m1 * 2 ^ 80
  let r := isqrt x
  (r, e1 / 2 - 40, r * r ≠ x)

def sqrtF (a : Word) : Fl Word :=
  match f32 a with
  | .nan s => (F32.nanR s).word
  | .inf n => if n then (F32.nanR true).word else ⟨a, 0⟩
  | .fin n m e =>
    if m = 0 then ⟨a, 0⟩
    else if n then (F32.nanR true).word
    else
      let r := sqrtDy m e
      (F32.rne false r.1 r.2.1 r.2.2).word

/-- 1/(m·2^e) for m > 0: 100 bits of quotient and the sticky part. -/
def recipDy (m : Nat) (e : Int) : Nat × Int × Bool :=
  let k := 100 + m.log2
  (2 ^ k / m, -e - k, 2 ^ k % m ≠ 0)

/-- The free result within 1 ulp of ±x (x given with its sticky part), unless the F32 result is exact or overflows. -/
def nearOrExact (neg : Bool) (x : Nat × Int × Bool) (free : Word) : Fl Word :=
  let own := F32.rne neg x.1 x.2.1 x.2.2
  if own.flags &&& (fNX ||| fOF) = 0 || own.flags &&& fOF ≠ 0 then own.word
  else bounded neg 1 ⟨x.1, x.2.1⟩ (own.flags &&& fUF ≠ 0) free

def rcpF (a : Word) : Fl Word :=
  match f32 a with
  | .nan s => (F32.nanR s).word
  | .inf n => ⟨BitVec.ofNat 32 (F32.sign n), 0⟩
  | .fin n m e =>
    if m = 0 then ⟨BitVec.ofNat 32 (F32.sign n + F32.infCode), fDZ⟩
    else nearOrExact n (recipDy m e) (Config.rcp a)

def rsqF (a : Word) : Fl Word :=
  match f32 a with
  | .nan s => (F32.nanR s).word
  | .inf n => if n then (F32.nanR true).word else ⟨0, 0⟩
  | .fin n m e =>
    if m = 0 then ⟨BitVec.ofNat 32 (F32.sign n + F32.infCode), fDZ⟩
    else if n then (F32.nanR true).word
    else
      -- 1/√x = √(1/x): exact only when both steps are
      let q := recipDy m e
      let r := sqrtDy q.1 q.2.1
      nearOrExact false (r.1, r.2.1, q.2.2 || r.2.2) (Config.rsq a)

/-! Fixed point with 96 fraction bits. -/

def fxOne : Nat := 2 ^ 96
/-- ln 2, π and log2 e in fixed point. -/
def fxLn2 : Nat := 54916777467707473351141471128
def fxPi : Nat := 248902613312231085230521944622
def fxLog2e : Nat := 114302077158074026402637675936

def fxMul (a b : Nat) : Nat := a * b / fxOne

/-- Σ y^k/k! from term `t` of index `k`, `n` terms. -/
def expSeries : Nat → Nat → Nat → Nat → Nat
  | 0, _, _, _ => 0
  | n + 1, y, k, t => t + expSeries n y (k + 1) (fxMul t y / (k + 1))

/-- 2^f for a fixed-point fraction f. -/
def fxExp2 (f : Nat) : Nat := expSeries 40 (fxMul f fxLn2) 0 fxOne

/-- Σ z^(2k+1)/(2k+1). -/
def atanhSeries : Nat → Nat → Nat → Nat → Nat
  | 0, _, _, _ => 0
  | n + 1, z2, k, t => t / (2 * k + 1) + atanhSeries n z2 (k + 1) (fxMul t z2)

/-- log2 of a fixed-point number in [1, 2). -/
def fxLog2 (x : Nat) : Nat :=
  let z := (x - fxOne) * fxOne / (x + fxOne)
  fxMul (2 * atanhSeries 64 (fxMul z z) 0 z) fxLog2e

/-- sin(πr)/(πr) for a fixed-point r ≤ 1/2, by its alternating series in y² = (πr)². -/
def sincSeries : Nat → Nat → Nat → Int → Int
  | 0, _, _, _ => 0
  | n + 1, y2, k, t =>
    t + sincSeries n y2 (k + 1) (-(t * y2 / fxOne) / ((2 * k + 2) * (2 * k + 3) : Nat))

/-- m·2^e, truncated to fixed point. -/
def toFx (m : Nat) (e : Int) : Nat := (roundAt .rz false m e (-96)).1

/-- 2^x: exact at integers from −149 to 127 (R91). -/
def exp2F (a : Word) : Fl Word :=
  match f32 a with
  | .nan s => (F32.nanR s).word
  | .inf n => ⟨if n then 0 else a, 0⟩
  | .fin n m e =>
    let whole := roundToInt .rz n m e
    if m = 0 then ⟨0x3F800000, 0⟩
    else if !whole.2 then
      let i : Int := if n then -(whole.1 : Int) else whole.1
      if i < -149 then bounded false 2 ⟨1, max i (-400)⟩ true (Config.exp2 a)
      else (F32.rne false 1 (min i 200)).word
    else
      -- x = i + f with 0 ≤ f < 1
      let i : Int := if n then -(whole.1 : Int) - 1 else whole.1
      let fr := toFx (m % 2 ^ (-e).toNat) e
      let f := if n then fxOne - fr else fr
      if 128 ≤ i then (F32.rne false 1 200).word
      else if (m.log2 : Int) + e < -60 then bounded false 2 ⟨if n then fxOne - 1 else fxOne + 1, -96⟩ false (Config.exp2 a)
      else bounded false 2 ⟨fxExp2 f, max i (-400) - 96⟩ (decide (i < -126)) (Config.exp2 a)

/-- log2 x: exact at powers of two (R91). -/
def log2F (a : Word) : Fl Word :=
  match f32 a with
  | .nan s => (F32.nanR s).word
  | .inf n => if n then (F32.nanR true).word else ⟨a, 0⟩
  | .fin n m e =>
    if m = 0 then ⟨BitVec.ofNat 32 (F32.sign true + F32.infCode), fDZ⟩
    else if n then (F32.nanR true).word
    else
      let top : Int := m.log2 + e
      if m = 2 ^ m.log2 then (F32.ofInt top).word
      else
        let v : Int := top * fxOne + fxLog2 (m * 2 ^ (96 - m.log2))
        bounded (decide (v < 0)) 2 ⟨v.natAbs, -96⟩ false (Config.log2 a)

def tanhF (a : Word) : Fl Word :=
  match f32 a with
  | .nan s => (F32.nanR s).word
  | .inf n => ⟨BitVec.ofNat 32 (F32.sign n + 0x3F800000), 0⟩
  | .fin n m e =>
    let top : Int := m.log2 + e
    if m = 0 then ⟨a, 0⟩
    else if top < -12 then
      let x2 := fxMul (toFx m e) (toFx m e)
      bounded n 2 ⟨m * (fxOne - max 1 (x2 / 3) + 2 * fxMul x2 x2 / 15), e - 96⟩ (decide (top < -126)) (Config.tanh a)
    else
      let y := fxMul (2 * toFx m (min e 8)) fxLog2e
      let i := y / fxOne
      -- u = e^(-2x)
      let u := if 300 < i then 1 else max 1 (fxOne * fxOne / fxExp2 (y % fxOne) / 2 ^ i)
      bounded n 2 ⟨(fxOne - u) * fxOne / (fxOne + u), -96⟩ false (Config.tanh a)

/-- ±sin(πr) for an exact r = m·2^e in (0, 1/2). -/
def sinPart (neg : Bool) (m : Nat) (e : Int) (free : Word) : Fl Word :=
  let y := fxMul fxPi (toFx m e)
  let c := (sincSeries 30 (fxMul y y) 0 fxOne).toNat
  -- tiny when π·m·2^e rounds below 2^-126: at e = -149 that is m ≤ 2,670,176
  let x : Dy := ⟨m * fxMul fxPi c, e - 96⟩
  let one : Dy := ⟨fxOne - 1, -96⟩
  bounded neg 2 (if x.le one then x else one) (decide ((m : Int) * 2 ^ (e + 149).toNat ≤ 2670176)) free

/-- x mod 2 as a multiple of 2^e, for an x = m·2^e with e ≤ 0. -/
def mod2 (m : Nat) (e : Int) : Nat := m % 2 ^ (1 - e).toNat

/-- sin(πt) for t = k·2^e in [0, 2), e ≤ −1, with `odd` telling the sign of the argument; results at multiples of 1/2 are
exact and not treated here. -/
def sinQuadrant (neg : Bool) (k : Nat) (e : Int) (free : Word) : Fl Word :=
  let one := 2 ^ (-e).toNat
  let neg1 := neg != decide (one ≤ k)
  let k1 := if one ≤ k then k - one else k
  sinPart neg1 (if one < 2 * k1 then one - k1 else k1) e free

def sinpiF (a : Word) : Fl Word :=
  match f32 a with
  | .nan s => (F32.nanR s).word
  | .inf _ => (F32.nanR true).word
  | .fin n m e =>
    if m = 0 then ⟨a, 0⟩
    else if 0 ≤ e || (mod2 m e) % 2 ^ (-e).toNat = 0 then ⟨BitVec.ofNat 32 (F32.sign n), 0⟩
    else
      let k := mod2 m e
      let one := 2 ^ (-e).toNat
      if 2 * k = one then ⟨BitVec.ofNat 32 (F32.sign n + 0x3F800000), 0⟩
      else if 2 * k = 3 * one then ⟨BitVec.ofNat 32 (F32.sign (!n) + 0x3F800000), 0⟩
      else sinQuadrant n k e (Config.sinpi a)

def cospiF (a : Word) : Fl Word :=
  match f32 a with
  | .nan s => (F32.nanR s).word
  | .inf _ => (F32.nanR true).word
  | .fin _ m e =>
    if m = 0 || 1 ≤ e then ⟨0x3F800000, 0⟩
    else if e = 0 then ⟨if m % 2 = 0 then 0x3F800000 else 0xBF800000, 0⟩
    else
      let k := mod2 m e
      let one := 2 ^ (-e).toNat
      if k = 0 then ⟨0x3F800000, 0⟩
      else if k = one then ⟨0xBF800000, 0⟩
      else if 2 * k = one || 2 * k = 3 * one then ⟨0, 0⟩
      else
        -- cos(πt) = sin(π(t + 1/2)), taken modulo 2, on a grid twice as fine
        sinQuadrant false ((2 * k + one) % (4 * one)) (e - 1) (Config.cospi a)

end Sys2Proof.Machine
end

