-- ==== Sys2Proof/Syntax.lean ====
section
/-!
DEFINITION. The instructions and device events of the A480: one constructor of `Instr` for each row of
spec/opcode_table.json. Function and sub-function codes are inductive types whose numbers stand in 09_encoding.md
Table 9-9. A prefix (PFXI, PFXP, PFXJ; R184–R187) is an operand of the instruction it joins. Device events carry the data
that names what the event acts on, and whatever comes from outside the package.
-/

namespace Sys2Proof

/-- SALU, VALU, VALUS functions (Table 9-9). -/
inductive AluFn where
  | add | sub | mul | mulh | mulhn | and | or | xor | shl | shr | sra | min | max | minn | maxn | adds
  deriving DecidableEq, Repr

/-- SCMP, VCMP, VCMPS conditions (Table 9-9). -/
inductive CmpFn where
  | eq | ne | lt | le | gt | ge | ltn | len | gtn | gen
  deriving DecidableEq, Repr

/-- VMAD functions (R233). -/
inductive MadFn where
  | mad | madh | madhn | mads
  deriving DecidableEq, Repr

/-- VUN functions (R235). -/
inductive VunFn where
  | mov | not | neg | abs | clz | popc | brev | bcst | lane | sextb | sexth | zextb | zexth
  deriving DecidableEq, Repr

/-- VPACK functions (R239). -/
inductive PackFn where
  | hlo | hhi | blo | bhi
  deriving DecidableEq, Repr

/-- VOTE functions (R214). -/
inductive VoteFn where
  | any | all | cnt | eq
  deriving DecidableEq, Repr

/-- SHFL operations (R215). -/
inductive ShflOp where
  | idx | up | down | xor
  deriving DecidableEq, Repr

/-- KOP functions (R222). -/
inductive KopFn where
  | and | or | xor | andn | not | mov | pop | first | last | fromv | tov | clear | fill
  deriving DecidableEq, Repr

/-- FALU, FALUS functions (R240). -/
inductive FaluFn where
  | add | sub | mul | min | max | minm | maxm | absd | copys | scalb
  deriving DecidableEq, Repr

/-- FFMA functions (R241). -/
inductive FmaFn where
  | fma | fms | nfma | nfms
  deriving DecidableEq, Repr

/-- FCMP conditions (R242). -/
inductive FcmpFn where
  | eq | ne | lt | le | gt | ge | un | ord
  deriving DecidableEq, Repr

/-- FUN functions (R243). -/
inductive FunFn where
  | abs | neg | rcp | rsq | sqrt | exp2 | log2 | tanh | sinpi | cospi | floor | ceil | trunc | rint | cls | frac
  deriving DecidableEq, Repr

/-- HALU functions (R244). -/
inductive HaluFn where
  | add2 | sub2 | mul2 | min2 | max2 | neg2 | abs2
  deriving DecidableEq, Repr

/-- CVT functions (R246). -/
inductive CvtFn where
  | f32I32 | f32N32 | i32F32Rz | i32F32Rne | i32F32Rd | i32F32Ru | n32F32Rz | n32F32Rne
  | f16x2 | bf16x2 | bf16x2Rz | f16l | f16h | bf16l | bf16h
  deriving DecidableEq, Repr

/-- EXPD source kinds (R248). -/
inductive ExpdKind where
  | int4 | nat4 | e2m1 | e3m2 | e2m3 | lut
  deriving DecidableEq, Repr

/-- REDI functions, and the MRED.W and MRED.D operations, which have the same codes (Table 9-9). -/
inductive RedFn where
  | add | min | max | minn | maxn | and | or | xor
  deriving DecidableEq, Repr

/-- REDF functions, and the MRED.F operations, which have the same codes (Table 9-9). -/
inductive RedfFn where
  | add | min | max
  deriving DecidableEq, Repr

/-- Shift kinds of SSHI and VSHI (R226, R238). -/
inductive ShiftKind where
  | shl | shr | sra
  deriving DecidableEq, Repr

/-- BU conditions (R208). -/
inductive BuCond where
  | any | all | none | nall
  deriving DecidableEq, Repr

/-- FENCE kinds (R265). -/
inductive FenceKind where
  | acq | rel | acqrel | sc
  deriving DecidableEq, Repr

/-- WAIT conditions (R266). -/
inductive WaitCond where
  | eq | ne | gep | gen | masknz
  deriving DecidableEq, Repr

/-- Access widths .B, .H, .W, .D of the lane accesses (R254). -/
inductive Width where
  | b | h | w | d
  deriving DecidableEq, Repr

/-- The fields of a PFXP word (R186, Table 9-2). -/
structure Pfxp where
  pred  : BitVec 3
  inv   : Bool
  pol   : BitVec 2
  scope : BitVec 3
  rbs   : Bool
  deriving DecidableEq, Repr

/-- A PFXP in front of the instruction, if there is one. -/
abbrev Pfx := Option Pfxp
/-- The imm25 of a PFXI in front of the instruction, if there is one (R185). -/
abbrev Imx := Option (BitVec 25)

/-! ### Data of device events -/

/-- A fault queue: the device queue of level 0 (`none`) or the queue of a partition (R382). -/
abbrev QueueId := Option Nat

/-- A control-port message as it arrives (R430, Table 20-3): the fields of its header flit, whose TYPE is its row's, the bytes of its
payload flits as they were encrypted, and its tag flit. -/
structure CpMsg where
  stream  : Nat
  gen     : Nat
  nonce   : Nat
  tag     : Nat
  addr    : Nat
  len     : Nat
  rsvHi   : Nat := 0        -- header bits 511:224
  rsvLo   : Nat := 0        -- header bits 31:17
  payload : List Byte
  mac     : List Byte
  deriving DecidableEq, Repr

/-- What a peer request asks for (R434). -/
inductive PeerKind where
  | read
  | write  (bytes : List Byte)
  | atomic (fn : Nat) (data cmp : Nat)
  deriving DecidableEq, Repr

/-- A request that arrives from a remote device over a peer link (R434). -/
structure PeerReq where
  srcDev : Nat
  vmid   : Nat
  exIdx  : Nat
  offset : Nat
  size   : Nat
  kind   : PeerKind
  deriving DecidableEq, Repr

/-- A request for a session: the stream, and the requester who asks (R458). -/
structure SessionReq where
  stream    : Nat
  requester : Nat
  deriving DecidableEq, Repr

/-- Where an error is detected (R450, R453). -/
inductive ErrSite where
  | sector  (pa : Nat)                      -- memory: HBM4 or DDR-5, or the cached copy that the record's unit holds
  | scratch (form off : Nat)                -- a 32-byte sector of a scratchpad
  | bstore  (form off : Nat)
  | ob      (cls off : Nat)
  | lane    (cls reg : Nat)                 -- a physical lane register
  | scalar  (cls reg : Nat)
  | kreg    (cls reg : Nat)
  | tile    (cls tile : Nat)
  | tlb     (core : Nat)                    -- a TLB or instruction-cache entry
  | control (core : Nat)                    -- other control state of the core
  | unit                                    -- other control state of the unit that the record names, of any die
  | link                                    -- a link that the record names: mesh or bridge, control port, peer link
  | engine  (op : Nat)                      -- data in a copy engine
  | shadow  (core half : Nat)               -- a saved context in a shadow bank
  deriving DecidableEq, Repr

/-- An error as detected: site, whether the code corrects it, and the raw fields of its record that only the
hardware knows (Table 22-3). -/
structure MemErr where
  site      : ErrSite
  corrected : Bool
  syndrome  : BitVec 64
  unit_     : BitVec 8
  die       : BitVec 4
  stack     : BitVec 4
  chan      : BitVec 4
  bank      : BitVec 6
  tier      : Bool
  consumer  : Option (Nat × Nat)    -- class and virtual address of the access that consumes it, if one does
  deriving DecidableEq, Repr

/-- What stops a running copy-engine operation at an element (R304). -/
inductive EngineFault where
  | xlate (va : Nat) (stage2 write : Bool)
  | prot  (va : Nat) (stage2 write : Bool)
  | race  (va tag : Nat)
  | caname
  | strict (va : Nat)
  deriving DecidableEq, Repr

/-- The instructions and device events of spec/opcode_table.json, one constructor each. -/
inductive Instr where
  -- control and class, 0x00–0x1F (Table 9-4)
  | nop
  | endClass
  | kend
  | bra (off : BitVec 25)
  | call (off : BitVec 25)
  | ret
  | switch (ra : Reg) (table : BitVec 11)
  | bu (k : Reg3) (c : BuCond) (off : BitVec 19)
  | bz (ra : Reg) (off : BitVec 18)
  | bnz (ra : Reg) (off : BitVec 18)
  | bspl (joinOff : BitVec 25) (k : Reg3) (inv : Bool) (off : BitVec 19)
  | join
  | allb
  | alle
  | wbase (n : BitVec 9)
  | vote (fn : VoteFn) (rd ra : Reg)
  | shfl (p : Pfx) (op : ShflOp) (all : Bool) (rd ra rb : Reg)
  | srd (rd : Reg) (ix : BitVec 11)
  | swr (ra : Reg) (ix : BitVec 11)
  | trap (code : BitVec 11)
  | brk (code : BitVec 11)
  | launch (rd ra : Reg)
  | kop (p : Pfx) (fn : KopFn) (rd ra rb : Reg)
  -- matrix, operand buffer, checks, locks (13_isa_matrix.md)
  | obRes (rd ra : Reg)
  | obRel (ra : Reg)
  | obSt (rd ra rb : Reg)
  | obLd (rd ra rb : Reg)
  | obStat (rd ra : Reg)
  | matZero (rd : Reg3)
  | matLoop (rd : Reg3) (ra rb : Reg)
  | matDrain (rd : Reg3) (ra rb : Reg)
  | matStat (rd : Reg) (ra : Reg3)
  | chkbLane (rd ra rb : Reg)
  | chkbScalar (rd ra rb : Reg)
  | tlkLock (rd ra rb : Reg)
  | tlkUnlk (ra : Reg)
  | pstd (rs ra : Reg) (off : BitVec 7) (la : La)
  -- scalar and system, 0x20–0x2F (Table 9-5)
  | salu (fn : AluFn) (rd ra rb : Reg)
  | scmp (fn : CmpFn) (rd ra rb : Reg)
  | saddi (x : Imx) (rd ra : Reg) (imm : BitVec 11)
  | sandi (x : Imx) (rd ra : Reg) (imm : BitVec 11)
  | sori (x : Imx) (rd ra : Reg) (imm : BitVec 11)
  | sshi (kind : ShiftKind) (rd ra : Reg) (n : BitVec 6)
  | slui (rd : Reg) (imm : BitVec 18)
  | smovv (rd ra : Reg) (lane : BitVec 10)
  | crd (rd : Reg) (below : Bool) (ix : BitVec 10)
  | cwr (ra : Reg) (below : Bool) (ix : BitVec 10)
  | tret
  | tlbFill (rd ra rb : Reg)
  | tlbInv (rd ra rb : Reg)
  | tlbInva (rd rb : Reg)
  | tlbShoot (rd ra rb : Reg)
  | tlbLook (rd ra rb : Reg)
  | sealAdmit (rd ra rb : Reg)
  | sealSeal (rd ra rb : Reg)
  | sealUnseal (rd ra : Reg)
  | ctxSave (rd ra rb : Reg)
  | ctxLoad (rd ra rb : Reg)
  | ctxPark (rd ra : Reg)
  | ctxResume (rd ra : Reg)
  | rightsGrant (rd ra rb : Reg)
  | rightsRevoke (rd ra rb : Reg)
  | rightsRoute (rd ra rb : Reg)
  | pldd (rd ra : Reg) (off : BitVec 7) (la : La)
  -- lane integer, 0x30–0x39 (Table 9-6)
  | valu (p : Pfx) (fn : AluFn) (rd ra rb : Reg)
  | valus (p : Pfx) (fn : AluFn) (rd ra rb : Reg)
  | vmad (p : Pfx) (fn : MadFn) (rd ra rb : Reg)
  | vcmp (p : Pfx) (fn : CmpFn) (kd : Reg3) (ra rb : Reg)
  | vcmps (p : Pfx) (fn : CmpFn) (kd : Reg3) (ra rb : Reg)
  | vun (p : Pfx) (fn : VunFn) (rd ra : Reg)
  | vsel (p : Pfx) (rd ra rb : Reg) (k : Reg3)
  | vaddi (x : Imx) (p : Pfx) (rd ra : Reg) (imm : BitVec 11)
  | vshi (p : Pfx) (kind : ShiftKind) (rd ra : Reg) (n : BitVec 5)
  | vpack (p : Pfx) (fn : PackFn) (rd ra rb : Reg)
  -- floating point, 0x40–0x4B (Table 9-7)
  | falu (p : Pfx) (fn : FaluFn) (rd ra rb : Reg)
  | falus (p : Pfx) (fn : FaluFn) (rd ra rb : Reg)
  | ffma (p : Pfx) (fn : FmaFn) (scalar : Bool) (rd ra rb : Reg)
  | fcmp (p : Pfx) (fn : FcmpFn) (kd : Reg3) (ra rb : Reg)
  | funit (p : Pfx) (fn : FunFn) (rd ra : Reg)
  | halu (p : Pfx) (bf : Bool) (fn : HaluFn) (rd ra rb : Reg)
  | hfma (p : Pfx) (bf wide : Bool) (rd ra rb : Reg)
  | cvt (p : Pfx) (fn : CvtFn) (rd ra rb : Reg)
  | cvt8Pack (p : Pfx) (e5 hi sat : Bool) (rd ra rb : Reg)
  | cvt8Unpack (p : Pfx) (e5 : Bool) (byte : BitVec 2) (rd ra : Reg)
  | expd (p : Pfx) (kind : ExpdKind) (hi : Bool) (rd ra rb : Reg)
  | redi (fn : RedFn) (rd ra : Reg)
  | redf (fn : RedfFn) (rd ra : Reg)
  -- memory, 0x50–0x7F (Table 9-8)
  | ldl (x : Imx) (p : Pfx) (wd : Width) (rd ra : Reg) (off : BitVec 7) (la : La)
  | stl (x : Imx) (p : Pfx) (wd : Width) (rs ra : Reg) (off : BitVec 7) (la : La)
  | ldi (p : Pfx) (wd : Width) (rd ra rb : Reg) (la : La)
  | sti (p : Pfx) (wd : Width) (rs ra rb : Reg) (la : La)
  | sld (x : Imx) (p : Pfx) (dbl : Bool) (rd ra : Reg) (off : BitVec 7) (la : La)
  | sst (x : Imx) (p : Pfx) (dbl : Bool) (rs ra : Reg) (off : BitVec 7) (la : La)
  | lds (x : Imx) (p : Pfx) (dbl : Bool) (rd ra : Reg) (off : BitVec 7) (la : La)
  | sts (x : Imx) (p : Pfx) (dbl : Bool) (rs ra : Reg) (off : BitVec 7) (la : La)
  | ldaq (x : Imx) (p : Pfx) (rd ra : Reg) (off : BitVec 7) (la : La)
  | strl (x : Imx) (p : Pfx) (rs ra : Reg) (off : BitVec 7) (la : La)
  | aadd (p : Pfx) (rd ra rb : Reg) (la : La)
  | amin (p : Pfx) (rd ra rb : Reg) (la : La)
  | amax (p : Pfx) (rd ra rb : Reg) (la : La)
  | aand (p : Pfx) (rd ra rb : Reg) (la : La)
  | aor (p : Pfx) (rd ra rb : Reg) (la : La)
  | axor (p : Pfx) (rd ra rb : Reg) (la : La)
  | axch (p : Pfx) (rd ra rb : Reg) (la : La)
  | acas (p : Pfx) (rd ra rb : Reg) (la : La)
  | afadd (p : Pfx) (rd ra rb : Reg) (la : La)
  | mredW (p : Pfx) (fn : RedFn) (ra rb : Reg) (la : La)
  | mredD (p : Pfx) (fn : RedFn) (ra rb : Reg) (la : La)
  | mredF (p : Pfx) (fn : RedfFn) (ra rb : Reg) (la : La)
  | rldsF (p : Pfx) (bf : Bool) (rd ra : Reg) (off : BitVec 6) (la : La)
  | rldsI (p : Pfx) (rd ra : Reg) (off : BitVec 6) (la : La)
  | fence (scope : BitVec 3) (kind : FenceKind)
  | wait (p : Pfx) (c : WaitCond) (ra rb : Reg)
  | bari (p : Pfx) (ra rb : Reg)
  | barv (p : Pfx) (ra rb : Reg)
  | barw (p : Pfx) (ra rb : Reg)
  | barx (p : Pfx) (ra rb : Reg)
  | barz (p : Pfx) (ra : Reg)
  | barp (p : Pfx) (rd ra : Reg)
  | cpyGs (rd ra rb : Reg)
  | cpySg (rd ra rb : Reg)
  | cpyGob (rd ra rb : Reg)
  | cpyGb (rd ra rb : Reg)
  | cpySob (rd ra rb : Reg)
  | cpyCas (rd ra rb : Reg)
  | cpyCag (rd ra rb : Reg)
  | cpySca (rd ra rb : Reg)
  | cpyGg (rd ra rb : Reg)
  | caLoa (rd ra : Reg)
  | caNode (rd ra : Reg)
  | caRef (ra : Reg)
  | caRel (ra : Reg)
  | caGet (rd ra : Reg)
  | caSwap (rd ra rb : Reg)
  | caStat (rd ra : Reg)
  | cld (p : Pfx) (rd ra rb : Reg) (la : La)
  | pref (p : Pfx) (count ra : Reg) (off : BitVec 7)
  -- device events (no encoding; rows 137–213 of the table)
  | loadValueReturn (cls acc : Nat) (lanes : Mask)
  | storePerformed (cls acc lane : Nat)
  | monitorAtomic (cls acc : Nat)
  | releaseQueueEntry (vmid store monitor : Nat)
  | copyEngineStart (op : Nat)
  | copyEngineComplete (op : Nat)
  | matLoopRun (core op : Nat)
  | matLoopComplete (core op : Nat)
  | matDrainRun (core op : Nat)
  | twinRendezvous (core op : Nat)
  | twinwaitExpiry (core op : Nat)
  | runnerSpawn (cls split acc : Nat)
  | handlerEntry (core level : Nat)
  | handlerTimeLimit (core level : Nat)
  | walkerStart (core : Nat)
  | logReplay (cls acc : Nat)
  | faultQueueAppend (q : QueueId)
  | fqdoneReplay (q : QueueId) (seq : Nat)
  | fqdoneForward (q : QueueId) (seq : Nat)
  | fqdoneKill (q : QueueId) (seq : Nat)
  | fqdoneAbort (q : QueueId) (seq : Nat)
  | fqconsWrite (q : QueueId) (value : Nat)
  | dlconsWrite (vmid value : Nat)
  | cadescInstall (vmid asid addr : Nat)
  | cadescFresh (vmid asid addr : Nat)
  | queueEnable (vmid queue : Nat)
  | queueDisable (vmid queue : Nat) (abort : Bool)
  | takeLaunchPacket (vmid : Nat)
  | fencePacket (vmid queue : Nat)
  | fenceWordWrite (vmid queue : Nat)
  | submitServiceRecord (vmid : Nat)
  | placeHouse (launch house unit_ : Nat)
  | formEnd (form : Nat)
  | launchComplete (launch : Nat)
  | deadlineExpiry (form : Nat)
  | energyWindowEnd (window package : Nat)
  | bandwidthRefill
  | bandwidthSet (vmid : Nat) (asid : Option Nat) (rate depth : Nat)
  | energyShareWrite (vmid : Option Nat) (value : Nat)
  | rotationWrite (core : Nat) (entry : Option Nat) (value : BitVec 64)
  | rotationPeriodBoundary (core : Nat)
  | sliceBoundary (core : Nat)
  | virtualTimeAdjust (vmid : Nat) (scale : Bool) (value : BitVec 64)
  | timerExpiry (vmid : Nat)
  | strictRetry (cls acc : Nat)
  | strictTimeout (cls acc : Nat)
  | registrarAdmission
  | unsealCompletion (handle : Nat)
  | cpWrite (m : CpMsg)
  | cpRead (m : CpMsg)
  | cpCwrite (m : CpMsg)
  | cpCread (m : CpMsg)
  | keysw (m : CpMsg)
  | oldKeyExpiry (stream : Nat)
  | peerRequest (r : PeerReq)
  | peerTimeout (cls acc : Nat)
  | replicaRequest (vmid setId offset size : Nat)
  | gatherResponse (cls acc count : Nat) (sums : List Word)
  | gatherTimeout (cls acc : Nat)
  | getCertificate (stream : Nat)
  | getMeasurements (stream index : Nat)
  | keyExchange (r : SessionReq)
  | keyUpdate (stream : Nat)
  | resetRequest (confidential : Bool)
  | powerOnReset
  | keyRekey (tag : Nat)
  | coreRestart (core : Nat)
  | errorSnapshot (vmid : Option Nat) (ix : Nat)
  | measurementExtend (slot pa : Nat)
  | memoryError (e : MemErr)
  | patrolScrub (pa : Nat) (err : Option MemErr)
  | thermalThrottle (temp : Nat)
  | thermalTrip (temp : Nat)
  | instructionFetch (cls split : Nat)
  | monitorContentOperation (req : Nat)
  | copyEngineFault (op : Nat) (why : EngineFault)
  | thermalRecovery (temp : Nat)
  deriving DecidableEq, Repr

end Sys2Proof
end

