-- ==== Sys2Proof/Machine/State.lean ====
section
/-!
DEFINITION. The state of the package as plain data: everything the spec names (INVENTORY.md, State), and beside it the
model's own fields `agenda`, `iss`, `nextId` and `free`. `State.reset` is the machine right after a power-on reset.
-/

namespace Sys2Proof.Machine

/-- Memory: (address, byte) pairs with strictly rising addresses and no byte equal to 0, what an unlisted address reads as
(R445 step 3; log entry 2). -/
abbrev Memory := List Host.Cell

/-- The canonical form: strictly rising addresses, no zero byte listed. -/
def Memory.wf : Memory → Bool
  | [] => true
  | (a, b) :: m => b != 0 && m.all (fun c => decide (a < c.1)) && Memory.wf m

/-- Cause codes (R337, Table 16-7). -/
inductive Cause where
  | illop | illstate | kendx | fetchb | align | addr | xlate | prot | xlock | chk | race | scratch | barcount
  | twinfail | matmis | obfault | cafull | cacoll | caname | trapi | breakp | deadline | priv | right | ecc
  | dirtyfull | strict | orphan
  deriving DecidableEq, Repr

/-- An open level of a split (R30–R32): a child's join, or a level record with its deferred side and kept survivors. -/
inductive LevelRec where
  | child (join : Int)
  | deferred (join pc : Int) (set kept : Mask)
  deriving DecidableEq, Repr

/-- Why a split is blocked (R34, R37): what it waits for. -/
inductive Block where
  | event                                                  -- a precise event not yet disposed of (R337)
  | wait (form off : Nat) (c : WaitCond) (cmp : Word) (scope : Nat)   -- WAIT (R266)
  | barw (form off phase scope : Nat)                      -- BARW (R269)
  | content (req : Nat)                                    -- a content operation (R274)
  | engine (op : Nat)                                      -- CPY.SCA until completion (R303)
  | status                                                 -- SEAL.ADMIT, SEAL.UNSEAL before their status (R348)
  | fetch                                                  -- a fetch whose translation is being walked (R363)
  deriving DecidableEq, Repr

/-- The state of a split-table entry (R30). -/
inductive SplitState where
  | free
  | ready
  | blocked (b : Block)
  | joinParent (join : Int)   -- at-join: its children run
  | joinChild                 -- at-join: arrived, waiting for its sibling
  deriving DecidableEq, Repr

/-- A long-latency instruction a split has outstanding, and how many more instructions may issue past it (R39). -/
structure Pend where
  acc  : Nat
  left : Nat
  deriving DecidableEq, Repr

/-- A split-table entry (R30). -/
structure Split where
  state  : SplitState := .free
  pc     : Int := 0
  mask   : Mask := 0
  parent : Nat := 0
  levels : List LevelRec := []       -- innermost first
  age    : Nat := 0
  held   : Bool := false             -- its next instruction could not issue yet (R37)
  pend   : List Pend := []
  parked : Option Nat := none        -- parked by UNSEAL of a handle (R375)
  stops  : Nat := 0                  -- events of instructions it has left behind that hold it, beside the one it is blocked by (R381)
  run    : Option Nat := none        -- virtual address of the last line of its prefetched run, which may go on (R43)
  queued : Bool := false             -- its OB.REL waits for its turn in the sequencer's queue (R285)
  owed   : Option (List Word) := none -- a blocked group that completed under single-stepping: its BREAK is due (R454)
  deriving DecidableEq, Repr

/-- An accumulator tile: 4,096 elements in row order, its kind, STEPS, DUP and TWS (R55, R285), and poison (R453). -/
structure Tile where
  el     : List Word := []           -- an unlisted element is 0
  isInt  : Bool := false
  steps  : Nat := 0
  dup    : Bool := false
  tws    : Bool := false
  poison : Bool := false
  deriving DecidableEq, Repr

/-- Operations of the returning atomics (R260). -/
inductive AtomFn where
  | add | min | max | and | or | xor | xch | cas | fadd
  deriving DecidableEq, Repr

/-- What a memory instruction in flight does (12_isa_memory.md, R299, R308, R352). -/
inductive AccOp where
  | load (n : Nat)
  | loadScalar (n : Nat)
  | loadAcquire
  | store (n : Nat)
  | storeScalar (n : Nat)
  | storeRelease (count : Nat)
  | loadScratch (n : Nat)
  | storeScratch (n : Nat)
  | atomic (f : AtomFn)
  | mred (n : Nat) (f : RedFn)
  | mredF (f : RedfFn)
  | rlds (bf isInt : Bool)
  | cld (name : BitVec 128) (depth width : Nat)
  | physLoad
  | physStore
  | tlk (pages : Nat)
  | launch
  | copy (fn : Nat)
  | slotGet
  | slotSwap (expected : BitVec 128) (new : BitVec 256)
  deriving DecidableEq, Repr

/-- The page an access was translated through: virtual, guest-physical and physical base, and size; of size 0 for none. -/
structure PageAt where
  va   : Nat := 0
  ga   : Nat := 0
  pa   : Nat := 0
  size : Nat := 0
  deriving DecidableEq, Repr

/-- One lane of a memory instruction: exact effective address, data, translated address (R97). -/
structure LaneReq where
  lane : Nat
  ea   : Int
  data : Nat := 0
  cmp  : Nat := 0        -- the second datum of ACAS
  pa   : Nat := 0
  attr : DWord := 0      -- the TLB entry's attributes (Table 17-2)
  key  : Nat := 0        -- its owner tag
  unc  : Bool := false   -- performed at the memory controller (XPART without CA, uncached)
  win  : Bool := false   -- read from the copy window (R63)
  peer : Bool := false   -- sent over a peer link; `pa` is the guest address (R433)
  page : PageAt := {}
  done : Bool := false
  deriving DecidableEq, Repr

/-- A fault as a fault-queue entry or event record reports it. -/
structure FaultInfo where
  cause  : Cause
  stage2 : Bool := false
  write  : Bool := false
  addr   : Nat := 0
  lane   : Nat := 0x7FFF
  aux    : Nat := 0
  deriving DecidableEq, Repr

/-- Where a memory instruction stands: performed from the fabric or the store buffer, held in the operand log (R377), refused with
RETRY in strict mode (R131), or stopped by a precise event that takes no log entry (R131, R161, R453). -/
inductive Stage where
  | fabric
  | walking
  | delivered (level : Nat) (seq : Option Nat)
  | ready
  | retry (since : Nat)
  | stopped
  deriving DecidableEq, Repr

/-- A memory instruction in flight: outstanding load, store-buffer entry, atomic or operand-log entry (R61, R252, R377). -/
structure Access where
  id     : Nat
  split  : Nat := 0
  pc     : Int := 0
  words  : List Word := []
  mask   : Mask := 0
  op     : AccOp
  lanes  : List LaneReq := []
  pol    : Nat := 0
  scope  : Nat := 0
  dest   : List Nat := []            -- physical lane registers, bound at issue (R49)
  sdest  : Option Reg := none
  srcs   : List DWord := []          -- captured scalar sources
  stage  : Stage := .fabric
  fault  : Option FaultInfo := none
  sync   : Bool := false
  counts : Bool := false             -- counts in SOC (R61)
  replayed : Bool := false           -- a log entry whose replay is under way (R380)
  halted   : Bool := false           -- saved with its context before it was performed (R129)
  logix    : Option Nat := none      -- its entry of the class's operand log (R377, R384)
  found    : Option FaultInfo := none -- of the walks that have ended, the fault of the lowest lane (R380)
  perLane : Nat := 0                 -- captured source bytes of each lane (R377)
  gen    : Nat := 0                  -- the context's generation (R392)
  sent   : Nat := 0                  -- device time of a peer or gather request (R434, R435)
  deriving DecidableEq, Repr

/-- An entry of a class's locked-TLB list (R308). -/
structure Lock where
  page   : Nat          -- virtual address of the page
  size   : Nat
  first  : Nat          -- the list index its handle names
  stale  : Bool := false
  deriving DecidableEq, Repr

/-- What a class is: a launch's, a handler of a level, the walker of a core, the Bursar, or a runner's stand-in (R24, R40). -/
inductive ClsKind where
  | launch
  | handler
  | walker
  | bursar
  deriving DecidableEq, Repr

/-- A class lives, has ended but holds its slot for want of residual entries (R386), or has ended. -/
inductive ClsStatus where
  | live | ending | ended
  deriving DecidableEq, Repr

/-- A class with its state (R64, Table 3-6). -/
structure Cls where
  id      : Nat
  kind    : ClsKind := .launch
  status  : ClsStatus := .live
  core    : Nat := 0
  slot    : Nat := 0
  level   : Nat := 2
  vmid    : Nat := 0
  asid    : Nat := 0
  launch  : Nat := 0
  form    : Nat := 0
  formno  : Nat := 0
  houseno : Nat := 0
  forminh : Nat := 0
  classno : Nat := 0
  twin    : Nat := 0
  lanes   : Nat := 32                 -- L
  nregs   : Nat := 128                -- N
  ntiles  : Nat := 0                  -- t
  quota   : Nat := 0                  -- Q
  segb    : Nat := 0                  -- segment bound
  code    : Nat := 0                  -- address of the first code word
  njt     : Nat := 0
  image   : DWord := 0                -- handle of its image
  lrec    : Nat := 0                  -- address of the record's copy
  band    : Nat := 0
  tag     : Nat := 0                  -- race tag (R135)
  cstore  : Option Nat := none        -- the content store of its launch (R143)
  wb      : Nat := 0
  v       : List (List Word) := []    -- by physical register, then lane; unlisted reads 0
  s       : Vector DWord 128 := Vector.replicate 128 0
  k       : Vector Mask 8 := Vector.replicate 8 0
  splits  : List Split := []          -- 16 entries; entry 0 the root
  bracket : Option Mask := none
  tiles   : List Tile := []
  obRes   : List (Option DWord) := [] -- 16 reservations
  obGen   : List Nat := []            -- 16 generations
  ob      : Memory := []              -- quota bytes
  cstat   : Word := 0
  mem     : List Access := []         -- in program order
  locks   : List (Option Lock) := []  -- 16 entries
  lockGen : List Nat := []            -- generations of the 16 list indices
  cycle   : Nat := 0
  poisonV : List (Nat × Nat) := []    -- lane registers (0), scalars (1), k registers (2) that hold an error (R453)
  obPoison : List Nat := []           -- poisoned 32-byte sectors of the quota
  restoring : Bool := false           -- restored, and its replays come before its next instruction (R396)
  endDue   : Bool := false            -- ended, and its end is not yet a release: accesses stand (R119, R135)
  deriving DecidableEq, Repr

/-- A form, with its scratchpad, barriers and B-store allocation (R19, R98–R101). -/
structure Form where
  id       : Nat
  launch   : Nat := 0
  house    : Nat := 0
  inh      : Nat := 0
  formno   : Nat := 0
  core     : Nat := 0
  vmid     : Nat := 0
  size     : Nat := 0                -- scratchpad allocation
  bars     : Nat := 0
  scratch  : Memory := []
  bsize    : Nat := 0
  bstore   : Memory := []
  btags    : List (Nat × Nat) := []  -- format tag of a 64-byte unit (R283); unlisted is none
  ftime    : Nat := 0
  timeLeft : Nat := 0                -- DEADL
  fenergy  : Nat := 0
  energy   : Nat := 0
  throttled : Bool := false          -- its ENERGY exceeds FENERGY (R414)
  capped   : Bool := false           -- throttled for the package cap (R425)
  stopped  : Bool := false           -- its time bound has expired (R413)
  scrPoison : List Nat := []         -- poisoned 32-byte sectors
  bstPoison : List Nat := []
  deriving DecidableEq, Repr

/-- An event on its way to a handler (R337, R339). -/
structure Event where
  cause  : Cause
  from_  : Nat := 2
  cls    : Nat := 0
  split  : Nat := 0
  hasSplit : Bool := false
  acc    : Option Nat := none        -- the logged instruction, for an event delivered to a tenant (R381)
  launch : Nat := 0
  form   : Nat := 0
  core   : Nat := 0
  cslot  : Nat := 0x1F
  vmid   : Nat := 0
  asid   : Nat := 0
  epc    : DWord := 0
  skipTo : Int := 0                  -- where SKIP resumes (R344)
  resume : Int := 0                  -- where RESUME resumes
  words  : List Word := []
  mask   : Mask := 0
  depth  : Nat := 0
  lane   : Nat := 0x7FFF
  addr   : DWord := 0
  aux    : DWord := 0
  time   : DWord := 0
  write  : Bool := false
  stage2 : Bool := false
  async  : Bool := false
  nested : Bool := false
  nohandler : Bool := false
  deriving DecidableEq, Repr

/-- An event waiting for a handler slot of a level on a core (R342). -/
structure Pending where
  core  : Nat
  level : Nat
  ev    : Event
  deriving DecidableEq, Repr

/-- A handler slot in use (R342–R344), with the values it began with (R336). -/
structure HSlot where
  core   : Nat
  level  : Nat
  cls    : Nat
  ev     : Event
  vmid   : Nat
  asid   : Nat
  buf    : Nat                        -- HBUF + 256·core
  reply  : Nat := 0                   -- where reply word 0 lies in physical memory, as translated at entry
  replyTag : Nat := 0                 -- with its owner tag, and whether it is reached at the memory controller or over a peer link
  replyUnc : Bool := false
  replyPeer : Bool := false
  limit  : Nat
  ran    : Nat := 0
  tabAt  : Nat := 0                   -- its table in the copy window, with its words (R341)
  table  : List DWord := []
  deriving DecidableEq, Repr

/-- Where a TLB entry lies (R362). -/
inductive TlbHome where
  | core (c : Nat)
  | lockable (c cls : Nat)
  | quad (q : Nat)
  deriving DecidableEq, Repr

/-- A TLB entry (R360, R362, R365). -/
structure TlbEntry where
  home  : TlbHome
  vmid  : Nat
  asid  : Nat
  va    : Nat            -- base of the virtual page
  size  : Nat            -- bytes
  ga    : Nat            -- base of the guest page
  pa    : Nat            -- base of the physical page
  attr  : DWord          -- Table 17-2 layout
  key   : Nat
  xpart : Bool
  sf    : Bool           -- every frame sealed
  sw    : Bool           -- some frame sealed
  stale : Bool := false
  deriving DecidableEq, Repr

/-- A slot of a core's miss queue (R363). -/
structure MissSlot where
  core   : Nat
  ix     : Nat
  vmid   : Nat
  asid   : Nat
  page   : Nat           -- 4 KiB virtual page base
  ea     : Nat
  write  : Bool := false
  fetch  : Bool := false
  dmiss  : Bool := false
  engine : Option Nat := none   -- the copy-engine operation
  who    : Nat := 0             -- requesting core
  inRun  : Bool := false        -- offered in the walker's current run
  stale  : Bool := false        -- emptied since the run began (R365)
  shot   : List (Bool × Nat × Nat) := []   -- invalidations of its VMID and ASID since then: by guest page or not, and the range
  waiters : List (Nat × Nat × Nat) := []   -- class, access (or split, for a fetch) and lane that wait in the slot
  deriving DecidableEq, Repr

/-- What a page's attributes say of its lines at the home: write-back (WPOL 0), EVICT as a rank, the bytes of its grain (R105, R107). -/
structure LineAttr where
  wb    : Bool := true
  rank  : Nat := 1
  grain : Nat := 32
  deriving DecidableEq, Repr

/-- An L1 sector (R107, R108). -/
structure L1Sector where
  core   : Nat
  pa     : Nat           -- base of the 32-byte sector
  vmid   : Nat
  bytes  : List Byte
  priv   : Bool := false -- of a private page
  dirty  : Bool := false
  key    : Nat := 0
  line   : LineAttr := {}
  rank   : Nat := 1      -- 0 next to evict, 2 last to evict (R106)
  asid   : Nat := 0      -- the page it was filled through (R108, R366)
  page   : PageAt := {}
  mark   : Bool := false -- its error mark (R453)
  deriving DecidableEq, Repr

/-- A sector in its home slice of L2 (R102, R103, R107): memory's byte list holds its value, and `old` what DRAM holds, under the
key `oldKey`. Clean, the two differ only where another partition wrote past L2 (R428). -/
structure L2Sector where
  pa     : Nat
  vmid   : Nat
  tag    : Nat           -- owner tag it was filled under
  dirty  : Bool := false
  old    : List Byte
  oldKey : Nat := 0
  rank   : Nat := 1      -- EVICT: 0 evict first, 1 normal, 2 retain (R105)
  oldMark : Bool := false -- the error mark of what DRAM holds; `State.poison` has the line's own (R453)
  deriving DecidableEq, Repr

/-- A read copy in a die's remote-data cache, of a line homed on another die (R102, R103). -/
structure RdcSector where
  die   : Nat
  pa    : Nat
  vmid  : Nat
  tag   : Nat
  bytes : List Byte
  mark  : Bool := false
  deriving DecidableEq, Repr

/-- The reach of a strict-mode pin: one scope term with the identity it is relative to (R131). -/
structure Reach where
  scope : Nat
  cls   : Nat
  form  : Nat
  launch : Nat
  house : Nat
  die   : Nat
  deriving DecidableEq, Repr

/-- A line pinned in strict mode with its held bytes (R131). -/
structure Pin where
  line   : Nat
  writer : Nat
  reach  : List Reach
  bytes  : List (Nat × Byte)
  core   : Nat := 0
  vmid   : Nat := 0
  key    : Nat := 0
  attr   : LineAttr := {}
  deriving DecidableEq, Repr

/-- Operations that stand in a matrix sequencer's queue (R285–R293). OB.RES, OB.REL and OB.STAT hold their split until their
turn (R279), so they are not issued or complete. -/
inductive SeqKind where
  | zero (tile : Nat)
  | loop (tile : Nat) (desc : List DWord) (handle : DWord)
  | drain (tile : Nat) (desc : List DWord) (handle : DWord)
  | stat (tile : Nat) (rd : Reg)
  deriving DecidableEq, Repr

/-- Where a TW operation stands in its rendezvous (R294). -/
inductive Meet where
  | none | waiting (since : Nat) | met (partner : Nat) | solo
  deriving DecidableEq, Repr

/-- An operation in a core's matrix sequencer, oldest first. -/
structure SeqOp where
  id      : Nat
  core    : Nat
  cls     : Nat
  split   : Nat
  kind    : SeqKind
  pc      : Int := 0
  words   : List Word := []
  before  : List Nat := []           -- accesses of the class that a drain waits for (R126)
  step    : Nat := 0
  running : Bool := false
  meet    : Meet := .none
  turn    : Option Nat := none       -- its place in the order in which loops became ready (R285)
  deriving DecidableEq, Repr

/-- Where a copy-engine operation stands (R304, R305). -/
inductive EngineState where
  | queued | running | walking | stopped (level : Nat) (seq : Option Nat)
  deriving DecidableEq, Repr

/-- A copy-engine operation (R299–R304). -/
structure EngineOp where
  id       : Nat
  engine   : Nat
  cls      : Nat
  split    : Nat
  form     : Nat
  launch   : Nat
  core     : Nat
  vmid     : Nat
  asid     : Nat
  tag      : Nat
  fn       : Nat
  shape    : BitVec 1024
  dst      : BitVec 1024 := 0
  coords   : List Int
  far      : DWord
  comp     : DWord
  pc       : Int
  words    : List Word := []
  rd       : Reg := 0
  name     : BitVec 128 := 0         -- the pinned root name
  depth    : Nat := 0
  pinned   : Bool := false
  before   : List Nat := []          -- accesses of the class that must be performed first (R126)
  state    : EngineState := .queued
  progress : Nat := 0                -- elements moved; of a build, nothing
  asked    : Option Nat := none      -- device time of its element's peer request (R434)
  got      : Option (List Byte) := none   -- what its element's source side has given, while the other side waits
  refusedAt : Option Nat := none     -- device time since which strict mode refuses its element (R131)
  stop     : Option EngineFault := none   -- what it met at its element, until COPY_ENGINE_FAULT (R304)
  fault    : Option FaultInfo := none     -- the fault it has been stopped with
  below    : List (BitVec 128) := []      -- a build: the names of the level below (R326)
  names    : List (BitVec 128) := []      -- and those of the level it works on
  height   : Nat := 0                     -- 0 while it makes leaves
  deriving DecidableEq, Repr

/-- A line of a content store (R144, R153). -/
inductive LineState where
  | live | dying | permanent
  deriving DecidableEq, Repr

structure CLine where
  hash  : Nat
  ord   : Nat
  node  : Bool
  data  : List Byte
  ref   : Nat
  state : LineState
  deriving DecidableEq, Repr

/-- A content store of a partition (R140, R142). -/
structure CStore where
  vmid  : Nat
  ix    : Nat
  desc  : BitVec 512 := 0
  asid  : Nat := 0
  lines : List CLine := []
  relq  : List (BitVec 128) := []         -- dying names, oldest first: a monitor's queue is those of its buckets (R154)
  deriving DecidableEq, Repr

/-- A request at a content monitor by name or content (R150, R151); a request on a slot is an access of its class. -/
inductive CReq where
  | loa (bytes : List Byte) (rd : Reg)
  | node (bytes : List Byte) (rd : Reg)
  | ref (name : BitVec 128)
  | rel (name : BitVec 128)
  | stat (name : BitVec 128) (rd : Reg)
  deriving DecidableEq, Repr

structure ContentReq where
  id    : Nat
  vmid  : Nat
  store : Option Nat
  cls   : Option (Nat × Nat)    -- class and split that wait for it; none for a release a monitor sends
  from_ : Option Nat := none    -- the monitor that sent it (R150)
  req   : CReq
  pc    : Int := 0
  words : List Word := []
  deriving DecidableEq, Repr

/-- A unit of a launch's plan: the first core of the unit, and the planned start and finish on it (R407, R408). -/
structure PlanUnit where
  core   : Nat
  start  : Nat
  finish : Nat
  houses : Nat       -- houses it receives
  conc   : Nat       -- forms of the launch that fit together on a core of it
  wave   : Nat
  deriving DecidableEq, Repr

/-- A launch the Timetable has accepted (R402, R405–R412); a refused one is not kept. -/
structure Launch where
  no       : Nat
  vmid     : Nat
  asid     : Nat
  queue    : Nat := 0
  child    : Bool := false
  service  : Bool := false          -- submitted from FQLREC (R438)
  shape    : BitVec 1024            -- its launch record
  table    : List DWord := []       -- its region table: 256 words
  lvl      : Nat := 2
  img      : Nat := 0
  recAt    : Nat := 0               -- copy-window addresses (R63)
  tabAt    : Nat := 0
  owner0   : Bool := false          -- its reports go to the device queue (R409)
  placed   : Nat := 0               -- every house below this is placed
  placedH  : List Nat := []         -- and these above it
  plan     : List PlanUnit := []    -- where its unplaced houses go: house j of them to entry j mod m (R408)
  planned  : Nat := 0               -- `placed` and `placedH` when the plan was made
  plannedH : List Nat := []
  childLeft : Nat := 0
  lapsed   : Bool := false
  noPlace  : Bool := false          -- its unplaced houses are discarded (R417, R388)
  orphan   : Bool := false
  deriving DecidableEq, Repr

/-- An image the Registrar has sealed (R176). -/
structure Image where
  handle  : DWord
  vmid    : Nat
  header  : BitVec 512
  regions : List DWord
  entry   : Nat
  code    : Nat
  segb    : Nat
  jtAt    : Nat
  tables  : List (List Nat)          -- sealed jump tables: word offsets
  runners : List (Nat × Nat × BitVec 128 × BitVec 128)
  pages   : List Nat                 -- virtual page bases
  frames  : List Nat                 -- physical frames
  asid    : Nat
  closing : Bool := false
  closer  : Option (Nat × Nat × Reg) := none   -- class, split and register that wait for UNSEAL
  deriving DecidableEq, Repr

/-- A request to the Registrar (R350). -/
structure AdmitReq where
  cls   : Nat
  split : Nat
  rd    : Reg
  vmid  : Nat
  asid  : Nat
  level : Nat
  image : Nat
  block : Nat
  deriving DecidableEq, Repr

/-- Who a fault-queue entry belongs to. -/
inductive FaultOwner where
  | access (cls acc : Nat)
  | engine (op : Nat)
  | ring (vmid : Nat)      -- a stage-2 fault of a partition's own ring (R383)
  | nobody                 -- disposed of when appended (R439)
  deriving DecidableEq, Repr

/-- A fault-queue entry: waiting for room, or appended with its SEQ and not yet disposed of (R382–R385). -/
structure QEntry where
  q     : QueueId
  seq   : Option Nat := none
  owner : FaultOwner
  entry : BitVec 512
  deriving DecidableEq, Repr

/-- Banks of control words (R335). -/
inductive Bank where
  | dev                     -- unbanked
  | core (c : Nat)          -- one copy for each core
  | level0
  | part (v : Nat)
  | tenant (v a : Nat)
  deriving DecidableEq, Repr

/-- A control word's copy: bank, index and the selector it is addressed through. -/
structure WKey where
  bank : Bank
  ix   : Nat
  sub  : Nat := 0
  deriving DecidableEq, Repr

/-- The keys of one generation of a stream, one for each direction, and its NONCE counters (R430). -/
structure StreamKeys where
  inKey  : BitVec 256
  outKey : BitVec 256
  least  : Nat := 0      -- the least NONCE it still accepts
  next   : Nat := 0      -- the NONCE of the next message it sends
  deriving DecidableEq, Repr

/-- A control-port stream (R430–R432). -/
structure Stream where
  no     : Nat
  gen    : Bool := false
  keys0  : Option StreamKeys := none
  keys1  : Option StreamKeys := none
  old    : Option Nat := none               -- device time of the KEYSW that made `gen` current
  deriving DecidableEq, Repr

/-- What the package sends out: control-port and SPDM answers, peer and gather traffic. `cp` is an answer that waits to be sent, `flits`
the message as it went out. -/
inductive Sent where
  | cp (stream gen tag type_ : Nat) (payload : List Byte)
  | flits (stream : Nat) (bytes : List Byte)
  | peer (link dev : Nat) (req : PeerReq)
  | peerAnswer (dev : Nat) (ok : Bool) (bytes : List Byte)
  | gather (format : Nat) (lanes : List (Nat × Nat))   -- of each lane, the set and the offset in it (R264, R435)
  | replica (setId offset : Nat) (bytes : List Byte)
  | spdm (stream : Nat) (bytes : List Byte)
  deriving DecidableEq, Repr

/-- A saved context of a partition on one core (R391–R394). -/
structure SavedCtx where
  core    : Nat
  vmid    : Nat
  place   : Nat              -- save area, or the half of a shadow bank
  shadow  : Bool
  gen     : Nat
  classes : List Cls
  forms   : List Form
  hslots  : List HSlot
  seq     : List SeqOp
  engines : List EngineOp
  pending : List Pending := []
  recorded : List (Nat × Nat × Nat) := []   -- dispositions that act at restore: class, access, DISP (R385)
  disposed : List (Event × Nat) := []       -- and those of events
  ends    : List Nat := []   -- classes that end at restore
  seed    : Nat := 0         -- its image in HBM: the free bytes of this seed
  bytes   : Nat := 0         -- and so many of them
  tag     : Nat := 0         -- owner tag it was written under
  mac     : List Byte := []  -- the integrity tag of that image, in H-die SRAM (R395)
  altered : Bool := false    -- the image was altered in DRAM since its SAVE (R394)
  lost    : Bool := false    -- another SAVE has taken its address
  deriving DecidableEq, Repr

/-- A request that a context had out when it was halted: its context, last on `core`, the generation it carries, and who sent it
(R392). -/
structure Ghost where
  vmid : Nat
  core : Nat
  gen  : Nat
  cls  : Nat
  acc  : Nat
  deriving DecidableEq, Repr

/-- A fence that holds a queue: its SEQ, its fence word, and the launches it waits for (R400, R401). -/
structure Fence where
  vmid  : Nat
  queue : Nat
  seq   : Nat
  word  : Nat
  upTo  : Nat            -- launch numbers below this
  deriving DecidableEq, Repr

/-- A packet of the child queue: the place of the area it was written to, oldest first, and what the Timetable keeps of its parent (R220,
R398). -/
structure ChildPkt where
  vmid   : Nat
  parent : Nat
  asid   : Nat            -- of the parent
  band   : Nat            -- of the parent
  slot   : Nat
  deriving DecidableEq, Repr

/-- Who sends requests to a memory controller (R422): a lane of an access, an element of a copy-engine operation, a PREF, a fetch, a
request at a content monitor, or a request from outside. -/
inductive Requester where
  | lane (cls acc lane : Nat)
  | element (op : Nat)
  | pref (cls split : Nat) (pc : Int)
  | fetch (cls split : Nat) (pc : Int)
  | content (req : Nat)
  | port (id : Nat)
  deriving DecidableEq, Repr

/-- A request that waits at a memory controller for tokens of a tenant's bucket or, `part`, of its partition's (R422). -/
structure BwWait where
  ctl  : Nat
  vmid : Nat
  asid : Nat
  part : Bool
  who  : Requester
  paid : Nat := 0         -- how many of its pieces have been served
  deriving DecidableEq, Repr

/-- A request from outside that waits for tokens (R422): a control-port message, a peer's, or the switch's for a replica. -/
inductive PortReq where
  | write (m : CpMsg)
  | read (m : CpMsg)
  | peer (r : PeerReq)
  | replica (vmid setId offset size : Nat)
  deriving DecidableEq, Repr

structure PortWait where
  id  : Nat
  req : PortReq
  deriving DecidableEq, Repr

/-- What energy is charged for (R424): a step of the matrix arrays in a format, a pass of the lanes, a transcendental pass, a unit of 64
bytes of the near or the far tier. -/
inductive EnergyKind where
  | matrix (fmt : Nat)
  | lane
  | transcendental
  | near
  | far
  deriving DecidableEq, Repr

/-- Activity of the present window (R424): of a core's pipes, the issue slots that each form used on a core, the memory traffic of a
form. A form is named with its partition. -/
structure Meter where
  pipes : List ((Nat × EnergyKind) × Nat) := []
  slots : List ((Nat × Nat × Nat) × Nat) := []        -- core, form, partition
  bytes : List ((Nat × Nat × EnergyKind) × Nat) := [] -- form, partition, tier
  deriving DecidableEq, Repr

/-- A shootdown that has invalidated its target's entries and waits for what they had translated (R366): accesses, and engine
operations. -/
structure ShootWait where
  cls     : Nat
  split   : Nat
  pc      : Int
  accs    : List (Nat × Nat)
  engines : List (Nat × Nat)   -- operation and its progress at the time
  deriving DecidableEq, Repr

/-- A runner (R40, R41). -/
structure Runner where
  core   : Nat
  cls    : Nat
  split  : Nat
  acc    : Nat
  endAt  : Int
  start  : Int
  ran    : Nat := 0
  copy   : Cls
  deriving DecidableEq, Repr

/-- What the agenda names next: an instruction issue, a device event, the passing of device time, a cache
action, or a runner's instruction. -/
inductive Move where
  | issue (cls split : Nat)
  | event (i : Instr)
  | elapse (n : Nat)
  | evictTlb (n : Nat)
  | evictL1 (core pa : Nat)
  | evictL2 (pa : Nat)
  | evictRdc (die pa : Nat)
  | send
  | alterSaved (n : Nat)
  | runner (n : Nat)
  deriving DecidableEq, Repr

/-- The units an instruction issues to (R38); there are two sweep pipes. -/
inductive PipeUnit where
  | sweep | scalar | memory | transcendental | sequencer | copyPort
  deriving DecidableEq, Repr

/-- The group being issued: the split, the address of its first word, its words (R179, R188). -/
structure Issue where
  split : Nat := 0
  pc    : Int := 0
  words : List Word := []
  deriving DecidableEq, Repr

/-- Whether the device still boots, runs, waits in recovery or has tripped (R456, R459). -/
inductive Phase where
  | boot | running | recovery | tripped
  deriving DecidableEq, Repr

/-- What on-package flash holds: the certificate and the level-0 firmware, each with its signature, and what the certificate says
(R456). -/
structure Flash where
  cert     : List Byte
  certSig  : List Byte
  firmware : List Byte
  fwSig    : List Byte
  fwKeys   : List (List Byte)                    -- the firmware keys
  fwAt     : Nat          -- physical address of the firmware's first word
  sealBase : Nat
  sealLim  : Nat
  cores    : List Nat     -- the enabled-core map
  devno    : Nat
  helper   : List Byte := []                     -- the PUF helper data
  energy   : List (EnergyKind × Nat) := []       -- the coefficients of R424
  deriving DecidableEq, Repr

/-- The machine. -/
structure State where
  -- the model's own
  agenda   : List Move := []
  iss      : Issue := {}
  nextId   : Nat := 1
  free     : Nat := 0
  -- classes: `cls` is the one that issues, `others` the rest
  cls      : Cls
  others   : List Cls := []
  runners  : List Runner := []
  forms    : List Form := []
  launches : List Launch := []
  launchNo : Nat := 0
  childq   : List ChildPkt := []
  fences   : List Fence := []
  ttNext   : List (Nat × Nat) := []          -- a partition's next queue in the pass of R402; 0 begins a pass
  queues0  : List (Nat × Nat) := []          -- (VMID, queue) configured by level 0 (R409)
  -- device time and words
  time     : Nat := 0
  words    : List (WKey × DWord) := []
  -- memory and caches
  mem      : Memory := []
  keyOf    : List (Nat × Nat) := []          -- sector base and key of sectors not under key 0
  keyGen   : List (Nat × Nat) := []          -- generation of an owner tag's key (R448, R449)
  l1       : List L1Sector := []
  l2       : List L2Sector := []
  rdc      : List RdcSector := []
  poison   : List Nat := []                  -- poisoned sectors of memory (R453)
  pins     : List Pin := []
  icache   : List (Nat × Nat) := []          -- (core, line) held by an instruction cache
  slots    : List (Nat × Nat) := []          -- cores and classes that have issued in this cycle (R38)
  busy     : List (Nat × PipeUnit × Nat) := []  -- core, unit, and the device time until which an instruction occupies it (R27)
  tlb      : List TlbEntry := []
  misses   : List MissSlot := []
  sealMap  : List Nat := []                  -- sealed frames (R373)
  images   : List Image := []
  serial   : Nat := 0
  admits   : List AdmitReq := []
  tagCount : List (Nat × Nat) := []          -- release count of a tag (R135)
  tagsUsed : List Nat := []
  -- engines, sequencers, content stores
  seq      : List SeqOp := []
  engines  : List EngineOp := []
  stores   : List CStore := []
  creqs    : List ContentReq := []
  -- events, handlers, fault queues
  pending  : List Pending := []
  hslots   : List HSlot := []
  himgAsid : List (Nat × Nat) := []          -- ASID of the level-1 class whose CWR last wrote a partition's HIMG (R353)
  queue    : List QEntry := []
  fqStuck  : Bool := false                   -- the device queue found no memory (R383)
  refusedS : List Nat := []                  -- partitions whose service record was refused (R383)
  services : List Nat := []                  -- partitions whose service record is submitted (R403)
  timers   : List (Nat × Nat) := []          -- partitions whose timer record is submitted (R427)
  -- partitions and cores
  holder   : List (Nat × Nat) := []          -- core and the VMID that holds it
  resident : List (Nat × Nat) := []          -- core and the VMID whose context lies on it, in idle frames too
  parkedP  : List (Nat × Nat) := []          -- (VMID, core) parked by CTX.PARK or a full ring
  savedP   : List (Nat × Nat) := []          -- (VMID, core) saved by level 0 (R421)
  saved    : List SavedCtx := []
  ctxGen   : List ((Nat × Nat) × Nat) := []  -- context generations by (VMID, core)
  ghosts   : List Ghost := []                -- requests of halted contexts still out in the fabric (R392)
  rotNext  : List ((Nat × Nat) × DWord × Nat) := []  -- rotation writes waiting for the period boundary, with their device times
  rotFrom  : List (Nat × Nat) := []          -- device time of a core's last period boundary
  tokens   : List ((Nat × Nat × Nat) × Nat) := []   -- tokens of a bucket: controller, partition, ASID or 65,536 (R422)
  bwWait   : List BwWait := []               -- requests that wait for tokens, in arrival order
  bwFrame  : Nat := 0                        -- 1 µs boundaries already refilled
  portq    : List PortWait := []             -- requests from outside that wait for tokens, in arrival order (R422)
  meter    : Meter := {}                     -- activity of the present energy window (R424)
  coeff    : List (EnergyKind × Nat) := []   -- the certificate's energy coefficients
  shoots   : List ShootWait := []            -- shootdowns that wait (R366)
  eWindow  : Nat := 0                        -- energy windows ended
  ePkg     : List Nat := []                  -- package energy of the last windows, newest first
  ePart    : List (Nat × List Nat) := []     -- partition energy of the last windows
  streams  : List Stream := []
  answers  : List Sent := []                 -- answers not yet sent
  sent     : List Sent := []
  cpBad    : List (Nat × Nat) := []          -- discarded messages of a stream
  -- trust
  phase    : Phase := .boot
  resetNo  : Nat := 0
  devLog   : List (BitVec 512) := []
  devCount : Nat := 0
  partLog  : List (Nat × List (BitVec 512)) := []
  partCount : List (Nat × Nat) := []
  meas     : List (BitVec 512) := []         -- MEAS0–MEAS15; unlisted is 0
  coreOff  : List Nat := []                  -- cores stopped by a machine check
  coreDead : List Nat := []                  -- cores out of service until the next reset
  coreStop : List (Nat × Nat) := []          -- device time of a core's last restart
  hot      : Bool := false                   -- thermal throttle
  enabled  : Option (List Nat) := none       -- the certificate's core map; none: every core
  flash    : Option Flash := none
  failedAt : Nat := 0                        -- the step of R456 at which boot failed; 0: none
  idSeed   : Option (BitVec 256) := none     -- the identity seed, once boot has it (R456 step 2)
  staging  : Memory := []                    -- the H-die staging area (R456)
  staged   : Nat := 0                        -- where the bytes written there end
  rootKey  : List Byte := []                 -- the Camousk root key in ROM (R456)
  deriving DecidableEq, Repr

/-- Reasons the machine stops. -/
inductive Fault where
  /-- An access that has passed translation reaches a physical address at which no memory lies (log entry 3): raised by
  `execLoadValueReturn`, `execStorePerformed`, `execMonitorAtomic` and `execCopyEngineComplete`. Safe: the manual gives no value for such
  an access, and the run stops where the hardware may go on. -/
  | noMemory (pa : Nat)
  deriving DecidableEq, Repr

/-- Reasons an instruction is refused. -/
inductive Refusal where
  /-- The instruction has no meaning in the model yet; raised in Machine/Dispatch.lean only. Safe: the run stops. -/
  | notModelled (mnemonic : String)
  deriving DecidableEq, Repr

/-- The Bursar's class before boot: it has no split, so it issues nothing. -/
def bursar0 : Cls := { id := 0, kind := .bursar, core := 256, level := 0 }

/-- The machine right after a power-on reset (R444): normal mode, storage scrubbed, no partition, no class but the Bursar's
empty one, boot not yet run, nothing in flash (log entry 4). -/
def State.reset : State := { cls := bursar0 }

end Sys2Proof.Machine
end

