-- ==== Sys2Proof/Machine/Base.lean ====
section
/-!
DEFINITION. The named operations over memory bytes, registers, masks, classes and control words, routes (R338) and error records
(R450).
-/

namespace Sys2Proof.Machine

/-! ### Lists read with a default -/

/-- Write entry i of a list whose unlisted entries are `d`. -/
def padSet {α : Type} (d : α) : List α → Nat → α → List α
  | [], 0, x => [x]
  | [], n + 1, x => d :: padSet d [] n x
  | _ :: l, 0, x => x :: l
  | y :: l, n + 1, x => y :: padSet d l n x

/-- Read an association list. -/
def assoc {α β : Type} [DecidableEq α] (l : List (α × β)) (a : α) : Option β := (l.find? (fun p => p.1 = a)).map (·.2)

/-- Write an association list: the key's pair is replaced. -/
def assocSet {α β : Type} [DecidableEq α] (l : List (α × β)) (a : α) (b : β) : List (α × β) :=
  (a, b) :: l.filter (fun p => p.1 ≠ a)

/-- Remove a key. -/
def assocDel {α β : Type} [DecidableEq α] (l : List (α × β)) (a : α) : List (α × β) := l.filter (fun p => p.1 ≠ a)

/-! ### Bytes of a memory -/

/-- One byte; an unlisted address reads as 0 (log entry 2). -/
def Memory.get : Memory → Nat → Byte
  | [], _ => 0
  | (k, v) :: m, a => if k = a then v else Memory.get m a

/-- Write one byte and keep the canonical form: writing 0 removes the entry. -/
def Memory.set : Memory → Nat → Byte → Memory
  | [], a, b => if b = 0 then [] else [(a, b)]
  | (k, v) :: m, a, b =>
    if a < k then (if b = 0 then (k, v) :: m else (a, b) :: (k, v) :: m)
    else if a = k then (if b = 0 then m else (a, b) :: m)
    else (k, v) :: Memory.set m a b

/-- n bytes from address a. -/
def Memory.read (m : Memory) (a n : Nat) : List Byte := (List.range n).map (fun i => m.get (a + i))

/-- Write bytes from address a on. -/
def Memory.write : Memory → Nat → List Byte → Memory
  | m, _, [] => m
  | m, a, b :: bs => Memory.write (m.set a b) (a + 1) bs

/-- A little-endian number of n bytes (R1). -/
def Memory.num (m : Memory) (a n : Nat) : Nat := ofBytes (m.read a n)

/-- Remove every byte from a on for n bytes: they read as 0. -/
def Memory.clear (m : Memory) (a n : Nat) : Memory := m.filter (fun c => decide (c.1 < a ∨ a + n ≤ c.1))

/-! ### Classes and splits -/

def Cls.live (c : Cls) : Bool := c.status == .live

/-- Every class, the issuing one first. -/
def State.allCls (s : State) : List Cls := s.cls :: s.others

def State.getCls (s : State) (id : Nat) : Option Cls := s.allCls.find? (fun c => c.id == id)

/-- Change the class of that number. -/
def State.modCls (s : State) (id : Nat) (f : Cls → Cls) : State :=
  { s with cls := if s.cls.id = id then f s.cls else s.cls,
           others := s.others.map (fun c => if c.id = id then f c else c) }

/-- Change every class. -/
def State.mapCls (s : State) (f : Cls → Cls) : State := { s with cls := f s.cls, others := s.others.map f }

/-- A request of the class has yet to reach its content monitor (R151). -/
def State.reqsOut (s : State) (cls : Nat) : Bool := s.creqs.any (fun q => (q.cls.map (fun x => x.1)) == some cls)

/-- Every earlier access of the class has been performed: its values are bound, and SOC is zero (R119). -/
def State.quiet (s : State) (c : Cls) : Bool := c.mem.isEmpty && !s.reqsOut c.id

/-- A class that has ended and holds nothing any more. -/
def Cls.gone (s : State) (c : Cls) : Bool :=
  c.status == .ended && !c.endDue && c.mem.isEmpty && c.kind != .bursar && !s.seq.any (fun o => o.cls == c.id)
    && !s.engines.any (fun o => o.cls == c.id) && !s.hslots.any (fun h => h.cls == c.id)

/-- Make a class the issuing one; ended classes that hold nothing are dropped. -/
def State.focus (s : State) (id : Nat) : State :=
  if s.cls.id = id then s
  else
    match s.others.find? (fun c => c.id == id) with
    | none => s
    | some c =>
      { s with cls := c, others := (s.cls :: s.others.filter (fun d => d.id != id)).filter (fun d => !Cls.gone s d) }

/-- The generation that a class's requests carry; level 0 belongs to no context (R392). -/
def State.genOf (s : State) (c : Cls) : Nat := if c.level = 0 then 0 else (assoc s.ctxGen (c.vmid, c.core)).getD 0

def Cls.split (c : Cls) (i : Nat) : Split := c.splits.getD i {}

def Cls.setSplit (c : Cls) (i : Nat) (sp : Split) : Cls := { c with splits := c.splits.set i sp }

def Cls.modSplit (c : Cls) (i : Nat) (f : Split → Split) : Cls := c.setSplit i (f (c.split i))

/-- The issuing split. -/
def State.cur (s : State) : Split := s.cls.split s.iss.split

def State.modCur (s : State) (f : Split → Split) : State := { s with cls := s.cls.modSplit s.iss.split f }

/-- `act`: the issuing split's active mask (R26). -/
def State.act (s : State) : Mask := s.cur.mask

def State.depth (s : State) : Nat := s.cur.levels.length

/-- The live mask of L lanes (R17). -/
def liveMask (lanes : Nat) : Mask := BitVec.ofNat 1024 (2 ^ lanes - 1)

def Cls.liveM (c : Cls) : Mask := liveMask c.lanes

/-- The address after the group's last word (R200). -/
def State.next (s : State) : Int := s.iss.pc + 4 * (s.iss.words.length : Int)

/-- The address of the group's last word: branch offsets count from it (R182). -/
def State.lastWord (s : State) : Int := s.next - 4

/-- The low 64 bits of a program counter. -/
def pcWord (pc : Int) : DWord := BitVec.ofInt 64 pc

/-- The lanes of a mask below L, ascending. -/
def lanesOf (lanes : Nat) (m : Mask) : List Nat := (List.range lanes).filter (fun i => m.getLsbD i)

/-- The lowest lane of a mask, or none. -/
def lowestLane (lanes : Nat) (m : Mask) : Option Nat := (lanesOf lanes m).head?

/-- Summary: bit w is the OR of mask word w (R26). -/
def summary (m : Mask) : Word :=
  (List.range 32).foldl (fun r w => if m.extractLsb' (32 * w) 32 = 0 then r else r ||| (1 <<< w)) 0

/-- A fresh number. -/
def State.fresh (s : State) : State := { s with nextId := s.nextId + 1 }

/-! ### Registers -/

/-- s0 reads as zero (R52). -/
def Cls.getS (c : Cls) (r : Reg) : DWord := if r = 0 then 0 else c.s[r.toNat]'(r.isLt)

/-- A write to s0 is discarded (R52). A write clears an error mark (R453). -/
def Cls.setS (c : Cls) (r : Reg) (x : DWord) : Cls :=
  if r = 0 then c
  else { c with s := c.s.set r.toNat x r.isLt, poisonV := c.poisonV.filter (fun p => p ≠ (1, r.toNat)) }

def State.getS (s : State) (r : Reg) : DWord := s.cls.getS r
def State.setS (s : State) (r : Reg) (x : DWord) : State := { s with cls := s.cls.setS r x }

/-- An even scalar pair or run, low register first (R273). -/
def State.getSRun (s : State) (r : Reg) (n : Nat) : List DWord :=
  (List.range n).map (fun i => s.getS (r + BitVec.ofNat 7 i))

def Cls.setSRun (c : Cls) (r : Reg) (xs : List DWord) : Cls :=
  (xs.zipIdx).foldl (fun c p => c.setS (r + BitVec.ofNat 7 p.2) p.1) c

/-- A class waits no more for this scalar register. -/
def State.setSRun (s : State) (r : Reg) (xs : List DWord) : State := { s with cls := s.cls.setSRun r xs }

/-- The mask a k register reads as: k0 is the issuing split's active mask (R53). -/
def State.getK (s : State) (k : Reg3) : Mask := if k = 0 then s.act else s.cls.k[k.toNat]'(k.isLt)

/-- A mask-producing instruction writes the bits of `eff` and clears every other bit; with an empty `eff` the register is
left unchanged (R28, R54). -/
def State.setK (s : State) (k : Reg3) (eff m : Mask) : State :=
  if eff = 0 then s
  else { s with cls := { s.cls with k := s.cls.k.set k.toNat (m &&& eff) k.isLt,
                                    poisonV := s.cls.poisonV.filter (fun p => p ≠ (2, k.toNat)) } }

/-- The physical index of a lane register (R48). -/
def Cls.phys (c : Cls) (r : Reg) : Nat := if r.toNat ≤ 15 then r.toNat else c.wb + r.toNat

/-- In allocation (R48). -/
def Cls.inAlloc (c : Cls) (r : Reg) : Bool := decide (c.phys r < c.nregs)

/-- One lane of a physical lane register. -/
def Cls.getP (c : Cls) (p i : Nat) : Word := (c.v.getD p []).getD i 0

def Cls.getV (c : Cls) (r : Reg) (i : Nat) : Word := c.getP (c.phys r) i
def State.getV (s : State) (r : Reg) (i : Nat) : Word := s.cls.getV r i

/-- Write the lanes of `eff` of a physical lane register (R27). A write of every live lane clears an error mark (R453). -/
def Cls.setP (c : Cls) (p : Nat) (eff : Mask) (f : Nat → Word) : Cls :=
  { c with
    v := padSet [] c.v p ((List.range c.lanes).map (fun i => if eff.getLsbD i then f i else c.getP p i)),
    poisonV := if c.liveM &&& eff = c.liveM then c.poisonV.filter (fun q => q ≠ (0, p)) else c.poisonV }

def State.setV (s : State) (r : Reg) (eff : Mask) (f : Nat → Word) : State :=
  if eff = 0 then s else { s with cls := s.cls.setP (s.cls.phys r) eff f }

/-- Set sticky flags of CSTAT (R62). -/
def State.orFlags (s : State) (fl : Word) : State := { s with cls := { s.cls with cstat := s.cls.cstat ||| fl } }

/-! ### Control words (R335) -/

/-- Reset values that are not zero (Tables 16-3, 16-4, 19-2, 20-1). A word for which no table gives one, CASEL and CASTAT among them, reads
as zero until it is written (DESIGN CHOICE: log entry 6). -/
def resetWord (ix : Nat) : DWord :=
  if ix = 0x014 then 1000000
  else if ix = 0x020 then 0x2222222112222220
  else if ix = 0x021 then 0x0144402204222222
  else if ix = 0x182 then 0x0000000000000710
  else if ix = 0x201 ∨ ix = 0x212 then 1
  else if ix = 0x220 then 3000
  else if ix = 0x231 then 0x0000000100000000
  else if ix = 0x232 then 0xFFFFFFFFFFFFFFFF
  else 0

def State.word (s : State) (b : Bank) (ix : Nat) (sub : Nat := 0) : DWord :=
  (assoc s.words ⟨b, ix, sub⟩).getD (resetWord ix)

def State.setWord (s : State) (b : Bank) (ix : Nat) (x : DWord) (sub : Nat := 0) : State :=
  { s with words := assocSet s.words ⟨b, ix, sub⟩ x }

/-- Confidential mode (R444): MODE bit 0. -/
def State.confidential (s : State) : Bool := (s.word .dev 0x280).getLsbD 0

/-- The partition and tenant words a class's level banks under (R335): level 1 its partition, level 2 its tenant. -/
def bankOf (level vmid asid : Nat) : Bank :=
  if level = 0 then .level0 else if level = 1 then .part vmid else .tenant vmid asid

/-- VTIME of a partition (R426). -/
def State.vtime (s : State) (vmid : Nat) : Nat :=
  ((s.word (.part vmid) 0x230).toNat + (s.word (.part vmid) 0x231).toNat * s.time / 2 ^ 32) % 2 ^ 64

/-! ### Causes and routes (R337, R338) -/

def Cause.code : Cause → Nat
  | .illop => 0x01 | .illstate => 0x02 | .kendx => 0x03 | .fetchb => 0x04 | .align => 0x05 | .addr => 0x06
  | .xlate => 0x07 | .prot => 0x08 | .xlock => 0x09 | .chk => 0x0A | .race => 0x0B | .scratch => 0x0C
  | .barcount => 0x0D | .twinfail => 0x0E | .matmis => 0x0F | .obfault => 0x10 | .cafull => 0x11 | .cacoll => 0x12
  | .caname => 0x13 | .trapi => 0x14 | .breakp => 0x15 | .deadline => 0x16 | .priv => 0x18 | .right => 0x19
  | .ecc => 0x1B | .dirtyfull => 0x1C | .strict => 0x1D | .orphan => 0x1E

/-- A partition's route entry of a cause. -/
def State.routeEntry (s : State) (vmid code : Nat) : Nat :=
  if code < 16 then bits (s.word (.part vmid) 0x020).toNat (4 * code + 3) (4 * code)
  else bits (s.word (.part vmid) 0x021).toNat (4 * (code - 16) + 3) (4 * (code - 16))

/-- The level an event goes to: min(target, L); a level-0 class's events, ECC, DIRTYFULL and stage-2 faults go to level 0
(R338). A PROT of a content page goes where Table 16-4 routes PROT, by default to level 1: R161 sends content events to the tenant's
handler "as routed" there (DEDUCED, log entry 31). -/
def State.route (s : State) (level vmid : Nat) (c : Cause) (stage2 : Bool) : Nat :=
  if level = 0 then 0
  else if c = .ecc ∨ c = .dirtyfull then 0
  else if stage2 ∧ (c = .xlate ∨ c = .prot) then 0
  else min (s.routeEntry vmid c.code % 4) level

/-! ### Errors (R450) -/

/-- What a record of Table 22-3 carries beside its number and time. -/
structure ErrInfo where
  cause  : Nat
  sclass : Nat := 0
  unit_  : Nat := 0
  die    : Nat := 0
  stack  : Nat := 0
  chan   : Nat := 0
  bank   : Nat := 0
  tier   : Bool := false
  vmid   : Option Nat := none   -- the partition that owns what failed; none for the operator's own
  core   : Nat := 0xFF
  form   : Nat := 0
  synd   : Nat := 0
  gaddr  : Nat := 0
  paddr  : Nat := 0
  deriving DecidableEq, Repr

/-- The record (Table 22-3); `redact` withholds the fields of R451. -/
def errRecord (e : ErrInfo) (seq time : Nat) (redact : Bool) : BitVec 512 :=
  let keep (x : Nat) : Nat := if redact then 0 else x
  BitVec.ofNat 512 (
    e.cause % 256 + (e.sclass % 16) * 2 ^ 8 + (e.unit_ % 256) * 2 ^ 12 + (e.die % 16) * 2 ^ 20 + (e.stack % 16) * 2 ^ 24
    + (e.chan % 16) * 2 ^ 28 + (e.bank % 64) * 2 ^ 32 + (e.vmid.getD 0 % 64) * 2 ^ 40 + b2n e.tier * 2 ^ 46 + b2n redact * 2 ^ 47
    + (time % 2 ^ 64) * 2 ^ 64 + (seq % 2 ^ 32) * 2 ^ 128 + keep ((if redact then 0 else e.core) % 256) * 2 ^ 192
    + keep (e.form % 2 ^ 32) * 2 ^ 224 + keep (e.synd % 2 ^ 64) * 2 ^ 256 + keep (e.gaddr % 2 ^ 64) * 2 ^ 320
    + keep (e.paddr % 2 ^ 64) * 2 ^ 384)

/-- Log an error in the device log and, when `vmid` names a partition that owns what failed, in the partition log (R450,
R451). -/
def State.logErr (s : State) (e : ErrInfo) : State :=
  let full := errRecord e s.devCount s.time false
  let dev := if s.confidential && e.vmid.isSome then errRecord e s.devCount s.time true else full
  let s := { s with devLog := padSet 0 s.devLog (s.devCount % 256) dev, devCount := s.devCount + 1 }
  match e.vmid with
  | none => s
  | some v =>
    let l := (assoc s.partLog v).getD []
    let n := (assoc s.partCount v).getD 0
    { s with partLog := assocSet s.partLog v (padSet 0 l (n % 64) full), partCount := assocSet s.partCount v (n + 1) }

/-- Raise the release count of a tag (R135). -/
def State.bumpTag (s : State) (tag : Nat) : State :=
  { s with tagCount := assocSet s.tagCount tag ((assoc s.tagCount tag).getD 0 + 1) }

/-- A number for one free choice has been used. -/
def State.usedChoice (s : State) : State := { s with free := s.free + 1 }

end Sys2Proof.Machine
end

