-- ==== Sys2Proof/Machine/Xts.lean ====
section
/-!
DEFINITION. AES-256-XTS (R4, R446; FIPS 197, IEEE 1619) over one 32-byte sector: what a memory controller writes to DRAM, and what
it reads back. The S-box is computed from its definition in GF(2⁸). A state is 16 bytes, column after column.
-/

namespace Sys2Proof.Machine

/-! ### GF(2⁸) -/

/-- Times x, modulo x⁸ + x⁴ + x³ + x + 1. -/
def gfX (a : Nat) : Nat := Nat.xor (Nat.mul 2 a) (Nat.mul 0x11B (Nat.div a 128))

/-- z plus a times the low bits of b, as many as the fuel. -/
def gfMulFrom : Nat → Nat → Nat → Nat → Nat
  | 0, _, _, z => z
  | fuel + 1, a, b, z => gfMulFrom fuel (gfX a) (Nat.div b 2) (Nat.xor z (Nat.mul a (Nat.mod b 2)))

def gfMul (a b : Nat) : Nat := gfMulFrom 8 a b 0

/-- The inverse, a²⁵⁴; 0 for 0. -/
def gfInv (a : Nat) : Nat :=
  ((List.range 7).foldl (fun (r : Nat × Nat) _ => let q := gfMul r.2 r.2; (gfMul r.1 q, q)) (1, a)).1

/-- The S-box: the inverse, then the affine map of FIPS 197. -/
def subByte (a : Nat) : Nat :=
  let b := gfInv a
  let turn (n : Nat) : Nat := (b * 2 ^ n) % 256 + b / 2 ^ (8 - n)
  b ^^^ turn 1 ^^^ turn 2 ^^^ turn 3 ^^^ turn 4 ^^^ 0x63

def subTable : List Nat := (List.range 256).map subByte
def unsubTable : List Nat := (List.range 256).map (fun y => subTable.findIdx (fun x => x == y))

/-! ### AES-256 -/

def xorBytes (x y : List Nat) : List Nat := List.zipWith (fun a b => a ^^^ b) x y

/-- The next words of the key schedule: word n from words n − 1 and n − 8, newest first. -/
def expandFrom : Nat → Nat → Nat → List (List Nat) → List (List Nat)
  | 0, _, _, ws => ws
  | fuel + 1, n, rc, ws =>
    let w := ws.headD []
    let sub (w : List Nat) : List Nat := w.map (fun b => subTable.getD b 0)
    let t :=
      if n % 8 = 0 then xorBytes (sub (w.drop 1 ++ w.take 1)) [rc, 0, 0, 0]
      else if n % 8 = 4 then sub w
      else w
    expandFrom fuel (n + 1) (if n % 8 = 0 then gfX rc else rc) (xorBytes (ws.getD 7 []) t :: ws)

/-- The 15 round keys of a 32-byte key. -/
def roundKeys (key : List Nat) : List (List Nat) :=
  let first := ((List.range 8).map (fun i => (key.drop (4 * i)).take 4)).reverse
  let ws := (expandFrom 52 8 1 first).reverse
  (List.range 15).map (fun r => ((ws.drop (4 * r)).take 4).flatten)

/-- Row r of column c comes from column c + r, or goes to it. -/
def shiftRows (s : List Nat) : List Nat := (List.range 16).map (fun i => s.getD ((i + 4 * (i % 4)) % 16) 0)
def unshiftRows (s : List Nat) : List Nat := (List.range 16).map (fun i => s.getD ((i + 12 * (i % 4)) % 16) 0)

/-- Each column times a circulant matrix with this first row. -/
def mixBy (m : List Nat) (s : List Nat) : List Nat :=
  (List.range 16).map (fun i =>
    (List.range 4).foldl (fun x j => x ^^^ gfMul (m.getD ((j + 4 - i % 4) % 4) 0) (s.getD (i / 4 * 4 + j) 0)) 0)

def aesEncrypt (keys : List (List Nat)) (block : List Nat) : List Nat :=
  let step (s : List Nat) (r : Nat) : List Nat :=
    let t := shiftRows (s.map (fun b => subTable.getD b 0))
    xorBytes (if r = 14 then t else mixBy [2, 3, 1, 1] t) (keys.getD r [])
  ((List.range 14).map (· + 1)).foldl step (xorBytes block (keys.getD 0 []))

def aesDecrypt (keys : List (List Nat)) (block : List Nat) : List Nat :=
  let step (s : List Nat) (r : Nat) : List Nat :=
    let t := xorBytes s (keys.getD r [])
    (unshiftRows (if r = 14 then t else mixBy [14, 11, 13, 9] t)).map (fun b => unsubTable.getD b 0)
  xorBytes (((List.range 14).map (fun i => 14 - i)).foldl step block) (keys.getD 0 [])

/-! ### XTS -/

/-- A tweak times α: the 16 bytes as a little-endian number, doubled modulo x¹²⁸ + x⁷ + x² + x + 1. -/
def tweakNext (t : List Nat) : List Nat :=
  let n := 2 * ofBytes (t.map (BitVec.ofNat 8))
  (toBytes 16 (if 2 ^ 128 ≤ n then (n - 2 ^ 128) ^^^ 0x87 else n)).map (fun b => b.toNat)

/-- One data unit of two blocks under a 512-bit key, its number the sector's address bits 47:5 (R446). -/
def xts (decrypt : Bool) (key : BitVec 512) (number : Nat) (unit : List Byte) : List Byte :=
  let k := (toBytes 64 key.toNat).map (fun b => b.toNat)
  let data := roundKeys (k.take 32)
  let t0 := aesEncrypt (roundKeys (k.drop 32)) ((toBytes 16 number).map (fun b => b.toNat))
  let one (t : List Nat) (p : List Byte) : List Byte :=
    let x := xorBytes (p.map (fun b => b.toNat)) t
    (xorBytes (if decrypt then aesDecrypt data x else aesEncrypt data x) t).map (BitVec.ofNat 8)
  one t0 (unit.take 16) ++ one (tweakNext t0) (unit.drop 16)

end Sys2Proof.Machine
end

