-- ==== Sys2Proof/Machine/Phys.lean ====
section
/-!
DEFINITION. Physical memory behind the caches: encryption (R446–R449), the home slices of L2 and the remote-data caches
(R102–R107, R428), the L1 caches (R106–R110), error marks (R453), race records (R133–R136), strict-mode pins (R131).
-/

namespace Sys2Proof.Machine

def sector (pa : Nat) : Nat := pa / 32 * 32
def lineOf (pa : Nat) : Nat := pa / 512 * 512

/-! ### Homes (R102, R111) -/

/-- The controller a physical address lies at: 0–7 the HBM4 stacks', 8–23 the DDR-5 channels'. -/
def controllerOf (pa : Nat) : Nat :=
  if pa < Config.hbmBytes then Config.controller (pa / 512) % 8 else 8 + Config.controller (pa / 512) % 16

/-- The C-die of a line's home: that of its stack, or one of the four (R5, R102). -/
def homeDie (pa : Nat) : Nat :=
  if pa < Config.hbmBytes then controllerOf pa / 2 else Config.ddrHome (pa / 512) % 4

/-- The home slice, of the 64 of the package; slice n lies in quad n, whose monitor performs the line's atomics (R111). -/
def homeSlice (pa : Nat) : Nat := 16 * homeDie pa + Config.homeSlice (pa / 512) % 16

/-! ### Keys -/

/-- The key an owner tag selects: one device key in normal mode and for tag 0, else the tag's own, renewed by REKEY (R448,
R449). -/
def State.keyId (s : State) (tag : Nat) : Nat :=
  if s.confidential && tag % 64 != 0 then 1 + tag % 64 + 64 * ((assoc s.keyGen (tag % 64)).getD 0) else 0

/-- The owner tag of a level-0 access (PKEY, R446). -/
def State.pkey (s : State) : Nat := (s.word .dev 0x030).toNat % 64

/-- The key a sector is stored under. -/
def State.keyAt (s : State) (pa : Nat) : Nat := (assoc s.keyOf (sector pa)).getD 0

/-- A key that none of a list is: the one drawn, or the least number that is not in the list. -/
def otherKey (l : List (BitVec 512)) (drawn : BitVec 512) : BitVec 512 :=
  if l.contains drawn then (((List.range (l.length + 1)).map (fun i => BitVec.ofNat 512 i)).find? (fun x => !l.contains x)).getD drawn
  else drawn

/-- The first n keys of a reset by number, no two the same: each is generated afresh at the reset (R447, R448). -/
def keysOf (reset : Nat) : Nat → List (BitVec 512)
  | 0 => []
  | n + 1 => keysOf reset n ++ [otherKey (keysOf reset n) (Config.xtsKey reset n)]

/-- The key of a number since the last reset. -/
def State.key (s : State) (n : Nat) : BitVec 512 := (keysOf s.resetNo (n + 1)).getD n 0

/-- A sector written under key `wk` as key `rk` decrypts it (R446, R447). -/
def State.reKey (s : State) (wk rk pa : Nat) (bs : List Byte) : List Byte :=
  if wk = rk then bs
  else
    let n := pa / 32 % 2 ^ 43
    xts true (s.key rk) n (xts false (s.key wk) n bs)

/-! ### Whose traffic -/

/-- How an access reaches memory: a hardware unit's or level 0's own at the home slice; a partition's through its L2 lines; or past
every cache, at the memory controller (R105, R428). -/
inductive Via where
  | unit
  | part (vmid : Nat)
  | dram
  deriving DecidableEq, Repr

/-- A line that L2 holds is passed by: another partition's, and every line on the way to the memory controller (R428). -/
def Via.passes (w : Via) (x : L2Sector) : Bool :=
  match w with
  | .unit => false
  | .part v => v != x.vmid
  | .dram => true

/-- How reply word 0 of a handler is reached. -/
def HSlot.replyVia (h : HSlot) : Via := if h.level = 0 then .unit else if h.replyUnc then .dram else .part h.vmid

def State.l2find (s : State) (pa : Nat) : Option L2Sector := s.l2.find? (fun x => x.pa == sector pa)

/-- One byte as an access reads it at the home or the memory controller. -/
def State.physByte (s : State) (w : Via) (key a : Nat) : Byte :=
  let home (_ : Unit) : Byte :=
    if s.keyAt a = key then s.mem.get a else (s.reKey (s.keyAt a) key a (s.mem.read (sector a) 32)).getD (a % 32) 0
  match s.l2find a with
  | none => home ()
  | some x => if w.passes x then (s.reKey x.oldKey key a x.old).getD (a % 32) 0 else home ()

def State.physRead (s : State) (w : Via) (key a n : Nat) : List Byte := (List.range n).map (fun i => s.physByte w key (a + i))

def State.physNum (s : State) (w : Via) (key a n : Nat) : Nat := ofBytes (s.physRead w key a n)

/-- Bring a sector under a key: its bytes become what that key reads there. -/
def State.rekeySector (s : State) (key a : Nat) : State :=
  let k := s.keyAt a
  if k = key then s
  else
    { s with mem := s.mem.write (sector a) (s.reKey k key a (s.mem.read (sector a) 32)),
             keyOf := if key = 0 then assocDel s.keyOf (sector a) else assocSet s.keyOf (sector a) key }

/-! ### Bandwidth buckets (R422, R423) -/

/-- The selector of the partition bucket among a partition's buckets. -/
def partBucket : Nat := 65536

def State.bwRate (s : State) (vmid sub : Nat) : Nat := (s.word (.part vmid) 0x211 sub).toNat
def State.bwDepth (s : State) (vmid sub : Nat) : Nat := (s.word (.part vmid) 0x212 sub).toNat
def State.bwTokens (s : State) (ctl vmid sub : Nat) : Nat := (assoc s.tokens (ctl, vmid, sub)).getD 0

/-- Debit a bucket that is metered. -/
def State.debit (s : State) (ctl vmid sub units : Nat) : State :=
  if s.bwRate vmid sub = 0 then s
  else { s with tokens := assocSet s.tokens (ctl, vmid, sub) (s.bwTokens ctl vmid sub - units) }

/-- A bucket holds the charge, or is not metered. -/
def State.bwHolds (s : State) (ctl vmid sub units : Nat) : Bool :=
  s.bwRate vmid sub == 0 || decide (units ≤ s.bwTokens ctl vmid sub)

/-! ### Room in L2 and the RDC (Table 5-2) -/

/-- Set or clear the error mark of a sector's home copy (R453). -/
def withMark (l : List Nat) (pa : Nat) (m : Bool) : List Nat := if m then pa :: l.filter (fun q => q != pa) else l.filter (fun q => q != pa)

/-- The value of a sector leaves L2 with its mark: dirty it is written back; clean, what DRAM holds is what is left. -/
def State.dropL2 (s : State) (x : L2Sector) : State :=
  let s' := { s with l2 := s.l2.filter (fun y => y.pa != x.pa) }
  if x.dirty then s'
  else
    { s' with mem := s.mem.write x.pa x.old,
              keyOf := if x.oldKey = 0 then assocDel s.keyOf x.pa else assocSet s.keyOf x.pa x.oldKey,
              poison := withMark s.poison x.pa x.oldMark }

def State.dropL2Line (s : State) (line : Nat) : State :=
  (s.l2.filter (fun x => lineOf x.pa == line)).foldl State.dropL2 s

/-- A line leaves while its set holds none that EVICT sends out before it: evict-first lines go first, retained ones last (R105). -/
def State.mayLeave (s : State) (line : Nat) : Bool :=
  s.l2.all (fun x => lineOf x.pa != line || !s.l2.any (fun y => decide (y.rank < x.rank) && lineOf y.pa != line
    && homeSlice y.pa == homeSlice line && Config.l2Set (y.pa / 512) == Config.l2Set (line / 512)))

/-- One of some lines: which one the hardware chooses. -/
def pickLine (choice : Nat) (l : List Nat) : Option Nat := l[choice % l.length]?

/-- Of some lines with their ranks, those of the least rank. -/
def leastRank (l : List (Nat × Nat)) : List Nat :=
  let low := l.foldl (fun m p => min m p.2) 2
  (l.filter (fun p => p.2 == low)).map (·.1)

/-- Lines of 512 bytes that a cache holds, without repeats. -/
def linesOf (l : List (Nat × Nat)) : List (Nat × Nat) :=
  l.foldl (fun r p => if r.any (fun q => q.1 == lineOf p.1) then r else (lineOf p.1, p.2) :: r) []

/-- 4 MiB of a slice. -/
def sliceLines : Nat := 8192

/-- The lines of a sector's home slice, and whether it has room for the sector's. -/
def State.sliceOfHome (s : State) (pa : Nat) : List (Nat × Nat) :=
  linesOf ((s.l2.filter (fun x => homeSlice x.pa == homeSlice pa)).map (fun x => (x.pa, x.rank)))

def State.hasRoomL2 (s : State) (pa : Nat) : Bool :=
  decide ((s.sliceOfHome pa).length < sliceLines) || (s.sliceOfHome pa).any (fun p => p.1 == lineOf pa)

/-- Units of 64 bytes that a line's write-back carries to DRAM: those with a dirty sector. -/
def State.dirtyUnits (s : State) (line : Nat) : Nat :=
  (((s.l2.filter (fun x => lineOf x.pa == line && x.dirty)).map (fun x => x.pa / 64)).eraseDups).length

/-- A line leaves L2 if its partition's bucket serves the write-back (R422); an L2 line names no tenant. -/
def State.retireL2 (s : State) (line : Nat) : State :=
  let n := s.dirtyUnits line
  match s.l2.find? (fun x => lineOf x.pa == line && x.dirty) with
  | none => s.dropL2Line line
  | some x =>
    if s.bwHolds (controllerOf line) x.vmid partBucket n then (s.debit (controllerOf line) x.vmid partBucket n).dropL2Line line else s

/-- A slice that is full gives up a line for a new one. -/
def State.roomL2 (s : State) (pa : Nat) : State :=
  if s.hasRoomL2 pa then s
  else
    match pickLine (Config.choice s.free) (((s.sliceOfHome pa).map (·.1)).filter s.mayLeave) with
    | none => s
    | some line => s.usedChoice.retireL2 line

/-- A line that L2 holds has the EVICT of the page it was last reached through (DESIGN CHOICE: log entry 65). -/
def State.rankL2 (s : State) (rank a : Nat) : State :=
  { s with l2 := s.l2.map (fun x => if lineOf x.pa = lineOf a then { x with rank := rank } else x) }

/-- A partition's access brings the sector into its home slice, if that has room: a line whose write-back has to wait makes none. -/
def State.enterL2 (s : State) (w : Via) (tag rank a : Nat) : State :=
  match w with
  | .unit | .dram => s
  | .part v =>
    match s.l2find a with
    | some x => if w.passes x then s else s.rankL2 rank a
    | none =>
      let s := s.roomL2 a
      if s.hasRoomL2 a then
        let x : L2Sector :=
          { pa := sector a, vmid := v, tag := tag, old := s.mem.read (sector a) 32, oldKey := s.keyAt a, rank := rank,
            oldMark := s.poison.contains (sector a) }
        { s with l2 := x :: s.l2 }.rankL2 rank a
      else s

/-- 16 MiB of a die's RDC. -/
def rdcLines : Nat := 32768

def State.roomRdc (s : State) (die pa : Nat) : State :=
  let mine := linesOf ((s.rdc.filter (fun x => x.die == die)).map (fun x => (x.pa, 1)))
  if mine.length < rdcLines ∨ mine.any (fun p => p.1 == lineOf pa) then s
  else
    match pickLine (Config.choice s.free) (leastRank mine) with
    | none => s
    | some line => { s.usedChoice with rdc := s.rdc.filter (fun x => !(x.die == die && lineOf x.pa == line)) }

def State.rdcFind (s : State) (die vmid pa : Nat) : Option RdcSector :=
  s.rdc.find? (fun x => x.die == die && x.vmid == vmid && x.pa == sector pa)

/-- The presence vector of a home line: the other dies whose RDC holds a copy for its partition (R103). -/
def State.presence (s : State) (vmid pa : Nat) : List Nat :=
  (List.range 4).filter (fun d => s.rdc.any (fun x => x.die == d && x.vmid == vmid && lineOf x.pa == lineOf pa))

/-- A write at the home removes the copies of the blocks of the page's grain that it touches, on every die: those its partition filled;
a unit's removes all (R103, R107, R428). -/
def State.invalRdc (s : State) (w : Via) (grain base n : Nat) : State :=
  let lo := base / grain * grain
  let hi := cdiv (base + n) grain * grain
  let hit (x : RdcSector) : Bool := decide (x.pa < hi ∧ lo < x.pa + 32) && (match w with
    | .unit => true
    | .part v => x.vmid == v
    | .dram => false)
  { s with rdc := s.rdc.filter (fun x => !hit x) }

/-! ### Writes -/

/-- Write one byte. Past L2, a line that L2 holds keeps its value and DRAM's byte changes; at the home the line changes, and DRAM
too unless the write is one that L2 keeps (R105, R428). A line stays under the tag it was filled under (R446). -/
def State.writeByte (s : State) (w : Via) (tag : Nat) (wb : Bool) (a : Nat) (b : Byte) : State :=
  let inDram (key : Nat) (x : L2Sector) : L2Sector := { x with old := (s.reKey x.oldKey key a x.old).set (a % 32) b, oldKey := key }
  let put (s : State) (x : L2Sector) : State := { s with l2 := s.l2.map (fun y => if y.pa = x.pa then x else y) }
  match s.l2find a with
  | none =>
    let s := s.rekeySector (s.keyId tag) a
    { s with mem := s.mem.set a b }
  | some x =>
    if w.passes x then put s (inDram (s.keyId tag) x)
    else
      let fill := s.keyId x.tag
      let s := s.rekeySector fill a
      let s := { s with mem := s.mem.set a b }
      if wb then put s { x with dirty := true } else if x.dirty && w == .unit then s else put s (inDram fill x)

/-- The sectors of a range have been rewritten whole: the copies that the write reached carry no error mark (R453). -/
def State.clearMarks (s : State) (w : Via) (wb : Bool) (a n : Nat) : State :=
  let whole (q : Nat) : Bool := decide (a ≤ q ∧ q + 32 ≤ a + n)
  let past (q : Nat) : Bool := match s.l2find q with
    | none => false
    | some x => w.passes x
  { s with poison := s.poison.filter (fun q => !(whole q && !past q)),
           l2 := s.l2.map (fun x => if whole x.pa && (w.passes x || !wb) then { x with oldMark := false } else x) }

/-- Write bytes; a write of a whole sector clears its error mark (R453). `at_` is what the page says of its lines (R105, R107). -/
def State.physWrite (s : State) (w : Via) (tag : Nat) (at_ : LineAttr) (a : Nat) (bs : List Byte) : State :=
  let s := bs.zipIdx.foldl (fun s p => (s.enterL2 w tag at_.rank (a + p.2)).writeByte w tag at_.wb (a + p.2) p.1) s
  let s := if bs.isEmpty then s else s.invalRdc w at_.grain a bs.length
  s.clearMarks w at_.wb a bs.length

/-- Some byte of the range carries an error mark at its home. -/
def State.poisoned (s : State) (a n : Nat) : Bool := s.poison.any (fun q => decide (q < a + n ∧ a < q + 32))

/-- The error mark of the copy of a sector that an access meets at the home or the memory controller. -/
def State.markAt (s : State) (w : Via) (a : Nat) : Bool :=
  match s.l2find a with
  | none => s.poison.contains (sector a)
  | some x => if w.passes x then x.oldMark else s.poison.contains (sector a)

/-- Set that mark: a copy that carries it is written there (R453). -/
def State.putMark (s : State) (w : Via) (a : Nat) : State :=
  match s.l2find a with
  | none => { s with poison := withMark s.poison (sector a) true }
  | some x =>
    if w.passes x then { s with l2 := s.l2.map (fun y => if y.pa = x.pa then { y with oldMark := true } else y) }
    else { s with poison := withMark s.poison (sector a) true }

/-- A hardware unit's own read and write at the home, under an owner tag. -/
def State.hwNum (s : State) (tag a n : Nat) : Nat := s.physNum .unit (s.keyId tag) a n
def State.hwRead (s : State) (tag a n : Nat) : List Byte := s.physRead .unit (s.keyId tag) a n
def State.hwWrite (s : State) (tag a : Nat) (bs : List Byte) : State := s.physWrite .unit tag { wb := false } a bs

/-! ### Attributes of an access (Tables 5-3, 17-2) -/

def attrBits (x : DWord) (h l : Nat) : Nat := bits x.toNat h l
def attrChk (x : DWord) : Bool := x.getLsbD 52
def attrCA (x : DWord) : Bool := x.getLsbD 53
def attrRepl (x : DWord) : Bool := x.getLsbD 54
def attrShared (x : DWord) : Bool := x.getLsbD 55
def attrComp (x : DWord) : Bool := x.getLsbD 49
def attrClevel (x : DWord) : Nat := attrBits x 11 10
/-- Write-back in L2 (WPOL 0). -/
def attrWb (x : DWord) : Bool := !x.getLsbD 48
/-- Bytes in a block of the page's grain (R107). -/
def attrGrain (x : DWord) : Nat := if attrBits x 9 8 = 0 then 32 else if attrBits x 9 8 = 1 then 128 else 512
/-- EVICT as an order in L2: evict first, normal, retain. -/
def attrRank (x : DWord) : Nat := if attrBits x 51 50 = 1 then 0 else if attrBits x 51 50 = 2 then 2 else 1

/-- What the attributes say of a page's lines at the home. -/
def attrLine (x : DWord) : LineAttr := { wb := attrWb x, rank := attrRank x, grain := attrGrain x }

/-- The page's lines may have read copies on other dies: a private page's skip the directory, and a race-checked access is performed at
the home slice (R108, R132). -/
def attrRdc (x : DWord) : Bool := attrShared x && !attrChk x

/-- The access may allocate in L1: CLEVEL 0, no race checking, not at the memory controller (R105, R132, R428). -/
def LaneReq.l1ok (l : LaneReq) : Bool := attrClevel l.attr == 0 && !attrChk l.attr && !l.unc

/-- The block of the page's grain an access lies in (R107). -/
def LaneReq.block (l : LaneReq) : Nat := l.pa / attrGrain l.attr * attrGrain l.attr

/-- How a lane's access of a class reaches memory. -/
def LaneReq.via (level vmid : Nat) (l : LaneReq) : Via := if level = 0 then .unit else if l.unc then .dram else .part vmid

/-! ### Reads through the RDC and L2 (R102, R103, R107) -/

/-- Sectors of a block. -/
def sectorsOf (base n : Nat) : List Nat := (List.range (n / 32)).map (fun i => base + 32 * i)

/-- L2 holds the sector for another partition: it is read at the memory controller (R428). -/
def State.passedBy (s : State) (w : Via) (a : Nat) : Bool :=
  match s.l2find a with
  | none => false
  | some x => w.passes x

/-- The read copy on a die that serves a partition's read, if one does. -/
def State.rdcHit (s : State) (vmid die : Nat) (l : LaneReq) : Option RdcSector :=
  if l.unc || s.passedBy (l.via 1 vmid) l.pa || !attrRdc l.attr then none else s.rdcFind die vmid l.pa

/-- A miss on a die brings the sector's block of the page's grain into L2 and, homed on another die, into the RDC of the one that read it;
nothing of a line that L2 holds for another partition, and nothing of an uncached page (R105, R107, R428). -/
def State.allocHome (s : State) (vmid die : Nat) (l : LaneReq) : State :=
  let w := l.via 1 vmid
  if l.unc || s.passedBy w l.pa || (s.rdcHit vmid die l).isSome then s
  else
    let block := (sectorsOf l.block (attrGrain l.attr)).filter (fun a => !s.passedBy w a)
    let s := block.foldl (fun s a => s.enterL2 w l.key (attrRank l.attr) a) s
    if homeDie l.pa = die ∨ 4 ≤ die ∨ !attrRdc l.attr then s
    else
      let s := s.roomRdc die l.pa
      let new := (block.filter (fun a => (s.rdcFind die vmid a).isNone)).map (fun a =>
        ({ die := die, pa := a, vmid := vmid, tag := l.key, bytes := s.physRead w (s.keyId l.key) a 32, mark := s.markAt w a } : RdcSector))
      { s with rdc := new ++ s.rdc }

/-- A partition's read of n bytes of one sector, issued on a die: the die's RDC if it holds a copy, else the home slice or, past every
cache, the memory controller. -/
def State.readHome (s : State) (vmid die : Nat) (l : LaneReq) (n : Nat) : List Byte × State :=
  (match s.rdcHit vmid die l with
    | some x => (x.bytes.drop (l.pa % 32)).take n
    | none => s.physRead (l.via 1 vmid) (s.keyId l.key) l.pa n,
   s.allocHome vmid die l)

/-- The error mark of the copy that such a read meets (R453). -/
def State.homeMark (s : State) (vmid die : Nat) (l : LaneReq) : Bool :=
  match s.rdcHit vmid die l with
  | some x => x.mark
  | none => s.markAt (l.via 1 vmid) l.pa

/-! ### L1 (R106–R110) -/

/-- Every L1 copy that a partition has of the sectors of a range, on one core, goes. -/
def State.dropL1 (s : State) (core vmid a n : Nat) : State :=
  { s with l1 := s.l1.filter (fun x => !(x.core == core && x.vmid == vmid && decide (x.pa < a + n ∧ a < x.pa + 32))) }

/-- A copy in a core's L1, of a partition. -/
def L1Sector.at_ (x : L1Sector) (core vmid pa : Nat) : Bool := x.core == core && x.pa == sector pa && x.vmid == vmid

def State.l1find (s : State) (core vmid pa : Nat) : Option L1Sector := s.l1.find? (fun x => x.at_ core vmid pa)

/-- Change the copies that `p` selects. -/
def State.modL1 (s : State) (p : L1Sector → Bool) (f : L1Sector → L1Sector) : State :=
  { s with l1 := s.l1.map (fun x => if p x then f x else x) }

/-- A dirty sector is written back to its home, with its error mark (R453). -/
def State.writeBackL1 (s : State) (x : L1Sector) : State :=
  let s := s.physWrite (.part x.vmid) x.key x.line x.pa x.bytes
  let s := if x.mark then s.putMark (.part x.vmid) x.pa else s
  s.modL1 (fun y => y.at_ x.core x.vmid x.pa) (fun y => { y with dirty := false : L1Sector })

/-- Write back every dirty sector that `p` selects. -/
def State.cleanL1 (s : State) (p : L1Sector → Bool) : State :=
  (s.l1.filter (fun x => p x && x.dirty)).foldl (fun s x => s.writeBackL1 x) s

/-- Write back every dirty sector that `p` selects, and drop it. -/
def State.flushL1 (s : State) (p : L1Sector → Bool) : State :=
  let s := s.cleanL1 p
  { s with l1 := s.l1.filter (fun x => !p x) }

/-- An acquire on a core: every L1 line of a shared page goes (R119). -/
def State.acquireL1 (s : State) (core : Nat) : State := { s with l1 := s.l1.filter (fun x => !(x.core == core && !x.priv)) }

/-- 256 KiB of a core's L1. -/
def l1Lines : Nat := 512

/-- The lines of a core's L1 with their places in the order of eviction. -/
def State.linesL1 (s : State) (core : Nat) : List (Nat × Nat) :=
  linesOf ((s.l1.filter (fun x => x.core == core)).map (fun x => (x.pa, x.rank)))

/-- A line leaves a core's L1: its dirty sectors are written back. -/
def State.evictL1 (s : State) (core line : Nat) : State := s.flushL1 (fun x => x.core == core && lineOf x.pa == line)

/-- A full L1 gives up a line for a new one: a streaming line first, a kept one last (R7, R106). -/
def State.roomL1 (s : State) (core pa : Nat) : State :=
  let mine := s.linesL1 core
  if mine.length < l1Lines ∨ mine.any (fun p => p.1 == lineOf pa) then s
  else
    match pickLine (Config.choice s.free) (leastRank mine) with
    | none => s
    | some line => s.usedChoice.evictL1 core line

/-- The place of a cache policy in the order of eviction; a store allocates as under the default (R106). -/
def polRank (pol : Nat) : Nat := if pol = 2 then 0 else if pol = 3 then 2 else 1

/-- Fill the block of the page's grain that holds the sector (R107). -/
def State.fillL1 (s : State) (core vmid asid : Nat) (l : LaneReq) (pol : Nat) : State :=
  let s := s.roomL1 core l.pa
  let missing := (sectorsOf l.block (attrGrain l.attr)).filter (fun a => (s.l1find core vmid a).isNone)
  missing.foldl (fun s a =>
    let at_ := { l with pa := a }
    let mark := s.homeMark vmid (core / 64) at_
    let (bs, s) := s.readHome vmid (core / 64) at_ 32
    { s with l1 := { core := core, pa := a, vmid := vmid, priv := !attrShared l.attr, key := l.key, bytes := bs, line := attrLine l.attr,
                     rank := polRank pol, asid := asid, page := l.page, mark := mark } :: s.l1 }) s

/-- The dirty 128-byte blocks of a core, least recently written last (R110). -/
def State.dirtyBlocks (s : State) (core : Nat) : List Nat :=
  ((s.l1.filter (fun x => x.core == core && x.dirty)).map (fun x => x.pa / 128 * 128)).eraseDups

/-- Bytes put over a sector's, from an offset in it. -/
def putBytes (old : List Byte) (o : Nat) (bs : List Byte) : List Byte := old.take o ++ bs ++ old.drop (o + bs.length)

/-- A store to a private page: its sector becomes dirty in the owner's L1; a 1,025th dirty block first writes back the least
recently written one (R108, R110). `whole`: the store has now rewritten the sector (R453). -/
def State.storeL1 (s : State) (core vmid asid : Nat) (l : LaneReq) (whole : Bool) (bs : List Byte) : State :=
  let s := if (s.l1find core vmid l.pa).isNone then s.fillL1 core vmid asid l 0 else s
  let blocks := s.dirtyBlocks core
  let s :=
    if 1024 ≤ blocks.length ∧ ¬ blocks.contains (l.pa / 128 * 128) then
      match blocks.getLast? with
      | none => s
      | some b => s.cleanL1 (fun x => x.core == core && x.pa / 128 * 128 == b)
    else s
  match s.l1find core vmid l.pa with
  | none => s
  | some x =>
    let y := { x with bytes := putBytes x.bytes (l.pa % 32) bs, dirty := true, priv := true, line := attrLine l.attr, asid := asid,
                      page := l.page, mark := x.mark && !whole }
    { s with l1 := y :: s.l1.filter (fun z => !z.at_ core vmid l.pa) }

/-! ### Strict mode (R131) -/

/-- A class lies in a scope term. A class of no launch has no form or house but its own (R117, R342). -/
def Reach.has (r : Reach) (c : Cls) : Bool :=
  let own := r.cls == c.id
  match r.scope with
  | 0 => own
  | 1 => if c.launch = 0 then own else r.form == c.form
  | 2 => if c.launch = 0 then own else r.launch == c.launch && r.house == c.houseno
  | 3 => r.die == c.core / 64
  | _ => true

/-- A class's scope term (R117). -/
def Cls.reach (c : Cls) (scope : Nat) : Reach :=
  { scope := scope, cls := c.id, form := c.form, launch := c.launch, house := c.houseno, die := c.core / 64 }

def Pin.has (p : Pin) (c : Cls) : Bool := p.reach.any (fun r => r.has c)

/-- The pin on the line of an address. -/
def State.pinAt (s : State) (pa : Nat) : Option Pin := s.pins.find? (fun p => p.line == lineOf pa)

/-- The access is refused with RETRY. -/
def State.refused (s : State) (c : Cls) (pa : Nat) : Bool :=
  match s.pinAt pa with
  | none => false
  | some p => !p.has c

/-- A held byte is performed at its home; the writer's L1 keeps no older copy of it. -/
def State.landPinned (s : State) (p : Pin) (q : Nat × Byte) : State :=
  (s.physWrite (.part p.vmid) p.key p.attr q.1 [q.2]).dropL1 p.core p.vmid q.1 1

/-- Sectors that some held bytes fill. -/
def wholeSectors (bs : List (Nat × Byte)) : List Nat :=
  ((bs.map (fun q => sector q.1)).eraseDups).filter (fun a => (List.range 32).all (fun i => bs.any (fun q => q.1 == a + i)))

/-- Held bytes are performed; a sector that they rewrite whole loses its error mark (R453). -/
def State.landAll (s : State) (p : Pin) (bs : List (Nat × Byte)) : State :=
  (wholeSectors bs).foldl (fun s a => s.clearMarks (.part p.vmid) p.attr.wb a 32) (bs.foldl (fun s q => s.landPinned p q) s)

/-- A pinned line is written back and unpinned. -/
def State.unpin (s : State) (p : Pin) : State := { s with pins := s.pins.filter (fun q => q.line != p.line) }.landAll p p.bytes

/-- The held bytes of a range are performed before another write to them is, at the home or at a monitor (R115, R116, R128). -/
def State.settlePin (s : State) (a n : Nat) : State :=
  let mine (q : Nat × Byte) : Bool := decide (a ≤ q.1 ∧ q.1 < a + n)
  match s.pinAt a with
  | none => s
  | some p =>
    let left (x : Pin) : Pin := if x.line = p.line then { x with bytes := x.bytes.filter (fun q => !mine q) } else x
    { s with pins := s.pins.map left }.landAll p (p.bytes.filter mine)

/-- A release of a scope by a class widens every reach it lies in; a reach that includes DEVICE ends the pin (R131). -/
def State.widenPins (s : State) (c : Cls) (scope : Nat) : State :=
  let pins := s.pins.map (fun p => if p.has c then { p with reach := c.reach scope :: p.reach } else p)
  let out := pins.filter (fun p => p.reach.any (fun r => decide (4 ≤ r.scope)))
  out.foldl (fun s p => s.unpin p) { s with pins := pins }

/-- Strict mode is set on a core (STRICTM). -/
def State.strict (s : State) (core : Nat) : Bool := (s.word (.core core) 0x031).getLsbD 0

/-- Hold a store's bytes in a pin on its line. `scope` is that of the release the store itself is, else 0: its own reach. -/
def State.pinStore (s : State) (c : Cls) (l : LaneReq) (scope : Nat) (bs : List Byte) : State :=
  let new := bs.zipIdx.map (fun p => (l.pa + p.2, p.1))
  let old := (s.pinAt l.pa).getD
    { line := lineOf l.pa, writer := c.id, reach := [], bytes := [], core := c.core, vmid := c.vmid, key := l.key, attr := attrLine l.attr }
  let p := { old with reach := c.reach scope :: old.reach,
                      bytes := new ++ old.bytes.filter (fun q => !(new.any (fun r => r.1 == q.1))) }
  { s with pins := p :: s.pins.filter (fun q => q.line != p.line) }

/-- A byte as pinned, or as given. -/
def State.overPin (s : State) (a : Nat) (b : Byte) : Byte :=
  match s.pinAt a with
  | none => b
  | some p => (assoc p.bytes a).getD b

/-! ### Releases and acquires (R119) -/

/-- A release of scope FORM or wider by a class: its release count rises, and pins widen. -/
def State.release (s : State) (c : Cls) (scope : Nat) : State :=
  if scope = 0 then s else (s.bumpTag c.tag).widenPins c scope

/-- An acquire of scope FORM or wider on a core. -/
def State.acquire (s : State) (core scope : Nat) : State := if scope = 0 then s else s.acquireL1 core

/-! ### The race detector (R133–R136) -/

/-- The address of a sector's race record. -/
def State.recordAt (s : State) (pa : Nat) : Nat :=
  (s.word .dev 0x109).toNat / 4096 * 4096 + 8 * ((pa - (s.word .dev 0x107).toNat / 2 ^ 30 * 2 ^ 30) / 32)

/-- Bytes of the race-record area: RRWSIZE × 256 MiB at RRPBASE (R134). -/
def State.inRecords (s : State) (a n : Nat) : Bool :=
  let base := (s.word .dev 0x109).toNat / 4096 * 4096
  let size := bits (s.word .dev 0x108).toNat 15 0 * 2 ^ 28
  decide (size ≠ 0 ∧ base < a + n ∧ a < base + size)

/-- The whole of a range lies in the race-checked window. -/
def State.inWindow (s : State) (a n : Nat) : Bool :=
  let base := (s.word .dev 0x107).toNat / 2 ^ 30 * 2 ^ 30
  let size := bits (s.word .dev 0x108).toNat 15 0 * 2 ^ 30
  decide (base ≤ a ∧ a + n ≤ base + size)

def State.releaseCount (s : State) (tag : Nat) : Nat := (assoc s.tagCount tag).getD 0

/-- The recorded TAG when an access by `tag` to a sector races with the last write (R136). -/
def State.raceWith (s : State) (tag : Nat) (sync : Bool) (pa : Nat) : Option Nat :=
  let r := s.hwNum 0 (s.recordAt pa) 8
  let t := bits r 55 32
  if bit r 63 && t != tag && decide (s.releaseCount t = r % 2 ^ 32) && !(bit r 62 && sync) then some t else none

/-- The first sector of a range that races, with the recorded TAG. -/
def State.raceIn (s : State) (tag : Nat) (sync : Bool) (pa n : Nat) : Option (Nat × Nat) :=
  (List.range ((pa % 32 + n + 31) / 32)).findSome? (fun i => (s.raceWith tag sync (sector pa + 32 * i)).map (fun t => (sector pa + 32 * i, t)))

/-- Record a write (R135); a tag whose count is at its limit clears V. -/
def State.recordWrite (s : State) (tag : Nat) (sync : Bool) (count pa : Nat) : State :=
  let r := if 0xFFFFFFFF ≤ s.releaseCount tag then 0
    else 2 ^ 63 + b2n sync * 2 ^ 62 + (tag % 2 ^ 24) * 2 ^ 32 + count % 2 ^ 32
  s.hwWrite 0 (s.recordAt pa) (toBytes 8 r)

/-- Record a write to every sector of a range. -/
def State.recordRange (s : State) (tag : Nat) (sync : Bool) (count pa n : Nat) : State :=
  (List.range ((pa % 32 + n + 31) / 32)).foldl (fun s i => s.recordWrite tag sync count (sector pa + 32 * i)) s

end Sys2Proof.Machine
end

