-- ==== Sys2Proof/Machine/Walk.lean ====
section
/-!
DEFINITION. The tables of both stages as data (R353–R360), the walk of them, and the accesses that hardware units make through
them. A class's own misses are walked by the walker routine (R363); the walk here serves the units that have no walker: the
Timetable, the Registrar, the control port, handler entry, replica and peer requests, and the guest page number of a TLB entry.
-/

namespace Sys2Proof.Machine

/-- Why a walk ends without a page (R358): the cause, whether stage 2 raised it, and the address that stage was given. -/
structure WalkFault where
  cause  : Cause
  stage2 : Bool := false
  addr   : Nat := 0
  deriving DecidableEq, Repr

/-- A page found: bases, size in bytes, the two leaves' results combined as R360 combines them. -/
structure Page where
  ga    : Nat
  pa    : Nat
  size  : Nat
  attr  : DWord
  key   : Nat
  xpart : Bool
  peer  : Bool := false
  deriving DecidableEq, Repr

/-- What the access needs of a leaf. -/
inductive Need where
  | r | w | rw | x | none
  deriving DecidableEq, Repr

def Need.granted (n : Need) (e : Nat) : Bool :=
  match n with
  | .r => bit e 1
  | .w => bit e 2
  | .rw => bit e 1 && bit e 2
  | .x => bit e 3
  | .none => true

def Need.writes : Need → Bool
  | .w | .rw => true
  | .r | .x | .none => false

/-- Reserved encodings of an entry (R355–R358). -/
def leafOk (stage1 : Bool) (e : Nat) : Bool :=
  if stage1 then bits e 9 8 != 3 && bits e 11 10 != 3 && bits e 51 50 != 3
  else bits e 63 55 == 0 && bits e 11 8 == 0 && !bit e 4

def pointerOk (stage1 : Bool) (level e : Nat) : Bool :=
  bits e 63 48 == 0 && bits e 11 9 == 0 && bits e 7 6 == 0 && bits e 4 1 == 0 && (!bit e 8 || (stage1 && level == 1))

/-- The page size of a leaf (Table 17-1). -/
def leafSize (level : Nat) (c64 : Bool) : Nat :=
  if level = 0 then (if c64 then 2 ^ 16 else 2 ^ 12) else if level = 1 then 2 ^ 21 else 2 ^ 30

/-- Walk one stage from `level` down: the leaf and its page size (R354). `rd` reads an 8-byte entry at an address of the
space the stage's tables lie in. -/
def walkStage (rd : Nat → Except WalkFault Nat) (stage1 : Bool) (addr : Nat) (flt : Cause → WalkFault) :
    Nat → Nat → Bool → Except WalkFault (Nat × Nat)
  | level, table, c64 =>
    let ix := if c64 then bits addr 20 16 * 16 else bits addr (20 + 9 * level) (12 + 9 * level)
    match rd (table + 8 * ix) with
    | .error f => .error f
    | .ok e =>
      if !bit e 0 then .error (flt .xlate)
      else if bit e 5 then
        let size := leafSize level c64
        if 3 ≤ level ∨ !leafOk stage1 e ∨ bits e 47 12 * 4096 % size ≠ 0 then .error (flt .xlate) else .ok (e, size)
      else
        match level with
        | 0 => .error (flt .xlate)
        | l + 1 =>
          if !pointerOk stage1 (l + 1) e then .error (flt .xlate)
          else walkStage rd stage1 addr flt l (bits e 47 12 * 4096) (bit e 8)

/-- Stage 2 of a guest physical address (R354, R357): the leaf and its size. -/
def State.stage2 (s : State) (vmid ga : Nat) (need : Need) : Except WalkFault (Nat × Nat) :=
  let root := (s.word (.part vmid) 0x103).toNat % 2 ^ 36 * 4096
  let rd (a : Nat) : Except WalkFault Nat := .ok (s.hwNum 0 a 8)
  let flt (c : Cause) : WalkFault := { cause := c, stage2 := true, addr := ga }
  match walkStage rd false ga flt 4 root false with
  | .error f => .error f
  | .ok (e, size) => if need.granted e then .ok (e, size) else .error (flt .prot)

/-- The partition's valid peer window that holds a guest physical address (R433). -/
def State.peerWindow (s : State) (vmid ga : Nat) : Option (Nat × Nat) :=
  (List.range 16).findSome? (fun i =>
    let w := (s.word (.part vmid) 0x251 i).toNat
    let base := bits w 47 30 * 2 ^ 30
    let size := (bits w 55 48 + 1) * 2 ^ 30
    if bit w 63 ∧ base ≤ ga ∧ ga < base + size then some (w, ga - base) else none)

/-- A place that a unit reaches: physical memory, with how it is reached, or a guest physical address that goes out on a peer link. -/
structure Place where
  pa    : Nat
  key   : Nat := 0
  via   : Via := .unit
  line  : LineAttr := { wb := false }
  peer  : Bool := false
  deriving DecidableEq, Repr

/-- A guest physical address as a unit reaches it: inside a valid peer window it is not translated by stage 2 (R433). -/
def State.guestPlace (s : State) (vmid ga : Nat) (need : Need) : Except WalkFault Place :=
  if (s.peerWindow vmid ga).isSome then .ok { pa := ga, peer := true }
  else
    match s.stage2 vmid ga need with
    | .error f => .error f
    | .ok (e, size) => .ok { pa := bits e 47 12 * 4096 + ga % size, key := bits e 53 48 }

/-- A table entry of 8 bytes at a guest physical address: in a peer window, what the remote device answers, or PROT (R434). The
race-record area is none that tables lie in (R134). -/
def State.tableNum (s : State) (vmid ga : Nat) : Except WalkFault Nat :=
  match s.guestPlace vmid ga .r with
  | .error f => .error f
  | .ok p =>
    if p.peer then
      match Config.peerTable s.free ga with
      | none => .error { cause := .prot, addr := ga }
      | some x => .ok (x % 2 ^ 64)
    else if s.inRecords p.pa 8 then .error { cause := .prot, stage2 := true, addr := ga }
    else .ok (s.hwNum p.key p.pa 8)

/-- The link of an offset in a window: (DEV + offset bits 21:9) mod 16 (R433). -/
def peerLink (w off : Nat) : Nat := (bits w 29 12 + bits off 21 9) % 16

/-- A request goes out on its window's link. -/
def State.peerSend (s : State) (vmid ga n : Nat) (kind : PeerKind) : State :=
  match s.peerWindow vmid ga with
  | none => s
  | some (w, off) =>
    let r : PeerReq := { srcDev := (s.word .dev 0x270).toNat % 2 ^ 18, vmid := bits w 11 6, exIdx := bits w 62 59,
                         offset := off, size := n, kind := kind }
    { s with sent := s.sent ++ [Sent.peer (peerLink w off) (bits w 29 12) r] }

/-- A request with its answer: its value, or nothing when the remote device refuses it (R434). What a remote device answers is a free
value. -/
def State.peerAsk (s : State) (vmid ga n : Nat) (kind : PeerKind) : Option Nat × State :=
  (Config.peerAnswer s.free, (s.peerSend vmid ga n kind).usedChoice)

/-- The stage-1 root of an ASID (R359): through the partition's ASID table. -/
def State.stage1Root (s : State) (vmid asid : Nat) : Except WalkFault Nat :=
  let lo := (s.word (.part vmid) 0x101).toNat % 2 ^ 16
  let hi := (s.word (.part vmid) 0x102).toNat % 2 ^ 16
  if asid < lo ∨ hi < asid then .error { cause := .xlate }
  else
    match s.tableNum vmid ((s.word (.part vmid) 0x100).toNat / 4096 * 4096 + 8 * asid) with
    | .error f => .error f
    | .ok e =>
      if bit e 0 ∧ bits e 63 48 = 0 ∧ bits e 11 1 = 0 then .ok (bits e 47 12 * 4096) else .error { cause := .xlate }

/-- Two ASIDs of a partition are translated by the same stage-1 tables. -/
def State.sameTables (s : State) (vmid a b : Nat) : Bool :=
  a == b || (match s.stage1Root vmid a, s.stage1Root vmid b with
    | .ok x, .ok y => x == y
    | _, _ => false)

/-- Stage 1 of a virtual address: leaf, size, and the physical address of the leaf with its owner tag. -/
def State.stage1 (s : State) (vmid asid va : Nat) (need : Need) : Except WalkFault (Nat × Nat) :=
  match s.stage1Root vmid asid with
  | .error f => .error { f with addr := if f.stage2 then f.addr else va }
  | .ok root =>
    let flt (c : Cause) : WalkFault := { cause := c, addr := va }
    match walkStage (s.tableNum vmid) true va flt 4 root false with
    | .error f => .error { f with addr := if f.stage2 then f.addr else va }
    | .ok (e, size) => if need.granted e then .ok (e, size) else .error (flt .prot)

/-- Both stages combined (R360). -/
def State.walk (s : State) (vmid asid va : Nat) (need : Need) : Except WalkFault Page :=
  match s.stage1 vmid asid va need with
  | .error f => .error f
  | .ok (e1, z1) =>
    let ga := bits e1 47 12 * 4096 + va % z1
    if (s.peerWindow vmid ga).isSome then
      .ok { ga := ga / 4096 * 4096, pa := ga / 4096 * 4096, size := 4096, attr := BitVec.ofNat 64 e1, key := 0, xpart := false,
            peer := true }
    else
      match s.stage2 vmid ga need with
      | .error f => .error f
      | .ok (e2, z2) =>
        let size := min z1 z2
        let pa := bits e2 47 12 * 4096 + ga % z2
        let low := (e1 % 2 ^ 4) &&& (e2 % 2 ^ 4 ||| 1) ||| (e1 &&& 0x10) ||| 0x20 ||| (e1 &&& e2 &&& 0xC0)
        let attr := e1 / 2 ^ 48 * 2 ^ 48 + bits e1 11 8 * 256 + low + bits (pa / size * size) 47 12 * 4096
        .ok { ga := ga / size * size, pa := pa / size * size, size := size, attr := BitVec.ofNat 64 attr, key := bits e2 53 48,
              xpart := bit e2 54 }

/-! ### Rewriting a leaf (R108, R373, R375) -/

/-- Where the entry that ends a walk lies, in the space its tables lie in. -/
def leafSlot (rd : Nat → Option Nat) (addr : Nat) : Nat → Nat → Bool → Option (Nat × Nat)
  | level, table, c64 =>
    let ix := if c64 then bits addr 20 16 * 16 else bits addr (20 + 9 * level) (12 + 9 * level)
    match rd (table + 8 * ix) with
    | none => none
    | some e =>
      if !bit e 0 then none
      else if bit e 5 then some (table + 8 * ix, e)
      else
        match level with
        | 0 => none
        | l + 1 => leafSlot rd addr l (bits e 47 12 * 4096) (bit e 8)

/-- The addresses of the entries that such a walk reads. -/
def entriesRead (rd : Nat → Option Nat) (addr : Nat) : Nat → Nat → Bool → List Nat
  | level, table, c64 =>
    let at_ := table + 8 * (if c64 then bits addr 20 16 * 16 else bits addr (20 + 9 * level) (12 + 9 * level))
    match rd at_ with
    | none => [at_]
    | some e =>
      if !bit e 0 || bit e 5 then [at_]
      else
        match level with
        | 0 => [at_]
        | l + 1 => at_ :: entriesRead rd addr l (bits e 47 12 * 4096) (bit e 8)

/-- A stage-1 entry, if it can be read. -/
def State.tableAt (s : State) (vmid ga : Nat) : Option Nat :=
  match s.tableNum vmid ga with
  | .error _ => none
  | .ok e => some e

/-- The reads that a walk of a virtual address sends over peer links (R433). -/
def State.sendWalk (s : State) (vmid asid va : Nat) : State :=
  let root := (s.word (.part vmid) 0x100).toNat / 4096 * 4096 + 8 * asid
  let out := (root :: (match s.stage1Root vmid asid with
    | .error _ => []
    | .ok r => entriesRead (s.tableAt vmid) va 4 r false)).filter (fun g => (s.peerWindow vmid g).isSome)
  if out.isEmpty then s else (out.foldl (fun s g => s.peerSend vmid g 8 .read) s).usedChoice

/-- Write a unit's bytes at a place. -/
def State.putPlace (s : State) (vmid : Nat) (p : Place) (bs : List Byte) : State :=
  if p.peer then s.peerSend vmid p.pa bs.length (.write bs) else s.physWrite p.via p.key p.line p.pa bs

/-- Rewrite the stage-1 leaf of a page; nothing where the tables no longer map it. -/
def rewriteLeaf (vmid asid va : Nat) (f : Nat → Nat) (s : State) : State :=
  match s.stage1Root vmid asid with
  | .error _ => s
  | .ok root =>
    match leafSlot (s.tableAt vmid) va 4 root false with
    | none => s
    | some (g, e) =>
      match s.guestPlace vmid g .r with
      | .error _ => s
      | .ok p => s.putPlace vmid p (toBytes 8 (f e))

/-! ### The seal map (R373) -/

/-- Frames the map covers (SEALLIM, Table 17-5). -/
def State.sealLimit (s : State) : Nat := (s.word .dev 0x106).toNat

def State.sealed (s : State) (pa : Nat) : Bool := s.sealMap.contains (pa / 4096)

/-- Eight frames' bits of the map. -/
def State.mapByte (s : State) (k : Nat) : Byte :=
  BitVec.ofNat 8 (((List.range 8).map (fun i => b2n (s.sealMap.contains (8 * k + i)) * 2 ^ i)).sum)

/-- The map's bits of some frames as they lie at SEALBASE. -/
def State.putMap (s : State) (frames : List Nat) : State :=
  (((frames.filter (fun f => decide (f < s.sealLimit))).map (fun f => f / 8)).eraseDups).foldl
    (fun s k => s.hwWrite 0 ((s.word .dev 0x105).toNat + k) [s.mapByte k]) s

def State.seal (s : State) (frames : List Nat) : State :=
  { s with sealMap := frames.eraseDups.filter (fun f => !s.sealMap.contains f) ++ s.sealMap }.putMap frames

def State.unseal (s : State) (frames : List Nat) : State :=
  { s with sealMap := s.sealMap.filter (fun f => !frames.contains f) }.putMap frames

/-- Sealed frames of a range of physical addresses. -/
def State.sealedIn (s : State) (pa size : Nat) : List Nat :=
  s.sealMap.filter (fun f => decide (pa / 4096 ≤ f ∧ f < (pa + size) / 4096))

/-- Frames of a range: all sealed, some sealed (R365). -/
def State.sealedAll (s : State) (pa size : Nat) : Bool := decide (size / 4096 ≤ (s.sealedIn pa size).eraseDups.length)
def State.sealedAny (s : State) (pa size : Nat) : Bool := !(s.sealedIn pa size).isEmpty

/-! ### A hardware unit's accesses through both stages -/

/-- The place of one virtual byte for a unit; stores to sealed frames, content pages and the race-record area raise PROT (R134, R254,
R374); a page of a peer window goes out on its link (R433), and one with XPART or uncached is reached at the memory controller (R105,
R428). -/
def State.unitAddr (s : State) (vmid asid va : Nat) (need : Need) : Except WalkFault Place :=
  if 2 ^ 57 ≤ va then .error { cause := .addr, addr := va }
  else if 0x01FFFF0000000000 ≤ va then .error { cause := .prot, addr := va }
  else
    match s.walk vmid asid va need with
    | .error f => .error f
    | .ok p =>
      let pa := p.pa + va % p.size
      if need.writes && attrCA p.attr then .error { cause := .prot, addr := va }
      else if p.peer then .ok { pa := pa, peer := true }
      else if Config.memLimit ≤ pa then .error { cause := .xlate, stage2 := true, addr := p.ga + va % p.size }
      else if need.writes && s.sealed pa || s.inRecords pa 1 then .error { cause := .prot, addr := va }
      else
        let past := p.xpart && !attrCA p.attr || attrClevel p.attr == 2
        .ok { pa := pa, key := p.key, via := if past then .dram else .part vmid,
              line := { attrLine p.attr with wb := attrWb p.attr && !past } }

/-- The pieces of a range within 4 KiB pages: address and length. -/
def pieces : Nat → Nat → Nat → List (Nat × Nat)
  | 0, _, _ => []
  | fuel + 1, va, n =>
    if n = 0 then []
    else
      let k := min n (4096 - va % 4096)
      (va, k) :: pieces fuel (va + k) (n - k)

/-- Every piece of a unit's access with its virtual address, place and length; the first that faults decides. -/
def State.unitPieces (s : State) (vmid asid va n : Nat) (need : Need) : Except WalkFault (List (Nat × Place × Nat)) :=
  (pieces (n / 4096 + 2) va n).foldr (fun p r =>
    match s.unitAddr vmid asid p.1 need with
    | .error f => .error f
    | .ok x =>
      match r with
      | .error f => .error f
      | .ok l => .ok ((p.1, x, p.2) :: l)) (.ok [])

/-- A unit reads a place; a remote device may refuse it. -/
def State.readPlace (s : State) (vmid : Nat) (p : Place) (n : Nat) : Option (List Byte) × State :=
  if p.peer then
    match s.peerAsk vmid p.pa n .read with
    | (x, s) => (x.map (fun v => toBytes n v), s)
  else (some (s.physRead p.via (s.keyId p.key) p.pa n), s)

/-- A unit writes a place. -/
def State.writePlace (s : State) (vmid : Nat) (p : Place) (bs : List Byte) : Bool × State :=
  if p.peer then
    match s.peerAsk vmid p.pa bs.length (.write bs) with
    | (x, s) => (x.isSome, s)
  else (true, s.physWrite p.via p.key p.line p.pa bs)

/-- Read pieces in turn; one that a remote device refuses ends with PROT (R434). -/
def readPieces (vmid : Nat) : List (Nat × Place × Nat) → State → Except WalkFault (List Byte) × State
  | [], s => (.ok [], s)
  | (va, p, n) :: l, s =>
    match s.readPlace vmid p n with
    | (none, s) => (.error { cause := .prot, addr := va }, s)
    | (some bs, s) =>
      match readPieces vmid l s with
      | (.error f, s) => (.error f, s)
      | (.ok r, s) => (.ok (bs ++ r), s)

/-- Write pieces in turn. -/
def writePieces (vmid : Nat) : List (Nat × Place × Nat) → List Byte → State → Option WalkFault × State
  | [], _, s => (none, s)
  | (va, p, n) :: l, bs, s =>
    match s.writePlace vmid p (bs.take n) with
    | (false, s) => (some { cause := .prot, addr := va }, s)
    | (true, s) => writePieces vmid l (bs.drop n) s

/-- Read n bytes for a unit. -/
def State.unitRead (s : State) (vmid asid va n : Nat) : Except WalkFault (List Byte) × State :=
  match s.unitPieces vmid asid va n .r with
  | .error f => (.error f, s.sendWalk vmid asid va)
  | .ok l => readPieces vmid l (s.sendWalk vmid asid va)

/-- A little-endian number of n bytes. -/
def State.unitNum (s : State) (vmid asid va n : Nat) : Except WalkFault Nat × State :=
  match s.unitRead vmid asid va n with
  | (.error f, s) => (.error f, s)
  | (.ok l, s) => (.ok (ofBytes l), s)

/-- Write bytes for a unit: every page is checked before any byte is written. -/
def State.unitWrite (s : State) (vmid asid va : Nat) (bs : List Byte) : Option WalkFault × State :=
  match s.unitPieces vmid asid va bs.length .w with
  | .error f => (some f, s.sendWalk vmid asid va)
  | .ok l => writePieces vmid l bs (s.sendWalk vmid asid va)

end Sys2Proof.Machine
end

