-- ==== Sys2Proof/Machine/Ops.lean ====
section
/-!
DEFINITION. Ending classes (R18, R386), and taking an exception: an event is raised (`raise`, R337–R339), routed (R338), and
disposed of (`disposeWith`, R344), the return from it; completing a group (R34, R37–R39).
-/

namespace Sys2Proof.Machine

/-! ### Ending classes (R18, R33, R203, R386) -/

/-- Whether a memory instruction counts in SOC (R61). -/
def Cls.soc (c : Cls) : Nat := (c.mem.filter (fun a => a.counts)).length

/-- Operand-log entries: instructions held for a walk, a fault service or a replay (R377, R380). A replay packet of a restored context
has no entry (R391). -/
def Access.logged (a : Access) : Bool :=
  a.replayed ||
    match a.stage with
    | .fabric | .retry _ | .stopped => false
    | .walking | .delivered _ _ => true
    | .ready => a.logix.isSome

def Cls.logUse (c : Cls) : Nat := (c.mem.filter Access.logged).length

/-- Residual entries of a core: log entries of ended classes (R386). -/
def State.residuals (s : State) (core : Nat) : Nat :=
  ((s.allCls.filter (fun c => c.core == core && c.status == .ended)).map Cls.logUse).sum

/-- Entries an ended class keeps: log entries, stores and operations already sent, a LAUNCH, whose check has passed (R219); a
load not yet bound is discarded (R203, R386). -/
def Access.kept (a : Access) : Bool :=
  a.logged || a.counts ||
    match a.op with
    | .atomic _ | .slotGet | .slotSwap _ _ | .launch => true
    | .load _ | .loadScalar _ | .loadAcquire | .store _ | .storeScalar _ | .storeRelease _ | .loadScratch _
    | .storeScratch _ | .mred _ _ | .mredF _ | .rlds _ _ | .cld _ _ _ | .physLoad | .physStore | .tlk _ | .copy _ => false

/-- Operations on physical addresses, on the scratchpad and on content lines need no translation. -/
def AccOp.translated : AccOp → Bool
  | .loadScratch _ | .storeScratch _ | .physLoad | .physStore | .cld _ _ _ => false
  | .load _ | .loadScalar _ | .loadAcquire | .store _ | .storeScalar _ | .storeRelease _ | .atomic _ | .mred _ _ | .mredF _
  | .rlds _ _ | .tlk _ | .launch | .copy _ | .slotGet | .slotSwap _ _ => true

/-- Where a stopped instruction goes on: its checks are made again, if it is translated (R380). -/
def AccOp.again (op : AccOp) : Stage := if op.translated then .ready else .fabric

/-- A kept entry has no destination any more; one that stood with the tenant handler is tried again, for a fault of a residual
entry goes no higher than level 1 (R381). -/
def Access.residual (a : Access) : Access :=
  match a.stage with
  | .delivered 2 _ => { a with dest := [], sdest := none, stage := .ready, fault := none }
  | .stopped => { a with dest := [], sdest := none, stage := a.op.again }
  | _ => { a with dest := [], sdest := none }

/-- A walker has ended: slots emptied meanwhile go, and the others are offered again (R363). -/
def endRun (core : Nat) (l : List MissSlot) : List MissSlot :=
  (l.filter (fun m => !(m.core == core && m.stale && m.waiters.isEmpty && m.engine.isNone))).map
    (fun m => if m.core = core then { m with inRun := false, stale := false, shot := [] } else m)

/-- The end of a class is a release at DEVICE scope of every access of it: it acts when the last that it left has been performed
(R18, R119, R135). -/
def State.settleEnd (s : State) (c : Cls) : State :=
  if c.endDue && s.quiet c then (s.modCls c.id (fun c => { c with endDue := false })).release c 4 else s

/-- A class of a launch that has finished every lane: its registers go, its locks are freed, its end is a release, and its
log entries become residual entries, or hold its slot while the core has no room for them (R18, R203, R386). -/
def State.closeCls (s : State) (id : Nat) : State :=
  match s.getCls id with
  | none => s
  | some c =>
    if c.status != .live then s
    else
      let keep := (c.mem.filter Access.kept).map Access.residual
      let room := decide (s.residuals c.core + (keep.filter Access.logged).length ≤ 32)
      let s := s.modCls id (fun c =>
        { c with status := if room then .ended else .ending, splits := c.splits.map (fun _ => {}), bracket := none,
                 v := [], locks := [], mem := keep, poisonV := [], endDue := true })
      let s := { s with tlb := s.tlb.filter (fun e => e.home != TlbHome.lockable c.core id),
                        runners := s.runners.filter (fun r => r.cls != id), shoots := s.shoots.filter (fun w => w.cls != id),
                        pending := s.pending.filter (fun p => !(p.ev.cls == id && !p.ev.async)),
                        misses := (if c.kind == ClsKind.walker then endRun c.core s.misses else s.misses) }
      match s.getCls id with
      | none => s
      | some c => s.settleEnd c

/-- Classes whose slot was held free it, one after the other, as the core's residual entries leave room (R386); ends that stood
open are released. -/
def State.settleEnding (s : State) : State :=
  s.allCls.foldl (fun s c =>
    let s :=
      if c.status == .ending && decide (s.residuals c.core + c.logUse ≤ 32) then s.modCls c.id (fun c => { c with status := .ended })
      else s
    s.settleEnd c) s

/-- Reply word 0 (R339) as the handler's own stores left it: held dirty in its core's L1, pinned, or at its place, under its owner tag
(R446, R447). -/
def State.replyByte (s : State) (h : HSlot) : Byte :=
  match s.pins.find? (fun p => p.line == lineOf h.reply && (assoc p.bytes h.reply).isSome) with
  | some p => (assoc p.bytes h.reply).getD 0
  | none =>
    match s.l1.find? (fun x => x.at_ h.core h.vmid h.reply && x.dirty) with
    | some x => x.bytes.getD (h.reply % 32) 0
    | none => s.physByte h.replyVia (s.keyId h.replyTag) h.reply

/-- Reply word 0 is read; over a peer link it is what the remote device answers (R433). -/
def State.readReply (s : State) (h : HSlot) : Byte × State :=
  if h.replyPeer then
    match s.peerAsk h.vmid h.reply 8 .read with
    | (x, s) => (BitVec.ofNat 8 (x.getD 2), s)
  else (s.replyByte h, s)

/-- The launch of an event ends with status ORPHAN: no further house is placed (R344, R388). -/
def State.orphanLaunch (s : State) (no : Nat) : State :=
  { s with launches := s.launches.map (fun l => if l.no = no then { l with orphan := true, noPlace := true } else l) }

/-- Change the log entry of a class. -/
def Cls.modAcc (c : Cls) (a : Nat) (f : Access → Access) : Cls :=
  { c with mem := c.mem.map (fun x => if x.id = a then f x else x) }

def Cls.dropAcc (c : Cls) (a : Nat) : Cls := { c with mem := c.mem.filter (fun x => x.id != a) }

/-! ### Joins (R32, R33) -/

/-- The sibling of child split i: the other child of its parent (R30, R31). -/
def Cls.sibling (c : Cls) (i : Nat) : Option Nat :=
  (List.range 16).find? (fun j => j != i && j != (c.split i).parent && (c.split j).parent == (c.split i).parent
    && (c.split j).state != .free)

/-- Every window of the long-latency instructions still outstanding, closed (R39). -/
def closed (l : List Pend) : List Pend := l.map (fun p => { p with left := 0 })

/-- A split that may go on; one that events of instructions it has left behind still hold is blocked until they are disposed of
(R381). -/
def Split.go (sp : Split) : Split :=
  if sp.stops = 0 then { sp with state := .ready, age := 0 } else { sp with state := .blocked .event, age := 0, stops := sp.stops - 1 }

/-- Split i arrives at its innermost join with the lanes of m (R32, R33). A merge or a closing level with no lane left arrives
in turn one level further out; the root, with no level left, is finished. Children that an event still holds merge once it is disposed
of (DEDUCED: log entry 48). `fuel` bounds the depth. -/
def arrive : Nat → Nat → Mask → Cls → Cls
  | 0, _, _, c => c
  | fuel + 1, i, m, c =>
    let sp := c.split i
    match sp.levels with
    | [] => if m = 0 then c.setSplit i {} else c
    | .deferred join dpc set kept :: rest =>
      if set ≠ 0 then
        c.setSplit i { sp with mask := set, pc := dpc, levels := .deferred join dpc 0 (kept ||| m) :: rest, pend := closed sp.pend }.go
      else if kept ||| m = 0 then arrive fuel i 0 (c.setSplit i { sp with mask := 0, levels := rest })
      else c.setSplit i { sp with mask := kept ||| m, pc := join + 4, levels := rest, pend := closed sp.pend }.go
    | .child join :: _ =>
      match c.sibling i with
      | none => c
      | some j =>
        let sb := c.split j
        if sb.state = .joinChild ∧ sb.stops = 0 ∧ sp.stops = 0 then
          let u := sb.mask ||| m
          let c := (c.setSplit i {}).setSplit j {}
          let pa := c.split sp.parent
          let pa := { pa with mask := u, pc := join + 4, pend := closed (sp.pend ++ sb.pend) }
          if u = 0 then arrive fuel sp.parent 0 (c.setSplit sp.parent pa) else c.setSplit sp.parent pa.go
        else c.setSplit i { sp with state := .joinChild, mask := m }

/-- The deepest chain of arrivals: 16 splits of 15 levels. -/
def arriveFuel : Nat := 256

/-- A child at its join that nothing holds any more arrives again. -/
def Cls.rejoin (c : Cls) (i : Nat) : Cls :=
  if (c.split i).state = .joinChild ∧ (c.split i).stops = 0 then arrive arriveFuel i (c.split i).mask c else c

/-- No split of the class has an active lane: its root is finished (R18, R33). -/
def Cls.finished (c : Cls) : Bool := c.live && (c.split 0).state == .free

/-! ### Events of splits (R344, R381) -/

/-- An event of an instruction that a split has left behind stops the split until it is disposed of: a ready split is blocked, and one
that waits for something, another event perhaps, issues nothing once that has come (R381). -/
def Cls.stop (c : Cls) (i : Nat) : Cls :=
  match (c.split i).state with
  | .ready => c.modSplit i (fun sp => { sp with state := .blocked .event })
  | .blocked _ | .joinParent _ | .joinChild => c.modSplit i (fun sp => { sp with stops := sp.stops + 1 })
  | .free => c

/-- An event of a split is disposed of: with no other the split returns to ready, or arrives at its join (R344). -/
def Cls.wake (c : Cls) (i : Nat) (pc : Option Int) : Cls :=
  (c.modSplit i (fun sp =>
    let sp := if sp.state = .blocked .event then { sp with pc := pc.getD sp.pc } else sp
    if sp.stops ≠ 0 then { sp with stops := sp.stops - 1 }
    else if sp.state = .blocked .event then { sp with state := .ready, age := 0 } else sp)).rejoin i

/-- What a stopped or logged instruction is after RESUME: reissued, or ready for its replay (R380); one whose walk the event stopped waits
for it on (R372). -/
def Access.resumed (a : Access) : Access :=
  match a.stage with
  | .walking => a
  | .stopped => { a with stage := a.op.again, fault := none }
  | _ => { a with stage := .ready, fault := none }

/-- Return a split that its own unfinished instruction `a` blocks to ready. -/
def Cls.wakeHeld (c : Cls) (a i : Nat) (pc : Int) : Cls :=
  if (c.split i).state = .blocked (.content a) ∨ (c.split i).state = .blocked (.engine a) then
    c.modSplit i (fun sp => { sp with state := .ready, pc := pc, age := 0 })
  else c

/-- The live classes of the form whose time bound the event reports: they end whatever the disposition (R413). -/
def State.expired (s : State) (ev : Event) : List Nat :=
  if ev.cause = .deadline && ev.async then
    (s.allCls.filter (fun c => c.kind == .launch && c.launch == ev.launch && c.formno == ev.form && c.live)).map (·.id)
  else []

/-- What a service launch waits for in the queue that it serves itself is given up when its time bound ends it (R440). -/
def State.dropOwn (ev : Event) (s : State) : State :=
  if ev.cause = .deadline ∧ ev.async ∧ s.launches.any (fun l => l.no == ev.launch && l.service) then
    s.mapCls (fun c =>
      if c.kind = .launch ∧ c.launch = ev.launch ∧ c.formno = ev.form then
        { c with mem := c.mem.filter (fun a => match a.stage with
            | .delivered 1 _ => false
            | _ => true) }
      else c)
  else s

/-- A class that stands in a saved context. -/
def SavedCtx.holds (x : SavedCtx) (cls : Nat) : Bool := x.classes.any (fun c => c.id == cls)

def State.inSaved (s : State) (cls : Nat) : Bool := s.saved.any (fun x => x.holds cls)

/-- The live classes of a launch that stand in saved contexts end at restore. -/
def State.endSaved (s : State) (launch : Nat) : State :=
  { s with saved := s.saved.map (fun x =>
      { x with ends := x.ends ++ (x.classes.filter (fun c => c.kind == .launch && c.launch == launch && c.live)).map (·.id) }) }

/-- A disposition of an event of a saved class acts at restore, as R385 says of a fault-queue entry's. -/
def State.recordEvent (s : State) (ev : Event) (disp : Nat) : State :=
  { s with saved := s.saved.map (fun x => if x.holds ev.cls then { x with disposed := x.disposed ++ [(ev, disp)] } else x) }

/-- KILL and ABORT discard the logged access that raised the event (R381, R385). -/
def State.dropRaised (s : State) (ev : Event) : State :=
  match ev.acc with
  | none => s
  | some a => s.modCls ev.cls (fun c => c.dropAcc a)

/-- A disposition's effect on the event, before accesses that it dropped let an ended class go. `endC` ends a class. -/
def disposeEvent (endC : Nat → State → State) (ev : Event) (disp : Nat) (s : State) : State :=
  let s := if disp ≤ 2 then (s.expired ev).foldl (fun s i => endC i s) s else s
  let ended (s : State) : State := if ((s.getCls ev.cls).map Cls.finished).getD false then endC ev.cls s else s
  match disp with
  | 0 =>
    if ev.async then s
    else
      match ev.acc with
      | none => ended (s.modCls ev.cls (fun c => c.wake ev.split (some ev.resume)))
      | some a => ended (s.modCls ev.cls (fun c => (c.modAcc a Access.resumed).wake ev.split none))
  | 1 =>
    if ev.async then s
    else
      match ev.acc with
      | none => ended (s.modCls ev.cls (fun c => c.wake ev.split (some ev.skipTo)))
      | some a => ended (s.modCls ev.cls (fun c => ((c.dropAcc a).wake ev.split none).wakeHeld a ev.split ev.skipTo))
  | 2 => endC ev.cls (s.dropRaised ev)
  | _ =>
    let s := s.dropRaised ev
    let ids := (s.allCls.filter (fun c => c.kind == .launch && c.launch == ev.launch && c.live)).map (·.id)
    let s := (s.orphanLaunch ev.launch).endSaved ev.launch
    (if ids.contains ev.cls then ids else ev.cls :: ids).foldl (fun s i => endC i s) s

/-- A disposition's effect on the event. -/
def disposeNow (endC : Nat → State → State) (ev : Event) (disp : Nat) (s : State) : State :=
  ((disposeEvent endC ev disp s).dropOwn ev).settleEnding

/-- The return from an exception (R344). -/
def disposeWith (endC : Nat → State → State) (ev : Event) (disp : Nat) (s : State) : State :=
  if !s.inSaved ev.cls then disposeNow endC ev disp s
  else if disp ≤ 2 then s.recordEvent ev disp
  else disposeNow endC ev disp (s.recordEvent ev disp)

/-- A handler's slot and its scratchpad are free. -/
def State.freeHandler (s : State) (id : Nat) : State :=
  { s with hslots := s.hslots.filter (fun x => x.cls != id), forms := s.forms.filter (fun f => !(f.launch == 0 && f.house == id)) }

/-- A handler whose class has ended is disposed of once its store buffer is drained: DISP is read from reply word 0, its slot
frees, and the event it handled is disposed of (R344). -/
def finishHandler (endC : Nat → State → State) (id : Nat) (s : State) : State :=
  match s.hslots.find? (fun h => h.cls == id) with
  | none => s
  | some h =>
    match s.getCls id with
    | none => s
    | some c =>
      if c.live || c.soc != 0 then s
      else
        match s.readReply h with
        | (b, s) => disposeWith endC h.ev (b.toNat % 4) (s.freeHandler id)

/-- End a class; a handler's end disposes of its event, which may end another class, and so on down the levels. -/
def endClassN : Nat → Nat → State → State
  | 0, _, s => s
  | n + 1, id, s => finishHandler (endClassN n) id (s.closeCls id)

def endClass (id : Nat) (s : State) : State := endClassN 4 id s

/-- Dispose of an event (R344). -/
def dispose (ev : Event) (disp : Nat) (s : State) : State := disposeWith endClass ev disp s

/-- Dispose of a handler whose class has ended and drained. -/
def settleHandler (id : Nat) (s : State) : State := finishHandler endClass id s

/-- Launches that a core's stop affects: those with a class, an access, an engine or sequencer operation or a form there. -/
def State.launchesOn (s : State) (core : Nat) : List Nat :=
  (((s.allCls.filter (fun c => c.core == core && (c.status != .ended || !c.mem.isEmpty))).map (fun c => c.launch))
    ++ ((s.engines.filter (fun e => e.core == core)).map (fun e => e.launch))
    ++ ((s.forms.filter (fun f => f.core == core)).map (fun f => f.launch))).eraseDups

/-- The names that an engine operation holds a reference on: the root it has pinned, or what its build has made so far (R303, R326). -/
def EngineOp.held (e : EngineOp) : List (BitVec 128) :=
  (if e.pinned then [e.name] else []) ++ e.names ++ e.below.drop (8 * e.names.length)

/-- A release of a name that no class waits for joins its monitor's requests. -/
def State.sendRel (s : State) (vmid : Nat) (store : Option Nat) (name : BitVec 128) : State :=
  { s.fresh with creqs := s.creqs ++ [{ id := s.nextId, vmid := vmid, store := store, cls := none, req := .rel name }] }

/-- A class whose context is discarded: it has ended, and what it had issued that writes or has reached a monitor is still performed; one
that waited for a walk is tried again (R14, R18, R112). -/
def Cls.leave (c : Cls) : Cls :=
  { c with status := if c.status = .live then .ended else c.status, splits := c.splits.map (fun _ => {}), bracket := none, v := [],
           locks := [], poisonV := [], endDue := c.endDue || c.status == .live,
           mem := (c.mem.filter Access.kept).map (fun a =>
             let a := a.residual
             if a.stage = .walking then { a with stage := .ready } else a) }

/-- The references of an engine operation that is given up are released. -/
def State.releaseHeld (s : State) (e : EngineOp) : State :=
  (e.held.filter (fun n => n != 0)).foldl (fun s n => s.sendRel e.vmid ((s.getCls e.cls).bind (fun c => c.cstore)) n) s

/-- The saved contexts that `p` selects are given up: their launches complete with ORPHAN, and their writes still perform. -/
def State.leaveSaved (s : State) (p : SavedCtx → Bool) : State :=
  let gone := s.saved.filter p
  let cs := gone.flatMap (fun x => x.classes)
  let s := ((cs.map (fun c => c.launch)) ++ (gone.flatMap (fun x => x.forms.map (fun f => f.launch)))).eraseDups.foldl State.orphanLaunch s
  (gone.flatMap (fun x => x.engines)).foldl State.releaseHeld
    { s with saved := s.saved.filter (fun x => !p x), others := s.others ++ (cs.map Cls.leave).filter (fun c => c.kind != .walker) }

/-- Discard every context held on a core, its shadow bank's too, as a machine check does: its classes end, its handlers and walker go,
its caches and TLB are empty, and each affected launch completes with ORPHAN (R455) once what it has issued is performed (R14). -/
def State.discardCore (s : State) (core : Nat) : State :=
  let ids := (s.allCls.filter (fun c => c.core == core && c.status != .ended)).map (fun c => c.id)
  let s := (s.launchesOn core).foldl State.orphanLaunch s
  let s := { s with hslots := s.hslots.filter (fun h => h.core != core), pending := s.pending.filter (fun p => p.core != core) }
  let s := ids.foldl State.closeCls s
  let s := s.mapCls (fun c => if c.core = core ∧ c.status ≠ .live then c.leave else c)
  let s := (s.engines.filter (fun e => e.core == core)).foldl State.releaseHeld s.settleEnding
  let s := (s.leaveSaved (fun x => x.core == core && x.shadow)).flushL1 (fun x => x.core == core)
  { s with seq := s.seq.filter (fun o => o.core != core), engines := s.engines.filter (fun o => o.core != core),
           misses := s.misses.filter (fun m => m.core != core), forms := s.forms.filter (fun f => f.core != core),
           runners := s.runners.filter (fun r => r.core != core), resident := s.resident.filter (fun h => h.1 != core),
           icache := s.icache.filter (fun x => x.1 != core),
           tlb := s.tlb.filter (fun e => match e.home with
             | .core c | .lockable c _ => c != core
             | .quad _ => true) }

/-- A core stops (R455): its contexts are discarded; stopped again within one second it stays out of service until the next
reset. One second is 4·10^9 ticks. -/
def State.haltCoreNow (s : State) (core : Nat) : State :=
  let again := match assoc s.coreStop core with
    | none => false
    | some t => decide (s.time < t + 4000000000)
  { s.discardCore core with
    coreOff := if s.coreOff.contains core then s.coreOff else core :: s.coreOff,
    coreDead := if again then core :: s.coreDead else s.coreDead,
    coreStop := assocSet s.coreStop core s.time }

/-- The unit and the die of a core as a record names them: the Bursar lies on the H-die (Tables 22-3, 22-4). -/
def corePlace (core : Nat) : Nat × Nat := if core < 256 then (core % 64, core / 64) else (0xD0, 8)

/-- A core stops for an event that would go below level 0, and a record is logged. -/
def State.stopCore (s : State) (core : Nat) (cause : Nat) (vmid : Option Nat) : State :=
  let at_ := corePlace core
  (s.haltCoreNow core).logErr { cause, sclass := 5, unit_ := at_.1, die := at_.2, core := if core < 256 then core else 0xFF, vmid }

/-! ### Taking an exception (R337–R343) -/

/-- Give an event to its level on its core: the raising handler's own level escalates it, and below level 0 the core stops
(R338, R343). -/
def State.post (s : State) (ev : Event) (level : Nat) (fromHandler : Bool) : State :=
  let t := s.route level ev.vmid ev.cause ev.stage2
  if fromHandler && t == level then
    if t = 0 then s.stopCore ev.core ev.cause.code (if ev.from_ = 0 then none else some ev.vmid)
    else { s with pending := s.pending ++ [⟨ev.core, t - 1, { ev with nested := true }⟩] }
  else { s with pending := s.pending ++ [⟨ev.core, t, ev⟩] }

/-- The windows of outstanding long-latency instructions move on by one group; finished ones go (R39). -/
def Cls.passPend (c : Cls) (l : List Pend) : List Pend :=
  (l.filter (fun p => c.mem.any (fun a => a.id == p.acc && !a.logged))).map (fun p => { p with left := p.left - 1 })

/-- What a meaning says of the event it raises. -/
structure Raise where
  cause  : Cause
  aux    : Nat := 0
  addr   : Nat := 0
  lane   : Nat := 0x7FFF
  write  : Bool := false
  stage2 : Bool := false
  mask   : Option Mask := none    -- the effective mask, when it is not the active mask
  deriving DecidableEq, Repr

/-- The event record's fields that come from the issuing split (Table 16-5). -/
def State.eventOf (s : State) (r : Raise) : Event :=
  { cause := r.cause, from_ := s.cls.level, cls := s.cls.id, split := s.iss.split, hasSplit := true, launch := s.cls.launch,
    form := s.cls.formno, core := s.cls.core, cslot := s.cls.slot, vmid := s.cls.vmid, asid := s.cls.asid,
    epc := pcWord s.iss.pc, resume := s.iss.pc, skipTo := s.next, words := s.iss.words,
    mask := r.mask.getD s.act, depth := s.depth, lane := r.lane, addr := BitVec.ofNat 64 r.addr, aux := BitVec.ofNat 64 r.aux,
    time := BitVec.ofNat 64 s.time, write := r.write, stage2 := r.stage2 }

/-- Take a precise exception: the group has no effect, the split is blocked at the group's first word until the handler
disposes of the event, and the event goes to the level that R338 gives (R200, R337). -/
def raise (r : Raise) (s : State) : State :=
  let ev := s.eventOf r
  (s.modCur (fun sp => { sp with state := .blocked .event, pc := s.iss.pc })).post ev s.cls.level (s.cls.kind == .handler)

/-- Raise a precise exception after the group's effect: the saved program counter is `next` (TRAP, R217; a single step,
R454). -/
def raiseAfter (r : Raise) (s : State) : State :=
  let ev := { s.eventOf r with epc := pcWord s.next, resume := s.next, skipTo := s.next }
  (s.modCur (fun sp => { sp with state := .blocked .event, pc := s.next, pend := s.cls.passPend sp.pend })).post ev s.cls.level
    (s.cls.kind == .handler)

/-- Raise a precise event for an instruction that its split has left behind (TWINFAIL of a guided drain, R294): the split is
blocked at that instruction; one at a join goes no further until the event is disposed of. -/
def raiseAt (cid split : Nat) (pc : Int) (words : List Word) (cause : Cause) (s : State) : State :=
  match s.getCls cid with
  | none => s
  | some c =>
    if !c.live then s
    else
      let sp := c.split split
      let ev : Event :=
        { cause := cause, from_ := c.level, cls := cid, split := split, hasSplit := true, launch := c.launch, form := c.formno,
          core := c.core, cslot := c.slot, vmid := c.vmid, asid := c.asid, epc := pcWord pc, resume := pc,
          skipTo := pc + 4 * (words.length : Int), words := words, mask := sp.mask, depth := sp.levels.length,
          time := BitVec.ofNat 64 s.time }
      let s := s.modCls cid (fun c => match sp.state with
        | .blocked .event | .joinParent _ | .joinChild => c.stop split
        | .ready | .blocked _ => c.modSplit split (fun sp => { sp with state := .blocked .event, pc := pc })
        | .free => c)
      s.post ev c.level (c.kind == .handler)

/-- Asynchronous events queued at a level on a core (R342). -/
def State.asyncUse (s : State) (core level : Nat) : Nat :=
  (s.pending.filter (fun p => p.core == core && p.level == level && p.ev.async)).length

/-- Room in the asynchronous queue of a level on a core: 64 entries (R342). -/
def State.asyncRoom (s : State) (core level : Nat) : Bool := decide (s.asyncUse core level < 64)

/-- Of two states before and after a completion: no queue has grown past 64 asynchronous events. -/
def State.fits (s s' : State) : Bool :=
  s'.pending.all (fun p => !p.ev.async || decide (s'.asyncUse p.core p.level ≤ max 64 (s.asyncUse p.core p.level)))

/-- What raises asynchronous events holds its completion while their queue is full (R342). -/
def State.orWait (s s' : State) : State := if s.fits s' then s' else s

/-- Deliver an asynchronous event of a class that lives or has ended (R337, R342): no split is blocked, the mask is zero, and
for a class that has ended and left its slot CSLOT is 0x1F (R386). -/
def raiseAsync (ev : Event) (level : Nat) (s : State) : State :=
  let alive : Bool := match s.getCls ev.cls with
    | none => false
    | some c => c.status != .ended
  let fromHandler := s.hslots.any (fun h => h.cls == ev.cls)
  s.post { ev with async := true, mask := 0, cslot := if alive then ev.cslot else 0x1F, time := BitVec.ofNat 64 s.time }
    level fromHandler

/-! ### Completing a group -/

/-- Single-stepping: STEP set by level 1 for the tenant, or by level 0 in normal mode for the partition (R454). -/
def State.stepping (s : State) : Bool :=
  let c := s.cls
  c.level != 0 &&
    ((!s.confidential && (s.word (.part c.vmid) 0x2A8).getLsbD 0)
      || (c.level == 2 && (s.word (.tenant c.vmid c.asid) 0x2A8).getLsbD 0))

/-- A group has completed: under single-stepping it then raises BREAK with AUX 0x800 and EPC = `next` (R454), and its split, at a join
or about to go on at `pc`, waits for the disposal. SKIP adds the group's length, as R344 does for every event but TRAP's (DEDUCED: log
entry 33). -/
def State.stepped (s : State) (pc : Int) : State :=
  let skip : Int := pc + 4 * (s.iss.words.length : Int)
  let ev := { s.eventOf { cause := .breakp, aux := 0x800 } with epc := pcWord s.next, resume := pc, skipTo := skip }
  if !s.stepping then s
  else
    match s.cur.state with
    | .ready | .joinChild | .joinParent _ =>
      State.post { s with cls := s.cls.stop s.iss.split } ev s.cls.level (s.cls.kind == .handler)
    | .blocked _ | .free => s

/-- The group completes and the split goes on at `pc`; its age starts again (R38). -/
def retireAt (pc : Int) (s : State) : State :=
  (s.modCur (fun sp => { sp with pc := pc, age := 0, pend := s.cls.passPend sp.pend })).stepped pc

/-- The group completes and the split goes on at the next group. -/
def retire (s : State) : State := retireAt s.next s

/-- A branch, BSPL or JOIN completes: it ends every lookahead window of its split (R39). -/
def branchTo (pc : Int) (s : State) : State :=
  (s.modCur (fun sp =>
    { sp with pc := pc, age := 0, pend := (s.cls.passPend sp.pend).map (fun p => { p with left := 0 }) })).stepped pc

/-- The group completes and the split waits, to go on at the next group (R34, R37); a single step's BREAK is then due (R454). -/
def blockOn (b : Block) (s : State) : State :=
  s.modCur (fun sp =>
    { sp with state := .blocked b, pc := s.next, age := 0, pend := s.cls.passPend sp.pend,
              owed := if s.stepping then some s.iss.words else none })

/-- The group waits, not completed: its split is blocked at the group's first word. -/
def waitOn (b : Block) (s : State) : State := s.modCur (fun sp => { sp with state := .blocked b, pc := s.iss.pc })

/-- Go on with a blocked group of a live class as its issuing split. -/
def resumeAs (cid split : Nat) (pc : Int) (words : List Word) (f : State → State) (s : State) : State :=
  match s.getCls cid with
  | none => s
  | some c =>
    if !c.live then s
    else
      let s := s.focus cid
      f { s with iss := { split := split, pc := pc, words := words },
                 cls := s.cls.modSplit split (fun sp => { sp with state := .ready, age := 0 }) }

/-- The group cannot issue yet: nothing changes, and the split is passed over until something else has moved (R37). -/
def hold (s : State) : State := s.modCur (fun sp => { sp with held := true })

end Sys2Proof.Machine
end

