-- ==== Sys2Proof/WellFormed.lean ====
section
/-!
DEFINITION. Which instructions are well formed: the static checks of 09_encoding.md Table 9-11, that is the prefix fields
an instruction accepts (R184–R186, Table 9-3), fields that must be zero, pairs that must be even, register runs, and
masks that name k0. What depends on the class (allocation, tiles, level, L, NJT) is checked when the instruction runs.
-/

namespace Sys2Proof

/-- The PFXP fields in use are accepted: `pred` for PRED and INV, `pol` for POL, `rbs` for RBS; invert needs a
predicate, and a scope is 0–5 (R186, Table 9-3). -/
def Pfx.ok (pred pol rbs : Bool) : Pfx → Bool
  | none => true
  | some q =>
    (pred || (q.pred == 0 && !q.inv)) && (!q.inv || q.pred != 0) && (pol || q.pol == 0) && (rbs || !q.rbs)
      && decide (q.scope.toNat < 6)

/-- The register begins a pair (R50). -/
def evenReg (r : Reg) : Bool := r.toNat % 2 == 0

/-- The register begins a quartet of scalar registers (R273, R287): a multiple of 4 from 4 to 124. -/
def quadReg (r : Reg) : Bool := r.toNat % 4 == 0 && r != 0

/-- The field names a k register: bits 6:3 are zero (R181). -/
def kField (r : Reg) : Bool := decide (r.toNat < 8)

/-- The field names a mask register that may be written: k1–k7 (R53). -/
def kDest (r : Reg) : Bool := kField r && r != 0

/-- Operand fields of a KOP function (R222). -/
def KopFn.fieldsOk : KopFn → Reg → Reg → Reg → Bool
  | .and, d, a, b | .or, d, a, b | .xor, d, a, b | .andn, d, a, b => kDest d && kField a && kField b
  | .not, d, a, b | .mov, d, a, b => kDest d && kField a && b == 0
  | .pop, _, a, b | .first, _, a, b | .last, _, a, b => kField a && b == 0
  | .fromv, d, _, b => kDest d && b == 0
  | .tov, _, a, b => kField a && b == 0
  | .clear, d, a, b | .fill, d, a, b => kDest d && a == 0 && b == 0

/-- A HALU function with one operand leaves rb unused (R244). -/
def HaluFn.unary : HaluFn → Bool
  | .neg2 | .abs2 => true
  | .add2 | .sub2 | .mul2 | .min2 | .max2 => false

/-- A CVT function that packs a pair reads rb (R246). -/
def CvtFn.pair : CvtFn → Bool
  | .f16x2 | .bf16x2 | .bf16x2Rz => true
  | .f32I32 | .f32N32 | .i32F32Rz | .i32F32Rne | .i32F32Rd | .i32F32Ru | .n32F32Rz | .n32F32Rne
  | .f16l | .f16h | .bf16l | .bf16h => false

/-- `true` when width .D names an even register pair. -/
def Width.regOk : Width → Reg → Bool
  | .d, r => evenReg r
  | .b, _ | .h, _ | .w, _ => true

/-- The static checks of Table 9-11 on one instruction. A device event has no encoding and nothing to check. -/
def Instr.wf : Instr → Bool
  | .nop | .endClass | .kend | .bra _ | .call _ | .ret | .switch _ _ | .bu _ _ _ | .bz _ _ | .bnz _ _
  | .bspl _ _ _ _ | .join | .allb | .alle | .wbase _ | .srd _ _ | .swr _ _ | .trap _ | .brk _ | .launch _ _ => true
  | .vote fn _ ra => (match fn with | .eq => true | .any | .all | .cnt => kField ra)
  | .shfl p _ _ _ _ _ => Pfx.ok false false true p
  | .kop p fn rd ra rb => Pfx.ok true false false p && fn.fieldsOk rd ra rb
  | .obRes _ _ | .obRel _ | .obSt _ _ _ | .obLd _ _ _ | .obStat _ _ | .matZero _ | .matStat _ _ => true
  | .matLoop _ ra _ | .matDrain _ ra _ => quadReg ra
  | .chkbLane _ _ _ | .chkbScalar _ _ _ | .tlkLock _ _ _ | .tlkUnlk _ => true
  | .pstd rs ra _ _ => evenReg rs && evenReg ra
  | .salu _ _ _ _ | .scmp _ _ _ _ | .saddi _ _ _ _ | .sandi _ _ _ _ | .sori _ _ _ _ | .sshi _ _ _ _ | .slui _ _
  | .smovv _ _ _ | .crd _ _ _ | .cwr _ _ _ | .tret | .tlbFill _ _ _ | .tlbInv _ _ _ | .tlbInva _ _
  | .tlbShoot _ _ _ | .tlbLook _ _ _ | .sealAdmit _ _ _ | .sealSeal _ _ _ | .sealUnseal _ _ | .ctxSave _ _ _
  | .ctxLoad _ _ _ | .ctxPark _ _ | .ctxResume _ _ | .rightsGrant _ _ _ | .rightsRevoke _ _ _
  | .rightsRoute _ _ _ => true
  | .pldd rd ra _ _ => evenReg rd && evenReg ra
  | .valu p _ _ _ _ | .valus p _ _ _ _ => Pfx.ok true false false p
  | .vmad p _ _ _ _ => Pfx.ok true false true p
  | .vcmp p _ kd _ _ | .vcmps p _ kd _ _ => Pfx.ok true false false p && kd != 0
  | .vun p fn _ ra => Pfx.ok true false false p && (fn != .lane || ra == 0)
  | .vsel p _ _ _ _ => Pfx.ok true false true p
  | .vaddi _ p _ _ _ => Pfx.ok true false false p
  | .vshi p _ _ _ _ => Pfx.ok true false false p
  | .vpack p _ _ _ _ => Pfx.ok true false true p
  | .falu p _ _ _ _ | .falus p _ _ _ _ | .ffma p _ _ _ _ _ => Pfx.ok true false false p
  | .fcmp p _ kd _ _ => Pfx.ok true false true p && kd != 0
  | .funit p _ _ _ => Pfx.ok true false false p
  | .halu p _ fn _ _ rb => Pfx.ok true false (!fn.unary) p && (!fn.unary || rb == 0)
  | .hfma p _ wide rd _ _ => Pfx.ok true false true p && (!wide || evenReg rd)
  | .cvt p fn _ _ rb => Pfx.ok true false fn.pair p && (fn.pair || rb == 0)
  | .cvt8Pack p _ _ _ _ _ _ => Pfx.ok true false true p
  | .cvt8Unpack p _ _ _ _ => Pfx.ok true false false p
  | .expd p kind _ _ _ rb =>
    Pfx.ok true false false p && (if kind = .lut then rb.toNat % 4 == 0 else rb == 0)
  | .redi _ _ _ | .redf _ _ _ => true
  | .ldl _ p wd rd _ _ _ | .stl _ p wd rd _ _ _ => Pfx.ok true true false p && wd.regOk rd
  | .ldi p wd rd _ _ _ | .sti p wd rd _ _ _ => Pfx.ok true true false p && wd.regOk rd
  | .sld _ p _ _ _ _ _ | .sst _ p _ _ _ _ _ => Pfx.ok false true false p
  | .lds _ p dbl rd _ _ _ | .sts _ p dbl rd _ _ _ => Pfx.ok true false false p && (!dbl || evenReg rd)
  | .ldaq _ p _ _ _ _ | .strl _ p _ _ _ _ => Pfx.ok true true false p
  | .aadd p _ _ _ _ | .amin p _ _ _ _ | .amax p _ _ _ _ | .aand p _ _ _ _ | .aor p _ _ _ _ | .axor p _ _ _ _
  | .axch p _ _ _ _ | .afadd p _ _ _ _ => Pfx.ok true false false p
  | .acas p rd _ _ _ => Pfx.ok true false false p && decide (rd.toNat < 127)
  | .mredW p _ _ rb _ | .mredF p _ _ rb _ => Pfx.ok true false false p && decide (rb.toNat < 127)
  | .mredD p _ _ rb _ => Pfx.ok true false false p && !evenReg rb && decide (rb.toNat < 126)
  | .rldsF p _ _ _ _ _ | .rldsI p _ _ _ _ => Pfx.ok true true false p
  | .fence scope _ => decide (scope.toNat < 6)
  | .wait p _ _ _ => Pfx.ok false false false p
  | .bari p _ _ | .barx p _ _ | .barz p _ | .barp p _ _ => Pfx.ok false false false p
  | .barv p _ _ | .barw p _ _ => Pfx.ok true false false p
  | .cpyGs rd _ _ | .cpySg rd _ _ | .cpyGob rd _ _ | .cpyGb rd _ _ | .cpySob rd _ _ | .cpyCas rd _ _
  | .cpyCag rd _ _ | .cpyGg rd _ _ => rd != 0 && decide (rd.toNat < 123)
  | .cpySca rd _ _ => rd != 0 && decide (rd.toNat < 123) && evenReg rd
  | .caLoa rd _ | .caNode rd _ => evenReg rd
  | .caRef ra | .caRel ra | .caStat _ ra => evenReg ra
  | .caGet rd _ => quadReg rd
  | .caSwap rd _ rb => evenReg rd && quadReg rb
  | .cld p _ ra _ _ => Pfx.ok true true false p && evenReg ra && decide (ra.toNat < 125)
  | .pref p _ _ _ => Pfx.ok false true false p
  | .loadValueReturn _ _ _ | .storePerformed _ _ _ | .monitorAtomic _ _ | .releaseQueueEntry _ _ _
  | .copyEngineStart _ | .copyEngineComplete _ | .matLoopRun _ _ | .matLoopComplete _ _ | .matDrainRun _ _
  | .twinRendezvous _ _ | .twinwaitExpiry _ _ | .runnerSpawn _ _ _ | .handlerEntry _ _ | .handlerTimeLimit _ _
  | .walkerStart _ | .logReplay _ _ | .faultQueueAppend _ | .fqdoneReplay _ _ | .fqdoneForward _ _ | .fqdoneKill _ _
  | .fqdoneAbort _ _ | .fqconsWrite _ _ | .dlconsWrite _ _ | .cadescInstall _ _ _ | .cadescFresh _ _ _
  | .queueEnable _ _ | .queueDisable _ _ _ | .takeLaunchPacket _ | .fencePacket _ _ | .fenceWordWrite _ _
  | .submitServiceRecord _ | .placeHouse _ _ _ | .formEnd _ | .launchComplete _ | .deadlineExpiry _
  | .energyWindowEnd _ _ | .bandwidthRefill | .bandwidthSet _ _ _ _ | .energyShareWrite _ _ | .rotationWrite _ _ _
  | .rotationPeriodBoundary _ | .sliceBoundary _ | .virtualTimeAdjust _ _ _ | .timerExpiry _ | .strictRetry _ _
  | .strictTimeout _ _ | .registrarAdmission | .unsealCompletion _ | .cpWrite _ | .cpRead _ | .cpCwrite _
  | .cpCread _ | .keysw _ | .oldKeyExpiry _ | .peerRequest _ | .peerTimeout _ _ | .replicaRequest _ _ _ _
  | .gatherResponse _ _ _ _ | .gatherTimeout _ _ | .getCertificate _ | .getMeasurements _ _ | .keyExchange _
  | .keyUpdate _ | .resetRequest _ | .powerOnReset | .keyRekey _ | .coreRestart _ | .errorSnapshot _ _
  | .measurementExtend _ _ | .memoryError _ | .patrolScrub _ _ | .thermalThrottle _ | .thermalTrip _
  | .instructionFetch _ _ | .monitorContentOperation _ | .copyEngineFault _ _ | .thermalRecovery _ => true

/-- The constructor stands for an instruction word of the table (and not for a device event). -/
def Instr.isEvent : Instr → Bool
  | .loadValueReturn _ _ _ | .storePerformed _ _ _ | .monitorAtomic _ _ | .releaseQueueEntry _ _ _
  | .copyEngineStart _ | .copyEngineComplete _ | .matLoopRun _ _ | .matLoopComplete _ _ | .matDrainRun _ _
  | .twinRendezvous _ _ | .twinwaitExpiry _ _ | .runnerSpawn _ _ _ | .handlerEntry _ _ | .handlerTimeLimit _ _
  | .walkerStart _ | .logReplay _ _ | .faultQueueAppend _ | .fqdoneReplay _ _ | .fqdoneForward _ _ | .fqdoneKill _ _
  | .fqdoneAbort _ _ | .fqconsWrite _ _ | .dlconsWrite _ _ | .cadescInstall _ _ _ | .cadescFresh _ _ _
  | .queueEnable _ _ | .queueDisable _ _ _ | .takeLaunchPacket _ | .fencePacket _ _ | .fenceWordWrite _ _
  | .submitServiceRecord _ | .placeHouse _ _ _ | .formEnd _ | .launchComplete _ | .deadlineExpiry _
  | .energyWindowEnd _ _ | .bandwidthRefill | .bandwidthSet _ _ _ _ | .energyShareWrite _ _ | .rotationWrite _ _ _
  | .rotationPeriodBoundary _ | .sliceBoundary _ | .virtualTimeAdjust _ _ _ | .timerExpiry _ | .strictRetry _ _
  | .strictTimeout _ _ | .registrarAdmission | .unsealCompletion _ | .cpWrite _ | .cpRead _ | .cpCwrite _
  | .cpCread _ | .keysw _ | .oldKeyExpiry _ | .peerRequest _ | .peerTimeout _ _ | .replicaRequest _ _ _ _
  | .gatherResponse _ _ _ _ | .gatherTimeout _ _ | .getCertificate _ | .getMeasurements _ _ | .keyExchange _
  | .keyUpdate _ | .resetRequest _ | .powerOnReset | .keyRekey _ | .coreRestart _ | .errorSnapshot _ _
  | .measurementExtend _ _ | .memoryError _ | .patrolScrub _ _ | .thermalThrottle _ | .thermalTrip _
  | .instructionFetch _ _ | .monitorContentOperation _ | .copyEngineFault _ _ | .thermalRecovery _ => true
  | _ => false

end Sys2Proof
end

