-- ==== Sys2Proof/Machine/Operands.lean ====
section
/-!
DEFINITION. Operand forms: the effective mask (R26), the registers each instruction reads and writes (Tables 9-4 to 9-9),
the allocation checks of decode step 5 (R193), effective addresses (R183, R254, R257, R260), and the class-wide check (R35).
-/

namespace Sys2Proof.Machine

/-! ### Masks -/

/-- The effective mask (R26): the active mask, limited by the PFXP predicate. -/
def State.eff (s : State) (p : Pfx) : Mask :=
  match p with
  | none => s.act
  | some x =>
    if x.pred = 0 then s.act
    else if x.inv then s.act &&& ~~~ (s.getK x.pred) else s.act &&& s.getK x.pred

/-- The mask whose bit i, below `lanes`, is `f i`. -/
def maskOf (lanes : Nat) (f : Nat → Bool) : Mask :=
  (List.range lanes).foldl (fun m i => if f i then m ||| (1 <<< i) else m) 0

/-- Number of lanes of a mask. -/
def laneCount (lanes : Nat) (m : Mask) : Nat := (lanesOf lanes m).length

def Pfxp.rbsOf (p : Pfx) : Bool :=
  match p with
  | none => false
  | some x => x.rbs

def Pfxp.polOf (p : Pfx) : Nat :=
  match p with
  | none => 0
  | some x => x.pol.toNat

/-- The scope of a PFXP, or the default of Table 6-2 (R118). -/
def Pfxp.scopeOf (p : Pfx) (dflt : Nat) : Nat :=
  match p with
  | none => dflt
  | some x => x.scope.toNat

/-- A lane operand that is v[rb], or s[rb] bits 31:0 in every lane (R186, R229). -/
def State.laneB (s : State) (scalar : Bool) (rb : Reg) (i : Nat) : Word :=
  if scalar then (s.getS rb).setWidth 32 else s.getV rb i

/-! ### Registers an instruction names -/

/-- A register named by an instruction. -/
inductive RegRef where
  | v (r : Reg)
  | s (r : Reg)
  | k (r : Reg3)
  | a (r : Reg3)
  deriving DecidableEq, Repr

def vPair (r : Reg) : List RegRef := [.v r, .v (r + 1)]
def sRun (r : Reg) (n : Nat) : List RegRef := (List.range n).map (fun i => .s (r + BitVec.ofNat 7 i))
def vRun (r : Reg) (n : Nat) : List RegRef := (List.range n).map (fun i => .v (r + BitVec.ofNat 7 i))
def vOf (wd : Width) (r : Reg) : List RegRef :=
  match wd with
  | .d => vPair r
  | .b | .h | .w => [.v r]
def vDbl (dbl : Bool) (r : Reg) : List RegRef := if dbl then vPair r else [.v r]
def bOf (scalar : Bool) (r : Reg) : RegRef := if scalar then .s r else .v r
def k3 (r : Reg) : Reg3 := r.setWidth 3

/-- The PFXP in front of an instruction, where it accepts one. -/
def instrPfx : Instr → Pfx
  | .shfl p .. | .kop p .. | .valu p .. | .valus p .. | .vmad p .. | .vcmp p .. | .vcmps p .. | .vun p .. | .vsel p ..
  | .vaddi _ p .. | .vshi p .. | .vpack p .. | .falu p .. | .falus p .. | .ffma p .. | .fcmp p .. | .funit p ..
  | .halu p .. | .hfma p .. | .cvt p .. | .cvt8Pack p .. | .cvt8Unpack p .. | .expd p .. | .ldl _ p .. | .stl _ p ..
  | .ldi p .. | .sti p .. | .sld _ p .. | .sst _ p .. | .lds _ p .. | .sts _ p .. | .ldaq _ p .. | .strl _ p ..
  | .aadd p .. | .amin p .. | .amax p .. | .aand p .. | .aor p .. | .axor p .. | .axch p .. | .acas p .. | .afadd p ..
  | .mredW p .. | .mredD p .. | .mredF p .. | .rldsF p .. | .rldsI p .. | .wait p .. | .bari p .. | .barv p ..
  | .barw p .. | .barx p .. | .barz p .. | .barp p .. | .cld p .. | .pref p .. => p
  | _ => none

/-- Registers an instruction reads, its predicate apart. -/
def instrReads : Instr → List RegRef
  | .ret => [.s 127]
  | .switch ra _ => [.v ra]
  | .bu k _ _ => [.k k]
  | .bz ra _ | .bnz ra _ => [.s ra]
  | .bspl _ k _ _ => [.k k]
  | .vote fn _ ra => match fn with
    | .any | .all | .cnt => [.k (k3 ra)]
    | .eq => [.v ra]
  | .shfl p _ _ _ ra rb => [.v ra, bOf (Pfxp.rbsOf p) rb]
  | .swr ra _ => [.s ra]
  | .launch _ ra => [.s ra]
  | .kop _ fn _ ra rb => match fn with
    | .and | .or | .xor | .andn => [.k (k3 ra), .k (k3 rb)]
    | .not | .mov | .pop | .first | .last | .tov => [.k (k3 ra)]
    | .fromv => [.v ra]
    | .clear | .fill => []
  | .obRes _ ra | .obRel ra | .obStat _ ra => [.s ra]
  | .obSt rd ra rb => [.v rd, .s ra, .s rb]
  | .obLd _ ra rb => [.s ra, .s rb]
  | .matLoop rd ra rb | .matDrain rd ra rb => .a rd :: .s rb :: sRun ra 4
  | .matStat _ ra => [.a ra]
  | .chkbLane _ ra rb => [.v ra, .s rb]
  | .chkbScalar _ ra rb => [.s ra, .s rb]
  | .tlkLock _ ra rb => [.s ra, .s rb]
  | .tlkUnlk ra => [.s ra]
  | .pstd rs ra _ _ => vPair rs ++ vPair ra
  | .salu _ _ ra rb | .scmp _ _ ra rb => [.s ra, .s rb]
  | .saddi _ _ ra _ | .sandi _ _ ra _ | .sori _ _ ra _ => [.s ra]
  | .sshi _ _ ra _ => [.s ra]
  | .smovv _ ra _ => [.v ra]
  | .cwr ra _ _ => [.s ra]
  | .tlbFill rd ra rb => [.s rd, .s ra, .s rb]
  | .tlbInv _ ra rb | .tlbShoot _ ra rb | .tlbLook _ ra rb => [.s ra, .s rb]
  | .tlbInva _ rb => [.s rb]
  | .sealAdmit _ ra rb | .sealSeal _ ra rb => [.s ra, .s rb]
  | .sealUnseal _ ra => [.s ra]
  | .ctxSave _ ra rb | .ctxLoad _ ra rb => [.s ra, .s rb]
  | .ctxPark _ ra | .ctxResume _ ra => [.s ra]
  | .rightsGrant _ ra rb | .rightsRevoke _ ra rb | .rightsRoute _ ra rb => [.s ra, .s rb]
  | .pldd _ ra _ _ => vPair ra
  | .valu _ _ _ ra rb => [.v ra, .v rb]
  | .valus _ _ _ ra rb => [.v ra, .s rb]
  | .vmad p _ rd ra rb => [.v rd, .v ra, bOf (Pfxp.rbsOf p) rb]
  | .vcmp _ _ _ ra rb => [.v ra, .v rb]
  | .vcmps _ _ _ ra rb => [.v ra, .s rb]
  | .vun _ fn _ ra => match fn with
    | .bcst => [.s ra]
    | .lane => []
    | .mov | .not | .neg | .abs | .clz | .popc | .brev | .sextb | .sexth | .zextb | .zexth => [.v ra]
  | .vsel p _ ra rb k => [.v ra, bOf (Pfxp.rbsOf p) rb, .k k]
  | .vaddi _ _ _ ra _ => [.v ra]
  | .vshi _ _ _ ra _ => [.v ra]
  | .vpack p fn rd ra rb => match fn with
    | .hlo | .hhi => [.v ra, bOf (Pfxp.rbsOf p) rb]
    | .blo | .bhi => [.v rd, .v ra, bOf (Pfxp.rbsOf p) rb]
  | .falu _ _ _ ra rb => [.v ra, .v rb]
  | .falus _ _ _ ra rb => [.v ra, .s rb]
  | .ffma _ _ sc rd ra rb => [.v rd, .v ra, bOf sc rb]
  | .fcmp p _ _ ra rb => [.v ra, bOf (Pfxp.rbsOf p) rb]
  | .funit _ _ _ ra => [.v ra]
  | .halu p _ fn _ ra rb => if fn.unary then [.v ra] else [.v ra, bOf (Pfxp.rbsOf p) rb]
  | .hfma p _ wide rd ra rb => [.v ra, bOf (Pfxp.rbsOf p) rb] ++ vDbl wide rd
  | .cvt p fn _ ra rb => if fn.pair then [.v ra, bOf (Pfxp.rbsOf p) rb] else [.v ra]
  | .cvt8Pack p _ _ _ rd ra rb => [.v rd, .v ra, bOf (Pfxp.rbsOf p) rb]
  | .cvt8Unpack _ _ _ _ ra => [.v ra]
  | .expd _ kind _ _ ra rb => match kind with
    | .lut => .v ra :: vRun rb 4
    | .int4 | .nat4 | .e2m1 | .e3m2 | .e2m3 => [.v ra]
  | .redi _ _ ra | .redf _ _ ra => [.v ra]
  | .ldl _ _ _ _ ra _ _ => [.s ra]
  | .stl _ _ wd rs ra _ _ => .s ra :: vOf wd rs
  | .ldi _ _ _ ra rb _ => [.s ra, .v rb]
  | .sti _ wd rs ra rb _ => .s ra :: .v rb :: vOf wd rs
  | .sld _ _ _ _ ra _ _ => [.s ra]
  | .sst _ _ _ rs ra _ _ => [.s rs, .s ra]
  | .lds _ _ _ _ ra _ _ => [.v ra]
  | .sts _ _ dbl rs ra _ _ => .v ra :: vDbl dbl rs
  | .ldaq _ _ _ ra _ _ => [.s ra]
  | .strl _ _ rs ra _ _ => [.v rs, .s ra]
  | .aadd _ rd ra rb _ | .amin _ rd ra rb _ | .amax _ rd ra rb _ | .aand _ rd ra rb _ | .aor _ rd ra rb _
  | .axor _ rd ra rb _ | .axch _ rd ra rb _ | .afadd _ rd ra rb _ => [.v rd, .s ra, .v rb]
  | .acas _ rd ra rb _ => [.v rd, .v (rd + 1), .s ra, .v rb]
  | .mredW _ _ ra rb _ | .mredF _ _ ra rb _ => [.s ra, .v rb, .v (rb + 1)]
  | .mredD _ _ ra rb _ => [.s ra, .v rb, .v (rb + 1), .v (rb + 2)]
  | .rldsF _ _ _ ra _ _ | .rldsI _ _ ra _ _ => [.s ra]
  | .wait _ _ ra rb => [.s ra, .s rb]
  | .bari _ ra rb | .barv _ ra rb | .barw _ ra rb | .barx _ ra rb => [.s ra, .s rb]
  | .barz _ ra => [.s ra]
  | .barp _ _ ra => [.s ra]
  | .cpyGs rd ra rb | .cpySg rd ra rb | .cpyGob rd ra rb | .cpyGb rd ra rb | .cpySob rd ra rb | .cpyCas rd ra rb
  | .cpyCag rd ra rb | .cpySca rd ra rb | .cpyGg rd ra rb => [.s (rd + 5), .s ra, .s rb]
  | .caLoa _ ra | .caNode _ ra | .caGet _ ra => [.s ra]
  | .caRef ra | .caRel ra | .caStat _ ra => sRun ra 2
  | .caSwap rd ra rb => sRun rd 2 ++ [.s ra] ++ sRun rb 4
  | .cld _ _ ra rb _ => sRun ra 3 ++ [.v rb]
  | .pref _ _ ra _ => [.s ra]
  | _ => []

/-- Registers of which the instruction reads as many as a record in memory or a width in a register says: CPY's coordinates, of which
those at or above RANK are not read (R300), and the second register of a CLD of width 8 (R275). -/
def instrMay : Instr → List RegRef
  | .cpyGs rd _ _ | .cpySg rd _ _ | .cpyGob rd _ _ | .cpyGb rd _ _ | .cpySob rd _ _ | .cpyCas rd _ _ | .cpyCag rd _ _
  | .cpySca rd _ _ | .cpyGg rd _ _ => sRun rd 5
  | .cld _ rd _ _ _ => if rd.getLsbD 0 then [] else [.v (rd + 1)]
  | _ => []

/-- Registers an instruction writes. -/
def instrWrites : Instr → List RegRef
  | .call _ => [.s 127]
  | .vote _ rd _ | .srd rd _ | .launch rd _ | .obRes rd _ | .obStat rd _ | .matStat rd _ | .tlkLock rd _ _
  | .salu _ rd _ _ | .scmp _ rd _ _ | .saddi _ rd _ _ | .sandi _ rd _ _ | .sori _ rd _ _ | .sshi _ rd _ _ | .slui rd _
  | .smovv rd _ _ | .crd rd _ _ | .tlbFill rd _ _ | .tlbInv rd _ _ | .tlbInva rd _ | .tlbShoot rd _ _ | .tlbLook rd _ _
  | .sealAdmit rd _ _ | .sealSeal rd _ _ | .sealUnseal rd _ | .ctxSave rd _ _ | .ctxLoad rd _ _ | .ctxPark rd _
  | .ctxResume rd _ | .rightsGrant rd _ _ | .rightsRevoke rd _ _ | .rightsRoute rd _ _ | .redi _ rd _ | .redf _ rd _
  | .sld _ _ _ rd _ _ _ | .barp _ rd _ | .caStat rd _ | .chkbScalar rd _ _ => [.s rd]
  | .shfl _ _ _ rd _ _ | .chkbLane rd _ _ => [.v rd]
  | .kop _ fn rd _ _ => match fn with
    | .and | .or | .xor | .andn | .not | .mov | .fromv | .clear | .fill => [.k (k3 rd)]
    | .pop | .first | .last => [.s rd]
    | .tov => [.v rd]
  | .obLd rd _ _ => [.v rd]
  | .pldd rd _ _ _ => vPair rd
  | .valu _ _ rd _ _ | .valus _ _ rd _ _ | .vmad _ _ rd _ _ | .vun _ _ rd _ | .vsel _ rd _ _ _ | .vaddi _ _ rd _ _
  | .vshi _ _ rd _ _ | .vpack _ _ rd _ _ | .falu _ _ rd _ _ | .falus _ _ rd _ _ | .ffma _ _ _ rd _ _ | .funit _ _ rd _
  | .halu _ _ _ rd _ _ | .cvt _ _ rd _ _ | .cvt8Pack _ _ _ _ rd _ _ | .cvt8Unpack _ _ _ rd _ | .expd _ _ _ rd _ _ =>
    [.v rd]
  | .vcmp _ _ kd _ _ | .vcmps _ _ kd _ _ | .fcmp _ _ kd _ _ => [.k kd]
  | .hfma _ _ wide rd _ _ => vDbl wide rd
  | .ldl _ _ wd rd _ _ _ | .ldi _ wd rd _ _ _ => vOf wd rd
  | .lds _ _ dbl rd _ _ _ => vDbl dbl rd
  | .ldaq _ _ rd _ _ _ | .rldsF _ _ rd _ _ _ | .rldsI _ rd _ _ _ | .cld _ rd _ _ _ => [.v rd]
  | .aadd _ rd _ _ _ | .amin _ rd _ _ _ | .amax _ rd _ _ _ | .aand _ rd _ _ _ | .aor _ rd _ _ _ | .axor _ rd _ _ _
  | .axch _ rd _ _ _ | .acas _ rd _ _ _ | .afadd _ rd _ _ _ => [.v rd]
  | .cpySca rd _ _ => sRun rd 4
  | .caLoa rd _ | .caNode rd _ => sRun rd 2
  | .caGet rd _ => sRun rd 4
  | .caSwap rd _ _ => sRun rd 2
  | .matZero rd => [.a rd]
  | _ => []

/-- The predicate register an instruction reads, if any. -/
def instrPred (i : Instr) : List RegRef :=
  match instrPfx i with
  | none => []
  | some x => if x.pred = 0 then [] else [.k x.pred]

/-- Decode step 5, the part that depends on the class (R193): every lane register named lies in the allocation and every
tile below t. -/
def RegRef.allocated (c : Cls) : RegRef → Bool
  | .v r => c.inAlloc r
  | .s _ | .k _ => true
  | .a r => decide (r.toNat < c.ntiles)

/-- An error mark on a register (R453). -/
def RegRef.marked (c : Cls) : RegRef → Bool
  | .v r => c.poisonV.contains (0, c.phys r)
  | .s r => c.poisonV.contains (1, r.toNat)
  | .k r => r != 0 && c.poisonV.contains (2, r.toNat)
  | .a r => (c.tiles.getD r.toNat {}).poison

/-- A register that an outstanding memory instruction still writes (R39, R379). -/
def RegRef.pending (c : Cls) : RegRef → Bool
  | .v r => c.mem.any (fun a => a.dest.contains (c.phys r))
  | .s r => r != 0 && c.mem.any (fun a => a.sdest == some r)
  | .k _ | .a _ => false

/-- The instruction is subject to the mask: with an empty effective mask it does nothing but issue (R28). Those that execute once
for their split, whatever the mask, are the scalar pipe's, SLD, SST, WAIT, PREF, CA, BARI, BARX, BARZ and BARP. -/
def masked : Instr → Bool
  | .kop .. | .valu .. | .valus .. | .vmad .. | .vcmp .. | .vcmps .. | .vun .. | .vsel .. | .vaddi .. | .vshi .. | .vpack ..
  | .falu .. | .falus .. | .ffma .. | .fcmp .. | .funit .. | .halu .. | .hfma .. | .cvt .. | .cvt8Pack .. | .cvt8Unpack ..
  | .expd .. | .ldl .. | .stl .. | .ldi .. | .sti .. | .lds .. | .sts .. | .ldaq .. | .strl .. | .aadd .. | .amin .. | .amax ..
  | .aand .. | .aor .. | .axor .. | .axch .. | .acas .. | .afadd .. | .mredW .. | .mredD .. | .mredF .. | .rldsF .. | .rldsI ..
  | .barv .. | .barw .. | .cld .. | .chkbLane .. | .pldd .. | .pstd .. => true
  | _ => false

/-- Decode step 6 (R193): the operand values that SWR, SMOVV and SWITCH check. -/
def valuesOk (i : Instr) (s : State) : Bool :=
  match i with
  | .swr _ ix => ix == 0x00A
  | .smovv _ _ lane => decide (lane.toNat < s.cls.lanes)
  | .switch _ table => decide (table.toNat < s.cls.njt)
  | _ => true

/-- The registers the instruction names lie in the allocation (decode step 5), and the values it checks at decode are good
(step 6). -/
def operandsOk (i : Instr) (s : State) : Bool :=
  (instrReads i ++ instrWrites i).all (RegRef.allocated s.cls) && valuesOk i s

/-- A register that it reads, or its predicate, carries an error mark. An instruction subject to the mask raises nothing while its
effective mask is empty (R28). -/
def readsMarked (i : Instr) (s : State) : Bool :=
  (instrPred i ++ instrReads i).any (RegRef.marked s.cls) && !(masked i && s.eff (instrPfx i) = 0)

/-- ILLOP of decode steps 5 and 6 (R48, R55, R193), then ECC for a marked source (R453), then the instruction itself. -/
def guarded (i : Instr) (body : State → State) (s : State) : State :=
  if !operandsOk i s then raise { cause := .illop } s
  else if readsMarked i s then raise { cause := .ecc, mask := some (s.eff (instrPfx i)) } s
  else body s

/-- A scalar register that a MAT.STAT still waiting at the sequencer will write (R293). -/
def State.statDue (s : State) : RegRef → Bool
  | .s r => r != 0 && s.seq.any (fun o => o.cls == s.cls.id && (match o.kind with
    | .stat _ rd => rd == r
    | .zero _ | .loop _ _ _ | .drain _ _ _ => false))
  | .v _ | .k _ | .a _ => false

/-- An instruction waits while a register it names is still being written (R39, R228, R293, R379). -/
def interlocked (i : Instr) (s : State) : Bool :=
  (instrPred i ++ instrReads i ++ instrWrites i ++ instrMay i).any (fun r => RegRef.pending s.cls r || s.statDue r)

/-- A class-wide instruction needs split depth 0 and an effective mask equal to the live mask (R35). -/
def classWide (body : State → State) (s : State) : State :=
  if s.depth ≠ 0 ∨ s.act ≠ s.cls.liveM then raise { cause := .illstate } s else body s

/-! ### Effective addresses: exact integers (R95) -/

/-- The low 32 bits of an L or M offset: imm25 ‖ off7 under PFXI (R185). -/
def off32 (x : Imx) (off : BitVec 7) : BitVec 32 :=
  match x with
  | none => off.signExtend 32
  | some h => h ++ off

/-- The byte offset of an L or M word whose offset is signed (R183). -/
def offS (x : Imx) (off : BitVec 7) (n : Nat) : Int := (off32 x off).toInt * n

/-- The byte offset of LDS and STS, whose offset is unsigned (R183). -/
def offU (x : Imx) (off : BitVec 7) (n : Nat) : Nat :=
  match x with
  | none => off.toNat * n
  | some h => (h ++ off : BitVec 32).toNat * n

/-- An I-format immediate: imm11, or imm25 ‖ imm11, sign-extended (R185). -/
def imm64 (x : Imx) (imm : BitVec 11) : DWord :=
  match x with
  | none => imm.signExtend 64
  | some h => (h ++ imm : BitVec 36).signExtend 64

def Width.bytes : Width → Nat
  | .b => 1
  | .h => 2
  | .w => 4
  | .d => 8

/-- s[ra] + n·i + off (Table 12-3). -/
def State.eaL (s : State) (ra : Reg) (n : Nat) (off : Int) (i : Nat) : Int := (s.getS ra).toNat + (n * i : Nat) + off

/-- s[ra] + (zext(v[rb][i]) << log2 n) (Table 12-3, R260). -/
def State.eaX (s : State) (ra rb : Reg) (n : Nat) (i : Nat) : Int := (s.getS ra).toNat + ((s.getV rb i).toNat * n : Nat)

end Sys2Proof.Machine
end

