-- ==== Sys2Proof/Machine/Flags.lean ====
section
/-!
DEFINITION. The values and flags of the integer functions, for lanes (w = 32) and scalars (w = 64) alike (R223, R224, R232 to
R239), and the way a lane instruction delivers its results and sets CSTAT (R62, R78, R229).
-/

namespace Sys2Proof.Machine

abbrev Out := Host.Outcome State Fault Refusal

/-- A signed sum or product clamped to w bits; SAT when it clamps (R66). -/
def clampS (w : Nat) (x : Int) : Fl (BitVec w) :=
  let hi : Int := 2 ^ (w - 1) - 1
  let lo : Int := -2 ^ (w - 1)
  if x < lo then ⟨BitVec.ofInt w lo, fSAT⟩ else if hi < x then ⟨BitVec.ofInt w hi, fSAT⟩ else ⟨BitVec.ofInt w x, 0⟩

/-- Bits 2w−1:w of the signed product. -/
def mulHi {w : Nat} (a b : BitVec w) : BitVec w := BitVec.ofInt w ((a.toInt * b.toInt) / 2 ^ w)

/-- Bits 2w−1:w of the unsigned product. -/
def mulHiN {w : Nat} (a b : BitVec w) : BitVec w := BitVec.ofNat w ((a.toNat * b.toNat) / 2 ^ w)

/-- SALU, VALU, VALUS (R223, R232): shifts take the amount modulo the width. -/
def alu {w : Nat} (fn : AluFn) (a b : BitVec w) : Fl (BitVec w) :=
  match fn with
  | .add => ⟨a + b, 0⟩
  | .sub => ⟨a - b, 0⟩
  | .mul => ⟨a * b, 0⟩
  | .mulh => ⟨mulHi a b, 0⟩
  | .mulhn => ⟨mulHiN a b, 0⟩
  | .and => ⟨a &&& b, 0⟩
  | .or => ⟨a ||| b, 0⟩
  | .xor => ⟨a ^^^ b, 0⟩
  | .shl => ⟨a <<< (b.toNat % w), 0⟩
  | .shr => ⟨a >>> (b.toNat % w), 0⟩
  | .sra => ⟨a.sshiftRight (b.toNat % w), 0⟩
  | .min => ⟨if a.slt b then a else b, 0⟩
  | .max => ⟨if a.slt b then b else a, 0⟩
  | .minn => ⟨if a.ult b then a else b, 0⟩
  | .maxn => ⟨if a.ult b then b else a, 0⟩
  | .adds => clampS w (a.toInt + b.toInt)

/-- SCMP, VCMP, VCMPS (R224, R234). -/
def cmp {w : Nat} (fn : CmpFn) (a b : BitVec w) : Bool :=
  match fn with
  | .eq => a == b
  | .ne => a != b
  | .lt => a.slt b
  | .le => !b.slt a
  | .gt => b.slt a
  | .ge => !a.slt b
  | .ltn => a.ult b
  | .len => !b.ult a
  | .gtn => b.ult a
  | .gen => !a.ult b

/-- SSHI, VSHI (R226, R238). -/
def shiftK {w : Nat} (k : ShiftKind) (a : BitVec w) (n : Nat) : BitVec w :=
  match k with
  | .shl => a <<< n
  | .shr => a >>> n
  | .sra => a.sshiftRight n

/-- VMAD (R233). -/
def mad (fn : MadFn) (a b c : Word) : Fl Word :=
  match fn with
  | .mad => ⟨a * b + c, 0⟩
  | .madh => ⟨mulHi a b + c, 0⟩
  | .madhn => ⟨mulHiN a b + c, 0⟩
  | .mads => clampS 32 (a.toInt * b.toInt + c.toInt)

/-- Leading zero bits of the low n bits of x. -/
def clz : Nat → Nat → Nat
  | 0, _ => 0
  | n + 1, x => if x.testBit n then 0 else 1 + clz n x

/-- VUN of a lane value; BCST and LANE take theirs elsewhere (R235). -/
def vunary (fn : VunFn) (a : Word) : Word :=
  match fn with
  | .mov | .bcst | .lane => a
  | .not => ~~~a
  | .neg => -a
  | .abs => if a.slt 0 then -a else a
  | .clz => BitVec.ofNat 32 (clz 32 a.toNat)
  | .popc => BitVec.ofNat 32 (popcount 32 a.toNat)
  | .brev => a.reverse
  | .sextb => (a.setWidth 8).signExtend 32
  | .sexth => (a.setWidth 16).signExtend 32
  | .zextb => (a.setWidth 8).setWidth 32
  | .zexth => (a.setWidth 16).setWidth 32

/-- VPACK (R239): d is the old v[rd]. -/
def vpack (fn : PackFn) (a b d : Word) : Word :=
  match fn with
  | .hlo => b.extractLsb' 0 16 ++ a.extractLsb' 0 16
  | .hhi => b.extractLsb' 16 16 ++ a.extractLsb' 16 16
  | .blo => d.extractLsb' 16 16 ++ b.extractLsb' 0 8 ++ a.extractLsb' 0 8
  | .bhi => b.extractLsb' 0 8 ++ a.extractLsb' 0 8 ++ d.extractLsb' 0 16

/-! ### How a lane instruction delivers its results (R229) -/

/-- The flags of the lanes of a mask, combined by OR (R78). -/
def flagsOver (lanes : Nat) (eff : Mask) (f : Nat → Word) : Word :=
  (lanesOf lanes eff).foldl (fun acc i => acc ||| f i) 0

/-- A lane instruction with one destination: flags of the effective lanes, values in the effective lanes, and on to the next
group. Every source is read before the destination is written. -/
def laneOp (p : Pfx) (rd : Reg) (f : Nat → Fl Word) (s : State) : State :=
  let eff := s.eff p
  retire ((s.orFlags (flagsOver s.cls.lanes eff (fun i => (f i).flags))).setV rd eff (fun i => (f i).val))

/-- A compare: the bits of the effective lanes, every other bit cleared (R54, R234). -/
def laneCmp (p : Pfx) (kd : Reg3) (f : Nat → Fl Bool) (s : State) : State :=
  let eff := s.eff p
  retire ((s.orFlags (flagsOver s.cls.lanes eff (fun i => (f i).flags))).setK kd eff
    (maskOf s.cls.lanes (fun i => (f i).val)))

/-- A scalar instruction with one destination. -/
def scalarOp (rd : Reg) (r : Fl DWord) (s : State) : State := retire ((s.orFlags r.flags).setS rd r.val)

end Sys2Proof.Machine
end

