-- ==== Sys2Proof/Machine/Access.lean ====
section
/-!
DEFINITION. Memory instructions of a class: the checks of R97 in their two phases, the operand log (R377–R381), and the
performance of each lane's access (R106–R119, R254–R262).
-/

namespace Sys2Proof.Machine

/-! ### What an operation needs -/

def AccOp.size : AccOp → Nat
  | .load n | .loadScalar n | .store n | .storeScalar n | .loadScratch n | .storeScratch n | .mred n _ => n
  | .loadAcquire | .storeRelease _ | .atomic _ | .mredF _ | .rlds _ _ => 4
  | .cld _ _ w => w
  | .physLoad | .physStore => 8
  | .tlk _ => 1
  | .launch | .copy _ => 128
  | .slotGet | .slotSwap _ _ => 32

def AccOp.need : AccOp → Need
  | .load _ | .loadScalar _ | .loadAcquire | .loadScratch _ | .rlds _ _ | .cld _ _ _ | .physLoad | .tlk _ | .launch
  | .copy _ | .slotGet => .r
  | .store _ | .storeScalar _ | .storeRelease _ | .storeScratch _ | .physStore | .slotSwap _ _ => .w
  | .atomic _ | .mred _ _ | .mredF _ => .rw

/-- Synchronising accesses (R121, R135, R274). -/
def AccOp.sync : AccOp → Bool
  | .loadAcquire | .storeRelease _ | .atomic _ | .mred _ _ | .mredF _ | .slotGet | .slotSwap _ _ => true
  | .load _ | .loadScalar _ | .store _ | .storeScalar _ | .loadScratch _ | .storeScratch _ | .rlds _ _ | .cld _ _ _
  | .physLoad | .physStore | .tlk _ | .launch | .copy _ => false

/-- Reads bytes, and so consumes an error mark (R453). -/
def AccOp.readsBytes : AccOp → Bool
  | .store _ | .storeScalar _ | .storeRelease _ | .storeScratch _ | .physStore | .tlk _ => false
  | .load _ | .loadScalar _ | .loadAcquire | .loadScratch _ | .atomic _ | .mred _ _ | .mredF _ | .rlds _ _ | .cld _ _ _
  | .physLoad | .launch | .copy _ | .slotGet | .slotSwap _ _ => true

/-- Counts in SOC: stores and posted reductions (R61). -/
def AccOp.counts : AccOp → Bool
  | .store _ | .storeScalar _ | .storeRelease _ | .storeScratch _ | .physStore | .mred _ _ | .mredF _ => true
  | .load _ | .loadScalar _ | .loadAcquire | .loadScratch _ | .atomic _ | .rlds _ _ | .cld _ _ _ | .physLoad | .tlk _
  | .launch | .copy _ | .slotGet | .slotSwap _ _ => false

/-- Returning atomics: they count in SOC while they are held in the log (R379). -/
def AccOp.isAtomic : AccOp → Bool
  | .atomic _ => true
  | _ => false

/-- Performed at a monitor (R111, R149). -/
def AccOp.atMonitor : AccOp → Bool
  | .atomic _ | .mred _ _ | .mredF _ | .slotGet | .slotSwap _ _ => true
  | _ => false

/-- A load the copy window serves (R63). -/
def AccOp.plainLoad : AccOp → Bool
  | .load _ | .loadScalar _ | .loadAcquire | .launch | .copy _ => true
  | .store _ | .storeScalar _ | .storeRelease _ | .loadScratch _ | .storeScratch _ | .atomic _ | .mred _ _ | .mredF _
  | .rlds _ _ | .cld _ _ _ | .physLoad | .physStore | .tlk _ | .slotGet | .slotSwap _ _ => false

/-- Read at the home slice and never from L1: acquires, physical loads, and what monitors perform (R111, R258, R352). -/
def AccOp.atHome (op : AccOp) : Bool :=
  op.atMonitor || (match op with
    | .loadAcquire | .physLoad => true
    | _ => false)

/-- Fault-queue KIND (Table 18-2). -/
def AccOp.kind : AccOp → Nat
  | .load _ | .loadAcquire | .physLoad | .loadScratch _ => 0
  | .store _ | .storeRelease _ | .physStore | .storeScratch _ => 1
  | .atomic _ => 2
  | .mred _ _ | .mredF _ => 3
  | .loadScalar _ | .storeScalar _ | .launch | .copy _ | .slotGet | .slotSwap _ _ => 4
  | .tlk _ => 6
  | .cld _ _ _ | .rlds _ _ => 7

/-- Access kind of a RACE record (Table 16-6). -/
def AccOp.raceKind : AccOp → Nat
  | .store _ | .storeScalar _ | .storeRelease _ | .storeScratch _ | .physStore => 1
  | .atomic _ | .mred _ _ | .mredF _ | .slotSwap _ _ => 2
  | .load _ | .loadScalar _ | .loadAcquire | .loadScratch _ | .rlds _ _ | .cld _ _ _ | .physLoad | .tlk _ | .launch
  | .copy _ | .slotGet => 0

/-- The partition's valid replica set that holds a guest physical address: its number, SETID, the offset within it and its
count of replicas (R435, Table 20-1). -/
def State.replicaSet (s : State) (vmid ga : Nat) : Option (Nat × Nat × Nat × Nat) :=
  (List.range 16).findSome? (fun i =>
    let ctl := (s.word (.part vmid) 0x261 i).toNat
    let b := (s.word (.part vmid) 0x262 i).toNat
    let base := bits b 47 21 * 2 ^ 21
    let size := (bits b 7 0 + 1) * 2 ^ 21
    if bit ctl 63 ∧ base ≤ ga ∧ ga < base + size then some (i, bits ctl 44 29, ga - base, bits ctl 62 45 + 1) else none)

/-! ### The copy window (R63) -/

def windowBase : Nat := 0x01FFFF0000000000

/-- The bytes of the copies that a class may read: its launch's record and region table, or its handler's table. -/
def State.copies (s : State) (c : Cls) : List (Nat × List Byte) :=
  match c.kind with
  | .handler => (s.hslots.filter (fun h => h.cls == c.id)).map (fun h => (h.tabAt, h.table.flatMap (fun w => toBytes 8 w.toNat)))
  | .launch =>
    (s.launches.filter (fun l => l.no == c.launch)).flatMap (fun l =>
      [(l.recAt, toBytes 128 l.shape.toNat), (l.tabAt, l.table.flatMap (fun w => toBytes 8 w.toNat))])
  | .walker | .bursar => []

/-- n bytes of the class's own copies, if the access lies wholly in one. -/
def State.copyBytes (s : State) (c : Cls) (va n : Nat) : Option (List Byte) :=
  (s.copies c).findSome? (fun p =>
    if p.1 ≤ va ∧ va + n ≤ p.1 + p.2.length then some ((p.2.drop (va - p.1)).take n) else none)

/-! ### The areas of content stores (R140, R142, Table 7-1) -/

def descNb (d : BitVec 512) : Nat := bits d.toNat 185 180
def descLines (d : BitVec 512) : Nat := bits d.toNat 159 128
def descDbase (d : BitVec 512) : Nat := bits d.toNat 127 64
def descIbase (d : BitVec 512) : Nat := bits d.toNat 63 0

/-- A place in the areas: in the index from 0, in the data from 2^45. -/
def CStore.place (st : CStore) (va : Nat) : Option Nat :=
  let i := descIbase st.desc
  let d := descDbase st.desc
  if st.desc = 0 then none
  else if i ≤ va ∧ va < i + 512 * 2 ^ descNb st.desc then some (va - i)
  else if d ≤ va ∧ va < d + 128 * descLines st.desc then some (2 ^ 45 + (va - d)) else none

/-- The lines of a store as one number. -/
def CStore.code (st : CStore) : Nat :=
  st.lines.foldl (fun n l =>
    n * 2 ^ 1200 + (ofBytes l.data + l.hash * 2 ^ 1024 + l.ord * 2 ^ 1144 + l.ref * 2 ^ 1152 + b2n l.node * 2 ^ 1184
      + (match l.state with
        | .live => 1
        | .dying => 2
        | .permanent => 3) * 2 ^ 1185)) 1

/-- The place in a store's areas that a physical address has under the store's own translation. -/
def State.placeAt (s : State) (st : CStore) (pa : Nat) : Option Nat :=
  let page (base i : Nat) : Option Nat :=
    match s.walk st.vmid st.asid (base + 4096 * i) .none with
    | .error _ => none
    | .ok p =>
      let at_ := p.pa + (base + 4096 * i) % p.size
      if at_ ≤ pa ∧ pa < at_ + 4096 then st.place (base + 4096 * i + (pa - at_)) else none
  if st.desc = 0 then none
  else
    ((List.range (2 ^ descNb st.desc / 8)).findSome? (page (descIbase st.desc))).orElse (fun _ =>
      (List.range (cdiv (descLines st.desc) 32)).findSome? (page (descDbase st.desc)))

/-- A byte of a content page as any reader in whose tables the page stands reads it (R143, R429): of a store's areas, as its lines lie
there; none where the page is in no store's. R143 does not say what a load through another ASID's or partition's mapping of the area's
frame reads: it reads what the owner's own load does (DESIGN CHOICE, log entry 12). -/
def State.areaByte (s : State) (vmid asid va pa : Nat) : Option Byte :=
  s.stores.findSome? (fun st =>
    let own := if st.vmid = vmid ∧ st.asid = asid then st.place va else none
    (own.orElse (fun _ => s.placeAt st pa)).map (fun n => Config.contentLayout st.code n))

/-! ### Looking up a translation (R362, R308) -/

/-- The entry a lookup on a core finds: L1 and lockable entries first, then the quad's L2. An entry of a private page serves
its owner only (R108). -/
def State.tlbFind (s : State) (core vmid asid va : Nat) : Option TlbEntry :=
  let hit (e : TlbEntry) : Bool :=
    !e.stale && e.vmid == vmid && e.asid == asid && decide (e.va ≤ va ∧ va < e.va + e.size)
      && (attrShared e.attr || attrBits e.attr 63 56 == core)
  match s.tlb.find? (fun e => hit e && (match e.home with
      | .core c => c == core
      | .lockable c _ => c == core
      | .quad _ => false)) with
  | some e => some e
  | none => s.tlb.find? (fun e => hit e && e.home == TlbHome.quad (core / 4))

/-- A full TLB gives up one of the entries that `among` selects, which one the hardware chooses. -/
def State.roomTlb (s : State) (size : Nat) (among : TlbEntry → Bool) : State :=
  let mine := s.tlb.filter among
  if mine.length < size then s
  else
    match mine[Config.choice s.free % mine.length]? with
    | none => s
    | some e => { s.usedChoice with tlb := s.tlb.erase e }

/-- Enter an entry in a core's L1 TLB: 64 entries (R362). -/
def State.enterCoreTlb (s : State) (core : Nat) (e : TlbEntry) : State :=
  let s := s.roomTlb 64 (fun x => x.home == TlbHome.core core)
  { s with tlb := { e with home := .core core } :: s.tlb }

/-- Enter an entry in a quad's L2 TLB: 512 sets of 8 ways (R362). -/
def State.enterQuadTlb (s : State) (quad : Nat) (e : TlbEntry) : State :=
  let set (x : TlbEntry) : Nat := Config.tlbSet (x.va / 4096) % 512
  let s := s.roomTlb 8 (fun x => x.home == TlbHome.quad quad && set x == set e)
  { s with tlb := { e with home := .quad quad } :: s.tlb }

/-- An L2 hit is copied into the core's L1 TLB. -/
def State.touchTlb (s : State) (core vmid asid va : Nat) : State :=
  match s.tlbFind core vmid asid va with
  | none => s
  | some e =>
    match e.home with
    | .quad _ => s.enterCoreTlb core e
    | .core _ | .lockable _ _ => s

/-- What the second phase finds for one lane: `now` is an event that takes no log entry, a consumed error mark (R453) or an access that
may not reach a content page (R161). -/
inductive LaneCheck where
  | ok (l : LaneReq)
  | miss (dmiss : Bool)
  | bad (f : FaultInfo)
  | now (f : FaultInfo)
  deriving DecidableEq, Repr

/-- The page of a lane through the TLB, before any check of what it allows. -/
def State.laneEntry (s : State) (c : Cls) (va : Nat) : Except Bool TlbEntry :=
  match c.locks.find? (fun l => match l with
      | none => false
      | some k => decide (k.page ≤ va ∧ va < k.page + k.size)) with
  | some (some k) =>
    if k.stale then .error true
    else
      match s.tlbFind c.core c.vmid c.asid va with
      | none => .error true
      | some e => .ok e
  | _ =>
    match s.tlbFind c.core c.vmid c.asid va with
    | none => .error false
    | some e => .ok e

/-- An operation whose conflicts with recorded writes are looked for (R132, R136). -/
def AccOp.raceChecked (op : AccOp) : Bool :=
  match op with
  | .tlk _ | .rlds _ _ => false
  | _ => op.translated

/-- A page whose stores strict mode holds, and whose accesses it may refuse (R131). -/
def LaneReq.ordinary (l : LaneReq) : Bool :=
  attrShared l.attr && !attrChk l.attr && !attrCA l.attr && !l.unc && !l.win && !l.peer && l.page.size != 0

/-- A read of the lane's place may take the copy in its core's L1 (R105, R106, R131, R258). -/
def State.fromL1 (s : State) (l : LaneReq) (pol : Nat) (home : Bool) : Bool :=
  l.l1ok && pol != 1 && !home && !(l.ordinary && (s.pinAt l.pa).isSome)

/-- The error mark of the copy of a sector that a lane's read is served from (R453), as `readSector` serves it. -/
def State.sectorMark (s : State) (c : Cls) (l : LaneReq) (pol : Nat) (home : Bool) : Bool :=
  if c.level = 0 then s.markAt .unit l.pa
  else
    match s.l1find c.core c.vmid l.pa with
    | some x => if s.fromL1 l pol home || x.dirty then x.mark else s.homeMark c.vmid (c.core / 64) l
    | none => s.homeMark c.vmid (c.core / 64) l

/-- A lane's access would read an error mark. -/
def State.laneMark (s : State) (c : Cls) (op : AccOp) (pol : Nat) (l : LaneReq) : Bool :=
  op.readsBytes && !l.win && !l.peer
    && (List.range ((op.size + 31) / 32)).any (fun i => s.sectorMark c { l with pa := l.pa + 32 * i } pol op.atHome)

/-- The race that a lane's access to a CHK page makes with a recorded write (R136). -/
def State.laneRace (s : State) (c : Cls) (op : AccOp) (l : LaneReq) : Option FaultInfo :=
  if attrChk l.attr && op.raceChecked && !l.win && !l.peer && c.level != 0 then
    (s.raceIn c.tag op.sync l.pa op.size).map (fun r =>
      { cause := .race, write := op.need.writes, addr := l.ea.toNat / 32 * 32 + (r.1 - sector l.pa), lane := l.lane,
        aux := r.2 + op.raceKind * 2 ^ 24 })
  else none

/-- Translation, permission, error marks and race detection for one lane (R97 phase 2, R134, R136, R161, R254, R374, R453). No page that
level 0 reaches is a REPL page (R353). -/
def State.checkLane (s : State) (c : Cls) (op : AccOp) (l : LaneReq) (pol : Nat := 0) : LaneCheck :=
  let va := l.ea.toNat
  let need := op.need
  let flt (cause : Cause) : FaultInfo := { cause := cause, write := need.writes, addr := va, lane := l.lane }
  if windowBase ≤ va ∧ op.translated then
    (if op.plainLoad && (s.copyBytes c va op.size).isSome then .ok { l with pa := va, win := true } else .bad (flt .prot))
  else if c.level = 0 then
    let l := { l with pa := va, key := s.pkey, unc := true }
    match op with
    | .rlds _ _ => .bad (flt .prot)
    | _ =>
      if need.writes && s.sealed va || s.inRecords va op.size then .bad (flt .prot)
      else if s.laneMark c op pol l then .now (flt .ecc)
      else .ok l
  else
    match s.laneEntry c va with
    | .error true => .bad (flt .xlock)
    | .error false => .miss false
    | .ok e =>
      let a := e.attr.toNat
      let pa := e.pa + (va - e.va)
      let ga := e.ga + (va - e.va)
      let l := { l with attr := e.attr, page := { va := e.va, ga := e.ga, pa := e.pa, size := e.size } }
      if !need.granted a then .miss false
      else if attrCA e.attr && (need.writes || op == .slotGet) then .now (flt .prot)
      else if need.writes && !bit a 7 then .miss true
      else
        match op with
        | .rlds _ _ =>
          if !attrRepl e.attr || (s.replicaSet c.vmid ga).isNone then .bad (flt .prot) else .ok { l with pa := ga, key := e.key }
        | _ =>
          if (s.peerWindow c.vmid ga).isSome then .ok { l with pa := ga, peer := true, unc := true }
          else if need.writes && e.sw || s.inRecords pa op.size then .bad (flt .prot)
          else
            let l := { l with pa := pa, key := e.key, unc := (e.xpart && !attrCA e.attr) || attrClevel e.attr == 2 }
            if s.laneMark c op pol l then .now (flt .ecc)
            else
              match s.laneRace c op l with
              | some f => .bad f
              | none => .ok l

/-! ### Phase 1: ADDR, then ALIGN (R95–R97) -/

/-- The first failing check of phase 1 for a virtual address. Level 0 reaches physical addresses, and in the copy window its handler's
table (R341, R352). -/
def addrFault (level : Nat) (n align : Nat) (ea : Int) : Option Cause :=
  let top : Int := if level = 0 ∧ ea < windowBase then 2 ^ 48 else 2 ^ 57
  if ea < 0 ∨ top < ea + n then some .addr else if ea % (align : Int) ≠ 0 then some .align else none

/-- The lowest-numbered lane that fails phase 1, with its cause and address. -/
def firstFault (lanes : List LaneReq) (f : LaneReq → Option Cause) : Option (LaneReq × Cause) :=
  lanes.findSome? (fun l => (f l).map (fun c => (l, c)))

/-- The address field of an event for an exact effective address: its low 64 bits. -/
def eaField (ea : Int) : Nat := (BitVec.ofInt 64 ea).toNat

/-! ### The operand log -/

/-- Bytes an entry takes in the core's log store (R377). -/
def Access.logBytes (a : Access) : Nat := 64 + popcount 32 (summary a.mask).toNat * 32 * a.perLane

def State.logStore (s : State) (core : Nat) : Nat :=
  ((s.allCls.filter (fun c => c.core == core)).map (fun c => ((c.mem.filter Access.logged).map Access.logBytes).sum)).sum

/-- The lowest free entry of a class's log. -/
def Cls.freeLogix (c : Cls) : Option Nat :=
  (List.range 8).find? (fun i => !c.mem.any (fun a => a.logged && a.logix == some i))

/-- Room for one more entry: eight for the class, 256 KiB for the core, and 32 residual entries of a core (R377, R378, R386). -/
def State.logRoom (s : State) (c : Cls) (a : Access) : Bool :=
  a.logix.isSome || (c.freeLogix.isSome && decide (s.logStore c.core + a.logBytes ≤ 256 * 1024)
    && (c.status != .ended || decide (s.residuals c.core < 32)))

/-- An instruction takes an entry of its class's log; a returning atomic counts in SOC from then on (R377, R379). -/
def Access.intoLog (c : Cls) (stage : Stage) (a : Access) : Access :=
  { a with stage := stage, counts := a.counts || a.op.isAtomic, logix := a.logix.orElse (fun _ => c.freeLogix) }

/-- Queue a fault-queue entry to be appended (R382, R383). -/
def State.queueFault (s : State) (q : QueueId) (o : FaultOwner) : State :=
  { s with queue := s.queue ++ [{ q := q, owner := o, entry := 0 }] }

/-- AUX of a fault as an event record gives it: a size, or the kind and tag of a RACE (Table 16-6). -/
def eventAux (f : FaultInfo) : Nat :=
  match f.cause with
  | .race | .addr | .align | .scratch => f.aux
  | _ => 0

/-- The event of an instruction that its split has left behind (Tables 16-5, 16-6). -/
def Access.event (a : Access) (c : Cls) (f : FaultInfo) (time : Nat) : Event :=
  { cause := f.cause, from_ := c.level, cls := c.id, split := a.split, hasSplit := true, acc := some a.id, launch := c.launch,
    form := c.formno, core := c.core, cslot := c.slot, vmid := c.vmid, asid := c.asid, epc := pcWord a.pc, resume := a.pc,
    skipTo := a.pc + 4 * (a.words.length : Int), words := a.words, mask := a.mask, depth := (c.split a.split).levels.length,
    lane := f.lane, addr := BitVec.ofNat 64 f.addr, aux := BitVec.ofNat 64 (eventAux f),
    time := BitVec.ofNat 64 time, write := f.write, stage2 := f.stage2 }

/-- Change an access and stop the split that issued it. -/
def Cls.stopAcc (c : Cls) (acc split : Nat) (f : Access → Access) : Cls := (c.modAcc acc f).stop split

/-- A precise event of an instruction in flight that takes no log entry: the instruction stands stopped, its split is blocked, and
RESUME reissues it (R131, R161, R453). -/
def State.stopAccess (s : State) (cid acc : Nat) (f : FaultInfo) : State :=
  match s.getCls cid with
  | none => s
  | some c =>
    match c.mem.find? (fun a => a.id == acc) with
    | none => s
    | some a =>
      (s.modCls cid (fun c => c.stopAcc acc a.split (fun a => { a with stage := .stopped, fault := some f }))).post
        (a.event c f s.time) c.level (c.kind == .handler)

/-- The fault of a logged instruction goes to a level's handler as a precise event (R381, R385). -/
def State.forwardTo (s : State) (c : Cls) (a : Access) (f : FaultInfo) (level : Nat) (nested : Bool) : State :=
  let s' := s.modCls c.id (fun c => c.stopAcc a.id a.split (fun a => { a.intoLog c (.delivered 2 none) with fault := some f }))
  { s' with pending := s'.pending ++ [⟨c.core, level, { a.event c f s.time with nested := nested }⟩] }

/-- A fault of a logged instruction goes to the level R338 gives: a fault-queue entry for levels 0 and 1, and for a class
that has ended; a precise event for level 2 (R381). A handler's own level is passed by, and below level 0 the core stops (R343). -/
def State.deliverFault (s : State) (cid acc : Nat) (f : FaultInfo) : State :=
  match s.getCls cid with
  | none => s
  | some c =>
    match c.mem.find? (fun a => a.id == acc) with
    | none => s
    | some a =>
      let t := s.route c.level c.vmid f.cause f.stage2
      let own := c.kind == .handler && t == c.level
      if own && t == 0 then s.stopCore c.core f.cause.code none
      else
        let t := if own then t - 1 else if t = 2 ∧ !c.live then 1 else t
        if t ≤ 1 then
          (s.modCls cid (fun c => c.modAcc acc (fun a => { a.intoLog c (.delivered t none) with fault := some f }))).queueFault
            (if t = 0 then none else some c.vmid) (.access cid acc)
        else s.forwardTo c a f 2 false

/-! ### Miss slots (R363) -/

/-- The core whose walker serves an engine's misses: the lowest enabled core of the quad, else of the die, else of the
package (R362). -/
def State.coreEnabled (s : State) (c : Nat) : Bool :=
  match s.enabled with
  | none => decide (c < Config.cores)
  | some l => l.contains c

def State.walkerOf (s : State) (quad : Nat) : Nat :=
  let pick (l : List Nat) : Option Nat := l.find? (fun c => s.coreEnabled c)
  ((pick ((List.range 4).map (fun i => 4 * quad + i))).orElse (fun _ =>
    (pick ((List.range 64).map (fun i => quad / 16 * 64 + i))).orElse (fun _ => pick (List.range Config.cores)))).getD 0

/-- The slot is occupied: one that was emptied at a slice end is kept to the end of the walker's run only for its fill's BUSY (R365). -/
def MissSlot.occupied (m : MissSlot) : Bool := !m.waiters.isEmpty || m.engine.isSome

/-- Take or join a miss slot of a core: none when all 32 are taken. -/
def State.takeSlot (s : State) (core vmid asid va : Nat) (write fetch dmiss : Bool) (engine : Option Nat)
    (who : Nat × Nat × Nat) : Option State :=
  let page := va / 4096 * 4096
  match s.misses.find? (fun m => m.core == core && m.vmid == vmid && m.asid == asid && m.page == page && m.write == write
      && m.fetch == fetch && m.dmiss == dmiss && m.engine == engine && m.occupied) with
  | some m =>
    some { s with misses := s.misses.map (fun x =>
      if x.core = core ∧ x.ix = m.ix then { x with waiters := x.waiters ++ [who] } else x) }
  | none =>
    match (List.range 32).find? (fun i => !s.misses.any (fun m => m.core == core && m.ix == i)) with
    | none => none
    | some i =>
      let slot : MissSlot :=
        { core := core, ix := i, vmid := vmid, asid := asid, page := page, ea := va, write := write, fetch := fetch,
          dmiss := dmiss, engine := engine, who := core, waiters := [who] }
      some { s with misses := s.misses ++ [slot] }

/-- Slots for every lane that missed; lanes that find none miss again at the replay. None when not one finds a slot. -/
def State.takeSlots (s : State) (c : Cls) (acc : Nat) (write : Bool) (l : List (LaneReq × Bool)) : Option State :=
  let r := l.foldl (fun (r : State × Bool) p =>
    match r.1.takeSlot c.core c.vmid c.asid p.1.ea.toNat write false p.2 none (c.id, acc, p.1.lane) with
    | none => r
    | some s' => (s', true)) (s, false)
  if r.2 then some r.1 else none

/-! ### Issuing and replaying -/

/-- Phase 2 for every lane: the lanes translated, those that missed, and the lowest-numbered lane's fault; `now` says that it takes
no log entry. -/
structure Phase2 where
  lanes  : List LaneReq
  missed : List (LaneReq × Bool)
  fault  : Option FaultInfo
  now    : Bool := false
  deriving DecidableEq, Repr

def State.phase2 (s : State) (c : Cls) (op : AccOp) (lanes : List LaneReq) (pol : Nat := 0) : Phase2 :=
  lanes.foldr (fun l r =>
    if l.done then { r with lanes := l :: r.lanes }
    else
      match s.checkLane c op l pol with
      | .ok l' => { r with lanes := l' :: r.lanes }
      | .miss d => { r with lanes := l :: r.lanes, missed := (l, d) :: r.missed }
      | .bad f => { r with lanes := l :: r.lanes, fault := some f, now := false }
      | .now f => { r with lanes := l :: r.lanes, fault := some f, now := true }) { lanes := [], missed := [], fault := none }

/-- The lanes' pages are touched: an L2 hit enters the L1 TLB (R362). -/
def State.touchAll (s : State) (c : Cls) (lanes : List LaneReq) : State :=
  if c.level = 0 then s else lanes.foldl (fun s l => s.touchTlb c.core c.vmid c.asid l.ea.toNat) s

/-- An acquire load of the class is not yet bound, or an entry of its log is ready for its replay: no later memory instruction
issues (R119, R380). -/
def Cls.pipeHeld (c : Cls) : Bool :=
  c.mem.any (fun a => a.stage == .ready || (match a.op with
    | .loadAcquire => a.scope != 0
    | _ => false))

/-- Two places lie in one 4 KiB page, by their virtual or, as far as translated, their physical addresses. -/
def LaneReq.samePage (x y : LaneReq) : Bool :=
  x.ea / 4096 == y.ea / 4096
    || (x.page.size != 0 && y.page.size != 0 && x.peer == y.peer && x.pa / 4096 == y.pa / 4096)

/-- A memory instruction of the class must wait (R116, R119): the pipe is held, or an earlier instruction to the same 4 KiB page is
in the operand log. -/
def Cls.mustWait (c : Cls) (lanes : List LaneReq) : Bool :=
  c.pipeHeld || c.mem.any (fun a => a.logged && a.op.translated && a.lanes.any (fun x => lanes.any (fun l => x.samePage l)))

/-- Enter a memory instruction in its class, in program order, and go on to the next group; its window opens when it can be
waited for (R39). -/
def enter (a : Access) (la : Nat) (waits : Bool) (s : State) : State :=
  let s := { s with cls := { s.cls with mem := s.cls.mem ++ [a] } }
  let s := retire s
  if waits then s.modCur (fun sp => { sp with pend := sp.pend ++ [⟨a.id, la⟩] }) else s

/-- The windows that a load, a returning atomic, CLD or RLDS opens; a store or MRED completes as it enters the store buffer or
is sent, and LAUNCH holds only those who read its status (R39, R220). -/
def AccOp.waited (op : AccOp) : Bool :=
  match op with
  | .launch => false
  | _ => !op.counts

/-- Issue a memory instruction that has passed phase 1 (R97 phase 2, R377–R381): performed from the fabric, held in the log, or an
event at once. `enterF` enters the instruction in its class, with whether it may be waited for. -/
def issueWith (enterF : Access → Bool → State → State) (a : Access) (s : State) : State :=
  let c := s.cls
  let p := s.phase2 c a.op a.lanes a.pol
  if c.mustWait p.lanes then hold s
  else if a.counts && decide (65535 ≤ c.soc) then hold s
  else
    let a := { a with id := s.nextId }
    let logged := { a.intoLog c .walking with lanes := p.lanes }
    if !p.missed.isEmpty then
      if !s.logRoom c a then hold s
      else
        match s.takeSlots c a.id a.op.need.writes p.missed with
        | none => hold s
        | some s => enterF logged false s.fresh
    else
      match p.fault with
      | some f =>
        if p.now then raise { cause := f.cause, addr := f.addr, lane := f.lane, write := f.write, mask := some a.mask } s
        else if !s.logRoom c a then hold s
        else (enterF { logged with stage := .delivered 1 none } false s.fresh).deliverFault c.id a.id f
      | none => enterF { a with lanes := p.lanes } a.op.waited (s.touchAll c a.lanes).fresh

/-- Issue one whose split goes on at the next group. -/
def issueAccess (a : Access) (la : Nat) (s : State) : State := issueWith (fun a waits s => enter a la waits s) a s

/-- Issue one whose split waits until it has been performed: the split is blocked at the group's first word (R274, R303). -/
def issueHeld (block : Nat → Block) (a : Access) (s : State) : State :=
  issueWith (fun a _ s => waitOn (block a.id) { s with cls := { s.cls with mem := s.cls.mem ++ [a] } }) a s

/-- Start of an access of the issuing group. -/
def State.access (s : State) (p : Pfx) (op : AccOp) (lanes : List LaneReq) : Access :=
  { id := s.nextId, split := s.iss.split, pc := s.iss.pc, words := s.iss.words, mask := s.eff p, op := op, lanes := lanes,
    pol := Pfxp.polOf p, counts := op.counts, sync := op.sync, sent := s.time,
    gen := s.genOf s.cls }

/-- Lane requests at the effective addresses of the active lanes. -/
def State.laneReqs (s : State) (eff : Mask) (ea : Nat → Int) (data : Nat → Nat) : List LaneReq :=
  (lanesOf s.cls.lanes eff).map (fun i => { lane := i, ea := ea i, data := data i })

/-- Phase 1 for virtual addresses, then issue; with no active lane the group does nothing (R251, R28). -/
def memAccess (a : Access) (align la : Nat) (s : State) : State :=
  match firstFault a.lanes (fun l => addrFault s.cls.level a.op.size align l.ea) with
  | some (l, cause) =>
    raise { cause := cause, addr := eaField l.ea, lane := l.lane, aux := a.op.size, write := a.op.need.writes,
            mask := some a.mask } s
  | none => if a.lanes.isEmpty then retire s else issueAccess a la s

/-! ### Performing -/

/-- The bytes an access of one lane touches. -/
def Access.span (a : Access) (l : LaneReq) : Int × Int := (l.ea, l.ea + a.op.size)

def overlaps (x y : Int × Int) : Bool := decide (x.1 < y.2 ∧ y.1 < x.2)

/-- Whether two operations address the same space. -/
def AccOp.space (op : AccOp) : Nat :=
  match op with
  | .loadScratch _ | .storeScratch _ => 1
  | .cld _ _ _ => 2
  | _ => 0

/-- Two lanes reach a common byte: by their physical addresses when both are translated, else by their virtual ones (R116). -/
def LaneReq.meets (x : LaneReq) (n : Nat) (y : LaneReq) (m : Nat) : Bool :=
  overlaps (x.ea, x.ea + n) (y.ea, y.ea + m)
    || (x.page.size != 0 && y.page.size != 0 && x.peer == y.peer && decide (x.pa < y.pa + m ∧ y.pa < x.pa + n))

/-- A store or posted reduction saved at a slice end before it was performed, not yet performed since (R129). -/
def Access.owed (a : Access) : Bool :=
  a.halted && a.op.counts && (match a.stage with
    | .ready | .fabric | .retry _ => true
    | .walking | .delivered _ _ | .stopped => false)

/-- No earlier instruction of the class still has an access to the same bytes (R116, R123), and no store saved at a slice end waits to
be reissued before a new one (R129). -/
def Cls.mayPerform (c : Cls) (a : Access) (l : LaneReq) : Bool :=
  (c.mem.takeWhile (fun b => b.id != a.id)).all (fun b =>
    (b.op.space != a.op.space || b.lanes.all (fun m => m.done || !m.meets b.op.size l a.op.size))
      && !(a.op.counts && b.owed))

/-- The memory a physical access reaches does not exist. -/
def noMemoryAt (l : LaneReq) (n : Nat) : Bool := !l.win && !l.peer && decide (Config.memLimit < l.pa + n)

/-- A peer access goes out on its window's link, and the answer comes back: its value, or nothing when the remote device
refuses it (R433, R434). What a remote device answers is a free value. -/
def State.peerAccess (s : State) (c : Cls) (l : LaneReq) (n : Nat) (kind : PeerKind) : Option Nat × State :=
  s.peerAsk c.vmid l.pa n kind

/-- The virtual address of a translated place. -/
def LaneReq.vaOf (l : LaneReq) : Nat := l.page.va + (l.pa - l.page.pa)

/-- Read n bytes, all in one sector, for one lane at its place: the copy window, a content area, memory for level 0, a pinned line,
the L1, or the home (R63, R105, R106, R131, R140, R258, R352). A dirty sector of the core is written back before its home is read
(DEDUCED: log entry 65). -/
def State.readSector (s : State) (c : Cls) (l : LaneReq) (n pol : Nat) (home : Bool) : List Byte × State :=
  let pinned := l.ordinary && (s.pinAt l.pa).isSome
  let area (i : Nat) : Option Byte := s.areaByte c.vmid c.asid (l.vaOf + i) (l.pa + i)
  if l.win then ((s.copyBytes c l.pa n).getD [], s)
  else if c.level = 0 then (s.physRead .unit (s.keyId l.key) l.pa n, s)
  else if attrCA l.attr && (area 0).isSome then ((List.range n).map (fun i => (area i).getD 0), s)
  else if s.fromL1 l pol home then
    let s := if (s.l1find c.core c.vmid l.pa).isSome then s else s.fillL1 c.core c.vmid c.asid l pol
    (match s.l1find c.core c.vmid l.pa with
      | none => []
      | some x => (x.bytes.drop (l.pa % 32)).take n, s)
  else
    let mine (x : L1Sector) : Bool := x.at_ c.core c.vmid l.pa
    let s := if pinned then s.flushL1 mine else s.cleanL1 mine
    let (bs, s) := s.readHome c.vmid (c.core / 64) l n
    (if pinned then bs.zipIdx.map (fun p => s.overPin (l.pa + p.2) p.1) else bs, s)

/-- Read n bytes for one lane, sector by sector: a naturally aligned access lies in one sector or covers whole ones. -/
def State.readLane (s : State) (c : Cls) (l : LaneReq) (n pol : Nat) (home : Bool) : List Byte × State :=
  (List.range ((n + 31) / 32)).foldl (fun (r : List Byte × State) i =>
    let (bs, s) := r.2.readSector c { l with pa := l.pa + 32 * i } (min 32 (n - 32 * i)) pol home
    (r.1 ++ bs, s)) ([], s)

/-- A write at the home or a monitor: bytes that a pin still holds there are performed first (R115, R128, R131). -/
def State.writeHome (s : State) (c : Cls) (l : LaneReq) (bs : List Byte) : State :=
  let s := if c.level = 0 then s else s.settlePin l.pa bs.length
  s.physWrite (l.via c.level c.vmid) l.key { attrLine l.attr with wb := attrWb l.attr && !l.unc && c.level != 0 } l.pa bs

/-- Store one lane's bytes at its place (R106, R108, R131, R255, R352). `scope` is that of the release the store itself is, else 0;
`whole`: the instruction has now rewritten the sector, which clears the error mark of every copy that it reached (R453). -/
def State.writeLane (s : State) (c : Cls) (l : LaneReq) (pol scope : Nat) (whole : Bool) (bs : List Byte) : State :=
  let mine (x : L1Sector) : Bool := x.at_ c.core c.vmid l.pa
  let cleared (s : State) : State :=
    if whole then s.clearMarks (l.via c.level c.vmid) (attrWb l.attr && !l.unc && c.level != 0) (sector l.pa) 32 else s
  if c.level = 0 then cleared ((s.flushL1 (fun x => x.core == c.core && x.pa == sector l.pa)).writeHome c l bs)
  else if !attrShared l.attr && l.l1ok && pol != 1 then s.storeL1 c.core c.vmid c.asid l whole bs
  else if s.strict c.core && l.ordinary && decide (scope < 4) then (s.flushL1 mine).pinStore c l scope bs
  else
    let s := cleared ((s.cleanL1 mine).writeHome c l bs)
    if pol = 1 then s.dropL1 c.core c.vmid l.pa bs.length
    else s.modL1 mine (fun x => { x with bytes := putBytes x.bytes (l.pa % 32) bs, mark := x.mark && !whole })

/-- Record a write of n bytes on a CHK page (R135). -/
def State.recordLane (s : State) (c : Cls) (l : LaneReq) (n : Nat) (sync : Bool) (count : Nat) : State :=
  if attrChk l.attr && !l.peer && c.level != 0 then s.recordRange c.tag sync count l.pa n else s

/-- The new word of an atomic or reduction (R260, R262). -/
def atomNew (f : AtomFn) (old data cmp : Nat) : Nat :=
  let o : Word := BitVec.ofNat 32 old
  let d : Word := BitVec.ofNat 32 data
  (match f with
    | .add => o + d
    | .min => (alu .min o d).val
    | .max => (alu .max o d).val
    | .and => o &&& d
    | .or => o ||| d
    | .xor => o ^^^ d
    | .xch => d
    | .cas => if o = d then BitVec.ofNat 32 cmp else o
    | .fadd => (F32.add (f32 o) (f32 d)).word.val).toNat

def mredNew (n : Nat) (f : RedFn) (old data : Nat) : Nat :=
  let w := 8 * n
  let o := BitVec.ofNat w old
  let d := BitVec.ofNat w data
  (match f with
    | .add => o + d
    | .min => (alu .min o d).val
    | .max => (alu .max o d).val
    | .minn => (alu .minn o d).val
    | .maxn => (alu .maxn o d).val
    | .and => o &&& d
    | .or => o ||| d
    | .xor => o ^^^ d).toNat

def mredFNew (f : RedfFn) (old data : Nat) : Nat :=
  match f with
  | .add => (F32.add (F32.decode old) (F32.decode data)).val
  | .min => (F32.minMax false false old data).val
  | .max => (F32.minMax true false old data).val

/-- Write a value of n bytes to one lane of the destination bound at issue (R49, R50). -/
def Cls.deliver (c : Cls) (dest : List Nat) (i v : Nat) : Cls :=
  (dest.zipIdx).foldl (fun c p => c.setP p.1 (1 <<< i) (fun _ => BitVec.ofNat 32 (v / 2 ^ (32 * p.2)))) c

/-- Mark one lane of an access done. -/
def Access.finishLane (a : Access) (i : Nat) : Access :=
  { a with lanes := a.lanes.map (fun l => if l.lane = i then { l with done := true } else l) }

def Access.complete (a : Access) : Bool := a.lanes.all (fun l => l.done)

/-! ### Bandwidth (R422, R423) -/

/-- The request still waits to be performed. -/
def State.bwLive (s : State) (w : BwWait) : Bool :=
  let at_ (cls split : Nat) (pc : Int) : Bool :=
    s.allCls.any (fun c => c.id == cls && c.live && (c.split split).pc == pc && (c.split split).state != .free)
  match w.who with
  | .lane cls acc lane =>
    s.allCls.any (fun c => c.id == cls && c.mem.any (fun a => a.id == acc && a.lanes.any (fun l => l.lane == lane && !l.done)))
  | .element op => s.engines.any (fun e => e.id == op)
  | .pref cls split pc | .fetch cls split pc => at_ cls split pc
  | .content req => s.creqs.any (fun q => q.id == req)
  | .port id => s.portq.any (fun q => q.id == id)

/-- Add to a count. -/
def addCount {α : Type} [DecidableEq α] (l : List (α × Nat)) (a : α) (n : Nat) : List (α × Nat) :=
  if n = 0 then l else assocSet l a ((assoc l a).getD 0 + n)

/-- Activity of a core's pipes counts for energy (R424). -/
def State.meterPipe (s : State) (core : Nat) (k : EnergyKind) (n : Nat) : State :=
  { s with meter := { s.meter with pipes := addCount s.meter.pipes (core, k) n } }

/-- Traffic of a form at a controller counts for its energy (R424). -/
def State.meterBytes (s : State) (form vmid ctl units : Nat) : State :=
  { s with meter := { s.meter with bytes := addCount s.meter.bytes (form, vmid, if ctl < 8 then .near else .far) units } }

/-- A request is served when its tenant's and its partition's bucket hold its charge and nothing of either waits before it;
both are then debited. Else it waits in arrival order. -/
def State.serve (s : State) (who : Requester) (form vmid asid ctl units : Nat) : Bool × State :=
  if units = 0 then (true, s)
  else if s.bwRate vmid asid = 0 ∧ s.bwRate vmid partBucket = 0 then (true, s.meterBytes form vmid ctl units)
  else
    let ahead := ((s.bwWait.takeWhile (fun w => w.who != who)).filter (fun w =>
      w.ctl == ctl && w.vmid == vmid && (w.part || w.asid == asid) && s.bwLive w))
    let part := !s.bwHolds ctl vmid partBucket units
    if !ahead.isEmpty || part || !s.bwHolds ctl vmid asid units then
      (false, if s.bwWait.any (fun w => w.who == who) then s
        else { s with bwWait := s.bwWait ++ [{ ctl := ctl, vmid := vmid, asid := asid, part := part, who := who }] })
    else
      let left := s.bwWait.filter (fun w => w.who != who && s.bwLive w)
      (true, (({ s with bwWait := left }.debit ctl vmid asid units).debit ctl vmid partBucket units).meterBytes form vmid ctl units)

/-- Requests of one agent in turn, each with its controller and charge and what is done once it is served; those served before are not
charged again. True once all are. -/
def servePieces (who : Requester) (form vmid asid : Nat) : List ((State → Nat × Nat) × (State → State)) → Nat → State → Bool × State
  | [], _, s => (true, s)
  | (charge, act) :: l, k, s =>
    let q := charge s
    match s.serve who form vmid asid q.1 q.2 with
    | (true, s) => servePieces who form vmid asid l (k + 1) (act s)
    | (false, s) => (false, { s with bwWait := s.bwWait.map (fun w => if w.who = who then { w with paid := k } else w) })

/-- How many of its requests an agent that waits has had served. -/
def State.paid (s : State) (who : Requester) : Nat := ((s.bwWait.find? (fun w => w.who == who)).map (fun w => w.paid)).getD 0

/-- All requests of an agent, as far as they have not been served. -/
def State.serveAll (s : State) (who : Requester) (form vmid asid : Nat) (l : List ((State → Nat × Nat) × (State → State))) :
    Bool × State := servePieces who form vmid asid (l.drop (s.paid who)) (s.paid who) s

/-- Units of 64 bytes that cross the DRAM interface for n bytes from an address: of a compressed page, what its block takes (R105,
R106). -/
def State.units (s : State) (vmid : Nat) (l : LaneReq) (base n : Nat) : Nat :=
  if attrComp l.attr then min (cdiv n 64) (Config.compressed (s.physRead (.part vmid) (s.keyId l.key) base n)) else cdiv n 64

/-- What a miss of a partition's access brings in: the block of the page's grain, in one of L2 and the RDC if that is where it goes. -/
def State.fillUnits (s : State) (vmid die : Nat) (l : LaneReq) : Nat :=
  let held := match s.l2find l.pa with
    | none => (s.rdcHit vmid die l).isSome
    | some x => !(l.via 1 vmid).passes x
  if held then 0 else s.units vmid l l.block (attrGrain l.attr)

/-- The charge of one lane's access: what crosses the DRAM interface. Level-0 traffic is not metered; a hit in L1, L2 or an RDC
crosses nothing; a miss brings the block of the grain; a write-through crosses as it is made (R105, R107, R423). -/
def State.chargeOf (s : State) (c : Cls) (op : AccOp) (l : LaneReq) (n pol : Nat) : Nat :=
  if c.level = 0 ∨ l.win ∨ l.peer then 0
  else if l.unc then cdiv n 64
  else if l.l1ok && pol != 1 && (s.l1find c.core c.vmid l.pa).isSome && (!op.need.writes || !attrShared l.attr) then 0
  else if op.need.writes && attrShared l.attr && !attrWb l.attr then s.units c.vmid l l.pa n
  else if op.need.writes then
    (match s.l2find l.pa with
      | none => s.units c.vmid l l.block (attrGrain l.attr)
      | some x => if (l.via c.level c.vmid).passes x then s.units c.vmid l l.block (attrGrain l.attr) else 0)
  else s.fillUnits c.vmid (c.core / 64) l

/-- One lane's request at its controller. A content line's place is not given: what it brings in, and where from, are free (DESIGN CHOICE:
log entry 58). -/
def State.serveLane (s : State) (c : Cls) (a : Access) (l : LaneReq) : Bool × State :=
  let who : Requester := .lane c.id a.id l.lane
  if a.op.space = 1 ∨ c.level = 0 then (true, s)
  else if a.op.space = 2 then
    let n := 2 ^ 16 * a.id + l.lane
    s.serve who c.form c.vmid c.asid (Config.contentController n % 24) (Config.contentUnits n % 9)
  else s.serve who c.form c.vmid c.asid (controllerOf l.pa) (s.chargeOf c a.op l a.op.size a.pol)

end Sys2Proof.Machine
end

