-- ==== Sys2Proof/Machine/Scratch.lean ====
section
/-!
DEFINITION. The scratchpad, its barrier objects and the splits that wait on it (R19, R21, R97–R99, R127, R266–R270), and the
ranges that engine threads read and write.
-/

namespace Sys2Proof.Machine

/-! ### Members -/

/-- The form of member m of the same house (R21). A member whose form has ended is none, so that reaching its scratchpad or barriers
raises SCRATCH, and a store still on its way there is dropped (DESIGN CHOICE: log entry 69). -/
def State.memberOf (s : State) (f : Form) (m : Nat) : Option Form :=
  s.forms.find? (fun g => g.launch == f.launch && g.house == f.house && g.inh == m)

def State.formById (s : State) (id : Nat) : Option Form := s.forms.find? (fun f => f.id == id)

/-- The form and offset that a scratchpad address of a form's class names, for n bytes; none raises SCRATCH (R21, R98). -/
def State.scratchPlace (s : State) (form addr n : Nat) : Option (Form × Nat) :=
  if 2 ^ 22 ≤ addr then none
  else
    match s.formById form with
    | none => none
    | some f =>
      match s.memberOf f (addr / 2 ^ 20) with
      | none => none
      | some g => if addr % 2 ^ 20 + n ≤ g.size then some (g, addr % 2 ^ 20) else none

/-- The bytes [off, off+n) touch a barrier object below BARS (R99). -/
def Form.onBarrier (f : Form) (off : Nat) : Bool := decide (off < 16 * f.bars)

/-! ### Engine threads (R113, R127) -/

/-- The element size of a drain's output (R292). -/
def drainEsz (d : List DWord) : Nat :=
  match bits (d.getD 0 0).toNat 17 15 with
  | 1 | 2 => 2
  | 3 => 1
  | _ => 4

def drainToOb (d : List DWord) : Bool := bit (d.getD 0 0).toNat 13
def drainAddr (d : List DWord) : Nat := bits (d.getD 1 0).toNat 21 0
def drainPitch (d : List DWord) : Nat := bits (d.getD 2 0).toNat 19 0
/-- Bytes of a drain's scratchpad range (R292). -/
def drainSpan (d : List DWord) : Nat := 63 * drainPitch d + 64 * drainEsz d

/-- Fields of a shape record (Table 13-9). -/
def shRank (r : BitVec 1024) : Nat := bits r.toNat 130 128
def shEsz (r : BitVec 1024) : Nat := bits r.toNat 132 131
def shRoot (r : BitVec 1024) : Bool := bit r.toNat 133
def shSwz (r : BitVec 1024) : Nat := bits r.toNat 135 134
def shRegion (r : BitVec 1024) : Nat := bits r.toNat 141 136
def shBase (r : BitVec 1024) : Nat := bits r.toNat 63 0
def shFill (r : BitVec 1024) : Nat := bits r.toNat 127 64
def shDim (r : BitVec 1024) (d : Nat) : Nat := bits r.toNat (223 + 32 * d) (192 + 32 * d)
def shBox (r : BitVec 1024) (d : Nat) : Nat := bits r.toNat (655 + 16 * d) (640 + 16 * d)
/-- The byte stride of dimension d ≥ 1. -/
def shStride (r : BitVec 1024) (d : Nat) : Nat := bits r.toNat (447 + 64 * (d - 1)) (384 + 64 * (d - 1))
/-- Box size in bytes (R299). -/
def shBytes (r : BitVec 1024) : Nat := ((List.range (shRank r)).map (fun d => shBox r d)).foldl (· * ·) (2 ^ shEsz r)

/-- Where byte o of a box lies under swizzle n (R300). -/
def swizzle (n o : Nat) : Nat :=
  if n = 0 then o else o ^^^ ((o / (16 * 2 ^ n) % 2 ^ n) * 16)

/-- The scratchpad address and direction of a copy, if it has a scratchpad side: true when it writes it (Table 13-10). -/
def engineScratch (fn : Nat) (shape : BitVec 1024) (far : DWord) : Option (Nat × Bool) :=
  match fn with
  | 0 | 5 => some (far.toNat, true)
  | 1 | 7 => some (far.toNat, false)
  | 4 => some (shBase shape, false)
  | _ => none

/-- A range of scratchpad that an engine thread uses: form, first offset, end, and whether it writes it (R127). -/
abbrev EngineRange := Nat × Nat × Nat × Bool

def State.rangeOf (s : State) (form addr n : Nat) (w : Bool) : List EngineRange :=
  match s.scratchPlace form addr n with
  | none => []
  | some (f, off) => [(f.id, off, off + n, w)]

/-- The ranges of the copies in flight. -/
def State.copyRanges (s : State) : List EngineRange :=
  s.engines.flatMap (fun e =>
    match engineScratch e.fn e.shape e.far with
    | none => []
    | some (a, w) => s.rangeOf e.form a (shBytes e.shape) w)

/-- Those of the drains; a guided drain of the unconditional twin writes no byte (R296). -/
def State.drainRanges (s : State) : List EngineRange :=
  s.seq.flatMap (fun o =>
    match o.kind with
    | .drain _ d _ =>
      if drainToOb d then []
      else
        match s.getCls o.cls with
        | none => []
        | some c => if bit (d.getD 0 0).toNat 19 && c.twin == 2 then [] else s.rangeOf c.form (drainAddr d) (drainSpan d) true
    | .zero _ | .loop _ _ _ | .stat _ _ => [])

/-- An access to these bytes meets a range: any access one that is written, a store one that is read (R127). -/
def rangeRace (l : List EngineRange) (form off n : Nat) (write : Bool) : Bool :=
  l.any (fun (g, lo, hi, w) => g == form && decide (lo < off + n ∧ off < hi) && (w || write))

/-- An access by a class to these bytes races with an engine thread (R127). -/
def State.engineRace (s : State) (form off n : Nat) (write : Bool) : Bool :=
  rangeRace (s.copyRanges ++ s.drainRanges) form off n write

/-- Some byte of a form's scratchpad carries an error mark (R453). -/
def State.scratchPoisoned (s : State) (form off n : Nat) : Bool :=
  match s.formById form with
  | none => false
  | some f => f.scrPoison.any (fun q => decide (q < off + n ∧ off < q + 32))

/-- Phase 1 of a scratchpad access by a class: SCRATCH, then ALIGN (R97, R257). -/
def State.scratchAddr (s : State) (form : Nat) (ea : Int) (n : Nat) : Option Cause :=
  if ea < 0 then some .scratch
  else
    match s.scratchPlace form ea.toNat n with
    | none => some .scratch
    | some (_, off) => if off % n ≠ 0 then some .align else none

/-- What follows once every lane has passed it: SCRATCH for a store to a barrier object, ECC for a read of an error mark, RACE with an
engine thread (R257, R453). -/
def State.scratchLate (s : State) (form : Nat) (ea : Int) (n : Nat) (write : Bool) : Option Cause :=
  match s.scratchPlace form ea.toNat n with
  | none => none
  | some (f, off) =>
    if write && f.onBarrier off then some .scratch
    else if !write && s.scratchPoisoned f.id off n then some .ecc
    else if s.engineRace f.id off n write then some .race
    else none

/-- AUX of an event on a scratchpad address: the access size, or the access kind of a RACE, whose range has no recorded tag (Table
16-6). -/
def scratchAux (cause : Cause) (n : Nat) (write : Bool) : Nat :=
  match cause with
  | .scratch | .align => n
  | .race => b2n write * 2 ^ 24
  | _ => 0

/-! ### Reading and writing -/

def State.modForm (s : State) (id : Nat) (f : Form → Form) : State :=
  { s with forms := s.forms.map (fun x => if x.id = id then f x else x) }

/-- WAIT's conditions (R266). -/
def waitHolds (c : WaitCond) (w x : Word) : Bool :=
  match c with
  | .eq => w == x
  | .ne => w != x
  | .gep => decide ((w - x).toNat < 2 ^ 31)
  | .gen => !w.ult x
  | .masknz => w &&& x != 0

/-- Wake the splits of one class whose waited word now satisfies its condition; each wake is an acquire (R266). -/
def wakeClass (form : Nat) (m : Memory) (off n : Nat) (c : Cls) : Cls × Nat :=
  (List.range 16).foldl (fun (r : Cls × Nat) i =>
    match (r.1.split i).state with
    | .blocked (.wait f o cond x scope) =>
      if f = form ∧ o < off + n ∧ off < o + 4 ∧ waitHolds cond (BitVec.ofNat 32 (m.num o 4)) x then
        (r.1.modSplit i (fun sp => { sp with state := .ready, age := 0 }), max r.2 scope)
      else r
    | _ => r) (c, 0)

/-- Wake every split that waits on the bytes [off, off+n) of a form (R266). -/
def State.wakeWaits (s : State) (form off n : Nat) : State :=
  match s.formById form with
  | none => s
  | some f =>
    let ids := (s.allCls.filter (fun c => c.live)).map (fun c => c.id)
    ids.foldl (fun s id =>
      match s.getCls id with
      | none => s
      | some c =>
        let r := wakeClass form f.scratch off n c
        (s.modCls id (fun _ => r.1)).acquire c.core r.2) s

/-- Write scratchpad bytes; error marks of sectors written whole are cleared (R453), and waiting splits are looked at. -/
def State.writeScratch (s : State) (form off : Nat) (bs : List Byte) : State :=
  (s.modForm form (fun f =>
    { f with scratch := f.scratch.write off bs,
             scrPoison := f.scrPoison.filter (fun q => !(decide (off ≤ q ∧ q + 32 ≤ off + bs.length))) })).wakeWaits form off bs.length

def State.readScratch (s : State) (form off n : Nat) : List Byte :=
  match s.formById form with
  | none => []
  | some f => f.scratch.read off n

/-! ### Barrier objects (R268, R269) -/

/-- A barrier object's fields (Table 12-4). -/
structure Barrier where
  phase  : Nat
  v      : Bool
  parr   : Nat
  xcount : Nat
  pbytes : Int
  deriving DecidableEq, Repr

def Barrier.ofBytes (l : List Byte) : Barrier :=
  let x := Sys2Proof.Machine.ofBytes l
  { phase := bits x 7 0, v := bit x 24, parr := bits x 63 32, xcount := bits x 95 64, pbytes := sextN 32 (bits x 127 96) }

def Barrier.bytes (b : Barrier) : List Byte :=
  toBytes 16 (b.phase % 256 + b2n b.v * 2 ^ 24 + (b.parr % 2 ^ 32) * 2 ^ 32 + (b.xcount % 2 ^ 32) * 2 ^ 64
    + (BitVec.ofInt 32 b.pbytes).toNat * 2 ^ 96)

def State.barrier (s : State) (form off : Nat) : Barrier := Barrier.ofBytes (s.readScratch form off 16)

/-- A phase boundary (R269). -/
def Barrier.boundary (b : Barrier) : Bool := b.parr == b.xcount && b.pbytes == 0

/-- Wake the splits registered on a phase of a barrier; each wake is an acquire at its scope (R269). -/
def State.wakeBar (s : State) (form off phase : Nat) : State :=
  let ids := (s.allCls.filter (fun c => c.live)).map (fun c => c.id)
  ids.foldl (fun s id =>
    match s.getCls id with
    | none => s
    | some c =>
      let r := (List.range 16).foldl (fun (r : Cls × Nat) i =>
        match (r.1.split i).state with
        | .blocked (.barw f o p scope) =>
          if f = form ∧ o = off ∧ p = phase then
            (r.1.modSplit i (fun sp => { sp with state := .ready, age := 0 }), max r.2 scope)
          else r
        | _ => r) (c, 0)
      (s.modCls id (fun _ => r.1)).acquire c.core r.2) s

/-- Write an object back, then complete_if_ready: with nothing left to arrive the phase completes and its splits wake
(R269). -/
def State.putBarrier (s : State) (form off : Nat) (b : Barrier) : State :=
  if b.v && b.parr == 0 && b.pbytes == 0 then
    let b' := { b with phase := (b.phase + 1) % 256, parr := b.xcount }
    (s.writeScratch form off b'.bytes).wakeBar form off b.phase
  else s.writeScratch form off b.bytes

/-- The checks of a barrier address: SCRATCH, ALIGN to 16, SCRATCH for an index at or above BARS (R269). -/
def State.barFault (s : State) (form addr : Nat) : Option Cause :=
  match s.scratchPlace form addr 16 with
  | none => some .scratch
  | some (f, off) =>
    if off % 16 ≠ 0 then some .align else if f.onBarrier off then none else some .scratch

/-- An engine or matrix arrival with bytes landed: false when the object has V = 0 and the arrival is discarded (R270,
R298). -/
def State.engineArrive (s : State) (form off bytes : Nat) : Option State :=
  let b := s.barrier form off
  if b.v then some (s.putBarrier form off { b with pbytes := b.pbytes - bytes }) else none

end Sys2Proof.Machine
end

