-- ==== Sys2Proof/Machine/MemInstr.lean ====
section
/-!
DEFINITION. Memory instructions at issue: loads and stores, acquire and release, atomics, reductions, replicated loads, fences,
WAIT, barriers, prefetch, physical accesses, locked pages and LAUNCH (12_isa_memory.md R251–R272, R219–R221, R308, R352).
-/

namespace Sys2Proof.Machine

/-! ### Building an access -/

/-- The physical lane registers a load of n bytes binds (R49, R50). -/
def State.bind (s : State) (rd : Reg) (n : Nat) : List Nat :=
  if n = 8 then [s.cls.phys rd, s.cls.phys (rd + 1)] else [s.cls.phys rd]

/-- n bytes of store data of lane i, a pair for 8 (R50). -/
def State.laneData (s : State) (rs : Reg) (n i : Nat) : Nat :=
  if n = 8 then (s.getV rs i).toNat + (s.getV (rs + 1) i).toNat * 2 ^ 32 else (s.getV rs i).toNat % 2 ^ (8 * n)

/-- A lane load (R254). -/
def laneLoad (p : Pfx) (op : AccOp) (n : Nat) (rd : Reg) (ea : Nat → Int) (perLane : Nat) (la : La) (s : State) : State :=
  let a := { s.access p op (s.laneReqs (s.eff p) ea (fun _ => 0)) with
               dest := if s.eff p = 0 then [] else s.bind rd n, perLane := perLane }
  memAccess a n la.toNat s

/-- A lane store (R254). -/
def laneStore (p : Pfx) (n : Nat) (rs : Reg) (ea : Nat → Int) (perLane : Nat) (la : La) (s : State) : State :=
  let a := { s.access p (.store n) (s.laneReqs (s.eff p) ea (s.laneData rs n)) with perLane := perLane }
  memAccess a n la.toNat s

/-! ### Virtual addresses -/

/-- LDL (R254). -/
def execLdl (x : Imx) (p : Pfx) (wd : Width) (rd ra : Reg) (off : BitVec 7) (la : La) (s : State) : Out :=
  let n := Width.bytes wd
  .next (guarded (.ldl x p wd rd ra off la) (fun s => laneLoad p (.load n) n rd (s.eaL ra n (offS x off n)) 0 la s) s)

/-- STL (R254). -/
def execStl (x : Imx) (p : Pfx) (wd : Width) (rs ra : Reg) (off : BitVec 7) (la : La) (s : State) : Out :=
  let n := Width.bytes wd
  .next (guarded (.stl x p wd rs ra off la) (fun s => laneStore p n rs (s.eaL ra n (offS x off n)) (max n 4) la s) s)

/-- LDI (R254). -/
def execLdi (p : Pfx) (wd : Width) (rd ra rb : Reg) (la : La) (s : State) : Out :=
  let n := Width.bytes wd
  .next (guarded (.ldi p wd rd ra rb la) (fun s => laneLoad p (.load n) n rd (s.eaX ra rb n) 4 la s) s)

/-- STI (R254). -/
def execSti (p : Pfx) (wd : Width) (rs ra rb : Reg) (la : La) (s : State) : Out :=
  let n := Width.bytes wd
  .next (guarded (.sti p wd rs ra rb la) (fun s => laneStore p n rs (s.eaX ra rb n) (4 + max n 4) la s) s)

/-- The one request of a scalar access (R256). -/
def scalarReq (ea : Int) (data : Nat) : List LaneReq := [{ lane := 0x7FFF, ea := ea, data := data }]

def dblBytes (dbl : Bool) : Nat := if dbl then 8 else 4

/-- SLD (R256). -/
def execSld (x : Imx) (p : Pfx) (dbl : Bool) (rd ra : Reg) (off : BitVec 7) (la : La) (s : State) : Out :=
  let n := dblBytes dbl
  .next (guarded (.sld x p dbl rd ra off la) (fun s =>
    memAccess { s.access p (.loadScalar n) (scalarReq ((s.getS ra).toNat + offS x off n) 0) with sdest := some rd }
      n la.toNat s) s)

/-- SST (R256). -/
def execSst (x : Imx) (p : Pfx) (dbl : Bool) (rs ra : Reg) (off : BitVec 7) (la : La) (s : State) : Out :=
  let n := dblBytes dbl
  .next (guarded (.sst x p dbl rs ra off la) (fun s =>
    memAccess (s.access p (.storeScalar n)
      (scalarReq ((s.getS ra).toNat + offS x off n) ((s.getS rs).toNat % 2 ^ (8 * n)))) n la.toNat s) s)

/-! ### Scratchpad (R257) -/

/-- Raise an event on a scratchpad address. -/
def raiseScratch (n : Nat) (write : Bool) (mask : Option Mask) (l : LaneReq) (cause : Cause) : State → State :=
  raise { cause := cause, addr := eaField l.ea, lane := l.lane, aux := scratchAux cause n write, write := write, mask := mask }

/-- The first event of a scratchpad access of n bytes for every lane: phase 1 of all of them, then what follows (R97, R257). -/
def State.scratchFirst (s : State) (n : Nat) (write : Bool) (lanes : List LaneReq) : Option (LaneReq × Cause) :=
  match firstFault lanes (fun l => s.scratchAddr s.cls.form l.ea n) with
  | some x => some x
  | none => firstFault lanes (fun l => s.scratchLate s.cls.form l.ea n write)

/-- Issue a scratchpad access: every lane is checked before any accesses storage, and nothing is ever logged (R97, R257). -/
def scratchAccess (a : Access) (write : Bool) (la : Nat) (s : State) : State :=
  match s.scratchFirst a.op.size write a.lanes with
  | some (l, cause) => raiseScratch a.op.size write (some a.mask) l cause s
  | none =>
    if a.lanes.isEmpty then retire s
    else if s.cls.pipeHeld || (a.counts && decide (65535 ≤ s.cls.soc)) then hold s
    else enter a la a.op.waited s.fresh

/-- LDS (R257). -/
def execLds (x : Imx) (p : Pfx) (dbl : Bool) (rd ra : Reg) (off : BitVec 7) (la : La) (s : State) : Out :=
  let n := dblBytes dbl
  .next (guarded (.lds x p dbl rd ra off la) (fun s =>
    let ea (i : Nat) : Int := ((s.getV ra i).toNat + offU x off n : Nat)
    scratchAccess { s.access p (.loadScratch n) (s.laneReqs (s.eff p) ea (fun _ => 0)) with
                      dest := if s.eff p = 0 then [] else s.bind rd n } false la.toNat s) s)

/-- STS (R257). -/
def execSts (x : Imx) (p : Pfx) (dbl : Bool) (rs ra : Reg) (off : BitVec 7) (la : La) (s : State) : Out :=
  let n := dblBytes dbl
  .next (guarded (.sts x p dbl rs ra off la) (fun s =>
    let ea (i : Nat) : Int := ((s.getV ra i).toNat + offU x off n : Nat)
    scratchAccess (s.access p (.storeScratch n) (s.laneReqs (s.eff p) ea (s.laneData rs n))) true la.toNat s) s)

/-! ### Acquire, release, atomics, reductions, replicated loads -/

/-- LDAQ (R258). -/
def execLdaq (x : Imx) (p : Pfx) (rd ra : Reg) (off : BitVec 7) (la : La) (s : State) : Out :=
  .next (guarded (.ldaq x p rd ra off la) (fun s =>
    memAccess { s.access p .loadAcquire (s.laneReqs (s.eff p) (s.eaL ra 4 (offS x off 4)) (fun _ => 0)) with
                  dest := if s.eff p = 0 then [] else s.bind rd 4, scope := Pfxp.scopeOf p 4 } 4 la.toNat s) s)

/-- STRL (R259): at FORM or wider it issues only when every earlier access of the class has been performed (R119, Table 6-2), and
raises the release count once as it enters; it records the count it found. -/
def execStrl (x : Imx) (p : Pfx) (rs ra : Reg) (off : BitVec 7) (la : La) (s : State) : Out :=
  .next (guarded (.strl x p rs ra off la) (fun s =>
    let scope := Pfxp.scopeOf p 4
    let a := { s.access p (.storeRelease (s.releaseCount s.cls.tag))
                 (s.laneReqs (s.eff p) (s.eaL ra 4 (offS x off 4)) (s.laneData rs 4)) with scope := scope, perLane := 4 }
    if a.lanes.isEmpty then retire s
    else if scope != 0 && !s.quiet s.cls then hold s
    else
      let c := s.cls
      let s' := memAccess a 4 la.toNat s
      if s'.nextId = s.nextId then s' else s'.release c scope) s)

/-- A returning atomic (R260). -/
def atomicOp (f : AtomFn) (p : Pfx) (rd ra rb : Reg) (la : La) (s : State) : State :=
  let reqs := (s.laneReqs (s.eff p) (s.eaX ra rb 4) (fun i => (s.getV rd i).toNat)).map
    (fun l => { l with cmp := if f = .cas then (s.getV (rd + 1) l.lane).toNat else 0 })
  memAccess { s.access p (.atomic f) reqs with
                dest := if s.eff p = 0 then [] else [s.cls.phys rd], perLane := if f = .cas then 12 else 8 } 4 la.toNat s

def execAadd (p : Pfx) (rd ra rb : Reg) (la : La) (s : State) : Out :=
  .next (guarded (.aadd p rd ra rb la) (atomicOp .add p rd ra rb la) s)
def execAmin (p : Pfx) (rd ra rb : Reg) (la : La) (s : State) : Out :=
  .next (guarded (.amin p rd ra rb la) (atomicOp .min p rd ra rb la) s)
def execAmax (p : Pfx) (rd ra rb : Reg) (la : La) (s : State) : Out :=
  .next (guarded (.amax p rd ra rb la) (atomicOp .max p rd ra rb la) s)
def execAand (p : Pfx) (rd ra rb : Reg) (la : La) (s : State) : Out :=
  .next (guarded (.aand p rd ra rb la) (atomicOp .and p rd ra rb la) s)
def execAor (p : Pfx) (rd ra rb : Reg) (la : La) (s : State) : Out :=
  .next (guarded (.aor p rd ra rb la) (atomicOp .or p rd ra rb la) s)
def execAxor (p : Pfx) (rd ra rb : Reg) (la : La) (s : State) : Out :=
  .next (guarded (.axor p rd ra rb la) (atomicOp .xor p rd ra rb la) s)
def execAxch (p : Pfx) (rd ra rb : Reg) (la : La) (s : State) : Out :=
  .next (guarded (.axch p rd ra rb la) (atomicOp .xch p rd ra rb la) s)
def execAcas (p : Pfx) (rd ra rb : Reg) (la : La) (s : State) : Out :=
  .next (guarded (.acas p rd ra rb la) (atomicOp .cas p rd ra rb la) s)
def execAfadd (p : Pfx) (rd ra rb : Reg) (la : La) (s : State) : Out :=
  .next (guarded (.afadd p rd ra rb la) (atomicOp .fadd p rd ra rb la) s)

/-- A posted reduction (R262): the data is v[rb+1], or the pair v[rb+2]:v[rb+1]. -/
def reduction (op : AccOp) (p : Pfx) (ra rb : Reg) (la : La) (s : State) : State :=
  let n := op.size
  memAccess { s.access p op (s.laneReqs (s.eff p) (s.eaX ra rb n) (s.laneData (rb + 1) n)) with perLane := 4 + n }
    n la.toNat s

def execMredW (p : Pfx) (fn : RedFn) (ra rb : Reg) (la : La) (s : State) : Out :=
  .next (guarded (.mredW p fn ra rb la) (reduction (.mred 4 fn) p ra rb la) s)
def execMredD (p : Pfx) (fn : RedFn) (ra rb : Reg) (la : La) (s : State) : Out :=
  .next (guarded (.mredD p fn ra rb la) (reduction (.mred 8 fn) p ra rb la) s)
def execMredF (p : Pfx) (fn : RedfFn) (ra rb : Reg) (la : La) (s : State) : Out :=
  .next (guarded (.mredF p fn ra rb la) (reduction (.mredF fn) p ra rb la) s)

/-- The format that a gather request names: F32, BF16X2, I32 (R264). -/
def gatherFormat (bf isInt : Bool) : Nat := if isInt then 2 else if bf then 1 else 0

/-- The gather request of an RLDS that has passed its checks: of each lane its set and offset (R435). -/
def sendGather (vmid : Nat) (a : Access) (s : State) : State :=
  match a.op with
  | .rlds bf isInt =>
    { s with sent := s.sent ++ [.gather (gatherFormat bf isInt) (a.lanes.filterMap (fun l =>
        (s.replicaSet vmid l.pa).map (fun r => (r.2.1, r.2.2.1))))] }
  | _ => s

/-- RLDS (R264, R435): the offset counts words. -/
def replicated (bf isInt : Bool) (p : Pfx) (rd ra : Reg) (off : BitVec 6) (la : La) (s : State) : State :=
  let a := { s.access p (.rlds bf isInt) (s.laneReqs (s.eff p) (s.eaL ra 4 (4 * off.toInt)) (fun _ => 0)) with
               dest := if s.eff p = 0 then [] else [s.cls.phys rd], sent := s.time }
  let s' := memAccess a 4 la.toNat s
  match s'.cls.mem.find? (fun x => x.id == s.nextId) with
  | none => s'
  | some x => if x.stage = .fabric then sendGather s.cls.vmid x s' else s'

def execRldsF (p : Pfx) (bf : Bool) (rd ra : Reg) (off : BitVec 6) (la : La) (s : State) : Out :=
  .next (guarded (.rldsF p bf rd ra off la) (replicated bf false p rd ra off la) s)
def execRldsI (p : Pfx) (rd ra : Reg) (off : BitVec 6) (la : La) (s : State) : Out :=
  .next (guarded (.rldsI p rd ra off la) (replicated false true p rd ra off la) s)

/-! ### Fences, WAIT, barriers (R265–R270) -/

/-- Earlier loads of the class whose values are not all bound. -/
def Cls.loadsOut (c : Cls) : Bool := c.mem.any (fun a => !a.op.counts)

/-- FENCE (R265, R119). -/
def execFence (scope : BitVec 3) (kind : FenceKind) (s : State) : Out :=
  let rel := kind = .rel ∨ kind = .acqrel ∨ kind = .sc
  let acq := kind = .acq ∨ kind = .acqrel ∨ kind = .sc
  if scope = 0 then .next (retire s)
  else if (rel ∧ !s.quiet s.cls) ∨ (acq ∧ s.cls.loadsOut) then .next (hold s)
  else
    let s' := if rel then s.release s.cls scope.toNat else s
    .next (retire (if acq then s'.acquire s.cls.core scope.toNat else s'))

/-- An earlier scratchpad store of the class still has these bytes to write (R116). -/
def Cls.storesTo (c : Cls) (ea n : Nat) : Bool :=
  c.mem.any (fun a => match a.op with
    | .storeScratch _ => a.lanes.any (fun l => !l.done && overlaps (a.span l) ((ea : Int), (ea : Int) + n))
    | _ => false)

/-- WAIT (R266): checked as LDS; satisfied it is an acquire, else its split is blocked. -/
def execWait (p : Pfx) (c : WaitCond) (ra rb : Reg) (s : State) : Out :=
  .next (guarded (.wait p c ra rb) (fun s =>
    let ea := (s.getS ra).toNat
    let l : LaneReq := { lane := 0x7FFF, ea := ea }
    let scope := Pfxp.scopeOf p 2
    match s.scratchFirst 4 false [l] with
    | some (l, cause) => raiseScratch 4 false none l cause s
    | none =>
      if s.cls.pipeHeld || s.cls.storesTo ea 4 then hold s
      else
        match s.scratchPlace s.cls.form ea 4 with
        | none => s
        | some (f, off) =>
          let x : Word := (s.getS rb).setWidth 32
          if waitHolds c (BitVec.ofNat 32 (f.scratch.num off 4)) x then retire (s.acquire s.cls.core scope)
          else blockOn (.wait f.id off c x scope) s) s)

/-- The barrier a BAR word names, or the event its address raises (R269). -/
def withBarrier (ra : Reg) (body : Form → Nat → Barrier → State → State) (s : State) : State :=
  let a := (s.getS ra).toNat
  let bad (cause : Cause) : State := raiseScratch 16 false none { lane := 0x7FFF, ea := a } cause s
  match s.barFault s.cls.form a with
  | some cause => bad cause
  | none =>
    match s.scratchPlace s.cls.form a 16 with
    | none => s
    | some (f, off) =>
      if s.scratchPoisoned f.id off 16 then bad .ecc
      else if s.cls.pipeHeld then hold s
      else body f off (s.barrier f.id off) s

def barCount (ra : Reg) (s : State) : State := raise { cause := .barcount, addr := (s.getS ra).toNat } s

/-- BARI (R269). -/
def execBari (p : Pfx) (ra rb : Reg) (s : State) : Out :=
  .next (guarded (.bari p ra rb) (withBarrier ra (fun f off b s =>
    let c := (s.getS rb).toNat
    if (b.v && !b.boundary) || decide (c < 1 ∨ 131072 < c) then barCount ra s
    else retire (s.putBarrier f.id off { b with xcount := c, parr := c, pbytes := 0, v := true }))) s)

/-- An arrival with the lanes of the effective mask (R269): a release at its scope; BARW then waits for the phase. -/
def arrival (wait : Bool) (p : Pfx) (ra rb : Reg) (s : State) : State :=
  let m := laneCount s.cls.lanes (s.eff p)
  if m = 0 then retire s
  else
    withBarrier ra (fun f off b s =>
      let scope := Pfxp.scopeOf p 2
      if !b.v || (s.getS rb).toNat != b.xcount || decide (b.parr < m) then barCount ra s
      else if scope != 0 && !s.quiet s.cls then hold s
      else
        let s := s.release s.cls scope
        let s := if wait then blockOn (.barw f.id off b.phase scope) s else s
        let s := s.putBarrier f.id off { b with parr := b.parr - m }
        if wait then s else retire s) s

/-- BARV (R269). -/
def execBarv (p : Pfx) (ra rb : Reg) (s : State) : Out := .next (guarded (.barv p ra rb) (arrival false p ra rb) s)
/-- BARW (R269). -/
def execBarw (p : Pfx) (ra rb : Reg) (s : State) : Out := .next (guarded (.barw p ra rb) (arrival true p ra rb) s)

/-- BARX (R269). -/
def execBarx (p : Pfx) (ra rb : Reg) (s : State) : Out :=
  .next (guarded (.barx p ra rb) (withBarrier ra (fun f off b s =>
    let n := (s.getS rb).toNat
    if !b.v || decide (2 ^ 31 ≤ n ∨ 2 ^ 31 - 1 < b.pbytes + n) then barCount ra s
    else retire (s.putBarrier f.id off { b with pbytes := b.pbytes + n }))) s)

/-- BARZ (R269). -/
def execBarz (p : Pfx) (ra : Reg) (s : State) : Out :=
  .next (guarded (.barz p ra) (withBarrier ra (fun f off b s =>
    if b.v && !b.boundary then barCount ra s else retire (s.writeScratch f.id off (List.replicate 16 0)))) s)

/-- BARP (R269): an ordinary read. -/
def execBarp (p : Pfx) (rd ra : Reg) (s : State) : Out :=
  .next (guarded (.barp p rd ra) (withBarrier ra (fun _ _ b s => retire (s.setS rd (BitVec.ofNat 64 b.phase)))) s)

/-! ### Prefetch (R272) -/

/-- A 512-byte line that PREF may fetch, with its translation: canonical, found in the TLB, readable, cached, in memory. -/
def State.prefetchable (s : State) (line : Int) : Option LaneReq :=
  if s.cls.level = 0 ∨ line < 0 ∨ (windowBase : Int) ≤ line then none
  else
    match s.tlbFind s.cls.core s.cls.vmid s.cls.asid line.toNat with
    | none => none
    | some e =>
      let l : LaneReq := { lane := 0, ea := line, pa := e.pa + (line.toNat - e.va), attr := e.attr, key := e.key,
                           unc := (e.xpart && !attrCA e.attr) || attrClevel e.attr == 2,
                           page := { va := e.va, ga := e.ga, pa := e.pa, size := e.size } }
      if Need.granted .r e.attr.toNat && !l.unc && (s.peerWindow s.cls.vmid (e.ga + (line.toNat - e.va))).isNone
          && decide (l.pa + 512 ≤ Config.memLimit) && !s.inRecords l.pa 512 then some l
      else none

/-- The blocks of the page's grain in a line. -/
def LaneReq.blocks (l : LaneReq) : List LaneReq :=
  (List.range (512 / attrGrain l.attr)).map (fun j => { l with pa := l.pa + attrGrain l.attr * j })

/-- What a prefetched line brings over the DRAM interface, and from which controller. -/
def State.prefCharge (s : State) (line : Int) : Nat × Nat :=
  match s.prefetchable line with
  | none => (0, 0)
  | some l => (controllerOf l.pa, (l.blocks.map (fun b => s.fillUnits s.cls.vmid (s.cls.core / 64) b)).sum)

/-- Fetch a line into the levels that POL chooses within CLEVEL: L2 and the RDC, and L1 unless POL 1, the page or a pin of strict mode bars
it (R106, R131, R132, R272). -/
def prefLine (line : Int) (pol : Nat) (s : State) : State :=
  match s.prefetchable line with
  | none => s
  | some l =>
    let c := s.cls
    let s := s.touchTlb c.core c.vmid c.asid line.toNat
    l.blocks.foldl (fun s b =>
      if s.fromL1 b pol false then s.fillL1 c.core c.vmid c.asid b pol else s.allocHome c.vmid (c.core / 64) b) s

/-- PREF: cache placement only; lines that may not be fetched are skipped, and the rest are requests like any other at their controllers
(R422). -/
def execPref (p : Pfx) (count ra : Reg) (off : BitVec 7) (s : State) : Out :=
  .next (guarded (.pref p count ra off) (fun s =>
    let base : Int := ((s.getS ra).toNat + off.toInt * 512) / 512 * 512
    let lines := (List.range (count.toNat + 1)).map (fun (i : Nat) =>
      (fun (s : State) => s.prefCharge (base + 512 * i), prefLine (base + 512 * i) (Pfxp.polOf p)))
    if s.cls.pipeHeld then hold s
    else
      match s.serveAll (.pref s.cls.id s.iss.split s.iss.pc) s.cls.form s.cls.vmid s.cls.asid lines with
      | (true, s) => retire s
      | (false, s) => hold s) s)

/-! ### Physical accesses of level 0 (R352) -/

/-- (v[ra+1] ‖ v[ra]) + 8·off, exactly. -/
def State.eaP (s : State) (ra : Reg) (off : BitVec 7) (i : Nat) : Int :=
  ((s.getV ra i).toNat + (s.getV (ra + 1) i).toNat * 2 ^ 32 : Nat) + 8 * off.toInt

/-- Checks for every lane, then issue. -/
def physAccess (a : Access) (la : Nat) (s : State) : State :=
  let chk (l : LaneReq) : Option Cause :=
    if l.ea < 0 ∨ (2 ^ 48 : Int) ≤ l.ea ∨ (Config.memLimit : Int) ≤ l.ea then some .addr
    else if l.ea % 8 ≠ 0 then some .align else none
  match firstFault a.lanes chk with
  | some (l, cause) =>
    raise { cause := cause, addr := eaField l.ea, lane := l.lane, aux := 8, write := a.op.need.writes, mask := some a.mask } s
  | none => if a.lanes.isEmpty then retire s else issueAccess a la s

def execPldd (rd ra : Reg) (off : BitVec 7) (la : La) (s : State) : Out :=
  .next (guarded (.pldd rd ra off la) (fun s =>
    physAccess { s.access none .physLoad (s.laneReqs s.act (s.eaP ra off) (fun _ => 0)) with
                   dest := if s.act = 0 then [] else s.bind rd 8, perLane := 8 } la.toNat s) s)

def execPstd (rs ra : Reg) (off : BitVec 7) (la : La) (s : State) : Out :=
  .next (guarded (.pstd rs ra off la) (fun s =>
    physAccess { s.access none .physStore (s.laneReqs s.act (s.eaP ra off) (s.laneData rs 8)) with perLane := 16 }
      la.toNat s) s)

/-! ### Locked pages (R308) -/

/-- What translating one page of a TLK.LOCK ends in. -/
inductive LockTry where
  | ok (l : List TlbEntry)
  | miss (va : Nat)
  | bad (f : FaultInfo)
  deriving DecidableEq, Repr

/-- The n pages from the one that holds va, each of its own size: each must be found and grant R. -/
def State.lockPages (s : State) (c : Cls) : Nat → Nat → LockTry
  | 0, _ => .ok []
  | n + 1, va =>
    if 2 ^ 57 ≤ va then .bad { cause := .xlate, addr := va }
    else if windowBase ≤ va then .bad { cause := .prot, addr := va }
    else
      match s.laneEntry c va with
      | .error true => .bad { cause := .xlock, addr := va }
      | .error false => .miss va
      | .ok e =>
        if !Need.granted .r e.attr.toNat then .miss va
        else
          match s.lockPages c n (e.va + e.size) with
          | .ok l => .ok (e :: l)
          | .miss v => .miss v
          | .bad f => .bad f

def Cls.freeLocks (c : Cls) : List Nat := (List.range 16).filter (fun i => (c.locks.getD i none).isNone)

/-- Lockable entries of a core in use. -/
def State.lockUse (s : State) (core : Nat) : Nat :=
  (s.tlb.filter (fun e => match e.home with
    | .lockable c _ => c == core
    | .core _ | .quad _ => false)).length

/-- Take the list entries and lockable entries, and write the handle (R308). -/
def State.takeLocks (s : State) (cid : Nat) (rd : Option Reg) (l : List TlbEntry) : State :=
  match s.getCls cid with
  | none => s
  | some c =>
    let ixs := c.freeLocks.take l.length
    let first := ixs.headD 0
    let locks := (ixs.zip l).foldl (fun ls p => padSet none ls p.1 (some ⟨p.2.va, p.2.size, first, false⟩)) c.locks
    let h := first + (l.length - 1) * 2 ^ 4 + (c.lockGen.getD first 0 % 256) * 2 ^ 8
    let s := s.modCls cid (fun c =>
      let c := { c with locks := locks }
      match rd with
      | none => c
      | some r => c.setS r (BitVec.ofNat 64 h))
    { s with tlb := l.map (fun e => { e with home := .lockable c.core cid }) ++ s.tlb }

/-- TLK.LOCK. -/
def execTlkLock (rd ra rb : Reg) (s : State) : Out :=
  .next (guarded (.tlkLock rd ra rb) (fun s =>
    let n := (s.getS rb).toNat
    let va := (s.getS ra).toNat
    if n < 1 ∨ 16 < n then raise { cause := .illop } s
    else if s.cls.freeLocks.length < n ∨ 16 < s.lockUse s.cls.core + n then raise { cause := .xlock, addr := va } s
    else
      match addrFault s.cls.level 1 1 va with
      | some cause => raise { cause := cause, addr := va, aux := 1 } s
      | none =>
        let a := { s.access none (.tlk n) (scalarReq va 0) with sdest := some rd, srcs := [s.getS ra, s.getS rb] }
        if s.cls.mustWait a.lanes then hold s
        else
          match s.lockPages s.cls n va with
          | .ok l => retire ((l.foldl (fun s e => s.touchTlb s.cls.core s.cls.vmid s.cls.asid e.va) s).takeLocks s.cls.id (some rd) l)
          | .miss v =>
            if !s.logRoom s.cls a then hold s
            else
              match s.takeSlots s.cls a.id false [({ lane := 0x7FFF, ea := v }, false)] with
              | none => hold s
              | some s' => enter (a.intoLog s.cls .walking) 0 false s'.fresh
          | .bad f =>
            if !s.logRoom s.cls a then hold s
            else (enter (a.intoLog s.cls (.delivered 1 none)) 0 false s.fresh).deliverFault s.cls.id a.id f) s)

/-- TLK.UNLK: a current handle frees its entries, one for each page, and its index's generation rises. -/
def execTlkUnlk (ra : Reg) (s : State) : Out :=
  .next (guarded (.tlkUnlk ra) (fun s =>
    let h := (s.getS ra).toNat
    let first := bits h 3 0
    let named (l : Option Lock) : Bool := match l with
      | none => false
      | some k => k.first == first
    let mine := s.cls.locks.filter named
    if bits h 63 16 ≠ 0 ∨ mine.isEmpty ∨ mine.length ≠ bits h 7 4 + 1 ∨ bits h 15 8 ≠ s.cls.lockGen.getD first 0 % 256 then
      raise { cause := .illstate } s
    else
      let pages := mine.filterMap (fun l => l.map (fun k => k.page))
      let c := { s.cls with locks := s.cls.locks.map (fun l => if named l then none else l),
                            lockGen := padSet 0 s.cls.lockGen first ((s.cls.lockGen.getD first 0 + 1) % 256) }
      let home := TlbHome.lockable c.core c.id
      let free (l : List TlbEntry) (va : Nat) : List TlbEntry := match l.find? (fun e => e.home == home && e.va == va) with
        | none => l
        | some e => l.erase e
      retire { s with cls := c, tlb := pages.foldl free s.tlb }) s)

/-! ### LAUNCH (R219–R221) -/

/-- The rights a level holds (R331): level 0 all of them; level 1 the partition's word; level 2 the tenant's, which level 1
must hold too. -/
def State.rights (s : State) (level vmid asid : Nat) : DWord :=
  if level = 0 then BitVec.allOnes 64
  else if level = 1 then s.word (.part vmid) 0x001
  else s.word (.tenant vmid asid) 0x001 &&& s.word (.part vmid) 0x001

/-- LAUNCH: a release, so it waits for every earlier access; it needs the LAUNCH right (bit 2), then reads the record. -/
def execLaunch (rd ra : Reg) (s : State) : Out :=
  .next (guarded (.launch rd ra) (fun s =>
    if !s.quiet s.cls then hold s
    else if !(s.rights s.cls.level s.cls.vmid s.cls.asid).getLsbD 2 then raise { cause := .right, aux := 2 } s
    else
      let a := (s.getS ra).toNat
      if bits a 63 57 ≠ 0 then raise { cause := .addr, addr := a, aux := 128 } s
      else if a % 128 ≠ 0 then raise { cause := .align, addr := a, aux := 128 } s
      else
        let c := s.cls
        let s' := issueAccess { s.access none .launch (scalarReq a 0) with sdest := some rd, srcs := [s.getS ra] } 0 s
        if s'.nextId = s.nextId then s' else s'.release c 4) s)

end Sys2Proof.Machine
end

