-- ==== Sys2Proof/Machine/MemEvents.lean ====
section
/-!
DEFINITION. Memory instructions performed: values return, stores and reductions reach their home, atomics their monitor; strict
mode's retries, peer and gather answers (R39, R61, R97, R103, R111–R116, R131, R252, R258–R264, R434, R435).
-/

namespace Sys2Proof.Machine

/-! ### Ending an access -/

/-- An access has been performed on every lane: it leaves its class, whose slot or handler may have waited for that. -/
def finishAcc (cid acc : Nat) (s : State) : State :=
  settleHandler cid (s.modCls cid (fun c => c.dropAcc acc)).settleEnding

/-- A lane of an access is performed. -/
def State.doneLane (s : State) (cid acc lane : Nat) : State :=
  s.modCls cid (fun c => c.modAcc acc (fun a => a.finishLane lane))

/-- An access in the fabric of a class, with the class. -/
def State.inFabric (s : State) (cid acc : Nat) : Option (Cls × Access) :=
  match s.getCls cid with
  | none => none
  | some c =>
    match c.mem.find? (fun a => a.id == acc) with
    | none => none
    | some a =>
      if a.stage = .fabric ∧ a.gen = s.genOf c then some (c, a) else none

/-- The access is refused with RETRY, and waits at the memory pipe (R131). -/
def State.retryAcc (s : State) (cid acc : Nat) : State :=
  s.modCls cid (fun c => c.modAcc acc (fun a => { a with stage := .retry s.time }))

/-- An access of virtual memory that strict mode may refuse: of an ordinary page, and performed at no monitor. -/
def State.strictRefuses (s : State) (c : Cls) (a : Access) (l : LaneReq) : Bool :=
  a.op.translated && c.level != 0 && l.ordinary && !a.op.atMonitor && s.refused c l.pa

/-- The lowest lane not yet performed that would read an error mark which arose after the checks of its access (R453). -/
def State.lateMark (s : State) (c : Cls) (a : Access) : Option LaneReq :=
  if !a.op.readsBytes then none
  else
    a.lanes.find? (fun l => !l.done && (match a.op.space with
      | 0 => s.laneMark c a.op a.pol l
      | 1 => (match s.scratchPlace c.form l.ea.toNat a.op.size with
        | none => false
        | some (f, off) => s.scratchPoisoned f.id off a.op.size)
      | _ => false))

/-- The race of the lowest lane not yet performed with a write that was recorded after the checks of its access (R136). -/
def State.lateRace (s : State) (c : Cls) (a : Access) : Option FaultInfo :=
  a.lanes.findSome? (fun l => if l.done then none else s.laneRace c a.op l)

/-- What keeps one lane of an access from being performed now: nothing, a wait, a refusal with RETRY, an error mark, a race, or memory
that does not exist. A peer's access waits for an entry of the log, which its refusal would take (R378, R434), and its answer comes too
late 100 µs after it was sent; lanes that a race finds performed stay so (DEDUCED: log entry 76). -/
inductive LaneHold where
  | go
  | wait
  | retry
  | ecc (l : LaneReq)
  | race (f : FaultInfo)
  | noMemory (pa : Nat)
  deriving DecidableEq, Repr

/-- 100 µs, after which a peer request has no answer (R434), and 1 ms, after which a gather has none (R435). -/
def peerTime : Nat := 400000
def gatherTime : Nat := 4000000

def State.laneHold (s : State) (c : Cls) (a : Access) (l : LaneReq) : LaneHold :=
  if !c.mayPerform a l || (l.peer && (!s.logRoom c a || decide (a.sent + peerTime ≤ s.time))) then .wait
  else if s.strictRefuses c a l then .retry
  else
    match s.lateMark c a, s.lateRace c a with
    | some m, _ => .ecc m
    | none, some f => .race f
    | none, none => if a.op.space = 0 ∧ noMemoryAt l a.op.size then .noMemory l.pa else .go

/-- Perform one lane of an access once nothing keeps it and its controller serves it. -/
def performLane (c : Cls) (a : Access) (l : LaneReq) (f : State → State) (s : State) : Out :=
  match s.laneHold c a l with
  | .wait => .next s
  | .retry => .next (s.retryAcc c.id a.id)
  | .ecc m => .next (s.stopAccess c.id a.id { cause := .ecc, addr := eaField m.ea, lane := m.lane, write := a.op.need.writes })
  | .race f => .next (if s.logRoom c a then s.deliverFault c.id a.id f else s)
  | .noMemory pa => .fault (.noMemory pa)
  | .go =>
    match s.serveLane c a l with
    | (true, s) => .next (f s)
    | (false, s) => .next s

/-! ### Loads -/

/-- Write a returned value to a lane or to the scalar destination. -/
def State.bindValue (s : State) (cid : Nat) (a : Access) (lane v : Nat) : State :=
  s.modCls cid (fun c =>
    match a.sdest with
    | some r => c.setS r (BitVec.ofNat 64 v)
    | none => c.deliver a.dest lane v)

/-- A load of one lane is performed at its place. -/
def loadLane (c : Cls) (a : Access) (l : LaneReq) (s : State) : State :=
  let n := a.op.size
  match a.op with
  | .loadScratch _ =>
    match s.scratchPlace c.form l.ea.toNat n with
    | none => s.doneLane c.id a.id l.lane
    | some (f, off) => (s.bindValue c.id a l.lane (ofBytes (s.readScratch f.id off n))).doneLane c.id a.id l.lane
  | .cld _ _ _ => (s.bindValue c.id a l.lane l.data).doneLane c.id a.id l.lane
  | _ =>
    if l.peer then
      match s.peerAccess c l n .read with
      | (none, s) => s.deliverFault c.id a.id { cause := .prot, addr := eaField l.ea, lane := l.lane }
      | (some v, s) => (s.bindValue c.id a l.lane (v % 2 ^ (8 * n))).doneLane c.id a.id l.lane
    else
      let (bs, s) := s.readLane c l n a.pol a.op.atHome
      (s.bindValue c.id a l.lane (ofBytes bs)).doneLane c.id a.id l.lane

/-- One lane of a returning load, when nothing of the class to the same bytes comes before it. -/
def tryLoadLane (cid acc : Nat) (s : State) (lane : Nat) : Out :=
  match s.inFabric cid acc with
  | none => .next s
  | some (c, a) =>
    match a.lanes.find? (fun l => l.lane == lane && !l.done) with
    | none => .next s
    | some l => performLane c a l (loadLane c a l) s

/-- Run a step for each lane in turn until one stops. -/
def forLanes (f : State → Nat → Out) : List Nat → State → Out
  | [], s => .next s
  | i :: is, s =>
    match f s i with
    | .next s' => forLanes f is s'
    | .fault r => .fault r
    | .refused r => .refused r

/-- A place of the child-queue area: 192 bytes, a packet and the copy of a record (R398). -/
def State.childPlace (s : State) (slot : Nat) : Nat := (s.word .dev 0x185).toNat / 4096 * 4096 + 192 * slot

/-- The lowest place that no packet holds; a launch's reservation keeps one for it (R220, R416). -/
def State.childSlot (s : State) : Option Nat :=
  (List.range (s.word .dev 0x186).toNat).find? (fun i => !s.childq.any (fun p => p.slot == i))

/-- A child's packet (Table 19-3) with PARENT and TYPE, and the copy of its record after it. -/
def childBytes (parent record : Nat) : List Byte := toBytes 64 (2 ^ 32 + parent % 2 ^ 64 * 2 ^ 192) ++ toBytes 128 record

/-- The record of a LAUNCH has been read: the packet is appended to the child queue, or QUOTA (R220). -/
def launchPacket (c : Cls) (a : Access) (record : Nat) (s : State) : State :=
  let left := ((s.launches.find? (fun l => l.no == c.launch)).map (fun l => l.childLeft)).getD 0
  let answer (x : DWord) (s : State) : State := s.modCls c.id (fun c => match a.sdest with
    | none => c
    | some r => c.setS r x)
  finishAcc c.id a.id (
    match (if left = 0 then none else s.childSlot) with
    | none => answer 2 s
    | some slot =>
      answer 0 { s.hwWrite 0 (s.childPlace slot) (childBytes c.launch record) with
        launches := s.launches.map (fun l => if l.no = c.launch then { l with childLeft := l.childLeft - 1 } else l),
        childq := s.childq ++ [⟨c.vmid, c.launch, c.asid, c.band, slot⟩] })

/-- A LAUNCH reads its record, from a peer if it lies in a peer window (R220, R433). -/
def launchRead (c : Cls) (a : Access) (l : LaneReq) (s : State) : State :=
  if l.peer then
    match s.peerAccess c l 128 .read with
    | (none, s) => s.deliverFault c.id a.id { cause := .prot, addr := eaField l.ea, lane := l.lane }
    | (some v, s) => launchPacket c a v s
  else
    let (bs, s) := s.readLane c l 128 a.pol false
    launchPacket c a (ofBytes bs) s

/-- POL of an acquire load chooses whether its lines are in L1 afterwards (R258). -/
def allocAcquired (c : Cls) (a : Access) (s : State) : State :=
  if a.pol = 1 ∨ c.level = 0 then s
  else
    a.lanes.foldl (fun s l =>
      if l.l1ok && !l.win && !l.peer && (s.pinAt l.pa).isNone && (s.l1find c.core c.vmid l.pa).isNone then
        s.fillL1 c.core c.vmid c.asid l a.pol
      else s) s

/-- A load whose every lane's value is bound completes; an acquire load then invalidates the core's L1 (R119, R258). -/
def settleLoad (cid acc : Nat) (s : State) : State :=
  match s.inFabric cid acc with
  | none => s
  | some (c, a) =>
    if !a.complete then s
    else
      let s := match a.op with
        | .loadAcquire => allocAcquired c a (s.acquire c.core a.scope)
        | _ => s
      finishAcc cid acc s

/-- A return of the request belongs to a halted context's generation, if one is still out: it is discarded and writes nothing (R392). -/
def State.lateReturn (s : State) (cid acc : Nat) : Option State :=
  match s.ghosts.find? (fun g => g.cls == cid && g.acc == acc) with
  | none => none
  | some g => some { s with ghosts := s.ghosts.erase g }

/-- LOAD_VALUE_RETURN (R39, R116, R254): the values of some lanes of an outstanding load return. -/
def execLoadValueReturn (cid acc : Nat) (lanes : Mask) (s : State) : Out :=
  match s.lateReturn cid acc, s.inFabric cid acc with
  | some s', _ => .next s'
  | none, none => .next s
  | none, some (c, a) =>
    match a.op with
    | .load _ | .loadAcquire | .loadScratch _ | .cld _ _ _ | .physLoad =>
      match forLanes (tryLoadLane cid acc) (lanesOf c.lanes lanes) s with
      | .next s' => .next (settleLoad cid acc s')
      | .fault r => .fault r
      | .refused r => .refused r
    | .loadScalar _ =>
      match tryLoadLane cid acc s 0x7FFF with
      | .next s' => .next (settleLoad cid acc s')
      | .fault r => .fault r
      | .refused r => .refused r
    | .launch =>
      match a.lanes.head? with
      | none => .next s
      | some l => performLane c a l (launchRead c a l) s
    | .store _ | .storeScalar _ | .storeRelease _ | .storeScratch _ | .atomic _ | .mred _ _ | .mredF _ | .rlds _ _ | .physStore
    | .tlk _ | .copy _ | .slotGet | .slotSwap _ _ => .next s

/-! ### Stores -/

/-- With this lane, the store's lanes that have been performed rewrite the whole of its sector (R453). -/
def Access.rewrites (a : Access) (l : LaneReq) : Bool :=
  let put := (a.lanes.filter (fun m => (m.done || m.lane == l.lane) && !m.peer && sector m.pa == sector l.pa)).map (fun m => m.pa % 32)
  (List.range 32).all (fun i => put.any (fun o => decide (o ≤ i ∧ i < o + a.op.size)))

/-- A higher lane of the same store writes the same bytes: its value is the one kept (R114). -/
def Access.shadowed (a : Access) (l : LaneReq) : Bool :=
  a.lanes.any (fun m => decide (l.lane < m.lane) && m.meets a.op.size l a.op.size)

/-- A store of one lane is performed at its place (R115, R255). -/
def storeLane (c : Cls) (a : Access) (l : LaneReq) (s : State) : State :=
  let n := a.op.size
  let bs := toBytes n l.data
  let done (s : State) : State := s.doneLane c.id a.id l.lane
  match a.op with
  | .storeScratch _ =>
    if a.shadowed l then done s
    else
      match s.scratchPlace c.form l.ea.toNat n with
      | none => done s
      | some (f, off) => done (s.writeScratch f.id off bs)
  | _ =>
    if a.shadowed l then done s
    else if l.peer then
      match s.peerAccess c l n (.write bs) with
      | (none, s) => s.deliverFault c.id a.id { cause := .prot, write := true, addr := eaField l.ea, lane := l.lane }
      | (some _, s) => done s
    else
      let (count, scope) := match a.op with
        | .storeRelease k => (k, a.scope)
        | _ => (s.releaseCount c.tag, 0)
      done ((s.recordLane c l n a.sync count).writeLane c l a.pol scope (a.rewrites l) bs)

/-- A store, or a returned entry of a store buffer, that is complete leaves it. -/
def settleStore (cid acc : Nat) (s : State) : State :=
  match s.inFabric cid acc with
  | none => s
  | some (_, a) => if a.complete then finishAcc cid acc s else s

/-- STORE_PERFORMED (R61, R103, R115, R255): one lane's write of a store in the store buffer is performed. -/
def execStorePerformed (cid acc lane : Nat) (s : State) : Out :=
  match s.inFabric cid acc with
  | none => .next s
  | some (c, a) =>
    match a.op with
    | .store _ | .storeScalar _ | .storeRelease _ | .storeScratch _ | .physStore =>
      match a.lanes.find? (fun l => l.lane == lane && !l.done) with
      | none => .next s
      | some l => performLane c a l (fun s => settleStore cid acc (storeLane c a l s)) s
    | .load _ | .loadScalar _ | .loadAcquire | .loadScratch _ | .atomic _ | .mred _ _ | .mredF _ | .rlds _ _ | .cld _ _ _
    | .physLoad | .tlk _ | .launch | .copy _ | .slotGet | .slotSwap _ _ => .next s

/-! ### Atomics and reductions -/

/-- The new word of an operation at a monitor. -/
def monitorNew (op : AccOp) (old data cmp : Nat) : Nat :=
  match op with
  | .atomic f => atomNew f old data cmp
  | .mred n f => mredNew n f old data
  | .mredF f => mredFNew f old data
  | _ => old

/-- The code a peer request carries for an operation. -/
def AccOp.peerFn : AccOp → Nat
  | .atomic f => match f with
    | .add => 0 | .min => 1 | .max => 2 | .and => 3 | .or => 4 | .xor => 5 | .xch => 6 | .cas => 7 | .fadd => 8
  | .mred _ f => 16 + (match f with
    | .add => 0 | .min => 1 | .max => 2 | .minn => 3 | .maxn => 4 | .and => 5 | .or => 6 | .xor => 7)
  | .mredF f => 32 + (match f with
    | .add => 0 | .min => 1 | .max => 2)
  | _ => 64

/-- One lane's operation is performed at its monitor, and an atomic's old value returns (R111, R128, R260, R262). -/
def monitorLane (c : Cls) (a : Access) (l : LaneReq) (s : State) : State :=
  let n := a.op.size
  let back (v : Nat) (s : State) : State :=
    (if a.op.isAtomic then s.bindValue c.id a l.lane v else s).doneLane c.id a.id l.lane
  if l.peer then
    match s.peerAccess c l n (.atomic a.op.peerFn l.data l.cmp) with
    | (none, s) => s.deliverFault c.id a.id { cause := .prot, write := true, addr := eaField l.ea, lane := l.lane }
    | (some v, s) => back (v % 2 ^ 32) s
  else
    let s := s.cleanL1 (fun x => x.at_ c.core c.vmid l.pa && c.level != 0)
    let s := if c.level = 0 then s else s.settlePin l.pa n
    let old := s.physNum (l.via c.level c.vmid) (s.keyId l.key) l.pa n
    let s := (s.recordLane c l n true (s.releaseCount c.tag)).writeHome c l (toBytes n (monitorNew a.op old l.data l.cmp))
    back old (if c.level = 0 then s else s.dropL1 c.core c.vmid l.pa n)

/-- MONITOR_ATOMIC (R111, R112, R114, R128): the lowest lane not yet performed of an atomic or a posted reduction. -/
def execMonitorAtomic (cid acc : Nat) (s : State) : Out :=
  match s.inFabric cid acc with
  | none => .next s
  | some (c, a) =>
    match a.op with
    | .atomic _ | .mred _ _ | .mredF _ =>
      match a.lanes.find? (fun l => !l.done) with
      | none => .next (finishAcc cid acc s)
      | some l => performLane c { a with pol := 1 } l (fun s => settleStore cid acc (monitorLane c a l s)) s
    | .load _ | .loadScalar _ | .loadAcquire | .loadScratch _ | .store _ | .storeScalar _ | .storeRelease _ | .storeScratch _
    | .rlds _ _ | .cld _ _ _ | .physLoad | .physStore | .tlk _ | .launch | .copy _ | .slotGet | .slotSwap _ _ => .next s

/-! ### Strict mode (R131) -/

/-- An access refused with RETRY. -/
def State.inRetry (s : State) (cid acc : Nat) : Option (Cls × Access × Nat) :=
  match s.getCls cid with
  | none => none
  | some c =>
    match c.mem.find? (fun a => a.id == acc) with
    | none => none
    | some a =>
      match a.stage with
      | .retry since => some (c, a, since)
      | _ => none

/-- Some lane not yet performed is still refused. -/
def State.stillRefused (s : State) (c : Cls) (a : Access) : Bool := a.lanes.any (fun l => !l.done && s.strictRefuses c a l)

/-- STRICT_RETRY: the memory pipe reissues the access; refused again it goes on waiting. -/
def execStrictRetry (cid acc : Nat) (s : State) : Out :=
  match s.inRetry cid acc with
  | none => .next s
  | some (c, a, _) =>
    if s.stillRefused c a then .next s
    else .next (s.modCls cid (fun c => c.modAcc acc (fun a => { a with stage := .fabric })))

/-- STRICT_TIMEOUT: refused for 65,536 cycles, the access raises STRICT, whose disposition replays or drops it. -/
def execStrictTimeout (cid acc : Nat) (s : State) : Out :=
  match s.inRetry cid acc with
  | none => .next s
  | some (c, a, since) =>
    if s.time < since + 65536 ∨ !s.stillRefused c a then .next s
    else
      let l := (a.lanes.find? (fun l => !l.done && s.strictRefuses c a l)).getD { lane := 0x7FFF, ea := 0 }
      .next (s.stopAccess cid acc { cause := .strict, addr := eaField l.ea, lane := l.lane, write := a.op.need.writes })

/-! ### Peer and gather answers -/

/-- PEER_TIMEOUT (R434): a peer request with no answer after 100 µs ends in a stage-1 XLATE. -/
def execPeerTimeout (cid acc : Nat) (s : State) : Out :=
  match s.inFabric cid acc with
  | none => .next s
  | some (c, a) =>
    match a.lanes.find? (fun l => l.peer && !l.done) with
    | none => .next s
    | some l =>
      if s.time < a.sent + peerTime ∨ !s.logRoom c a then .next s
      else
        .next (s.deliverFault cid acc
          { cause := .xlate, write := a.op.need.writes, addr := eaField l.ea, lane := l.lane, aux := a.op.size })

/-- An RLDS in flight, with the count of replicas its sets name. -/
def State.gathering (s : State) (cid acc : Nat) : Option (Cls × Access × Nat) :=
  match s.inFabric cid acc with
  | none => none
  | some (c, a) =>
    match a.op with
    | .rlds _ _ =>
      some (c, a, a.lanes.foldl (fun n l => max n (((s.replicaSet c.vmid l.pa).map (fun r => r.2.2.2)).getD 0)) 0)
    | _ => none

/-- The fault of an RLDS whose gather failed (R435). -/
def gatherFault (cid acc : Nat) (a : Access) (s : State) : State :=
  match a.lanes.head? with
  | none => s
  | some l => s.deliverFault cid acc { cause := .xlate, addr := eaField l.ea, lane := l.lane, aux := 4 }

/-- GATHER_RESPONSE (R264, R435): the sums the switch sends within 1 ms, with the number of replicas summed. A NaN sum is canonical. -/
def execGatherResponse (cid acc count : Nat) (sums : List Word) (s : State) : Out :=
  match s.lateReturn cid acc, s.gathering cid acc with
  | some s', _ => .next s'
  | none, none => .next s
  | none, some (c, a, want) =>
    if a.sent + gatherTime ≤ s.time then .next s
    else if count < want then .next (if s.logRoom c a then gatherFault cid acc a s else s)
    else
      let canon (w : Word) : Nat := match a.op with
        | .rlds true _ =>
          (canon16 (bits w.toNat 15 0)) + (canon16 (bits w.toNat 31 16)) * 2 ^ 16
        | .rlds false false => if bits w.toNat 30 23 = 255 ∧ bits w.toNat 22 0 ≠ 0 then 0x7FC00000 else w.toNat
        | _ => w.toNat
      let s := (a.lanes.zipIdx).foldl (fun s p => s.bindValue cid a p.1.lane (canon (sums.getD p.2 0))) s
      .next (finishAcc cid acc s)
where
  /-- A BF16 element, canonical when it is a NaN. -/
  canon16 (x : Nat) : Nat := if bits x 14 7 = 255 ∧ bits x 6 0 ≠ 0 then 0x7FC0 else x

/-- GATHER_TIMEOUT (R435): no response within 1 ms. -/
def execGatherTimeout (cid acc : Nat) (s : State) : Out :=
  match s.gathering cid acc with
  | none => .next s
  | some (c, a, _) =>
    if s.time < a.sent + gatherTime ∨ !s.logRoom c a then .next s else .next (gatherFault cid acc a s)

end Sys2Proof.Machine
end

