-- ==== Sys2Proof/Machine/Content.lean ====
section
/-!
DEFINITION. Content stores: descriptors, names, lookup-or-allocate, reference counts, release, slots, tree reads, and the CA and
CLD instructions (07_content.md R140–R161, R273–R275).
-/

namespace Sys2Proof.Machine

/-! ### Descriptors and names (Tables 7-1, 7-2) -/

def descSalt (d : BitVec 512) : Nat := bits d.toNat 511 256
def descEn (d : BitVec 512) : Bool := bit d.toNat 193
def descTest (d : BitVec 512) : Bool := bit d.toNat 192

def nameHash (n : BitVec 128) : Nat := n.toNat / 256
def nameOrd (n : BitVec 128) : Nat := n.toNat % 256
def mkName (h o : Nat) : BitVec 128 := BitVec.ofNat 128 (h * 256 + o)

def CLine.name (l : CLine) : BitVec 128 := mkName l.hash l.ord

/-- Live or permanent: the name may be used. -/
def CLine.usable (l : CLine) : Bool := l.state != .dying

def CStore.find (st : CStore) (n : BitVec 128) : Option CLine := st.lines.find? (fun l => l.hash == nameHash n && l.ord == nameOrd n)

/-- The line of a name that is live. -/
def CStore.live (st : CStore) (n : BitVec 128) : Option CLine :=
  match st.find n with
  | none => none
  | some l => if l.usable then some l else none

/-- The monitor of a name's bucket: that of the quad of its index line's home slice (R111, R150); of a line that the tables do not
map, one of the 64 (DESIGN CHOICE: log entry 12). -/
def State.monitorOf (s : State) (st : CStore) (n : BitVec 128) : Nat :=
  let va := descIbase st.desc + 512 * (nameHash n % 2 ^ descNb st.desc)
  match s.walk st.vmid st.asid va .none with
  | .ok p => homeSlice (p.pa + va % p.size)
  | .error _ => va / 512 % 64

/-- The fold of test naming: byte j is the XOR of the bytes i with i mod 15 = j (R160). -/
def testFold (data : List Byte) : Nat :=
  ofBytes ((List.range 15).map (fun j => (List.range 9).foldl (fun x q => x ^^^ data.getD (15 * q + j) 0) 0))

/-- hash120 (R146, R160). -/
def CStore.hash (st : CStore) (node : Bool) (data : List Byte) : Nat :=
  if descTest st.desc then testFold data
  else ofBytes (shake256 (toBytes 32 (descSalt st.desc) ++ (if node then 2 else 1) :: data) 15)

/-- The eight child names of a node's bytes (R144). -/
def childNames (data : List Byte) : List (BitVec 128) :=
  (List.range 8).map (fun c => BitVec.ofNat 128 (ofBytes ((data.drop (16 * c)).take 16)))

/-! ### Reference counts (R153, R154) -/

def CStore.modLine (st : CStore) (n : BitVec 128) (f : CLine → CLine) : CStore :=
  { st with lines := st.lines.map (fun l => if l.hash = nameHash n ∧ l.ord = nameOrd n then f l else l) }

/-- Add one reference; at the limit the line becomes permanent. -/
def CStore.incr (st : CStore) (n : BitVec 128) : CStore :=
  st.modLine n (fun l =>
    if l.state = .permanent then l
    else if 0xFFFFFFFF ≤ l.ref then { l with state := .permanent } else { l with ref := l.ref + 1 })

/-- Take one reference from a live line; at zero it is dying, and waits in its monitor's release queue. -/
def CStore.decr (st : CStore) (n : BitVec 128) : CStore :=
  match st.live n with
  | none => st
  | some l =>
    if l.state = .permanent then st
    else if l.ref ≤ 1 then
      { st.modLine n (fun l => { l with ref := 0, state := .dying }) with relq := st.relq ++ [n] }
    else st.modLine n (fun l => { l with ref := l.ref - 1 })

/-- An operation's outcome: the store after it and the values it returns, or its event. -/
abbrev CResult := Except Cause (CStore × List DWord)

def nameWords (n : BitVec 128) : List DWord := [n.setWidth 64, (n >>> 64).setWidth 64]

/-- Lookup-or-allocate (R152, R147). -/
def CStore.intern (st : CStore) (node : Bool) (data : List Byte) : Except Cause (CStore × BitVec 128) :=
  if data.all (fun b => b == 0) then .ok (st, 0)
  else
    let h := st.hash node data
    match st.lines.find? (fun l => l.usable && l.hash == h && l.node == node && l.data == data) with
    | some l => .ok (st.incr l.name, l.name)
    | none =>
      let held (o : Nat) : Bool := st.lines.any (fun l => l.hash == h && l.ord == o)
      match (List.range 256).find? (fun o => !held o && !(o == 0 && h == 0)) with
      | none => .error .cacoll
      | some o =>
        if descLines st.desc ≤ st.lines.length ∨ 28 * 2 ^ descNb st.desc ≤ st.lines.length then .error .cafull
        else
          let st := { st with lines := { hash := h, ord := o, node := node, data := data, ref := 1, state := .live } :: st.lines }
          let st := if node then ((childNames data).filter (fun n => n != 0)).foldl (fun st n => st.incr n) st else st
          .ok (st, mkName h o)

/-- A node's children must be null or live (Table 7-4). -/
def CStore.internNode (st : CStore) (data : List Byte) : Except Cause (CStore × BitVec 128) :=
  if (childNames data).any (fun n => n != 0 && (st.live n).isNone) then .error .caname else st.intern true data

/-- CA.STAT's value (R273). -/
def CStore.stat (st : CStore) (n : BitVec 128) : DWord :=
  if n = 0 then 0
  else
    match st.find n with
    | none => 0
    | some l =>
      let state := match l.state with
        | .live => 1
        | .dying => 2
        | .permanent => 3
      BitVec.ofNat 64 (l.ref % 2 ^ 32 + (if l.node then 2 else 1) * 2 ^ 32 + state * 2 ^ 34)

/-- A named operation at its bucket monitor (Table 7-4). The index and node areas are not reached through the tables, so no operation
faults for want of a translation of IBASE or DBASE (DESIGN CHOICE: log entry 12). -/
def CStore.perform (st : CStore) (r : CReq) : CResult :=
  let named (x : Except Cause (CStore × BitVec 128)) : CResult :=
    match x with
    | .error c => .error c
    | .ok (st, n) => .ok (st, nameWords n)
  match r with
  | .loa data _ => named (st.intern false data)
  | .node data _ => named (st.internNode data)
  | .ref n => if n = 0 then .ok (st, []) else if (st.live n).isNone then .error .caname else .ok (st.incr n, [])
  | .rel n => if n = 0 then .ok (st, []) else if (st.live n).isNone then .error .caname else .ok (st.decr n, [])
  | .stat n _ => .ok (st, [st.stat n])

/-- The register a named operation's result goes to. -/
def CReq.dest : CReq → Reg
  | .loa _ rd | .node _ rd | .stat _ rd => rd
  | .ref _ | .rel _ => 0

/-! ### Slots (R149, Table 7-3) -/

def slotOk (w : Nat) : Bool :=
  bits w 255 208 == 0 && bits w 199 196 == 0 && decide (bits w 195 192 ≤ 8) && decide (bits w 191 128 ≤ 128 * 8 ^ bits w 195 192)

def slotName (w : Nat) : BitVec 128 := BitVec.ofNat 128 w

/-! ### Reading a tree (R148, R159) -/

/-- The leaf bytes of leaf `leaf` of a tree of depth d. -/
def CStore.leafOf (st : CStore) : Nat → BitVec 128 → Nat → Option (List Byte)
  | d, n, leaf =>
    if n = 0 then some (List.replicate 128 0)
    else
      match st.live n with
      | none => none
      | some l =>
        match d with
        | 0 => if l.node then none else some l.data
        | d + 1 => if l.node then st.leafOf d ((childNames l.data).getD (leaf / 8 ^ d % 8) 0) leaf else none

/-- n bytes at offset o of a tree, within one leaf. -/
def CStore.treeBytes (st : CStore) (d : Nat) (n : BitVec 128) (o len : Nat) : Option (List Byte) :=
  match st.leafOf d n (o / 128) with
  | none => none
  | some bs => some ((bs.drop (o % 128)).take len)

/-! ### Stores in the state -/

def State.storeAt (s : State) (vmid ix : Nat) : Option CStore := s.stores.find? (fun st => st.vmid == vmid && st.ix == ix)

def State.putStore (s : State) (st : CStore) : State :=
  { s with stores := st :: s.stores.filter (fun x => !(x.vmid == st.vmid && x.ix == st.ix)) }

/-- The class's store, when it is enabled (R143, R274). -/
def State.myStore (s : State) (c : Cls) : Option CStore :=
  match c.cstore with
  | none => none
  | some ix =>
    match s.storeAt c.vmid ix with
    | none => none
    | some st => if descEn st.desc then some st else none

/-! ### Installing a store (R140–R142) -/

/-- Refusal of R141; `live` says whether the store holds any live line. -/
def State.descRefused (s : State) (vmid : Nat) (old new : BitVec 512) (live : Bool) : Bool :=
  let d := new.toNat
  bits d 255 194 != 0 || bits d 191 186 != 0 || bits d 179 160 != 0 || decide (descNb new < 4 ∨ 24 < descNb new)
    || descLines new == 0 || descDbase new % 4096 != 0 || descIbase new % 4096 != 0
    || (live && (descSalt new != descSalt old || descNb new != descNb old || descTest new != descTest old))
    || (descTest new && (s.confidential || !(s.word (.part vmid) 0x285).getLsbD 0))

/-- CASTAT after a command: status, store, live lines. -/
def State.setCastat (s : State) (vmid ix status : Nat) : State :=
  let live := ((s.storeAt vmid ix).map (fun st => (st.lines.filter CLine.usable).length)).getD 0
  s.setWord (.part vmid) 0x042 (BitVec.ofNat 64 (status + ix * 2 ^ 8 + (live % 2 ^ 32) * 2 ^ 32))

/-- A write of CADESC: command 0 INSTALL, 1 FRESH, else refused; `addr` is s[ra] whole. FRESH with EN set answers BUSY before the
descriptor is read (DESIGN CHOICE: log entry 12), and what monitors had yet to release of the store it empties has no effect. -/
def cadesc (vmid asid : Nat) (addr : Nat) (s : State) : State :=
  let ix := (s.word (.part vmid) 0x040).toNat % 8
  let st := (s.storeAt vmid ix).getD { vmid := vmid, ix := ix }
  if bits addr 5 2 ≠ 0 ∨ 2 ≤ bits addr 1 0 then s.setCastat vmid ix 1
  else if bits addr 1 0 = 1 ∧ descEn st.desc then s.setCastat vmid ix 3
  else
    match s.unitNum vmid asid (addr / 64 * 64) 64 with
    | (.error _, s) => s.setCastat vmid ix 1
    | (.ok n, s) =>
      let new : BitVec 512 := BitVec.ofNat 512 n
      if bits addr 1 0 = 0 then
        if s.descRefused vmid st.desc new (st.lines.any CLine.usable) then s.setCastat vmid ix 1
        else (s.putStore { st with desc := new, asid := asid }).setCastat vmid ix 0
      else if s.descRefused vmid st.desc new false then s.setCastat vmid ix 1
      else
        let s := { s with creqs := s.creqs.filter (fun q => !(q.cls.isNone && q.vmid == vmid && q.store == some ix)) }
        (s.putStore { st with desc := new, asid := asid, lines := [], relq := [] }).setCastat vmid ix 0

/-- CADESC_INSTALL (R142). -/
def execCadescInstall (vmid asid addr : Nat) (s : State) : Out := .next (cadesc vmid asid (addr / 64 * 64) s)

/-- CADESC_FRESH (R142). -/
def execCadescFresh (vmid asid addr : Nat) (s : State) : Out := .next (cadesc vmid asid (addr / 64 * 64 + 1) s)

/-! ### The CA instructions (R273, R274) -/

/-- The issuing split waits for a request at a monitor. -/
def request (r : CReq) (s : State) : State :=
  if s.cls.pipeHeld then hold s
  else
  let q : ContentReq := { id := s.nextId, vmid := s.cls.vmid, store := s.cls.cstore, cls := some (s.cls.id, s.iss.split), req := r,
                          pc := s.iss.pc, words := s.iss.words }
  waitOn (.content q.id) { s.fresh with creqs := s.creqs ++ [q] }

/-- A class-wide operation on the class's enabled store, which is tested before the operation's address (DESIGN
CHOICE: log entry 12). -/
def onStore (body : State → State) : State → State :=
  classWide (fun s => if (s.myStore s.cls).isNone then raise { cause := .caname } s else body s)

/-- CA.LOA and CA.NODE: 128 bytes from the scratchpad, after every earlier scratchpad store of the class. -/
def caBytes (ra : Reg) (mk : List Byte → CReq) (s : State) : State :=
  let a := (s.getS ra).toNat
  let bad (c : Cause) : State := raiseScratch 128 false none { lane := 0x7FFF, ea := a } c s
  match s.scratchAddr s.cls.form a 128 with
  | some c => bad c
  | none =>
    if s.cls.mem.any (fun x => x.op.space == 1 && x.counts) then hold s
    else
      match s.scratchLate s.cls.form a 128 false, s.scratchPlace s.cls.form a 128 with
      | some c, _ => bad c
      | none, some (f, off) => request (mk (s.readScratch f.id off 128)) s
      | none, none => s

/-- CA.LOA (R152). -/
def execCaLoa (rd ra : Reg) (s : State) : Out :=
  .next (guarded (.caLoa rd ra) (onStore (caBytes ra (fun bs => .loa bs rd))) s)

/-- CA.NODE (Table 7-4). -/
def execCaNode (rd ra : Reg) (s : State) : Out :=
  .next (guarded (.caNode rd ra) (onStore (caBytes ra (fun bs => .node bs rd))) s)

/-- A name in a scalar pair. -/
def State.nameAt (s : State) (ra : Reg) : BitVec 128 := (s.getS (ra + 1)).setWidth 128 <<< 64 ||| (s.getS ra).setWidth 128

/-- CA.REF. -/
def execCaRef (ra : Reg) (s : State) : Out :=
  .next (guarded (.caRef ra) (onStore (fun s => request (.ref (s.nameAt ra)) s)) s)

/-- CA.REL (R154). -/
def execCaRel (ra : Reg) (s : State) : Out :=
  .next (guarded (.caRel ra) (onStore (fun s => request (.rel (s.nameAt ra)) s)) s)

/-- CA.STAT. -/
def execCaStat (rd ra : Reg) (s : State) : Out :=
  .next (guarded (.caStat rd ra) (onStore (fun s => request (.stat (s.nameAt ra) rd) s)) s)

/-- A slot operation: checked under R97 with alignment 32, then at the slot's monitor; its split waits. -/
def slotAccess (op : AccOp) (rd ra : Reg) (s : State) : State :=
  let a := { s.access none op (scalarReq (s.getS ra).toNat 0) with sdest := some rd, srcs := [s.getS ra] }
  match firstFault a.lanes (fun l => addrFault s.cls.level 32 32 l.ea) with
  | some (l, cause) => raise { cause := cause, addr := eaField l.ea, aux := 32, write := op.need.writes } s
  | none => issueHeld .content a s

/-- CA.GET (R157). -/
def execCaGet (rd ra : Reg) (s : State) : Out :=
  .next (guarded (.caGet rd ra) (onStore (slotAccess .slotGet rd ra)) s)

/-- CA.SWAP (R156): the expected name is in the pair rd, the new value in the quartet rb. -/
def execCaSwap (rd ra rb : Reg) (s : State) : Out :=
  .next (guarded (.caSwap rd ra rb) (onStore (fun s =>
    let w : BitVec 256 := (s.nameAt (rb + 2)).setWidth 256 <<< 128 ||| (s.nameAt rb).setWidth 256
    slotAccess (.slotSwap (s.nameAt rd) w) rd ra s)) s)

/-! ### Requests performed -/

/-- A named request is performed, and its split goes on or takes its event. -/
def performRequest (q : ContentReq) (s : State) : State :=
  let s := { s with creqs := s.creqs.filter (fun x => x.id != q.id) }
  let back (f : State → State) (s : State) : State :=
    match q.cls with
    | none => s
    | some (cid, split) => (resumeAs cid split q.pc q.words f s).settleEnding
  match s.storeAt q.vmid (q.store.getD 8) with
  | none => back (raise { cause := .caname }) s
  | some st =>
    match st.perform q.req with
    | .error cause => back (raise { cause := cause }) s
    | .ok (st', vals) => back (fun s => retire (s.setSRun q.req.dest vals)) (s.putStore st')

/-- Read a slot: at its home, or of a peer (R149, R433). -/
def State.slotRead (s : State) (c : Cls) (l : LaneReq) : Option Nat × State :=
  if l.peer then
    let (v, s) := s.peerAccess c l 32 .read
    (v.map (fun v => v % 2 ^ 256), s)
  else
    let (bs, s) := (s.settlePin l.pa 32).readLane c l 32 1 true
    (some (ofBytes bs), s)

/-- Write it; false when the peer refuses. R434 names no request on a slot: a CA.SWAP in a peer window sends a read and then a write of 32
bytes, with the reference on the new name taken between the two (DESIGN CHOICE: log entry 62). -/
def State.slotWrite (s : State) (c : Cls) (l : LaneReq) (new : Nat) : Bool × State :=
  if l.peer then
    let (v, s) := s.peerAccess c l 32 (.write (toBytes 32 new))
    (v.isSome, s)
  else
    let s := (s.recordLane c l 32 true (s.releaseCount c.tag)).writeHome c l (toBytes 32 new)
    (true, s.dropL1 c.core c.vmid l.pa 32)

/-- The name that a slot operation adds a reference to, once the slot has been read (R156, R157). -/
def slotRef (op : AccOp) (w : Nat) : BitVec 128 :=
  match op with
  | .slotSwap e new => if slotName w = e then slotName new.toNat else 0
  | _ => slotName w

/-- A reference that a slot's monitor adds comes after the releases of that monitor sent before it to the name's monitor (R150). -/
def State.refWaits (s : State) (c : Cls) (st : CStore) (slot : Nat) (n : BitVec 128) : Bool :=
  n != 0 && s.creqs.any (fun q => q.from_ == some (homeSlice slot) && q.vmid == c.vmid && q.store == c.cstore && (match q.req with
    | .rel x => s.monitorOf st x == s.monitorOf st n
    | _ => false))

/-- A slot operation is performed at the slot's monitor as one event (R149, R156, R157); a reference that it adds comes after the
releases that the same monitor has sent to the name's monitor (R150). -/
def performSlot (c : Cls) (a : Access) (l : LaneReq) (s₀ : State) : State :=
  let rd := a.sdest.getD 0
  let mon := homeSlice l.pa
  let back (f : State → State) (s : State) : State :=
    (resumeAs c.id a.split a.pc a.words f (s.modCls c.id (fun c => c.dropAcc a.id))).settleEnding
  match s₀.slotRead c l with
  | (none, s) => s.deliverFault c.id a.id { cause := .prot, addr := eaField l.ea, lane := l.lane, write := a.op.need.writes }
  | (some w, s) =>
    let p := slotName w
    let n := slotRef a.op w
    let fail := back (raise { cause := .caname, addr := eaField l.ea }) s
    match s.storeAt c.vmid (c.cstore.getD 8) with
    | none => fail
    | some st =>
      if !slotOk w then fail
      else if s.refWaits c st l.pa n then s₀
      else
        let refd (s : State) : State := if n = 0 then s else s.putStore (st.incr n)
        match a.op with
        | .slotSwap e new =>
          if !slotOk new.toNat then fail
          else if p ≠ e then back (fun s => retire (s.setSRun rd (nameWords p))) s
          else if n ≠ 0 ∧ (st.live n).isNone then fail
          else
            match (refd s).slotWrite c l new.toNat with
            | (false, _) => s.deliverFault c.id a.id { cause := .prot, addr := eaField l.ea, lane := l.lane, write := true }
            | (true, s) =>
              let s :=
                if p = 0 then s
                else
                  { s.fresh with
                    creqs := s.creqs ++
                      [{ id := s.nextId, vmid := c.vmid, store := c.cstore, cls := none, from_ := some mon, req := .rel p }] }
              back (fun s => retire (s.setSRun rd (nameWords p))) s
        | _ =>
          if n ≠ 0 ∧ (st.live n).isNone then fail
          else back (fun s => retire (s.setSRun rd ((List.range 4).map (fun i => BitVec.ofNat 64 (w / 2 ^ (64 * i)))))) (refd s)

/-! ### Building a tree from scratchpad (R159, R326) -/

/-- Take a reference of the engine back from each name. -/
def CStore.decrAll (st : CStore) (l : List (BitVec 128)) : CStore := (l.filter (fun n => n != 0)).foldl (fun st n => st.decr n) st

/-- The 128 bytes of leaf i of a build: bytes beyond the box are zero. -/
def State.buildLeaf (s : State) (e : EngineOp) (i : Nat) : List Byte :=
  match s.scratchPlace e.form e.far.toNat (shBytes e.shape) with
  | none => []
  | some (f, off) =>
    (List.range 128).map (fun j =>
      if 128 * i + j < shBytes e.shape then f.scratch.get (off + swizzle (shSwz e.shape) (128 * i + j)) else 0)

/-- Lines on the level a build works on; the rest of the tree is null. -/
def EngineOp.lineCount (e : EngineOp) : Nat := (shBytes e.shape + 127) / 128 / 8 ^ e.height +
  (if (shBytes e.shape + 127) / 128 % 8 ^ e.height = 0 then 0 else 1)

/-- The least d with 128·8^d ≥ B. -/
def buildDepth (b : Nat) : Nat := ((List.range 9).find? (fun d => decide (b ≤ 128 * 8 ^ d))).getD 9

/-- The build has its root. -/
def EngineOp.built (e : EngineOp) : Bool := e.height == buildDepth (shBytes e.shape) && decide (1 ≤ e.names.length)

/-- The build's next request: a leaf in offset order, then the nodes level by level; a node that has been performed releases
the engine's references to its children. -/
def CStore.buildStep (st : CStore) (e : EngineOp) (leaf : Nat → List Byte) : Except Cause (CStore × EngineOp) :=
  let e := if e.lineCount ≤ e.names.length then { e with below := e.names, names := [], height := e.height + 1 } else e
  let i := e.names.length
  if e.height = 0 then
    match st.intern false (leaf i) with
    | .error c => .error c
    | .ok (st, n) => .ok (st, { e with names := e.names ++ [n] })
  else
    let kids := (List.range 8).map (fun k => e.below.getD (8 * i + k) 0)
    match st.intern true (kids.flatMap (fun n => toBytes 16 n.toNat)) with
    | .error c => .error c
    | .ok (st, n) => .ok (st.decrAll kids, { e with names := e.names ++ [n] })

def State.modEngine (s : State) (id : Nat) (f : EngineOp → EngineOp) : State :=
  { s with engines := s.engines.map (fun e => if e.id = id then f e else e) }

def State.dropEngine (s : State) (id : Nat) : State := { s with engines := s.engines.filter (fun e => e.id != id) }

/-- What a request at a content monitor brings over the DRAM interface is charged to the tenant of the class that it comes from, one that
a monitor sends to the store's (R422; DESIGN CHOICE: log entry 58). -/
def State.serveContent (s : State) (q : ContentReq) : Bool × State :=
  let asid := ((s.storeAt q.vmid (q.store.getD 8)).map (fun st => st.asid)).getD 0
  let who := (q.cls.bind (fun p => s.getCls p.1)).map (fun c => (c.form, c.asid))
  let form := (who.getD (0, asid)).1
  s.serve (.content q.id) form q.vmid (who.getD (0, asid)).2 (Config.contentController q.id % 24) (Config.contentUnits q.id % 9)

/-- The same of the next request of a build. -/
def State.serveBuild (s : State) (e : EngineOp) : Bool × State :=
  let n := 2 ^ 32 * (e.id + 1) + 2 ^ 28 * e.height + e.names.length
  s.serve (.element e.id) e.form e.vmid e.asid (Config.contentController n % 24) (Config.contentUnits n % 9)

/-- One request of a running build is performed at its monitor. CAFULL and CACOLL release every reference and are raised to
the split (R303). -/
def performBuild (e : EngineOp) (s : State) : State :=
  let fail (c : Cause) (s : State) : State :=
    resumeAs e.cls e.split e.pc e.words (raise { cause := c }) (s.dropEngine e.id)
  match (s.getCls e.cls).bind (fun c => s.storeAt c.vmid (c.cstore.getD 8)) with
  | none => fail .caname s
  | some st =>
    let marked := match s.scratchPlace e.form e.far.toNat (shBytes e.shape) with
      | none => false
      | some (f, off) => s.scratchPoisoned f.id off (shBytes e.shape)
    if marked then fail .ecc (s.putStore (st.decrAll e.held))
    else
      match st.buildStep e (s.buildLeaf e) with
      | .error c => fail c (s.putStore (st.decrAll e.held))
      | .ok (st, e') => (s.putStore st).modEngine e.id (fun _ => e')

/-- A request of a monitor waits for an earlier one of the same monitor to the same target (R150). -/
def State.sentBefore (s : State) (q : ContentReq) : Bool :=
  let target (x : ContentReq) : Option Nat := match x.req with
    | .rel n => (s.storeAt x.vmid (x.store.getD 8)).map (fun st => s.monitorOf st n)
    | _ => none
  q.cls.isNone && (s.creqs.takeWhile (fun x => x.id != q.id)).any (fun x =>
    x.cls.isNone && x.from_ == q.from_ && x.vmid == q.vmid && x.store == q.store && target x == target q)

/-- MONITOR_CONTENT_OPERATION (R150–R157): a request of a class, of a monitor or of an engine's build reaches its monitor and
is performed. Requests that one monitor sends to another are performed in the order sent. -/
def execMonitorContentOperation (req : Nat) (s : State) : Out :=
  match s.creqs.find? (fun q => q.id == req) with
  | some q =>
    if s.sentBefore q then .next s
    else
      match s.serveContent q with
      | (true, s) => .next (performRequest q s)
      | (false, s) => .next s
  | none =>
    match s.allCls.find? (fun c => c.mem.any (fun a => a.id == req)) with
    | none =>
      match s.engines.find? (fun e => e.id == req && e.fn == 7 && e.state == .running && !e.built) with
      | none => .next s
      | some e =>
        match s.serveBuild e with
        | (true, s) => .next (performBuild e s)
        | (false, s) => .next s
    | some c =>
      match s.inFabric c.id req with
      | none => .next s
      | some (c, a) =>
        match a.op, a.lanes.head? with
        | .slotGet, some l | .slotSwap _ _, some l => performLane c { a with pol := 1 } l (performSlot c a l) s
        | _, _ => .next s

/-- RELEASE_QUEUE_ENTRY (R154, R155): a monitor takes the oldest entry of its release queue; a node's children are released in
turn, and the line and its ordinal are freed. -/
def execReleaseQueueEntry (vmid store monitor : Nat) (s : State) : Out :=
  match s.storeAt vmid store with
  | none => .next s
  | some st =>
    match st.relq.find? (fun n => s.monitorOf st n == monitor) with
    | none => .next s
    | some n =>
      let kids := match st.find n with
        | none => []
        | some l => if l.node then (childNames l.data).filter (fun k => k != 0) else []
      let st := { st with lines := st.lines.filter (fun l => !(l.hash == nameHash n && l.ord == nameOrd n)),
                          relq := st.relq.erase n }
      let reqs := kids.zipIdx.map (fun p =>
        ({ id := s.nextId + p.2, vmid := vmid, store := some store, cls := none, from_ := some monitor, req := .rel p.1 } : ContentReq))
      .next { s.putStore st with creqs := s.creqs ++ reqs, nextId := s.nextId + reqs.length }

/-! ### CLD (R275) -/

/-- The checks of one lane before the walk. -/
def cldCheck (s : State) (rd ra rb : Reg) (i : Nat) : Option Cause :=
  let ctl := (s.getS (ra + 2)).toNat
  let d := bits ctl 3 0
  let w := 2 ^ bits ctl 9 8
  let o := (s.getV rb i).toNat
  if bits ctl 7 4 ≠ 0 ∨ bits ctl 63 10 ≠ 0 ∨ 8 < d then some .caname
  else if w = 8 ∧ (rd.toNat % 2 = 1 ∨ !s.cls.inAlloc (rd + 1)) then some .illop
  else if o % w ≠ 0 then some .align
  else if 128 * 8 ^ d ≤ o then some .caname
  else none

/-- CLD: every lane is checked, then walked; its values return as a load's do. -/
def execCld (p : Pfx) (rd ra rb : Reg) (la : La) (s : State) : Out :=
  .next (guarded (.cld p rd ra rb la) (fun s =>
    let lanes := lanesOf s.cls.lanes (s.eff p)
    let ctl := (s.getS (ra + 2)).toNat
    let d := bits ctl 3 0
    let w := 2 ^ bits ctl 9 8
    let bad (i : Nat) (c : Cause) : State :=
      raise { cause := c, lane := i, addr := (s.getV rb i).toNat, aux := if c = .align then w else 0, mask := some (s.eff p) } s
    match lanes.findSome? (fun i => (cldCheck s rd ra rb i).map (fun c => (i, c))) with
    | some (i, c) => bad i c
    | none =>
      match lanes with
      | [] => retire s
      | i0 :: _ =>
        match s.myStore s.cls with
        | none => bad i0 .caname
        | some st =>
          let val (i : Nat) : Option Nat := (st.treeBytes d (s.nameAt ra) (s.getV rb i).toNat w).map ofBytes
          match lanes.find? (fun i => (val i).isNone) with
          | some i => bad i .caname
          | none =>
            if s.cls.pipeHeld then hold s
            else
              let reqs := lanes.map (fun i => ({ lane := i, ea := (s.getV rb i).toNat, data := (val i).getD 0 } : LaneReq))
              let a := { s.access p (.cld (s.nameAt ra) d w) reqs with dest := s.bind rd w, perLane := 4 }
              enter a la.toNat true s.fresh) s)

end Sys2Proof.Machine
end

