-- ==== Sys2Proof/Machine/MatrixMath.lean ====
section
/-!
DEFINITION. Operand-buffer records and elements (R57–R59, R278, R280, R281), the B-store's layout (R283), the sums of a matrix
step (R83–R87) and the values a drain delivers (R88, R89).
-/

namespace Sys2Proof.Machine

/-! ### Reservation records (Table 3-2) and handles (R59) -/

def resBase (r : DWord) : Nat := bits r.toNat 12 0
def resLen (r : DWord) : Nat := bits r.toNat 25 13
def resSoff (r : DWord) : Nat := bits r.toNat 38 26
def resKext (r : DWord) : Nat := bits r.toNat 50 39
def resFmt (r : DWord) : Nat := bits r.toNat 53 51
def resBlen (r : DWord) : Nat := bits r.toNat 59 54

/-- Two records share a unit of the quota. -/
def resOverlap (x y : DWord) : Bool :=
  decide (resBase x < resBase y + resLen y + 1 ∧ resBase y < resBase x + resLen x + 1)

/-- R58, but for the free index. -/
def Cls.resLegal (c : Cls) (r : DWord) : Bool :=
  bits r.toNat 63 60 == 0 && decide (resFmt r < 6)
    && (if resFmt r = 4 then resBlen r == 32 && decide (resSoff r ≤ resLen r) else resBlen r == 0 && resSoff r == 0)
    && resKext r != 0 && decide (resBase r + resLen r + 1 ≤ c.quota)
    && c.obRes.all (fun x => match x with
      | none => true
      | some y => !resOverlap r y)

/-- The lowest free reservation index. -/
def Cls.freeRes (c : Cls) : Option Nat := (List.range 16).find? (fun i => (c.obRes.getD i none).isNone)

def Cls.obGenOf (c : Cls) (i : Nat) : Nat := c.obGen.getD i 0 % 256

/-- The live reservation that a handle names: index and record (R59). -/
def Cls.resOf (c : Cls) (h : DWord) : Option (Nat × DWord) :=
  let i := bits h.toNat 3 0
  if bits h.toNat 63 12 ≠ 0 ∨ bits h.toNat 11 4 ≠ c.obGenOf i then none
  else (c.obRes.getD i none).map (fun r => (i, r))

/-! ### Elements (R278) -/

/-- Half bytes of one element. -/
def nibbles (fmt : Nat) : Nat := if fmt ≤ 1 then 4 else if fmt = 4 then 1 else 2

/-- Bytes of the data area, and of the scale area. -/
def resData (r : DWord) : Nat := if resFmt r = 4 then resSoff r * 64 else (resLen r + 1) * 64
def resScales (r : DWord) : Nat := if resFmt r = 4 then (resLen r + 1 - resSoff r) * 64 else 0

/-- Element e lies in its areas. -/
def elemIn (r : DWord) (e : Nat) : Bool :=
  decide ((e + 1) * nibbles (resFmt r) ≤ 2 * resData r) && (resFmt r != 4 || decide (e / 32 < resScales r))

/-- Group g lies in its areas and below KEXT. -/
def groupIn (r : DWord) (g : Int) : Bool :=
  decide (0 ≤ g ∧ g < resKext r) && elemIn r ((64 * g.toNat + 64) * 32 - 1)

/-- The code of element e in some bytes. -/
def codeAt (m : Memory) (base fmt e : Nat) : Nat :=
  match nibbles fmt with
  | 4 => m.num (base + 2 * e) 2
  | 1 => bits (m.get (base + e / 2)).toNat (4 * (e % 2) + 3) (4 * (e % 2))
  | _ => (m.get (base + e)).toNat

/-- Write the code of element e. -/
def setCode (m : Memory) (base fmt e code : Nat) : Memory :=
  match nibbles fmt with
  | 4 => m.write (base + 2 * e) (toBytes 2 code)
  | 1 => m.set (base + e / 2) (BitVec.ofNat 8 (setBits (m.get (base + e / 2)).toNat (4 * (e % 2) + 3) (4 * (e % 2)) code))
  | _ => m.set (base + e) (BitVec.ofNat 8 code)

/-- Where the scale byte of block b lies. -/
def scaleAt (r : DWord) (b : Nat) : Nat := (resBase r + resSoff r) * 64 + b

/-! ### OB.ST and OB.LD values (Table 13-3, R280, R281) -/

/-- One element of a format other than MXFP4, with its flags. -/
def storeCode (fmt : Nat) (x : Word) : Fl Nat :=
  match fmt with
  | 0 => BF16.convert .rne .ieee (f32 x)
  | 1 => F16.convert .rne .ieee (f32 x)
  | 2 => toFp8 false true (f32 x)
  | 3 => toFp8 true true (f32 x)
  | _ =>
    let i := x.toInt
    let y := max (-128) (min 127 i)
    ⟨(BitVec.ofInt 8 y).toNat, flagIf (y != i) fSAT⟩

/-- The largest of some magnitudes, none of them NaN or infinite. -/
def maxAbs (xs : List FpVal) : FpVal := xs.foldl (fun a x => if a.lt x.absV then x.absV else a) (.fin false 0 0)

/-- The scale and codes of one MXFP4 block, with its flags (R280). -/
def storeBlock (ws : List Word) : Nat × List (Nat) × Word :=
  let xs := ws.map f32
  if xs.any (fun x => match x with
      | .nan _ => true
      | .inf _ => true
      | .fin _ _ _ => false) then (0xFF, xs.map (fun _ => 0), fNV ||| fNX)
  else
    match maxAbs xs with
    | .fin _ m e =>
      if m = 0 then (0, xs.map (fun x => if x.signBit then 8 else 0), 0)
      else
        let s : Int := max (-127) (min 127 ((m.log2 : Int) + e - 2))
        let rs := xs.map (fun x => match x with
          | .fin n m e => E2M1.round .rne .saturate n m (e - s)
          | .nan _ => ⟨0, 0⟩
          | .inf _ => ⟨0, 0⟩)
        ((s + 127).toNat, rs.map (fun r => r.val), rs.foldl (fun f r => f ||| r.flags) 0 &&& (fNX ||| fSAT))
    | .nan _ => (0, [], 0)
    | .inf _ => (0, [], 0)

/-- The value OB.LD delivers for a code, with its scale byte for MXFP4. A signalling code sets no NV: R281's "no other flag" than OF
and NX is taken before R77 (DEDUCED: log entry 70). -/
def loadCode (fmt code scale : Nat) : Fl Word :=
  match fmt with
  | 0 => ⟨(widen BF16 code).word.val, 0⟩
  | 1 => ⟨(widen F16 code).word.val, 0⟩
  | 2 => ⟨(widen E4M3 code).word.val, 0⟩
  | 3 => ⟨(widen E5M2 code).word.val, 0⟩
  | 4 =>
    if scale = 0xFF then ⟨0x7FC00000, 0⟩
    else
      match E2M1.decode code with
      | .fin n m e =>
        let r := F32.rne n m (e + scale - 127)
        ⟨r.word.val, r.flags &&& (fOF ||| (if r.flags &&& fOF ≠ 0 then fNX else 0))⟩
      | .nan _ => ⟨0, 0⟩
      | .inf _ => ⟨0, 0⟩
  | _ => ⟨BitVec.ofInt 32 (sextN 8 code), 0⟩

/-! ### The B-store (Table 13-4) -/

def blockBytes (fmt : Nat) : Nat := if fmt ≤ 1 then 4096 else if fmt = 4 then 1088 else 2048

/-- The code of element (k, j) of the step block at o. -/
def bCode (m : Memory) (fmt o k j : Nat) : Nat :=
  match nibbles fmt with
  | 4 => m.num (o + 64 * j + 2 * k) 2
  | 1 => bits (m.get (o + 16 * j + k / 2)).toNat (4 * (k % 2) + 3) (4 * (k % 2))
  | _ => (m.get (o + 32 * j + k)).toNat

/-! ### The sums of a step (R83–R87) -/

/-- The pairings of R83. -/
def pairOk (a b : Nat) : Bool :=
  match a with
  | 0 => b == 0
  | 1 => b == 1
  | 2 | 3 => b == 2 || b == 3
  | 4 => b == 4
  | 5 => b == 5
  | _ => false

def fmtOf (f : Nat) : Fmt := if f = 0 then BF16 else if f = 1 then F16 else if f = 2 then E4M3 else E5M2

/-- An exact product. -/
def mulExact (a b : FpVal) : FpVal :=
  match a, b with
  | .fin n1 m1 e1, .fin n2 m2 e2 => .fin (n1 != n2) (m1 * m2) (e1 + e2)
  | .nan s, .nan t => .nan (s || t)
  | .nan s, .inf _ => .nan s
  | .nan s, .fin _ _ _ => .nan s
  | .inf _, .nan s => .nan s
  | .fin _ _ _, .nan s => .nan s
  | .inf n1, .inf n2 => .inf (n1 != n2)
  | .inf n1, .fin n2 m _ => if m = 0 then .nan true else .inf (n1 != n2)
  | .fin n1 m _, .inf n2 => if m = 0 then .nan true else .inf (n1 != n2)

/-- floor(p / 2^q) of a product. -/
def floorAt (q : Int) : FpVal → Int
  | .fin n m e =>
    let v : Int := if n then -(m : Int) else m
    if q ≤ e then v * 2 ^ (e - q).toNat else v / 2 ^ (q - e).toNat
  | .nan _ => 0
  | .inf _ => 0

/-- One group of products added to an accumulator (R84). -/
def groupAdd (ps : List FpVal) (acc : Word) : Word :=
  let hasInf (neg : Bool) : Bool := ps.any (fun p => match p with
    | .inf n => n == neg
    | .nan _ => false
    | .fin _ _ _ => false)
  if ps.any (fun p => p.isNan) || (hasInf true && hasInf false) then 0x7FC00000
  else if hasInf true || hasInf false then (F32.add (f32 acc) (.inf (hasInf true))).word.val
  else
    let es := ps.filterMap (fun p => match p with
      | .fin _ m e => if m = 0 then none else some ((m.log2 : Int) + e)
      | .nan _ => none
      | .inf _ => none)
    match es with
    | [] => (F32.add (f32 acc) (.fin false 0 0)).word.val
    | e :: es =>
      let q := (es.foldl max e) - 40
      let sum : Int := (ps.map (floorAt q)).foldl (· + ·) 0
      let r := F32.rne (decide (sum < 0)) sum.natAbs q
      (F32.add (f32 acc) (F32.decode r.val)).word.val

/-- Groups of n in ascending order; `fuel` bounds their number. -/
def groupsAdd (n : Nat) : Nat → List FpVal → Word → Word
  | 0, _, acc => acc
  | fuel + 1, ps, acc =>
    match ps with
    | [] => acc
    | _ :: _ => groupsAdd n fuel (ps.drop n) (groupAdd (ps.take n) acc)

/-- One step of one element: a row of 32 codes of A, a column of 32 codes of B, and their scales (R84, R86, R87). -/
def stepElem (fa fb : Nat) (a b : List Nat) (sa sb : Nat) (acc : Word) : Word :=
  match fa with
  | 5 => acc + BitVec.ofInt 32 (((a.zip b).map (fun p => sextN 8 p.1 * sextN 8 p.2)).foldl (· + ·) 0)
  | 4 =>
    if sa = 0xFF ∨ sb = 0xFF then 0x7FC00000
    else
      let v2 (c : Nat) : Int := match E2M1.decode c with
        | .fin n m e => scaledInt n m e (-1)
        | .nan _ => 0
        | .inf _ => 0
      let t : Int := ((a.zip b).map (fun p => v2 p.1 * v2 p.2)).foldl (· + ·) 0
      let r := F32.rne (decide (t < 0)) t.natAbs ((sa : Int) + sb - 256)
      (F32.add (f32 acc) (F32.decode r.val)).word.val
  | _ =>
    let ps := (a.zip b).map (fun p => mulExact ((fmtOf fa).decode p.1) ((fmtOf fb).decode p.2))
    groupsAdd (if fa ≤ 1 then 4 else 8) 32 ps acc

/-- One K-step of a whole tile: A from group g of a record in the operand buffer, B from the step block at o. -/
def stepTile (ob : Memory) (r : DWord) (g : Nat) (bs : Memory) (fb o : Nat) (el : List Word) : List Word :=
  let fa := resFmt r
  let base := resBase r * 64
  let row (i : Nat) : List Nat := (List.range 32).map (fun k => codeAt ob base fa ((64 * g + i) * 32 + k))
  let col (j : Nat) : List Nat := (List.range 32).map (fun k => bCode bs fb o k j)
  let rows := (List.range 64).map (fun i => (row i, (ob.get (scaleAt r (64 * g + i))).toNat))
  let cols := (List.range 64).map (fun j => (col j, (bs.get (o + 1024 + j)).toNat))
  (List.range 4096).map (fun n =>
    let a := rows.getD (n / 64) ([], 0)
    let b := cols.getD (n % 64) ([], 0)
    stepElem fa fb a.1 b.1 a.2 b.2 (el.getD n 0))

/-! ### What a drain delivers (R88, R89, R292) -/

/-- The guided value of an element with its partner's. -/
def guided1 (w : Word) (ac au : Word) : Fl Word :=
  let d := F32.sub (f32 ac) (f32 au)
  let r := F32.fma (f32 w) (F32.decode d.val) (f32 au)
  ⟨r.word.val, r.flags ||| d.flags⟩

/-- The drain's output formats: 0 F32, 1 BF16, 2 F16, 3 E4M3 saturating. -/
def drainValue (isInt : Bool) (ofmt : Nat) (scale x : Word) : Fl Nat :=
  if ofmt = 4 then ⟨x.toNat, 0⟩
  else
    let v : FpVal := if isInt then .fin (decide (x.toInt < 0)) x.toInt.natAbs 0 else f32 x
    let p := mulExact v (f32 scale)
    match ofmt with
    | 0 => F32.convert .rne .ieee p
    | 1 => BF16.convert .rne .ieee p
    | 2 => F16.convert .rne .ieee p
    | _ => toFp8 false true p

end Sys2Proof.Machine
end

