-- ==== Sys2Proof/Machine/Matrix.lean ====
section
/-!
DEFINITION. The operand buffer, the matrix sequencer, twins, drains, completions and bounds checks (13_isa_matrix.md R276–R298,
R307; R55–R59, R83–R89, R126).
-/

namespace Sys2Proof.Machine

/-! ### Completion specifications (R298, Table 13-8) -/

def compMode (c : DWord) : Nat := bits c.toNat 31 30
def compAddr (c : DWord) : Nat := bits c.toNat 21 0
def compValue (c : DWord) : Nat := bits c.toNat 63 32

/-- Not malformed. -/
def compOk (c : DWord) : Bool :=
  bits c.toNat 29 22 == 0 && compMode c != 3 && (compMode c == 2 || compValue c == 0) && (compMode c != 0 || compAddr c == 0)

/-- The address checks at issue, for an operation that lands `bytes`. -/
def State.compFault (s : State) (form : Nat) (c : DWord) (bytes : Nat) : Option Cause :=
  match compMode c with
  | 1 =>
    match s.barFault form (compAddr c) with
    | some x => some x
    | none =>
      match s.scratchPlace form (compAddr c) 16 with
      | none => some .scratch
      | some (f, off) => if !(s.barrier f.id off).v ∨ 2 ^ 31 ≤ bytes then some .barcount else none
  | 2 =>
    match s.scratchPlace form (compAddr c) 4 with
    | none => some .scratch
    | some (f, off) => if off % 4 ≠ 0 then some .align else if f.onBarrier off then some .scratch else none
  | _ => none

/-- AUX of an engine's event: the access size of an address event, the access kind of a RACE, whose range has no recorded tag; of
others nothing (Table 16-6). -/
def sized (c : Cause) (n : Nat) : Nat :=
  match c with
  | .scratch | .align | .addr => n
  | .race => 3 * 2 ^ 24
  | _ => 0

/-- The event of a completion specification whose address fails its check. -/
def compRaise (comp : DWord) (c : Cause) : Raise :=
  { cause := c, addr := compAddr comp, aux := sized c (if compMode comp = 1 then 16 else 4) }

/-- An asynchronous event of a class, for the instruction whose work raised it (R337). -/
def asyncOf (c : Cls) (pc : Int) (words : List Word) (r : Raise) (s : State) : State :=
  raiseAsync { cause := r.cause, from_ := c.level, cls := c.id, launch := c.launch, form := c.formno, core := c.core,
               cslot := c.slot, vmid := c.vmid, asid := c.asid, epc := pcWord pc, words := words, lane := r.lane,
               addr := BitVec.ofNat 64 r.addr, aux := BitVec.ofNat 64 r.aux, write := r.write } c.level s

/-- The arrival or the value write, after the last byte (R126, R270). The completion of an engine thread is a release of it;
a loop that neither arrives nor writes is no engine thread (R113, R135). An arrival that meets V = 0 is discarded and
reported. -/
def completeAs (thread : Bool) (c : Cls) (pc : Int) (words : List Word) (comp : DWord) (bytes : Nat) (s : State) :
    State :=
  let s := if thread || compMode comp != 0 then s.bumpTag c.tag else s
  match compMode comp with
  | 1 =>
    match s.scratchPlace c.form (compAddr comp) 16 with
    | none => s
    | some (f, off) =>
      match s.engineArrive f.id off bytes with
      | some s' => s'
      | none => asyncOf c pc words { cause := .barcount, addr := compAddr comp } s
  | 2 =>
    match s.scratchPlace c.form (compAddr comp) 4 with
    | none => s
    | some (f, off) => s.writeScratch f.id off (toBytes 4 (compValue comp))
  | _ => s

/-! ### Descriptor fields (Tables 13-5, 13-6) -/

/-- Word i of a descriptor. -/
def dWord (d : List DWord) (i : Nat) : Nat := (d.getD i 0).toNat
def dDup (d : List DWord) : Bool := bit (dWord d 0) 18
/-- TW of a loop, GUIDE of a drain. -/
def dTw (d : List DWord) : Bool := bit (dWord d 0) 19
def dStile (d : List DWord) : Nat := bits (dWord d 0) 22 20
/-- BFMT of a loop, OFMT of a drain. -/
def dFmt (d : List DWord) : Nat := bits (dWord d 0) 17 15
def dCount (d : List DWord) : Nat := bits (dWord d 0) 11 0
def dClr (d : List DWord) : Bool := bit (dWord d 0) 14
def dScl (d : List DWord) : Bool := bit (dWord d 0) 23
def dScale (d : List DWord) : Word := if dScl d then BitVec.ofNat 32 (bits (dWord d 0) 63 32) else 0x3F800000
def dW (d : List DWord) : Word := BitVec.ofNat 32 (bits (dWord d 1) 63 32)
def dComp (d : List DWord) : DWord := d.getD 3 0
/-- The group of K-step t. -/
def dGroup (d : List DWord) (t : Nat) : Int := bits (dWord d 1) 11 0 + t * sextN 12 (bits (dWord d 1) 43 32)
/-- The B offset of K-step t. -/
def dBlock (d : List DWord) (t : Nat) : Int := bits (dWord d 2) 20 0 + 64 * t * sextN 16 (bits (dWord d 2) 47 32)
/-- GBASE of a drain into a reservation. -/
def dGbase (d : List DWord) : Nat := bits (dWord d 1) 11 0

/-- STILE's rule (R288). -/
def stileOk (c : Cls) (rd : Reg3) (d : List DWord) : Bool :=
  if dDup d then dStile d != rd.toNat && decide (dStile d < c.ntiles) else dStile d == 0

def loopLegal (c : Cls) (rd : Reg3) (d : List DWord) : Bool :=
  bits (dWord d 0) 63 23 == 0 && bits (dWord d 0) 14 12 == 0 && bits (dWord d 1) 31 12 == 0 && bits (dWord d 1) 63 44 == 0
    && bits (dWord d 2) 31 21 == 0 && bits (dWord d 2) 63 48 == 0 && decide (dFmt d < 6) && dCount d != 0 && stileOk c rd d
    && bits (dWord d 2) 5 0 == 0 && compOk (dComp d)

def drainLegal (c : Cls) (rd : Reg3) (rb : Reg) (d : List DWord) : Bool :=
  bits (dWord d 0) 12 0 == 0 && bits (dWord d 0) 31 24 == 0 && bits (dWord d 1) 31 22 == 0 && bits (dWord d 2) 63 20 == 0
    && decide (dFmt d < 5) && stileOk c rd d && compOk (dComp d)
    && (if drainToOb d then drainPitch d == 0 && bits (dWord d 1) 21 12 == 0
        else rb == 0 && decide (64 * drainEsz d ≤ drainPitch d))
    && !(dFmt d == 4 && (dScl d || dTw d))

/-! ### Tiles and what stands before an operation (R56, R282, R285) -/

def Cls.tile (c : Cls) (t : Nat) : Tile := c.tiles.getD t {}
def Cls.modTile (c : Cls) (t : Nat) (f : Tile → Tile) : Cls := { c with tiles := padSet {} c.tiles t (f (c.tile t)) }

def SeqKind.tiles : SeqKind → List Nat
  | .zero t | .stat t _ => [t]
  | .loop t d _ | .drain t d _ => if dDup d then [t, dStile d] else [t]

/-- TW operations (R294). -/
def SeqKind.tw : SeqKind → Bool
  | .zero _ | .stat _ _ => false
  | .loop _ d _ | .drain _ d _ => dTw d

def SeqOp.loopDesc (o : SeqOp) : Option (List DWord) :=
  match o.kind with
  | .loop _ d _ => some d
  | .zero _ | .drain _ _ _ | .stat _ _ => none

/-- No earlier operation of the class stands in the queue on a tile of this one (R56). -/
def State.tileFree (s : State) (o : SeqOp) : Bool :=
  !(s.seq.any (fun p => p.cls == o.cls && decide (p.id < o.id) && p.kind.tiles.any (fun t => o.kind.tiles.contains t)))

/-- The handle whose reservation a copy writes (Table 13-10). -/
def copyHandle (fn : Nat) (far : DWord) : Option DWord :=
  if fn = 2 ∨ fn = 4 then some (far &&& 0xFFF) else none

/-- An earlier operation of the class still writes the reservation of a handle. -/
def State.resWriter (s : State) (cid before : Nat) (h : DWord) : Bool :=
  s.seq.any (fun o => o.cls == cid && decide (o.id < before) && (match o.kind with
    | .drain _ d h' => drainToOb d && h' == h
    | .zero _ | .loop _ _ _ | .stat _ _ => false))
  || s.engines.any (fun e => e.cls == cid && decide (e.id < before) && copyHandle e.fn e.far == some h)
  || (match s.getCls cid with
    | none => false
    | some c => c.mem.any (fun a => decide (a.id < before) && (match a.op with
      | .copy fn => copyHandle fn (a.srcs.getD 5 0) == some h
      | _ => false)))

/-- An earlier operation of the class still reads the reservation of a handle. -/
def State.resReader (s : State) (cid before : Nat) (h : DWord) : Bool :=
  s.seq.any (fun o => o.cls == cid && decide (o.id < before) && (match o.kind with
    | .loop _ _ h' => h' == h
    | .zero _ | .drain _ _ _ | .stat _ _ => false))

/-- The sequencer of the issuing core takes no more (R285). -/
def State.seqFull (s : State) : Bool :=
  let waits (c : Cls) : Nat := if c.core = s.cls.core then (c.splits.filter (fun sp => sp.queued)).length else 0
  decide (16 ≤ (s.seq.filter (fun o => o.core == s.cls.core)).length + (s.allCls.map waits).sum)

/-- The class's partition holds its core. -/
def State.onCore (s : State) (c : Cls) : Bool := s.phase == .tripped || c.level == 0 || assoc s.holder c.core == some c.vmid

/-- The operation's earlier work on its tiles and its reservation is done, and its partition holds the core (R56, R282). -/
def State.seqReady (s : State) (o : SeqOp) (c : Cls) : Bool :=
  s.onCore c && s.tileFree o && (match o.kind with
    | .loop _ _ h => !s.resWriter o.cls o.id h
    | .drain _ d h => !drainToOb d || !(s.resWriter o.cls o.id h || s.resReader o.cls o.id h)
    | .zero _ | .stat _ _ => true)

/-- The rendezvous does not hold the operation. -/
def SeqOp.released (o : SeqOp) : Bool :=
  !o.kind.tw || (match o.meet with
    | .met _ | .solo => true
    | .none | .waiting _ => false)

/-- The operation this one has met, while it still stands in the queue. -/
def State.metWith (s : State) (o : SeqOp) : Option SeqOp :=
  match o.meet with
  | .met p => s.seq.find? (fun q => q.id == p)
  | .none | .waiting _ | .solo => none

def State.modSeq (s : State) (op : Nat) (f : SeqOp → SeqOp) : State :=
  { s with seq := s.seq.map (fun o => if o.id = op then f o else o) }

/-- A loop that nothing of its class or its rendezvous holds (R285, R295). -/
def State.loopReady (s : State) (o : SeqOp) : Bool :=
  o.loopDesc.isSome && o.released && (match s.getCls o.cls with
    | none => false
    | some c => s.seqReady o c)

/-- Loops that have become ready take their places in the order in which the array takes them (R285). -/
def State.markReady (s : State) : State :=
  s.seq.foldl (fun s o =>
    if o.turn.isNone && s.loopReady o then { s.fresh with seq := (s.modSeq o.id (fun o => { o with turn := some s.nextId })).seq } else s) s

/-- A loop of the core that became ready before a place in that order. -/
def SeqOp.precedes (p : SeqOp) (turn : Option Nat) : Bool :=
  match p.turn, turn with
  | some x, some y => decide (x < y)
  | some _, none => true
  | none, _ => false

/-- The array takes a loop: no other has begun and none became ready before it, but the one it has met (R285, R295). -/
def State.arrayFree (s : State) (o : SeqOp) : Bool :=
  !(s.seq.any (fun p => p.core == o.core && p.id != o.id && o.meet != .met p.id
      && (p.running || (s.loopReady p && p.precedes o.turn))))

/-- Perform what the sequencer does at once: MAT.ZERO and MAT.STAT whose tile is free (R286, R293). `fuel` bounds the queue. -/
def settleSeqN : Nat → State → State
  | 0, s => s
  | n + 1, s =>
    match s.seq.find? (fun o => s.tileFree o && (match o.kind with
        | .zero _ | .stat _ _ => true
        | .loop _ _ _ | .drain _ _ _ => false)) with
    | none => s
    | some o =>
      let s := { s with seq := s.seq.filter (fun p => p.id != o.id) }
      settleSeqN n (s.modCls o.cls (fun c =>
        match o.kind with
        | .zero t => c.modTile t (fun _ => {})
        | .stat t rd =>
          let x := c.tile t
          if c.live then
            c.setS rd (BitVec.ofNat 64 (x.steps + b2n x.isInt * 2 ^ 32 + b2n x.dup * 2 ^ 33 + b2n x.tws * 2 ^ 34))
          else c
        | .loop _ _ _ | .drain _ _ _ => c))

def settleSeq (s : State) : State := (settleSeqN s.seq.length s).markReady

/-- Put an operation into the sequencer; the split goes on. -/
def enqueue (k : SeqKind) (s : State) : State :=
  let before := match k with
    | .drain _ _ _ => s.cls.mem.map (fun a => a.id)
    | .zero _ | .loop _ _ _ | .stat _ _ => []
  let o : SeqOp := { id := s.nextId, core := s.cls.core, cls := s.cls.id, split := s.iss.split, kind := k, pc := s.iss.pc,
                     words := s.iss.words, before := before }
  retire (settleSeq { s.fresh with seq := s.seq ++ [o] })

/-! ### Reservations (R279) -/

def obFault (s : State) : State := raise { cause := .obfault } s

/-- The issuing split holds a place of the queue, or gives it up. -/
def setQueued (b : Bool) (s : State) : State := s.modCur (fun sp => { sp with queued := b })

/-- An instruction of the sequencer: class-wide, and passed over while the queue is full; one that waits for its turn has its place. -/
def atSeq (body : State → State) : State → State :=
  classWide (fun s => if s.seqFull && !s.cur.queued then hold s else body (setQueued false s))

/-- OB.RES. -/
def execObRes (rd ra : Reg) (s : State) : Out :=
  .next (guarded (.obRes rd ra) (atSeq (fun s =>
    let r := s.getS ra
    match s.cls.freeRes with
    | none => obFault s
    | some i =>
      if !s.cls.resLegal r then obFault s
      else
        let c := { s.cls with obRes := padSet none s.cls.obRes i (some r) }
        retire ({ s with cls := c }.setS rd (BitVec.ofNat 64 (i + c.obGenOf i * 2 ^ 4))))) s)

/-- OB.REL. -/
def execObRel (ra : Reg) (s : State) : Out :=
  .next (guarded (.obRel ra) (atSeq (fun s =>
    let h := s.getS ra
    match s.cls.resOf h with
    | none => obFault s
    | some (i, _) =>
      if s.resWriter s.cls.id s.nextId h || s.resReader s.cls.id s.nextId h then hold (setQueued true s)
      else
        retire { s with cls := { s.cls with obRes := padSet none s.cls.obRes i none,
                                            obGen := padSet 0 s.cls.obGen i ((s.cls.obGenOf i + 1) % 256) } })) s)

/-- OB.STAT. -/
def execObStat (rd ra : Reg) (s : State) : Out :=
  .next (guarded (.obStat rd ra) (atSeq (fun s =>
    match s.cls.resOf (s.getS ra) with
    | none => obFault s
    | some (_, r) => retire (s.setS rd r))) s)

/-! ### OB.ST and OB.LD (R280, R281) -/

/-- The checks of R280: the reservation, when every element lies in it. -/
def State.obElems (s : State) (ra rb : Reg) : Option DWord :=
  match s.cls.resOf (s.getS ra) with
  | none => none
  | some (_, r) =>
    let e := (s.getS rb).toNat
    if (List.range s.cls.lanes).all (fun j => elemIn r (e + j)) && (resFmt r != 4 || e % 32 == 0) then some r else none

/-- The operand-buffer bytes of n elements from e on: data, then scales. -/
def obSpans (r : DWord) (e n : Nat) : List (Nat × Nat) :=
  let data := (resBase r * 64 + e * nibbles (resFmt r) / 2, n * nibbles (resFmt r) / 2)
  if resFmt r = 4 then [data, (scaleAt r (e / 32), n / 32)] else [data]

/-- Error marks of sectors that the spans cover are cleared (R453). -/
def clearMarks (marks : List Nat) (spans : List (Nat × Nat)) : List Nat :=
  marks.filter (fun q => !(spans.any (fun p => decide (p.1 ≤ q ∧ q + 32 ≤ p.1 + p.2))))

/-- The spans touch a marked sector. -/
def touchMarks (marks : List Nat) (spans : List (Nat × Nat)) : Bool :=
  marks.any (fun q => spans.any (fun p => decide (q < p.1 + p.2 ∧ p.1 < q + 32)))

/-- One lane's element stored, with its flags. -/
def storeElem (s : State) (rd : Reg) (r : DWord) (e : Nat) (p : Memory × Word) (j : Nat) : Memory × Word :=
  let x := storeCode (resFmt r) (s.getV rd j)
  (setCode p.1 (resBase r * 64) (resFmt r) (e + j) x.val, p.2 ||| x.flags)

/-- One 32-lane word stored as an MXFP4 block. -/
def storeWord (s : State) (rd : Reg) (r : DWord) (e : Nat) (p : Memory × Word) (w : Nat) : Memory × Word :=
  let (scale, codes, fl) := storeBlock ((List.range 32).map (fun k => s.getV rd (32 * w + k)))
  let m := (codes.zipIdx).foldl (fun m q => setCode m (resBase r * 64) 4 (e + 32 * w + q.2) q.1) p.1
  (m.set (scaleAt r ((e + 32 * w) / 32)) (BitVec.ofNat 8 scale), p.2 ||| fl)

/-- OB.ST. -/
def execObSt (rd ra rb : Reg) (s : State) : Out :=
  .next (guarded (.obSt rd ra rb) (classWide (fun s =>
    match s.obElems ra rb with
    | none => obFault s
    | some r =>
      let h := s.getS ra
      if s.resWriter s.cls.id s.nextId h || s.resReader s.cls.id s.nextId h then hold s
      else
        let e := (s.getS rb).toNat
        let p := if resFmt r = 4 then (List.range (s.cls.lanes / 32)).foldl (storeWord s rd r e) (s.cls.ob, 0)
          else (List.range s.cls.lanes).foldl (storeElem s rd r e) (s.cls.ob, 0)
        let c := { s.cls with ob := p.1, obPoison := clearMarks s.cls.obPoison (obSpans r e s.cls.lanes) }
        retire ({ s with cls := c }.orFlags p.2))) s)

/-- The value OB.LD delivers for element e. -/
def obValue (c : Cls) (r : DWord) (e : Nat) : Fl Word :=
  loadCode (resFmt r) (codeAt c.ob (resBase r * 64) (resFmt r) e) (c.ob.get (scaleAt r (e / 32))).toNat

/-- OB.LD. -/
def execObLd (rd ra rb : Reg) (s : State) : Out :=
  .next (guarded (.obLd rd ra rb) (classWide (fun s =>
    match s.obElems ra rb with
    | none => obFault s
    | some r =>
      if s.resWriter s.cls.id s.nextId (s.getS ra) then hold s
      else
        let e := (s.getS rb).toNat
        if touchMarks s.cls.obPoison (obSpans r e s.cls.lanes) then raise { cause := .ecc } s
        else laneOp none rd (fun j => obValue s.cls r (e + j)) s)) s)

/-! ### MAT (R286–R293) -/

/-- MAT.ZERO. -/
def execMatZero (rd : Reg3) (s : State) : Out :=
  .next (guarded (.matZero rd) (atSeq (enqueue (.zero rd.toNat))) s)

/-- MAT.STAT. -/
def execMatStat (rd : Reg) (ra : Reg3) (s : State) : Out :=
  .next (guarded (.matStat rd ra) (atSeq (enqueue (.stat ra.toNat rd))) s)

/-- Kind and STEPS of every tile of a class after every operation that stands in the queue (R288). -/
def State.tilesAfter (s : State) (c : Cls) : List (Bool × Nat) :=
  (s.seq.filter (fun o => o.cls == c.id)).foldl (fun ts o =>
    match o.kind with
    | .zero t => ts.set t (false, 0)
    | .stat _ _ => ts
    | .loop t d _ =>
      let x := (dFmt d == 5, min ((ts.getD t (false, 0)).2 + (dCount d - o.step)) 0xFFFFFFFF)
      if dDup d then (ts.set t x).set (dStile d) x else ts.set t x
    | .drain t d _ =>
      if !dClr d then ts
      else if dDup d then (ts.set t (false, 0)).set (dStile d) (false, 0) else ts.set t (false, 0))
    ((List.range 8).map (fun t => ((c.tile t).isInt, (c.tile t).steps)))

/-- The step block of K-step t lies in the allocation, and its unit tags agree (R283). -/
def blockIn (f : Form) (d : List DWord) (t : Nat) : Bool :=
  let o := dBlock d t
  let n := blockBytes (dFmt d)
  decide (0 ≤ o ∧ o + n ≤ f.bsize)
    && (List.range (n / 64)).all (fun u => match assoc f.btags (o.toNat / 64 + u) with
      | none => true
      | some x => x == dFmt d)

/-- B-store destinations of the form's copies in flight (R284). -/
def State.bstoreDests (s : State) (form : Nat) : List (Nat × Nat) :=
  (s.engines.filter (fun e => e.form == form && e.fn == 3)).map (fun e => (bits e.far.toNat 20 0, shBytes e.shape))

/-- The step blocks of a loop not yet finished. -/
def loopBlocks (d : List DWord) : List (Nat × Nat) :=
  (List.range (dCount d)).map (fun t => ((dBlock d t).toNat, blockBytes (dFmt d)))

def spansMeet (x y : List (Nat × Nat)) : Bool := x.any (fun p => y.any (fun q => decide (p.1 < q.1 + q.2 ∧ q.1 < p.1 + p.2)))

/-- MAT.LOOP's checks at issue, in order (R288). -/
def loopFault (s : State) (rd : Reg3) (d : List DWord) (h : DWord) : Option Raise :=
  let c := s.cls
  let after := (s.tilesAfter c).getD rd.toNat (false, 0)
  let steps := List.range (dCount d)
  let f := (s.formById c.form).getD { id := 0 }
  if !loopLegal c rd d then some { cause := .illop }
  else
    match c.resOf h with
    | none => some { cause := .obfault }
    | some (_, r) =>
      if !pairOk (resFmt r) (dFmt d) || (after.1 != (dFmt d == 5) && after.2 != 0)
          || !steps.all (fun t => groupIn r (dGroup d t)) || !steps.all (blockIn f d) then some { cause := .obfault }
      else if dTw d && c.twin == 0 then some { cause := .twinfail }
      else
        match s.compFault c.form (dComp d) 16384 with
        | some x => some (compRaise (dComp d) x)
        | none => if spansMeet (loopBlocks d) (s.bstoreDests c.form) then some { cause := .race, aux := sized .race 0 } else none

/-- MAT.LOOP. -/
def execMatLoop (rd : Reg3) (ra rb : Reg) (s : State) : Out :=
  .next (guarded (.matLoop rd ra rb) (atSeq (fun s =>
    let d := s.getSRun ra 4
    match loopFault s rd d (s.getS rb) with
    | some r => raise r s
    | none => enqueue (.loop rd.toNat d (s.getS rb)) s)) s)

/-- The scratchpad range of a drain: SCRATCH, ALIGN, RACE (R292). The unconditional twin's guided drain writes no byte (R296),
so it races with nothing, as R324 requires of two twins that name one range. DEDUCED: log entry 63. -/
def drainRange (s : State) (d : List DWord) : Option Cause :=
  match s.scratchPlace s.cls.form (drainAddr d) (drainSpan d) with
  | none => some .scratch
  | some (f, off) =>
    if f.onBarrier off then some .scratch
    else if off % 16 ≠ 0 ∨ drainPitch d % 16 ≠ 0 then some .align
    else if !(dTw d && s.cls.twin == 2) && s.engineRace f.id off (drainSpan d) true then some .race
    else none

/-- MAT.DRAIN's checks at issue, in order (R292). -/
def drainFault (s : State) (rd : Reg3) (rb : Reg) (d : List DWord) : Option Raise :=
  let c := s.cls
  let target : Option Raise :=
    if !drainToOb d then (drainRange s d).map (fun x => { cause := x, addr := drainAddr d, write := true, aux := sized x (drainSpan d) })
    else
      match c.resOf (s.getS rb) with
      | none => some { cause := .obfault }
      | some (_, r) =>
        if !(dFmt d == resFmt r + 1 && decide (resFmt r ≤ 2)) || !groupIn r (dGbase d) || !groupIn r (dGbase d + 1) then
          some { cause := .obfault }
        else none
  if !drainLegal c rd rb d then some { cause := .illop }
  else if dTw d && c.twin == 0 then some { cause := .twinfail }
  else
    match target with
    | some r => some r
    | none =>
      if dTw d && ((s.tilesAfter c).getD rd.toNat (false, 0)).1 then some { cause := .obfault }
      else (s.compFault c.form (dComp d) (4096 * drainEsz d)).map (fun x => compRaise (dComp d) x)

/-- MAT.DRAIN. -/
def execMatDrain (rd : Reg3) (ra rb : Reg) (s : State) : Out :=
  .next (guarded (.matDrain rd ra rb) (atSeq (fun s =>
    let d := s.getSRun ra 4
    match drainFault s rd rb d with
    | some r => raise r s
    | none => enqueue (.drain rd.toNat d (if drainToOb d then s.getS rb else 0)) s)) s)

/-! ### Running at the sequencer -/

def State.seqOp (s : State) (core op : Nat) : Option (SeqOp × Cls) :=
  match s.seq.find? (fun o => o.id == op && o.core == core) with
  | none => none
  | some o => (s.getCls o.cls).map (fun c => (o, c))

def State.dropSeq (s : State) (op : Nat) : State := { s with seq := s.seq.filter (fun o => o.id != op) }

/-- One K-step of a loop on its tile, and on the shadow tile (R288, R290). A marked byte of A or B leaves the tile NaN
(R453). -/
def loopStep (f : Form) (r : DWord) (t : Nat) (d : List DWord) (k : Nat) (c : Cls) : Cls :=
  let g := (dGroup d k).toNat
  let o := (dBlock d k).toNat
  let bad := touchMarks c.obPoison (obSpans r (64 * g * 32) 2048) || touchMarks f.bstPoison [(o, blockBytes (dFmt d))]
  let go (x : Tile) : Tile :=
    { x with el := if bad then List.replicate 4096 0x7FC00000 else stepTile c.ob r g f.bstore (dFmt d) o x.el,
             poison := x.poison || bad }
  let main := go (c.tile t)
  let main := { main with isInt := dFmt d == 5, steps := min (main.steps + 1) 0xFFFFFFFF }
  let c' := c.modTile t (fun _ => main)
  if dDup d then c'.modTile (dStile d) (fun _ => { go (c.tile (dStile d)) with isInt := main.isInt, steps := main.steps }) else c'

/-- A loop's next K-step on its class's tile. -/
def stepLoop (o : SeqOp) (s : State) : State :=
  match s.getCls o.cls, o.kind with
  | some c, .loop t d h =>
    match c.resOf h, s.formById c.form with
    | some (_, r), some f =>
      ((s.modCls c.id (loopStep f r t d o.step)).modSeq o.id (fun o => { o with step := o.step + 1, running := true })).meterPipe
        o.core (.matrix (dFmt d)) 1
    | _, _ => s
  | _, _ => s

/-- The loop may take its next K-step. -/
def State.mayStep (s : State) (o : SeqOp) : Bool :=
  s.loopReady o && s.arrayFree o && (match o.loopDesc with
    | none => false
    | some d => decide (o.step < dCount d))

/-- MAT_LOOP_RUN: one K-step of a loop that is ready, or of both loops of a joint one (R288, R289, R295). -/
def execMatLoopRun (core op : Nat) (s : State) : Out :=
  match s.seqOp core op with
  | none => .next s
  | some (o, _) =>
    match s.metWith o with
    | none => .next (if s.mayStep o then stepLoop o s else s)
    | some p => .next (if s.mayStep o && s.mayStep p then stepLoop p (stepLoop o s) else s)

/-- The partner of a joint loop has its steps done too (R295). -/
def State.partnerDone (s : State) (o : SeqOp) : Bool :=
  match s.metWith o with
  | none => true
  | some p => (match p.loopDesc with
    | none => true
    | some d => p.step == dCount d)

/-- MAT_LOOP_COMPLETE: the last step is done; the tile keeps DUP and TWS, and the loop completes with 16,384 bytes (R288). -/
def execMatLoopComplete (core op : Nat) (s : State) : Out :=
  match s.seqOp core op with
  | none => .next s
  | some (o, c) =>
    match o.kind with
    | .loop t d _ =>
      if o.step = dCount d ∧ s.partnerDone o then
        let tws (x : Tile) : Bool := match o.meet with
          | .met _ => false
          | .solo => true
          | .none | .waiting _ => x.tws
        let s' := s.modCls c.id (fun c =>
          let c := c.modTile t (fun x => { x with dup := dDup d, tws := tws x })
          if dDup d then c.modTile (dStile d) (fun x => { x with dup := true, tws := tws x }) else c)
        .next (s.orWait (settleSeq (completeAs false c o.pc o.words (dComp d) 16384 (s'.dropSeq op))))
      else .next s
    | .zero _ | .drain _ _ _ | .stat _ _ => .next s

/-! ### Draining (R292, R296) -/

/-- The first element, row by row, in which two tiles differ. -/
def firstDiff (x y : Tile) : Option Nat := (List.range 4096).find? (fun n => x.el.getD n 0 != y.el.getD n 0)

/-- The element at which a drain's tile differs from its shadow, if it checks. -/
def drainDiff (c : Cls) (t : Nat) (d : List DWord) : Option Nat :=
  if dDup d then firstDiff (c.tile t) (c.tile (dStile d)) else none

/-- The drain reads a marked tile. -/
def drainMarked (c : Cls) (t : Nat) (d : List DWord) : Bool := (c.tile t).poison || (dDup d && (c.tile (dStile d)).poison)

/-- The 4,096 codes that a drain writes, row by row, with the flags of each. -/
def drainCodes (x : Tile) (u : Option Tile) (d : List DWord) : List (Fl Nat) :=
  (List.range 4096).map (fun n =>
    let v := x.el.getD n 0
    let g : Fl Word := match u with
      | none => ⟨v, 0⟩
      | some u => guided1 (dW d) v (u.el.getD n 0)
    let r := drainValue x.isInt (dFmt d) (dScale d) g.val
    ⟨r.val, r.flags ||| g.flags⟩)

/-- Write a drain's codes to scratchpad or into its reservation. -/
def drainWrite (c : Cls) (d : List DWord) (h : DWord) (codes : List Nat) (s : State) : State :=
  if drainToOb d then
    match c.resOf h with
    | none => s
    | some (_, r) =>
      s.modCls c.id (fun c =>
        { c with
          ob := codes.zipIdx.foldl (fun m p =>
            setCode m (resBase r * 64) (resFmt r) (((dGbase d + p.2 % 64 / 32) * 64 + p.2 / 64) * 32 + p.2 % 32) p.1) c.ob,
          obPoison := clearMarks c.obPoison (obSpans r (dGbase d * 2048) 4096) })
  else
    match s.scratchPlace c.form (drainAddr d) (drainSpan d) with
    | none => s
    | some (f, off) =>
      (List.range 64).foldl (fun s i =>
        s.writeScratch f.id (off + i * drainPitch d)
          ((List.range 64).flatMap (fun j => toBytes (drainEsz d) (codes.getD (64 * i + j) 0)))) s

/-- CLR: the tile, and its shadow under DUP, are cleared. -/
def drainClear (c : Cls) (t : Nat) (d : List DWord) (s : State) : State :=
  if !dClr d then s
  else s.modCls c.id (fun c =>
    let c := c.modTile t (fun _ => {})
    if dDup d then c.modTile (dStile d) (fun _ => {}) else c)

/-- The drain delivers its codes and flags, clears, and completes with 4,096·esz bytes (R89, R292). -/
def drainDeliver (o : SeqOp) (c : Cls) (t : Nat) (d : List DWord) (h : DWord) (u : Option Tile) (s : State) : State :=
  let xs := drainCodes (c.tile t) u d
  let fl := xs.foldl (fun f x => f ||| x.flags) 0
  let s := drainWrite c d h (xs.map (fun x => x.val)) s
  let s := s.modCls c.id (fun c => { c with cstat := c.cstat ||| fl })
  completeAs true c o.pc o.words (dComp d) (4096 * drainEsz d) (drainClear c t d (s.dropSeq o.id))

/-- MATMIS at an element, logged with SCLASS 3 (R292, R450). -/
def matmis (o : SeqOp) (c : Cls) (t n : Nat) (s : State) : State :=
  let s := s.logErr { cause := Cause.matmis.code, sclass := 3, unit_ := c.core % 64, die := c.core / 64, core := c.core,
                      vmid := if c.level = 0 then none else some c.vmid, form := c.formno }
  asyncOf c o.pc o.words { cause := .matmis, aux := t + n / 64 * 2 ^ 8 + n % 64 * 2 ^ 16 } s

/-- Every access that the class issued before the drain has been performed (R126). -/
def Cls.forked (c : Cls) (before : List Nat) : Bool :=
  !(c.mem.any (fun a => before.contains a.id))

/-- A drain alone. -/
def drainAlone (o : SeqOp) (c : Cls) (t : Nat) (d : List DWord) (h : DWord) (s : State) : State :=
  if drainMarked c t d then asyncOf c o.pc o.words { cause := .ecc } (s.dropSeq o.id)
  else
    match drainDiff c t d with
    | some n => matmis o c t n (s.dropSeq o.id)
    | none => drainDeliver o c t d h none s

/-- What one twin of a stopped joint drain takes: MATMIS for its own tile, TWINFAIL for its partner's (R296). -/
def twinStop (o : SeqOp) (c : Cls) (t : Nat) (d : List DWord) (s : State) : State :=
  match drainDiff c t d with
  | some n => matmis o c t n s
  | none => raiseAt c.id o.split o.pc o.words .twinfail s

/-- A met pair of guided drains: the conditional twin's operation first. -/
def drainJoint (o p : SeqOp) (c e : Cls) (t : Nat) (d : List DWord) (h : DWord) (t' : Nat) (d' : List DWord) (s : State) : State :=
  let gone := (s.dropSeq o.id).dropSeq p.id
  if drainMarked c t d || drainMarked e t' d' then
    let s := asyncOf c o.pc o.words { cause := .ecc } gone
    if drainMarked e t' d' then asyncOf e p.pc p.words { cause := .ecc } s else s
  else if (drainDiff c t d).isSome || (drainDiff e t' d').isSome then twinStop p e t' d' (twinStop o c t d gone)
  else drainClear e t' d' ((drainDeliver o c t d h (some (e.tile t')) s).dropSeq p.id)

/-- MAT_DRAIN_RUN: a drain whose tile, reservation and earlier accesses are done delivers its tile. -/
def execMatDrainRun (core op : Nat) (s : State) : Out :=
  match s.seqOp core op with
  | none => .next s
  | some (o, c) =>
    match o.kind with
    | .drain t d h =>
      if !(s.seqReady o c && o.released && c.forked o.before) then .next s
      else if !dTw d then .next (s.orWait (settleSeq (drainAlone o c t d h s)))
      else
        match s.metWith o with
        | none => .next s
        | some p =>
          match s.getCls p.cls, p.kind with
          | some e, .drain t' d' h' =>
            if !e.forked p.before then .next s
            else if c.twin = 1 then .next (s.orWait (settleSeq (drainJoint o p c e t d h t' d' s)))
            else .next (s.orWait (settleSeq (drainJoint p o e c t' d' h' t d s)))
          | _, _ => .next s
    | .zero _ | .loop _ _ _ | .stat _ _ => .next s

/-! ### The rendezvous (R294, R295) -/

/-- The partner twin's class. -/
def State.twinOf (s : State) (c : Cls) : Option Cls :=
  s.allCls.find? (fun e => e.kind == .launch && e.form == c.form && e.launch == c.launch && e.classno == (c.classno ^^^ 1)
    && e.id != c.id)

/-- TWINWAIT of the class's launch (Table 3-4). -/
def State.twinwait (s : State) (c : Cls) : Nat :=
  ((s.launches.find? (fun l => l.no == c.launch)).map (fun l => bits l.shape.toNat 575 544)).getD 0

/-- A TW operation splits: a loop runs solo, a guided drain raises TWINFAIL. -/
def splitTw (o : SeqOp) (s : State) : State :=
  match o.kind with
  | .loop t _ _ =>
    ((s.modSeq o.id (fun o => { o with meet := .solo })).modCls o.cls
      (fun c => { c.modTile t (fun x => { x with tws := true }) with cstat := c.cstat ||| 0x40 })).markReady
  | .drain _ _ _ => settleSeq (raiseAt o.cls o.split o.pc o.words .twinfail (s.dropSeq o.id))
  | .zero _ | .stat _ _ => s

/-- Two loops agree in COUNT, BFMT, BOFF, BSTEP and DUP; two drains need nothing more. -/
def meetOk (o p : SeqOp) : Bool :=
  match o.kind, p.kind with
  | .loop _ d _, .loop _ e _ =>
    dCount d == dCount e && dFmt d == dFmt e && bits (dWord d 2) 20 0 == bits (dWord e 2) 20 0
      && bits (dWord d 2) 47 32 == bits (dWord e 2) 47 32 && dDup d == dDup e
  | .drain _ _ _, .drain _ _ _ => true
  | _, _ => false

/-- TWIN_RENDEZVOUS: a TW operation that has become ready meets its partner's, splits with it, or waits. -/
def execTwinRendezvous (core op : Nat) (s : State) : Out :=
  match s.seqOp core op with
  | none => .next s
  | some (o, c) =>
    if !(o.kind.tw && o.meet == .none && s.seqReady o c) then .next s
    else
      match s.twinOf c with
      | none => .next (splitTw o s)
      | some e =>
        if !e.live then .next (splitTw o s)
        else
          match s.seq.find? (fun p => p.cls == e.id && (match p.meet with
              | .waiting _ => true
              | .none | .met _ | .solo => false)) with
          | none => .next (s.modSeq op (fun o => { o with meet := .waiting c.cycle }))
          | some p =>
            if p.pc = o.pc ∧ meetOk o p then
              .next ((s.modSeq op (fun o => { o with meet := .met p.id })).modSeq p.id (fun p => { p with meet := .met op })).markReady
            else .next (splitTw p (splitTw o s))

/-- TWINWAIT_EXPIRY: a waiting TW operation splits when its partner ends, or when it has waited TWINWAIT cycles. -/
def execTwinwaitExpiry (core op : Nat) (s : State) : Out :=
  match s.seqOp core op with
  | none => .next s
  | some (o, c) =>
    match o.meet with
    | .waiting since =>
      let out := match s.twinOf c with
        | none => true
        | some e => !e.live
      if out || decide (since + s.twinwait c ≤ c.cycle) then .next (splitTw o s) else .next s
    | .none | .met _ | .solo => .next s

/-! ### Bounds checks (R307) -/

/-- CHKB.LANE. -/
def execChkbLane (rd ra rb : Reg) (s : State) : Out :=
  .next (guarded (.chkbLane rd ra rb) (fun s =>
    match (lanesOf s.cls.lanes s.act).find? (fun i => decide ((s.getS rb).toNat ≤ (s.getV ra i).toNat)) with
    | some i => raise { cause := .chk, lane := i, addr := (s.getV ra i).toNat } s
    | none => laneOp none rd (fun i => ⟨s.getV ra i, 0⟩) s) s)

/-- CHKB.SCALAR. -/
def execChkbScalar (rd ra rb : Reg) (s : State) : Out :=
  .next (guarded (.chkbScalar rd ra rb) (fun s =>
    if s.getS rb ≤ s.getS ra then raise { cause := .chk, addr := (s.getS ra).toNat } s else retire (s.setS rd (s.getS ra))) s)

end Sys2Proof.Machine
end

