-- ==== Sys2Proof/Machine/CopyEngine.lean ====
section
/-!
DEFINITION. Copy engines (13_isa_matrix.md R299–R305; R126, R127, R159, R168, R284, R326), and the replay of operand-log
entries (R380), copies among them.
-/

namespace Sys2Proof.Machine

/-! ### Region tables (R168, R341, Table 8-7) -/

/-- The region table a class reaches through s2: its launch's, or its handler's. -/
def State.regionTable (s : State) (c : Cls) : List DWord :=
  match c.kind with
  | .handler => ((s.hslots.find? (fun h => h.cls == c.id)).map (fun h => h.table)).getD []
  | .launch => ((s.launches.find? (fun l => l.no == c.launch)).map (fun l => l.table)).getD []
  | .walker | .bursar => []

/-- A valid region-table entry. -/
structure Region where
  base  : Nat
  len   : Nat
  esz   : Nat
  r     : Bool
  w     : Bool
  ca    : Bool
  store : Nat
  deriving DecidableEq, Repr

/-- Entry i of a region table, if its V bit is set. -/
def regionEntry (table : List DWord) (i : Nat) : Option Region :=
  let a := (table.getD (4 * i + 2) 0).toNat
  if bit a 0 then
    some { base := (table.getD (4 * i) 0).toNat, len := (table.getD (4 * i + 1) 0).toNat, esz := bits a 9 8, r := bit a 2,
           w := bit a 3, ca := bit a 4, store := bits a 7 5 }
  else none

/-- The bytes [lo, hi) lie in the region. -/
def Region.holds (r : Region) (lo hi : Int) : Bool := decide ((r.base : Int) ≤ lo ∧ hi ≤ r.base + r.len * 2 ^ r.esz)

/-! ### Shape records (R299, R300) -/

def shE (r : BitVec 1024) : Nat := 2 ^ shEsz r

/-- The record is well formed. `free` says that it may not swizzle. -/
def shapeOk (r : BitVec 1024) (free : Bool) : Bool :=
  let n := r.toNat
  let k := shRank r
  bits n 1023 720 == 0 && bits n 383 352 == 0 && bits n 191 142 == 0 && decide (1 ≤ k ∧ k ≤ 5)
    && (List.range 5).all (fun d => if d < k then shBox r d != 0 else shBox r d == 0 && shDim r d == 0)
    && [1, 2, 3, 4].all (fun d => if d < k then shStride r d % shE r == 0 && decide (shStride r d < 2 ^ 57) else shStride r d == 0)
    && shBase r % shE r == 0 && decide (shBytes r < 2 ^ 32) && decide (shFill r < 2 ^ (8 * shE r))
    && (!free || shSwz r == 0)

/-- The position in the box of element k. -/
def boxPos (r : BitVec 1024) (k d : Nat) : Nat :=
  k / ((List.range d).map (fun i => shBox r i)).foldl (· * ·) 1 % shBox r d

/-- Elements of the box. -/
def shCount (r : BitVec 1024) : Nat := shBytes r / shE r

/-- The element at a position lies in bounds. -/
def inBounds (r : BitVec 1024) (c : Nat → Int) (b : Nat → Nat) : Bool :=
  (List.range (shRank r)).all (fun d => decide (0 ≤ c d + b d ∧ c d + b d < shDim r d))

/-- The exact address of the element at a position, for a tensor whose element 0 lies at `base`. -/
def elemAddr (r : BitVec 1024) (base : Int) (c : Nat → Int) (b : Nat → Nat) : Int :=
  base + shE r * (c 0 + b 0)
    + (((List.range (shRank r)).drop 1).map (fun d => (c d + b d) * (shStride r d : Int))).foldl (· + ·) 0

/-- The bytes from the lowest in-bounds element to the end of the highest; none when no element is in bounds. -/
def extent (r : BitVec 1024) (base : Int) (c : Nat → Int) : Option (Int × Int) :=
  let lo (d : Nat) : Int := max 0 (-(c d))
  let hi (d : Nat) : Int := min (shBox r d : Int) (shDim r d - c d) - 1
  if (List.range (shRank r)).all (fun d => decide (lo d ≤ hi d)) then
    some (elemAddr r base c (fun d => (lo d).toNat), elemAddr r base c (fun d => (hi d).toNat) + shE r)
  else none

/-! ### The functions (Table 13-10) -/

/-- Reserved bits of the far register. -/
def farOk (fn : Nat) (far : DWord) : Bool :=
  if fn = 2 ∨ fn = 4 then bits far.toNat 31 12 == 0 && bits far.toNat 37 32 == 0
  else if fn = 3 then bits far.toNat 63 27 == 0 && bits far.toNat 23 21 == 0 && bits far.toNat 5 0 == 0
    && decide (bits far.toNat 26 24 < 6)
  else true

/-- The function has a scratchpad side. -/
def fnScratch (fn : Nat) : Bool := fn == 0 || fn == 1 || fn == 4 || fn == 5 || fn == 7

/-- It reads from, or builds, a tree. -/
def fnRoot (fn : Nat) : Bool := fn == 5 || fn == 6 || fn == 7

/-- It has a destination record. -/
def fnTwo (fn : Nat) : Bool := fn == 6 || fn == 8

/-- Coordinate d of a captured CPY. -/
def coordOf (coords : List Int) (d : Nat) : Int := coords.getD d 0

/-- What issuing, or replaying, a CPY comes to; `retry` is a record that strict mode refuses (R131). -/
inductive CopyTry where
  | wait
  | retry
  | miss (l : List (LaneReq × Bool))
  | fault (f : FaultInfo) (s : State)
  | bad (r : Raise)
  | go (e : EngineOp) (s : State)

/-- Step 3 of R302 for a tensor in ordinary memory: rights and extent. -/
def tensorOk (t : List DWord) (r : BitVec 1024) (c : Nat → Int) (write : Bool) : Bool :=
  match regionEntry t (shRegion r) with
  | none => false
  | some g =>
    (if write then g.w else g.r)
      && (match extent r (shBase r) c with
        | none => true
        | some (lo, hi) => g.holds lo hi)

/-- Step 4 of R302: the scratchpad range; bytes that a drain still has to write are not read either (log entry 64). -/
def copyScratch (s : State) (form fn : Nat) (r : BitVec 1024) (far : DWord) : Option Raise :=
  match engineScratch fn r far with
  | none => none
  | some (a, w) =>
    let n := shBytes r
    let z := if fn = 7 then 128 else if shSwz r = 0 then shE r else 16 * 2 ^ shSwz r
    let bad (c : Cause) : Option Raise := some { cause := c, addr := a, write := w, aux := sized c n }
    match s.scratchPlace form a n with
    | none => bad .scratch
    | some (f, off) =>
      if w && f.onBarrier off then bad .scratch
      else if off % z ≠ 0 ∨ (shSwz r ≠ 0 ∧ (off % (16 * 2 ^ shSwz r) ≠ 0 ∨ n % (16 * 2 ^ shSwz r) ≠ 0)) then bad .align
      else if rangeRace s.copyRanges f.id off n w
          || rangeRace s.drainRanges f.id off n w then bad .race
      else none

/-- Step 5 of R302: the reservation, or the B-store allocation. -/
def copyTarget (s : State) (c : Cls) (fn : Nat) (r : BitVec 1024) (far : DWord) : Option Raise :=
  match copyHandle fn far with
  | some h =>
    match c.resOf h with
    | none => some { cause := .obfault }
    | some (_, x) => if bits far.toNat 63 32 + shBytes r ≤ (resLen x + 1) * 64 then none else some { cause := .obfault }
  | none =>
    if fn = 3 then
      let size := ((s.formById c.form).map (fun f => f.bsize)).getD 0
      if bits far.toNat 20 0 + shBytes r ≤ size then none else some { cause := .obfault }
    else none

/-- Step blocks of the form's loops not yet finished. -/
def State.loopSpans (s : State) (form : Nat) : List (Nat × Nat) :=
  s.seq.flatMap (fun o =>
    match o.loopDesc with
    | none => []
    | some d => if ((s.getCls o.cls).map (fun c => c.form)) = some form then loopBlocks d else [])

/-- Steps 4 to 7 of R302. -/
def copyLate (s : State) (c : Cls) (fn : Nat) (r : BitVec 1024) (far comp : DWord) : Option Raise :=
  match copyScratch s c.form fn r far with
  | some x => some x
  | none =>
    match copyTarget s c fn r far with
    | some x => some x
    | none =>
      if fn = 3 ∧ (spansMeet [(bits far.toNat 20 0, shBytes r)] (s.loopSpans c.form)
          ∨ spansMeet [(bits far.toNat 20 0, shBytes r)] (s.bstoreDests c.form)) then some { cause := .race, aux := sized .race 0 }
      else (s.compFault c.form comp (shBytes r)).map (fun x => compRaise comp x)

/-- The engine operation of a CPY whose checks pass. -/
def engineOf (c : Cls) (a : Access) (fn : Nat) (r dst : BitVec 1024) (name : BitVec 128) (depth : Nat)
    (pinned : Bool) : EngineOp :=
  { id := a.id, engine := c.core / 4, cls := c.id, split := a.split, form := c.form, launch := c.launch, core := c.core,
    vmid := c.vmid, asid := c.asid, tag := c.tag, fn := fn, shape := r, dst := dst,
    coords := (a.srcs.take 5).map (fun x => x.toInt), far := a.srcs.getD 5 0, comp := a.srcs.getD 6 0, pc := a.pc,
    words := a.words, rd := (a.srcs.getD 7 0).setWidth 7, name := name, depth := depth, pinned := pinned,
    before := (c.mem.takeWhile (fun b => b.id != a.id)).map (fun b => b.id) }

/-- The lane request of a root slot. -/
def slotReq (r : BitVec 1024) : LaneReq := { lane := 0x7FFF, ea := shBase r }

/-- The LEN of a slot covers the extent of the box. -/
def inTree (r : BitVec 1024) (coord : Nat → Int) (w : Nat) : Bool :=
  match extent r 0 coord with
  | none => true
  | some (lo, hi) => decide (0 ≤ lo ∧ hi ≤ bits w 191 128)

/-- The slot of a tree, once its place is known: read and pinned in one locked read at its monitor (R157, R303). -/
def slotPin (s : State) (c : Cls) (a : Access) (fn : Nat) (r dst : BitVec 1024) (coord : Nat → Int) (st : CStore) (l : LaneReq) :
    CopyTry :=
  match s.slotRead c l with
  | (none, s) => .fault { cause := .prot, addr := shBase r } s
  | (some w, s) =>
    let n := slotName w
    if !slotOk w ∨ (n ≠ 0 ∧ (st.live n).isNone) then .bad { cause := .caname, addr := shBase r }
    else if !inTree r coord w then .bad { cause := .chk }
    else if s.refWaits c st l.pa n then .wait
    else
      match copyLate s c fn r (a.srcs.getD 5 0) (a.srcs.getD 6 0) with
      | some x => .bad x
      | none => .go (engineOf c a fn r dst n (bits w 195 192) (n != 0)) (if n = 0 then s else s.putStore (st.incr n))

/-- Step 3 of R302 for a tree: a valid CA region that holds the slot, then the slot. -/
def copySlot (s : State) (c : Cls) (a : Access) (fn : Nat) (r dst : BitVec 1024) (coord : Nat → Int) : CopyTry :=
  let table := s.regionTable c
  let legal := match regionEntry table (shRegion r) with
    | none => false
    | some g => g.ca && (if fn = 7 then shBase r == 0 else g.holds (shBase r) (shBase r + 32))
  if !legal || (fn == 6 && !tensorOk table dst (fun _ => 0) true) then .bad { cause := .chk }
  else
    match s.myStore c with
    | none => .bad { cause := .caname }
    | some st =>
      if fn = 7 then
        match copyLate s c fn r (a.srcs.getD 5 0) (a.srcs.getD 6 0) with
        | some x => .bad x
        | none => .go (engineOf c a fn r dst 0 (buildDepth (shBytes r)) false) s
      else
        match addrFault c.level 32 32 (shBase r) with
        | some x => .bad { cause := x, addr := shBase r, aux := 32 }
        | none =>
          match s.checkLane c .slotGet (slotReq r) with
          | .miss d => .miss [(slotReq r, d)]
          | .bad f => .fault f s
          | .now f => .bad { cause := f.cause, addr := f.addr }
          | .ok l =>
            if !c.mayPerform { a with op := .slotGet } l || (l.peer && !s.logRoom c a) then .wait
            else if noMemoryAt l 32 then .bad { cause := .addr, addr := shBase r, aux := 32 }
            else slotPin s c a fn r dst coord st l

/-- Read a shape record, from a peer if it lies in a peer window (R299, R433). -/
def State.readRecord (s : State) (c : Cls) (pol : Nat) (l : LaneReq) : Option (BitVec 1024) × State :=
  if l.peer then
    let (v, s) := s.peerAccess c l 128 .read
    (v.map (BitVec.ofNat 1024), s)
  else
    let (bs, s) := s.readLane c l 128 pol false
    (some (BitVec.ofNat 1024 (ofBytes bs)), s)

/-- Read the records of a CPY in turn; a peer may refuse one. -/
def State.readRecords (s : State) (c : Cls) (pol : Nat) : List LaneReq → Except (LaneReq × State) (List (BitVec 1024) × State)
  | [] => .ok ([], s)
  | l :: ls =>
    match s.readRecord c pol l with
    | (none, s) => .error (l, s)
    | (some r, s) =>
      match s.readRecords c pol ls with
      | .error x => .error x
      | .ok (rs, s) => .ok (r :: rs, s)

/-- The destination record agrees with the source's (Table 13-10). -/
def dstOk (r dst : BitVec 1024) : Bool :=
  shapeOk dst true && !shRoot dst && shEsz dst == shEsz r && (List.range 5).all (fun d => shBox dst d == shBox r d)

/-- A coordinate register that the copy reads carries an error mark: those at or beyond RANK are not read (R300, R453). -/
def coordMarked (a : Access) (fn : Nat) (r : BitVec 1024) : Bool :=
  fn != 4 && (List.range (shRank r)).any (fun d => bit (a.srcs.getD 9 0).toNat d)

/-- Steps 3 to 7 of R302, on the records as read. -/
def copyJudge (s : State) (c : Cls) (a : Access) (fn : Nat) (r dst : BitVec 1024) : CopyTry :=
  let coord (d : Nat) : Int := (a.srcs.getD d 0).toInt
  if !shapeOk r (!fnScratch fn) || shRoot r != fnRoot fn || (fnTwo fn && !dstOk r dst) then .bad { cause := .chk }
  else if coordMarked a fn r then .bad { cause := .ecc }
  else if fnRoot fn then copySlot s c a fn r dst coord
  else if (fn != 4 && !tensorOk (s.regionTable c) r coord (fn == 1))
      || (fn == 8 && !tensorOk (s.regionTable c) dst (fun _ => 0) true) then .bad { cause := .chk }
  else
    match copyLate s c fn r (a.srcs.getD 5 0) (a.srcs.getD 6 0) with
    | some x => .bad x
    | none => .go (engineOf c a fn r dst 0 0 false) s

/-- Steps 2 to 7 of R302: the records are read, and the operation is made or its event found. -/
def copyTry (s : State) (c : Cls) (a : Access) (fn : Nat) : CopyTry :=
  let p := s.phase2 c (.copy fn) a.lanes a.pol
  if !p.missed.isEmpty then .miss p.missed
  else
    match p.fault with
    | some f => if p.now then .bad { cause := f.cause, addr := f.addr } else .fault f s
    | none =>
      if !p.lanes.all (fun l => c.mayPerform a l && (!l.peer || s.logRoom c a)) then .wait
      else if p.lanes.any (fun l => s.strictRefuses c a l) then .retry
      else
        match p.lanes.find? (fun l => noMemoryAt l 128) with
        | some l => .bad { cause := .addr, addr := eaField l.ea, aux := 128 }
        | none =>
          match (s.touchAll c p.lanes).readRecords c a.pol p.lanes with
          | .error (l, s) => .fault { cause := .prot, addr := eaField l.ea } s
          | .ok (rs, s) => copyJudge s c a fn (rs.getD 0 0) (rs.getD 1 0)

/-! ### Issuing a CPY -/

/-- The queue of a core's engine holds 16 commands not yet taken (R305). -/
def State.engineFull (s : State) (core : Nat) : Bool :=
  decide (16 ≤ (s.engines.filter (fun e => e.engine == core / 4 && e.state == .queued)).length)

/-- A command joins its engine's queue, in issue order. -/
def State.putEngine (s : State) (e : EngineOp) : State :=
  { s with engines := s.engines.filter (fun x => decide (x.id < e.id)) ++ e :: s.engines.filter (fun x => decide (e.id < x.id)) }

/-- A CPY that has passed its checks goes to its engine; fn 7 blocks its split until completion. -/
def sendCopy (fn : Nat) (e : EngineOp) (s : State) : State :=
  let s := s.fresh.putEngine e
  if fn = 7 then waitOn (.engine e.id) s else retire s

/-- A CPY that enters its class's memory operations: in the log, or refused with RETRY. -/
def logCopy (fn : Nat) (a : Access) (s : State) : State :=
  let s := { s.fresh with cls := { s.cls with mem := s.cls.mem ++ [a] } }
  if fn = 7 then waitOn (.engine a.id) s else retire s

/-- The operation of a CPY at issue, with what it captures: s[rd] to s[rd+5], the completion specification, rd, the record's address
and which coordinates carry error marks. -/
def State.copyAccess (s : State) (fn : Nat) (rd ra rb : Reg) : Access :=
  let far := s.getS (rd + 5)
  let reqs := scalarReq (s.getS rb).toNat 0 ++ (if fnTwo fn then scalarReq far.toNat 0 else [])
  let marks := ((List.range 5).map (fun d => b2n (s.cls.poisonV.contains (1, rd.toNat + d)) * 2 ^ d)).sum
  { s.access none (.copy fn) reqs with
      srcs := s.getSRun rd 6 ++ [s.getS ra, rd.setWidth 64, s.getS rb, BitVec.ofNat 64 marks] }

/-- CPY (R302): class-wide; its record is read as an ordinary load. -/
def copyIssue (fn : Nat) (rd ra rb : Reg) : State → State :=
  classWide (fun s =>
    if !compOk (s.getS ra) || !farOk fn (s.getS (rd + 5)) || (fn == 7 && rd.toNat % 2 == 1) then raise { cause := .illop } s
    else if s.engineFull s.cls.core then hold s
    else
      let a := s.copyAccess fn rd ra rb
      match firstFault a.lanes (fun l => addrFault s.cls.level 128 128 l.ea) with
      | some (l, cause) => raise { cause := cause, addr := eaField l.ea, aux := 128 } s
      | none =>
        if s.cls.mustWait a.lanes then hold s
        else
          match copyTry s s.cls a fn with
          | .wait => hold s
          | .retry => logCopy fn { a with stage := .retry s.time } s
          | .bad r => raise r s
          | .go e s => sendCopy fn e s
          | .miss l =>
            if !s.logRoom s.cls a then hold s
            else
              match s.takeSlots s.cls a.id false l with
              | none => hold s
              | some s => logCopy fn (a.intoLog s.cls .walking) s
          | .fault f s =>
            if !s.logRoom s.cls a then hold s
            else (logCopy fn (a.intoLog s.cls (.delivered 1 none)) s).deliverFault s.cls.id a.id f)

def execCpyGs (rd ra rb : Reg) (s : State) : Out := .next (guarded (.cpyGs rd ra rb) (copyIssue 0 rd ra rb) s)
def execCpySg (rd ra rb : Reg) (s : State) : Out := .next (guarded (.cpySg rd ra rb) (copyIssue 1 rd ra rb) s)
def execCpyGob (rd ra rb : Reg) (s : State) : Out := .next (guarded (.cpyGob rd ra rb) (copyIssue 2 rd ra rb) s)
def execCpyGb (rd ra rb : Reg) (s : State) : Out := .next (guarded (.cpyGb rd ra rb) (copyIssue 3 rd ra rb) s)
def execCpySob (rd ra rb : Reg) (s : State) : Out := .next (guarded (.cpySob rd ra rb) (copyIssue 4 rd ra rb) s)
def execCpyCas (rd ra rb : Reg) (s : State) : Out := .next (guarded (.cpyCas rd ra rb) (copyIssue 5 rd ra rb) s)
def execCpyCag (rd ra rb : Reg) (s : State) : Out := .next (guarded (.cpyCag rd ra rb) (copyIssue 6 rd ra rb) s)
def execCpySca (rd ra rb : Reg) (s : State) : Out := .next (guarded (.cpySca rd ra rb) (copyIssue 7 rd ra rb) s)
def execCpyGg (rd ra rb : Reg) (s : State) : Out := .next (guarded (.cpyGg rd ra rb) (copyIssue 8 rd ra rb) s)

/-! ### Translating for an engine (R126, R362) -/

/-- The entry of the quad's L2 TLB that serves an engine: never one of a private page. -/
def State.quadFind (s : State) (quad vmid asid va : Nat) : Option TlbEntry :=
  s.tlb.find? (fun e => !e.stale && e.home == TlbHome.quad quad && e.vmid == vmid && e.asid == asid && attrShared e.attr
    && decide (e.va ≤ va ∧ va < e.va + e.size))

/-- Where an engine's element lies, or what stops it there. -/
inductive EnginePlace where
  | at_ (l : LaneReq)
  | peer (ga : Nat)
  | miss (dmiss : Bool)
  | wait
  | ecc
  | bad (f : EngineFault)
  | noMemory (pa : Nat)

/-- Translation, permission, error marks and race detection of one element (R161, R304, R453). -/
def State.enginePlace (s : State) (e : EngineOp) (c : Cls) (va : Int) (write : Bool) : EnginePlace :=
  let n := shE e.shape
  let a := va.toNat
  let prot : EnginePlace := .bad (.prot a false write)
  let marked (l : LaneReq) : Bool := !write && s.sectorMark c l 1 true
  if windowBase ≤ a then prot
  else if c.level = 0 then
    let l : LaneReq := { lane := 0x7FFF, ea := va, pa := a, key := s.pkey, unc := true }
    if write && s.sealed a || s.inRecords a n then prot
    else if Config.memLimit < a + n then .noMemory a
    else if marked l then .ecc
    else .at_ l
  else
    match s.quadFind e.engine e.vmid e.asid a with
    | none => .miss false
    | some t =>
      let need : Need := if write then .w else .r
      let pa := t.pa + (a - t.va)
      let l : LaneReq :=
        { lane := 0x7FFF, ea := va, pa := pa, attr := t.attr, key := t.key,
          unc := (t.xpart && !attrCA t.attr) || attrClevel t.attr == 2, page := { va := t.va, ga := t.ga, pa := t.pa, size := t.size } }
      if !need.granted t.attr.toNat then .miss false
      else if write && attrCA t.attr then prot
      else if write && !bit t.attr.toNat 7 then .miss true
      else
        match s.peerWindow e.vmid (t.ga + (a - t.va)) with
        | some _ => .peer (t.ga + (a - t.va))
        | none =>
          if write && t.sw || s.inRecords pa n then prot
          else if Config.memLimit < pa + n then .noMemory pa
          else if marked l then .ecc
          else
            match (if attrChk t.attr then s.raceWith e.tag false pa else none) with
            | some tag => .bad (.race a tag)
            | none => if l.ordinary && s.refused c pa then .wait else .at_ l

/-- What moving one element comes to. -/
inductive Moved where
  | on (s : State)
  | miss (va : Nat) (write dmiss : Bool) (s : State)
  | wait (va : Nat) (s : State)
  | later (s : State)
  | ecc (s : State)
  | stop (f : EngineFault) (s : State)
  | noMemory (pa : Nat)

/-- The operation as it stands. -/
def State.engineNow (s : State) (e : EngineOp) : EngineOp := (s.engines.find? (fun x => x.id == e.id)).getD e

/-- One side of an element in a peer window: its request is sent, and later answered; without an answer for 100 µs it is a translation
fault (R433, R434). What a remote device answers is a free value. -/
def engineAsk (e : EngineOp) (ga n : Nat) (kind : PeerKind) (va : Nat) (write : Bool) (k : Nat → State → Moved) (s : State) : Moved :=
  let asked (t : Option Nat) (s : State) : State := s.modEngine e.id (fun e => { e with asked := t })
  match (s.engineNow e).asked with
  | none => .later (asked (some s.time) (s.peerSend e.vmid ga n kind))
  | some t =>
    if t + peerTime ≤ s.time then .stop (.xlate va false write) (asked none s)
    else
      match Config.peerAnswer s.free with
      | none => .stop (.prot va false write) (asked none s.usedChoice)
      | some v => k v (asked none s.usedChoice)

/-- The request of an element at its controller: past the caches an engine reads and writes in units of 64 bytes, and the element with
which it enters a unit is charged for it (R422). -/
def State.serveElem (s : State) (e : EngineOp) (c : Cls) (l : LaneReq) (write enters : Bool) : Bool × State :=
  let n := shE e.shape
  let u := s.chargeOf c (if write then .store n else .load n) l n 1
  s.serve (.element e.id) e.form e.vmid e.asid (controllerOf l.pa) (if (l.unc || (write && !attrWb l.attr)) && !enters then 0 else u)

/-- The places of a tensor's elements, none for one out of bounds. -/
abbrev ElemPlaces := Nat → Option Int

/-- With element k the engine enters a unit of 64 bytes. -/
def ElemPlaces.enters (at_ : ElemPlaces) (k : Nat) : Bool :=
  match k with
  | 0 => true
  | j + 1 => (at_ j).map (fun a => a / 64) != (at_ k).map (fun a => a / 64)

/-- With element k the engine has rewritten a whole sector: the last elements of n bytes fill it (R453). -/
def ElemPlaces.fills (at_ : ElemPlaces) (n k : Nat) : Bool :=
  let last := ((List.range (32 / n)).filter (fun i => decide (i ≤ k))).filterMap (fun i => at_ (k - i))
  let mine := (last.filter (fun a => some (a / 32) == (at_ k).map (fun b => b / 32))).eraseDups
  mine.length == 32 / n

/-- Read element k of the tensor at its home, never in an L1 (R126); a read whose bytes wait for the other side is not made again. -/
def engineRead (e : EngineOp) (c : Cls) (at_ : ElemPlaces) (k : Nat) (s : State) (next : List Byte → State → Moved) : Moved :=
  let n := shE e.shape
  let va := (at_ k).getD 0
  let keep (bs : List Byte) (s : State) : Moved := next bs (s.modEngine e.id (fun e => { e with got := some bs }))
  match (s.engineNow e).got with
  | some bs => next bs s
  | none =>
    match s.enginePlace e c va false with
    | .at_ l =>
      match s.serveElem e c l false (at_.enters k) with
      | (false, s) => .later s
      | (true, s) =>
        let (bs, s) := s.readSector c l n 1 true
        keep bs s
    | .peer ga => engineAsk e ga n .read va.toNat false (fun v s => keep (toBytes n v) s) s
    | .miss d => .miss va.toNat false d s
    | .wait => .wait va.toNat s
    | .ecc => .ecc s
    | .bad f => .stop f s
    | .noMemory pa => .noMemory pa

/-- Write element k of the tensor at its home; a write to a CHK page records the issuing class's tag (R135). -/
def engineWrite (e : EngineOp) (c : Cls) (at_ : ElemPlaces) (k : Nat) (bs : List Byte) (s : State) : Moved :=
  let va := (at_ k).getD 0
  match s.enginePlace e c va true with
  | .at_ l =>
    match s.serveElem e c l true (at_.enters k) with
    | (false, s) => .later s
    | (true, s) =>
      let s := (s.recordLane { c with tag := e.tag } l bs.length false (s.releaseCount e.tag)).writeHome c l bs
      .on (if at_.fills bs.length k then s.clearMarks (l.via c.level c.vmid) (attrWb l.attr && !l.unc && c.level != 0) (sector l.pa) 32
           else s)
  | .peer ga => engineAsk e ga bs.length (.write bs) va.toNat true (fun _ s => .on s) s
  | .miss d => .miss va.toNat true d s
  | .wait => .wait va.toNat s
  | .ecc => .ecc s
  | .bad f => .stop f s
  | .noMemory pa => .noMemory pa

/-! ### Moving elements (R300, Table 13-10) -/

/-- Put an element's bytes at offset o of the dense side. -/
def enginePut (e : EngineOp) (c : Cls) (o : Nat) (bs : List Byte) (s : State) : State :=
  match copyHandle e.fn e.far with
  | some h =>
    match c.resOf h with
    | none => s
    | some (_, r) =>
      let a := resBase r * 64 + bits e.far.toNat 63 32 + o
      s.modCls c.id (fun c => { c with ob := c.ob.write a bs, obPoison := clearMarks c.obPoison [(a, bs.length)] })
  | none =>
    if e.fn = 3 then
      let a := bits e.far.toNat 20 0 + o
      s.modForm e.form (fun f => { f with bstore := f.bstore.write a bs,
                                          btags := assocSet f.btags (a / 64) (bits e.far.toNat 26 24),
                                          bstPoison := clearMarks f.bstPoison [(a, bs.length)] })
    else
      match s.scratchPlace e.form e.far.toNat (shBytes e.shape) with
      | none => s
      | some (f, off) => s.writeScratch f.id (off + swizzle (shSwz e.shape) o) bs

/-- An element's bytes from the scratchpad side; none when they carry an error mark. -/
def engineGet (e : EngineOp) (o : Nat) (s : State) : Option (List Byte) :=
  let a := if e.fn = 4 then shBase e.shape else e.far.toNat
  let n := shE e.shape
  match s.scratchPlace e.form a (shBytes e.shape) with
  | none => some []
  | some (f, off) =>
    let at_ := off + swizzle (shSwz e.shape) o
    if s.scratchPoisoned f.id at_ n then none else some (s.readScratch f.id at_ n)

/-- Move element k. -/
def moveElem (e : EngineOp) (c : Cls) (k : Nat) (s : State) : Moved :=
  let r := e.shape
  let n := shE r
  let b := boxPos r
  let co := coordOf e.coords
  let inb := inBounds r co (b k)
  let fill := toBytes n (shFill r)
  let put (bs : List Byte) (s : State) : Moved := .on (enginePut e c (n * k) bs s)
  let src : ElemPlaces := fun j => if inBounds r co (b j) then some (elemAddr r (shBase r) co (b j)) else none
  let dst : ElemPlaces := fun j =>
    if inBounds e.dst (fun _ => 0) (b j) then some (elemAddr e.dst (shBase e.dst) (fun _ => 0) (b j)) else none
  let far (bs : List Byte) (s : State) : Moved := if (dst k).isSome then engineWrite e c dst k bs s else .on s
  let tree (next : List Byte → State → Moved) : Moved :=
    if !inb then next fill s
    else
      match (c.cstore.bind (fun ix => s.storeAt c.vmid ix)).bind
          (fun st => st.treeBytes e.depth e.name (elemAddr r 0 co (b k)).toNat n) with
      | none => .stop .caname s
      | some bs => next bs s
  let read (next : List Byte → State → Moved) : Moved := if inb then engineRead e c src k s next else next fill s
  match e.fn with
  | 0 | 2 | 3 => read put
  | 1 =>
    if !inb then .on s
    else
      match engineGet e (n * k) s with
      | none => .ecc s
      | some bs => engineWrite e c src k bs s
  | 4 =>
    match engineGet e (n * k) s with
    | none => .ecc s
    | some bs => put bs s
  | 5 => tree put
  | 6 => tree far
  | 8 => read far
  | _ => .on s

/-- Move elements from the progress counter on until one does not move. -/
def moveAll (e : EngineOp) (c : Cls) : Nat → Nat → State → Moved × Nat × State
  | 0, k, s => (.on s, k, s)
  | n + 1, k, s =>
    match moveElem e ((s.getCls c.id).getD c) k s with
    | .on s' => moveAll e c n (k + 1) (s'.modEngine e.id (fun e => { e with asked := none, got := none }))
    | r => (r, k, s)

/-! ### The events of an engine (R304, R305) -/

def State.engineOp (s : State) (op : Nat) : Option (EngineOp × Cls) :=
  match s.engines.find? (fun e => e.id == op) with
  | none => none
  | some e => (s.getCls e.cls).map (fun c => (e, c))

/-- A CPY of the class issued before the command that has not reached the engine's queue yet. -/
def Cls.copyBefore (c : Cls) (op : Nat) : Bool :=
  c.mem.any (fun a => decide (a.id < op) && (match a.op with
    | .copy _ => true
    | _ => false))

/-- COPY_ENGINE_START: the engine, when it has no command under way, takes its oldest queued one, once the fork conditions hold and its
reservation is free (R126, R282, R305). A command stopped by a fault still has the engine (R304). -/
def execCopyEngineStart (op : Nat) (s : State) : Out :=
  match s.engineOp op with
  | none => .next s
  | some (e, c) =>
    let oldest := match s.engines.find? (fun x => x.engine == e.engine && x.state == .queued) with
      | none => false
      | some x => x.id == op
    let busy := s.engines.any (fun x => x.engine == e.engine && x.state != .queued)
    let clear := match copyHandle e.fn e.far with
      | none => true
      | some h => !(s.resWriter e.cls e.id h || s.resReader e.cls e.id h)
    if e.state == .queued && oldest && !busy && clear && s.onCore c && c.forked e.before && !c.copyBefore op then
      .next (s.modEngine op (fun e => { e with state := .running }))
    else .next s

/-- The operation ends: its pin is released (R303), on whatever line has the name by then: FRESH may have emptied the store meanwhile
(DESIGN CHOICE: log entry 77). -/
def State.endEngine (s : State) (e : EngineOp) (c : Cls) : State :=
  let s := s.dropEngine e.id
  if !e.pinned then s
  else
    match c.cstore.bind (fun ix => s.storeAt c.vmid ix) with
    | none => s
    | some st => s.putStore (st.decr e.name)

/-- The last byte has landed: the pin goes, the completion is performed, and a CPY.SCA's split goes on with its results. -/
def engineDone (e : EngineOp) (c : Cls) (s : State) : State :=
  let s := completeAs true c e.pc e.words e.comp (shBytes e.shape) (s.endEngine e c)
  settleSeq (if e.fn = 7 then
    resumeAs e.cls e.split e.pc e.words (fun s =>
      retire (s.setSRun e.rd (nameWords (e.names.getD 0 0) ++ [BitVec.ofNat 64 (shBytes e.shape), BitVec.ofNat 64 e.height]))) s
  else s)

/-- An element that strict mode refuses: after 65,536 cycles the operation stops with STRICT (R131), as at a fault of its element. -/
def refusedElem (va now : Nat) (e : EngineOp) : EngineOp :=
  match e.refusedAt with
  | none => { e with refusedAt := some now }
  | some t => if t + 65536 ≤ now then { e with stop := some (.strict va) } else e

/-- COPY_ENGINE_COMPLETE: the elements left are moved; after the last one the operation completes. A miss is walked; what
stops it otherwise waits for COPY_ENGINE_FAULT at that element. -/
def execCopyEngineComplete (op : Nat) (s : State) : Out :=
  match s.engineOp op with
  | none => .next s
  | some (e, c) =>
    if !(e.state == .running && e.stop.isNone && s.onCore c) then .next s
    else if e.fn = 7 then (if e.built then .next (s.orWait (engineDone e c s)) else .next s)
    else
      let at_ (k : Nat) (s : State) : State :=
        s.modEngine op (fun e => { e with progress := k, refusedAt := if k = e.progress then e.refusedAt else none })
      match moveAll e c (shCount e.shape - e.progress) e.progress s with
      | (.on _, _, s') => .next (s.orWait (engineDone e ((s'.getCls e.cls).getD c) s'))
      | (.miss va w d s, k, _) =>
        let s := at_ k s
        match s.takeSlot (s.walkerOf e.engine) e.vmid e.asid va w false d (some op) (e.cls, op, 0x7FFF) with
        | none => .next s
        | some s => .next (s.modEngine op (fun e => { e with state := .walking }))
      | (.wait va s, k, _) => .next ((at_ k s).modEngine op (refusedElem va s.time))
      | (.later s, k, _) => .next (at_ k s)
      | (.ecc s', _, _) => .next (s.orWait (settleSeq (asyncOf c e.pc e.words { cause := .ecc } (s'.endEngine e c))))
      | (.stop f s, k, _) => .next ((at_ k s).modEngine op (fun e => { e with stop := some f }))
      | (.noMemory pa, _, _) => .fault (.noMemory pa)

/-- A translation fault stops the engine at its element and goes to its fault service: level 1 where the route gives 2
(R304, R381). -/
def engineFault (e : EngineOp) (c : Cls) (f : FaultInfo) (s : State) : State :=
  let t := min (s.route c.level c.vmid f.cause f.stage2) 1
  (s.modEngine e.id (fun e => { e with state := .stopped t none, fault := some f, stop := none })).queueFault
    (if t = 0 then none else some c.vmid) (.engine e.id)

/-- The operation ends without completion, and its event is asynchronous (R304). -/
def engineAbort (e : EngineOp) (c : Cls) (r : Raise) (s : State) : State :=
  s.orWait (settleSeq (asyncOf c e.pc e.words r (s.endEngine e c)))

/-- COPY_ENGINE_FAULT: the operation stops at the element it could not move; a RACE or a CANAME ends it without completion. STRICT goes to
the fault service that its route gives, for an engine operation has no split to block (R381; DEDUCED: log entry 66). -/
def execCopyEngineFault (op : Nat) (why : EngineFault) (s : State) : Out :=
  match s.engineOp op with
  | none => .next s
  | some (e, c) =>
    if e.stop ≠ some why then .next s
    else
      match why with
      | .xlate va st2 w => .next (engineFault e c { cause := .xlate, stage2 := st2, write := w, addr := va, aux := shE e.shape } s)
      | .prot va st2 w => .next (engineFault e c { cause := .prot, stage2 := st2, write := w, addr := va, aux := shE e.shape } s)
      | .race va tag => .next (engineAbort e c { cause := .race, addr := va / 32 * 32, aux := tag % 2 ^ 24 + 3 * 2 ^ 24 } s)
      | .caname => .next (engineAbort e c { cause := .caname } s)
      | .strict va => .next (engineFault e c { cause := .strict, addr := va, aux := shE e.shape } s)

/-! ### Replay (R380) -/

/-- A precise event for a logged instruction that has no fault service: its split is stopped until the disposal, which replays the
entry or frees it; a CPY that holds no entry stands stopped. -/
def raiseHeld (c : Cls) (a : Access) (f : FaultInfo) (s : State) : State :=
  if a.logix.isNone then s.stopAccess c.id a.id f
  else
    (s.modCls c.id (fun c => c.stopAcc a.id a.split (fun a => { a with stage := .delivered 2 none, fault := some f, replayed := false }))).post
      (a.event c f s.time) c.level (c.kind == .handler)

def Raise.info (r : Raise) : FaultInfo := { cause := r.cause, write := r.write, addr := r.addr, lane := r.lane, aux := r.aux }

/-- The entry misses again: it waits for another walk, or stays ready while no slot is free. -/
def rewalk (c : Cls) (a : Access) (write : Bool) (l : List (LaneReq × Bool)) (s : State) : State :=
  if !s.logRoom c a then s
  else
    match s.takeSlots c a.id write l with
    | none => s
    | some s => s.modCls c.id (fun c => c.modAcc a.id (fun a => { a.intoLog c .walking with found := none }))

/-- A fault found at the replay. -/
def refault (c : Cls) (a : Access) (f : FaultInfo) (now : Bool) (s : State) : State :=
  if now then raiseHeld c a f s else if !s.logRoom c a then s else s.deliverFault c.id a.id f

/-- Phase 1 again, for the virtual addresses of an entry. -/
def replayPhase1 (c : Cls) (a : Access) : Option (LaneReq × Cause) :=
  let align := match a.op with
    | .tlk _ => 1
    | _ => a.op.size
  if a.op.translated then firstFault a.lanes (fun l => addrFault c.level a.op.size align l.ea) else none

/-- Both phases of an ordinary entry again; passed, it goes to the fabric as at first issue. -/
def replayPlain (c : Cls) (a : Access) (s : State) : State :=
  let p := s.phase2 c a.op a.lanes a.pol
  if !p.missed.isEmpty then rewalk c a a.op.need.writes p.missed s
  else
    match p.fault with
    | some f => refault c a f p.now s
    | none =>
      let a' := { a with stage := .fabric, lanes := p.lanes, fault := none, found := none, replayed := a.logix.isSome, sent := s.time,
                         gen := s.genOf c }
      sendGather c.vmid a' ((s.touchAll c a.lanes).modCls c.id (fun c => c.modAcc a.id (fun _ => a')))

/-- TLK.LOCK again. -/
def replayTlk (c : Cls) (a : Access) (pages : Nat) (s : State) : State :=
  let va := (a.srcs.getD 0 0).toNat
  if c.freeLocks.length < pages ∨ 16 < s.lockUse c.core + pages then raiseHeld c a { cause := .xlock, addr := va } s
  else
    match s.lockPages c pages va with
    | .ok l => finishAcc c.id a.id (s.takeLocks c.id a.sdest l)
    | .miss v => rewalk c a false [({ lane := 0x7FFF, ea := v }, false)] s
    | .bad f => refault c a f false s

/-- CPY again: its record is read, and its checks are made. -/
def replayCopy (c : Cls) (a : Access) (fn : Nat) (s : State) : State :=
  if s.engineFull c.core then s
  else
    match copyTry s c a fn with
    | .wait => s
    | .retry => s.modCls c.id (fun c => c.modAcc a.id (fun a => { a with stage := .retry s.time, logix := none }))
    | .bad r =>
      if fn = 7 then resumeAs c.id a.split a.pc a.words (raise r) (s.modCls c.id (fun c => c.dropAcc a.id))
      else raiseHeld c a r.info s
    | .go e s => finishAcc c.id a.id (s.putEngine e)
    | .miss l => rewalk c a false l s
    | .fault f s => refault c a f false s

/-- A store saved at a slice end before it was performed (R129). -/
def Access.owedStore (a : Access) : Bool := a.halted && a.counts && a.op.counts && a.stage == .ready

/-- A replay packet of a restored class: it has no entry in the log (R391). -/
def Access.packet (a : Access) : Bool := a.stage == .ready && a.logix.isNone

/-- An entry is at the memory pipe: ready, or a CPY whose record was refused or that an event had stopped; stores saved at a slice end come
in program order, and replay packets before ready log entries, unless they need one and none is free (R129, R380, R396). -/
def Cls.replays (c : Cls) (a : Access) : Bool :=
  (match a.stage, a.op with
    | .ready, _ => true
    | .fabric, .copy _ => true
    | _, _ => false)
  && !(a.owedStore && (c.mem.takeWhile (fun b => b.id != a.id)).any Access.owedStore)
  && !(a.logix.isSome && c.freeLogix.isSome && c.mem.any Access.packet)

/-- A restored class whose replays have all been made issues again (R396). -/
def State.settleRestore (s : State) (cid : Nat) : State :=
  s.modCls cid (fun c => { c with restoring := c.restoring && c.mem.any (fun a => a.stage == .ready) })

/-- LOG_REPLAY (R380): a ready entry is replayed, its checks repeated for every lane. -/
def execLogReplay (cid acc : Nat) (s : State) : Out :=
  match s.getCls cid with
  | none => .next s
  | some c =>
    match c.mem.find? (fun a => a.id == acc) with
    | none => .next s
    | some a =>
      if !c.replays a ∨ !s.onCore c then .next s
      else
        .next (State.settleRestore (match replayPhase1 c a with
          | some (l, cause) => raiseHeld c a { cause := cause, addr := eaField l.ea, lane := l.lane, aux := a.op.size } s
          | none =>
            match a.op with
            | .tlk n => replayTlk c a n s
            | .copy fn => replayCopy c a fn s
            | _ => replayPlain c a s) cid)

end Sys2Proof.Machine
end

