-- ==== Sys2Proof/Machine/FaultQueues.lean ====
section
/-!
DEFINITION. Fault queues (18_preemption.md R381–R388): appending an entry, its disposition through FQDONE, and the consumer
indices.
-/

namespace Sys2Proof.Machine

/-! ### The words of a queue (Table 18-1) -/

/-- The bank that a queue's words lie in. -/
def queueBank (q : QueueId) : Bank :=
  match q with
  | none => .level0
  | some v => .part v

/-- FQSIZE and DLSIZE as they take effect: clamped. -/
def clampTo (lo hi x : Nat) : Nat := max lo (min hi x)

/-- Entries of the ring. -/
def State.fqLen (s : State) (q : QueueId) : Nat := 2 ^ clampTo 4 16 (s.word (queueBank q) 0x301).toNat
def State.fqProd (s : State) (q : QueueId) : Nat := (s.word (queueBank q) 0x302).toNat % 2 ^ 32
def State.fqCons (s : State) (q : QueueId) : Nat := (s.word (queueBank q) 0x303).toNat % 2 ^ 32

/-- Entries of a ring between two counts modulo 2^32. -/
def ringUse (prod cons : Nat) : Nat := (prod + 2 ^ 32 - cons) % 2 ^ 32

/-- The owner tag of a partition's contexts and rings (PTAG); 0 for the device's. -/
def State.ptag (s : State) (q : QueueId) : Nat :=
  match q with
  | none => 0
  | some v => (s.word (.part v) 0x283).toNat % 64

/-! ### Entries (Table 18-2) -/

/-- The fields of an entry. -/
structure QFields where
  cause : Cause
  from_ : Nat := 0
  resid : Bool := false
  write : Bool := false
  stage2 : Bool := false
  kind  : Nat := 4
  aux   : Nat := 0
  form  : Nat := 0
  lane  : Nat := 0x7FFF
  cslot : Nat := 0x1F
  core  : Nat := 0
  logix : Nat := 0xF
  vmid  : Nat := 0
  asid  : Nat := 0
  epc   : Nat := 0
  insn0 : Nat := 0
  lrec  : Nat := 0
  addr  : Nat := 0
  deriving DecidableEq, Repr

/-- The entry with SEQ and TIME still zero. -/
def QFields.entry (f : QFields) : BitVec 512 :=
  BitVec.ofNat 512 (
    f.cause.code + (f.from_ % 4) * 2 ^ 8 + b2n f.resid * 2 ^ 18 + b2n f.write * 2 ^ 19 + b2n f.stage2 * 2 ^ 20
    + (f.kind % 8) * 2 ^ 24 + (f.aux % 2 ^ 32) * 2 ^ 64 + (f.form % 2 ^ 32) * 2 ^ 96 + (f.lane % 2 ^ 15) * 2 ^ 128
    + (f.cslot % 32) * 2 ^ 147 + (f.core % 256) * 2 ^ 152 + (f.logix % 16) * 2 ^ 160 + (f.vmid % 64) * 2 ^ 164
    + (f.asid % 2 ^ 16) * 2 ^ 176 + (f.epc % 2 ^ 64) * 2 ^ 192 + (f.insn0 % 2 ^ 32) * 2 ^ 288 + (f.lrec % 2 ^ 64) * 2 ^ 320
    + (f.addr % 2 ^ 64) * 2 ^ 448)

/-- SEQ and TIME, known at the append. -/
def stampEntry (e : BitVec 512) (seq time : Nat) : BitVec 512 :=
  BitVec.ofNat 512 (setBits (setBits e.toNat 287 256 (seq % 2 ^ 32)) 447 384 (time % 2 ^ 64))

/-- The launch-record address of a launch. -/
def State.lrecOf (s : State) (launch : Nat) : Nat := ((s.launches.find? (fun l => l.no == launch)).map (fun l => l.recAt)).getD 0

/-- The fields of the fault of a logged instruction. -/
def accessFields (c : Cls) (a : Access) (f : FaultInfo) : QFields :=
  { cause := f.cause, from_ := c.level, resid := !c.live, write := f.write, stage2 := f.stage2, kind := a.op.kind,
    aux := a.op.size, form := c.formno, lane := f.lane, cslot := if c.live then c.slot else 0x1F, core := c.core,
    logix := a.logix.getD 0xF, vmid := c.vmid, asid := c.asid, epc := (pcWord a.pc).toNat,
    insn0 := (a.words.headD 0).toNat, lrec := c.lrec, addr := f.addr }

/-- The fields of a copy engine's fault. -/
def engineFields (s : State) (e : EngineOp) (c : Cls) (f : FaultInfo) : QFields :=
  { cause := f.cause, from_ := c.level, resid := !c.live, write := f.write, stage2 := f.stage2, kind := 5, aux := shE e.shape, form := c.formno,
    cslot := if c.live then c.slot else 0x1F, core := c.core, vmid := c.vmid, asid := c.asid, epc := (pcWord e.pc).toNat,
    lrec := s.lrecOf e.launch, addr := f.addr }

/-- Queue an entry that belongs to nothing: an ORPHAN (R439). -/
def State.queueEntry (s : State) (q : QueueId) (f : QFields) : State :=
  { s with queue := s.queue ++ [{ q := q, owner := .nobody, entry := f.entry }] }

/-! ### Appending (R383) -/

/-- A class that lives on a core or stands in a saved context. -/
def State.anyCls (s : State) (id : Nat) : Option Cls :=
  (s.allCls ++ s.saved.flatMap (fun x => x.classes)).find? (fun c => c.id == id)

/-- Likewise an engine's operation with its class. -/
def State.anyEngine (s : State) (op : Nat) : Option (EngineOp × Cls) :=
  match (s.engines ++ s.saved.flatMap (fun x => x.engines)).find? (fun e => e.id == op) with
  | none => none
  | some e => (s.anyCls e.cls).map (fun c => (e, c))

/-- The entry of a waiting fault, or nothing when what it belongs to is gone. -/
def State.entryOf (s : State) (x : QEntry) : Option (BitVec 512) :=
  match x.owner with
  | .ring _ | .nobody => some x.entry
  | .access cls acc =>
    match s.anyCls cls with
    | none => none
    | some c =>
      match c.mem.find? (fun a => a.id == acc) with
      | none => none
      | some a => a.fault.map (fun f => (accessFields c a f).entry)
  | .engine op =>
    match s.anyEngine op with
    | none => none
    | some (e, c) => e.fault.map (fun f => (engineFields s e c f).entry)

/-- The address of the ring's next entry: guest physical in a partition's ring. -/
def State.fqAt (s : State) (q : QueueId) : Nat :=
  (s.word (queueBank q) 0x300).toNat / 4096 * 4096 + 64 * (s.fqProd q % s.fqLen q)

/-- The place of the ring's next entry, under the ring's owner tag, or the stage-2 fault that the write meets. -/
def State.fqSlot (s : State) (q : QueueId) : Except WalkFault Place :=
  let a := s.fqAt q
  match q with
  | none => .ok { pa := a, key := s.ptag q }
  | some v =>
    match s.guestPlace v a .w with
    | .error f => .error { f with addr := a }
    | .ok p => .ok { p with key := s.ptag q }

/-- The Bursar's class as its firmware begins (R456). -/
def firmwareCls (f : Flash) : Cls :=
  { bursar0 with splits := { state := .ready, pc := f.fwAt, mask := liveMask 32 } :: List.replicate 15 {} }

/-- The Bursar is woken (R403): a split that waits goes on, and firmware that has ended begins again (DESIGN CHOICE: log entry 79). -/
def wakeBursar (s : State) : State :=
  let awake (sp : Split) : Split := match sp.state with
    | .blocked (.wait _ _ _ _ _) | .blocked (.barw _ _ _ _) => { sp with state := .ready, age := 0 }
    | _ => sp
  s.modCls 0 (fun c =>
    if c.live then { c with splits := c.splits.map awake }
    else
      match s.flash with
      | none => c
      | some f => { firmwareCls f with mem := c.mem })

/-- A service record is submitted (R383, R403), unless it is already, or its launch still runs. -/
def State.submitService (s : State) (v : Nat) (wasEmpty : Bool) : State :=
  if (s.word (.part v) 0x305) = 0 ∨ s.services.contains v ∨ s.launches.any (fun l => l.vmid == v && l.service) then s
  else if wasEmpty ∨ s.refusedS.contains v then
    { s with services := s.services ++ [v], refusedS := s.refusedS.filter (fun x => x != v) }
  else s

/-- The first waiting entry of a queue. -/
def State.waitingEntry (s : State) (q : QueueId) : Option QEntry := s.queue.find? (fun x => x.q == q && x.seq.isNone)

/-- Replace the first entry equal to x. -/
def replaceEntry (x : QEntry) (ys : List QEntry) : List QEntry → List QEntry
  | [] => []
  | z :: l => if z = x then ys ++ l else z :: replaceEntry x ys l

/-- Tell the owner the SEQ of its entry. -/
def State.noteSeq (s : State) (x : QEntry) (seq : Nat) : State :=
  match x.owner with
  | .access cls acc =>
    let note (c : Cls) : Cls := c.modAcc acc (fun a => match a.stage with
      | .delivered l _ => { a with stage := .delivered l (some seq) }
      | _ => a)
    { s.modCls cls note with
      saved := s.saved.map (fun x => { x with classes := x.classes.map (fun c => if c.id = cls then note c else c) }) }
  | .engine op =>
    let note (e : EngineOp) : EngineOp := match e.state with
      | .stopped l _ => { e with state := .stopped l (some seq) }
      | _ => e
    { s.modEngine op note with
      saved := s.saved.map (fun x => { x with engines := x.engines.map (fun e => if e.id = op then note e else e) }) }
  | .ring _ | .nobody => s

/-- The append itself: the entry is written with SEQ, FQPROD rises, and a service may be submitted. -/
def appendEntry (q : QueueId) (x : QEntry) (e : BitVec 512) (at_ : Place) (s : State) : State :=
  let seq := s.fqProd q
  let wasEmpty := ringUse seq (s.fqCons q) == 0
  let s := s.putPlace (q.getD 0) at_ (toBytes 64 (stampEntry e seq s.time).toNat)
  let s := s.setWord (queueBank q) 0x302 (BitVec.ofNat 64 ((seq + 1) % 2 ^ 32))
  let left := match x.owner with
    | .nobody => []
    | .access _ _ | .engine _ | .ring _ => [{ x with seq := some seq }]
  let s := (({ s with queue := replaceEntry x left s.queue }).noteSeq x seq)
  match q with
  | none => wakeBursar s
  | some v => s.submitService v wasEmpty

/-- A write of a ring that faults in stage 2 goes to the device queue; the entry waits (R383). -/
def ringFault (v : Nat) (f : WalkFault) (s : State) : State :=
  let e : QFields := { cause := f.cause, stage2 := true, write := true, vmid := v, addr := f.addr }
  { s with queue := s.queue ++ [{ q := none, owner := .ring v, entry := e.entry }] }

/-- FAULT_QUEUE_APPEND (R383): the oldest waiting fault of a queue is appended, while the ring has room. -/
def execFaultQueueAppend (q : QueueId) (s : State) : Out :=
  match s.waitingEntry q with
  | none => .next s
  | some x =>
    match s.entryOf x with
    | none => .next { s with queue := replaceEntry x [] s.queue }
    | some e =>
      let blocked : Bool := match q with
        | none => s.fqStuck
        | some v => s.queue.any (fun y => y.owner == .ring v)
      if blocked || decide (s.fqLen q ≤ ringUse (s.fqProd q) (s.fqCons q)) then .next s
      else
        match s.fqSlot q with
        | .error f => .next (match q with
          | none => s
          | some v => ringFault v f s)
        | .ok p =>
          if !p.peer && decide (Config.memLimit < p.pa + 64) then
            match q with
            | none =>
              let s := s.logErr { cause := 0, sclass := 5, unit_ := 0xD0, die := 8, paddr := p.pa }
              .next { s with fqStuck := true }
            | some v => .next (ringFault v ⟨.xlate, true, s.fqAt q⟩ s)
          else .next (appendEntry q x e p s)

/-! ### Dispositions (R385, R388) -/

/-- Every class of a launch ends, and the launch ends with status ORPHAN (R344). -/
def abortLaunch (no : Nat) (s : State) : State :=
  let ids := (s.allCls.filter (fun c => c.kind == .launch && c.launch == no && c.live)).map (fun c => c.id)
  ids.foldl (fun s i => endClass i s) ((s.orphanLaunch no).endSaved no)

/-- The queue that an ORPHAN report of a partition goes to (R388). -/
def State.orphanQueue (s : State) (level vmid : Nat) : QueueId :=
  if min (s.route level vmid .orphan false) 1 = 0 then none else some vmid

/-- KILL or ABORT of a residual entry: the access is discarded, the launch ends, and an ORPHAN entry reports it. -/
def killResidual (c : Cls) (a : Access) (s : State) : State :=
  let f : QFields := { accessFields c a (a.fault.getD { cause := .orphan }) with cause := .orphan, resid := true }
  finishAcc c.id a.id (abortLaunch c.launch (s.queueEntry (s.orphanQueue c.level c.vmid) f))

/-- KILL, FORWARD or ABORT of a copy engine's entry. -/
def killEngine (e : EngineOp) (c : Cls) (s : State) : State :=
  let f : QFields := { engineFields s e c (e.fault.getD { cause := .orphan }) with cause := .orphan, resid := true }
  settleSeq (abortLaunch e.launch ((s.queueEntry (s.orphanQueue c.level c.vmid) f).endEngine e c))

/-- FORWARD: a precise event to the handler of the class's own level, the tenant's for a tenant's class; a handler's own level is passed by
(R343, R381). -/
def forwardFault (c : Cls) (a : Access) (s : State) : State :=
  match a.fault with
  | none => s
  | some f =>
    if c.kind != .handler then s.forwardTo c a f (min 2 c.level) false
    else if c.level = 0 then s.stopCore c.core f.cause.code none
    else s.forwardTo c a f (c.level - 1) true

/-- The disposition of a logged instruction's fault. -/
def disposeAccess (c : Cls) (a : Access) (disp : Nat) (s : State) : State :=
  match disp with
  | 0 => s.modCls c.id (fun c => c.modAcc a.id Access.resumed)
  | 1 => if c.live then forwardFault c a s else killResidual c a s
  | 2 => if c.live then endClass c.id (s.modCls c.id (fun c => c.dropAcc a.id)) else killResidual c a s
  | _ => if c.live then finishAcc c.id a.id (abortLaunch c.launch s) else killResidual c a s

/-- An engine's fault is serviced: it goes on from its progress counter, or in its turn when another command has the engine meanwhile
(R304, R385). -/
def resumeEngine (e : EngineOp) (s : State) : State :=
  let taken := s.engines.any (fun x => x.engine == e.engine && x.id != e.id && x.state != .queued)
  s.modEngine e.id (fun e => { e with state := if taken then .queued else .running, fault := none, refusedAt := none })

/-- Record a disposition in the saved context that holds the entry: it acts at restore (R385). -/
def recordSaved (cls acc disp : Nat) (s : State) : State :=
  { s with saved := s.saved.map (fun x => if x.holds cls then { x with recorded := x.recorded ++ [(cls, acc, disp)] } else x) }

/-- Dispose of the undisposed entry of a queue with this SEQ; any other SEQ is ignored. A ring's fault disposed of otherwise than with
REPLAY goes on holding the ring's appends, under a SEQ that nothing names (R383). -/
def fqdone (q : QueueId) (seq disp : Nat) (s : State) : State :=
  match s.queue.find? (fun x => x.q == q && x.seq == some seq) with
  | none => s
  | some x =>
    let s := { s with queue := replaceEntry x [] s.queue }
    match x.owner with
    | .ring _ => if disp = 0 then s else { s with queue := s.queue ++ [{ x with seq := some (2 ^ 32) }] }
    | .nobody => s
    | .access cls acc =>
      match s.getCls cls with
      | none => recordSaved cls acc disp s
      | some c =>
        match c.mem.find? (fun a => a.id == acc) with
        | none => s
        | some a => disposeAccess c a disp s
    | .engine op =>
      match s.engineOp op with
      | none => { s with saved := s.saved.map (fun x =>
          if x.engines.any (fun e => e.id == op) then { x with recorded := x.recorded ++ [(0, op, disp)] } else x) }
      | some (e, c) =>
        if disp = 0 then resumeEngine e s else killEngine e c s

/-- FQDONE_REPLAY (R385). -/
def execFqdoneReplay (q : QueueId) (seq : Nat) (s : State) : Out := .next (fqdone q seq 0 s)
/-- FQDONE_FORWARD (R385). -/
def execFqdoneForward (q : QueueId) (seq : Nat) (s : State) : Out := .next (fqdone q seq 1 s)
/-- FQDONE_KILL (R385, R388). -/
def execFqdoneKill (q : QueueId) (seq : Nat) (s : State) : Out := .next (fqdone q seq 2 s)
/-- FQDONE_ABORT (R385, R388). -/
def execFqdoneAbort (q : QueueId) (seq : Nat) (s : State) : Out := .next (fqdone q seq 3 s)

/-! ### Consumer indices -/

/-- A consumer index moves to the value written, but never beyond the producer's. -/
def clampCons (prod cons value : Nat) : Nat :=
  if ringUse prod cons < ringUse (value % 2 ^ 32) cons then prod else value % 2 ^ 32

/-- A write of FQCONS. -/
def setFqcons (q : QueueId) (value : Nat) (s : State) : State :=
  s.setWord (queueBank q) 0x303 (BitVec.ofNat 64 (clampCons (s.fqProd q) (s.fqCons q) value))

/-- FQCONS_WRITE (Table 18-1). -/
def execFqconsWrite (q : QueueId) (value : Nat) (s : State) : Out := .next (setFqcons q value s)

/-- A write of DLCONS (R371). -/
def setDlcons (vmid value : Nat) (s : State) : State :=
  let p := (s.word (.part vmid) 0x112).toNat % 2 ^ 32
  let c := (s.word (.part vmid) 0x113).toNat % 2 ^ 32
  s.setWord (.part vmid) 0x113 (BitVec.ofNat 64 (clampCons p c value))

/-- DLCONS_WRITE (R371). -/
def execDlconsWrite (vmid value : Nat) (s : State) : Out := .next (setDlcons vmid value s)

end Sys2Proof.Machine
end

