-- ==== Sys2Proof/Decode.lean ====
section
/-!
DEFINITION. Decoding words to instructions and encoding instructions as words, from the formats R180–R187, the opcode
map R190 (Tables 9-4 to 9-8) and the function values R191 (Table 9-9). `decodeGroup` reads a group of one to three words
and rejects by name; `Instr.encode` writes the words of a well-formed instruction. The checks of Table 9-11 that depend on
the class are made when the instruction runs.
-/

namespace Sys2Proof

/-! ### Fields of a word (R180) -/

def wOp (w : Word) : BitVec 7 := w.extractLsb' 25 7
def wRd (w : Word) : Reg := w.extractLsb' 18 7
def wRa (w : Word) : Reg := w.extractLsb' 11 7
def wRb (w : Word) : Reg := w.extractLsb' 4 7
def wFn (w : Word) : BitVec 4 := w.extractLsb' 0 4
def wImm11 (w : Word) : BitVec 11 := w.extractLsb' 0 11
def wImm18 (w : Word) : BitVec 18 := w.extractLsb' 0 18
def wImm25 (w : Word) : BitVec 25 := w.extractLsb' 0 25
def wOff19 (w : Word) : BitVec 19 := w.extractLsb' 0 19

/-- R, X and (with an off7 field in place of rb) L and M words. -/
def mkR (op : BitVec 7) (rd ra rb : Reg) (fn : BitVec 4) : Word := op ++ rd ++ ra ++ rb ++ fn
/-- I and Y words. -/
def mkI (op : BitVec 7) (rd ra : Reg) (imm : BitVec 11) : Word := op ++ rd ++ ra ++ imm
/-- J and P words. -/
def mkJ (op : BitVec 7) (imm : BitVec 25) : Word := op ++ imm
/-- Z and U words. -/
def mkU (op : BitVec 7) (rd : Reg) (imm : BitVec 18) : Word := op ++ rd ++ imm
/-- B words. -/
def mkB (op : BitVec 7) (k cond : BitVec 3) (off : BitVec 19) : Word := op ++ k ++ cond ++ off

/-! ### Function values (Table 9-9): a function's code is its place in the list -/

/-- The functions of `AluFn` in the order of their codes. -/
def AluFn.table : List AluFn := [.add, .sub, .mul, .mulh, .mulhn, .and, .or, .xor, .shl, .shr, .sra, .min, .max, .minn, .maxn, .adds]
def AluFn.code (n : Nat) (f : AluFn) : BitVec n := BitVec.ofNat n (AluFn.table.idxOf f)
def AluFn.ofCode {n : Nat} (c : BitVec n) : Option AluFn := AluFn.table[c.toNat]?
/-- The functions of `CmpFn` in the order of their codes. -/
def CmpFn.table : List CmpFn := [.eq, .ne, .lt, .le, .gt, .ge, .ltn, .len, .gtn, .gen]
def CmpFn.code (n : Nat) (f : CmpFn) : BitVec n := BitVec.ofNat n (CmpFn.table.idxOf f)
def CmpFn.ofCode {n : Nat} (c : BitVec n) : Option CmpFn := CmpFn.table[c.toNat]?
/-- The functions of `MadFn` in the order of their codes. -/
def MadFn.table : List MadFn := [.mad, .madh, .madhn, .mads]
def MadFn.code (n : Nat) (f : MadFn) : BitVec n := BitVec.ofNat n (MadFn.table.idxOf f)
def MadFn.ofCode {n : Nat} (c : BitVec n) : Option MadFn := MadFn.table[c.toNat]?
/-- The functions of `VunFn` in the order of their codes. -/
def VunFn.table : List VunFn := [.mov, .not, .neg, .abs, .clz, .popc, .brev, .bcst, .lane, .sextb, .sexth, .zextb, .zexth]
def VunFn.code (n : Nat) (f : VunFn) : BitVec n := BitVec.ofNat n (VunFn.table.idxOf f)
def VunFn.ofCode {n : Nat} (c : BitVec n) : Option VunFn := VunFn.table[c.toNat]?
/-- The functions of `PackFn` in the order of their codes. -/
def PackFn.table : List PackFn := [.hlo, .hhi, .blo, .bhi]
def PackFn.code (n : Nat) (f : PackFn) : BitVec n := BitVec.ofNat n (PackFn.table.idxOf f)
def PackFn.ofCode {n : Nat} (c : BitVec n) : Option PackFn := PackFn.table[c.toNat]?
/-- The functions of `VoteFn` in the order of their codes. -/
def VoteFn.table : List VoteFn := [.any, .all, .cnt, .eq]
def VoteFn.code (n : Nat) (f : VoteFn) : BitVec n := BitVec.ofNat n (VoteFn.table.idxOf f)
def VoteFn.ofCode {n : Nat} (c : BitVec n) : Option VoteFn := VoteFn.table[c.toNat]?
/-- The functions of `ShflOp` in the order of their codes. -/
def ShflOp.table : List ShflOp := [.idx, .up, .down, .xor]
def ShflOp.code (n : Nat) (f : ShflOp) : BitVec n := BitVec.ofNat n (ShflOp.table.idxOf f)
def ShflOp.ofCode {n : Nat} (c : BitVec n) : Option ShflOp := ShflOp.table[c.toNat]?
/-- The functions of `KopFn` in the order of their codes. -/
def KopFn.table : List KopFn := [.and, .or, .xor, .andn, .not, .mov, .pop, .first, .last, .fromv, .tov, .clear, .fill]
def KopFn.code (n : Nat) (f : KopFn) : BitVec n := BitVec.ofNat n (KopFn.table.idxOf f)
def KopFn.ofCode {n : Nat} (c : BitVec n) : Option KopFn := KopFn.table[c.toNat]?
/-- The functions of `FaluFn` in the order of their codes. -/
def FaluFn.table : List FaluFn := [.add, .sub, .mul, .min, .max, .minm, .maxm, .absd, .copys, .scalb]
def FaluFn.code (n : Nat) (f : FaluFn) : BitVec n := BitVec.ofNat n (FaluFn.table.idxOf f)
def FaluFn.ofCode {n : Nat} (c : BitVec n) : Option FaluFn := FaluFn.table[c.toNat]?
/-- The functions of `FmaFn` in the order of their codes. -/
def FmaFn.table : List FmaFn := [.fma, .fms, .nfma, .nfms]
def FmaFn.code (n : Nat) (f : FmaFn) : BitVec n := BitVec.ofNat n (FmaFn.table.idxOf f)
def FmaFn.ofCode {n : Nat} (c : BitVec n) : Option FmaFn := FmaFn.table[c.toNat]?
/-- The functions of `FcmpFn` in the order of their codes. -/
def FcmpFn.table : List FcmpFn := [.eq, .ne, .lt, .le, .gt, .ge, .un, .ord]
def FcmpFn.code (n : Nat) (f : FcmpFn) : BitVec n := BitVec.ofNat n (FcmpFn.table.idxOf f)
def FcmpFn.ofCode {n : Nat} (c : BitVec n) : Option FcmpFn := FcmpFn.table[c.toNat]?
/-- The functions of `FunFn` in the order of their codes. -/
def FunFn.table : List FunFn := [.abs, .neg, .rcp, .rsq, .sqrt, .exp2, .log2, .tanh, .sinpi, .cospi, .floor, .ceil, .trunc, .rint, .cls, .frac]
def FunFn.code (n : Nat) (f : FunFn) : BitVec n := BitVec.ofNat n (FunFn.table.idxOf f)
def FunFn.ofCode {n : Nat} (c : BitVec n) : Option FunFn := FunFn.table[c.toNat]?
/-- The functions of `HaluFn` in the order of their codes. -/
def HaluFn.table : List HaluFn := [.add2, .sub2, .mul2, .min2, .max2, .neg2, .abs2]
def HaluFn.code (n : Nat) (f : HaluFn) : BitVec n := BitVec.ofNat n (HaluFn.table.idxOf f)
def HaluFn.ofCode {n : Nat} (c : BitVec n) : Option HaluFn := HaluFn.table[c.toNat]?
/-- The functions of `CvtFn` in the order of their codes. -/
def CvtFn.table : List CvtFn := [.f32I32, .f32N32, .i32F32Rz, .i32F32Rne, .i32F32Rd, .i32F32Ru, .n32F32Rz, .n32F32Rne, .f16x2, .bf16x2, .bf16x2Rz, .f16l, .f16h, .bf16l, .bf16h]
def CvtFn.code (n : Nat) (f : CvtFn) : BitVec n := BitVec.ofNat n (CvtFn.table.idxOf f)
def CvtFn.ofCode {n : Nat} (c : BitVec n) : Option CvtFn := CvtFn.table[c.toNat]?
/-- The functions of `ExpdKind` in the order of their codes. -/
def ExpdKind.table : List ExpdKind := [.int4, .nat4, .e2m1, .e3m2, .e2m3, .lut]
def ExpdKind.code (n : Nat) (f : ExpdKind) : BitVec n := BitVec.ofNat n (ExpdKind.table.idxOf f)
def ExpdKind.ofCode {n : Nat} (c : BitVec n) : Option ExpdKind := ExpdKind.table[c.toNat]?
/-- The functions of `RedFn` in the order of their codes. -/
def RedFn.table : List RedFn := [.add, .min, .max, .minn, .maxn, .and, .or, .xor]
def RedFn.code (n : Nat) (f : RedFn) : BitVec n := BitVec.ofNat n (RedFn.table.idxOf f)
def RedFn.ofCode {n : Nat} (c : BitVec n) : Option RedFn := RedFn.table[c.toNat]?
/-- The functions of `RedfFn` in the order of their codes. -/
def RedfFn.table : List RedfFn := [.add, .min, .max]
def RedfFn.code (n : Nat) (f : RedfFn) : BitVec n := BitVec.ofNat n (RedfFn.table.idxOf f)
def RedfFn.ofCode {n : Nat} (c : BitVec n) : Option RedfFn := RedfFn.table[c.toNat]?
/-- The functions of `ShiftKind` in the order of their codes. -/
def ShiftKind.table : List ShiftKind := [.shl, .shr, .sra]
def ShiftKind.code (n : Nat) (f : ShiftKind) : BitVec n := BitVec.ofNat n (ShiftKind.table.idxOf f)
def ShiftKind.ofCode {n : Nat} (c : BitVec n) : Option ShiftKind := ShiftKind.table[c.toNat]?
/-- The functions of `BuCond` in the order of their codes. -/
def BuCond.table : List BuCond := [.any, .all, .none, .nall]
def BuCond.code (n : Nat) (f : BuCond) : BitVec n := BitVec.ofNat n (BuCond.table.idxOf f)
def BuCond.ofCode {n : Nat} (c : BitVec n) : Option BuCond := BuCond.table[c.toNat]?
/-- The functions of `FenceKind` in the order of their codes. -/
def FenceKind.table : List FenceKind := [.acq, .rel, .acqrel, .sc]
def FenceKind.code (n : Nat) (f : FenceKind) : BitVec n := BitVec.ofNat n (FenceKind.table.idxOf f)
def FenceKind.ofCode {n : Nat} (c : BitVec n) : Option FenceKind := FenceKind.table[c.toNat]?
/-- The functions of `WaitCond` in the order of their codes. -/
def WaitCond.table : List WaitCond := [.eq, .ne, .gep, .gen, .masknz]
def WaitCond.code (n : Nat) (f : WaitCond) : BitVec n := BitVec.ofNat n (WaitCond.table.idxOf f)
def WaitCond.ofCode {n : Nat} (c : BitVec n) : Option WaitCond := WaitCond.table[c.toNat]?
/-- The functions of `Width` in the order of their codes. -/
def Width.table : List Width := [.b, .h, .w, .d]
def Width.code (n : Nat) (f : Width) : BitVec n := BitVec.ofNat n (Width.table.idxOf f)
def Width.ofCode {n : Nat} (c : BitVec n) : Option Width := Width.table[c.toNat]?

/-- A k or a register field: bits 6:3 must be zero (R181). -/
def reg3 (r : Reg) : Option Reg3 := if r.toNat < 8 then some (r.setWidth 3) else none

/-- A bit of a word as a Bool. -/
def wBit (w : Word) (i : Nat) : Bool := w.getLsbD i

/-! ### PFXP (R186, Table 9-2) -/

/-- The PFXP fields of a word of opcode 0x0E; none when a bit of 14:0 is set. -/
def Pfxp.ofWord (w : Word) : Option Pfxp :=
  if w.extractLsb' 0 15 = 0 then
    some { pred := w.extractLsb' 22 3, inv := wBit w 21, pol := w.extractLsb' 19 2, scope := w.extractLsb' 16 3,
           rbs := wBit w 15 }
  else none

def Pfxp.toWord (p : Pfxp) : Word :=
  (0x0E : BitVec 7) ++ p.pred ++ BitVec.ofBool p.inv ++ p.pol ++ p.scope ++ BitVec.ofBool p.rbs ++ (0 : BitVec 15)

/-! ### Rejections -/

/-- Why a group is not a legal instruction, named by the step of Table 9-11 that fails. -/
inductive DecodeError where
  | reservedOpcode   -- step 1: reserved major opcode, or a word of opcode 0x03 other than KEND's
  | prefixGroup      -- step 2: the group breaks R184, or the instruction does not accept a prefix that is present
  | illegalField     -- step 4 or the static part of step 5: reserved value, must-be-zero field, register pair or run
  deriving DecidableEq, Repr

/-- The highest level that may execute a privileged opcode (R192, Table 9-10); none for the others. -/
def privLevel (op : BitVec 7) : Option Nat :=
  match op.toNat with
  | 0x1F | 0x2D | 0x2F => some 0
  | 0x28 | 0x29 | 0x2A | 0x2B | 0x2C | 0x2E => some 1
  | _ => none

/-! ### One word with its prefixes -/

/-- The instruction of a word with its prefixes, before the checks of `Instr.wf`. -/
def decodeWord (x : Imx) (p : Pfx) (w : Word) : Except DecodeError Instr :=
  let d := wRd w
  let a := wRa w
  let b := wRb w
  let f := wFn w
  let c := wImm11 w
  let fld (o : Option Instr) : Except DecodeError Instr :=
    match o with
    | some i => .ok i
    | none => .error .illegalField
  -- an instruction that accepts no prefix, only PFXP, or both
  let no (o : Option Instr) : Except DecodeError Instr :=
    if x.isSome || p.isSome then .error .prefixGroup else fld o
  let onlyP (o : Option Instr) : Except DecodeError Instr := if x.isSome then .error .prefixGroup else fld o
  let onlyX (o : Option Instr) : Except DecodeError Instr := if p.isSome then .error .prefixGroup else fld o
  let when (t : Bool) (i : Instr) : Option Instr := if t then some i else none
  match (wOp w).toNat with
  | 0x01 => no (when (d == 0 && a == 0 && c == 0) .nop)
  | 0x02 => no (when (d == 0 && a == 0 && c == 0) .endClass)
  | 0x03 => if w == 0x06000000 then no (some .kend) else .error .reservedOpcode
  | 0x04 => no (some (.bra (wImm25 w)))
  | 0x05 => no (some (.call (wImm25 w)))
  | 0x06 => no (when (d == 0 && a == 0 && c == 0) .ret)
  | 0x07 => no (when (d == 0) (.switch a c))
  | 0x08 => no ((BuCond.ofCode (w.extractLsb' 19 3)).map fun t => .bu (w.extractLsb' 22 3) t (wOff19 w))
  | 0x09 => no (some (.bz d (wImm18 w)))
  | 0x0A => no (some (.bnz d (wImm18 w)))
  | 0x0C => no (when (d == 0 && a == 0 && c == 0) .join)
  | 0x10 => no (when (d == 0 && a == 0 && c == 0) .allb)
  | 0x11 => no (when (d == 0 && a == 0 && c == 0) .alle)
  | 0x12 => no (when (d == 0 && a == 0 && w.extractLsb' 9 2 == 0) (.wbase (w.extractLsb' 0 9)))
  | 0x13 => no (if b == 0 then (VoteFn.ofCode f).map fun t => .vote t d a else none)
  | 0x14 => onlyP (if wBit w 3 then none else (ShflOp.ofCode (w.extractLsb' 0 2)).map fun t => .shfl p t (wBit w 2) d a b)
  | 0x15 => no (when (a == 0) (.srd d c))
  | 0x16 => no (when (d == 0) (.swr a c))
  | 0x17 => no (when (d == 0 && a == 0) (.trap c))
  | 0x18 => no (when (d == 0 && a == 0) (.brk c))
  | 0x19 => no (when (c == 0) (.launch d a))
  | 0x1A => onlyP ((KopFn.ofCode f).map fun t => .kop p t d a b)
  | 0x1B => no (match f.toNat with
      | 0 => when (b == 0) (.obRes d a)
      | 1 => when (d == 0 && b == 0) (.obRel a)
      | 2 => some (.obSt d a b)
      | 3 => some (.obLd d a b)
      | 4 => when (b == 0) (.obStat d a)
      | _ => none)
  | 0x1C => no (match f.toNat with
      | 0 => if a == 0 && b == 0 then (reg3 d).map .matZero else none
      | 1 => (reg3 d).map fun t => .matLoop t a b
      | 2 => (reg3 d).map fun t => .matDrain t a b
      | 3 => if b == 0 then (reg3 a).map fun t => .matStat d t else none
      | _ => none)
  | 0x1D => no (match f.toNat with
      | 0 => some (.chkbLane d a b)
      | 1 => some (.chkbScalar d a b)
      | _ => none)
  | 0x1E => no (match f.toNat with
      | 0 => some (.tlkLock d a b)
      | 1 => when (d == 0 && b == 0) (.tlkUnlk a)
      | _ => none)
  | 0x1F => no (some (.pstd d a b f))
  | 0x20 => no ((AluFn.ofCode f).map fun t => .salu t d a b)
  | 0x21 => no ((CmpFn.ofCode f).map fun t => .scmp t d a b)
  | 0x22 => onlyX (some (.saddi x d a c))
  | 0x23 => onlyX (some (.sandi x d a c))
  | 0x24 => onlyX (some (.sori x d a c))
  | 0x25 => no (if w.extractLsb' 6 3 == 0 then (ShiftKind.ofCode (w.extractLsb' 9 2)).map fun t => .sshi t d a (w.extractLsb' 0 6) else none)
  | 0x26 => no (some (.slui d (wImm18 w)))
  | 0x27 => no (when (!wBit w 10) (.smovv d a (w.extractLsb' 0 10)))
  | 0x28 => no (when (a == 0) (.crd d (wBit w 10) (w.extractLsb' 0 10)))
  | 0x29 => no (when (d == 0) (.cwr a (wBit w 10) (w.extractLsb' 0 10)))
  | 0x2A => no (when (d == 0 && a == 0 && c == 0) .tret)
  | 0x2B => no (match f.toNat with
      | 0 => some (.tlbFill d a b)
      | 1 => some (.tlbInv d a b)
      | 2 => when (a == 0) (.tlbInva d b)
      | 3 => some (.tlbShoot d a b)
      | 4 => some (.tlbLook d a b)
      | _ => none)
  | 0x2C => no (match f.toNat with
      | 0 => some (.sealAdmit d a b)
      | 1 => some (.sealSeal d a b)
      | 2 => when (b == 0) (.sealUnseal d a)
      | _ => none)
  | 0x2D => no (match f.toNat with
      | 0 => some (.ctxSave d a b)
      | 1 => some (.ctxLoad d a b)
      | 2 => when (b == 0) (.ctxPark d a)
      | 3 => when (b == 0) (.ctxResume d a)
      | _ => none)
  | 0x2E => no (match f.toNat with
      | 0 => some (.rightsGrant d a b)
      | 1 => some (.rightsRevoke d a b)
      | 2 => some (.rightsRoute d a b)
      | _ => none)
  | 0x2F => no (some (.pldd d a b f))
  | 0x30 => onlyP ((AluFn.ofCode f).map fun t => .valu p t d a b)
  | 0x31 => onlyP ((AluFn.ofCode f).map fun t => .valus p t d a b)
  | 0x32 => onlyP ((MadFn.ofCode f).map fun t => .vmad p t d a b)
  | 0x33 => onlyP ((reg3 d).bind fun k => (CmpFn.ofCode f).map fun t => .vcmp p t k a b)
  | 0x34 => onlyP ((reg3 d).bind fun k => (CmpFn.ofCode f).map fun t => .vcmps p t k a b)
  | 0x35 => onlyP (if b == 0 then (VunFn.ofCode f).map fun t => .vun p t d a else none)
  | 0x36 => onlyP (when (!wBit w 3) (.vsel p d a b (w.extractLsb' 0 3)))
  | 0x37 => fld (some (.vaddi x p d a c))
  | 0x38 => onlyP (if w.extractLsb' 5 4 == 0 then (ShiftKind.ofCode (w.extractLsb' 9 2)).map fun t => .vshi p t d a (w.extractLsb' 0 5) else none)
  | 0x39 => onlyP ((PackFn.ofCode f).map fun t => .vpack p t d a b)
  | 0x40 => onlyP ((FaluFn.ofCode f).map fun t => .falu p t d a b)
  | 0x41 => onlyP ((FaluFn.ofCode f).map fun t => .falus p t d a b)
  | 0x42 => onlyP (if wBit w 2 then none else (FmaFn.ofCode (w.extractLsb' 0 2)).map fun t => .ffma p t (wBit w 3) d a b)
  | 0x43 => onlyP ((reg3 d).bind fun k => (FcmpFn.ofCode f).map fun t => .fcmp p t k a b)
  | 0x44 => onlyP (if b == 0 then (FunFn.ofCode f).map fun t => .funit p t d a else none)
  | 0x45 => onlyP ((HaluFn.ofCode (w.extractLsb' 0 3)).map fun t => .halu p (wBit w 3) t d a b)
  | 0x46 => onlyP (when (w.extractLsb' 1 2 == 0) (.hfma p (wBit w 3) (wBit w 0) d a b))
  | 0x47 => onlyP ((CvtFn.ofCode f).map fun t => .cvt p t d a b)
  | 0x48 => onlyP (if wBit w 3 then when (b == 0) (.cvt8Unpack p (wBit w 2) (w.extractLsb' 0 2) d a)
      else some (.cvt8Pack p (wBit w 2) (wBit w 1) (wBit w 0) d a b))
  | 0x49 => onlyP ((ExpdKind.ofCode (w.extractLsb' 1 3)).map fun t => .expd p t (wBit w 0) d a b)
  | 0x4A => no (if b == 0 then (RedFn.ofCode f).map fun t => .redi t d a else none)
  | 0x4B => no (if b == 0 then (RedfFn.ofCode f).map fun t => .redf t d a else none)
  | 0x50 => fld (some (.ldl x p .b d a b f))
  | 0x51 => fld (some (.ldl x p .h d a b f))
  | 0x52 => fld (some (.ldl x p .w d a b f))
  | 0x53 => fld (some (.ldl x p .d d a b f))
  | 0x54 => fld (some (.stl x p .b d a b f))
  | 0x55 => fld (some (.stl x p .h d a b f))
  | 0x56 => fld (some (.stl x p .w d a b f))
  | 0x57 => fld (some (.stl x p .d d a b f))
  | 0x58 => onlyP (some (.ldi p .b d a b f))
  | 0x59 => onlyP (some (.ldi p .h d a b f))
  | 0x5A => onlyP (some (.ldi p .w d a b f))
  | 0x5B => onlyP (some (.ldi p .d d a b f))
  | 0x5C => onlyP (some (.sti p .b d a b f))
  | 0x5D => onlyP (some (.sti p .h d a b f))
  | 0x5E => onlyP (some (.sti p .w d a b f))
  | 0x5F => onlyP (some (.sti p .d d a b f))
  | 0x60 => fld (some (.sld x p false d a b f))
  | 0x61 => fld (some (.sld x p true d a b f))
  | 0x62 => fld (some (.sst x p false d a b f))
  | 0x63 => fld (some (.sst x p true d a b f))
  | 0x64 => fld (some (.lds x p false d a b f))
  | 0x65 => fld (some (.lds x p true d a b f))
  | 0x66 => fld (some (.sts x p false d a b f))
  | 0x67 => fld (some (.sts x p true d a b f))
  | 0x68 => fld (some (.ldaq x p d a b f))
  | 0x69 => fld (some (.strl x p d a b f))
  | 0x6A => onlyP (some (.aadd p d a b f))
  | 0x6B => onlyP (some (.amin p d a b f))
  | 0x6C => onlyP (some (.amax p d a b f))
  | 0x6D => onlyP (some (.aand p d a b f))
  | 0x6E => onlyP (some (.aor p d a b f))
  | 0x6F => onlyP (some (.axor p d a b f))
  | 0x70 => onlyP (some (.axch p d a b f))
  | 0x71 => onlyP (some (.acas p d a b f))
  | 0x72 => onlyP (some (.afadd p d a b f))
  | 0x73 => onlyP ((RedFn.ofCode d).map fun t => .mredW p t a b f)
  | 0x74 => onlyP ((RedFn.ofCode d).map fun t => .mredD p t a b f)
  | 0x75 => onlyP ((RedfFn.ofCode d).map fun t => .mredF p t a b f)
  | 0x76 => onlyP (some (.rldsF p (wBit w 10) d a (w.extractLsb' 4 6) f))
  | 0x77 => onlyP (when (!wBit w 10) (.rldsI p d a (w.extractLsb' 4 6) f))
  | 0x78 => no (if d == 0 && a == 0 && w.extractLsb' 5 6 == 0 then
      (FenceKind.ofCode (w.extractLsb' 0 2)).map fun t => .fence (w.extractLsb' 2 3) t else none)
  | 0x79 => onlyP (if d == 0 then (WaitCond.ofCode f).map fun t => .wait p t a b else none)
  | 0x7A => onlyP (match f.toNat with
      | 0 => when (d == 0) (.bari p a b)
      | 1 => when (d == 0) (.barv p a b)
      | 2 => when (d == 0) (.barw p a b)
      | 3 => when (d == 0) (.barx p a b)
      | 4 => when (d == 0 && b == 0) (.barz p a)
      | 5 => when (b == 0) (.barp p d a)
      | _ => none)
  | 0x7B => no (match f.toNat with
      | 0 => some (.cpyGs d a b)
      | 1 => some (.cpySg d a b)
      | 2 => some (.cpyGob d a b)
      | 3 => some (.cpyGb d a b)
      | 4 => some (.cpySob d a b)
      | 5 => some (.cpyCas d a b)
      | 6 => some (.cpyCag d a b)
      | 7 => some (.cpySca d a b)
      | 8 => some (.cpyGg d a b)
      | _ => none)
  | 0x7C => no (match f.toNat with
      | 0 => when (b == 0) (.caLoa d a)
      | 1 => when (b == 0) (.caNode d a)
      | 2 => when (d == 0 && b == 0) (.caRef a)
      | 3 => when (d == 0 && b == 0) (.caRel a)
      | 4 => when (b == 0) (.caGet d a)
      | 5 => some (.caSwap d a b)
      | 6 => when (b == 0) (.caStat d a)
      | _ => none)
  | 0x7D => onlyP (some (.cld p d a b f))
  | 0x7E => onlyP (when (f == 0) (.pref p d a b))
  | _ => .error .reservedOpcode

/-- Opcodes that Tables 9-4 to 9-8 list, prefixes and BSPL among them. -/
def opcodeListed (op : BitVec 7) : Bool :=
  let n := op.toNat
  (1 ≤ n && n ≤ 0x39) || (0x40 ≤ n && n ≤ 0x4B) || (0x50 ≤ n && n ≤ 0x7E)

/-- A decoded instruction passes the static checks, or is refused. -/
def checkWf (r : Except DecodeError Instr) : Except DecodeError Instr :=
  match r with
  | .ok i => if i.wf then .ok i else .error .illegalField
  | .error e => .error e

/-- The instruction word of a group and its prefixes: PFXI and PFXP at most once each, in either order, before an
instruction (R184). `fuel` bounds the prefixes still allowed. -/
def decodeRest (fuel : Nat) (x : Imx) (p : Pfx) (ws : List Word) : Except DecodeError Instr :=
  match fuel, ws with
  | _, [] => .error .prefixGroup
  | n, w :: rest =>
    match (wOp w).toNat with
    | 0x0D =>
      match n with
      | 0 => .error .prefixGroup
      | n + 1 => if x.isSome then .error .prefixGroup else decodeRest n (some (wImm25 w)) p rest
    | 0x0E =>
      match n with
      | 0 => .error .prefixGroup
      | n + 1 =>
        if p.isSome then .error .prefixGroup else
          match Pfxp.ofWord w with
          | some q => decodeRest n x (some q) rest
          | none => .error .prefixGroup
    | 0x0F | 0x0B => .error .prefixGroup
    | _ => checkWf (decodeWord x p w)

/-- The instruction of a group (R184): PFXJ and BSPL, or an instruction with at most one PFXI and one PFXP before it. -/
def decodeGroup (ws : List Word) : Except DecodeError Instr :=
  match ws with
  | [] => .error .prefixGroup
  | w :: rest =>
    match (wOp w).toNat with
    | 0x0F =>
      match rest with
      | b :: _ =>
        if (wOp b).toNat = 0x0B then
          if b.extractLsb' 20 2 = 0 then
            .ok (.bspl (wImm25 w) (b.extractLsb' 22 3) (wBit b 19) (wOff19 b))
          else .error .illegalField
        else .error .prefixGroup
      | [] => .error .prefixGroup
    | _ => decodeRest 2 none none ws

/-- How many words the group that begins with these words has (R184): its prefixes and one word more, at most three. -/
def groupLength (ws : List Word) : Nat :=
  match ws with
  | [] => 1
  | w :: rest =>
    match (wOp w).toNat with
    | 0x0F => 2
    | 0x0D | 0x0E =>
      match rest with
      | [] => 2
      | w' :: _ => if (wOp w').toNat = 0x0D ∨ (wOp w').toNat = 0x0E then 3 else 2
    | _ => 1

/-- The major opcode of the instruction that a group's prefixes join: its last word's. -/
def groupOpcode (ws : List Word) : BitVec 7 := wOp ((ws.take (groupLength ws)).getLast?.getD 0)

/-! ### Encoding -/

/-- The words of the prefixes, PFXI first (R198). -/
def prefixWords (x : Imx) (p : Pfx) : List Word :=
  (match x with | some i => [mkJ 0x0D i] | none => []) ++ (match p with | some q => [q.toWord] | none => [])

/-- A k or a register as a seven-bit field. -/
def field3 (r : Reg3) : Reg := r.setWidth 7

/-- Sub-fields of an imm11 or ctl11 field. -/
def shImm6 (k : ShiftKind) (n : BitVec 6) : BitVec 11 := k.code 2 ++ (0 : BitVec 3) ++ n
def shImm5 (k : ShiftKind) (n : BitVec 5) : BitVec 11 := k.code 2 ++ (0 : BitVec 4) ++ n
def ctlBelow (below : Bool) (ix : BitVec 10) : BitVec 11 := BitVec.ofBool below ++ ix

/-- The width's opcode offset within its four opcodes (Table 9-8). -/
def opPlus (base : Nat) (wd : Width) : BitVec 7 := BitVec.ofNat 7 (base + Width.table.idxOf wd)
def opIf (base : Nat) (t : Bool) : BitVec 7 := BitVec.ofNat 7 (base + t.toNat)

/-- The words of a well-formed instruction, first word first; no words for a device event. -/
def Instr.encode : Instr → List Word
  | .nop => [mkI 0x01 0 0 0]
  | .endClass => [mkI 0x02 0 0 0]
  | .kend => [mkI 0x03 0 0 0]
  | .bra off => [mkJ 0x04 off]
  | .call off => [mkJ 0x05 off]
  | .ret => [mkI 0x06 0 0 0]
  | .switch ra t => [mkI 0x07 0 ra t]
  | .bu k c off => [mkB 0x08 k (c.code 3) off]
  | .bz ra off => [mkU 0x09 ra off]
  | .bnz ra off => [mkU 0x0A ra off]
  | .bspl j k inv off => [mkJ 0x0F j, mkB 0x0B k ((0 : BitVec 2) ++ BitVec.ofBool inv) off]
  | .join => [mkI 0x0C 0 0 0]
  | .allb => [mkI 0x10 0 0 0]
  | .alle => [mkI 0x11 0 0 0]
  | .wbase n => [mkI 0x12 0 0 (n.setWidth 11)]
  | .vote fn rd ra => [mkR 0x13 rd ra 0 (fn.code 4)]
  | .shfl p op all rd ra rb =>
    prefixWords none p ++ [mkR 0x14 rd ra rb ((0 : BitVec 1) ++ BitVec.ofBool all ++ op.code 2)]
  | .srd rd ix => [mkI 0x15 rd 0 ix]
  | .swr ra ix => [mkI 0x16 0 ra ix]
  | .trap c => [mkI 0x17 0 0 c]
  | .brk c => [mkI 0x18 0 0 c]
  | .launch rd ra => [mkI 0x19 rd ra 0]
  | .kop p fn rd ra rb => prefixWords none p ++ [mkR 0x1A rd ra rb (fn.code 4)]
  | .obRes rd ra => [mkR 0x1B rd ra 0 0]
  | .obRel ra => [mkR 0x1B 0 ra 0 1]
  | .obSt rd ra rb => [mkR 0x1B rd ra rb 2]
  | .obLd rd ra rb => [mkR 0x1B rd ra rb 3]
  | .obStat rd ra => [mkR 0x1B rd ra 0 4]
  | .matZero rd => [mkR 0x1C (field3 rd) 0 0 0]
  | .matLoop rd ra rb => [mkR 0x1C (field3 rd) ra rb 1]
  | .matDrain rd ra rb => [mkR 0x1C (field3 rd) ra rb 2]
  | .matStat rd ra => [mkR 0x1C rd (field3 ra) 0 3]
  | .chkbLane rd ra rb => [mkR 0x1D rd ra rb 0]
  | .chkbScalar rd ra rb => [mkR 0x1D rd ra rb 1]
  | .tlkLock rd ra rb => [mkR 0x1E rd ra rb 0]
  | .tlkUnlk ra => [mkR 0x1E 0 ra 0 1]
  | .pstd rs ra off la => [mkR 0x1F rs ra off la]
  | .salu fn rd ra rb => [mkR 0x20 rd ra rb (fn.code 4)]
  | .scmp fn rd ra rb => [mkR 0x21 rd ra rb (fn.code 4)]
  | .saddi x rd ra imm => prefixWords x none ++ [mkI 0x22 rd ra imm]
  | .sandi x rd ra imm => prefixWords x none ++ [mkI 0x23 rd ra imm]
  | .sori x rd ra imm => prefixWords x none ++ [mkI 0x24 rd ra imm]
  | .sshi k rd ra n => [mkI 0x25 rd ra (shImm6 k n)]
  | .slui rd imm => [mkU 0x26 rd imm]
  | .smovv rd ra lane => [mkI 0x27 rd ra (lane.setWidth 11)]
  | .crd rd below ix => [mkI 0x28 rd 0 (ctlBelow below ix)]
  | .cwr ra below ix => [mkI 0x29 0 ra (ctlBelow below ix)]
  | .tret => [mkI 0x2A 0 0 0]
  | .tlbFill rd ra rb => [mkR 0x2B rd ra rb 0]
  | .tlbInv rd ra rb => [mkR 0x2B rd ra rb 1]
  | .tlbInva rd rb => [mkR 0x2B rd 0 rb 2]
  | .tlbShoot rd ra rb => [mkR 0x2B rd ra rb 3]
  | .tlbLook rd ra rb => [mkR 0x2B rd ra rb 4]
  | .sealAdmit rd ra rb => [mkR 0x2C rd ra rb 0]
  | .sealSeal rd ra rb => [mkR 0x2C rd ra rb 1]
  | .sealUnseal rd ra => [mkR 0x2C rd ra 0 2]
  | .ctxSave rd ra rb => [mkR 0x2D rd ra rb 0]
  | .ctxLoad rd ra rb => [mkR 0x2D rd ra rb 1]
  | .ctxPark rd ra => [mkR 0x2D rd ra 0 2]
  | .ctxResume rd ra => [mkR 0x2D rd ra 0 3]
  | .rightsGrant rd ra rb => [mkR 0x2E rd ra rb 0]
  | .rightsRevoke rd ra rb => [mkR 0x2E rd ra rb 1]
  | .rightsRoute rd ra rb => [mkR 0x2E rd ra rb 2]
  | .pldd rd ra off la => [mkR 0x2F rd ra off la]
  | .valu p fn rd ra rb => prefixWords none p ++ [mkR 0x30 rd ra rb (fn.code 4)]
  | .valus p fn rd ra rb => prefixWords none p ++ [mkR 0x31 rd ra rb (fn.code 4)]
  | .vmad p fn rd ra rb => prefixWords none p ++ [mkR 0x32 rd ra rb (fn.code 4)]
  | .vcmp p fn kd ra rb => prefixWords none p ++ [mkR 0x33 (field3 kd) ra rb (fn.code 4)]
  | .vcmps p fn kd ra rb => prefixWords none p ++ [mkR 0x34 (field3 kd) ra rb (fn.code 4)]
  | .vun p fn rd ra => prefixWords none p ++ [mkR 0x35 rd ra 0 (fn.code 4)]
  | .vsel p rd ra rb k => prefixWords none p ++ [mkR 0x36 rd ra rb (k.setWidth 4)]
  | .vaddi x p rd ra imm => prefixWords x p ++ [mkI 0x37 rd ra imm]
  | .vshi p k rd ra n => prefixWords none p ++ [mkI 0x38 rd ra (shImm5 k n)]
  | .vpack p fn rd ra rb => prefixWords none p ++ [mkR 0x39 rd ra rb (fn.code 4)]
  | .falu p fn rd ra rb => prefixWords none p ++ [mkR 0x40 rd ra rb (fn.code 4)]
  | .falus p fn rd ra rb => prefixWords none p ++ [mkR 0x41 rd ra rb (fn.code 4)]
  | .ffma p fn sc rd ra rb =>
    prefixWords none p ++ [mkR 0x42 rd ra rb (BitVec.ofBool sc ++ (0 : BitVec 1) ++ fn.code 2)]
  | .fcmp p fn kd ra rb => prefixWords none p ++ [mkR 0x43 (field3 kd) ra rb (fn.code 4)]
  | .funit p fn rd ra => prefixWords none p ++ [mkR 0x44 rd ra 0 (fn.code 4)]
  | .halu p bf fn rd ra rb => prefixWords none p ++ [mkR 0x45 rd ra rb (BitVec.ofBool bf ++ fn.code 3)]
  | .hfma p bf wide rd ra rb =>
    prefixWords none p ++ [mkR 0x46 rd ra rb (BitVec.ofBool bf ++ (0 : BitVec 2) ++ BitVec.ofBool wide)]
  | .cvt p fn rd ra rb => prefixWords none p ++ [mkR 0x47 rd ra rb (fn.code 4)]
  | .cvt8Pack p e5 hi sat rd ra rb =>
    prefixWords none p ++
      [mkR 0x48 rd ra rb ((0 : BitVec 1) ++ BitVec.ofBool e5 ++ BitVec.ofBool hi ++ BitVec.ofBool sat)]
  | .cvt8Unpack p e5 byte rd ra => prefixWords none p ++ [mkR 0x48 rd ra 0 ((1 : BitVec 1) ++ BitVec.ofBool e5 ++ byte)]
  | .expd p k hi rd ra rb => prefixWords none p ++ [mkR 0x49 rd ra rb (k.code 3 ++ BitVec.ofBool hi)]
  | .redi fn rd ra => [mkR 0x4A rd ra 0 (fn.code 4)]
  | .redf fn rd ra => [mkR 0x4B rd ra 0 (fn.code 4)]
  | .ldl x p wd rd ra off la => prefixWords x p ++ [mkR (opPlus 0x50 wd) rd ra off la]
  | .stl x p wd rs ra off la => prefixWords x p ++ [mkR (opPlus 0x54 wd) rs ra off la]
  | .ldi p wd rd ra rb la => prefixWords none p ++ [mkR (opPlus 0x58 wd) rd ra rb la]
  | .sti p wd rs ra rb la => prefixWords none p ++ [mkR (opPlus 0x5C wd) rs ra rb la]
  | .sld x p dbl rd ra off la => prefixWords x p ++ [mkR (opIf 0x60 dbl) rd ra off la]
  | .sst x p dbl rs ra off la => prefixWords x p ++ [mkR (opIf 0x62 dbl) rs ra off la]
  | .lds x p dbl rd ra off la => prefixWords x p ++ [mkR (opIf 0x64 dbl) rd ra off la]
  | .sts x p dbl rs ra off la => prefixWords x p ++ [mkR (opIf 0x66 dbl) rs ra off la]
  | .ldaq x p rd ra off la => prefixWords x p ++ [mkR 0x68 rd ra off la]
  | .strl x p rs ra off la => prefixWords x p ++ [mkR 0x69 rs ra off la]
  | .aadd p rd ra rb la => prefixWords none p ++ [mkR 0x6A rd ra rb la]
  | .amin p rd ra rb la => prefixWords none p ++ [mkR 0x6B rd ra rb la]
  | .amax p rd ra rb la => prefixWords none p ++ [mkR 0x6C rd ra rb la]
  | .aand p rd ra rb la => prefixWords none p ++ [mkR 0x6D rd ra rb la]
  | .aor p rd ra rb la => prefixWords none p ++ [mkR 0x6E rd ra rb la]
  | .axor p rd ra rb la => prefixWords none p ++ [mkR 0x6F rd ra rb la]
  | .axch p rd ra rb la => prefixWords none p ++ [mkR 0x70 rd ra rb la]
  | .acas p rd ra rb la => prefixWords none p ++ [mkR 0x71 rd ra rb la]
  | .afadd p rd ra rb la => prefixWords none p ++ [mkR 0x72 rd ra rb la]
  | .mredW p fn ra rb la => prefixWords none p ++ [mkR 0x73 (fn.code 7) ra rb la]
  | .mredD p fn ra rb la => prefixWords none p ++ [mkR 0x74 (fn.code 7) ra rb la]
  | .mredF p fn ra rb la => prefixWords none p ++ [mkR 0x75 (fn.code 7) ra rb la]
  | .rldsF p bf rd ra off la => prefixWords none p ++ [mkR 0x76 rd ra (BitVec.ofBool bf ++ off) la]
  | .rldsI p rd ra off la => prefixWords none p ++ [mkR 0x77 rd ra ((0 : BitVec 1) ++ off) la]
  | .fence scope k => [mkI 0x78 0 0 ((0 : BitVec 6) ++ scope ++ k.code 2)]
  | .wait p c ra rb => prefixWords none p ++ [mkR 0x79 0 ra rb (c.code 4)]
  | .bari p ra rb => prefixWords none p ++ [mkR 0x7A 0 ra rb 0]
  | .barv p ra rb => prefixWords none p ++ [mkR 0x7A 0 ra rb 1]
  | .barw p ra rb => prefixWords none p ++ [mkR 0x7A 0 ra rb 2]
  | .barx p ra rb => prefixWords none p ++ [mkR 0x7A 0 ra rb 3]
  | .barz p ra => prefixWords none p ++ [mkR 0x7A 0 ra 0 4]
  | .barp p rd ra => prefixWords none p ++ [mkR 0x7A rd ra 0 5]
  | .cpyGs rd ra rb => [mkR 0x7B rd ra rb 0]
  | .cpySg rd ra rb => [mkR 0x7B rd ra rb 1]
  | .cpyGob rd ra rb => [mkR 0x7B rd ra rb 2]
  | .cpyGb rd ra rb => [mkR 0x7B rd ra rb 3]
  | .cpySob rd ra rb => [mkR 0x7B rd ra rb 4]
  | .cpyCas rd ra rb => [mkR 0x7B rd ra rb 5]
  | .cpyCag rd ra rb => [mkR 0x7B rd ra rb 6]
  | .cpySca rd ra rb => [mkR 0x7B rd ra rb 7]
  | .cpyGg rd ra rb => [mkR 0x7B rd ra rb 8]
  | .caLoa rd ra => [mkR 0x7C rd ra 0 0]
  | .caNode rd ra => [mkR 0x7C rd ra 0 1]
  | .caRef ra => [mkR 0x7C 0 ra 0 2]
  | .caRel ra => [mkR 0x7C 0 ra 0 3]
  | .caGet rd ra => [mkR 0x7C rd ra 0 4]
  | .caSwap rd ra rb => [mkR 0x7C rd ra rb 5]
  | .caStat rd ra => [mkR 0x7C rd ra 0 6]
  | .cld p rd ra rb la => prefixWords none p ++ [mkR 0x7D rd ra rb la]
  | .pref p count ra off => prefixWords none p ++ [mkR 0x7E count ra off 0]
  | .loadValueReturn _ _ _ | .storePerformed _ _ _ | .monitorAtomic _ _ | .releaseQueueEntry _ _ _
  | .copyEngineStart _ | .copyEngineComplete _ | .matLoopRun _ _ | .matLoopComplete _ _ | .matDrainRun _ _
  | .twinRendezvous _ _ | .twinwaitExpiry _ _ | .runnerSpawn _ _ _ | .handlerEntry _ _ | .handlerTimeLimit _ _
  | .walkerStart _ | .logReplay _ _ | .faultQueueAppend _ | .fqdoneReplay _ _ | .fqdoneForward _ _ | .fqdoneKill _ _
  | .fqdoneAbort _ _ | .fqconsWrite _ _ | .dlconsWrite _ _ | .cadescInstall _ _ _ | .cadescFresh _ _ _
  | .queueEnable _ _ | .queueDisable _ _ _ | .takeLaunchPacket _ | .fencePacket _ _ | .fenceWordWrite _ _
  | .submitServiceRecord _ | .placeHouse _ _ _ | .formEnd _ | .launchComplete _ | .deadlineExpiry _
  | .energyWindowEnd _ _ | .bandwidthRefill | .bandwidthSet _ _ _ _ | .energyShareWrite _ _ | .rotationWrite _ _ _
  | .rotationPeriodBoundary _ | .sliceBoundary _ | .virtualTimeAdjust _ _ _ | .timerExpiry _ | .strictRetry _ _
  | .strictTimeout _ _ | .registrarAdmission | .unsealCompletion _ | .cpWrite _ | .cpRead _ | .cpCwrite _
  | .cpCread _ | .keysw _ | .oldKeyExpiry _ | .peerRequest _ | .peerTimeout _ _ | .replicaRequest _ _ _ _
  | .gatherResponse _ _ _ _ | .gatherTimeout _ _ | .getCertificate _ | .getMeasurements _ _ | .keyExchange _
  | .keyUpdate _ | .resetRequest _ | .powerOnReset | .keyRekey _ | .coreRestart _ | .errorSnapshot _ _
  | .measurementExtend _ _ | .memoryError _ | .patrolScrub _ _ | .thermalThrottle _ | .thermalTrip _
  | .instructionFetch _ _ | .monitorContentOperation _ | .copyEngineFault _ _ | .thermalRecovery _ => []

/-! ### The host's view of the decoder -/

/-- The instruction whose bits are `w`, numbered as spec/opcode_table.json numbers them: bit 0 is the least significant
bit of the first word. The words are laid out as the hardware stores them and every bit above `nbits` is zero. -/
def decodeTableWord (nbits w : Nat) : Option Instr :=
  let v := w % 2 ^ nbits
  match decodeGroup [BitVec.ofNat 32 v, BitVec.ofNat 32 (v / 2 ^ 32), BitVec.ofNat 32 (v / 2 ^ 64)] with
  | .ok i => some i
  | .error _ => none

end Sys2Proof
end

