-- ==== Sys2Proof/Machine/Fetch.lean ====
section
/-!
DEFINITION. Choosing a split (R37, R38), fetching its group (R43, R44, R188, R374, R375), the decode checks in their order (R192,
R193), and the passing of device time (R60, R389).
-/

namespace Sys2Proof.Machine

/-! ### Who may issue -/

/-- A class's partition holds its core and is not parked there; a handler issues while it is parked too, and level 0 belongs to no
partition (R346, R351, R420). -/
def State.holdsCore (s : State) (c : Cls) : Bool :=
  c.level == 0 || (assoc s.holder c.core == some c.vmid && (c.kind == .handler || !s.parkedP.contains (c.vmid, c.core)))

/-- No lookahead window holds the split's next instruction (R39). -/
def Cls.lookaheadOk (c : Cls) (sp : Split) : Bool :=
  sp.pend.all (fun p => decide (0 < p.left) || !c.mem.any (fun a => a.id == p.acc && !a.logged))

/-- The form of a class lets it issue: its time bound has not expired, even if its event has yet to be raised, and a throttled form issues
only in cycles whose device time is a multiple of 16 (R413, R414). Under thermal throttling every form does (R459). -/
def State.formLets (s : State) (c : Cls) : Bool :=
  (!s.hot || c.kind != .launch || s.time % 16 == 0)
    && (match s.forms.find? (fun f => f.id == c.form && c.kind == .launch) with
      | none => true
      | some f => f.timeLeft != 0 && !f.stopped && (!(f.throttled || f.capped) || s.time % 16 == 0))

/-- The split waits for a twin at the rendezvous (R294). -/
def State.atRendezvous (s : State) (c : Cls) (i : Nat) : Bool :=
  s.seq.any (fun o => o.cls == c.id && o.split == i && (match o.meet with
    | .waiting _ => true
    | .none | .met _ | .solo => false))

/-- A split that nothing but its instruction holds. -/
def State.mayRun (s : State) (c : Cls) (i : Nat) : Bool :=
  let sp := c.split i
  s.phase == .running && c.live && sp.state == .ready && sp.stops == 0 && sp.parked.isNone && s.holdsCore c && s.formLets c
    && !s.coreOff.contains c.core && !c.restoring && c.lookaheadOk sp && !s.atRendezvous c i

/-! ### Fetching -/

/-- What fetching one word ends in. -/
inductive FetchedWord where
  | word (w : Word) (pa : Nat)
  | miss
  | bad (c : Cause)
  | park (h : DWord)
  deriving DecidableEq, Repr

/-- An image that UNSEAL is closing and whose pages hold the address (R375). -/
def State.closingAt (s : State) (c : Cls) (va : Nat) : Option Image :=
  if c.level = 0 then none
  else s.images.find? (fun im => im.closing && im.vmid == c.vmid && (im.handle == c.image || s.sameTables im.vmid im.asid c.asid)
    && im.pages.contains (va / 4096 * 4096))

/-- The place of a fetch on a page of a TLB entry. -/
def TlbEntry.fetchAt (e : TlbEntry) (a : Nat) : LaneReq :=
  { lane := 0, ea := a, pa := e.pa + (a - e.va), attr := e.attr, key := e.key, page := { va := e.va, ga := e.ga, pa := e.pa, size := e.size },
    unc := (e.xpart && !attrCA e.attr) || attrClevel e.attr == 2 }

/-- Fetch the word at an address: the page's translation first, then the segment bound and the seal map (R44, R374). Level 0 fetches under
PKEY (R446). -/
def State.fetchWord (s : State) (c : Cls) (pc : Int) : FetchedWord :=
  if pc < 0 then .bad .fetchb
  else
    let a := pc.toNat
    if c.level = 0 then
      if Config.memLimit < a + 4 ∨ !s.sealed a then .bad .fetchb
      else if s.markAt .unit a then .bad .ecc
      else .word (BitVec.ofNat 32 (s.hwNum s.pkey a 4)) a
    else if windowBase ≤ a then .bad .fetchb
    else
      match s.closingAt c a with
      | some im => .park im.handle
      | none =>
        match s.tlbFind c.core c.vmid c.asid a with
        | none => .miss
        | some e =>
          let l := e.fetchAt a
          if !bit e.attr.toNat 3 || !bit e.attr.toNat 4 then .miss
          else if c.segb ≤ a || !e.sf then .bad .fetchb
          else if s.markAt (l.via 1 c.vmid) l.pa then .bad .ecc
          else .word (BitVec.ofNat 32 (s.physNum (l.via 1 c.vmid) (s.keyId e.key) l.pa 4)) l.pa

/-- What fetching a group ends in: its words and the physical addresses of the lines they lie in, or the first word that
failed, with those fetched before it (R188). -/
inductive FetchedGroup where
  | words (ws : List Word) (lines : List Nat)
  | failed (at_ : Int) (ws : List Word) (r : FetchedWord)
  deriving DecidableEq, Repr

/-- Fetch words until the group is whole. -/
def State.fetchFrom (s : State) (c : Cls) : Nat → Int → List Word → List Nat → FetchedGroup
  | 0, _, ws, ls => .words ws ls
  | n + 1, pc, ws, ls =>
    match s.fetchWord c pc with
    | .word w pa =>
      let ws := ws ++ [w]
      let ls := ls ++ [pa / 64]
      if ws.length < groupLength ws then s.fetchFrom c n (pc + 4) ws ls else .words ws ls
    | r => .failed pc ws r

/-- Fetch the group at a program counter: one to three words (R184). -/
def State.fetchGroup (s : State) (c : Cls) (pc : Int) : FetchedGroup := s.fetchFrom c 3 pc [] []

/-- 64 KiB of a core's instruction cache (R7). -/
def icacheLines : Nat := 1024

/-- A core's instruction cache takes a line; a full one gives up one of its lines, which one the hardware chooses. -/
def State.cacheLine (s : State) (core line : Nat) : State :=
  if s.icache.contains (core, line) then s
  else
    let mine := s.icache.filter (fun p => p.1 == core)
    if mine.length < icacheLines then { s with icache := (core, line) :: s.icache }
    else
      match mine[Config.choice s.free % mine.length]? with
      | none => s
      | some x => { s.usedChoice with icache := (core, line) :: s.icache.erase x }

def State.cacheLines (s : State) (core : Nat) (ls : List Nat) : State := ls.foldl (fun s l => s.cacheLine core l) s

/-! ### The decode checks (R193) -/

/-- The event of Table 9-11 that a group's words alone decide, if any; else the instruction. -/
def decodeChecked (level : Nat) (ws : List Word) : Except Cause Instr :=
  match decodeGroup ws with
  | .error .reservedOpcode | .error .prefixGroup => .error .illop
  | r =>
    if (match privLevel (groupOpcode ws) with
        | none => false
        | some l => decide (l < level)) then .error .priv
    else
      match r with
      | .ok i => .ok i
      | .error _ => .error .illop

/-! ### Units (R27, R38, Tables 2-3 and 13-12) -/

/-- The unit an instruction issues to. -/
def unitOf (i : Instr) : PipeUnit :=
  match i with
  | .vote .. | .shfl .. | .kop .. | .chkbLane .. | .valu .. | .valus .. | .vmad .. | .vcmp .. | .vcmps .. | .vun .. | .vsel ..
  | .vaddi .. | .vshi .. | .vpack .. | .falu .. | .falus .. | .ffma .. | .fcmp .. | .halu .. | .hfma .. | .cvt .. | .cvt8Pack ..
  | .cvt8Unpack .. | .expd .. | .redi .. | .redf .. => .sweep
  | .funit _ fn _ _ =>
    match fn with
    | .rcp | .rsq | .sqrt | .exp2 | .log2 | .tanh | .sinpi | .cospi => .transcendental
    | .abs | .neg | .floor | .ceil | .trunc | .rint | .cls | .frac => .sweep
  | .ldl .. | .stl .. | .ldi .. | .sti .. | .sld .. | .sst .. | .lds .. | .sts .. | .ldaq .. | .strl .. | .aadd .. | .amin ..
  | .amax .. | .aand .. | .aor .. | .axor .. | .axch .. | .acas .. | .afadd .. | .mredW .. | .mredD .. | .mredF .. | .rldsF ..
  | .rldsI .. | .fence .. | .wait .. | .bari .. | .barv .. | .barw .. | .barx .. | .barz .. | .barp .. | .caLoa .. | .caNode ..
  | .caRef .. | .caRel .. | .caGet .. | .caSwap .. | .caStat .. | .cld .. | .pref .. | .obSt .. | .obLd .. | .tlkLock ..
  | .tlkUnlk .. | .pldd .. | .pstd .. => .memory
  | .obRes .. | .obRel .. | .obStat .. | .matZero .. | .matLoop .. | .matDrain .. | .matStat .. => .sequencer
  | .cpyGs .. | .cpySg .. | .cpyGob .. | .cpyGb .. | .cpySob .. | .cpyCas .. | .cpyCag .. | .cpySca .. | .cpyGg .. => .copyPort
  | _ => .scalar

/-- Passes of an effective mask: its words that are not empty (R27). -/
def passes (eff : Mask) : Nat := ((List.range 32).filter (fun w => eff.extractLsb' (32 * w) 32 != 0)).length

/-- Cycles for which an instruction occupies its unit. -/
def State.occupancy (s : State) (i : Instr) : Nat :=
  let p := passes (s.eff (instrPfx i))
  max 1 (match i, unitOf i with
    | .shfl _ _ all _ _ _, _ => if all then 2 * p else p
    | _, .transcendental => 4 * p
    | .obSt .., _ | .obLd .., _ => p
    | _, .sweep => p
    | _, .memory => if masked i then p else 1
    | _, _ => 1)

/-- How many instructions a unit takes at once. -/
def PipeUnit.width (u : PipeUnit) : Nat := if u = .sweep then 2 else 1

/-- The unit of a core can accept an instruction. -/
def State.unitFree (s : State) (core : Nat) (u : PipeUnit) : Bool :=
  decide ((s.busy.filter (fun b => b.1 == core && b.2.1 == u && decide (s.time < b.2.2))).length < u.width)

/-! ### Candidates (R37, R38) -/

/-- A split that may issue: its next group lies in its core's instruction cache, and the unit it needs can accept it; a BREAK that is
due needs neither. -/
def State.canIssue (s : State) (c : Cls) (i : Nat) : Bool :=
  s.mayRun c i && ((c.split i).owed.isSome || (match s.fetchGroup c (c.split i).pc with
    | .failed _ _ _ => false
    | .words ws ls =>
      ls.all (fun l => s.icache.contains (c.core, l)) && (match decodeChecked c.level ws with
        | .error _ => true
        | .ok i => s.unitFree c.core (unitOf i))))

/-- A class's place in the order of bands: T0, T1 with level 1 before level 2, then the launch bands (R38, R346). -/
def Cls.rank (c : Cls) : Nat :=
  match c.kind with
  | .walker => 0
  | .handler => c.level
  | .launch | .bursar => 3 + c.band

/-- A candidate with what R38 orders by. -/
structure Candidate where
  rank  : Nat
  age   : Nat
  slot  : Nat
  cls   : Nat
  split : Nat
  deriving DecidableEq, Repr

/-- R38: band, then the oldest, then the lower class slot and split-table entry. -/
def Candidate.before (x y : Candidate) : Bool :=
  decide (x.rank < y.rank ∨ x.rank = y.rank ∧ (y.age < x.age ∨ y.age = x.age ∧
    (x.slot < y.slot ∨ x.slot = y.slot ∧ (x.cls < y.cls ∨ x.cls = y.cls ∧ x.split < y.split))))

/-- The candidates of a class that are not passed over. -/
def State.candidatesOf (s : State) (c : Cls) : List Candidate :=
  ((List.range c.splits.length).filter (fun i => !(c.split i).held && s.canIssue c i)).map
    (fun i => { rank := c.rank, age := (c.split i).age, slot := c.slot, cls := c.id, split := i })

/-- A handler issues nothing while one of a numerically lower level is a candidate on its core (R346). -/
def outranked (c : Cls) (l : List (Cls × List Candidate)) : Bool :=
  c.kind == .handler && l.any (fun p => p.1.kind == .handler && decide (p.1.level < c.level) && !p.2.isEmpty)

/-- The next candidate to issue on a core in this cycle: four in all, one of a class, each to a unit that can accept it, in the order of
R38. -/
def State.nextOn (s : State) (core : Nat) : Option Candidate :=
  if 4 ≤ (s.slots.filter (fun p => p.1 == core)).length then none
  else
    let l := ((s.allCls.filter (fun c => c.core == core)).map (fun c => (c, s.candidatesOf c)))
    ((l.filter (fun p => !s.slots.contains (core, p.1.id) && !outranked p.1 l)).flatMap (fun p => p.2)).foldl (fun b x =>
      match b with
      | none => some x
      | some y => if x.before y then some x else b) none

/-- The next candidate of some core that has one, with that core. -/
def State.pick (s : State) : Option (Nat × Candidate) :=
  ((s.allCls.map (fun c => c.core)).eraseDups).findSome? (fun core => (s.nextOn core).map (fun x => (core, x)))

/-- What a unit's cycles count for in a core's activity (R27, R424): passes of the lanes, passes of the transcendental unit. -/
def PipeUnit.activity (u : PipeUnit) (n : Nat) : Option (EnergyKind × Nat) :=
  match u with
  | .sweep => some (.lane, n)
  | .transcendental => some (.transcendental, n / 4)
  | .scalar | .memory | .sequencer | .copyPort => none

/-- A group of a class has issued in this cycle, an instruction to its unit: a slot of the cycle, and one of its form, `form` with its
partition, in the energy window. -/
def State.took (s : State) (core cls : Nat) (form : Nat × Nat) (unit_ : Option (PipeUnit × Nat)) : State :=
  let s := { s with slots := (core, cls) :: s.slots, meter := { s.meter with slots := addCount s.meter.slots (core, form) 1 } }
  match unit_ with
  | none => s
  | some (u, n) =>
    let s := { s with busy := (core, u, s.time + n) :: s.busy }
    match u.activity n with
    | none => s
    | some (k, m) => s.meterPipe core k m

/-- Nothing is passed over any more. -/
def State.unhold (s : State) : State :=
  s.mapCls (fun c => { c with splits := c.splits.map (fun sp => { sp with held := false }) })

/-! ### Time -/

/-- n cycles pass: device time, the ages of ready splits, CYCLE, DEADL and a handler's run time (R38, R60, R343). -/
def State.tick (n : Nat) (s : State) : State :=
  let held (core vmid : Nat) : Bool := assoc s.holder core == some vmid
  let s' := s.mapCls (fun c =>
    { c with cycle := if c.level = 0 || held c.core c.vmid then c.cycle + n else c.cycle,
             splits := c.splits.map (fun sp => if sp.state = .ready then { sp with age := sp.age + n } else sp) })
  { s' with time := s.time + n,
            slots := [],
            busy := s.busy.filter (fun b => decide (s.time + n < b.2.2)),
            forms := s.forms.map (fun f => if held f.core f.vmid then { f with timeLeft := f.timeLeft - n } else f),
            hslots := s.hslots.map (fun h => if h.level = 0 || held h.core h.vmid then { h with ran := h.ran + n } else h) }

/-! ### Preparing a group -/

/-- What a fetch that found no word does to its split: a walk, an event, or parking by UNSEAL (R44, R363, R375). -/
def fetchFailed (at_ : Int) (r : FetchedWord) (s : State) : State :=
  match r with
  | .word _ _ => s
  | .bad c => raise { cause := c, addr := eaField at_ } s
  | .park h => s.modCur (fun sp => { sp with parked := some h.toNat })
  | .miss =>
    match s.takeSlot s.cls.core s.cls.vmid s.cls.asid at_.toNat false true false none (s.cls.id, s.iss.split, 0x7FFF) with
    | none => hold s
    | some s => waitOn .fetch s

/-- What issuing a split comes to before an instruction's own meaning. -/
inductive Prep where
  | run (i : Instr) (s : State)
  | done (s : State)
  deriving DecidableEq, Repr

/-- Issue a split of a class: a BREAK that is due, else fetch, decode, and wait for registers still being written. -/
def State.prepare (s : State) (cls split : Nat) : Prep :=
  let s := s.focus cls
  let sp := s.cls.split split
  match sp.owed with
  | some ws =>
    let s := { s with iss := { split := split, pc := sp.pc - 4 * (ws.length : Int), words := ws } }
    .done ((s.modCur (fun sp => { sp with owed := none })).stepped sp.pc)
  | none =>
    match s.fetchGroup s.cls sp.pc with
    | .failed a ws r => .done (fetchFailed a r { s with iss := { split := split, pc := sp.pc, words := ws } })
    | .words ws _ =>
      let s := { s with iss := { split := split, pc := sp.pc, words := ws } }
      match decodeChecked s.cls.level ws with
      | .error c => .done (raise { cause := c } s)
      | .ok i => if interlocked i s then .done (hold s) else .run i s

/-! ### Prefetching and the INSTRUCTION_FETCH event (R43) -/

/-- The line at an address, where it can be fetched: its physical line, and whether it holds a KEND word. -/
def State.lineAt (s : State) (c : Cls) (line : Nat) : Option (Nat × Bool) :=
  let ws := (List.range 16).map (fun i => s.fetchWord c (line + 4 * i : Nat))
  match ws.head? with
  | some (.word _ pa) =>
    some (pa / 64, ws.any (fun w => match w with
      | .word x _ => x == 0x06000000
      | _ => false))
  | _ => none

/-- The run of a split goes on after a line, unless that holds a KEND word. -/
def State.setRun (s : State) (cls split line : Nat) : State :=
  s.modCls cls (fun c => c.modSplit split (fun sp =>
    { sp with run := match s.lineAt c line with
      | some (_, false) => some line
      | _ => none }))

/-- The lines of the group a split issues next are in its core's instruction cache. -/
def State.cached (s : State) (c : Cls) (i : Nat) : Bool :=
  match s.fetchGroup c (c.split i).pc with
  | .words _ ls => ls.all (fun l => s.icache.contains (c.core, l))
  | .failed _ _ _ => false

/-- What fetching a 64-byte line of instructions brings over the DRAM interface, and from which controller (R422): nothing of a line that
the instruction cache or L2 holds, and nothing that is metered for level 0. -/
def State.lineCharge (s : State) (c : Cls) (va : Nat) : Nat × Nat :=
  match (if c.level = 0 then none else s.tlbFind c.core c.vmid c.asid va) with
  | none => (0, 0)
  | some e =>
    let l := e.fetchAt (va / 64 * 64)
    let n := max 64 (attrGrain l.attr)
    (controllerOf l.pa,
      if s.icache.contains (c.core, l.pa / 64) then 0
      else if l.unc then 1
      else if s.fillUnits c.vmid (c.core / 64) l + s.fillUnits c.vmid (c.core / 64) { l with pa := l.pa + 32 } = 0 then 0
      else s.units c.vmid l (l.pa / n * n) n)

/-- A line of instructions on its way to the instruction cache enters the levels behind it, and its translation the L1 TLB (R102, R362). -/
def fetchLine (c : Cls) (va : Nat) (s : State) : State :=
  if c.level = 0 then s
  else
    match s.tlbFind c.core c.vmid c.asid va with
    | none => s
    | some e =>
      let l := e.fetchAt (va / 64 * 64)
      let s := s.touchTlb c.core c.vmid c.asid va
      if s.icache.contains (c.core, l.pa / 64) then s
      else (s.allocHome c.vmid (c.core / 64) l).allocHome c.vmid (c.core / 64) { l with pa := l.pa + 32 }

/-- Lines of instructions are requested from their controllers. -/
def State.serveFetch (s : State) (c : Cls) (split : Nat) (vas : List Nat) : Bool × State :=
  s.serveAll (.fetch c.id split (c.split split).pc) c.form c.vmid c.asid
    (vas.map (fun va => (fun (s : State) => s.lineCharge c va, fetchLine c va)))

/-- The group a split issues next is fetched on demand; a fetch that fails takes its walk, its event or its parking. -/
def fetchNow (c : Cls) (split : Nat) (s : State) : State :=
  let pc := (c.split split).pc
  match s.fetchGroup c pc with
  | .words ws ls =>
    let last := pc.toNat + 4 * (ws.length - 1)
    match s.serveFetch c split (if last / 64 = pc.toNat / 64 then [pc.toNat] else [pc.toNat, last]) with
    | (true, s) => (s.cacheLines c.core ls).setRun c.id split (last / 64 * 64)
    | (false, s) => s
  | .failed a ws r => fetchFailed a r { s.focus c.id with iss := { split := split, pc := pc, words := ws } }

/-- The line after the last one of a split's run is prefetched; at one that cannot be fetched the run ends. -/
def prefetchNext (c : Cls) (split line : Nat) (s : State) : State :=
  match s.lineAt c (line + 64) with
  | some (l, _) =>
    match s.serveFetch c split [line + 64] with
    | (true, s) => (s.cacheLine c.core l).setRun c.id split (line + 64)
    | (false, s) => s
  | none => s.modCls c.id (fun c => c.modSplit split (fun sp => { sp with run := none }))

/-- INSTRUCTION_FETCH: a split's next group is fetched, or with that in the instruction cache the line after its run. -/
def execInstructionFetch (cls split : Nat) (s : State) : Host.Outcome State Fault Refusal :=
  match s.getCls cls with
  | none => .next s
  | some c =>
    if !s.mayRun c split then .next s
    else if !s.cached c split then .next (fetchNow c split s)
    else
      match (c.split split).run with
      | none => .next s
      | some line => .next (prefetchNext c split line s)

end Sys2Proof.Machine
end

