-- ==== Sys2Proof/Machine/Translate.lean ====
section
/-!
DEFINITION. The TLB instruction, the walker class and the miss slots (17_translation.md R362–R372).
-/

namespace Sys2Proof.Machine

/-! ### Targets (R364) -/

/-- What an INV, INVA, SHOOT or LOOK names. -/
structure Target where
  gpa     : Bool
  allAsid : Bool
  every   : Bool       -- INVA: every page
  vmid    : Nat
  asid    : Nat
  lo      : Nat
  hi      : Nat
  deriving DecidableEq, Repr

/-- The target of a class's operands; none is BADARG. -/
def State.target? (s : State) (c : Cls) (every : Bool) (a w : DWord) : Option Target :=
  let x := w.toNat
  let bad := bit x 63 || bits x 60 48 != 0 || bits x 31 22 != 0
  let lo := (s.word (.part c.vmid) 0x101).toNat % 2 ^ 16
  let hi := (s.word (.part c.vmid) 0x102).toNat % 2 ^ 16
  let level1 := c.level != 0 && (bit x 62 || bits x 21 16 != 0 || (!bit x 61 && decide (bits x 15 0 < lo ∨ hi < bits x 15 0)))
  if bad || level1 || (every && bits x 47 32 != 0) || (!every && decide (2 ^ 57 ≤ a.toNat)) then none
  else
    some { gpa := bit x 62, allAsid := bit x 61, every := every, vmid := if c.level = 0 then bits x 21 16 else c.vmid,
           asid := bits x 15 0, lo := a.toNat, hi := a.toNat + 4096 * (bits x 47 32 + 1) }

/-- The range overlaps a page. -/
def Target.overlaps (t : Target) (base size : Nat) : Bool := t.every || decide (t.lo < base + size ∧ base < t.hi)

/-- VMID and ASID agree. -/
def Target.owns (t : Target) (vmid asid : Nat) : Bool := vmid == t.vmid && (t.allAsid || asid == t.asid)

/-- The entry matches. -/
def Target.hits (t : Target) (e : TlbEntry) : Bool :=
  t.owns e.vmid e.asid && t.overlaps (if t.gpa then e.ga else e.va) e.size

/-- Entries of the units that `here` selects are removed; locked ones are marked stale, in the TLB and in their class's list
(R308, R364). Slots of a run note the target, for the fill of a page that it overlaps is void (R365, R368). -/
def invalidate (t : Target) (here : Nat → Bool) (s : State) : State :=
  let unit_ (e : TlbEntry) : Bool := match e.home with
    | .core c => here c
    | .lockable c _ => here c
    | .quad q => (List.range 4).any (fun i => here (4 * q + i))
  let locked (e : TlbEntry) : Bool := match e.home with
    | .lockable _ _ => true
    | .core _ | .quad _ => false
  let tlb := (s.tlb.filter (fun e => !(unit_ e && t.hits e && !locked e))).map
    (fun e => if unit_ e && t.hits e then { e with stale := true } else e)
  let marked (c : Cls) (k : Lock) : Bool :=
    here c.core && s.tlb.any (fun e => e.home == TlbHome.lockable c.core c.id && e.va == k.page && t.hits e)
  let s := s.mapCls (fun c => { c with locks := c.locks.map (fun l => l.map (fun k => if marked c k then { k with stale := true } else k)) })
  let slots := s.misses.map (fun m =>
    if m.inRun && here m.core && t.owns m.vmid m.asid then
      { m with shot := (t.gpa, if t.every then (0, 2 ^ 64) else (t.lo, t.hi)) :: m.shot }
    else m)
  { s with tlb := tlb, misses := slots }

/-- Every TLB entry of a partition for a range of pages, under any ASID. -/
def pagesTarget (vmid lo n : Nat) : Target :=
  { gpa := false, allAsid := true, every := false, vmid := vmid, asid := 0, lo := lo, hi := lo + 4096 * n }

/-- The dirty lines of a target's private pages are written back by the cores that owned them (R108, R366, item 5). -/
def writeBackOwned (t : Target) (s : State) : State :=
  s.flushL1 (fun x => x.priv && t.owns x.vmid x.asid && t.overlaps (if t.gpa then x.page.ga else x.page.va) x.page.size)

/-- A lane was, or by its address may have been, translated through a page of the target. -/
def State.laneUnder (s : State) (t : Target) (l : LaneReq) (n : Nat) : Bool :=
  if l.page.size ≠ 0 then t.overlaps (if t.gpa then l.page.ga else l.page.va) l.page.size
  else t.gpa || t.overlaps l.ea.toNat n
    || s.tlb.any (fun e => t.hits e && decide (e.va ≤ l.ea.toNat ∧ l.ea.toNat < e.va + e.size))

/-- The access has been translated, and is still to be performed or, about to be replayed, reissued. -/
def Access.abroad (a : Access) : Bool :=
  a.op.translated && (match a.stage with
    | .fabric | .retry _ | .ready | .stopped => true
    | .walking | .delivered _ _ => false)

/-- The accesses translated with an entry that a target removes, by class and access (R366, item 4; Table 17-7). -/
def State.underTarget (s : State) (t : Target) : List (Nat × Nat) :=
  (s.allCls.filter (fun c => c.level != 0 && t.owns c.vmid c.asid)).flatMap (fun c =>
    (c.mem.filter (fun a => a.abroad && a.lanes.any (fun l => !l.done && !l.win && s.laneUnder t l a.op.size))).map
      (fun a => (c.id, a.id)))

/-- Some access translated with an entry that the target removes is not yet performed. -/
def State.translatedOut (s : State) (t : Target) : Bool := !(s.underTarget t).isEmpty

/-- Engine operations with an element under way for a target's VMID and ASID, and how far they have come. -/
def State.enginesUnder (s : State) (t : Target) : List (Nat × Nat) :=
  (s.engines.filter (fun e => t.owns e.vmid e.asid && (e.asked.isSome || e.got.isSome))).map (fun e => (e.id, e.progress))

/-- What a shootdown waits for is not yet performed. -/
def State.shootBusy (s : State) (w : ShootWait) : Bool :=
  w.accs.any (fun p => s.allCls.any (fun c => c.id == p.1 && c.mem.any (fun a => a.id == p.2 && a.abroad && !a.complete)))
    || w.engines.any (fun p => s.engines.any (fun e => e.id == p.1 && e.progress == p.2 && (e.asked.isSome || e.got.isSome)))

/-! ### INV, INVA, SHOOT, LOOK -/

def statusDone : DWord := 0
def statusBadarg : DWord := 1
def statusPinned : DWord := 2
def statusBusy : DWord := 3
def statusRefused : DWord := 4
def statusNopool : DWord := 5

/-- The cores of a quad. -/
def sameQuad (c d : Nat) : Bool := c / 4 == d / 4

/-- Invalidate in the issuing core's L1 and its quad's L2. -/
def invalidateHere (rd : Reg) (every : Bool) (a w : DWord) (s : State) : State :=
  match s.target? s.cls every a w with
  | none => retire (s.setS rd statusBadarg)
  | some t =>
    let core := s.cls.core
    let others := s.tlb.filter (fun e => match e.home with
      | .core c | .lockable c _ => sameQuad c core && c != core
      | .quad _ => false)
    let mine := s.tlb.filter (fun e => match e.home with
      | .core c | .lockable c _ => !(sameQuad c core && c != core)
      | .quad _ => true)
    let s' := invalidate t (sameQuad core) { s with tlb := mine }
    retire ({ s' with tlb := s'.tlb ++ others }.setS rd statusDone)

/-- TLB.INV (R364). -/
def execTlbInv (rd ra rb : Reg) (s : State) : Out :=
  .next (guarded (.tlbInv rd ra rb) (fun s => invalidateHere rd false (s.getS ra) (s.getS rb) s) s)

/-- TLB.INVA (R364). -/
def execTlbInva (rd rb : Reg) (s : State) : Out :=
  .next (guarded (.tlbInva rd rb) (fun s => invalidateHere rd true 0 (s.getS rb) s) s)

/-- Shoot a target down on every unit of the device. -/
def shoot (t : Target) (s : State) : State := invalidate t (fun _ => true) (writeBackOwned t s)

/-- The shootdown that the issuing split has begun. -/
def State.shootOf (s : State) : Option ShootWait :=
  s.shoots.find? (fun w => w.cls == s.cls.id && w.split == s.iss.split && w.pc == s.iss.pc)

/-- The units of the device invalidate what the target names; the accesses that they had translated with it are still out. -/
def beginShoot (t : Target) (s : State) : State :=
  let w : ShootWait :=
    { cls := s.cls.id, split := s.iss.split, pc := s.iss.pc, accs := s.underTarget t, engines := s.enginesUnder t }
  { invalidate t (fun _ => true) s with shoots := w :: s.shoots.filter (fun x => !(x.cls == w.cls && x.split == w.split)) }

/-- Those are performed: the owners write back, and the SHOOT is done. -/
def endShoot (t : Target) (rd : Reg) (s : State) : State :=
  let s := { s with shoots := s.shoots.filter (fun x => !(x.cls == s.cls.id && x.split == s.iss.split)) }
  retire (((writeBackOwned t s).release s.cls 4).setS rd statusDone)

/-- TLB.SHOOT (R366): it waits for SOC 0, as a release for every earlier access of the class, invalidates, and then waits for every access
translated with what it has removed. -/
def execTlbShoot (rd ra rb : Reg) (s : State) : Out :=
  .next (guarded (.tlbShoot rd ra rb) (fun s =>
    match s.target? s.cls false (s.getS ra) (s.getS rb) with
    | none => retire (s.setS rd statusBadarg)
    | some t =>
      if !s.quiet s.cls then hold s
      else
        let s := if s.shootOf.isSome then s else beginShoot t s
        if s.shootOf.any (fun w => s.shootBusy w) then hold s else endShoot t rd s) s)

/-- TLB.LOOK (R367). -/
def execTlbLook (rd ra rb : Reg) (s : State) : Out :=
  .next (guarded (.tlbLook rd ra rb) (fun s =>
    match s.target? s.cls false (s.getS ra) (s.getS rb) with
    | none => retire (s.setS rd (BitVec.allOnes 64))
    | some t =>
      if bits (s.getS rb).toNat 47 32 ≠ 0 then retire (s.setS rd (BitVec.allOnes 64))
      else
        let near (e : TlbEntry) : Bool := match e.home with
          | .core c | .lockable c _ => c == s.cls.core
          | .quad q => q == s.cls.core / 4
        match s.tlb.find? (fun e => near e && !e.stale && t.hits e) with
        | none => retire (s.setS rd 0)
        | some e =>
          let frame := if s.cls.level = 0 then e.pa else e.ga
          retire (s.setS rd (BitVec.ofNat 64 (setBits e.attr.toNat 47 12 (frame / 4096))))) s)

/-! ### FILL (R365) -/

/-- The place of the fill in both stages as the tables stand: guest page and XPART, which the control does not carry. -/
def State.fillPage (s : State) (m : MissSlot) : Option Page :=
  match s.walk m.vmid m.asid m.ea .none with
  | .error _ => none
  | .ok p => some p

/-- The address a fault of the slot reports: the guest physical one for stage 2. -/
def State.slotAddr (s : State) (m : MissSlot) (ea : Nat) (stage2 : Bool) : Nat :=
  if !stage2 then ea
  else
    match s.walk m.vmid m.asid ea (if m.fetch then .x else if m.write then .w else .r) with
    | .error f => if f.stage2 then f.addr else ea
    | .ok p => p.ga + ea % p.size

/-- Waiters of a slot by access: class, access and lowest lane. -/
def lowestWaiters (l : List (Nat × Nat × Nat)) : List (Nat × Nat × Nat) :=
  l.foldl (fun r w =>
    if r.any (fun x => x.1 == w.1 && x.2.1 == w.2.1) then
      r.map (fun x => if x.1 = w.1 ∧ x.2.1 = w.2.1 then (x.1, x.2.1, min x.2.2 w.2.2) else x)
    else r ++ [w]) []

def State.freeSlot (s : State) (m : MissSlot) : State :=
  { s with misses := s.misses.filter (fun x => !(x.core == m.core && x.ix == m.ix)) }

/-- A walk that an access waited for has ended: with the last of them the fault of its lowest lane is delivered, or it is ready for its
replay (R380). -/
def walked (cid acc : Nat) (s : State) : State :=
  if s.misses.any (fun x => !x.fetch && x.waiters.any (fun y => y.1 == cid && y.2.1 == acc)) then s
  else
    match (s.getCls cid).bind (fun c => c.mem.find? (fun a => a.id == acc)) with
    | none => s
    | some a =>
      if a.stage ≠ .walking then s
      else
        match a.found with
        | some f => (s.modCls cid (fun c => c.modAcc acc (fun a => { a with found := none }))).deliverFault cid acc f
        | none => s.modCls cid (fun c => c.modAcc acc (fun a => { a with stage := .ready }))

/-- The fault of a lane's walk; an access keeps that of its lowest lane. -/
def Access.find (a : Access) (f : FaultInfo) : Access :=
  match a.found with
  | none => { a with found := some f }
  | some g => if f.lane < g.lane then { a with found := some f } else a

/-- The words of a group fetched before the one that missed (R188). -/
def State.fetched (s : State) (c : Cls) (pc : Int) : List Word :=
  match s.fetchGroup c pc with
  | .words ws _ => ws
  | .failed _ ws _ => ws

/-- Deliver a fault to every access of a slot, and free the slot. -/
def faultSlot (m : MissSlot) (cause : Cause) (stage2 : Bool) (s : State) : State :=
  let s' := s.freeSlot m
  match m.engine with
  | some op =>
    match s'.engineOp op with
    | none => s'
    | some (e, c) =>
      engineFault e c { cause := cause, stage2 := stage2, write := m.write, addr := s.slotAddr m m.ea stage2, aux := shE e.shape } s'
  | none =>
    (lowestWaiters m.waiters).foldl (fun s w =>
      match s.getCls w.1 with
      | none => s
      | some c =>
        if m.fetch then
          if (c.split w.2.1).state = .blocked .fetch then
            let pc := (c.split w.2.1).pc
            resumeAs w.1 w.2.1 pc (s.fetched c pc)
              (raise { cause := cause, stage2 := stage2, addr := s.slotAddr m m.ea stage2 }) s
          else s
        else
          match c.mem.find? (fun a => a.id == w.2.1) with
          | none => s
          | some a =>
            if a.stage ≠ .walking then s
            else
              let ea := ((a.lanes.find? (fun l => l.lane == w.2.2)).map (fun l => l.ea.toNat)).getD m.ea
              let f : FaultInfo :=
                { cause := cause, stage2 := stage2, write := m.write, addr := s.slotAddr m ea stage2, lane := w.2.2, aux := a.op.size }
              walked w.1 w.2.1 (s.modCls w.1 (fun c => c.modAcc w.2.1 (fun a => a.find f)))) s'

/-- A slot's accesses are ready for replay, its fetches and its engine go on, and the slot is free. -/
def replaySlot (m : MissSlot) (s : State) : State :=
  let s := s.freeSlot m
  match m.engine with
  | some op => s.modEngine op (fun e => if e.state = .walking then { e with state := .running } else e)
  | none =>
    m.waiters.foldl (fun s w =>
      if m.fetch then
        s.modCls w.1 (fun c =>
          if (c.split w.2.1).state = .blocked .fetch then c.modSplit w.2.1 (fun sp => { sp with state := .ready, age := 0 }) else c)
      else walked w.1 w.2.1 s) s

/-- Install an entry: in the quad's L2 TLB and, unless an engine missed, in the requester's L1 TLB; older entries of its pages there go. -/
def installTlb (e : TlbEntry) (core : Nat) (engine : Bool) (s : State) : State :=
  let same (x : TlbEntry) : Bool :=
    (x.home == TlbHome.quad (core / 4) || x.home == TlbHome.core core) && x.vmid == e.vmid && x.asid == e.asid
      && decide (x.va < e.va + e.size ∧ e.va < x.va + x.size)
  let s := { s with tlb := s.tlb.filter (fun x => !same x) }.enterQuadTlb (core / 4) e
  if engine then s else s.enterCoreTlb core e

/-- Park every class of a partition on every core, as by CTX.PARK (R372). -/
def parkEverywhere (vmid : Nat) (s : State) : State :=
  { s with parkedP := ((List.range Config.cores).map (fun c => (vmid, c))).filter (fun p => !s.parkedP.contains p) ++ s.parkedP }

/-- The live class and the write that a slot's walk is for: of several the first. -/
def State.dirtyWaiter (s : State) (m : MissSlot) : Option (Cls × Access × Nat) :=
  m.waiters.findSome? (fun w => match s.getCls w.1 with
    | none => none
    | some c => if c.live then (c.mem.find? (fun a => a.id == w.2.1)).map (fun a => (c, a, w.2.2)) else none)

/-- DIRTYFULL goes to level 0 and the partition is parked (R372). The event is precise: the split whose write the walk is for is blocked
until its disposal, and the write stays in its slot. With no such split (an engine's or an ended class's write) it comes as asynchronous
events do (DEDUCED: log entry 22). -/
def dirtyFull (m : MissSlot) (s : State) : State :=
  parkEverywhere m.vmid (match (if m.engine.isSome then none else s.dirtyWaiter m) with
    | some (c, a, lane) =>
      let ea := ((a.lanes.find? (fun l => l.lane == lane)).map (fun l => l.ea.toNat)).getD m.ea
      let f : FaultInfo := { cause := .dirtyfull, write := true, addr := ea, lane := lane }
      let s := s.modCls c.id (fun c => c.stop a.split)
      { s with pending := s.pending ++ [⟨c.core, 0, a.event c f s.time⟩] }
    | none =>
      let ev : Event :=
        { cause := .dirtyfull, from_ := 0, cls := s.nextId, core := m.core, vmid := m.vmid, asid := m.asid, async := true,
          addr := BitVec.ofNat 64 m.page, time := BitVec.ofNat 64 s.time, write := true }
      { s.fresh with pending := s.pending ++ [⟨m.core, 0, ev⟩] })

/-- The whole of a page lies in the race-checked window. -/
def State.chkOk (s : State) (attr : DWord) (pa size : Nat) : Bool := !attrChk attr || s.inWindow pa size

/-- Append a guest page to the partition's dirty-log ring (R371). -/
def dirtyAppend (vmid page : Nat) (s : State) : State :=
  let prod := (s.word (.part vmid) 0x112).toNat % 2 ^ 32
  let size := 2 ^ clampTo 6 20 (s.word (.part vmid) 0x111).toNat
  let at_ := (s.word (.part vmid) 0x110).toNat / 4096 * 4096 + 8 * (prod % size)
  (s.hwWrite (s.ptag (some vmid)) at_ (toBytes 8 (page % 2 ^ 36))).setWord (.part vmid) 0x112
    (BitVec.ofNat 64 ((prod + 1) % 2 ^ 32))

/-- The ring of a partition is full. -/
def State.dirtyRingFull (s : State) (vmid : Nat) : Bool :=
  let prod := (s.word (.part vmid) 0x112).toNat % 2 ^ 32
  let cons := (s.word (.part vmid) 0x113).toNat % 2 ^ 32
  ringUse prod cons == 2 ^ clampTo 6 20 (s.word (.part vmid) 0x111).toNat

/-- Page sizes by SIZE. -/
def fillSize (n : Nat) : Nat := if n = 0 then 2 ^ 12 else if n = 1 then 2 ^ 16 else if n = 2 then 2 ^ 21 else 2 ^ 30

/-- A fill that installs: the status, and the state after it. -/
def fillInstall (m : MissSlot) (ctl entry guest : Nat) (s : State) : DWord × State :=
  let size := fillSize (bits ctl 6 5)
  let pa := bits entry 47 12 * 4096
  let attr := BitVec.ofNat 64 entry
  if pa % size ≠ 0 ∨ !bit entry 5 then (statusBadarg, s)
  else if !s.chkOk attr pa size then (statusDone, faultSlot m .prot false s)
  else if bit ctl 9 && s.dirtyRingFull m.vmid then (statusBusy, dirtyFull m s)
  else
    let s := if bit ctl 9 then dirtyAppend m.vmid (bits guest 35 0) s else s
    let page := s.fillPage m
    let va := m.ea / size * size
    let e : TlbEntry :=
      { home := .core m.core, vmid := m.vmid, asid := m.asid, va := va, size := size,
        ga := (page.map (fun p => (p.ga + m.ea % p.size) / size * size)).getD va, pa := pa, attr := attr, key := bits ctl 15 10,
        xpart := (page.map (fun p => p.xpart)).getD false, sf := s.sealedAll pa size, sw := s.sealedAny pa size }
    (statusDone, replaySlot m (installTlb e m.core m.engine.isSome s))

/-- An invalidation since the run began matches the page of a fill: 4 KiB for a fault, else the page it installs. By guest page it matches
the page's own, or any that stage 1 no longer maps (R365, R368). -/
def State.shotDown (s : State) (m : MissSlot) (size : Nat) : Bool :=
  m.shot.any (fun t =>
    let meets (a : Nat) : Bool := decide (t.2.1 < a / size * size + size ∧ a / size * size < t.2.2)
    if !t.1 then meets m.ea
    else
      match s.stage1 m.vmid m.asid m.ea .none with
      | .error _ => true
      | .ok (e, z) => meets (bits e 47 12 * 4096 + m.ea % z))

/-- TLB.FILL's status and effect. -/
def fill (core ctl entry guest : Nat) (s : State) : DWord × State :=
  match s.misses.find? (fun m => m.core == core && m.ix == bits ctl 4 0 && m.inRun) with
  | none => (statusBadarg, s)
  | some m =>
    if bit ctl 7 || bits ctl 63 25 != 0 then (statusBadarg, s)
    else if m.stale || s.shotDown m (if bit ctl 8 then 4096 else fillSize (bits ctl 6 5)) then (statusBusy, s)
    else if bit ctl 8 then
      if bits ctl 23 16 = 7 then (statusDone, faultSlot m .xlate (bit ctl 24) s)
      else if bits ctl 23 16 = 8 then (statusDone, faultSlot m .prot (bit ctl 24) s)
      else (statusBadarg, s)
    else fillInstall m ctl entry guest s

/-- TLB.FILL: level 0 only, and there the walker only. -/
def execTlbFill (rd ra rb : Reg) (s : State) : Out :=
  .next (guarded (.tlbFill rd ra rb) (fun s =>
    if s.cls.level ≠ 0 then raise { cause := .priv } s
    else if s.cls.kind ≠ .walker then raise { cause := .illstate } s
    else
      let iss := s.iss
      let id := s.cls.id
      let r := fill s.cls.core (s.getS ra).toNat (s.getS rb).toNat (s.getS rd).toNat s
      if s.fits r.2 then retire ({ r.2.focus id with iss := iss }.setS rd r.1) else hold s) s)

/-! ### The walker class (R363) -/

/-- The slots of a core. -/
def State.slotsOf (s : State) (core : Nat) : List MissSlot := s.misses.filter (fun m => m.core == core)

/-- The word v4 of a slot. -/
def MissSlot.word (m : MissSlot) : Word :=
  BitVec.ofNat 32 (m.asid % 2 ^ 16 + (m.vmid % 64) * 2 ^ 16 + b2n m.write * 2 ^ 24 + b2n m.fetch * 2 ^ 25
    + b2n m.engine.isSome * 2 ^ 26 + b2n m.dmiss * 2 ^ 27)

/-- WALKER_START: a slot is occupied and the walker slot is free, so the walker class is created at WALKENT. -/
def execWalkerStart (core : Nat) (s : State) : Out :=
  let slots := s.slotsOf core
  if slots.isEmpty ∨ s.phase ≠ .running ∨ !s.coreEnabled core ∨ s.coreOff.contains core
      ∨ s.allCls.any (fun c => c.kind == .walker && c.core == core && c.status != .ended) then .next s
  else
    let at_ (i : Nat) : Option MissSlot := slots.find? (fun m => m.ix == i)
    let lane (f : MissSlot → Word) : List Word := (List.range 32).map (fun i => match at_ i with
      | none => 0
      | some m => f m)
    let v := assoc s.holder core
    let w (ix : Nat) : DWord := match v with
      | none => 0
      | some v => s.word (.part v) ix
    let root : Split := { state := .ready, pc := ((s.word .dev 0x104).toNat / 4 * 4 : Nat), mask := maskOf 32 (fun i => (at_ i).isSome) }
    let sregs : Vector DWord 128 :=
      (((Vector.replicate 128 (0 : DWord)).set 1 (BitVec.ofNat 64 ((w 0x103).toNat % 2 ^ 36 * 4096))).set 2 (w 0x100)).set 3
        (BitVec.ofNat 64 (v.getD 0))
    let c : Cls :=
      { id := s.nextId, kind := .walker, core := core, slot := 0x1F, level := 0, lanes := 32, nregs := 128,
        v := [(List.range 32).map (fun i => BitVec.ofNat 32 i), [],
              lane (fun m => BitVec.ofNat 32 m.ea), lane (fun m => BitVec.ofNat 32 (m.ea / 2 ^ 32)), lane MissSlot.word,
              lane (fun m => BitVec.ofNat 32 m.who)],
        s := sregs, splits := root :: List.replicate 15 {} }
    .next { s.fresh with
      others := s.others ++ [c],
      misses := s.misses.map (fun m => if m.core = core then { m with inRun := true, stale := false, shot := [] } else m) }

end Sys2Proof.Machine
end

