-- ==== Sys2Proof/Machine/Partition.lean ====
section
/-!
DEFINITION. Partitions' shares of cores (20_partitions.md R419–R421): the rotation of a core and its writes, φ, and the size of a
context (R394).
-/

namespace Sys2Proof.Machine

/-! ### Partitions (R419) -/

/-- Level 0 has created the partition: it has written S2ROOT, ASIDLO and ASIDHI for it. -/
def State.hasPartition (s : State) (v : Nat) : Bool :=
  decide (v < 64) && [0x103, 0x101, 0x102].all (fun ix => (assoc s.words ⟨.part v, ix, 0⟩).isSome)

/-- The ASID is a tenant of the partition. -/
def State.hasTenant (s : State) (v asid : Nat) : Bool :=
  s.hasPartition v && decide ((s.word (.part v) 0x101).toNat % 2 ^ 16 ≤ asid ∧ asid ≤ (s.word (.part v) 0x102).toNat % 2 ^ 16)

/-- The partitions that level 0 has created. -/
def State.partitions (s : State) : List Nat := (List.range 64).filter s.hasPartition

/-! ### The rotation of a core (R420) -/

/-- A frame: 10 µs. -/
def frameTicks : Nat := 40000

/-- A valid entry of a rotation. -/
structure Slice where
  vmid  : Nat
  start : Nat
  len   : Nat
  deriving DecidableEq, Repr

/-- An entry's word; its slice when V is set. -/
def sliceOf (x : DWord) : Option Slice :=
  if bit x.toNat 63 then some ⟨bits x.toNat 37 32, bits x.toNat 15 0, bits x.toNat 31 16⟩ else none

/-- ROTPER of a core in force, in frames. -/
def State.rotPer (s : State) (core : Nat) : Nat := (s.word .dev 0x201 core).toNat

/-- ROTENT words of a core in force. -/
def State.rotEnt (s : State) (core e : Nat) : DWord := s.word .dev 0x203 (8 * core + e)

/-- The slices of a core in force. -/
def State.slices (s : State) (core : Nat) : List Slice := (List.range 8).filterMap (fun e => sliceOf (s.rotEnt core e))

/-- The words as written: of those waiting for a period boundary the latest, else those in force. Entry 8 is ROTPER. -/
def State.rotWritten (s : State) (core e : Nat) : DWord :=
  match (s.rotNext.filter (fun x => x.1 == (core, e))).getLast? with
  | some x => x.2.1
  | none => if e = 8 then s.word .dev 0x201 core else s.rotEnt core e

/-- The partitions that slices name. -/
def sliceVmids (l : List Slice) : List Nat := (l.map (fun x => x.vmid)).eraseDups

/-- The slices are legal for a period: none empty, none past the period, none overlapping. -/
def slicesOk (per : Nat) (l : List Slice) : Bool :=
  l.all (fun x => decide (1 ≤ x.len ∧ x.start + x.len ≤ per))
    && (l.zipIdx.all (fun x => l.zipIdx.all (fun y =>
      x.2 == y.2 || decide (x.1.start + x.1.len ≤ y.1.start ∨ y.1.start + y.1.len ≤ x.1.start))))

/-- The cause that a write of ROTENT (entry below 8) or ROTPER (entry 8) raises, if any (R420, R421, R444). -/
def State.rotRefused (s : State) (core e : Nat) (value : DWord) : Option Cause :=
  let at_ (i : Nat) : DWord := if i = e then value else s.rotWritten core i
  let per := (at_ 8).toNat
  let l := (List.range 8).filterMap (fun i => sliceOf (at_ i))
  if s.confidential then some .illstate
  else if per < 1 ∨ 4096 < per ∨ !slicesOk per l then some .illop
  else if 2 < (sliceVmids l).length ∧ s.word .dev 0x205 core = 0 then some .illstate
  else none

/-- A legal write waits for the next period boundary after it. -/
def writeRotation (core e : Nat) (value : DWord) (s : State) : State :=
  match s.rotRefused core e value with
  | some _ => s
  | none => { s with rotNext := s.rotNext ++ [((core, e), value, s.time)] }

/-- The defined bits of ROTENT, of ROTPER. -/
def rotMask (e : Nat) (value : DWord) : DWord := if e = 8 then value else value &&& 0x8000003FFFFFFFFF

/-- ROTATION_WRITE (R420): entry `none` is ROTPER. -/
def execRotationWrite (core : Nat) (entry : Option Nat) (value : BitVec 64) (s : State) : Out :=
  let e := match entry with
    | none => 8
    | some e => min e 7
  .next (if core < Config.cores then writeRotation core e (rotMask e value) s else s)

/-! ### φ (R421) -/

/-- The allowance A, in frames. -/
def allowance (l : List Slice) : Nat :=
  match (sliceVmids l).length with
  | 0 | 1 => 0
  | 2 => 8
  | _ => 80

/-- φ of a partition on a core, in units of 2^-16. -/
def State.phi (s : State) (core v : Nat) : Nat :=
  let l := s.slices core
  let a := allowance l
  let n := ((l.filter (fun x => x.vmid == v)).map (fun x => x.len - a)).sum
  if s.rotPer core = 0 then 0 else 65536 * n / s.rotPer core

/-- The frame within the period. -/
def State.frameOf (s : State) (core : Nat) : Nat :=
  if s.rotPer core = 0 then 0 else s.time / frameTicks % s.rotPer core

/-- The slice of the present frame. -/
def State.sliceNow (s : State) (core : Nat) : Option Slice :=
  let f := s.frameOf core
  (s.slices core).find? (fun x => decide (x.start ≤ f ∧ f < x.start + x.len))

/-- A core is there and in service. -/
def State.coreUp (s : State) (core : Nat) : Bool :=
  s.coreEnabled core && !s.coreOff.contains core && !s.coreDead.contains core

/-! ### The size of a context (R394) -/

/-- A memory instruction that takes an entry of a saved context: logged, residual, or a load, CLD or RLDS saved as a replay packet
(Table 18-3). -/
def Access.packed (a : Access) : Bool :=
  a.logged || a.op.plainLoad || (match a.op with
    | .cld _ _ _ | .rlds _ _ | .loadScratch _ => true
    | _ => false)

/-- What a class takes. -/
def Cls.ctxSize (c : Cls) : Nat :=
  (if c.live then c.nregs * c.lanes * 4 + c.ntiles * 16384 + c.quota * 64 + 8192 else 0)
    + ((c.mem.filter Access.packed).map Access.logBytes).sum

/-- What a form takes. -/
def Form.ctxSize (f : Form) : Nat := f.size + f.bsize + 4096

/-- A class is part of its partition's context: not the walker, not level 0. -/
def Cls.inContext (c : Cls) (core v : Nat) : Bool := c.core == core && c.vmid == v && c.level != 0

/-- The size of a partition's context on a core. -/
def State.ctxSize (s : State) (core v : Nat) : Nat :=
  16384 + ((s.allCls.filter (fun c => c.inContext core v)).map Cls.ctxSize).sum
    + ((s.forms.filter (fun f => f.core == core && f.vmid == v && f.launch != 0)).map Form.ctxSize).sum

/-- The core keeps two contexts in the halves of its shadow bank (R421). -/
def State.halved (s : State) (core : Nat) : Bool := (sliceVmids (s.slices core)).length == 2

/-- What a half of a shadow bank holds. -/
def halfBank : Nat := 2 * 2 ^ 20

end Sys2Proof.Machine
end

