-- ==== Sys2Proof/Machine/Plan.lean ====
section
/-!
DEFINITION. The Timetable's plan (19_scheduling.md R407, R408, R410, R411, R414, R415): the launch record's fields, what a form
needs, the order, the plan of a partition, and the plan test.
-/

namespace Sys2Proof.Machine

/-! ### The launch record (Table 3-4) -/

def lrF (r : BitVec 1024) (h l : Nat) : Nat := bits r.toNat h l
def lrChildq (r : BitVec 1024) : Nat := lrF r 927 896
def lrBand (r : BitVec 1024) : Nat := lrF r 882 880
def lrCompv (r : BitVec 1024) : Nat := lrF r 863 832
def lrCompw (r : BitVec 1024) : Nat := lrF r 831 768
def lrDline (r : BitVec 1024) : Nat := lrF r 767 704
def lrFenergy (r : BitVec 1024) : Nat := lrF r 703 640
def lrFtime (r : BitVec 1024) : Nat := lrF r 639 576
def lrObq (r : BitVec 1024) : Nat := lrF r 543 512
def lrBstore (r : BitVec 1024) : Nat := lrF r 511 480
def lrScratch (r : BitVec 1024) : Nat := lrF r 479 448
def lrBars (r : BitVec 1024) : Nat := lrF r 439 432
def lrTwin (r : BitVec 1024) : Bool := bit r.toNat 424
def lrTiles (r : BitVec 1024) : Nat := lrF r 423 416
def lrRegs (r : BitVec 1024) : Nat := lrF r 415 400
def lrLanes (r : BitVec 1024) : Nat := lrF r 399 384
def lrCpf (r : BitVec 1024) : Nat := lrF r 383 376
def lrForms (r : BitVec 1024) : Nat := lrF r 375 368
def lrGx (r : BitVec 1024) : Nat := lrF r 335 320
def lrGy (r : BitVec 1024) : Nat := lrF r 351 336
def lrGz (r : BitVec 1024) : Nat := lrF r 367 352
def lrParam (r : BitVec 1024) : Nat := lrF r 319 256
def lrRegion (r : BitVec 1024) : Nat := lrF r 255 192
def lrSegb (r : BitVec 1024) : Nat := lrF r 191 128
def lrEntry (r : BitVec 1024) : Nat := lrF r 127 64
def lrImage (r : BitVec 1024) : Nat := lrF r 63 0

/-- Every reserved field, and every bit that Table 3-4 says is zero, is zero. -/
def lrReserved (r : BitVec 1024) : Bool :=
  lrF r 1023 928 == 0 && lrF r 895 883 == 0 && lrF r 879 864 == 0 && lrF r 447 440 == 0 && lrF r 431 425 == 0

/-- Houses of the launch. -/
def lrHouses (r : BitVec 1024) : Nat := lrGx r * lrGy r * lrGz r

/-! ### What a form needs (R25) -/

/-- Classes, forms, register bytes, scratchpad bytes, tiles, operand-buffer bytes, B-store bytes. -/
def formNeed (r : BitVec 1024) : List Nat :=
  [lrCpf r, 1, lrCpf r * lrRegs r * lrLanes r * 4, lrScratch r, lrCpf r * lrTiles r, lrCpf r * lrObq r * 64, lrBstore r]

/-- The limits of R25, in the same order. -/
def coreLimits : List Nat :=
  [Config.maxClasses, Config.maxForms, Config.registerStore, Config.scratchSize, 8, Config.operandBuffer, Config.bstoreSize]

def needFits (l : List Nat) : Bool := (l.zip coreLimits).all (fun p => decide (p.1 ≤ p.2))

/-- c: forms of the launch that fit together on one core. -/
def formsPerCore (r : BitVec 1024) : Nat :=
  ((List.range Config.maxForms).filter (fun k => needFits ((formNeed r).map (fun x => (k + 1) * x)))).length

/-- What one form adds to a context (R394). -/
def lrCtxSize (r : BitVec 1024) : Nat :=
  lrCpf r * (lrRegs r * lrLanes r * 4 + lrTiles r * 16384 + lrObq r * 64 + 8192) + lrScratch r + lrBstore r + 4096

/-! ### Launches -/

/-- Houses not yet placed, and not discarded. -/
def Launch.unplaced (l : Launch) : Nat := if l.noPlace then 0 else lrHouses l.shape - l.placed - l.placedH.length

/-- Committed: accepted, and not every house placed (R407). -/
def Launch.committed (l : Launch) : Bool := l.unplaced != 0

/-- The deadline, if the launch has one and its guarantee has not lapsed (R405, R414). -/
def Launch.deadline (l : Launch) : Option Nat :=
  if l.lapsed ∨ lrDline l.shape = 0xFFFFFFFFFFFFFFFF then none else some (lrDline l.shape)

/-- The order of R408, with lapsed launches at the end (R414). -/
def Launch.before (x y : Launch) : Bool :=
  let key (l : Launch) : List Nat :=
    [b2n l.lapsed, lrBand l.shape, b2n l.deadline.isNone, l.deadline.getD 0, l.no]
  ((key x).zip (key y)).foldr (fun p r => decide (p.1 < p.2) || (p.1 == p.2 && r)) false

/-- Insert by an order. -/
def insertBy {α : Type} (lt : α → α → Bool) (x : α) : List α → List α
  | [] => [x]
  | y :: l => if lt x y then x :: y :: l else y :: insertBy lt x l

def sortBy {α : Type} (lt : α → α → Bool) : List α → List α
  | [] => []
  | x :: l => insertBy lt x (sortBy lt l)

/-- The committed launches of a partition, in order. -/
def State.order (s : State) (v : Nat) : List Launch :=
  sortBy Launch.before (s.launches.filter (fun l => l.vmid == v && l.committed))

/-! ### Units and running forms -/

/-- The cores of a unit: 1, 2 or 4 in a row (R407). -/
def unitCores (forms u : Nat) : List Nat := (List.range forms).map (fun i => u + i)

/-- Every form of a partition, those of its saved contexts among them. -/
def State.formsOf (s : State) (v : Nat) : List Form :=
  (s.forms ++ s.saved.flatMap (fun x => x.forms)).filter (fun f => f.vmid == v && f.launch != 0)

/-- Device time at which a running form ends at the latest. -/
def State.formEnds (s : State) (f : Form) : Nat :=
  let phi := s.phi f.core f.vmid
  s.time + (if phi = 0 then f.timeLeft else cdiv (f.timeLeft * 65536) phi)

/-- c on a core: where the rotation names two partitions, no more than the context size lets stay (R421). -/
def State.formsOn (s : State) (r : BitVec 1024) (core : Nat) : Nat :=
  let c := formsPerCore r
  if s.halved core then min c ((halfBank - 16384) / max 1 (lrCtxSize r)) else c

/-- c on a unit. -/
def State.concOn (s : State) (r : BitVec 1024) (u : Nat) : Nat :=
  (unitCores (lrForms r) u).foldl (fun m x => min m (s.formsOn r x)) Config.maxForms

/-- The units of a launch's partition that can take a house of it. -/
def State.unitsFor (s : State) (v : Nat) (r : BitVec 1024) : List Nat :=
  ((List.range Config.cores).filter (fun u => u % lrForms r == 0)).filter (fun u =>
    (unitCores (lrForms r) u).all (fun x => s.coreUp x && s.phi x v != 0) && s.concOn r u != 0)

/-- W on a unit: its slowest core's (R407). -/
def State.waveOn (s : State) (v : Nat) (r : BitVec 1024) (u : Nat) : Nat :=
  (unitCores (lrForms r) u).foldl (fun w x => max w (cdiv ((lrFtime r + 1000) * 65536) (s.phi x v))) 0

/-- Device time rounded up to a frame boundary. -/
def frameUp (t : Nat) : Nat := cdiv t frameTicks * frameTicks

/-- When a unit is free: now, its running forms, and the planned finish of every launch before (R408). -/
def State.freeAt (s : State) (v forms : Nat) (planned : List (Nat × Nat)) (u : Nat) : Nat :=
  let cs := unitCores forms u
  let a := ((s.formsOf v).filter (fun f => cs.contains f.core)).foldl (fun t f => max t (s.formEnds f)) s.time
  frameUp ((planned.filter (fun p => cs.contains p.1)).foldl (fun t p => max t p.2) a)

/-! ### Planning (R408) -/

/-- A launch's plan, given what earlier launches planned. -/
def State.planOne (s : State) (planned : List (Nat × Nat)) (l : Launch) : List PlanUnit :=
  let r := l.shape
  let us := (s.unitsFor l.vmid r).map (fun u => (s.freeAt l.vmid (lrForms r) planned u, u))
  let m := min us.length (cdiv l.unplaced (formsPerCore r))
  let set := (sortBy (fun x y => decide (x.1 < y.1 ∨ x.1 = y.1 ∧ x.2 < y.2)) us).take m
  set.zipIdx.map (fun p =>
    let n := cdiv (l.unplaced - p.2) m
    let c := s.concOn r p.1.2
    let w := s.waveOn l.vmid r p.1.2
    { core := p.1.2, start := p.1.1, finish := frameUp (p.1.1 + cdiv n c * w), houses := n, conc := c, wave := w })

/-- The planned finish on each core that a plan uses. -/
def planCores (l : Launch) (us : List PlanUnit) : List (Nat × Nat) :=
  us.flatMap (fun u => (unitCores (lrForms l.shape) u.core).map (fun x => (x, u.finish)))

/-- The plans of launches taken in order. -/
def State.planAll (s : State) : List (Nat × Nat) → List Launch → List (Launch × List PlanUnit)
  | _, [] => []
  | planned, l :: ls =>
    let us := s.planOne planned l
    (l, us) :: s.planAll (planCores l us ++ planned) ls

/-- finish(l). -/
def planFinish (us : List PlanUnit) : Nat := us.foldl (fun t u => max t u.finish) 0

/-! ### The plan test (R411) -/

/-- Energy spread evenly over a stretch of time: `num / den` units of 2^-20 J each tick. -/
structure Draw where
  lo  : Nat
  hi  : Nat
  num : Nat
  den : Nat
  deriving DecidableEq, Repr

/-- FENERGY of each form over its wave: the full waves of a unit, then the last. -/
def planDraws (l : Launch) (us : List PlanUnit) : List Draw :=
  us.flatMap (fun u =>
    let e := lrForms l.shape * lrFenergy l.shape
    let full := if u.conc = 0 then 0 else u.houses / u.conc
    let rest := if u.conc = 0 then 0 else u.houses % u.conc
    let mid := u.start + full * u.wave
    [⟨u.start, mid, u.conc * e, u.wave⟩, ⟨mid, mid + u.wave, rest * e, u.wave⟩])

/-- What running forms draw until they end. -/
def State.runDraws (s : State) (v : Nat) : List Draw :=
  (s.formsOf v).map (fun f =>
    let phi := s.phi f.core v
    ⟨s.time, s.formEnds f, f.fenergy, if phi = 0 then f.ftime + 1000 else cdiv ((f.ftime + 1000) * 65536) phi⟩)

/-- Sum of fractions. -/
def sumFrac : List (Nat × Nat) → Nat × Nat
  | [] => (0, 1)
  | (n, d) :: l =>
    let r := sumFrac l
    if d = 0 then r else (n * r.2 + r.1 * d, d * r.2)

/-- The energy of a frame stays within a share in watts: 10 µs of it. -/
def frameOk (share : Nat) (ds : List Draw) (frame : Nat) : Bool :=
  let lo := frame * frameTicks
  let hi := lo + frameTicks
  let e := sumFrac (ds.map (fun d => ((min hi d.hi - max lo d.lo) * d.num, d.den)))
  decide (e.1 * 100000 ≤ share * 2 ^ 20 * e.2)

/-- The energy of every frame stays within the share. It is constant over frames in which no draw begins or ends, so the
frames of those instants and the ones after them are all to be looked at. -/
def energyOk (share : Nat) (ds : List Draw) : Bool :=
  (ds.flatMap (fun d => [d.lo / frameTicks, d.lo / frameTicks + 1, d.hi / frameTicks, d.hi / frameTicks + 1])).all (frameOk share ds)

/-- R411 for the launches of a partition in order: every deadline not lapsed is met, `must` has a unit, and the energy of every
frame stays within the share. -/
def State.planTest (s : State) (v : Nat) (must : Option Nat) (ls : List Launch) : Bool :=
  let ps := s.planAll [] ls
  let times := ps.all (fun p =>
    match p.1.deadline with
    | none => some p.1.no != must || !p.2.isEmpty
    | some d => !p.2.isEmpty && decide (planFinish p.2 ≤ d))
  times && energyOk (s.word (.part v) 0x221).toNat (s.runDraws v ++ ps.flatMap (fun p => planDraws p.1 p.2))

/-! ### Adopting a plan, and lapsing (R414, R415) -/

def State.modLaunch (s : State) (no : Nat) (f : Launch → Launch) : State :=
  { s with launches := s.launches.map (fun l => if l.no = no then f l else l) }

/-- The plan of a partition is made anew. -/
def State.replan (s : State) (v : Nat) : State :=
  (s.planAll [] (s.order v)).foldl (fun s p =>
    s.modLaunch p.1.no (fun l => { l with plan := p.2, planned := l.placed, plannedH := l.placedH })) s

/-- A guarantee lapses: TTLAPSE rises, and the launch goes to the end of the order. -/
def State.lapse (s : State) (l : Launch) : State :=
  if l.lapsed then s
  else
    (s.modLaunch l.no (fun l => { l with lapsed := true })).setWord (.part l.vmid) 0x18C
      (BitVec.ofNat 64 (((s.word (.part l.vmid) 0x18C).toNat + 1) % 2 ^ 32))

/-- Launches lapse one at a time, last in the order first, until the rest pass (R415). -/
def State.lapseUntil (v : Nat) : Nat → State → State
  | 0, s => s
  | n + 1, s =>
    if s.planTest v none (s.order v) then s
    else
      match ((s.order v).filter (fun l => !l.lapsed)).getLast? with
      | none => s
      | some l => State.lapseUntil v n (s.lapse l)

/-- The plan of a partition is tested again (R415). -/
def State.retest (s : State) (v : Nat) : State := (State.lapseUntil v (s.order v).length s).replan v

/-- Every partition's plan is tested again. -/
def State.retestAll (s : State) : State := s.partitions.foldl (fun s v => s.retest v) s

end Sys2Proof.Machine
end

