-- ==== Sys2Proof/Machine/Timetable.lean ====
section
/-!
DEFINITION. The Timetable (19_scheduling.md R398–R417): queues, packets and fences, judging a record, placing houses, the end of
forms and launches, time bounds, and disabling a queue.
-/

namespace Sys2Proof.Machine

/-! ### What the hardware chooses -/

/-- One of a list, where the manual leaves the choice. -/
def State.chooseFrom (s : State) (l : List Nat) : Nat := l.getD (Config.choice s.free % l.length) 0

/-- A place in the copy window (R63). -/
def State.copyPlace (s : State) : Nat := windowBase + 4096 * (Config.choice s.free % 2 ^ 28)

/-- A place in the copy window other than one. -/
def State.copyPlaceBut (s : State) (p : Nat) : Nat :=
  windowBase + 4096 * (((p - windowBase) / 4096 + 1 + Config.choice s.free % (2 ^ 28 - 1)) % 2 ^ 28)

/-- Race tags that may not be given out: one that a class holds, on a core or in a saved context, until nothing of it is left, and one
whose count has no room (R135). -/
def State.tagsHeld (s : State) : List Nat :=
  (((s.allCls.filter (fun c => !Cls.gone s c)) ++ s.saved.flatMap (fun x => x.classes)).map (fun c => c.tag)
    ++ (s.tagCount.filter (fun p => decide (0xFFFFFFFF ≤ p.2))).map (fun p => p.1)).eraseDups

/-- How many of the 2^24 tags may be given out. -/
def State.tagsLeft (s : State) : Nat := 2 ^ 24 - (s.tagsHeld.filter (fun t => decide (t < 2 ^ 24))).length

/-- A tag from the pool: the first that may be given out, from a place that the hardware chooses; none is left when every one is held. -/
def State.newTag (s : State) : Option Nat :=
  let held := s.tagsHeld
  let t := Config.choice s.free % 2 ^ 24
  ((List.range (min (held.length + 1) (2 ^ 24))).map (fun i => (t + i) % 2 ^ 24)).find? (fun x => !held.contains x)

/-! ### Queues (Tables 19-1, 19-2) -/

def State.qctl (s : State) (v q : Nat) : Nat := (s.word (.part v) 0x182 q).toNat
def State.qEn (s : State) (v q : Nat) : Bool := bit (s.qctl v q) 0
def State.qAsid (s : State) (v q : Nat) : Nat := bits (s.qctl v q) 31 16
def State.qSize (s : State) (v q : Nat) : Nat := 2 ^ clampTo 4 16 (bits (s.qctl v q) 7 2)
def State.qCons (s : State) (v q : Nat) : Nat := (s.word (.part v) 0x183 q).toNat % 2 ^ 32

/-- Committed and running launches from a queue. -/
def State.fromQueue (s : State) (v q : Nat) : List Launch :=
  s.launches.filter (fun l => l.vmid == v && !l.child && l.queue == q)

/-- A fence holds the queue (R400). -/
def State.fenced (s : State) (v q : Nat) : Bool := s.fences.any (fun f => f.vmid == v && f.queue == q)

/-- QSTAT. -/
def State.qStat (s : State) (v q : Nat) : DWord :=
  let n := (s.fromQueue v q).length
  BitVec.ofNat 64 (b2n (s.qEn v q && !s.fenced v q) + b2n (n == 0) * 2 + n % 2 ^ 16 * 2 ^ 32)

/-- The fault queue that reports of a queue go to (R409). -/
def State.ownerQueue (v : Nat) (owner0 : Bool) : QueueId := if owner0 then none else some v

def State.queueOwner0 (s : State) (v q : Nat) : Bool := s.queues0.contains (v, q)

/-- An ORPHAN entry of R409. -/
def State.report (s : State) (v asid : Nat) (owner0 write : Bool) (addr lrec : Nat) : State :=
  s.queueEntry (State.ownerQueue v owner0)
    { cause := .orphan, write := write, addr := addr, lrec := lrec, vmid := v, asid := asid }

/-- A completion or fence word is written as a release at SYSTEM scope of what its launches wrote, the private lines that L1 caches
still hold among it (R130, R401, R404); a write that faults is discarded and reported (R409). -/
def State.writeStatus (s : State) (v asid : Nat) (owner0 : Bool) (addr status value lrec : Nat) : State :=
  match (s.cleanL1 (fun x => x.vmid == v)).unitWrite v asid addr (toBytes 8 (status * 2 ^ 32 + value % 2 ^ 32)) with
  | (none, s) => s
  | (some _, s) => s.report v asid owner0 true addr lrec

/-! ### Judging a record (R405) -/

/-- Launch statuses (R404). -/
def launchOk : Nat := 0
def launchRefused : Nat := 1
def launchQuota : Nat := 2
def launchOrphan : Nat := 3

/-- Where a record comes from. -/
structure Submission where
  vmid    : Nat
  asid    : Nat
  queue   : Nat := 0
  parent  : Option Nat := none     -- a child: the parent's BAND
  service : Bool := false
  owner0  : Bool := false
  at_     : Nat := 0               -- RECORD
  deriving DecidableEq, Repr

/-- Steps 3 and 4 of Table 19-4: the image and the record agree. -/
def imageAgrees (im : Image) (r : BitVec 1024) : Bool :=
  lrEntry r == im.entry && lrSegb r == im.segb

/-- Step 4: the shape of the launch. -/
def shapeAgrees (im : Image) (r : BitVec 1024) : Bool :=
  let h := im.header.toNat
  lrLanes r == bits h 330 320 && lrRegs r == bits h 340 331 && lrTiles r == bits h 344 341 && lrBars r == bits h 349 345
    && lrScratch r == bits h 370 350 && lrBstore r == bits h 421 400 && lrTwin r == bit h 56
    && decide (1 ≤ lrCpf r ∧ lrCpf r ≤ 32) && (!lrTwin r || lrCpf r % 2 == 0)
    && (lrForms r == 1 || lrForms r == 2 || lrForms r == 4) && lrGx r != 0 && lrGy r != 0 && lrGz r != 0

/-- The table is registered for the ASID (R406). -/
def State.registered (s : State) (v asid addr : Nat) : Bool :=
  decide (addr ≠ 0) && (List.range 1024).any (fun i =>
    (s.word (.part v) 0x189 i).toNat == addr && (s.word (.part v) 0x18A i).toNat % 2 ^ 16 == asid)

/-- Every page that 2,048 bytes touch is readable, and for LVL 2 not writable (R406). -/
def State.tablePages (s : State) (v asid addr lvl : Nat) : Bool :=
  (pieces 2 addr 2048).all (fun p =>
    match s.walk v asid p.1 .r with
    | .error _ => false
    | .ok g => lvl == 1 || !bit g.attr.toNat 2)

/-- The reserved bits of a region-table entry. -/
def regionReserved (t : List DWord) (i : Nat) : Bool :=
  let a := (t.getD (4 * i + 2) 0).toNat
  (t.getD (4 * i + 3) 0) == 0 && bits a 63 10 == 0 && !bit a 1

/-- A declaration of an image (R162) is met by the table. -/
def declMet (t : List DWord) (d : DWord) : Bool :=
  let x := d.toNat
  match regionEntry t (bits x 5 0) with
  | none => false
  | some g => g.esz == bits x 9 8 && (!bit x 12 || g.r) && (!bit x 11 || g.w) && (!bit x 10 || g.ca)

/-- R168. Reserved bits of an entry with V set must be zero: Table 8-7 says so, but the list of R168 does not name them, and nothing is said
of an entry without V, whose bits are ignored, nor of a handler's table, where all of them are (DESIGN CHOICE: log entry 80). -/
def tableOk (im : Image) (r : BitVec 1024) (t : List DWord) : Bool :=
  let es := (List.range 64).filterMap (fun i => (regionEntry t i).map (fun g => (i, g)))
  let stores := (es.filter (fun e => e.2.ca)).map (fun e => e.2.store)
  im.regions.all (declMet t)
    && es.all (fun e => regionReserved t e.1 && e.2.base % 2 ^ e.2.esz == 0 && decide (e.2.base + e.2.len * 2 ^ e.2.esz ≤ 2 ^ 57))
    && (t.getD 0 0).toNat == lrParam r && stores.all (fun x => x == stores.headD 0)

/-- 64-bit words of bytes. -/
def bytesToWords : Nat → List Byte → List DWord
  | 0, _ => []
  | n + 1, l => BitVec.ofNat 64 (ofBytes (l.take 8)) :: bytesToWords n (l.drop 8)

/-- The region table, read once, if step 6 passes. -/
def State.judgeTable (s : State) (im : Image) (v asid lvl : Nat) (r : BitVec 1024) : Option (List DWord) × State :=
  let a := lrRegion r
  if 2 ^ 57 ≤ a ∨ (lvl = 2 ∧ !s.registered v asid a) ∨ !s.tablePages v asid a lvl then (none, s)
  else
    match s.unitRead v asid a 2048 with
    | (.error _, s) => (none, s)
    | (.ok bs, s) =>
      let t := bytesToWords 256 bs
      (if tableOk im r t then some t else none, s)

/-- Packets for which the child-queue area must keep room: the reservations of launches, and what launches that have completed
left in it (R416). -/
def State.childUse (s : State) : Nat :=
  (s.launches.map (fun l => lrChildq l.shape)).sum
    + (s.childq.filter (fun p => !s.launches.any (fun l => l.no == p.parent))).length

/-- The level of an image. -/
def Image.lvl (im : Image) : Nat := bits im.header.toNat 55 48

/-- Steps 7 to 12 for an image and a region table. -/
def State.judgeLaunch (s : State) (b : Submission) (r : BitVec 1024) (im : Image) (t : List DWord) : Except Nat Launch :=
  let floor := max (s.word (.part b.vmid) 0x187).toNat (match b.parent with
    | some p => p
    | none => bits (s.qctl b.vmid b.queue) 10 8)
  let qlim := bits (s.qctl b.vmid b.queue) 47 32
  if lrBand r < floor ∨ lrFtime r = 0 ∨ lrFenergy r = 0 ∨ lrDline r ≤ s.time then .error launchRefused
  else if b.parent.isNone && qlim != 0 && decide (qlim ≤ (s.fromQueue b.vmid b.queue).length) then .error launchQuota
  else if (s.word .dev 0x186).toNat < s.childUse + lrChildq r then .error launchRefused
  else if 1024 ≤ (s.order b.vmid).length then .error launchRefused
  else
    let rec_ := s.copyPlace
    let l : Launch :=
      { no := s.launchNo + 1, vmid := b.vmid, asid := b.asid, queue := b.queue, child := b.parent.isSome,
        service := b.service, shape := r, table := t, lvl := im.lvl, img := im.handle.toNat, recAt := rec_,
        tabAt := s.usedChoice.copyPlaceBut rec_, owner0 := b.owner0, childLeft := lrChildq r }
    if s.planTest b.vmid (some l.no) (sortBy Launch.before (l :: s.order b.vmid)) then .ok l else .error launchRefused

/-- The judgement of steps 3 to 12: a launch to accept, or the refusal's status. -/
def State.judge (s : State) (b : Submission) (r : BitVec 1024) : Except Nat Launch × State :=
  match s.images.find? (fun im => im.handle == BitVec.ofNat 64 (lrImage r) && im.vmid == b.vmid && !im.closing) with
  | none => (.error launchRefused, s)
  | some im =>
    if !imageAgrees im r || !shapeAgrees im r || formsPerCore r == 0 then (.error launchRefused, s)
    else
      match s.judgeTable im b.vmid b.asid im.lvl r with
      | (none, s) => (.error launchRefused, s)
      | (some t, s) => (s.judgeLaunch b r im t, s)

/-- The Timetable decides on a record it has read: drops it, refuses it, or accepts it and adopts the new plan; true when the
launch is accepted. -/
def decide_ (b : Submission) (r : BitVec 1024) (s : State) : Bool × State :=
  if !lrReserved r || decide (2 ^ 57 ≤ lrCompw r) || lrCompw r % 8 != 0 then (false, s.report b.vmid b.asid b.owner0 false b.at_ 0)
  else
    match s.judge b r with
    | (.error st, s) => (false, s.writeStatus b.vmid b.asid b.owner0 (lrCompw r) st (lrCompv r) b.at_)
    | (.ok l, s) =>
      (true, ({ s with launches := s.launches ++ [l], launchNo := l.no, free := s.free + 2 } : State).replan b.vmid)

/-- Read the record and decide (R405, step 1). -/
def judgeAt (b : Submission) (s : State) : Bool × State :=
  if b.at_ % 128 ≠ 0 then (false, s.report b.vmid b.asid b.owner0 false b.at_ 0)
  else
    match s.unitRead b.vmid b.asid b.at_ 128 with
    | (.error _, s) => (false, s.report b.vmid b.asid b.owner0 false b.at_ 0)
    | (.ok bs, s) => decide_ b (BitVec.ofNat 1024 (ofBytes bs)) s

/-! ### Taking packets (R400–R403) -/

/-- The slot of a queue's next packet. -/
def State.packetPlace (s : State) (v q : Nat) : Nat := (s.word (.part v) 0x181 q).toNat + 64 * (s.qCons v q % s.qSize v q)

/-- What the Timetable finds in a queue: nothing, a read that faults, or a packet, with the state after the read. -/
def State.packetAt (s : State) (v q : Nat) : Option (Except Unit Nat × State) :=
  if !s.qEn v q || s.fenced v q then none
  else
    match s.unitRead v (s.qAsid v q) (s.packetPlace v q) 64 with
    | (.error _, s') => some (.error (), s')
    | (.ok bs, s') =>
      let x := ofBytes bs
      if bits x 31 0 ≠ s.qCons v q ∨ bits x 39 32 = 0 then none else some (.ok x, s')

/-- Whose turn it is in a partition (R402, R403). -/
inductive Turn where
  | child (p : ChildPkt)
  | service
  | packet (q : Nat) (x : Except Unit Nat) (s : State)
  | passEnd
  | idle

def State.turn (s : State) (v : Nat) : Turn :=
  let next := (assoc s.ttNext v).getD 0
  match s.childq.find? (fun p => p.vmid == v && next == 0) with
  | some p => .child p
  | none =>
    if next == 0 && (s.services.contains v || s.timers.any (fun t => t.1 == v)) then .service
    else
      match (List.range 64).findSome? (fun q => if next ≤ q then (s.packetAt v q).map (fun x => (q, x)) else none) with
      | some (q, x, s') => .packet q x s'
      | none => if next = 0 then .idle else .passEnd

/-- A FENCE packet that is not discarded (R400, R401). -/
def isFence (x : Nat) : Bool :=
  bits x 39 32 == 2 && bits x 511 128 == 0 && bits x 63 40 == 0 && bits x 127 64 % 8 == 0 && decide (bits x 127 64 < 2 ^ 57)

/-- Taking a packet advances QCONS, and the turn goes to the next queue. -/
def State.advance (s : State) (v q : Nat) : State :=
  { s.setWord (.part v) 0x183 (BitVec.ofNat 64 ((s.qCons v q + 1) % 2 ^ 32)) q with
    ttNext := assocSet s.ttNext v (if q = 63 then 0 else q + 1) }

/-- The next packet of a partition, other than a FENCE. -/
def takePacket (v : Nat) (s : State) : State :=
  match s.turn v with
  | .idle | .service => s
  | .passEnd => { s with ttNext := assocDel s.ttNext v }
  | .child p =>
    let at_ := s.childPlace p.slot
    (decide_ { vmid := v, asid := p.asid, parent := some p.band, owner0 := true, at_ := at_ }
      (BitVec.ofNat 1024 (s.hwNum 0 (at_ + 64) 128)) { s with childq := s.childq.erase p }).2
  | .packet q x s =>
    let asid := s.qAsid v q
    let own := s.queueOwner0 v q
    match x with
    | .error _ => (s.advance v q).report v asid own false (s.packetPlace v q) 0
    | .ok w =>
      if isFence w then s
      else if bits w 39 32 ≠ 1 ∨ bits w 511 128 ≠ 0 ∨ bits w 63 40 ≠ 0 then (s.advance v q).report v asid own false (s.packetPlace v q) 0
      else (judgeAt { vmid := v, asid := asid, queue := q, owner0 := own, at_ := bits w 127 64 } (s.advance v q)).2

/-- TAKE_LAUNCH_PACKET (R402, R405). -/
def execTakeLaunchPacket (vmid : Nat) (s : State) : Out := .next (if s.phase = .running then takePacket vmid s else s)

/-- FENCE_PACKET (R400, R401). -/
def execFencePacket (vmid queue : Nat) (s : State) : Out :=
  match s.turn vmid with
  | .packet q (.ok w) s' =>
    if q = queue ∧ isFence w ∧ s.phase = .running then
      .next { s'.advance vmid q with
        fences := s'.fences ++ [{ vmid := vmid, queue := q, seq := bits w 31 0, word := bits w 127 64, upTo := s'.launchNo + 1 }] }
    else .next s
  | .packet _ (.error _) _ | .child _ | .service | .passEnd | .idle => .next s

/-- FENCE_WORD_WRITE (R401): every launch accepted from the queue before the FENCE has completed. -/
def execFenceWordWrite (vmid queue : Nat) (s : State) : Out :=
  match s.fences.find? (fun f => f.vmid == vmid && f.queue == queue) with
  | none => .next s
  | some f =>
    if (s.fromQueue vmid queue).any (fun l => decide (l.no < f.upTo)) then .next s
    else
      let s := { s with fences := s.fences.erase f }
      .next (if f.word = 0 then s
        else s.writeStatus vmid (s.qAsid vmid queue) (s.queueOwner0 vmid queue) f.word launchOk f.seq 0)

/-- SUBMIT_SERVICE_RECORD (R403): the fault queue's service first, then the timer's record. -/
def execSubmitServiceRecord (vmid : Nat) (s : State) : Out :=
  match s.turn vmid with
  | .service =>
    if s.phase ≠ .running then .next s
    else
      let b : Submission := { vmid := vmid, asid := s.qAsid vmid 0, owner0 := true }
      if s.services.contains vmid then
        let r := judgeAt { b with service := true, at_ := (s.word (.part vmid) 0x305).toNat }
          { s with services := s.services.filter (fun x => x != vmid) }
        .next (if r.1 then r.2 else { r.2 with refusedS := vmid :: r.2.refusedS.filter (fun x => x != vmid) })
      else
        match s.timers.find? (fun t => t.1 == vmid) with
        | none => .next s
        | some t => .next (judgeAt { b with at_ := t.2 } { s with timers := s.timers.erase t }).2
  | .packet _ _ _ | .child _ | .passEnd | .idle => .next s

/-! ### Placing houses (R19–R25, R412) -/

/-- The j-th house that was unplaced when the plan was made. -/
def nthFree (base : Nat) (skip : List Nat) (j : Nat) : Nat :=
  (sortBy (fun x y => decide (x < y)) skip).foldl (fun h x => if x ≤ h then h + 1 else h) (base + j)

/-- How many houses of entry i of its plan a launch has placed. -/
def Launch.doneOn (l : Launch) (i : Nat) : Nat :=
  let m := l.plan.length
  let n := min (l.plan.getD i ⟨0, 0, 0, 0, 0, 0⟩).houses (l.placed - l.planned + l.placedH.length)
  ((List.range n).takeWhile (fun k =>
    let h := nthFree l.planned l.plannedH (k * m + i)
    decide (h < l.placed) || l.placedH.contains h)).length

/-- The next house of entry i of a plan. -/
def Launch.nextHouse (l : Launch) (i : Nat) : Option Nat :=
  match l.plan[i]? with
  | none => none
  | some u => if l.doneOn i < u.houses ∧ !l.noPlace then some (nthFree l.planned l.plannedH (l.doneOn i * l.plan.length + i)) else none

/-- The launch has unplaced houses planned on one of these cores. -/
def Launch.wants (l : Launch) (cores : List Nat) : Bool :=
  (List.range l.plan.length).any (fun i =>
    (l.nextHouse i).isSome && (unitCores (lrForms l.shape) ((l.plan.getD i ⟨0, 0, 0, 0, 0, 0⟩).core)).any (fun c => cores.contains c))

/-- The resources of the forms on a core, with one more form. -/
def State.coreUse (s : State) (core : Nat) (r : BitVec 1024) : List Nat :=
  ((s.forms.filter (fun f => f.core == core && f.launch != 0)).filterMap (fun f =>
    (s.launches.find? (fun l => l.no == f.launch)).map (fun l => formNeed l.shape))).foldl
      (fun a b => (a.zip b).map (fun p => p.1 + p.2)) (formNeed r)

/-- Class slots in use on a core. -/
def State.slotsUsed (s : State) (core : Nat) : List Nat :=
  (s.allCls.filter (fun c => c.core == core && c.kind == .launch && c.status != .ended)).map (fun c => c.slot)

def State.slotsFree (s : State) (core : Nat) : List Nat :=
  (List.range Config.maxClasses).filter (fun i => !(s.slotsUsed core).contains i)

/-- A form of the launch can be placed on the core now. -/
def State.coreTakes (s : State) (l : Launch) (core : Nat) : Bool :=
  s.coreUp core && assoc s.holder core == some l.vmid && needFits (s.coreUse core l.shape)
    && !s.forms.any (fun f => f.core == core && f.launch != 0 && f.launch != l.no)
    && decide (lrCpf l.shape ≤ (s.slotsFree core).length)
    && (!s.halved core || decide (s.ctxSize core l.vmid + lrCtxSize l.shape ≤ halfBank))

/-- The house may be placed on the unit: the plan has it there next, no launch earlier in the order wants the unit, and every
core of it takes a form; each class takes a race tag (R135). -/
def State.canPlace (s : State) (l : Launch) (house u : Nat) : Bool :=
  let cs := unitCores (lrForms l.shape) u
  (List.range l.plan.length).any (fun i => (l.plan.getD i ⟨0, 0, 0, 0, 0, 0⟩).core == u && l.nextHouse i == some house)
    && ((s.order l.vmid).takeWhile (fun x => x.no != l.no)).all (fun x => !x.wants cs)
    && cs.all (fun c => s.coreTakes l c) && decide (lrForms l.shape * lrCpf l.shape ≤ s.tagsLeft)

/-- The content store that a launch uses (R143). -/
def launchStore (t : List DWord) : Option Nat :=
  (List.range 64).findSome? (fun i =>
    match regionEntry t i with
    | none => none
    | some g => if g.ca then some g.store else none)

/-- A class as it is created (R51, R52, R64). -/
def newClass (l : Launch) (im : Image) (f : Form) (n id slot tag : Nat) : Cls :=
  let r := l.shape
  let root : Split := { state := .ready, pc := lrEntry r, mask := liveMask (lrLanes r) }
  { id := id, core := f.core, slot := slot, level := l.lvl, vmid := l.vmid, asid := l.asid, launch := l.no, form := f.id,
    formno := f.formno, houseno := f.house, forminh := f.inh, classno := n,
    twin := if lrTwin r then (if n % 2 = 0 then 1 else 2) else 0, lanes := lrLanes r, nregs := lrRegs r, ntiles := lrTiles r,
    quota := lrObq r, segb := im.segb, code := im.code, njt := im.tables.length, image := im.handle, lrec := l.recAt,
    band := lrBand r, tag := tag, cstore := launchStore l.table,
    v := [(List.range (lrLanes r)).map (fun i => BitVec.ofNat 32 i)],
    s := ((Vector.replicate 128 (0 : DWord)).set 1 (BitVec.ofNat 64 (lrParam r))).set 2 (BitVec.ofNat 64 l.tabAt),
    splits := root :: List.replicate 15 {}, tiles := List.replicate (lrTiles r) {}, obRes := List.replicate 16 none,
    obGen := List.replicate 16 0, locks := List.replicate 16 none, lockGen := List.replicate 16 0 }

/-- Create the classes of a form, from class n on. -/
def addClasses (l : Launch) (im : Image) (f : Form) : Nat → Nat → State → State
  | 0, _, s => s
  | k + 1, n, s =>
    let c := newClass l im f n s.nextId (s.chooseFrom (s.slotsFree f.core)) (s.usedChoice.newTag.getD 0)
    let used := if s.tagsUsed.contains c.tag then s.tagsUsed else c.tag :: s.tagsUsed
    addClasses l im f k (n + 1) { s.fresh with others := s.others ++ [c], free := s.free + 2, tagsUsed := used }

/-- Create form i of a house, with its classes; each class's creation is an acquire (R130). -/
def addForm (l : Launch) (im : Image) (house u i : Nat) (s : State) : State :=
  let r := l.shape
  let f : Form :=
    { id := s.nextId, launch := l.no, house := house, inh := i, formno := house * lrForms r + i, core := u + i, vmid := l.vmid,
      size := lrScratch r, bars := lrBars r, bsize := lrBstore r, ftime := lrFtime r, timeLeft := lrFtime r,
      fenergy := lrFenergy r }
  addClasses l im f (lrCpf r) 0 ({ s.fresh with forms := s.forms ++ [f] }.acquire (u + i) 4)

/-- The launch has one more house placed. -/
def Launch.place (l : Launch) (house : Nat) : Launch :=
  let hs := house :: l.placedH
  let n := ((List.range hs.length).takeWhile (fun k => hs.contains (l.placed + k))).length
  { l with placed := l.placed + n, placedH := hs.filter (fun h => decide (l.placed + n ≤ h)) }

/-- PLACE_HOUSE (R20, R412): the house is placed whole, or not at all. A form placed under thermal throttling is throttled, so its
launch lapses (R414, R459). -/
def execPlaceHouse (launch house unit_ : Nat) (s : State) : Out :=
  match s.launches.find? (fun l => l.no == launch) with
  | none => .next s
  | some l =>
    match s.images.find? (fun im => im.handle == BitVec.ofNat 64 l.img && im.vmid == l.vmid) with
    | none => .next s
    | some im =>
      if s.phase = .running ∧ s.canPlace l house unit_ then
        let s := s.modLaunch launch (fun l => l.place house)
        let s := (List.range (lrForms l.shape)).foldl (fun s i => addForm l im house unit_ i s) s
        .next (if s.hot && !l.lapsed then (s.lapse l).replan l.vmid else s)
      else .next s

/-! ### Ends (R14, R18, R297, R387) -/

/-- A scratchpad store or a CPY that an ended class has left, which its form's allocation must outlive (R18, R297). -/
def Access.keepsForm (a : Access) : Bool :=
  match a.op with
  | .storeScratch _ | .copy _ => true
  | _ => false

/-- After a trip nothing walks and nothing disposes of a fault: an access or an engine operation that waits for either is given up
(R459; DESIGN CHOICE: log entry 50). -/
def State.givenUp (s : State) (a : Access) : Bool :=
  s.phase == .tripped && (match a.stage with
    | .walking | .delivered _ _ | .stopped => true
    | .fabric | .retry _ | .ready => false)

def State.opLeft (s : State) (e : EngineOp) : Bool :=
  s.phase != .tripped || (match e.state with
    | .walking | .stopped _ _ => false
    | .queued | .running => true)

/-- FORM_END: its classes have ended and have no engine operation, matrix operation or scratchpad store left (R18, R297, R386). -/
def execFormEnd (form : Nat) (s : State) : Out :=
  let mine := s.allCls.filter (fun c => c.kind == .launch && c.form == form)
  if (s.forms.any (fun f => f.id == form && f.launch != 0)) && mine.all (fun c => c.status == .ended && !c.mem.any (fun a => a.keepsForm && !s.givenUp a))
      && !s.engines.any (fun e => e.form == form && s.opLeft e) && !s.seq.any (fun o => mine.any (fun c => c.id == o.cls)) then
    .next { s with forms := s.forms.filter (fun f => f.id != form) }
  else .next s

/-- Every write of a launch has been performed, and every form of it has ended (R14). -/
def State.launchDone (s : State) (l : Launch) : Bool :=
  (l.unplaced == 0) && !s.forms.any (fun f => f.launch == l.no)
    && !s.saved.any (fun x => x.forms.any (fun f => f.launch == l.no)
      || x.classes.any (fun c => c.kind == .launch && c.launch == l.no) || x.engines.any (fun e => e.launch == l.no))
    && s.allCls.all (fun c => c.kind != .launch || c.launch != l.no || (c.status == .ended && c.mem.all s.givenUp))
    && !s.engines.any (fun e => e.launch == l.no && s.opLeft e)
    && !s.seq.any (fun o => s.allCls.any (fun c => c.id == o.cls && c.launch == l.no && c.kind == .launch))

/-- LAUNCH_COMPLETE: the completion word, and what the end of a launch lets happen (R404, R416, R438). -/
def execLaunchComplete (launch : Nat) (s : State) : Out :=
  match s.launches.find? (fun l => l.no == launch) with
  | none => .next s
  | some l =>
    if !s.launchDone l then .next s
    else
      let left := s.others.filter (fun c => !(c.kind == ClsKind.launch && c.launch == launch && Cls.gone s c))
      let s : State := { s with launches := s.launches.filter (fun x => x.no != launch), others := left }
      let s := s.writeStatus l.vmid l.asid l.owner0 (lrCompw l.shape) (if l.orphan then launchOrphan else launchOk)
        (lrCompv l.shape) l.recAt
      .next (if l.service then s.submitService l.vmid (ringUse (s.fqProd (some l.vmid)) (s.fqCons (some l.vmid)) != 0) else s)

/-! ### Time bounds (R413) -/

/-- DEADLINE_EXPIRY: DEADL is 0, so the form's classes stop issuing and DEADLINE goes to level 0; its disposition ends them. A form whose
classes have all ended, and that an engine operation or a residual entry still holds, takes it too (R386, R389). -/
def execDeadlineExpiry (form : Nat) (s : State) : Out :=
  match s.forms.find? (fun f => f.id == form && f.launch != 0 && f.timeLeft == 0 && !f.stopped) with
  | none => .next s
  | some f =>
    let mine := s.allCls.filter (fun c => c.kind == .launch && c.form == form && c.status != .ended)
    let none_ : Cls :=
      { id := s.nextId, core := f.core, launch := f.launch, form := form, formno := f.formno, vmid := f.vmid,
        asid := ((s.launches.find? (fun l => l.no == f.launch)).map (fun l => l.asid)).getD 0 }
    let c := (sortBy (fun x y => decide (x.slot < y.slot)) mine).headD none_
    let stopped := s.forms.map (fun g => if g.id = form then { g with stopped := true } else g)
    let s' := ({ s.fresh with forms := stopped } : State).modLaunch f.launch (fun l => { l with orphan := true })
    .next (s.orWait (asyncOf c 0 [] { cause := .deadline, aux := f.ftime } s'))

/-! ### Enabling and disabling (R399, R417) -/

/-- EN is set: fetching may begin, at QCONS 0. -/
def enableQueue (v q : Nat) (s : State) : State :=
  if s.qEn v q then s
  else (s.setWord (.part v) 0x182 (BitVec.ofNat 64 (s.qctl v q ||| 1)) q).setWord (.part v) 0x183 0 q

/-- QUEUE_ENABLE. -/
def execQueueEnable (vmid queue : Nat) (s : State) : Out := .next (enableQueue vmid (queue % 64) s)

/-- EN is cleared; with ABORT the launches of the queue are drained at form boundaries and end with ORPHAN. -/
def disableQueue (v q : Nat) (abort : Bool) (s : State) : State :=
  let s := s.setWord (.part v) 0x182 (BitVec.ofNat 64 (setBits (s.qctl v q) 1 0 (b2n abort * 2))) q
  if abort then
    { s with launches := s.launches.map (fun l =>
        if l.vmid == v && !l.child && l.queue == q then { l with noPlace := true, orphan := true } else l) }
  else s

/-- QUEUE_DISABLE. -/
def execQueueDisable (vmid queue : Nat) (abort : Bool) (s : State) : Out := .next (disableQueue vmid (queue % 64) abort s)

end Sys2Proof.Machine
end

