-- ==== Sys2Proof/Machine/Budgets.lean ====
section
/-!
DEFINITION. A partition's budgets (20_partitions.md R420–R427): bandwidth buckets, energy windows and shares, virtual time, the
timer, and the period boundary of a rotation.
-/

namespace Sys2Proof.Machine

/-! ### Bandwidth (R422, R423) -/

/-- A RATE and a DEPTH as Table 20-1 allows them. -/
def rateOk (rate : Nat) : Bool := rate == 0 || decide (8 ≤ rate ∧ rate ≤ 2 ^ 24)
def depthOk (depth : Nat) : Bool := decide (1 ≤ depth ∧ depth ≤ 16)

/-- The buckets of a partition that have been set. -/
def State.bucketsOf (s : State) (v : Nat) : List Nat :=
  (s.words.filterMap (fun w => if w.1.bank = .part v ∧ (w.1.ix = 0x211 ∨ w.1.ix = 0x212) then some w.1.sub else none)).eraseDups

/-- A tenant's RATE is clamped to its partition's, where that is metered. -/
def State.clampRate (s : State) (v sub : Nat) : State :=
  let p := s.bwRate v partBucket
  if sub = partBucket ∨ p = 0 ∨ s.bwRate v sub ≤ p then s else s.setWord (.part v) 0x211 (BitVec.ofNat 64 p) sub

/-- Tokens never exceed RATE × DEPTH. -/
def State.clampTokens (s : State) (v sub : Nat) : State :=
  { s with tokens := s.tokens.map (fun t =>
      if t.1.2 = (v, sub) then (t.1, min t.2 (s.bwRate v sub * s.bwDepth v sub)) else t) }

/-- Set RATE and DEPTH of a bucket; a partition's RATE bounds its tenants'. -/
def setBandwidth (v sub rate depth : Nat) (s : State) : State :=
  let s := (s.setWord (.part v) 0x211 (BitVec.ofNat 64 rate) sub).setWord (.part v) 0x212 (BitVec.ofNat 64 depth) sub
  let subs := if sub = partBucket then s.bucketsOf v else [sub]
  subs.foldl (fun s b => (s.clampRate v b).clampTokens v b) s

/-- BANDWIDTH_SET: `none` is the partition bucket. -/
def execBandwidthSet (vmid : Nat) (asid : Option Nat) (rate depth : Nat) (s : State) : Out :=
  .next (if rateOk rate && depthOk depth then setBandwidth vmid (match asid with
    | none => partBucket
    | some a => a % partBucket) rate depth s else s)

/-- Refill one bucket at one controller. -/
def State.refillOne (s : State) (ctl v sub : Nat) : State :=
  let n := min (s.bwTokens ctl v sub + s.bwRate v sub) (s.bwRate v sub * s.bwDepth v sub)
  { s with tokens := assocSet s.tokens (ctl, v, sub) n }

/-! ### Energy (R424, R425, R414) -/

/-- Every form, those of saved contexts among them. -/
def State.everyForm (s : State) : List Form := s.forms ++ s.saved.flatMap (fun x => x.forms)

def State.mapForms (s : State) (f : Form → Form) : State :=
  { s with forms := s.forms.map f, saved := s.saved.map (fun x => { x with forms := x.forms.map f }) }

/-- A coefficient of the configuration certificate. -/
def State.coeffOf (s : State) (k : EnergyKind) : Nat := (assoc s.coeff k).getD 0

/-- The charges of the window, by form and partition: a core's pipes divided by the issue slots of its forms, and each form's memory
traffic. A fraction of a unit is dropped, and so is the activity of a core on which nothing issued (DESIGN CHOICE: log entry 41). -/
def State.charges (s : State) : List ((Nat × Nat) × Nat) :=
  let m := s.meter
  m.pipes.flatMap (fun p =>
      let mine := m.slots.filter (fun x => x.1.1 == p.1.1)
      let total := (mine.map (fun x => x.2)).sum
      mine.map (fun x => (x.1.2, p.2 * s.coeffOf p.1.2 * x.2 / total)))
    ++ (m.bytes.filter (fun b => b.1.1 != 0)).map (fun b => ((b.1.1, b.1.2.1), b.2 * s.coeffOf b.1.2.2))

/-- What a form, and what a partition, is charged. -/
def chargedTo (form : Nat) (l : List ((Nat × Nat) × Nat)) : Nat := ((l.filter (fun x => x.1.1 == form)).map (fun x => x.2)).sum
def chargedPart (v : Nat) (l : List ((Nat × Nat) × Nat)) : Nat := ((l.filter (fun x => x.1.2 == v)).map (fun x => x.2)).sum

/-- ENERGY of each form and PARTEN of each partition rise by what the window charges them. -/
def State.chargeAll (s : State) (l : List ((Nat × Nat) × Nat)) : State :=
  s.partitions.foldl (fun s v => s.setWord (.part v) 0x223 (s.word (.part v) 0x223 + BitVec.ofNat 64 (chargedPart v l)))
    (s.mapForms (fun f => { f with energy := (f.energy + chargedTo f.id l) % 2 ^ 64 }))

/-- The launch of a form lapses. -/
def State.lapseForm (s : State) (f : Form) : State :=
  match s.launches.find? (fun l => l.no == f.launch) with
  | none => s
  | some l => if l.lapsed then s else (s.lapse l).replan l.vmid

/-- The Bursar throttles a form whose ENERGY exceeds FENERGY (R414). -/
def throttleOver (s : State) : State :=
  let above (f : Form) : Bool := f.launch != 0 && decide (f.fenergy < f.energy)
  (s.everyForm.filter (fun f => above f && !f.throttled)).foldl (fun s f => s.lapseForm f)
    (s.mapForms (fun f => { f with throttled := f.throttled || above f }))

/-- Watts over 100 windows of 1 µs, in units of 2^-20 J times 10^4. -/
def overBudget (sum watts : Nat) : Bool := decide (watts * 2 ^ 20 < sum * 10000)

/-- The package cap (R425). -/
def checkCap (s : State) : State :=
  if !overBudget s.ePkg.sum (s.word .dev 0x220).toNat then s.mapForms (fun f => { f with capped := false })
  else
    let excess := (s.ePart.filter (fun p => overBudget p.2.sum (s.word (.part p.1) 0x221).toNat)).map (fun p => p.1)
    let hit (f : Form) : Bool := f.launch != 0 && (excess.isEmpty || excess.contains f.vmid)
    (s.everyForm.filter hit).foldl (fun s f => s.lapseForm f) (s.mapForms (fun f => { f with capped := f.capped || hit f }))

/-- ENERGY_WINDOW_END: at the end of a 1 µs window, named by its number, its activity is charged, with the package's energy measured in
that window, and overruns are throttled. Windows end in turn. -/
def execEnergyWindowEnd (window package : Nat) (s : State) : Out :=
  if s.time / 4000 ≤ s.eWindow ∨ window ≠ s.eWindow then .next s
  else
    let l := s.charges
    let parts := s.partitions.map (fun v => (v, (chargedPart v l :: (assoc s.ePart v).getD []).take 100))
    let s := s.chargeAll l
    let s : State := { s with eWindow := s.eWindow + 1, ePkg := (package :: s.ePkg).take 100, ePart := parts, meter := {} }
    .next (checkCap (throttleOver (s.setWord .dev 0x222 (s.word .dev 0x222 + BitVec.ofNat 64 package))))

/-- Watts of every partition together. -/
def State.shares (s : State) : Nat := (s.partitions.map (fun v => (s.word (.part v) 0x221).toNat)).sum

/-- A write of PCAP (`none`) or of a partition's ESHARE; a lowered share, or shares above the cap, test the plans again. -/
def setEnergyShare (v : Option Nat) (value : Nat) (s : State) : State :=
  match v with
  | none =>
    let s := s.setWord .dev 0x220 (BitVec.ofNat 64 (min value 3000))
    if (s.word .dev 0x220).toNat < s.shares then s.retestAll else s
  | some v =>
    let old := (s.word (.part v) 0x221).toNat
    let s := s.setWord (.part v) 0x221 (BitVec.ofNat 64 value)
    if (s.word .dev 0x220).toNat < s.shares then s.retestAll else if value < old then s.retest v else s

/-- ENERGY_SHARE_WRITE (R415, R425). -/
def execEnergyShareWrite (vmid : Option Nat) (value : Nat) (s : State) : Out := .next (setEnergyShare vmid value s)

/-! ### The period boundary of a rotation (R420) -/

/-- The words written before a boundary come into force, in order. -/
def adoptRotation (core boundary : Nat) (s : State) : State :=
  let due (p : (Nat × Nat) × DWord × Nat) : Bool := p.1.1 == core && decide (p.2.2 < boundary)
  let new := s.rotNext.filter due
  if new.isEmpty then s
  else
    let rest : State := { s with rotNext := s.rotNext.filter (fun p => !due p) }
    (new.foldl (fun (s : State) p =>
      if p.1.2 = 8 then s.setWord .dev 0x201 p.2.1 core else s.setWord .dev 0x203 p.2.1 (8 * core + p.1.2)) rest).retestAll

/-- ROTATION_PERIOD_BOUNDARY: a core's period has ended since its last boundary, and what was written in it or before takes effect; changed
shares test the plans again (R415). -/
def execRotationPeriodBoundary (core : Nat) (s : State) : Out :=
  let p := s.rotPer core * frameTicks
  let last := (assoc s.rotFrom core).getD 0
  if p = 0 ∨ s.time / p ≤ last / p then .next s
  else .next (adoptRotation core (s.time / p * p) { s with rotFrom := assocSet s.rotFrom core s.time })

/-! ### Virtual time (R426, R427) -/

/-- A write of VTOFF or VTSCALE: VTIME never decreases. -/
def setVtime (v : Nat) (scale : Bool) (value : DWord) (s : State) : State :=
  let now := s.vtime v
  let s := s.setWord (.part v) (if scale then 0x231 else 0x230) value
  if s.vtime v < now then
    s.setWord (.part v) 0x230 (BitVec.ofNat 64 now - BitVec.ofNat 64 ((s.word (.part v) 0x231).toNat * s.time / 2 ^ 32))
  else s

/-- VIRTUAL_TIME_ADJUST. -/
def execVirtualTimeAdjust (vmid : Nat) (scale : Bool) (value : BitVec 64) (s : State) : Out := .next (setVtime vmid scale value s)

/-- TIMER_EXPIRY: VTIME has reached TMRAT. -/
def execTimerExpiry (vmid : Nat) (s : State) : Out :=
  let t := s.word (.part vmid) 0x232
  if t = BitVec.allOnes 64 ∨ s.vtime vmid < t.toNat ∨ !s.hasPartition vmid then .next s
  else
    let r := (s.word (.part vmid) 0x233).toNat
    let s := s.setWord (.part vmid) 0x232 (BitVec.allOnes 64)
    .next (if r = 0 then s else { s with timers := s.timers ++ [(vmid, r)] })

end Sys2Proof.Machine
end

