-- ==== Sys2Proof/Machine/Context.lean ====
section
/-!
DEFINITION. Saved contexts (18_preemption.md R391–R396), CTX (16_privilege.md R348, R351), and the slice boundary of a core
(20_partitions.md R421).
-/

namespace Sys2Proof.Machine

/-! ### Operands (R351) -/

/-- The partition, and the core or, with bit 16, none: every core that the partition holds. -/
def State.ctxTarget (s : State) (a : DWord) : Option (Nat × Option Nat) :=
  let x := a.toNat
  let v := bits x 5 0
  let core := bits x 15 8
  if bits x 63 17 ≠ 0 ∨ bits x 7 6 ≠ 0 ∨ !s.hasPartition v then none
  else if bit x 16 then (if core = 0 then some (v, none) else none)
  else if s.coreEnabled core then some (v, some core) else none

/-- A half of the shadow bank, or an HBM address. -/
def ctxArea (b : DWord) : Option (Bool × Nat) :=
  let x := b.toNat
  if bit x 0 then (if x < 4 then some (true, bits x 1 1) else none)
  else if bits x 11 0 ≠ 0 ∨ Config.hbmBytes ≤ x then none
  else some (false, x)

/-- Forms of the house that a form belongs to. -/
def State.houseForms (s : State) (f : Form) : Nat :=
  ((s.launches.find? (fun l => l.no == f.launch)).map (fun l => lrForms l.shape)).getD 1

/-- The cores that move together with one: those of its houses' pair or quad. -/
def State.together (s : State) (fs : List Form) (core : Nat) : List Nat :=
  let n := ((fs.filter (fun f => f.core == core && f.launch != 0)).map s.houseForms).foldl max 1
  unitCores n (core / n * n)

/-- The cores that the partition holds: its φ there is not zero (R419). -/
def State.heldCores (s : State) (v : Nat) : List Nat := (List.range Config.cores).filter (fun c => s.phi c v != 0)

/-- The cores a SAVE acts on. -/
def State.saveCores (s : State) (v : Nat) (core : Option Nat) : List Nat :=
  ((match core with
    | none => s.heldCores v
    | some c => [c]).flatMap (fun c => s.together (s.formsOf v) c)).eraseDups

/-! ### Halting (R391–R393, Table 18-3) -/

/-- A memory instruction as it is saved: walks and requests in the fabric are to be issued again, an unsent returning atomic as an entry of
the log, which counts in SOC (R379); stores keep their order before newer ones (R129). -/
def Access.halt (a : Access) : Access :=
  let a := { a with halted := a.halted || a.op.counts }
  match a.stage with
  | .walking => { a with stage := .ready }
  | .fabric | .retry _ =>
    if a.op.translated then { a with stage := .ready, replayed := false, counts := a.counts || a.op.isAtomic }
    else { a with stage := .fabric }
  | .delivered _ _ | .ready | .stopped => a

/-- A split as it is saved: a fetch that waits for a walk starts again, and an OB.REL that waits for its turn is not issued. -/
def Split.halt (sp : Split) : Split :=
  { sp with state := if sp.state = .blocked .fetch then .ready else sp.state, queued := false }

def Cls.halt (c : Cls) : Cls := { c with mem := c.mem.map Access.halt, splits := c.splits.map Split.halt }

/-- An operation of an engine stops at its element; a peer's answer to come is discarded. -/
def EngineOp.halt (e : EngineOp) : EngineOp :=
  let e := { e with asked := none, got := none }
  match e.state with
  | .running | .walking => { e with state := .queued }
  | .queued | .stopped _ _ => e

/-- The partition's miss slots of a core are emptied (R363). -/
def emptySlots (core v : Nat) (l : List MissSlot) : List MissSlot :=
  (l.filter (fun m => !(m.core == core && m.vmid == v && !m.inRun))).map (fun m =>
    if m.core = core ∧ m.vmid = v then { m with stale := true, waiters := [], engine := none } else m)

/-- The slots in which a stopped operation of an engine waits are emptied likewise. -/
def emptyEngineSlots (ops : List Nat) (l : List MissSlot) : List MissSlot :=
  let hit (m : MissSlot) : Bool := match m.engine with
    | none => false
    | some o => ops.contains o
  (l.filter (fun m => !(hit m && !m.inRun))).map (fun m =>
    if hit m then { m with stale := true, waiters := [], engine := none } else m)

/-- The operations of a context that stand in the core's sequencer. -/
def State.seqOf (s : State) (core v : Nat) : List SeqOp :=
  let ids := (s.allCls.filter (fun c => c.inContext core v)).map (fun c => c.id)
  s.seq.filter (fun o => ids.contains o.cls)

/-- One move of each of a list of sequencer operations. -/
def driveSeq (core : Nat) (l : List SeqOp) (s : State) : State :=
  l.foldl (fun s o =>
    [execMatDrainRun, execMatLoopRun, execMatLoopComplete, execTwinRendezvous].foldl (fun s f =>
      match f core o.id s with
      | .next s' => s'
      | .fault _ | .refused _ => s) s) s

/-- A MAT.ZERO, MAT.STAT or MAT.DRAIN of a context is complete before the context is saved, and a loop ahead of one with it (Table 13-2,
DEDUCED: log entry 78). `fuel` bounds the moves. -/
def completeDrains (core v : Nat) : Nat → State → State
  | 0, s => s
  | n + 1, s =>
    let l := s.seqOf core v
    if l.all (fun o => o.loopDesc.isSome) then s else completeDrains core v n (driveSeq core l s)

/-- A LAUNCH of a context that is past its SOC wait reads its record, whatever it waits for, unless that raises an event (R201). -/
def completeLaunch (cid acc : Nat) (s : State) : State :=
  match s.getCls cid with
  | none => s
  | some c =>
    match c.mem.find? (fun a => a.id == acc) with
    | none => s
    | some a =>
      match a.lanes.head? with
      | none => s
      | some l =>
        let read (s : State) : State := match s.laneHold c a l with
          | .go | .retry => launchRead c a l s
          | .wait | .ecc _ | .race _ | .noMemory _ => s
        match a.stage with
        | .fabric | .retry _ => read s
        | .walking | .ready =>
          (match s.unitNum c.vmid c.asid l.ea.toNat 128 with
            | (.ok x, s) => launchPacket c a x s
            | (.error _, _) => s)
        | .delivered _ _ | .stopped => s

/-- Requests that have reached their monitor, LAUNCHes past their SOC wait, and drains are completed before the context is saved. -/
def completeSent (core v : Nat) (s : State) : State :=
  let mine (s : State) (i : Nat) : Bool := match s.getCls i with
    | none => false
    | some c => c.inContext core v
  let s := (s.creqs.filter (fun q => match q.cls with
    | none => false
    | some p => mine s p.1)).foldl (fun s q => performRequest q s) s
  let ls := (s.allCls.filter (fun c => c.inContext core v)).flatMap (fun c =>
    (c.mem.filter (fun a => a.op == .launch)).map (fun a => (c.id, a.id)))
  let steps := ((s.seqOf core v).map (fun o => ((o.loopDesc.map dCount).getD 0) + 4)).sum
  completeDrains core v steps (ls.foldl (fun s p => completeLaunch p.1 p.2 s) s)

/-- Loads, whose values return from outside the core. -/
def AccOp.fabricLoad : AccOp → Bool
  | .load _ | .loadScalar _ | .loadAcquire | .rlds _ _ | .cld _ _ _ => true
  | .store _ | .storeScalar _ | .storeRelease _ | .loadScratch _ | .storeScratch _ | .atomic _ | .mred _ _ | .mredF _ | .physLoad
  | .physStore | .tlk _ | .launch | .copy _ | .slotGet | .slotSwap _ _ => false

/-- Loads of a context that are out in the fabric (R392). -/
def State.outRequests (s : State) (core v : Nat) : List Ghost :=
  (s.allCls.filter (fun c => c.inContext core v)).flatMap (fun c =>
    (c.mem.filter (fun a => a.stage == .fabric && a.op.fabricLoad)).map (fun a => ⟨v, core, a.gen, c.id, a.id⟩))

/-- Halt a partition on a core and take its context off it. The context's generation rises. What is completed first is, although the slice
has ended. -/
def haltCore (v core : Nat) (s : State) : SavedCtx × State :=
  let s := (completeSent core v { s with holder := assocSet s.holder core v }).flushL1 (fun x => x.core == core && x.vmid == v)
  let gen := ((assoc s.ctxGen (v, core)).getD 0 + 1) % 16
  let cs := s.allCls.filter (fun c => c.inContext core v)
  let ids := cs.map (fun c => c.id)
  let es := s.engines.filter (fun e => ids.contains e.cls)
  let x : SavedCtx :=
    { core := core, vmid := v, place := 0, shadow := false, gen := gen, classes := cs.map Cls.halt,
      forms := s.forms.filter (fun f => f.core == core && f.vmid == v && (f.launch != 0 || ids.contains f.house)),
      hslots := s.hslots.filter (fun h => ids.contains h.cls), seq := s.seq.filter (fun o => ids.contains o.cls),
      engines := es.map EngineOp.halt,
      pending := s.pending.filter (fun p => p.core == core && p.level != 0 && p.ev.vmid == v) }
  let s : State := if ids.contains s.cls.id then s.focus 0 else s
  (x, { s with
    others := s.others.filter (fun c => !ids.contains c.id),
    forms := s.forms.filter (fun f => !x.forms.any (fun g => g.id == f.id)),
    hslots := s.hslots.filter (fun h => !ids.contains h.cls),
    seq := s.seq.filter (fun o => !ids.contains o.cls),
    engines := s.engines.filter (fun e => !ids.contains e.cls),
    pending := s.pending.filter (fun p => !x.pending.contains p),
    runners := s.runners.filter (fun r => !ids.contains r.cls),
    shoots := s.shoots.filter (fun w => !ids.contains w.cls),
    misses := emptyEngineSlots (es.map (fun e => e.id)) (emptySlots core v s.misses),
    tlb := s.tlb.filter (fun e => match e.home with
      | .lockable c i => !(c == core && ids.contains i)
      | .core _ | .quad _ => true),
    ctxGen := assocSet s.ctxGen (v, core) gen,
    ghosts := s.ghosts ++ s.outRequests core v,
    holder := if assoc s.holder core = some v then assocDel s.holder core else s.holder,
    resident := if assoc s.resident core = some v then assocDel s.resident core else s.resident })

/-- The context that the rotation has saved from a core, if any. -/
def State.rotSaved (s : State) (v core : Nat) : Option SavedCtx :=
  if s.savedP.contains (v, core) then none
  else s.saved.find? (fun x => x.vmid == v && x.core == core && !x.lost)

/-- A saved context's size (R394). -/
def SavedCtx.size (x : SavedCtx) : Nat :=
  16384 + (x.classes.map Cls.ctxSize).sum + ((x.forms.filter (fun f => f.launch != 0)).map Form.ctxSize).sum

/-- The size of a partition's context that a SAVE of a core would write. -/
def State.sizeOn (s : State) (v core : Nat) : Nat :=
  match s.rotSaved v core with
  | some x => x.size
  | none => s.ctxSize core v

/-! ### Where a context lies (R394, R395) -/

/-- The bytes of some sectors as they lie in DRAM, encrypted under the keys they were written with. -/
def State.dramBytes (s : State) (place n : Nat) : List Byte :=
  (sectorsOf (sector place) (cdiv n 32 * 32)).flatMap (fun a =>
    match s.l2find a with
    | none => xts false (s.key (s.keyAt a)) (a / 32 % 2 ^ 43) (s.mem.read a 32)
    | some x => xts false (s.key x.oldKey) (a / 32 % 2 ^ 43) x.old)

/-- The integrity tag of an image. -/
def State.integrityTag (s : State) (v place gen : Nat) (image : List Byte) : List Byte :=
  shake256 (toBytes 32 (Config.deviceSecret s.resetNo).toNat ++ toBytes 1 v ++ toBytes 8 place ++ toBytes 1 gen ++ image) 32

/-- The bytes of an image. -/
def imageBytes (seed n : Nat) : List Byte := (List.range n).map (fun i => Config.contextByte seed i)

/-- Save-area addresses that have a tag. -/
def State.savedAt (s : State) : List Nat := ((s.saved.filter (fun x => !x.shadow && !x.lost)).map (fun x => x.place)).eraseDups

/-- The half of a core's shadow bank holds another context. -/
def State.halfUsed (s : State) (v core half : Nat) : Bool :=
  s.saved.any (fun x => x.core == core && x.shadow && x.place == half && !x.lost && x.vmid != v)

/-- A SAVE to this place finds no room: BUSY. -/
def State.noRoom (s : State) (v : Nat) (cores : List Nat) (shadow : Bool) (place : Nat) : Bool :=
  if shadow then cores.any (fun c => decide (halfBank < s.sizeOn v c) || s.halfUsed v c place)
  else !s.savedAt.contains place && decide (4096 ≤ s.savedAt.length)

/-- Save one core's context, or move one that the rotation has saved. -/
def saveOne (v : Nat) (shadow : Bool) (place seed bytes tag core : Nat) (s : State) : State :=
  let at_ (x : SavedCtx) : SavedCtx := { x with shadow := shadow, place := place, seed := seed, bytes := bytes, tag := tag }
  match s.rotSaved v core with
  | some x => { s with saved := s.saved.map (fun y => if y = x then at_ x else y) }
  | none =>
    let r := haltCore v core s
    { r.2 with saved := at_ r.1 :: r.2.saved }

/-- The integrity tags of the contexts at a place are computed and kept (R395). -/
def State.sealSaved (s : State) (v place : Nat) : State :=
  { s with saved := s.saved.map (fun x =>
      if x.vmid = v ∧ !x.shadow ∧ !x.lost ∧ x.place = place then
        { x with mac := s.integrityTag v place x.gen (s.dramBytes place x.bytes) }
      else x) }

/-- Save a partition's contexts on cores to one place. An image in HBM is written under the partition's owner tag; a context
saved there before is lost. -/
def saveCtx (v : Nat) (cores : List Nat) (shadow : Bool) (place : Nat) (s : State) : State :=
  let bytes := (cores.map (fun c => s.sizeOn v c)).sum
  let seed := s.free
  let tag := s.ptag (some v)
  if shadow then cores.foldl (fun s c => saveOne v true place 0 0 0 c s) s
  else
    let s : State := { s.usedChoice with
      saved := s.saved.map (fun x => if !x.shadow && x.place == place && s.rotSaved v x.core != some x then { x with lost := true } else x) }
    ((cores.foldl (fun s c => saveOne v false place seed bytes tag c s) s).hwWrite tag place (imageBytes seed bytes)).sealSaved v place

/-- The image still is what the SAVE wrote: the tag over what lies in DRAM agrees. A REKEY leaves it as it lies (log entry 36). -/
def State.imageOk (s : State) (x : SavedCtx) : Bool :=
  x.shadow || (!x.altered && !s.poisoned x.place x.bytes
    && s.integrityTag x.vmid x.place x.gen (s.dramBytes x.place x.bytes) == x.mac)

/-! ### Restoring (R392, R396) -/

/-- A miss of a class's core on a page, as the walker serves it (R108, R370): an unowned private page becomes the core's; another owner's is
written back, shot down and marked shared. -/
def claimPage (c : Cls) (va : Nat) (s : State) : State :=
  match s.stage1 c.vmid c.asid va .r with
  | .error _ => s
  | .ok (e, size) =>
    if bit e 55 || bit e 6 && bits e 63 56 == c.core then s
    else if !bit e 6 then rewriteLeaf c.vmid c.asid va (fun e => setBits (setBits e 6 6 1) 63 56 c.core) s
    else rewriteLeaf c.vmid c.asid va (fun e => setBits e 55 55 1) (shoot (pagesTarget c.vmid (va / size * size) (size / 4096)) s)

/-- A class's locked pages are walked again. -/
def relock (c : Cls) (s : State) : State :=
  let s := c.locks.foldl (fun s l => match l with
    | none => s
    | some k => if k.stale then s else claimPage c k.page s) s
  let r := c.locks.foldl (fun (r : List (Option Lock) × List TlbEntry) l =>
    match l with
    | none => (r.1 ++ [none], r.2)
    | some k =>
      if k.stale then (r.1 ++ [some k], r.2)
      else
        match s.walk c.vmid c.asid k.page .r with
        | .error _ => (r.1 ++ [some { k with stale := true }], r.2)
        | .ok p =>
          let pa := p.pa + (k.page % p.size)
          let e : TlbEntry :=
            { home := .lockable c.core c.id, vmid := c.vmid, asid := c.asid, va := k.page, size := k.size,
              ga := p.ga + (k.page % p.size), pa := pa, attr := p.attr, key := p.key, xpart := p.xpart,
              sf := s.sealedAll pa k.size, sw := s.sealedAny pa k.size }
          if p.size < k.size ∨ p.peer then (r.1 ++ [some { k with stale := true }], r.2) else (r.1 ++ [some k], e :: r.2)) ([], [])
  { s.modCls c.id (fun c => { c with locks := r.1 }) with tlb := r.2 ++ s.tlb }

/-- A class on its new core, its requests under the new generation: what it has to replay comes before its next instruction (R396). -/
def Cls.restore (core gen : Nat) (c : Cls) : Cls :=
  { c with core := core, mem := c.mem.map (fun a => { a with gen := gen }), restoring := c.mem.any (fun a => a.stage == .ready) }

/-- An operation on its new core; a wait for a twin begins again. -/
def SeqOp.restore (core : Nat) (cs : List Cls) (o : SeqOp) : SeqOp :=
  let now := ((cs.find? (fun c => c.id == o.cls)).map (fun c => c.cycle)).getD 0
  match o.meet with
  | .waiting _ => { o with core := core, meet := .waiting now }
  | .none | .met _ | .solo => { o with core := core }

/-- A disposition that was recorded acts. -/
def actRecorded (p : Nat × Nat × Nat) (s : State) : State :=
  if p.1 = 0 then
    match s.engineOp p.2.1 with
    | none => s
    | some (e, c) =>
      if p.2.2 = 0 then resumeEngine e s else killEngine e c s
  else
    match s.getCls p.1 with
    | none => s
    | some c =>
      match c.mem.find? (fun a => a.id == p.2.1) with
      | none => s
      | some a => disposeAccess c a p.2.2 s

/-- Restore one core's context onto a core. WAITs on the words of its houses are evaluated again, on whichever core (R252, R266). -/
def loadOne (x : SavedCtx) (core : Nat) (s : State) : State :=
  let cs := x.classes.map (Cls.restore core x.gen)
  let moved (ev : Event) : Event := { ev with core := core }
  let s : State := { s with
    saved := s.saved.filter (fun y => y != x), others := s.others ++ cs,
    forms := s.forms ++ x.forms.map (fun f => { f with core := core }),
    hslots := s.hslots ++ x.hslots.map (fun h => { h with core := core, ev := moved h.ev }),
    seq := s.seq ++ x.seq.map (SeqOp.restore core cs),
    engines := s.engines ++ x.engines.map (fun e => { e with core := core, engine := core / 4 }),
    pending := s.pending ++ x.pending.map (fun p => { p with core := core, ev := moved p.ev }),
    ctxGen := assocSet s.ctxGen (x.vmid, core) x.gen,
    ghosts := s.ghosts.map (fun g => if g.vmid = x.vmid ∧ g.core = x.core then { g with core := core } else g),
    resident := assocSet s.resident core x.vmid,
    savedP := s.savedP.filter (fun p => p != (x.vmid, x.core) && p != (x.vmid, core)) }
  let s := cs.foldl (fun s c => relock c s) (s.acquireL1 core)
  let houses := s.forms.filter (fun f => x.forms.any (fun g => g.launch == f.launch && g.house == f.house))
  let s := houses.foldl (fun s f => s.wakeWaits f.id 0 f.size) s
  let s := x.recorded.foldl (fun s p => actRecorded p s) s
  let s := x.disposed.foldl (fun s p => dispose (moved p.1) p.2 s) s
  let s := x.ends.foldl (fun s i => endClass i s) s
  match s.sliceNow core with
  | some sl => if sl.vmid = x.vmid then { s with holder := assocSet s.holder core x.vmid } else s
  | none => s

/-- The contexts a LOAD names, each with its target core: saved together, they keep the shape of a pair or a quad. None: the
targets do not have that shape. -/
def targets (xs : List SavedCtx) (core : Option Nat) : Option (List (SavedCtx × Nat)) :=
  let own := xs.map (fun x => (x, x.core))
  match core with
  | none => some own
  | some c =>
    let n := xs.length
    let base := (xs.map (fun x => x.core)).foldl min 255
    if n = 1 then some (xs.map (fun x => (x, c)))
    else if (n = 2 ∨ n = 4) ∧ base % n = 0 ∧ xs.all (fun x => decide (x.core < base + n)) then
      some (xs.map (fun x => (x, c / n * n + (x.core - base))))
    else if xs.any (fun x => x.core == c) then some own
    else none

/-- A request under the context's generation is still out: the restore waits for it (R392). -/
def State.ghostOf (s : State) (x : SavedCtx) : Bool := s.ghosts.any (fun g => g.vmid == x.vmid && g.core == x.core && g.gen == x.gen)

/-- The core cannot take the partition's context: BUSY. -/
def State.cannotTake (s : State) (x : SavedCtx) (core : Nat) : Bool :=
  !s.coreUp core || (assoc s.resident core).isSome
    || s.allCls.any (fun c => c.core == core && c.level != 0 && c.vmid < 64 && c.kind != .bursar && c.status != .ended)
    || s.saved.any (fun y => y.core == core && y.vmid == x.vmid && !y.lost && y != x && !s.savedP.contains (y.vmid, y.core))

/-- The contexts of a partition that stand at a place. In a shadow bank: that half of the named core's bank, and of the cores
that move with it. -/
def State.ctxAt (s : State) (v : Nat) (core : Option Nat) (shadow : Bool) (place : Nat) : List SavedCtx :=
  let l := s.saved.filter (fun x => x.vmid == v && x.shadow == shadow && x.place == place && !x.lost)
  match core with
  | none => l
  | some c => if shadow then l.filter (fun x => (s.together (s.formsOf v) c).contains x.core) else l

/-! ### CTX (R351) -/

/-- Privilege, operands, then the function; its status is written to rd. -/
def ctxBody (rd : Reg) (f : State → DWord × State) (s : State) : State :=
  if s.cls.level ≠ 0 then raise { cause := .priv } s
  else
    let iss := s.iss
    let id := s.cls.id
    let r := f s
    retire ({ r.2.focus id with iss := iss }.setS rd r.1)

def ctxOp (i : Instr) (rd : Reg) (f : State → DWord × State) (s : State) : State := guarded i (ctxBody rd f) s

/-- CTX.SAVE. -/
def ctxSave (a b : DWord) (s : State) : DWord × State :=
  match s.ctxTarget a, ctxArea b with
  | some (v, core), some (shadow, place) =>
    let cores := s.saveCores v core
    let bytes := (cores.map (fun c => s.sizeOn v c)).sum
    if !shadow && decide (Config.hbmBytes < place + bytes) then (statusBadarg, s)
    else if s.noRoom v cores shadow place then (statusBusy, s)
    else
      let s := saveCtx v cores shadow place s
      (statusDone, { s with savedP := (cores.map (fun c => (v, c))).filter (fun p => !s.savedP.contains p) ++ s.savedP })
  | _, _ => (statusBadarg, s)

def execCtxSave (rd ra rb : Reg) (s : State) : Out :=
  .next (ctxOp (.ctxSave rd ra rb) rd (fun s => ctxSave (s.getS ra) (s.getS rb) s) s)

/-- A LOAD with these operands waits (R392). -/
def State.loadWaits (s : State) (a b : DWord) : Bool :=
  match s.ctxTarget a, ctxArea b with
  | some (v, core), some (shadow, place) => (s.ctxAt v core shadow place).any (fun x => s.ghostOf x)
  | _, _ => false

/-- CTX.LOAD. -/
def ctxLoad (a b : DWord) (s : State) : DWord × State :=
  match s.ctxTarget a, ctxArea b with
  | some (v, core), some (shadow, place) =>
    let xs := s.ctxAt v core shadow place
    if xs.isEmpty || !xs.all s.imageOk then (statusBadarg, s)
    else
      match targets xs core with
      | none => (statusBusy, s)
      | some ts =>
        if ts.any (fun t => s.cannotTake t.1 t.2) then (statusBusy, s)
        else (statusDone, ts.foldl (fun s t => loadOne t.1 t.2 s) s)
  | _, _ => (statusBadarg, s)

def execCtxLoad (rd ra rb : Reg) (s : State) : Out :=
  .next (guarded (.ctxLoad rd ra rb) (fun s =>
    if s.cls.level = 0 ∧ s.loadWaits (s.getS ra) (s.getS rb) then hold s
    else ctxBody rd (fun s => ctxLoad (s.getS ra) (s.getS rb) s) s) s)

/-- The pairs that PARK and RESUME name. -/
def State.parkPairs (s : State) (v : Nat) (core : Option Nat) : List (Nat × Nat) :=
  (match core with
    | none => s.heldCores v
    | some c => [c]).map (fun c => (v, c))

/-- CTX.PARK and CTX.RESUME. -/
def ctxPark (park : Bool) (a : DWord) (s : State) : DWord × State :=
  match s.ctxTarget a with
  | none => (statusBadarg, s)
  | some (v, core) =>
    let ps := s.parkPairs v core
    let rest := s.parkedP.filter (fun p => !ps.contains p)
    (statusDone, { s with parkedP := if park then ps ++ rest else rest })

def execCtxPark (rd ra : Reg) (s : State) : Out :=
  .next (ctxOp (.ctxPark rd ra) rd (fun s => ctxPark true (s.getS ra) s) s)

def execCtxResume (rd ra : Reg) (s : State) : Out :=
  .next (ctxOp (.ctxResume rd ra) rd (fun s => ctxPark false (s.getS ra) s) s)

/-! ### The slice boundary (R421) -/

/-- Where the rotation keeps a partition's context of a core: a half of the shadow bank, or its place in the spill area. -/
def State.rotPlace (s : State) (v core : Nat) : Option (Bool × Nat) :=
  let vs := sliceVmids (s.slices core)
  if vs.length ≤ 2 then
    let half := vs.findIdx (fun x => x == v)
    if half < 2 ∧ !s.halfUsed v core half then some (true, half)
    else ((List.range 2).find? (fun h => !s.halfUsed v core h)).map (fun h => (true, h))
  else
    let base := (s.word .dev 0x205 core).toNat
    let e := ((List.range 8).find? (fun e => (sliceOf (s.rotEnt core e)).any (fun x => x.vmid == v))).getD 7
    if base = 0 then none else some (false, base + 8 * 2 ^ 20 * e)

/-- The rotation saves a partition from a core, if it has a place for it. -/
def rotSave (v core : Nat) (s : State) : State :=
  match s.rotPlace v core with
  | none => s
  | some (shadow, place) => if s.noRoom v [core] shadow place then s else saveCtx v [core] shadow place s

/-- The incoming partition takes the core. -/
def rotEnter (v core : Nat) (s : State) : State :=
  match s.rotSaved v core with
  | some x => if s.imageOk x && !s.ghostOf x then loadOne x core s else s
  | none => { s with resident := assocSet s.resident core v, holder := assocSet s.holder core v }

/-- One core at its boundary. -/
def sliceCore (core : Nat) (s : State) : State :=
  let idle : State := { s with holder := assocDel s.holder core, runners := s.runners.filter (fun r => r.core != core) }
  match s.sliceNow core with
  | none => idle
  | some sl =>
    if s.savedP.contains (sl.vmid, core) ∨ !s.hasPartition sl.vmid ∨ !s.coreUp core then idle
    else
      match assoc s.resident core with
      | none => rotEnter sl.vmid core idle
      | some w =>
        if w = sl.vmid then { s with holder := assocSet s.holder core w }
        else
          let s := rotSave w core idle
          if (assoc s.resident core).isSome then s else rotEnter sl.vmid core s

/-- SLICE_BOUNDARY: a core whose present slice is not its holder's saves the outgoing partition and loads the incoming one; the
cores that move together with it follow. -/
def execSliceBoundary (core : Nat) (s : State) : Out :=
  let want := (s.sliceNow core).map (fun x => x.vmid)
  if s.phase ≠ .running ∨ !s.coreEnabled core ∨ assoc s.holder core = want then .next s
  else
    let with_ := match assoc s.resident core with
      | none => [core]
      | some w => s.together (s.formsOf w) core
    .next (with_.foldl (fun s c => sliceCore c s) (s.focus 0))

end Sys2Proof.Machine
end

