-- ==== Sys2Proof/Machine/Control.lean ====
section
/-!
DEFINITION. Control, splits, the bracket, the window, exchange across the class, special registers, traps and mask
operations (10_isa_control.md R202–R222; R30–R36).
-/

namespace Sys2Proof.Machine

/-! ### Doing nothing, and ending -/

/-- NOP (R202). -/
def execNop (s : State) : Out := .next (retire s)

/-- The numbers of free split-table entries, ascending. -/
def Cls.freeEntries (c : Cls) : List Nat := (List.range 16).filter (fun i => (c.split i).state = .free)

/-- The split that goes on for split i after an arrival: itself, or the innermost of its ancestors that has not been freed. -/
def survivor (before after : Cls) : Nat → Nat → Nat
  | 0, i => i
  | fuel + 1, i => if (after.split i).state = .free then survivor before after fuel (before.split i).parent else i

/-- A JOIN or END that leaves the class running completes (R32, R33): its windows pass, and under single-stepping it raises BREAK on the
split that goes on for it. -/
def arrived (m : Mask) (s : State) : State :=
  let before := s.cls.modSplit s.iss.split (fun sp => { sp with pend := s.cls.passPend sp.pend })
  let c := arrive arriveFuel s.iss.split m before
  let on := survivor before c 16 s.iss.split
  State.stepped { s with cls := c, iss := { s.iss with split := on } } (c.split on).pc

/-- END (R203, R33): the split's active lanes finish and it arrives with no lane; the class ends when no split has an active
lane. A handler ends only with its store buffer drained, since its disposal waits for that (R344). -/
def execEndClass (s : State) : Out :=
  if s.cls.bracket.isSome then .next (raise { cause := .illstate } s)
  else
    let c := arrive arriveFuel s.iss.split 0 s.cls
    if (c.split 0).state ≠ .free then .next (arrived 0 s)
    else if s.cls.kind == .handler && s.cls.soc != 0 then .next (hold s)
    else .next (endClass s.cls.id { s with cls := c })

/-- KEND (R204, R44). -/
def execKend (s : State) : Out := .next (raise { cause := .kendx } s)

/-! ### Uniform transfers -/

/-- A branch target: the address of the branch word and a signed count of words, exactly (R182). -/
def State.target {n : Nat} (s : State) (off : BitVec n) : Int := s.lastWord + 4 * off.toInt

/-- BRA (R205). -/
def execBra (off : BitVec 25) (s : State) : Out := .next (branchTo (s.target off) s)

/-- CALL (R205): s127 receives the return address. -/
def execCall (off : BitVec 25) (s : State) : Out := .next (branchTo (s.target off) (s.setS 127 (pcWord s.next)))

/-- RET (R206). -/
def execRet (s : State) : Out :=
  .next (guarded .ret (fun s =>
    let a := s.getS 127
    if a.extractLsb' 57 7 ≠ 0 ∨ a.extractLsb' 0 2 ≠ 0 then raise { cause := .fetchb, addr := a.toNat } s
    else branchTo a.toNat s) s)

/-- SWITCH (R207): the index is that of the lowest active lane; a table number at or above NJT raises ILLOP at decode step
6 (`valuesOk`), an index beyond the table at the instruction. -/
def execSwitch (ra : Reg) (table : BitVec 11) (s : State) : Out :=
  .next (guarded (.switch ra table) (fun s =>
    let tab := ((s.images.find? (fun im => im.handle == s.cls.image && im.vmid == s.cls.vmid)).map (fun im => im.tables.getD table.toNat [])).getD []
    let j := ((lowestLane s.cls.lanes s.act).map (fun i => (s.getV ra i).toNat)).getD 0
    match tab[j]? with
    | none => raise { cause := .illop } s
    | some t => branchTo (s.cls.code + 4 * t : Nat) s) s)

/-- BU (R208). -/
def buTaken (c : BuCond) (k act : Mask) : Bool :=
  match c with
  | .any => k &&& act != 0
  | .all => k &&& act == act
  | .none => k &&& act == 0
  | .nall => k &&& act != act

def execBu (k : Reg3) (c : BuCond) (off : BitVec 19) (s : State) : Out :=
  .next (guarded (.bu k c off) (fun s =>
    branchTo (if buTaken c (s.getK k) s.act then s.target off else s.next) s) s)

/-- BZ, BNZ (R209): all 64 bits are tested. -/
def execBz (ra : Reg) (off : BitVec 18) (s : State) : Out :=
  .next (guarded (.bz ra off) (fun s => branchTo (if s.getS ra = 0 then s.target off else s.next) s) s)

def execBnz (ra : Reg) (off : BitVec 18) (s : State) : Out :=
  .next (guarded (.bnz ra off) (fun s => branchTo (if s.getS ra ≠ 0 then s.target off else s.next) s) s)

/-! ### Splitting and joining -/

/-- BSPL opens two children when both sides have lanes and two entries are free, and a level record otherwise (R31, R210). The
children and the side that runs carry the parent's outstanding instructions with their windows closed (R39). -/
def openSplit (join tgt next : Int) (taken other : Mask) (s : State) : State :=
  let sp := s.cur
  let pend := closed (s.cls.passPend sp.pend)
  match s.cls.freeEntries with
  | a :: b :: _ =>
    if taken ≠ 0 ∧ other ≠ 0 then
      let child (pc : Int) (m : Mask) : Split :=
        { state := .ready, pc := pc, mask := m, parent := s.iss.split, levels := .child join :: sp.levels, pend := pend }
      let c := s.cls.modSplit s.iss.split (fun sp => { sp with state := .joinParent join, age := 0, pend := [] })
      let c := (c.setSplit a (child tgt taken)).setSplit b (child next other)
      State.stepped { s with cls := c, iss := { s.iss with split := b } } next
    else record sp pend
  | _ => record sp pend
where
  /-- Item 2 of R31. -/
  record (sp : Split) (pend : List Pend) : State :=
    let first := if taken ≠ 0 then (tgt, taken) else (next, other)
    let later := if taken ≠ 0 then (next, other) else (tgt, taken)
    let sp := { sp with pc := first.1, mask := first.2, levels := .deferred join later.1 later.2 0 :: sp.levels, age := 0,
                        pend := pend }
    State.stepped { s with cls := s.cls.setSplit s.iss.split sp } first.1

/-- BSPL (R210). -/
def execBspl (joinOff : BitVec 25) (k : Reg3) (inv : Bool) (off : BitVec 19) (s : State) : Out :=
  .next (guarded (.bspl joinOff k inv off) (fun s =>
    let sel := if inv then ~~~ (s.getK k) else s.getK k
    if s.depth = 15 then raise { cause := .illstate } s
    else openSplit (s.target joinOff) (s.target off) s.next (s.act &&& sel) (s.act &&& ~~~ sel) s) s)

/-- The address the innermost open level joins at. -/
def Split.joinAt (sp : Split) : Option Int :=
  match sp.levels with
  | [] => none
  | .child j :: _ => some j
  | .deferred j _ _ _ :: _ => some j

/-- JOIN (R32, R211). -/
def execJoin (s : State) : Out :=
  if s.cur.joinAt ≠ some s.iss.pc then .next (raise { cause := .illstate } s)
  else .next (arrived s.act s)

/-! ### The bracket and the window -/

/-- ALLB (R36, R212). -/
def execAllb (s : State) : Out :=
  if s.depth ≠ 0 ∨ s.cls.bracket.isSome then .next (raise { cause := .illstate } s)
  else
    let s' := { s with cls := { s.cls with bracket := some s.act } }
    .next (retire (s'.modCur (fun sp => { sp with mask := s.cls.liveM })))

/-- ALLE (R36, R212). -/
def execAlle (s : State) : Out :=
  match s.cls.bracket with
  | none => .next (raise { cause := .illstate } s)
  | some m =>
    if s.depth ≠ 0 then .next (raise { cause := .illstate } s)
    else
      let s' := { s with cls := { s.cls with bracket := none } }
      .next (retire (s'.modCur (fun sp => { sp with mask := m })))

/-- WBASE (R49, R213): the value check is decode step 6, before the depth check. -/
def execWbase (n : BitVec 9) (s : State) : Out :=
  if n.toNat % 16 ≠ 0 ∨ s.cls.nregs - 128 < n.toNat then .next (raise { cause := .illop } s)
  else if s.depth ≠ 0 then .next (raise { cause := .illstate } s)
  else .next (retire { s with cls := { s.cls with wb := n.toNat } })

/-! ### Exchange across the class -/

/-- VOTE (R214). -/
def voteValue (s : State) (fn : VoteFn) (ra : Reg) : DWord :=
  let live := s.cls.liveM
  let m := s.getK (k3 ra) &&& live
  match fn with
  | .any => if m ≠ 0 then 1 else 0
  | .all => if m = live then 1 else 0
  | .cnt => BitVec.ofNat 64 (laneCount s.cls.lanes m)
  | .eq => if (List.range s.cls.lanes).all (fun i => s.getV ra i == s.getV ra 0) then 1 else 0

def execVote (fn : VoteFn) (rd ra : Reg) (s : State) : Out :=
  .next (guarded (.vote fn rd ra) (classWide (fun s => retire (s.setS rd (voteValue s fn ra)))) s)

/-- The source index of SHFL, relative to the group of n lanes in which lane position j lies (R215). -/
def shflSrc (op : ShflOp) (j : Nat) (b : Word) : Int :=
  match op with
  | .idx => b.toNat
  | .up => (j : Int) - b.toNat
  | .down => (j : Int) + b.toNat
  | .xor => (j ^^^ b.toNat : Nat)

/-- SHFL's value for lane i: out of range it keeps its own (R215). -/
def shflLane (s : State) (op : ShflOp) (all : Bool) (ra : Reg) (i : Nat) (b : Word) : Word :=
  let lo := if all then 0 else 32 * (i / 32)
  let n := if all then s.cls.lanes else 32
  let src := shflSrc op (i - lo) b
  if 0 ≤ src ∧ src < n then s.getV ra (lo + src.toNat) else s.getV ra i

def execShfl (p : Pfx) (op : ShflOp) (all : Bool) (rd ra rb : Reg) (s : State) : Out :=
  .next (guarded (.shfl p op all rd ra rb) (classWide (fun s =>
    retire (s.setV rd s.cls.liveM (fun i => shflLane s op all ra i (s.laneB (Pfxp.rbsOf p) rb i))))) s)

/-! ### Special registers and traps -/

/-- The form of a class. -/
def State.formOf (s : State) (c : Cls) : Option Form := s.forms.find? (fun f => f.id == c.form)

/-- The core number and die as CORE and DIE read them; the Bursar has no core and reads 0. -/
def Cls.coreNo (c : Cls) : Nat := c.core % 256

/-- CSTAT as read: the sticky flags and BRKT (Table 3-5). -/
def Cls.cstatWord (c : Cls) : Word := (c.cstat &&& 0x7F) ||| (if c.bracket.isSome then 0x100 else 0)

/-- The special registers (Table 3-3); none for an index not listed. -/
def special (s : State) (ix : Nat) : Option DWord :=
  let c := s.cls
  let n (x : Nat) : Option DWord := some (BitVec.ofNat 64 x)
  match ix with
  | 0x001 => n c.lanes
  | 0x002 => n c.classno
  | 0x003 => n c.formno
  | 0x004 => n c.houseno
  | 0x005 => n c.forminh
  | 0x006 => n c.coreNo
  | 0x007 => n (c.coreNo / 64)
  | 0x008 => n c.wb
  | 0x009 => n s.depth
  | 0x00A => some (c.cstatWord.setWidth 64)
  | 0x00B => n (min c.soc 0xFFFF)
  | 0x00C => n (s.vtime c.vmid)
  | 0x00D => n c.cycle
  | 0x00E => n c.lrec
  | 0x010 => n c.twin
  | 0x011 => n ((s.formOf c).map (·.energy) |>.getD 0)
  | 0x012 => n ((s.formOf c).map (·.timeLeft) |>.getD 0)
  | _ => none

/-- A matrix operation of the class may still deliver flags (R62, R89). -/
def State.flagsDue (s : State) : Bool := s.seq.any (fun o => o.cls == s.cls.id)

/-- SRD (R60, R216): CSTAT is read after every earlier instruction has delivered its flags. -/
def execSrd (rd : Reg) (ix : BitVec 11) (s : State) : Out :=
  match special s ix.toNat with
  | none => .next (raise { cause := .illop } s)
  | some x => if ix = 0x00A ∧ s.flagsDue then .next (hold s) else .next (retire (s.setS rd x))

/-- SWR writes CSTAT only (`valuesOk`), and clears each flag whose bit is 1 (R62, R216). -/
def execSwr (ra : Reg) (ix : BitVec 11) (s : State) : Out :=
  .next (guarded (.swr ra ix) (fun s =>
    if s.flagsDue then hold s
    else retire { s with cls := { s.cls with cstat := s.cls.cstat &&& ~~~ ((s.getS ra).setWidth 32) } }) s)

/-- TRAP (R217): the saved program counter is `next`. -/
def execTrap (code : BitVec 11) (s : State) : Out := .next (raiseAfter { cause := .trapi, aux := code.toNat } s)

/-- BRK (R218): the saved program counter is the BRK itself. -/
def execBrk (code : BitVec 11) (s : State) : Out := .next (raise { cause := .breakp, aux := code.toNat } s)

/-! ### Mask operations -/

/-- All ones when there is no lane (R222). -/
def laneOrOnes : Option Nat → DWord
  | none => BitVec.allOnes 64
  | some i => BitVec.ofNat 64 i

/-- KOP (R222). -/
def kopBody (p : Pfx) (fn : KopFn) (rd ra rb : Reg) (s : State) : State :=
  let eff := s.eff p
  let a := s.getK (k3 ra)
  let b := s.getK (k3 rb)
  let lanes := s.cls.lanes
  match fn with
  | .and => retire (s.setK (k3 rd) eff (a &&& b))
  | .or => retire (s.setK (k3 rd) eff (a ||| b))
  | .xor => retire (s.setK (k3 rd) eff (a ^^^ b))
  | .andn => retire (s.setK (k3 rd) eff (a &&& ~~~b))
  | .not => retire (s.setK (k3 rd) eff (~~~a))
  | .mov => retire (s.setK (k3 rd) eff a)
  | .pop => retire (s.setS rd (BitVec.ofNat 64 (laneCount lanes (a &&& eff))))
  | .first => retire (s.setS rd (laneOrOnes (lanesOf lanes (a &&& eff)).head?))
  | .last => retire (s.setS rd (laneOrOnes (lanesOf lanes (a &&& eff)).getLast?))
  | .fromv => retire (s.setK (k3 rd) eff (maskOf lanes (fun i => s.getV ra i != 0)))
  | .tov => retire (s.setV rd eff (fun i => if a.getLsbD i then 1 else 0))
  | .clear => retire (s.setK (k3 rd) eff 0)
  | .fill => retire (s.setK (k3 rd) eff eff)

def execKop (p : Pfx) (fn : KopFn) (rd ra rb : Reg) (s : State) : Out :=
  .next (guarded (.kop p fn rd ra rb) (kopBody p fn rd ra rb) s)

end Sys2Proof.Machine
end

