-- ==== Sys2Proof/Machine/Handlers.lean ====
section
/-!
DEFINITION. Handlers (16_privilege.md R339–R345): the event record, entering a handler, its time limit, TRET.
-/

namespace Sys2Proof.Machine

/-! ### The event record (R339, R340, Table 16-5) -/

/-- Fields of a record for level 0 about a lower level are withheld in confidential mode. -/
def State.redacts (s : State) (ev : Event) (level : Nat) : Bool := s.confidential && level == 0 && ev.from_ != 0

/-- The 512-bit record. -/
def eventRecord (ev : Event) (redact : Bool) : Nat :=
  let keep (x : Nat) : Nat := if redact then 0 else x
  let insn (i : Nat) : Nat := keep ((ev.words.getD i 0).toNat)
  let addr := if !redact then ev.addr.toNat else if ev.stage2 then ev.addr.toNat / 4096 * 4096 else 0
  ev.cause.code + (ev.from_ % 4) * 2 ^ 8 + b2n ev.nested * 2 ^ 16 + b2n ev.async * 2 ^ 17 + b2n ev.nohandler * 2 ^ 18
    + b2n ev.write * 2 ^ 19 + b2n ev.stage2 * 2 ^ 20 + b2n redact * 2 ^ 21 + keep (ev.form % 2 ^ 32) * 2 ^ 32
    + keep ev.aux.toNat * 2 ^ 64 + keep (ev.lane % 2 ^ 15) * 2 ^ 128 + keep (ev.depth % 16) * 2 ^ 143
    + keep (ev.cslot % 32) * 2 ^ 147 + (ev.core % 256) * 2 ^ 152 + keep (if ev.hasSplit then ev.split % 16 else 0) * 2 ^ 160
    + (ev.vmid % 64) * 2 ^ 164 + (ev.asid % 2 ^ 16) * 2 ^ 176 + keep ev.epc.toNat * 2 ^ 192
    + keep (summary ev.mask).toNat * 2 ^ 256 + insn 0 * 2 ^ 288 + insn 1 * 2 ^ 320 + insn 2 * 2 ^ 352
    + ev.time.toNat * 2 ^ 384 + addr * 2 ^ 448

/-- Record, mask and the reply with DISP 2: 200 bytes. -/
def recordBytes (ev : Event) (redact : Bool) : List Byte :=
  toBytes 64 (eventRecord ev redact) ++ toBytes 128 (if redact then 0 else ev.mask.toNat) ++ toBytes 8 2

/-! ### The bank (R341, R353) -/

/-- The bank of a level for an event. -/
def hBank (level : Nat) (ev : Event) : Bank := bankOf level ev.vmid ev.asid

/-- The ASID of a handler. -/
def State.hAsid (s : State) (level : Nat) (ev : Event) : Nat :=
  if level = 0 then 0
  else if level = 1 then (assoc s.himgAsid ev.vmid).getD ((s.word (.part ev.vmid) 0x101).toNat % 2 ^ 16)
  else ev.asid

/-- The image meets R341 for a level. -/
def handlerImage (im : Image) (level entry : Nat) : Bool :=
  let h := im.header.toNat
  im.lvl == level && bits h 330 320 == 32 && decide (bits h 340 331 ≤ 128) && bits h 370 350 == 256 && bits h 344 341 == 0
    && bits h 349 345 == 0 && bits h 421 400 == 0 && !bit h 56 && im.entry == entry

/-- What a usable bank's handler runs: registers, and its image above level 0. -/
structure Usable where
  nregs : Nat
  image : Option Image
  deriving DecidableEq, Repr

/-- The handler that a bank names, when it is usable. -/
def State.usable (s : State) (level : Nat) (ev : Event) : Option Usable :=
  let b := hBank level ev
  let entry := (s.word b 0x011).toNat
  if level = 0 then
    if entry < Config.memLimit ∧ s.sealed entry then some ⟨128, none⟩ else none
  else
    match s.images.find? (fun im => im.handle == s.word b 0x010 && im.vmid == ev.vmid && !im.closing) with
    | none => none
    | some im => if handlerImage im level entry then some ⟨bits im.header.toNat 340 331, some im⟩ else none

/-- Write the record under the bank's translation, outside the race-record area (R134); with it, where reply word 0 lies. -/
def State.writeRecord (s : State) (level : Nat) (ev : Event) (at_ : Nat) : Option Place × State :=
  let bs := recordBytes ev (s.redacts ev level)
  if level = 0 then
    if Config.memLimit < at_ + 256 ∨ s.inRecords at_ 200 then (none, s)
    else (some { pa := at_ + 192, key := s.pkey }, s.hwWrite s.pkey at_ bs)
  else
    let asid := s.hAsid level ev
    match s.unitWrite ev.vmid asid at_ bs with
    | (some _, s) => (none, s)
    | (none, s) =>
      match s.unitAddr ev.vmid asid (at_ + 192) .w with
      | .error _ => (none, s)
      | .ok p => (some p, s)

/-- Entries 2 to 63 of the table at HRTAB, under the bank's translation. -/
def State.readTable (s : State) (level : Nat) (ev : Event) : Option (List DWord) × State :=
  let a := (s.word (hBank level ev) 0x013).toNat + 64
  if level = 0 then
    if Config.memLimit < a + 1984 ∨ s.inRecords a 1984 then (none, s) else (some (bytesToWords 248 (s.hwRead s.pkey a 1984)), s)
  else
    match s.unitRead ev.vmid (s.hAsid level ev) a 1984 with
    | (.error _, s) => (none, s)
    | (.ok bs, s) => (some (bytesToWords 248 bs), s)

/-- Entries 0 and 1: the buffer, and the reply. -/
def bufferEntries (buf : Nat) : List DWord :=
  [BitVec.ofNat 64 buf, 24, 0x305, 0, BitVec.ofNat 64 (buf + 192), 8, 0x30D, 0]

/-! ### Entry (R342, R343) -/

/-- An event goes to the next level down, and below level 0 the core stops. -/
def escalate (core level : Nat) (ev : Event) (s : State) : State :=
  if level = 0 then s.stopCore core ev.cause.code (if ev.from_ = 0 then none else some ev.vmid)
  else { s with pending := s.pending ++ [⟨core, level - 1, ev⟩] }

/-- Create the handler class of an event. -/
def startHandler (core level buf : Nat) (reply : Place) (ev : Event) (u : Usable) (table : List DWord) (s : State) : State :=
  let id := s.nextId
  let form : Form := { id := id + 1, house := id, core := core, vmid := ev.vmid, size := 256 }
  let tabAt := s.copyPlace
  let s := s.usedChoice
  let root : Split := { state := .ready, pc := (s.word (hBank level ev) 0x011).toNat / 4 * 4, mask := liveMask 32 }
  let c : Cls :=
    { id := id, kind := .handler, core := core, slot := 0x1F, level := level, vmid := if level = 0 then 0 else ev.vmid,
      asid := s.hAsid level ev, form := form.id, nregs := u.nregs, tag := s.newTag.getD 0,
      segb := (u.image.map (fun im => im.segb)).getD 0, code := (u.image.map (fun im => im.code)).getD 0,
      njt := (u.image.map (fun im => im.tables.length)).getD 0, image := (u.image.map (fun im => im.handle)).getD 0,
      v := [(List.range 32).map (fun i => BitVec.ofNat 32 i)],
      s := ((Vector.replicate 128 (0 : DWord)).set 1 (BitVec.ofNat 64 buf)).set 2 (BitVec.ofNat 64 tabAt),
      splits := root :: List.replicate 15 {}, obRes := List.replicate 16 none, obGen := List.replicate 16 0,
      locks := List.replicate 16 none, lockGen := List.replicate 16 0 }
  let h : HSlot :=
    { core := core, level := level, cls := id, ev := ev, vmid := c.vmid, asid := c.asid, buf := buf, reply := reply.pa,
      replyTag := reply.key, replyUnc := reply.via == .dram, replyPeer := reply.peer,
      limit := (s.word (hBank level ev) 0x014).toNat, tabAt := tabAt, table := table }
  { s.usedChoice with
    nextId := s.nextId + 2, others := s.others ++ [c], forms := s.forms ++ [form], hslots := s.hslots ++ [h],
    tagsUsed := if s.tagsUsed.contains c.tag then s.tagsUsed else c.tag :: s.tagsUsed }.acquire core 4

/-- Deliver an event at a level: the record is written, the table is read and the handler begins, or the event escalates. -/
def enterHandler (core level : Nat) (ev : Event) (s : State) : State :=
  let none_ : Event := { ev with nohandler := true }
  match s.usable level ev with
  | none => escalate core level none_ s
  | some u =>
    let buf := (s.word (hBank level ev) 0x012).toNat / 2 ^ 16 * 2 ^ 16 + 256 * core
    match s.writeRecord level ev buf with
    | (none, s) => escalate core level none_ s
    | (some reply, s) =>
      match s.readTable level ev with
      | (none, s) => escalate core level none_ s
      | (some t, s) => startHandler core level buf reply ev u (bufferEntries buf ++ t) s

/-- The oldest pending event of a level on a core. -/
def State.oldest (s : State) (core level : Nat) : Option Pending :=
  s.pending.find? (fun p => p.core == core && p.level == level)

/-- Remove the first entry equal to p. -/
def removePending (p : Pending) (l : List Pending) : List Pending := l.erase p

/-- HANDLER_ENTRY (R342): the slot is free and, above level 0, the event's partition holds the core; a race tag is left (R135). An
asynchronous event that would escalate into a full queue waits where it is. -/
def execHandlerEntry (core level : Nat) (s : State) : Out :=
  match s.oldest core level with
  | none => .next s
  | some p =>
    if s.phase ≠ .running ∨ s.coreOff.contains core ∨ s.hslots.any (fun h => h.core == core && h.level == level) ∨ s.tagsLeft = 0
        ∨ (level ≠ 0 ∧ assoc s.holder core ≠ some p.ev.vmid) then .next s
    else .next (s.orWait (enterHandler core level p.ev { s with pending := removePending p s.pending }))

/-- HANDLER_TIME_LIMIT (R343): a handler that has run HLIMIT cycles is ended, its event is killed, and DEADLINE is raised at the
next level down. -/
def execHandlerTimeLimit (core level : Nat) (s : State) : Out :=
  match s.hslots.find? (fun h => h.core == core && h.level == level && decide (h.limit ≤ h.ran)) with
  | none => .next s
  | some h =>
    if level ≠ 0 ∧ !s.asyncRoom core (level - 1) then .next s
    else
      let c := (s.getCls h.cls).getD { id := h.cls }
      let ev : Event :=
        { cause := .deadline, from_ := level, cls := h.cls, core := core, vmid := c.vmid, asid := c.asid,
          aux := BitVec.ofNat 64 h.limit, time := BitVec.ofNat 64 s.time, async := true, nested := true }
      let s := dispose h.ev 2 ((s.freeHandler h.cls).closeCls h.cls)
      .next (escalate core level ev s)

/-! ### TRET (R345) -/

/-- TRET: a handler discards its splits and is disposed of, once its store buffer is drained. -/
def execTret (s : State) : Out :=
  .next (if s.cls.kind ≠ .handler then raise { cause := .illstate } s
    else if s.cls.soc ≠ 0 then hold s
    else endClass s.cls.id (s.release s.cls 4))

end Sys2Proof.Machine
end

