-- ==== Sys2Proof/Machine/MlDsa.lean ====
section
/-!
DEFINITION. Verification with ML-DSA-65 (R4, R456) as FIPS 204 defines it, with an empty context. A polynomial is a list of 256
coefficients modulo q, in the order of their powers or, transformed, in that of FIPS 204's NTT.
-/

namespace Sys2Proof.Machine

def dsaQ : Nat := 8380417
/-- γ₁, 2 γ₂ and β. -/
def dsaGamma1 : Nat := 2 ^ 19
def dsaAlpha : Nat := 523776
def dsaBeta : Nat := 196

/-- Little-endian fields of w bits. -/
def fieldsOf (w n x : Nat) : List Nat := (List.range n).map (fun i => (x >>> (w * i)) % 2 ^ w)

/-! ### Sampling -/

/-- n blocks of a sponge's output, as one number. -/
def squeeze (rate : Nat) : Nat → Nat → Nat
  | 0, _ => 0
  | n + 1, a => a % 2 ^ (8 * rate) + squeeze rate n (permute a) * 2 ^ (8 * rate)

/-- The first n coefficients below q among candidates of 23 bits, each the low bits of three bytes. -/
def dsaBelow : Nat → Nat → Nat → List Nat
  | 0, _, _ => []
  | fuel + 1, n, x =>
    if n = 0 then []
    else if x % 2 ^ 23 < dsaQ then x % 2 ^ 23 :: dsaBelow fuel (n - 1) (x >>> 24)
    else dsaBelow fuel n (x >>> 24)

/-- A transformed polynomial of the matrix, from the 336 candidates of six blocks; FIPS 204 lets a verifier stop at 298. -/
def dsaEntry (rho : List Byte) (row col : Nat) : List Nat :=
  dsaBelow 336 256 (squeeze 168 6 (absorbed 168 (rho ++ [BitVec.ofNat 8 col, BitVec.ofNat 8 row])))

/-- Places of the challenge's coefficients, from i upward: a byte that exceeds i is passed over. -/
def ballFrom (signs : Nat) : List Nat → Nat → List Nat → List Nat
  | [], _, c => c
  | j :: l, i, c =>
    if 256 ≤ i then c
    else if i < j then ballFrom signs l i c
    else ballFrom signs l (i + 1) ((c.set i (c.getD j 0)).set j (if bit signs (i - 207) then dsaQ - 1 else 1))

/-- The challenge: 49 coefficients are 1 or −1, the others 0. -/
def dsaBall (seed : List Byte) : List Nat :=
  let out := squeeze 136 4 (absorbed 136 seed)
  ballFrom (out % 2 ^ 64) (fieldsOf 8 536 (out >>> 64)) 207 (List.replicate 256 0)

/-! ### The number-theoretic transform -/

/-- An index of 8 bits with its bits in reverse. -/
def reverse8 (m : Nat) : Nat := (List.range 8).foldl (fun r i => r + m / 2 ^ i % 2 * 2 ^ (7 - i)) 0

/-- Transform one block of 2^d coefficients, the m-th of FIPS 204's tree of blocks; 1753 is its root of unity. -/
def nttFrom : Nat → Nat → List Nat → List Nat
  | 0, _, l => l
  | d + 1, m, l =>
    let z := 1753 ^ reverse8 m % dsaQ
    let a := l.take (2 ^ d)
    let b := (l.drop (2 ^ d)).map (fun x => z * x % dsaQ)
    nttFrom d (2 * m) (List.zipWith (fun x y => (x + y) % dsaQ) a b)
      ++ nttFrom d (2 * m + 1) (List.zipWith (fun x y => (x + (dsaQ - y)) % dsaQ) a b)

def ntt (l : List Nat) : List Nat := nttFrom 8 1 l

/-- Back again, but for the factor 256. -/
def unnttFrom : Nat → Nat → List Nat → List Nat
  | 0, _, l => l
  | d + 1, m, l =>
    let z := 1753 ^ (512 - reverse8 m) % dsaQ
    let a := unnttFrom d (2 * m) (l.take (2 ^ d))
    let b := unnttFrom d (2 * m + 1) (l.drop (2 ^ d))
    List.zipWith (fun x y => (x + y) % dsaQ) a b ++ List.zipWith (fun x y => z * (x + (dsaQ - y)) % dsaQ) a b

/-- 8347681 is the inverse of 256. -/
def unntt (l : List Nat) : List Nat := (unnttFrom 8 1 l).map (fun x => 8347681 * x % dsaQ)

/-! ### Hints -/

/-- The high part of a coefficient, corrected by its hint. -/
def useHint (hint : Bool) (r : Nat) : Nat :=
  let low := r % dsaAlpha
  let up := decide (dsaAlpha / 2 < low)
  let high := (r / dsaAlpha + b2n up) % 16
  if !hint then high
  else if !up && low != 0 && decide (r < dsaQ - 1) then (high + 1) % 16
  else (high + 15) % 16

def rising : List Nat → Bool
  | a :: b :: l => decide (a < b) && rising (b :: l)
  | _ => true

/-- The rows of hints, if their coding is the one that FIPS 204 admits: 55 places and six ends. -/
def dsaHints (y : List Nat) : Option (List (List Nat)) :=
  let ends := y.drop 55
  let rows := List.zipWith (fun a b => (y.take b).drop a) (0 :: ends) ends
  if (List.zipWith (fun a b => decide (a ≤ b ∧ b ≤ 55)) (0 :: ends) ends).all id && rows.all rising
      && ((y.take 55).drop (ends.getD 5 0)).all (fun x => x == 0) then some rows
  else none

/-! ### Verification -/

/-- Row r of the commitment as a verifier computes it: its 256 high parts of 4 bits, packed. -/
def dsaRow (rho : List Byte) (z : List (List Nat)) (c t1 hints : List Nat) (r : Nat) : Nat :=
  let az := (z.zipIdx.map (fun p => List.zipWith (fun x y => x * y) (dsaEntry rho r p.2) p.1)).foldl (List.zipWith (fun x y => x + y))
    (List.replicate 256 0)
  let ct := List.zipWith (fun x y => x * y % dsaQ) c (ntt (t1.map (fun x => x * 2 ^ 13 % dsaQ)))
  let w := unntt (List.zipWith (fun x y => (x + (dsaQ - y)) % dsaQ) az ct)
  w.zipIdx.foldl (fun n p => n + useHint (hints.contains p.2) p.1 * 16 ^ p.2) 0

/-- A signature of a message verifies under a public key. -/
def dsaVerify (pk msg sig : List Byte) : Bool :=
  let n := ofBytes sig
  let zs := (List.range 5).map (fun j => fieldsOf 20 256 (n >>> (8 * (48 + 640 * j)) % 2 ^ 5120))
  let t1s := (List.range 6).map (fun i => fieldsOf 10 256 (ofBytes pk >>> (8 * (32 + 320 * i)) % 2 ^ 2560))
  let mu := shake256 (shake256 pk 64 ++ [0, 0] ++ msg) 64
  let c := ntt (dsaBall (sig.take 48))
  let z := zs.map (fun l => ntt (l.map (fun x => (dsaQ + dsaGamma1 - x) % dsaQ)))
  pk.length == 1952 && sig.length == 3309
    && zs.all (fun l => l.all (fun x => decide (dsaBeta < x ∧ x < 2 * dsaGamma1 - dsaBeta)))
    && (match dsaHints (fieldsOf 8 61 (n >>> (8 * 3248))) with
        | none => false
        | some hs =>
          let w1 := (List.zipWith (fun t h => (t, h)) t1s hs).zipIdx.flatMap (fun p =>
            toBytes 128 (dsaRow (pk.take 32) z c p.1.1 p.1.2 p.2))
          shake256 (mu ++ w1) 48 == sig.take 48)

end Sys2Proof.Machine
end

