-- ==== Sys2Proof/Machine/Trust.lean ====
section
/-!
DEFINITION. Resets and boot, keys, errors, measurements, SPDM and thermal limits (22_trust.md R443–R459).
-/

namespace Sys2Proof.Machine

/-! ### Measurements (R457) -/

/-- MEASn. -/
def State.measure (s : State) (n : Nat) : BitVec 512 := s.meas.getD n 0

/-- Extend slot n with a digest. -/
def State.extend (s : State) (n : Nat) (g : List Byte) : State :=
  { s with meas := padSet 0 s.meas n (BitVec.ofNat 512 (ofBytes (shake256 (toBytes 64 (s.measure n).toNat ++ g) 64))) }

/-- A digest. -/
def digest (m : List Byte) : List Byte := shake256 m 64

/-- MEASUREMENT_EXTEND: slots 0–3 are extended only by boot. The digest is read as a level-0 access. -/
def measurementExtend (slot pa : Nat) (s : State) : State :=
  if slot < 4 ∨ 15 < slot ∨ Config.memLimit < pa / 64 * 64 + 64 then s
  else s.extend slot (s.hwRead s.pkey (pa / 64 * 64) 64)

def execMeasurementExtend (slot pa : Nat) (s : State) : Out := .next (measurementExtend slot pa s)

/-! ### Resets and boot (R444, R445, R456) -/

/-- The words that keep their values across a requested reset. -/
def keptWord (k : WKey) : Bool := k.bank == .dev && (k.ix == 0x201 || k.ix == 0x203 || k.ix == 0x270)

/-- The mode byte, then ROTPER and ROTENT of every core, as they have been written. -/
def State.modeBytes (s : State) : List Byte :=
  toBytes 1 (s.word .dev 0x280).toNat
    ++ (List.range Config.cores).flatMap (fun c =>
      toBytes 8 (s.rotWritten c 8).toNat ++ (List.range 8).flatMap (fun e => toBytes 8 (s.rotWritten c e).toNat))

/-- The device scrubbed: every SRAM and every byte of memory is zero, streams but stream 0 are closed, and messages in flight are
gone. Outside the scrub lie flash and ROM, device time, the traffic already sent, and the model's own fields. -/
def State.scrubbed (s : State) : State :=
  { State.reset with
    agenda := s.agenda, nextId := s.nextId, free := s.free, time := s.time, sent := s.sent, flash := s.flash, rootKey := s.rootKey,
    resetNo := s.resetNo + 1, words := s.words.filter (fun w => keptWord w.1), rotNext := s.rotNext, rotFrom := s.rotFrom,
    bwFrame := s.bwFrame, eWindow := s.eWindow, streams := s.streams.filter (fun x => x.no == 0) }

/-- Boot fails: the Bursar is in recovery. -/
def State.recover (s : State) (step : Nat) : State := { s with phase := .recovery, failedAt := step }

/-- Step 6: SEALBASE and SEALLIM, the seal map, and the firmware at level 0. -/
def State.startFirmware (s : State) (f : Flash) (power : Bool) : State :=
  let frames := (List.range ((f.firmware.length + 4095) / 4096)).map (fun i => f.fwAt / 4096 + i)
  let s := (s.setWord .dev 0x105 (BitVec.ofNat 64 f.sealBase)).setWord .dev 0x106 (BitVec.ofNat 64 f.sealLim)
  let s := if power then s.setWord .dev 0x270 (BitVec.ofNat 64 (f.devno % 2 ^ 18)) else s
  { (s.hwWrite 0 f.fwAt f.firmware).seal frames with
    enabled := some f.cores, phase := .running,
    cls := firmwareCls f }

/-- The certificate verifies against the root key in ROM, and the firmware against a key that the certificate names (R456). -/
def State.certOk (s : State) (f : Flash) : Bool := dsaVerify s.rootKey f.cert f.certSig
def Flash.fwOk (f : Flash) : Bool := f.fwKeys.any (fun k => dsaVerify k f.firmware f.fwSig)

/-- Boot, step by step. What the PUF yields with the helper data is a free value (R456 step 2). -/
def State.boot (s : State) (power : Bool) : State :=
  let s := s.extend 0 (toBytes 64 Config.romDigest.toNat)
  let s : State := { s with idSeed := some (Config.identitySeed ((s.flash.map (fun f => f.helper)).getD [])) }
  match s.flash with
  | none => s.recover 3
  | some f =>
    if !s.certOk f then s.recover 3
    else
      let s := { s with coeff := f.energy }.extend 1 (digest f.cert)
      if !f.fwOk then s.recover 4
      else ((s.extend 2 (digest f.firmware)).extend 3 (digest s.modeBytes)).startFirmware f power

/-- A firmware image that recovery has staged takes the place of the one in flash. Its last 3,309 bytes are its signature (DESIGN CHOICE:
log entry 81). -/
def State.stagedFlash (s : State) : Option Flash :=
  if s.phase ≠ .recovery ∨ s.staged = 0 then s.flash
  else
    let image := s.staging.read 0 s.staged
    s.flash.map (fun f => { f with firmware := image.take (s.staged - 3309), fwSig := image.drop (s.staged - 3309) })

/-- A requested reset into a mode. -/
def requestReset (confidential : Bool) (s : State) : State :=
  ({ s.scrubbed with flash := s.stagedFlash }.setWord .dev 0x280 (if confidential then 3 else 2)).boot false

/-- RESET_REQUEST (R445). -/
def execResetRequest (confidential : Bool) (s : State) : Out := .next (requestReset confidential s)

/-- POWER_ON_RESET (R444): normal mode, every word at its reset value; device time starts at 0. -/
def execPowerOnReset (s : State) : Out :=
  .next (State.boot { State.reset with agenda := s.agenda, nextId := s.nextId, free := s.free, sent := s.sent, flash := s.flash,
                                       rootKey := s.rootKey, resetNo := s.resetNo + 1 } true)

/-! ### Keys (R449) -/

/-- A sector leaves L2 without write-back, dirty or clean: what DRAM holds is what is left. -/
def State.loseL2 (s : State) (x : L2Sector) : State := s.dropL2 { x with dirty := false }

/-- The writes of a store or a posted reduction that have been translated under a lost key are not performed. -/
def Access.lose (under : Nat → Bool) (a : Access) : Access :=
  let out : Bool := a.op.counts && (match a.stage with
    | .fabric | .retry _ | .ready | .walking => true
    | .delivered _ _ | .stopped => false)
  { a with lanes := a.lanes.map (fun l =>
      if out && (l.page.size != 0 || a.op == .physStore) && under l.key then { l with done := true } else l) }

/-- A store of which nothing is left. -/
def Access.lost (under : Nat → Bool) (a : Access) : Bool :=
  let b := a.lose under
  b != a && b.complete

/-- Where an engine operation writes its next element in memory. -/
def EngineOp.target (e : EngineOp) : Option Int :=
  let b := boxPos e.shape e.progress
  let zero : Nat → Int := fun _ => 0
  if e.fn = 1 ∧ inBounds e.shape (coordOf e.coords) b then some (elemAddr e.shape (shBase e.shape) (coordOf e.coords) b)
  else if (e.fn = 6 ∨ e.fn = 8) ∧ inBounds e.dst zero b then some (elemAddr e.dst (shBase e.dst) zero b)
  else none

/-- What an operation of an engine still has to write under a lost key is not written. -/
def State.loseRest (s : State) (under : Nat → Bool) (c : Option Cls) (e : EngineOp) : EngineOp :=
  match c, e.target with
  | some c, some va =>
    match s.enginePlace e c va true with
    | .at_ l => if under l.key then { e with progress := shCount e.shape, asked := none, got := none } else e
    | _ => e
  | _, _ => e

/-- Writes under a tag that have not been performed are lost: of the classes on the cores, of saved contexts, of the engines (R449). -/
def loseHeld (under : Nat → Bool) (s : State) : State :=
  let lost := s.allCls.flatMap (fun c => (c.mem.filter (Access.lost under)).map (fun a => (c.id, a.id)))
  let engines := s.engines.map (fun e => s.loseRest under (s.getCls e.cls) e)
  let saved := s.saved.map (fun x =>
    { x with classes := x.classes.map (fun c =>
               { c with mem := (c.mem.filter (fun a => !a.lost under)).map (Access.lose under) }),
             engines := x.engines.map (fun e => s.loseRest under (x.classes.find? (fun c => c.id == e.cls)) e) })
  let s := { s with engines := engines, saved := saved }.mapCls (fun c => { c with mem := c.mem.map (Access.lose under) })
  lost.foldl (fun s p => finishAcc p.1 p.2 s) s

/-- Replace the key of a tag: lines of every cache filled under it go without write-back, and writes not yet performed
are lost. An instruction cache's lines, of which the model keeps no tag, all go and are fetched again. -/
def rekey (tag : Nat) (s : State) : State :=
  let under (t : Nat) : Bool := t % 64 == tag
  let s := ((loseHeld under s).l2.filter (fun x => under x.tag)).foldl State.loseL2 (loseHeld under s)
  { s with
    icache := [], l1 := s.l1.filter (fun x => !under x.key), rdc := s.rdc.filter (fun x => !under x.tag),
    pins := s.pins.filter (fun p => !under p.key),
    keyGen := assocSet s.keyGen tag ((assoc s.keyGen tag).getD 0 + 1) }

/-- KEY_REKEY: in confidential mode, of a tag other than 0. -/
def execKeyRekey (tag : Nat) (s : State) : Out :=
  .next (if s.confidential ∧ tag ≠ 0 ∧ tag < 64 then rekey tag s else s)

/-! ### Cores (R455) -/

/-- A stopped core returns to service, empty, unless it is out of service until the next reset. -/
def restartCore (core : Nat) (s : State) : State :=
  if s.coreDead.contains core then s else { s with coreOff := s.coreOff.filter (fun c => c != core) }

/-- CORE_RESTART. -/
def execCoreRestart (core : Nat) (s : State) : Out := .next (restartCore core s)

/-! ### Logs (R450–R452) -/

/-- A record of a log, and the words a snapshot lands in. -/
def logRecord (s : State) (vmid : Option Nat) (ix : Nat) : BitVec 512 :=
  match vmid with
  | none => s.devLog.getD (ix % 256) 0
  | some v => ((assoc s.partLog v).getD []).getD (ix % 64) 0

def logBank (vmid : Option Nat) : Bank :=
  match vmid with
  | none => .dev
  | some v => .part v

/-- Copy a record into ERRREC0–7. -/
def errorSnapshot (vmid : Option Nat) (ix : Nat) (s : State) : State :=
  let r := logRecord s vmid ix
  let s := s.setWord (logBank vmid) 0x288 (BitVec.ofNat 64 (ix % 256))
  (List.range 8).foldl (fun s i => s.setWord (logBank vmid) (0x289 + i) (BitVec.ofNat 64 (bits r.toNat (64 * i + 63) (64 * i)))) s

/-- ERROR_SNAPSHOT. -/
def execErrorSnapshot (vmid : Option Nat) (ix : Nat) (s : State) : Out := .next (errorSnapshot vmid ix s)

/-! ### Soft errors (R453) -/

/-- The guest physical address that a stage-2 table maps to a physical one: of its entries from `level` down, the first that does. -/
def stage2Find (rd : Nat → Nat) (pa : Nat) : Nat → Nat → Nat → Option Nat
  | level, table, base =>
    (List.range 512).findSome? (fun ix =>
      let e := rd (table + 8 * ix)
      let ga := base + ix * 2 ^ (12 + 9 * level)
      let page := bits e 47 12 * 4096
      if !bit e 0 then none
      else if bit e 5 then
        if level < 3 ∧ leafOk false e ∧ page ≤ pa ∧ pa < page + leafSize level false then some (ga + (pa - page)) else none
      else
        match level with
        | 0 => none
        | l + 1 => if pointerOk false (l + 1) e then stage2Find rd pa l page ga else none)

/-- The guest physical address of a physical address in a partition. -/
def State.guestOf (s : State) (v pa : Nat) : Option Nat :=
  if !s.hasPartition v then none
  else stage2Find (fun a => s.hwNum 0 a 8) pa 4 ((s.word (.part v) 0x103).toNat % 2 ^ 36 * 4096) 0

/-- The partition that a physical address belongs to: its cached copies or translations say, or a stage 2 maps it. -/
def State.ownerOf (s : State) (pa : Nat) : Option Nat :=
  ((s.l2.find? (fun d => d.pa == sector pa)).map (fun d => d.vmid)).orElse (fun _ =>
    ((s.l1.find? (fun x => x.pa == sector pa)).map (fun x => x.vmid)).orElse (fun _ =>
      ((s.tlb.find? (fun e => decide (e.pa ≤ pa ∧ pa < e.pa + e.size))).map (fun e => e.vmid)).orElse (fun _ =>
        s.partitions.find? (fun v => (s.guestOf v pa).isSome))))

/-- A class wherever it is, in a saved context too. -/
def State.clsVmid (s : State) (id : Nat) : Option Nat :=
  match s.anyCls id with
  | none => none
  | some c => if c.level = 0 then none else some c.vmid

/-- The partition that owns what failed. -/
def State.errOwner (s : State) (e : MemErr) : Option Nat :=
  match e.consumer with
  | some p => s.clsVmid p.1
  | none =>
    match e.site with
    | .sector pa => s.ownerOf pa
    | .scratch form _ | .bstore form _ => (s.formById form).map (fun f => f.vmid)
    | .ob cls _ | .lane cls _ | .scalar cls _ | .kreg cls _ | .tile cls _ => s.clsVmid cls
    | .engine op => (s.engines.find? (fun x => x.id == op)).map (fun x => x.vmid)
    | .shadow core half => (s.saved.find? (fun x => x.core == core && x.shadow && x.place == half)).map (fun x => x.vmid)
    | .tlb _ | .control _ | .unit | .link => none

/-- Where an error lies, as a record names it (Tables 22-3, 22-4). -/
structure ErrPlace where
  unit_ : Nat
  die   : Nat
  stack : Nat := 0
  chan  : Nat := 0
  bank  : Nat := 0
  tier  : Bool := false
  deriving DecidableEq, Repr

/-- A core, or what lies in one. -/
def atCore (core : Nat) : ErrPlace := { unit_ := (corePlace core).1, die := (corePlace core).2 }

/-- A sector in the cache that the detecting unit names, or at its memory controller: stacks 2d and 2d + 1 attach to C-die d, the DDR-5
channels to the H-die (R5). -/
def sectorPlace (e : MemErr) (pa : Nat) : ErrPlace :=
  let u := e.unit_.toNat
  let ctl := controllerOf pa
  if u < 0x40 then { unit_ := u, die := e.die.toNat % 4 }
  else if u < 0x50 then { unit_ := 0x40 + homeSlice pa % 16, die := homeDie pa }
  else if u = 0x50 then { unit_ := 0x50, die := e.die.toNat % 4 }
  else if ctl < 8 then
    { unit_ := 0x70 + ctl % 2, die := ctl / 2, stack := ctl, chan := e.chan.toNat, bank := e.bank.toNat }
  else { unit_ := 0xC0 + (ctl - 8), die := 8, stack := ctl - 8, bank := e.bank.toNat, tier := true }

def State.errPlace (s : State) (e : MemErr) : ErrPlace :=
  match e.site with
  | .sector pa => sectorPlace e pa
  | .bstore form _ =>
    let core := ((s.formById form).map (fun f => f.core)).getD 0
    { unit_ := 0x90, die := 4 + core / 64 }
  | .scratch form _ => atCore (((s.formById form).map (fun f => f.core)).getD 0)
  | .ob cls _ | .lane cls _ | .scalar cls _ | .kreg cls _ | .tile cls _ => atCore (((s.anyCls cls).map (fun c => c.core)).getD 0)
  | .tlb core | .control core => atCore core
  | .engine op =>
    let quad := ((s.engines.find? (fun x => x.id == op)).map (fun x => x.engine)).getD 0
    { unit_ := 0x60 + quad % 16, die := quad / 16 }
  | .shadow core _ => { unit_ := 0x91, die := 4 + core / 64 }
  | .unit | .link => { unit_ := e.unit_.toNat, die := e.die.toNat }

/-- The sector that an error concerns; 0 if none. -/
def sitePaddr : ErrSite → Nat
  | .sector pa => sector pa
  | .scratch _ _ | .bstore _ _ | .ob _ _ | .lane _ _ | .scalar _ _ | .kreg _ _ | .tile _ _ | .tlb _ | .control _ | .unit | .link
  | .engine _ | .shadow _ _ => 0

/-- GADDR: the virtual address of a consuming access, else the guest physical address of the sector. -/
def State.errAddr (s : State) (e : MemErr) : Nat :=
  match e.consumer, e.site with
  | some p, _ => p.2
  | none, .sector pa => ((s.errOwner e).bind (fun v => s.guestOf v (sector pa))).getD 0
  | none, _ => 0

/-- The record of an error. -/
def State.errInfo (s : State) (e : MemErr) (sclass : Nat) : ErrInfo :=
  let c := e.consumer.bind (fun p => s.anyCls p.1)
  let w := s.errPlace e
  { cause := Cause.ecc.code, sclass, unit_ := w.unit_, die := w.die, stack := w.stack, chan := w.chan, bank := w.bank,
    tier := w.tier, vmid := s.errOwner e, core := (c.map (fun c => c.core)).getD 0xFF,
    form := (c.map (fun c => c.formno)).getD 0, synd := e.syndrome.toNat, gaddr := s.errAddr e, paddr := sitePaddr e.site }

/-- Mark the copy of a sector that the detecting unit names: a core's L1, the home slice's, a die's RDC, or DRAM's (R453). -/
def markSector (e : MemErr) (pa : Nat) (s : State) : State :=
  let u := e.unit_.toNat
  let die := e.die.toNat % 4
  if u < 0x40 then s.modL1 (fun x => x.core == 64 * die + u && x.pa == sector pa) (fun x => { x with mark := true })
  else if u < 0x50 then (if (s.l2find pa).isSome then { s with poison := withMark s.poison (sector pa) true } else s)
  else if u = 0x50 then
    { s with rdc := s.rdc.map (fun x => if x.die = die ∧ x.pa = sector pa then { x with mark := true } else x) }
  else s.putMark .dram pa

/-- An error in a saved context lies in one of its classes' lane registers: which one is a free choice (DESIGN CHOICE: log entry 51). -/
def markShadow (core half : Nat) (s : State) : State :=
  let hit (c : Cls) : Cls := { c with poisonV := (0, Config.choice s.free % c.nregs) :: c.poisonV }
  { s.usedChoice with saved := s.saved.map (fun x =>
      if x.core = core ∧ x.shadow ∧ x.place = half then
        { x with classes := x.classes.zipIdx.map (fun p => if p.2 = Config.choice s.free % x.classes.length then hit p.1 else p.1) }
      else x) }

/-- Mark what an uncorrectable error left. -/
def markError (e : MemErr) (s : State) : State :=
  let add (x : Nat) (l : List Nat) : List Nat := if l.contains x then l else x :: l
  match e.site with
  | .sector pa => markSector e pa s
  | .scratch form off => s.modForm form (fun f => { f with scrPoison := add (off / 32 * 32) f.scrPoison })
  | .bstore form off => s.modForm form (fun f => { f with bstPoison := add (off / 32 * 32) f.bstPoison })
  | .ob cls off => s.modCls cls (fun c => { c with obPoison := add (off / 32 * 32) c.obPoison })
  | .lane cls reg => s.modCls cls (fun c => { c with poisonV := (0, reg) :: c.poisonV })
  | .scalar cls reg => s.modCls cls (fun c => { c with poisonV := (1, reg) :: c.poisonV })
  | .kreg cls reg => s.modCls cls (fun c => { c with poisonV := (2, reg) :: c.poisonV })
  | .tile cls tile => s.modCls cls (fun c => c.modTile tile (fun x => { x with poison := true }))
  | .shadow core half => markShadow core half s
  | .tlb _ | .control _ | .unit | .link | .engine _ => s

/-- The cores of a die; the H-die has the Bursar (R5, R455). -/
def dieCores (die : Nat) : List Nat :=
  if die < 4 then (List.range 64).map (fun i => 64 * die + i) else if die = 8 then [256] else []

/-- A machine check of a die stops its cores, those in service. -/
def stopDie (die : Nat) (s : State) : State :=
  ((dieCores die).filter (fun c => c == 256 && !s.coreOff.contains c || s.coreUp c)).foldl (fun s c => s.haltCoreNow c) s

/-- Data in a copy engine is lost: its operation ends without completion, and ECC is asynchronous, as where it reads an error mark (R453;
DEDUCED: log entry 51). -/
def engineEcc (op : Nat) (s : State) : State :=
  match s.engineOp op with
  | none => s
  | some (e, c) => engineAbort e c { cause := .ecc } s

/-- A TLB or instruction-cache entry is invalidated, to be fetched again. -/
def dropEntries (core : Nat) (s : State) : State :=
  { s with tlb := s.tlb.filter (fun e => e.home != TlbHome.core core), icache := s.icache.filter (fun p => p.1 != core) }

/-- An error is detected: corrected, or marked, or a machine check of the die; it is logged (R450, R453, R455). -/
def memoryError (e : MemErr) (s : State) : State :=
  match e.site with
  | .tlb core => (dropEntries core s).logErr (s.errInfo e 0)
  | .link => s.logErr (s.errInfo e 4)
  | .control core => if e.corrected then s.logErr (s.errInfo e 0) else (stopDie (corePlace core).2 s).logErr (s.errInfo e 5)
  | .unit => if e.corrected then s.logErr (s.errInfo e 0) else (stopDie e.die.toNat s).logErr (s.errInfo e 5)
  | .sector _ | .scratch _ _ | .bstore _ _ | .ob _ _ | .shadow _ _ =>
    if e.corrected then s.logErr (s.errInfo e 0) else (markError e s).logErr (s.errInfo e 2)
  | .lane _ _ | .scalar _ _ | .kreg _ _ | .tile _ _ =>
    if e.corrected then s.logErr (s.errInfo e 0) else (markError e s).logErr (s.errInfo e 1)
  | .engine op => if e.corrected then s.logErr (s.errInfo e 0) else (engineEcc op s).logErr (s.errInfo e 1)

/-- MEMORY_ERROR. -/
def execMemoryError (e : MemErr) (s : State) : Out := .next (memoryError e s)

/-- PATROL_SCRUB: a sector of memory, or an L2 line, is read; an error found is corrected or marked, and logged. -/
def execPatrolScrub (pa : Nat) (err : Option MemErr) (s : State) : Out :=
  .next (match err with
    | none => s
    | some e => memoryError { e with site := .sector pa, consumer := none } s)

/-! ### Thermal limits (R459) -/

/-- 105 °C and 115 °C, in units of 1/16 °C. -/
def throttleLimit : Nat := 1680
def tripLimit : Nat := 1840

/-- THERMAL_THROTTLE: every form is throttled, those of saved contexts too, and its launch lapses. -/
def execThermalThrottle (temp : Nat) (s : State) : Out :=
  .next (if temp ≤ throttleLimit ∨ s.hot ∨ s.phase ≠ .running then s
    else (s.everyForm.filter (fun f => f.launch != 0)).foldl (fun s f => s.lapseForm f) { s with hot := true })

/-- The saved contexts are taken off their places again, to be ended. -/
def State.unsaved (s : State) : State :=
  { s with saved := [], others := s.others ++ (s.saved.flatMap (fun x => x.classes)).filter (fun c => c.kind != .walker),
           forms := s.forms ++ s.saved.flatMap (fun x => x.forms), seq := s.seq ++ s.saved.flatMap (fun x => x.seq),
           engines := s.engines ++ s.saved.flatMap (fun x => x.engines) }

/-- What stays of a class when the device stops. -/
def Cls.tripped (c : Cls) : Cls :=
  if c.kind = .bursar then { c with splits := c.splits.map (fun _ => {}) } else { c.leave with status := .ended }

/-- The device stops: every class ends, and every launch is to complete with ORPHAN once the writes that it has made have been performed:
stores, reductions, engines, drains and residual entries, those of saved contexts too (R14). -/
def trip (s : State) : State :=
  let s := (s.focus 0).unsaved
  let s := ((s.allCls.filter (fun c => c.kind != .bursar && c.live)).map (fun c => c.id)).foldl State.closeCls s
  { (s.mapCls Cls.tripped).settleEnding with
    phase := .tripped, launches := s.launches.map (fun l => { l with orphan := true, noPlace := true }),
    forms := s.forms.filter (fun f => f.launch != 0), pending := [], hslots := [], misses := [], runners := [], ghosts := [],
    childq := [], fences := [], admits := [], shoots := [] }

/-- THERMAL_TRIP. -/
def execThermalTrip (temp : Nat) (s : State) : Out :=
  .next (if tripLimit ≤ temp ∧ s.phase = .running then trip s else s)

/-- THERMAL_RECOVERY: the throttle ends or, after a trip, the requested reset into the current mode follows. -/
def execThermalRecovery (temp : Nat) (s : State) : Out :=
  .next (if throttleLimit ≤ temp then s
    else if s.phase = .tripped then (if s.launches.isEmpty then requestReset s.confidential s else s)
    else { s with hot := false })

/-! ### SPDM (R458) -/

def State.stream (s : State) (n : Nat) : Option Stream := s.streams.find? (fun x => x.no == n)

def State.setStream (s : State) (x : Stream) : State := { s with streams := x :: s.streams.filter (fun y => y.no != x.no) }

/-- The stream belongs to level 0 or to a partition that exists (R430). -/
def State.streamOk (s : State) (n : Nat) : Bool := n == 0 || (decide (n ≤ 64) && s.hasPartition (n - 1))

/-- Control-port answers not yet sent that a stream owes under a generation. -/
def Sent.owes (no : Nat) (gen : Bool) : Sent → Bool
  | .cp stream g _ _ _ => stream == no && g == b2n gen
  | .flits _ _ | .peer _ _ _ | .peerAnswer _ _ _ | .gather _ _ | .replica _ _ _ | .spdm _ _ => false

/-- The tag of a READ that a stream has still to perform under a generation. -/
def PortReq.owes (q : PortReq) (no : Nat) (gen : Bool) : Option Nat :=
  match q with
  | .read m => if m.stream = no ∧ m.gen = b2n gen then some m.tag else none
  | .write _ | .peer _ | .replica _ _ _ _ => none

/-- After a KEYSW the old key is held until its last answer has gone out or 2 ms have passed (R432). -/
def State.oldHeld (s : State) (x : Stream) : Bool :=
  match x.old with
  | none => false
  | some t => decide (s.time < t + 8000000)
    && (s.answers.any (Sent.owes x.no (!x.gen)) || s.portq.any (fun q => (q.req.owes x.no (!x.gen)).isSome))

/-- The keys of a generation. -/
def Stream.keys (x : Stream) (gen : Bool) : Option StreamKeys := if gen then x.keys1 else x.keys0

def Stream.putKeys (x : Stream) (gen : Bool) (k : Option StreamKeys) : Stream :=
  if gen then { x with keys1 := k } else { x with keys0 := k }

/-- The old key of a stream goes, once nothing is owed under it or 2 ms after the KEYSW: what is still unanswered under it is answered by
FAIL with ORPHAN under the new one. -/
def expireOld (stream : Nat) (s : State) : State :=
  match s.stream stream with
  | none => s
  | some x =>
    if x.old.isNone ∨ s.oldHeld x then s
    else
      let orphan (tag : Nat) : Sent := .cp stream (b2n x.gen) tag 8 (toBytes 8 Cause.orphan.code)
      let late (a : Sent) : Sent := match a with
        | .cp _ _ tag _ _ => if a.owes stream (!x.gen) then orphan tag else a
        | .flits _ _ | .peer _ _ _ | .peerAnswer _ _ _ | .gather _ _ | .replica _ _ _ | .spdm _ _ => a
      let waits (q : PortWait) : Option Nat := q.req.owes stream (!x.gen)
      { s.setStream { x.putKeys (!x.gen) none with old := none } with
        answers := s.answers.map late ++ (s.portq.filterMap waits).map orphan,
        portq := s.portq.filter (fun q => (waits q).isNone) }

/-- An SPDM answer: bytes that the model knows, then what only the device knows. -/
def State.spdm (s : State) (stream : Nat) (bs : List Byte) : State :=
  { s.usedChoice with answers := s.answers ++ [.spdm stream (bs ++ Config.spdmBytes s.free)] }

/-- GET_CERTIFICATE. -/
def execGetCertificate (stream : Nat) (s : State) : Out := .next (if s.streamOk stream then s.spdm stream [] else s)

/-- GET_MEASUREMENTS: index n + 1 is MEASn. After a failed boot the answer reports the failing step. -/
def execGetMeasurements (stream index : Nat) (s : State) : Out :=
  .next (if s.streamOk stream ∧ 1 ≤ index ∧ index ≤ 16 then
      s.spdm stream (toBytes 64 (s.measure (index - 1)).toNat ++ (if s.failedAt = 0 then [] else toBytes 1 s.failedAt))
    else s)

/-- The keys of a session or of an update, one for each direction: free values. -/
def State.newKeys (s : State) : StreamKeys := { inKey := Config.sessionKey s.free false, outKey := Config.sessionKey s.free true }

/-- Level 1 of the stream's partition has named the requester in its queue set-up. Which words say so is not given: a function of them
(DESIGN CHOICE: log entry 82). Stream 0 is level 0's, and its requester is not named. -/
def State.named (s : State) (stream requester : Nat) : Bool :=
  stream == 0 || Config.namesRequester ((List.range 64).flatMap (fun q =>
    (List.range 11).map (fun i => s.word (.part (stream - 1)) (0x180 + i) q))) requester

/-- KEY_EXCHANGE: the session's keys become the stream's generation-0 keys. -/
def execKeyExchange (r : SessionReq) (s : State) : Out :=
  .next (if s.streamOk r.stream ∧ s.named r.stream r.requester then
      (s.usedChoice.setStream { no := r.stream, keys0 := some s.newKeys }).spdm r.stream []
    else s)

/-- KEY_UPDATE: keys for the generation that is not current. -/
def execKeyUpdate (stream : Nat) (s : State) : Out :=
  let s := expireOld stream s
  .next (match s.stream stream with
    | none => s
    | some x =>
      if x.old.isSome ∨ !s.streamOk stream then s
      else
        let x := if x.gen then { x with keys0 := some s.newKeys } else { x with keys1 := some s.newKeys }
        (s.usedChoice.setStream x).spdm stream [])

end Sys2Proof.Machine
end

