-- ==== Sys2Proof/Machine/ControlWords.lean ====
section
/-!
DEFINITION. Control words: CRD and CWR (16_privilege.md R335, R336; Tables 16-3, 17-5, 18-1, 19-1, 20-1, 22-1), and RIGHTS (R332,
R333, R338, R349).
-/

namespace Sys2Proof.Machine

/-! ### The words (Tables 16-3, 17-5, 18-1, 19-1, 20-1, 22-1) -/

/-- First and last index of each run of words. -/
def wordRuns : List (Nat × Nat) :=
  [(0x000, 0x003), (0x010, 0x014), (0x020, 0x021), (0x030, 0x031), (0x040, 0x042), (0x100, 0x109), (0x110, 0x113),
   (0x180, 0x18C), (0x200, 0x205), (0x210, 0x212), (0x220, 0x223), (0x230, 0x233), (0x240, 0x241), (0x250, 0x251),
   (0x258, 0x259), (0x260, 0x262), (0x270, 0x270), (0x280, 0x283), (0x285, 0x285), (0x288, 0x291), (0x298, 0x2A1),
   (0x2A8, 0x2A8), (0x2B0, 0x2B0), (0x2B8, 0x2B8), (0x300, 0x305)]

def inRuns (l : List (Nat × Nat)) (ix : Nat) : Bool := l.any (fun p => decide (p.1 ≤ ix ∧ ix ≤ p.2))

def wordDefined (ix : Nat) : Bool := inRuns wordRuns ix

/-- Reserved to level 0. -/
def wordLevel0 (ix : Nat) : Bool :=
  inRuns [(0x002, 0x002), (0x030, 0x031), (0x103, 0x109), (0x110, 0x111), (0x185, 0x186), (0x200, 0x203), (0x205, 0x205),
          (0x220, 0x220), (0x222, 0x222), (0x230, 0x231), (0x281, 0x285), (0x298, 0x2A1), (0x2B0, 0x2B8)] ix

/-- Read only, at a level. -/
def wordRO (level ix : Nat) : Bool :=
  inRuns [(0x000, 0x001), (0x020, 0x021), (0x042, 0x042), (0x105, 0x106), (0x112, 0x112), (0x183, 0x184), (0x18B, 0x18C),
          (0x204, 0x204), (0x222, 0x223), (0x241, 0x241), (0x280, 0x280), (0x289, 0x291), (0x299, 0x2A0), (0x2B8, 0x2B8),
          (0x302, 0x302)] ix
    || (level != 0 && inRuns [(0x101, 0x102), (0x187, 0x187), (0x221, 0x221), (0x270, 0x270)] ix)

/-- Write only: they read as zero. -/
def wordWO (ix : Nat) : Bool := inRuns [(0x041, 0x041), (0x281, 0x282), (0x2A1, 0x2A1), (0x2B0, 0x2B0), (0x304, 0x304)] ix

/-- Banked by partition. -/
def wordBanked (ix : Nat) : Bool :=
  inRuns [(0x001, 0x001), (0x010, 0x014), (0x020, 0x021), (0x040, 0x042), (0x100, 0x103), (0x110, 0x113), (0x180, 0x184),
          (0x187, 0x18A), (0x18C, 0x18C), (0x204, 0x204), (0x210, 0x212), (0x221, 0x221), (0x223, 0x223), (0x230, 0x233),
          (0x240, 0x241), (0x250, 0x251), (0x258, 0x259), (0x260, 0x262), (0x283, 0x285), (0x2A8, 0x2A8), (0x300, 0x305)] ix

/-- Banked by tenant too: what bit 10 reaches from level 1. -/
def wordTenant (ix : Nat) : Bool := inRuns [(0x001, 0x001), (0x010, 0x014), (0x2A8, 0x2A8)] ix

/-- Banked words of which level 0 has a copy of its own. -/
def wordOwn0 (ix : Nat) : Bool := inRuns [(0x001, 0x001), (0x010, 0x014), (0x300, 0x305)] ix

/-- The words that create a partition: a write reaches a partition that does not exist yet (R419). -/
def wordCreates (ix : Nat) : Bool := inRuns [(0x101, 0x103)] ix

/-! ### Which copy (R335) -/

/-- The copy an access names. -/
inductive Copy where
  | own0
  | part (v : Nat)
  | tenant (v a : Nat)
  deriving DecidableEq, Repr

/-- Who accesses a control word: its level, core, partition and ASID, and the partition that bit 10 selects from level 0. -/
structure Accessor where
  level : Nat
  core  : Nat
  vmid  : Nat
  asid  : Nat
  sel   : Nat
  deriving DecidableEq, Repr

/-- The right that a level-1 access needs, as its bit number. -/
def wordRight (ix : Nat) (write : Bool) : Option Nat :=
  if ix = 0x112 ∨ ix = 0x113 then some 7
  else if !write then (if ix = 0x18B then some 8 else none)
  else if ix = 0x041 then some 5
  else if ix = 0x211 ∨ ix = 0x212 then some 3
  else if ix = 0x232 then some 8
  else if ix = 0x251 ∨ ix = 0x259 ∨ ix = 0x261 ∨ ix = 0x262 then some 6
  else if ix = 0x2A8 then some 9
  else none

/-- What a refused access raises. -/
def State.wordRefused (s : State) (x : Accessor) (ix : Nat) (write : Bool) : Option Raise :=
  match wordRight ix write with
  | none => none
  | some r => if x.level = 0 ∨ (s.rights 1 x.vmid 0).getLsbD r then none else some { cause := .right, aux := r }

/-- The checks of R335 and R331, and the copy. A write of DLPROD without DLOG raises RIGHT, not ILLOP (R361). -/
def State.copyOf (s : State) (x : Accessor) (below : Bool) (ix : Nat) (write : Bool) : Except Cause Copy :=
  if !wordDefined ix || (x.level != 0 && wordLevel0 ix) then .error (if x.level = 0 then .illop else .priv)
  else if write && wordRO x.level ix && (s.wordRefused x ix true).isNone then .error .illop
  else if x.level = 0 then
    if below then
      if wordBanked ix && (s.hasPartition x.sel || (write && wordCreates ix)) then .ok (.part x.sel) else .error .illstate
    else if wordBanked ix && !wordOwn0 ix then .error .illstate
    else .ok .own0
  else if below then
    let a := (s.word (.part x.vmid) 0x003).toNat % 2 ^ 16
    if wordTenant ix && s.hasTenant x.vmid a then .ok (.tenant x.vmid a) else .error .illstate
  else .ok (.part x.vmid)

/-- The bank of a copy. -/
def copyBank (x : Accessor) (cp : Copy) (ix : Nat) : Bank :=
  match cp with
  | .part v => if wordBanked ix || ix == 0x003 || inRuns [(0x288, 0x291)] ix then .part v else .dev
  | .tenant v a => .tenant v a
  | .own0 => if ix = 0x031 then .core x.core else if wordOwn0 ix || ix == 0x003 then .level0 else .dev

/-! ### Selectors -/

def State.partSel (s : State) (v ix : Nat) : Nat := (s.word (.part v) ix).toNat

/-- The bucket that BWSEL names: PART counts at level 0 only. -/
def State.bwSel (s : State) (level v : Nat) : Nat :=
  let x := s.partSel v 0x210
  if bit x 16 ∧ level = 0 then partBucket else x % 2 ^ 16

/-- The selector that a word's copy is addressed through. -/
def State.subOf (s : State) (level : Nat) (cp : Copy) (ix : Nat) : Nat :=
  match cp with
  | .tenant _ _ => 0
  | .own0 =>
    let core := (s.word .dev 0x200).toNat % 256
    if ix = 0x201 ∨ ix = 0x205 then core else if ix = 0x203 then 8 * core + (s.word .dev 0x202).toNat % 8 else 0
  | .part v =>
    if 0x181 ≤ ix ∧ ix ≤ 0x184 then s.partSel v 0x180 % 64
    else if ix = 0x189 ∨ ix = 0x18A then s.partSel v 0x188 % 1024
    else if ix = 0x211 ∨ ix = 0x212 then s.bwSel level v
    else if ix = 0x251 then s.partSel v 0x250 % 16
    else if ix = 0x259 then s.partSel v 0x258 % 16
    else if ix = 0x261 ∨ ix = 0x262 then s.partSel v 0x260 % 16
    else 0

/-! ### Reading -/

/-- CPSTAT. -/
def State.cpstat (s : State) (v : Nat) : DWord :=
  let x := (s.streams.find? (fun x => x.no == v + 1)).getD { no := v + 1 }
  BitVec.ofNat 64 (b2n x.gen + b2n (s.oldHeld x) * 2 + ((assoc s.cpBad (v + 1)).getD 0 % 2 ^ 16) * 2 ^ 32)

/-- Read as zero by level 0 in confidential mode (Table 22-2). -/
def withheld (ix : Nat) : Bool := inRuns [(0x223, 0x223), (0x18C, 0x18C), (0x302, 0x303), (0x285, 0x285)] ix

/-- A word's value. -/
def State.readWord (s : State) (x : Accessor) (cp : Copy) (ix : Nat) : DWord :=
  let stored := s.word (copyBank x cp ix) ix (s.subOf x.level cp ix)
  let n (k : Nat) : DWord := BitVec.ofNat 64 k
  let core := (s.word .dev 0x200).toNat % 256
  if wordWO ix then 0
  else if ix = 0x000 then n x.level
  else if ix = 0x18B then n s.time
  else if ix = 0x2B8 then Config.temperature s.free
  else if 0x299 ≤ ix ∧ ix ≤ 0x2A0 then
    n (bits (s.measure ((s.word .dev 0x298).toNat % 16)).toNat (64 * (ix - 0x299) + 63) (64 * (ix - 0x299)))
  else
    match cp with
    | .own0 =>
      if ix = 0x001 then BitVec.allOnes 64
      else if ix = 0x201 then s.rotWritten core 8
      else if ix = 0x203 then s.rotWritten core ((s.word .dev 0x202).toNat % 8)
      else if ix = 0x291 then n (s.devCount % 2 ^ 32)
      else stored
    | .part v =>
      if x.level = 0 ∧ s.confidential ∧ withheld ix then 0
      else if ix = 0x184 then s.qStat v (s.partSel v 0x180 % 64)
      else if ix = 0x204 then n (s.phi core v)
      else if ix = 0x241 then s.cpstat v
      else if ix = 0x291 then n ((assoc s.partCount v).getD 0 % 2 ^ 32)
      else if ix = 0x210 ∧ x.level ≠ 0 then n (stored.toNat % 2 ^ 16)
      else stored
    | .tenant v _ => if ix = 0x001 then stored &&& s.word (.part v) 0x001 else stored

/-- What a read does beside: FQPROD is an acquire, THERM takes a free value. -/
def State.afterRead (s : State) (x : Accessor) (ix : Nat) : State :=
  if ix = 0x302 then s.acquire x.core 4 else if ix = 0x2B8 then s.usedChoice else s

/-! ### Writing -/

/-- Defined bits of the words that are simply stored. For base words that the tables call only "aligned" or "physical base" (S1ATAB,
QBASE, DLBASE, RTADDR, CHQBASE, RRWIN, RRPBASE, SPILLBASE, FQBASE) the manual gives no bit map: the bits below the alignment are
dropped, and those above a 48-bit physical or guest address, or above a canonical virtual one (DESIGN CHOICE: log entry 68). -/
def wordMask (ix : Nat) : DWord :=
  if ix = 0x002 ∨ ix = 0x030 ∨ ix = 0x180 ∨ ix = 0x283 then 0x3F
  else if ix = 0x003 ∨ ix = 0x101 ∨ ix = 0x102 ∨ ix = 0x108 ∨ ix = 0x18A ∨ ix = 0x240 then 0xFFFF
  else if ix = 0x012 then 0xFFFFFFFFFFFF0000
  else if ix = 0x031 ∨ ix = 0x285 ∨ ix = 0x2A8 then 1
  else if ix = 0x040 ∨ ix = 0x187 ∨ ix = 0x202 then 7
  else if ix = 0x100 ∨ ix = 0x109 ∨ ix = 0x110 ∨ ix = 0x185 then 0x0000FFFFFFFFF000
  else if ix = 0x103 then 0x0000000FFFFFFFFF
  else if ix = 0x104 then 0x0000FFFFFFFFFFFF
  else if ix = 0x107 then 0x0000FFFFC0000000
  else if ix = 0x181 then 0x01FFFFFFFFFFF000
  else if ix = 0x188 then 0x3FF
  else if ix = 0x189 then 0xFFFFFFFFFFFFFFE0
  else if ix = 0x200 then 0xFF
  else if ix = 0x205 then 0x0000FFFFFF800000
  else if ix = 0x210 then 0x1FFFF
  else if ix = 0x250 ∨ ix = 0x258 ∨ ix = 0x260 ∨ ix = 0x298 then 0xF
  else if ix = 0x251 then 0xF8FFFFFFFFFFFFC0
  else if ix = 0x259 then 0xE0FFFFFFFFFFF000
  else if ix = 0x261 then 0xFFFFFFFFE0000000
  else if ix = 0x262 then 0x0000FFFFFFE000FF
  else if ix = 0x270 then 0x3FFFF
  else if ix = 0x300 then 0xFFFFFFFFFFFFF000
  else BitVec.allOnes 64

/-- Some valid leaf of a table lies in a range of addresses, in units of 4 KiB; `level` is the table's. -/
def State.anyLeaf (s : State) (lo hi : Nat) : Nat → Nat → Nat → Bool
  | level, table, first =>
    let span := 512 ^ level
    (List.range 512).any (fun i =>
      let base := first + i * span
      let e := s.hwNum 0 (table + 8 * i) 8
      decide (base < hi ∧ lo < base + span) && bit e 0
        && (bit e 5 || (match level with
          | 0 => false
          | l + 1 => s.anyLeaf lo hi l (bits e 47 12 * 4096) base)))

/-- A peer window that cannot be: it overlaps another window of the partition, or its stage-2 mappings. -/
def State.windowBad (s : State) (v sub : Nat) (w : Nat) : Bool :=
  let lo (x : Nat) : Nat := bits x 47 30
  let hi (x : Nat) : Nat := bits x 47 30 + bits x 55 48 + 1
  bit w 63 && ((List.range 16).any (fun i =>
      let y := (s.word (.part v) 0x251 i).toNat
      i != sub && bit y 63 && decide (lo w < hi y ∧ lo y < hi w))
    || s.anyLeaf (lo w * 2 ^ 18) (hi w * 2 ^ 18) 4 ((s.word (.part v) 0x103).toNat % 2 ^ 36 * 4096) 0)

/-- S2ROOT has been written for a partition since reset. -/
def State.rootWritten (s : State) : Bool := s.words.any (fun w => w.1.ix == 0x103)

/-- The ASIDs of a partition that its range no longer holds: their rights are cleared and their queues stop (R419). -/
def State.dropTenants (s : State) (v : Nat) : State :=
  let lo := s.partSel v 0x101
  let hi := s.partSel v 0x102
  let out (a : Nat) : Bool := decide (a < lo ∨ hi < a)
  let s : State := { s with words := s.words.filter (fun w => match w.1.bank with
    | .tenant u a => !(u == v && out a && w.1.ix == 0x001)
    | .dev | .core _ | .level0 | .part _ => true) }
  (List.range 64).foldl (fun s q => if s.qEn v q && out (s.qAsid v q) then disableQueue v q false s else s) s

/-- A write of QBASE or QCTL (R398, R399, R417). -/
def writeQueue (x : Accessor) (v : Nat) (base : Bool) (value : DWord) (s : State) : Except Raise State :=
  let q := s.partSel v 0x180 % 64
  let rest := s.queues0.filter (fun p => p != (v, q))
  let s : State := { s with queues0 := if x.level = 0 then (v, q) :: rest else rest }
  let old := s.qctl v q
  let new := value.toNat
  let size (c : Nat) : Nat := clampTo 4 16 (bits c 7 2)
  let right (b : Nat) : Bool := (s.rights 1 x.vmid 0).getLsbD b
  if base then
    if bit old 0 then .error { cause := .illstate } else .ok (s.setWord (.part v) 0x181 (value &&& wordMask 0x181) q)
  else if bit old 0 ∧ (size old ≠ size new ∨ bits old 31 16 ≠ bits new 31 16) then .error { cause := .illstate }
  else if x.level ≠ 0 ∧ bit new 0 ∧ !bit old 0 ∧ !right 2 then .error { cause := .right, aux := 2 }
  else if x.level ≠ 0 ∧ ((bits new 10 8 ≠ bits old 10 8 ∧ !right 3) ∨ bits new 10 8 < s.partSel v 0x187) then
    .error { cause := .right, aux := 3 }
  else
    let w := bits new 47 32 * 2 ^ 32 + bits new 31 16 * 2 ^ 16 + bits new 10 8 * 2 ^ 8 + size new * 2 ^ 2 + bits new 1 1 * 2
    let s' := s.setWord (.part v) 0x182 (BitVec.ofNat 64 (w + b2n (bit old 0))) q
    .ok (if bit new 0 then (if bit old 0 then s' else enableQueue v q s') else disableQueue v q (bit new 1) s')

/-- A write of level 0's own words. -/
def writeOwn (x : Accessor) (ix : Nat) (value : DWord) (s : State) : Except Raise State :=
  let n := value.toNat
  let bank := copyBank x .own0 ix
  let core := (s.word .dev 0x200).toNat % 256
  let bad (c : Cause) : Except Raise State := .error { cause := c }
  if 0x107 ≤ ix ∧ ix ≤ 0x109 ∧ s.rootWritten then bad .illstate
  else if ix = 0x201 ∨ ix = 0x203 then
    let e := if ix = 0x201 then 8 else (s.word .dev 0x202).toNat % 8
    match s.rotRefused core e (rotMask e value) with
    | some c => bad c
    | none => .ok (writeRotation core e (rotMask e value) s)
  else if ix = 0x220 then .ok (setEnergyShare none n s)
  else if ix = 0x281 then .ok (if bits n 63 48 = 0xA480 ∧ bit n 1 then requestReset (bit n 0) s else s)
  else if ix = 0x282 then
    if !bit n 8 then .ok s
    else if !s.confidential ∨ bits n 5 0 = 0 then bad .illstate
    else .ok (rekey (bits n 5 0) s)
  else if ix = 0x288 then .ok (errorSnapshot none (n % 256) s)
  else if ix = 0x2A1 then
    let slot := (s.word .dev 0x298).toNat % 16
    if slot < 4 then bad .illstate
    else if Config.memLimit < n / 64 * 64 + 64 then .error { cause := .addr, addr := n / 64 * 64, aux := 64 }
    else .ok (measurementExtend slot n s)
  else if ix = 0x2B0 then .ok (if bit n 8 then restartCore (bits n 7 0) s else s)
  else if ix = 0x300 then .ok { s.setWord bank ix (value &&& wordMask ix) with fqStuck := false }
  else if ix = 0x301 then .ok (s.setWord bank ix (BitVec.ofNat 64 (clampTo 4 16 n)))
  else if ix = 0x303 then .ok (setFqcons none n s)
  else if ix = 0x304 then .ok (fqdone none (bits n 31 0) (bits n 33 32) s)
  else if ix = 0x305 then bad .illstate
  else .ok (s.setWord bank ix (value &&& wordMask ix) (s.subOf x.level .own0 ix))

/-- A write of a partition's words. -/
def writePart (x : Accessor) (v : Nat) (ix : Nat) (value : DWord) (s : State) : Except Raise State :=
  let n := value.toNat
  let sub := s.subOf x.level (.part v) ix
  let bad (c : Cause) : Except Raise State := .error { cause := c }
  let plain : State := s.setWord (copyBank x (.part v) ix) ix (value &&& wordMask ix) sub
  if ix = 0x010 then
    .ok { plain with himgAsid := if x.level = 0 then assocDel s.himgAsid v else assocSet s.himgAsid v x.asid }
  else if ix = 0x041 then .ok (cadesc v x.asid n s)
  else if ix = 0x101 ∨ ix = 0x102 then .ok (if s.hasPartition v then plain.dropTenants v else plain)
  else if ix = 0x111 then .ok (s.setWord (.part v) ix (BitVec.ofNat 64 (clampTo 6 20 n)))
  else if ix = 0x113 then .ok (setDlcons v n s)
  else if ix = 0x181 ∨ ix = 0x182 then writeQueue x v (ix == 0x181) value s
  else if ix = 0x211 then
    if rateOk n then .ok (setBandwidth v sub n (s.bwDepth v sub) s) else bad .illop
  else if ix = 0x212 then
    if depthOk n then .ok (setBandwidth v sub (s.bwRate v sub) n s) else bad .illop
  else if ix = 0x210 then .ok (s.setWord (.part v) ix (if x.level = 0 then value &&& 0x1FFFF else value &&& 0xFFFF))
  else if ix = 0x221 then .ok (setEnergyShare (some v) n s)
  else if ix = 0x230 ∨ ix = 0x231 then .ok (setVtime v (ix == 0x231) value s)
  else if ix = 0x251 then if s.windowBad v sub (value &&& wordMask ix).toNat then bad .illop else .ok plain
  else if ix = 0x285 ∧ s.confidential then bad .illstate
  else if ix = 0x288 then .ok (errorSnapshot (some v) (n % 256) s)
  else if ix = 0x2A8 ∧ x.level = 0 ∧ s.confidential then bad .illstate
  else if ix = 0x301 then .ok (s.setWord (.part v) ix (BitVec.ofNat 64 (clampTo 4 16 n)))
  else if ix = 0x303 then .ok (setFqcons (some v) n s)
  else if ix = 0x304 then .ok (fqdone (some v) (bits n 31 0) (bits n 33 32) s)
  else .ok plain

/-- A write of a copy. -/
def writeWord (x : Accessor) (cp : Copy) (ix : Nat) (value : DWord) (s : State) : Except Raise State :=
  match cp with
  | .own0 => writeOwn x ix value s
  | .part v => writePart x v ix value s
  | .tenant v a => .ok (s.setWord (.tenant v a) ix (value &&& wordMask ix))

/-- Read a control word: its value, or the event. -/
def readControl (x : Accessor) (below : Bool) (ix : Nat) (s : State) : Except Raise (DWord × State) :=
  match s.copyOf x below ix false with
  | .error c => .error { cause := c }
  | .ok cp =>
    match s.wordRefused x ix false with
    | some r => .error r
    | none => .ok (s.readWord x cp ix, s.afterRead x ix)

/-- Write a control word. -/
def writeControl (x : Accessor) (below : Bool) (ix : Nat) (value : DWord) (s : State) : Except Raise State :=
  match s.copyOf x below ix true with
  | .error c => .error { cause := c }
  | .ok cp =>
    match s.wordRefused x ix true with
    | some r => .error r
    | none => writeWord x cp ix value s

/-! ### CRD and CWR -/

/-- The issuing class as an accessor. -/
def State.accessor (s : State) : Accessor :=
  { level := s.cls.level, core := s.cls.core, vmid := s.cls.vmid, asid := s.cls.asid,
    sel := (s.word .dev 0x002).toNat % 64 }

/-- CRD. -/
def execCrd (rd : Reg) (below : Bool) (ix : BitVec 10) (s : State) : Out :=
  .next (guarded (.crd rd below ix) (fun s =>
    if 2 ≤ s.cls.level then raise { cause := .priv } s
    else
      match readControl s.accessor below ix.toNat s with
      | .error r => raise r s
      | .ok (x, s) => retire (s.setS rd x)) s)

/-- The group completes for the class that issued it, if the write has left it alive. -/
def retireFor (id : Nat) (iss : Issue) (s : State) : State :=
  let s := { s.focus id with iss := iss }
  if s.cls.id = id ∧ s.cls.live then retire s else s

/-- CWR: FQDONE and CADESC issue only when SOC is zero (R142, R385); a write that resets the machine leaves no class to go on. -/
def execCwr (ra : Reg) (below : Bool) (ix : BitVec 10) (s : State) : Out :=
  .next (guarded (.cwr ra below ix) (fun s =>
    if 2 ≤ s.cls.level then raise { cause := .priv } s
    else
      match s.copyOf s.accessor below ix.toNat true with
      | .error c => raise { cause := c } s
      | .ok cp =>
        match s.wordRefused s.accessor ix.toNat true with
        | some r => raise r s
        | none =>
          if (ix = 0x304 ∨ ix = 0x041) ∧ s.cls.soc ≠ 0 then hold s
          else
            match writeWord s.accessor cp ix.toNat (s.getS ra) s with
            | .error r => raise r s
            | .ok s' => if s'.resetNo = s.resetNo then retireFor s.cls.id s.iss s' else s') s)

/-! ### RIGHTS (R332, R333, R338, R349) -/

/-- The target of GRANT and REVOKE: the partition, and the tenant if one is named. -/
def State.rightsTarget (s : State) (a : DWord) : Option (Nat × Option Nat) :=
  let x := a.toNat
  let kind := bits x 63 62
  let v := if s.cls.level = 0 then bits x 21 16 else s.cls.vmid
  if bits x 61 22 ≠ 0 ∨ 2 ≤ kind ∨ (s.cls.level ≠ 0 ∧ bits x 21 16 ≠ 0) ∨ !s.hasPartition v then none
  else if kind = 0 then (if bits x 15 0 = 0 then some (v, none) else none)
  else if s.hasTenant v (bits x 15 0) then some (v, some (bits x 15 0))
  else none

/-- The lowest bit of b outside p. -/
def firstOutside (b p : DWord) : Nat := ((List.range 64).find? (fun i => b.getLsbD i && !p.getLsbD i)).getD 0

/-- Add bits to a rights word, or remove them; bits removed from a partition go from every tenant of it too. -/
def changeRights (grant : Bool) (v : Nat) (a : Option Nat) (b : DWord) (s : State) : State :=
  let f (x : DWord) : DWord := if grant then x ||| b else x &&& ~~~ b
  match a with
  | some a => s.setWord (.tenant v a) 0x001 (f (s.word (.tenant v a) 0x001))
  | none =>
    let s := s.setWord (.part v) 0x001 (f (s.word (.part v) 0x001))
    if grant then s
    else
      { s with words := s.words.map (fun w => match w.1.bank with
          | .tenant u _ => if u = v ∧ w.1.ix = 0x001 then (w.1, w.2 &&& ~~~ b) else w
          | .dev | .core _ | .level0 | .part _ => w) }

/-- GRANT and REVOKE: level, then right, then operands. -/
def rightsOp (grant : Bool) (rd ra rb : Reg) (s : State) : State :=
  let b := s.getS rb
  let p := s.rights s.cls.level s.cls.vmid s.cls.asid
  if 2 ≤ s.cls.level ∨ (s.cls.level = 1 ∧ bits (s.getS ra).toNat 63 62 = 0) then raise { cause := .priv } s
  else if grant ∧ s.cls.level = 1 ∧ b &&& ~~~ p ≠ 0 then raise { cause := .right, aux := firstOutside b p } s
  else
    match s.rightsTarget (s.getS ra) with
    | none => retire (s.setS rd statusBadarg)
    | some (v, a) =>
      if bits b.toNat 63 10 ≠ 0 then retire (s.setS rd statusBadarg)
      else retire ((changeRights grant v a b s).setS rd statusDone)

/-- RIGHTS.GRANT. -/
def execRightsGrant (rd ra rb : Reg) (s : State) : Out := .next (guarded (.rightsGrant rd ra rb) (rightsOp true rd ra rb) s)

/-- RIGHTS.REVOKE. -/
def execRightsRevoke (rd ra rb : Reg) (s : State) : Out := .next (guarded (.rightsRevoke rd ra rb) (rightsOp false rd ra rb) s)

/-- A cause that Table 16-7 does not reserve. -/
def causeDefined (c : Nat) : Bool := decide (c < 0x1F) && c != 0 && c != 0x17 && c != 0x1A

/-- Write one entry of a partition's routing table. -/
def setRoute (v c e : Nat) (s : State) : State :=
  let ix := if c < 16 then 0x020 else 0x021
  let lo := 4 * (c % 16)
  s.setWord (.part v) ix (BitVec.ofNat 64 (setBits (s.word (.part v) ix).toNat (lo + 3) lo e))

/-- RIGHTS.ROUTE: the old entry; a refusal has bit 63 set and its status in bits 39:32. -/
def execRightsRoute (rd ra rb : Reg) (s : State) : Out :=
  .next (guarded (.rightsRoute rd ra rb) (fun s =>
    let a := (s.getS ra).toNat
    let e := (s.getS rb).toNat
    let v := if s.cls.level = 0 then bits a 21 16 else s.cls.vmid
    let c := bits a 7 0
    let old := s.routeEntry v c
    let no (st x : Nat) : State := retire (s.setS rd (BitVec.ofNat 64 (2 ^ 63 + st * 2 ^ 32 + x)))
    if 2 ≤ s.cls.level then raise { cause := .priv } s
    else if bits a 63 22 ≠ 0 ∨ bits a 15 8 ≠ 0 ∨ (s.cls.level ≠ 0 ∧ bits a 21 16 ≠ 0) ∨ !s.hasPartition v ∨ !causeDefined c
        ∨ 8 ≤ e ∨ e % 4 = 3 then no statusBadarg.toNat 0
    else if c = 0x1B ∨ c = 0x1C ∨ (s.cls.level ≠ 0 ∧ (bit old 2 ∨ bit e 2 ∨ e % 4 = 0)) then no statusPinned.toNat old
    else retire ((setRoute v c e s).setS rd (BitVec.ofNat 64 old))) s)

end Sys2Proof.Machine
end

