-- ==== Sys2Proof/Machine/LaneInt.lean ====
section
/-!
DEFINITION. Lane integer arithmetic and the integer reduction (11_isa_vector.md R229–R239, R249).
-/

namespace Sys2Proof.Machine

/-- The low half of a scalar, as every lane sees it (R229). -/
def State.lowS (s : State) (r : Reg) : Word := (s.getS r).setWidth 32

/-- VALU (R232). -/
def execValu (p : Pfx) (fn : AluFn) (rd ra rb : Reg) (s : State) : Out :=
  .next (guarded (.valu p fn rd ra rb) (fun s => laneOp p rd (fun i => alu fn (s.getV ra i) (s.getV rb i)) s) s)

/-- VALUS (R232). -/
def execValus (p : Pfx) (fn : AluFn) (rd ra rb : Reg) (s : State) : Out :=
  .next (guarded (.valus p fn rd ra rb) (fun s => laneOp p rd (fun i => alu fn (s.getV ra i) (s.lowS rb)) s) s)

/-- VMAD (R233): v[rd] is the addend. -/
def execVmad (p : Pfx) (fn : MadFn) (rd ra rb : Reg) (s : State) : Out :=
  .next (guarded (.vmad p fn rd ra rb) (fun s =>
    laneOp p rd (fun i => mad fn (s.getV ra i) (s.laneB (Pfxp.rbsOf p) rb i) (s.getV rd i)) s) s)

/-- VCMP (R234). -/
def execVcmp (p : Pfx) (fn : CmpFn) (kd : Reg3) (ra rb : Reg) (s : State) : Out :=
  .next (guarded (.vcmp p fn kd ra rb) (fun s =>
    laneCmp p kd (fun i => ⟨cmp fn (s.getV ra i) (s.getV rb i), 0⟩) s) s)

/-- VCMPS (R234). -/
def execVcmps (p : Pfx) (fn : CmpFn) (kd : Reg3) (ra rb : Reg) (s : State) : Out :=
  .next (guarded (.vcmps p fn kd ra rb) (fun s =>
    laneCmp p kd (fun i => ⟨cmp fn (s.getV ra i) (s.lowS rb), 0⟩) s) s)

/-- The source of VUN: a lane register, the low half of a scalar for BCST, the lane index for LANE (R235). -/
def vunSource (s : State) (fn : VunFn) (ra : Reg) (i : Nat) : Word :=
  match fn with
  | .bcst => s.lowS ra
  | .lane => BitVec.ofNat 32 i
  | .mov | .not | .neg | .abs | .clz | .popc | .brev | .sextb | .sexth | .zextb | .zexth => s.getV ra i

/-- VUN (R235). -/
def execVun (p : Pfx) (fn : VunFn) (rd ra : Reg) (s : State) : Out :=
  .next (guarded (.vun p fn rd ra) (fun s => laneOp p rd (fun i => ⟨vunary fn (vunSource s fn ra i), 0⟩) s) s)

/-- VSEL (R236): k0 reads as the active mask. -/
def execVsel (p : Pfx) (rd ra rb : Reg) (k : Reg3) (s : State) : Out :=
  .next (guarded (.vsel p rd ra rb k) (fun s =>
    let m := s.getK k
    laneOp p rd (fun i => ⟨if m.getLsbD i then s.getV ra i else s.laneB (Pfxp.rbsOf p) rb i, 0⟩) s) s)

/-- VADDI (R237): bits 31:0 of the immediate. -/
def execVaddi (x : Imx) (p : Pfx) (rd ra : Reg) (imm : BitVec 11) (s : State) : Out :=
  .next (guarded (.vaddi x p rd ra imm) (fun s =>
    laneOp p rd (fun i => ⟨s.getV ra i + (imm64 x imm).setWidth 32, 0⟩) s) s)

/-- VSHI (R238). -/
def execVshi (p : Pfx) (kind : ShiftKind) (rd ra : Reg) (n : BitVec 5) (s : State) : Out :=
  .next (guarded (.vshi p kind rd ra n) (fun s => laneOp p rd (fun i => ⟨shiftK kind (s.getV ra i) n.toNat, 0⟩) s) s)

/-- VPACK (R239). -/
def execVpack (p : Pfx) (fn : PackFn) (rd ra rb : Reg) (s : State) : Out :=
  .next (guarded (.vpack p fn rd ra rb) (fun s =>
    laneOp p rd (fun i => ⟨vpack fn (s.getV ra i) (s.laneB (Pfxp.rbsOf p) rb i) (s.getV rd i), 0⟩) s) s)

/-- Fold a list that has a first element. -/
def foldFirst {α : Type} (f : α → α → α) (d : α) : List α → α
  | [] => d
  | x :: xs => xs.foldl f x

/-- REDI (R249): the exact sum, or the extreme or bitwise result, of every live lane. -/
def rediValue (fn : RedFn) (xs : List Word) : DWord :=
  match fn with
  | .add => xs.foldl (fun acc x => acc + x.signExtend 64) 0
  | .min => (foldFirst (fun a b => (alu .min a b).val) 0 xs).signExtend 64
  | .max => (foldFirst (fun a b => (alu .max a b).val) 0 xs).signExtend 64
  | .minn => (foldFirst (fun a b => (alu .minn a b).val) 0 xs).setWidth 64
  | .maxn => (foldFirst (fun a b => (alu .maxn a b).val) 0 xs).setWidth 64
  | .and => (foldFirst (fun a b => a &&& b) 0 xs).setWidth 64
  | .or => (foldFirst (fun a b => a ||| b) 0 xs).setWidth 64
  | .xor => (foldFirst (fun a b => a ^^^ b) 0 xs).setWidth 64

def execRedi (fn : RedFn) (rd ra : Reg) (s : State) : Out :=
  .next (guarded (.redi fn rd ra) (classWide (fun s =>
    scalarOp rd ⟨rediValue fn ((List.range s.cls.lanes).map (fun i => s.getV ra i)), 0⟩ s)) s)

end Sys2Proof.Machine
end

