-- ==== Sys2Proof/Machine/LaneFp.lean ====
section
/-!
DEFINITION. Lane floating point, packed pairs, conversions and the float reduction (11_isa_vector.md R240–R250; 04_numbers.md
R74–R92).
-/

namespace Sys2Proof.Machine

/-- FALU and FALUS on F32 (R240). -/
def falu (fn : FaluFn) (a b : Word) : Fl Word :=
  let x := f32 a
  let y := f32 b
  match fn with
  | .add => (F32.add x y).word
  | .sub => (F32.sub x y).word
  | .mul => (F32.mul x y).word
  | .min => (F32.minMax false false a.toNat b.toNat).word
  | .max => (F32.minMax true false a.toNat b.toNat).word
  | .minm => (F32.minMax false true a.toNat b.toNat).word
  | .maxm => (F32.minMax true true a.toNat b.toNat).word
  | .absd => (F32.absR (F32.sub x y)).word
  | .copys =>
    let fl := flagIf (x.isSig || y.isSig) fNV
    if x.isNan then ⟨0x7FC00000, fl⟩ else ⟨(a &&& 0x7FFFFFFF) ||| (b &&& 0x80000000), fl⟩
  | .scalb =>
    match x with
    | .nan sg => ⟨0x7FC00000, flagIf sg fNV⟩
    | .inf _ => ⟨a, 0⟩
    | .fin n m e => if m = 0 then ⟨a, 0⟩ else (F32.rne n m (e + b.toInt)).word

/-- FFMA (R241): signs applied to the exact product and addend, one rounding. -/
def ffma (fn : FmaFn) (a b c : Word) : Fl Word :=
  let x := f32 a
  let y := f32 b
  let z := f32 c
  match fn with
  | .fma => (F32.fma x y z).word
  | .fms => (F32.fma x y z.neg).word
  | .nfma => (F32.fma x.neg y z.neg).word
  | .nfms => (F32.fma x.neg y z).word

/-- FCMP (R242). -/
def fcmp (fn : FcmpFn) (a b : Word) : Fl Bool :=
  let x := f32 a
  let y := f32 b
  let un := x.isNan || y.isNan
  let sig := x.isSig || y.isSig
  match fn with
  | .eq => ⟨x.eqV y, flagIf sig fNV⟩
  | .ne => ⟨!x.eqV y, flagIf sig fNV⟩
  | .lt => ⟨x.lt y, flagIf un fNV⟩
  | .le => ⟨x.lt y || x.eqV y, flagIf un fNV⟩
  | .gt => ⟨y.lt x, flagIf un fNV⟩
  | .ge => ⟨y.lt x || x.eqV y, flagIf un fNV⟩
  | .un => ⟨un, flagIf sig fNV⟩
  | .ord => ⟨!un, flagIf sig fNV⟩

/-- FUN (R243, R91, R92). -/
def funit (fn : FunFn) (a : Word) : Fl Word :=
  match fn with
  | .abs => (F32.signOp true a.toNat).word
  | .neg => (F32.signOp false a.toNat).word
  | .rcp => rcpF a
  | .rsq => rsqF a
  | .sqrt => sqrtF a
  | .exp2 => exp2F a
  | .log2 => log2F a
  | .tanh => tanhF a
  | .sinpi => sinpiF a
  | .cospi => cospiF a
  | .floor => integral .rd a
  | .ceil => integral .ru a
  | .trunc => integral .rz a
  | .rint => integral .rne a
  | .cls => classF a
  | .frac => fracF a

/-- FALU (R240). -/
def execFalu (p : Pfx) (fn : FaluFn) (rd ra rb : Reg) (s : State) : Out :=
  .next (guarded (.falu p fn rd ra rb) (fun s => laneOp p rd (fun i => falu fn (s.getV ra i) (s.getV rb i)) s) s)

/-- FALUS (R240). -/
def execFalus (p : Pfx) (fn : FaluFn) (rd ra rb : Reg) (s : State) : Out :=
  .next (guarded (.falus p fn rd ra rb) (fun s => laneOp p rd (fun i => falu fn (s.getV ra i) (s.lowS rb)) s) s)

/-- FFMA (R241): v[rd] is the addend; bit 3 of fn makes b a scalar. -/
def execFfma (p : Pfx) (fn : FmaFn) (scalar : Bool) (rd ra rb : Reg) (s : State) : Out :=
  .next (guarded (.ffma p fn scalar rd ra rb) (fun s =>
    laneOp p rd (fun i => ffma fn (s.getV ra i) (s.laneB scalar rb i) (s.getV rd i)) s) s)

/-- FCMP (R242). -/
def execFcmp (p : Pfx) (fn : FcmpFn) (kd : Reg3) (ra rb : Reg) (s : State) : Out :=
  .next (guarded (.fcmp p fn kd ra rb) (fun s =>
    laneCmp p kd (fun i => fcmp fn (s.getV ra i) (s.laneB (Pfxp.rbsOf p) rb i)) s) s)

/-- FUN (R243). -/
def execFunit (p : Pfx) (fn : FunFn) (rd ra : Reg) (s : State) : Out :=
  .next (guarded (.funit p fn rd ra) (fun s => laneOp p rd (fun i => funit fn (s.getV ra i)) s) s)

/-! ### Packed 16-bit pairs -/

/-- Element e of a packed pair (R73). -/
def half (a : Word) (e : Nat) : Nat := bits a.toNat (16 * e + 15) (16 * e)

/-- Two elements as one word, with both elements' flags (R244). -/
def pairOf (lo hi : Fl Nat) : Fl Word := ⟨BitVec.ofNat 32 (lo.val + hi.val * 2 ^ 16), lo.flags ||| hi.flags⟩

def pairFmt (bf : Bool) : Fmt := if bf then BF16 else F16

/-- One element of HALU (R244). -/
def haluElem (f : Fmt) (fn : HaluFn) (x y : Nat) : Fl Nat :=
  match fn with
  | .add2 => f.add (f.decode x) (f.decode y)
  | .sub2 => f.sub (f.decode x) (f.decode y)
  | .mul2 => f.mul (f.decode x) (f.decode y)
  | .min2 => f.minMax false false x y
  | .max2 => f.minMax true false x y
  | .neg2 => f.signOp false x
  | .abs2 => f.signOp true x

def halu (bf : Bool) (fn : HaluFn) (a b : Word) : Fl Word :=
  pairOf (haluElem (pairFmt bf) fn (half a 0) (half b 0)) (haluElem (pairFmt bf) fn (half a 1) (half b 1))

/-- HALU (R244). -/
def execHalu (p : Pfx) (bf : Bool) (fn : HaluFn) (rd ra rb : Reg) (s : State) : Out :=
  .next (guarded (.halu p bf fn rd ra rb) (fun s =>
    laneOp p rd (fun i => halu bf fn (s.getV ra i) (s.laneB (Pfxp.rbsOf p) rb i)) s) s)

/-- FMA2: each element in the element format (R245). -/
def hfma2 (bf : Bool) (a b d : Word) : Fl Word :=
  let f := pairFmt bf
  let el (e : Nat) : Fl Nat := f.fma (f.decode (half a e)) (f.decode (half b e)) (f.decode (half d e))
  pairOf (el 0) (el 1)

/-- FMA2.WIDE: element e times element e, added in F32 to v[rd+e] (R245). -/
def hfmaWide (bf : Bool) (e : Nat) (a b c : Word) : Fl Word :=
  let f := pairFmt bf
  (F32.fma (f.decode (half a e)) (f.decode (half b e)) (f32 c)).word

/-- HFMA (R245): the wide form writes a pair, every source read before either register is written. -/
def execHfma (p : Pfx) (bf wide : Bool) (rd ra rb : Reg) (s : State) : Out :=
  .next (guarded (.hfma p bf wide rd ra rb) (fun s =>
    let b := s.laneB (Pfxp.rbsOf p) rb
    if wide then
      let eff := s.eff p
      let r (e i : Nat) : Fl Word := hfmaWide bf e (s.getV ra i) (b i) (s.getV (rd + BitVec.ofNat 7 e) i)
      let fl := flagsOver s.cls.lanes eff (fun i => (r 0 i).flags ||| (r 1 i).flags)
      retire (((s.orFlags fl).setV rd eff (fun i => (r 0 i).val)).setV (rd + 1) eff (fun i => (r 1 i).val))
    else laneOp p rd (fun i => hfma2 bf (s.getV ra i) (b i) (s.getV rd i)) s) s)

/-! ### Conversions -/

/-- CVT (R246): b is the high element of the pair forms. -/
def cvt (fn : CvtFn) (a b : Word) : Fl Word :=
  match fn with
  | .f32I32 => (F32.ofInt a.toInt).word
  | .f32N32 => (F32.ofInt a.toNat).word
  | .i32F32Rz => toInt32 true .rz (f32 a)
  | .i32F32Rne => toInt32 true .rne (f32 a)
  | .i32F32Rd => toInt32 true .rd (f32 a)
  | .i32F32Ru => toInt32 true .ru (f32 a)
  | .n32F32Rz => toInt32 false .rz (f32 a)
  | .n32F32Rne => toInt32 false .rne (f32 a)
  | .f16x2 => pairOf (F16.convert .rne .ieee (f32 a)) (F16.convert .rne .ieee (f32 b))
  | .bf16x2 => pairOf (BF16.convert .rne .ieee (f32 a)) (BF16.convert .rne .ieee (f32 b))
  | .bf16x2Rz => pairOf (BF16.convert .rz .ieee (f32 a)) (BF16.convert .rz .ieee (f32 b))
  | .f16l => (widen F16 (half a 0)).word
  | .f16h => (widen F16 (half a 1)).word
  | .bf16l => (widen BF16 (half a 0)).word
  | .bf16h => (widen BF16 (half a 1)).word

/-- CVT (R246). -/
def execCvt (p : Pfx) (fn : CvtFn) (rd ra rb : Reg) (s : State) : Out :=
  .next (guarded (.cvt p fn rd ra rb) (fun s =>
    laneOp p rd (fun i => cvt fn (s.getV ra i) (s.laneB (Pfxp.rbsOf p) rb i)) s) s)

/-- CVT8 pack: two bytes into one half, the other half kept (R247). -/
def cvt8Pack (e5 hi sat : Bool) (a b d : Word) : Fl Word :=
  let lo := toFp8 e5 sat (f32 a)
  let up := toFp8 e5 sat (f32 b)
  let h : BitVec 16 := BitVec.ofNat 16 (lo.val + up.val * 2 ^ 8)
  ⟨if hi then h ++ d.extractLsb' 0 16 else d.extractLsb' 16 16 ++ h, lo.flags ||| up.flags⟩

def execCvt8Pack (p : Pfx) (e5 hi sat : Bool) (rd ra rb : Reg) (s : State) : Out :=
  .next (guarded (.cvt8Pack p e5 hi sat rd ra rb) (fun s =>
    laneOp p rd (fun i => cvt8Pack e5 hi sat (s.getV ra i) (s.laneB (Pfxp.rbsOf p) rb i) (s.getV rd i)) s) s)

/-- CVT8 unpack: the exact F32 of one byte (R247). -/
def cvt8Unpack (e5 : Bool) (byte : BitVec 2) (a : Word) : Fl Word :=
  (widen (if e5 then E5M2 else E4M3) (bits a.toNat (8 * byte.toNat + 7) (8 * byte.toNat))).word

def execCvt8Unpack (p : Pfx) (e5 : Bool) (byte : BitVec 2) (rd ra : Reg) (s : State) : Out :=
  .next (guarded (.cvt8Unpack p e5 byte rd ra) (fun s => laneOp p rd (fun i => cvt8Unpack e5 byte (s.getV ra i)) s) s)

/-- The E4M3 byte of a narrow element (R72): every value is exact. -/
def expdByte (kind : ExpdKind) (c : Nat) : Nat :=
  let fp (f : Fmt) : Nat := (E4M3.convert .rne .saturate (f.decode c)).val
  match kind with
  | .int4 => (E4M3.ofInt (sextN 4 c)).val
  | .nat4 => (E4M3.ofInt c).val
  | .e2m1 => fp E2M1
  | .e3m2 => fp E3M2
  | .e2m3 => fp E2M3
  | .lut => 0

/-- EXPD (R248): the four bytes of v[rd]; `cb` is the lane's codebook word. -/
def expdLane (kind : ExpdKind) (hi : Bool) (a : Word) (cb : Nat → Word) : Word :=
  let nib (j : Nat) : Nat := let e := if hi then j + 4 else j; bits a.toNat (4 * e + 3) (4 * e)
  let six (j : Nat) : Nat := let e := if hi then 4 else j; bits a.toNat (6 * e + 5) (6 * e)
  let b (j : Nat) : Nat :=
    match kind with
    | .lut => bits (cb (nib j / 4)).toNat (8 * (nib j % 4) + 7) (8 * (nib j % 4))
    | .int4 | .nat4 | .e2m1 => expdByte kind (nib j)
    | .e3m2 | .e2m3 => if hi && j != 0 then 0 else expdByte kind (six j)
  BitVec.ofNat 32 (b 0 + b 1 * 2 ^ 8 + b 2 * 2 ^ 16 + b 3 * 2 ^ 24)

def execExpd (p : Pfx) (kind : ExpdKind) (hi : Bool) (rd ra rb : Reg) (s : State) : Out :=
  .next (guarded (.expd p kind hi rd ra rb) (fun s =>
    laneOp p rd (fun i => ⟨expdLane kind hi (s.getV ra i) (fun j => s.getV (rb + BitVec.ofNat 7 j) i), 0⟩) s) s)

/-! ### Reduction -/

/-- One level of the tree of R90: neighbours combined, with their flags. -/
def treeLevel (f : Word → Word → Fl Word) : List Word → Fl (List Word)
  | a :: b :: xs =>
    let r := treeLevel f xs
    let c := f a b
    ⟨c.val :: r.val, c.flags ||| r.flags⟩
  | xs => ⟨xs, 0⟩

/-- n levels of the tree. -/
def treeLevels (f : Word → Word → Fl Word) : Nat → List Word → Fl (List Word)
  | 0, xs => ⟨xs, 0⟩
  | n + 1, xs =>
    let r := treeLevel f xs
    let q := treeLevels f n r.val
    ⟨q.val, r.flags ||| q.flags⟩

/-- REDF's operation on two values (R90). -/
def redfOp (fn : RedfFn) (a b : Word) : Fl Word :=
  match fn with
  | .add => falu .add a b
  | .min => falu .min a b
  | .max => falu .max a b

/-- REDF: five levels in each word of 32 lanes, then the words in ascending order (R90). -/
def redfValue (fn : RedfFn) (words : List (List Word)) : Fl Word :=
  let ws := words.map (fun w => treeLevels (redfOp fn) 5 w)
  let fl := ws.foldl (fun acc r => acc ||| r.flags) 0
  match ws.map (fun r => r.val.headD 0) with
  | [] => ⟨0, fl⟩
  | x :: xs => xs.foldl (fun acc y => let c := redfOp fn acc.val y; ⟨c.val, acc.flags ||| c.flags⟩) ⟨x, fl⟩

def execRedf (fn : RedfFn) (rd ra : Reg) (s : State) : Out :=
  .next (guarded (.redf fn rd ra) (classWide (fun s =>
    let words := (List.range (s.cls.lanes / 32)).map (fun w => (List.range 32).map (fun i => s.getV ra (32 * w + i)))
    let r := redfValue fn words
    scalarOp rd ⟨r.val.setWidth 64, r.flags⟩ s)) s)

end Sys2Proof.Machine
end

