-- ==== Sys2Proof/Machine/Gcm.lean ====
section
/-!
DEFINITION. AES-256-GCM (R4, R430; NIST SP 800-38D) with a 96-bit IV: encryption in counter mode, and the tag over header and
ciphertext. A block is a number of 128 bits, its first byte the most significant.
-/

namespace Sys2Proof.Machine

/-- The number of a block, and the bytes of one. -/
def beNum (l : List Byte) : Nat := ofBytes l.reverse
def beBytes (n x : Nat) : List Byte := (toBytes n x).reverse

/-- The blocks of some bytes, the last filled up with zeros. -/
def gcmBlocks (l : List Byte) : List Nat :=
  (List.range ((l.length + 15) / 16)).map (fun i => beNum ((List.range 16).map (fun j => l.getD (16 * i + j) 0)))

/-- z plus y times the bits of x below bit n, bit 127 being the constant term. -/
def gcmMulFrom (x : Nat) : Nat → Nat → Nat → Nat
  | 0, _, z => z
  | n + 1, y, z =>
    gcmMulFrom x n (Nat.xor (Nat.div y 2) (Nat.mul (Nat.mod y 2) (0xE1 * 2 ^ 120))) (Nat.xor z (Nat.mul y (Nat.mod (Nat.shiftRight x n) 2)))

/-- The product in GF(2¹²⁸). -/
def gcmMul (x y : Nat) : Nat := gcmMulFrom x 128 y 0

def ghash (h : Nat) (blocks : List Nat) : Nat := blocks.foldl (fun y b => gcmMul (y ^^^ b) h) 0

/-- The cipher on one block. -/
def aesBlock (key : BitVec 256) (block : Nat) : Nat :=
  beNum ((aesEncrypt (roundKeys ((toBytes 32 key.toNat).map (fun b => b.toNat))) ((beBytes 16 block).map (fun b => b.toNat))).map
    (BitVec.ofNat 8))

/-- The counter block of an IV. -/
def gcmCounter (iv : List Byte) (n : Nat) : Nat := beNum (iv ++ beBytes 4 n)

/-- Encrypt, which is to decrypt. -/
def gcmCrypt (key : BitVec 256) (iv : List Byte) (data : List Byte) : List Byte :=
  ((gcmBlocks data).zipIdx.flatMap (fun p => beBytes 16 (p.1 ^^^ aesBlock key (gcmCounter iv (p.2 + 2))))).take data.length

/-- The 16-byte tag over additional data and ciphertext. -/
def gcmTag (key : BitVec 256) (iv : List Byte) (aad text : List Byte) : List Byte :=
  let lengths := 8 * aad.length * 2 ^ 64 + 8 * text.length
  beBytes 16 (aesBlock key (gcmCounter iv 1) ^^^ ghash (aesBlock key 0) (gcmBlocks aad ++ gcmBlocks text ++ [lengths]))

end Sys2Proof.Machine
end

