-- ==== Sys2Proof/Machine/Ports.lean ====
section
/-!
DEFINITION. The control port (20_partitions.md R430–R432), requests that arrive over a peer link (R434), the switch's request for a
replica (R435), and the tokens that they wait for (R422).
-/

namespace Sys2Proof.Machine

/-! ### Accepting a message (R430) -/

/-- A message is discarded, counted and answered with nothing. -/
def discard (stream : Nat) (s : State) : State :=
  { s with cpBad := assocSet s.cpBad stream (((assoc s.cpBad stream).getD 0 + 1) % 2 ^ 16) }

/-- A header flit (Table 20-3). -/
def cpHeader (type_ : Nat) (m : CpMsg) : List Byte :=
  toBytes 64 (type_ % 256 + m.stream % 256 * 2 ^ 8 + m.gen % 2 * 2 ^ 16 + m.rsvLo % 2 ^ 15 * 2 ^ 17 + m.tag % 2 ^ 16 * 2 ^ 32
    + m.len % 2 ^ 16 * 2 ^ 48 + m.addr % 2 ^ 64 * 2 ^ 64 + m.nonce % 2 ^ 96 * 2 ^ 128 + m.rsvHi * 2 ^ 224)

/-- NONCE as an IV: its bytes as they lie in the flit. -/
def cpIv (nonce : Nat) : List Byte := toBytes 12 nonce

/-- A tag flit: 16 bytes of the tag, then zeros. -/
def tagFlit (key : BitVec 256) (nonce : Nat) (header text : List Byte) : List Byte :=
  gcmTag key (cpIv nonce) header text ++ List.replicate 48 0

/-- The message has its payload flits, and its tag is the one of its header and its payload. -/
def authentic (key : BitVec 256) (type_ : Nat) (m : CpMsg) : Bool :=
  m.payload.length == cdiv m.len 64 * 64 && m.mac == tagFlit key m.nonce (cpHeader type_ m) m.payload

/-- The message with its payload decrypted. -/
def openMsg (m : CpMsg) (key : BitVec 256) : CpMsg := { m with payload := (gcmCrypt key (cpIv m.nonce) m.payload).take m.len }

/-- The fields of a header that must be zero, and their ranges. -/
def cpFieldsOk (m : CpMsg) : Bool := m.rsvHi == 0 && m.rsvLo == 0 && decide (m.gen < 2 ∧ m.len ≤ 4096)

/-- The stream's state, its generation's keys and its counters let the message in: its keys of that generation. `current`: its GEN must
be the current one, as a request's must; a KEYSW names the one to come. -/
def State.admitsMsg (s : State) (type_ : Nat) (m : CpMsg) (current : Bool) : Option (Stream × StreamKeys) :=
  match s.stream m.stream with
  | none => none
  | some x =>
    match x.keys (m.gen == 1) with
    | none => none
    | some k =>
      if cpFieldsOk m ∧ authentic k.inKey type_ m ∧ k.least ≤ m.nonce ∧ s.streamOk m.stream ∧ (!current ∨ b2n x.gen = m.gen) then some (x, k)
      else none

/-- A message that the stream accepts acts, decrypted, and its NONCE is used; any other is discarded. Nothing arrives while the device
boots or is tripped. -/
def onMessage (type_ : Nat) (m : CpMsg) (current legal : Bool) (act : CpMsg → State → State) (s : State) : State :=
  if s.phase ≠ .running ∧ s.phase ≠ .recovery then s
  else
    match s.admitsMsg type_ m current with
    | none => discard m.stream s
    | some (x, k) =>
      if legal then act (openMsg m k.inKey) (s.setStream (x.putKeys (m.gen == 1) (some { k with least := m.nonce + 1 })))
      else discard m.stream s

/-! ### Answers -/

/-- An answer, under the generation of its request. -/
def answer (m : CpMsg) (type_ : Nat) (payload : List Byte) (s : State) : State :=
  { s with answers := s.answers ++ [.cp m.stream m.gen m.tag type_ payload] }

/-- FAIL: 8 bytes with the cause. -/
def failAnswer (m : CpMsg) (c : Cause) (s : State) : State := answer m 8 (toBytes 8 c.code) s

/-- The first n bytes of a payload; bytes that are missing are zero. -/
def payloadBytes (n : Nat) (l : List Byte) : List Byte := (List.range n).map (fun i => l.getD i 0)

/-- A message of the device as it goes out: header flit, encrypted payload flits, tag flit. -/
def sealFlits (k : StreamKeys) (stream gen tag type_ : Nat) (payload : List Byte) : List Byte :=
  let header := cpHeader type_
    { stream := stream, gen := gen, nonce := k.next, tag := tag, addr := 0, len := payload.length, payload := [], mac := [] }
  let text := gcmCrypt k.outKey (cpIv k.next) (payloadBytes (cdiv payload.length 64 * 64) payload)
  header ++ text ++ tagFlit k.outKey k.next header text

/-- The bytes of an answer, under the keys and the counter of its generation; a closed stream sends nothing. -/
def sendAnswer (a : Sent) (s : State) : State :=
  match a with
  | .cp no g tag type_ payload =>
    (match s.stream no with
      | none => s
      | some x =>
        match x.keys (g == 1) with
        | none => s
        | some k =>
          let s := s.setStream (x.putKeys (g == 1) (some { k with next := k.next + 1 }))
          { s with sent := s.sent ++ [.flits no (sealFlits k no g tag type_ payload)] })
  | .flits _ _ | .peer _ _ _ | .peerAnswer _ _ _ | .gather _ _ | .replica _ _ _ | .spdm _ _ => { s with sent := s.sent ++ [a] }

/-! ### Requests for memory (R422, R431, R434, R435) -/

/-- The partition of a stream and the ASID it is translated under; stream 0 is physical. -/
def State.portAsid (s : State) (v : Nat) : Nat := (s.word (.part v) 0x240).toNat % 2 ^ 16

/-- What a physical access of stream 0 meets: no memory, the race-record area, or a store to a sealed frame. -/
def State.physFault (s : State) (a n : Nat) (write : Bool) : Option Cause :=
  if Config.memLimit < a + n then some .addr
  else if (n != 0 && s.inRecords a n) || write && (List.range n).any (fun i => s.sealed (a + i)) then some .prot
  else none

/-- A faulting WRITE: an entry for the queue of the stream's owner (R409, R431). -/
def writeFault (m : CpMsg) (f : WalkFault) (s : State) : State :=
  let asid := if m.stream = 0 then 0 else s.portAsid (m.stream - 1)
  s.queueEntry (if m.stream = 0 then none else some (m.stream - 1))
    { cause := f.cause, kind := 4, write := true, stage2 := f.stage2, vmid := m.stream - 1, asid := asid, addr := f.addr }

/-- The write itself. -/
def portWrite (m : CpMsg) (s : State) : State :=
  let bs := payloadBytes m.len m.payload
  if s.phase = .recovery then { s with staging := s.staging.write m.addr bs, staged := max s.staged (m.addr + bs.length) }
  else if m.stream = 0 then
    match s.physFault m.addr m.len true with
    | some c => writeFault m { cause := c, addr := m.addr } s
    | none => s.hwWrite s.pkey m.addr bs
  else
    match s.unitWrite (m.stream - 1) (s.portAsid (m.stream - 1)) m.addr bs with
    | (some f, s) => writeFault m f s
    | (none, s) => s

/-- The bytes a READ returns, or its cause. -/
def State.portRead (s : State) (m : CpMsg) : Except Cause (List Byte) × State :=
  if m.stream = 0 then
    match s.physFault m.addr m.len false with
    | some c => (.error c, s)
    | none => (.ok (s.hwRead s.pkey m.addr m.len), s)
  else
    match s.unitRead (m.stream - 1) (s.portAsid (m.stream - 1)) m.addr m.len with
    | (.error f, s) => (.error f.cause, s)
    | (.ok bs, s) => (.ok bs, s)

/-- A READ is answered. -/
def portAnswer (m : CpMsg) (s : State) : State :=
  match s.portRead m with
  | (.error c, s) => failAnswer m c s
  | (.ok bs, s) => answer m 3 bs s

/-! ### Peer requests that arrive (R434) -/

/-- The export lets the request in: its guest physical address. -/
def State.exportAddr (s : State) (r : PeerReq) : Option Nat :=
  let w := (s.word (.part r.vmid) 0x259 (r.exIdx % 16)).toNat
  let kind : Bool := match r.kind with
    | .read => bit w 61
    | .write _ | .atomic _ _ _ => bit w 62
  if s.hasPartition r.vmid ∧ r.exIdx < 16 ∧ bit w 63 ∧ bits w 29 12 = r.srcDev ∧ kind
      ∧ r.offset + r.size ≤ (bits w 55 48 + 1) * 2 ^ 30 then some (bits w 47 30 * 2 ^ 30 + r.offset)
  else none

/-- What the request needs of the stage-2 leaf. -/
def PeerKind.need : PeerKind → Need
  | .read => .r
  | .write _ => .w
  | .atomic _ _ _ => .rw

/-- Where an access of a partition that has no stage 1 lies: in a peer window it goes out again, under XPART it is performed at the memory
controller (R428, R433); none where stage 2, the seal map, the race-record area or the end of memory refuses it. -/
def State.remotePlace (s : State) (vmid ga n : Nat) (need : Need) : Option Place :=
  if (s.peerWindow vmid ga).isSome then some { pa := ga, peer := true }
  else
    match s.stage2 vmid ga need with
    | .error _ => none
    | .ok (e, size) =>
      let pa := bits e 47 12 * 4096 + ga % size
      let past := bit e 54
      if Config.memLimit < pa + n ∨ (need.writes ∧ s.sealed pa) ∨ s.inRecords pa n then none
      else some { pa := pa, key := bits e 53 48, via := if past then .dram else .part vmid, line := { wb := !past } }

/-- The pieces of a guest physical range, each with its address. -/
def State.guestPieces (s : State) (vmid ga n : Nat) (need : Need) : Option (List (Nat × Place × Nat)) :=
  (pieces (n / 4096 + 2) ga n).foldr (fun p r =>
    match s.remotePlace vmid p.1 p.2 need, r with
    | some x, some l => some ((p.1, x, p.2) :: l)
    | _, _ => none) (some [])

/-- The operation a request's code names (`AccOp.peerFn`), on an operand of n bytes. -/
def peerNew (fn n old data cmp : Nat) : Nat :=
  if fn < 16 then
    match [AtomFn.add, .min, .max, .and, .or, .xor, .xch, .cas, .fadd][fn]? with
    | some f => atomNew f old data cmp
    | none => old
  else if fn < 32 then
    match [RedFn.add, .min, .max, .minn, .maxn, .and, .or, .xor][fn - 16]? with
    | some f => mredNew n f old data
    | none => old
  else
    match [RedfFn.add, .min, .max][fn - 32]? with
    | some f => mredFNew f old data
    | none => old

/-- The places of a peer request. -/
def State.peerPieces (s : State) (r : PeerReq) : Option (List (Nat × Place × Nat)) :=
  (s.exportAddr r).bind (fun ga => s.guestPieces r.vmid ga r.size (PeerKind.need r.kind))

/-- The request performed at its home slice: what it answers, if it is not refused, and the state after it. -/
def State.peerPerform (s : State) (r : PeerReq) : Option (List Byte) × State :=
  match s.peerPieces r with
  | none => (none, s)
  | some ps =>
    let put (out bs : List Byte) (s : State) : Option (List Byte) × State :=
      match writePieces r.vmid ps bs s with
      | (some _, s) => (none, s)
      | (none, s) => (some out, s)
    match r.kind with
    | .write bs => put [] (payloadBytes r.size bs) s
    | .read =>
      (match readPieces r.vmid ps s with
        | (.error _, s) => (none, s)
        | (.ok old, s) => (some old, s))
    | .atomic fn data cmp =>
      match readPieces r.vmid ps s with
      | (.error _, s) => (none, s)
      | (.ok old, s) => put old (toBytes r.size (peerNew fn r.size (ofBytes old) data cmp)) s

def peerAnswer (r : PeerReq) (s : State) : State :=
  match s.peerPerform r with
  | (none, s) => { s with answers := s.answers ++ [.peerAnswer r.srcDev false []] }
  | (some bs, s) => { s with answers := s.answers ++ [.peerAnswer r.srcDev true bs] }

/-! ### The switch asks for a replica (R435) -/

/-- The guest physical address in the partition's valid set of that SETID. -/
def State.replicaAddr (s : State) (vmid setId offset size : Nat) : Option Nat :=
  (List.range 16).findSome? (fun i =>
    let ctl := (s.word (.part vmid) 0x261 i).toNat
    let b := (s.word (.part vmid) 0x262 i).toNat
    if bit ctl 63 ∧ bits ctl 44 29 = setId ∧ offset + size ≤ (bits b 7 0 + 1) * 2 ^ 21 then some (bits b 47 21 * 2 ^ 21 + offset)
    else none)

def State.replicaPieces (s : State) (vmid setId offset size : Nat) : Option (List (Nat × Place × Nat)) :=
  (s.replicaAddr vmid setId offset size).bind (fun ga => s.guestPieces vmid ga size .r)

/-- The set is read at RSBASE + offset and the bytes are sent to the switch. -/
def replicaAnswer (vmid setId offset size : Nat) (s : State) : State :=
  match s.replicaPieces vmid setId offset size with
  | none => s
  | some ps =>
    match readPieces vmid ps s with
    | (.error _, s) => s
    | (.ok bs, s) => { s with answers := s.answers ++ [.replica setId offset bs] }

/-! ### Tokens for requests from outside (R422) -/

/-- The bucket of no tenant: one that is never metered. -/
def noTenant : Nat := 65537

/-- The partition and the tenant whose buckets pay: those of the port, and of a peer's or the switch's request the partition alone
(DESIGN CHOICE: log entry 83). -/
def State.portPayer (s : State) (q : PortReq) : Nat × Nat :=
  match q with
  | .write m | .read m => (m.stream - 1, s.portAsid (m.stream - 1))
  | .peer r => (r.vmid, noTenant)
  | .replica v _ _ _ => (v, noTenant)

/-- Units of 64 bytes that cross the DRAM interface for n bytes of a line at a place: those that L2 does not hold, and all of them past L2
or written through. -/
def State.placeUnits (s : State) (p : Place) (write : Bool) (a n : Nat) : Nat :=
  let us := ((List.range n).map (fun i => (a + i) / 64)).eraseDups
  let out (x : Nat) : Bool := match s.l2find x with
    | none => true
    | some y => p.via.passes y
  if p.peer then 0
  else if p.via == .dram || (write && !p.line.wb) then us.length
  else (us.filter (fun u => out (64 * u) || out (64 * u + 32))).length

/-- What a request has to touch. -/
def State.portPieces (s : State) (q : PortReq) : List (Nat × Place × Nat) :=
  let unit_ (m : CpMsg) (need : Need) : List (Nat × Place × Nat) :=
    match s.unitPieces (m.stream - 1) (s.portAsid (m.stream - 1)) m.addr m.len need with
    | .error _ => []
    | .ok l => l
  match q with
  | .write m => unit_ m .w
  | .read m => unit_ m .r
  | .peer r => (s.peerPieces r).getD []
  | .replica v i o n => (s.replicaPieces v i o n).getD []

def PortReq.writes : PortReq → Bool
  | .write _ => true
  | .peer r => (PeerKind.need r.kind).writes
  | .read _ | .replica _ _ _ _ => false

/-- The requests at the memory controllers, line by line. -/
def State.portCharges (s : State) (q : PortReq) : List ((State → Nat × Nat) × (State → State)) :=
  (s.portPieces q).flatMap (fun x =>
    (List.range ((x.2.1.pa % 512 + x.2.2 + 511) / 512)).map (fun i =>
      let a := max x.2.1.pa (lineOf x.2.1.pa + 512 * i)
      let n := min (x.2.1.pa + x.2.2) (lineOf x.2.1.pa + 512 * (i + 1)) - a
      (fun s => (controllerOf a, s.placeUnits x.2.1 q.writes a n), id)))

/-- A request whose pieces have all been served is performed. -/
def performPort (q : PortReq) (s : State) : State :=
  match q with
  | .write m => portWrite m s
  | .read m => portAnswer m s
  | .peer r => peerAnswer r s
  | .replica v i o n => replicaAnswer v i o n s

/-- Two messages of one stream: they are performed in arrival order (R431). -/
def PortReq.follows (q p : PortReq) : Bool :=
  match q, p with
  | .write m, .write n | .write m, .read n | .read m, .write n | .read m, .read n => m.stream == n.stream
  | _, _ => false

/-- A request that waits is tried. -/
def tryPort (w : PortWait) (s : State) : State :=
  if !s.portq.contains w || (s.portq.takeWhile (fun x => x.id != w.id)).any (fun x => w.req.follows x.req) then s
  else
    match s.serveAll (.port w.id) 0 (s.portPayer w.req).1 (s.portPayer w.req).2 (s.portCharges w.req) with
    | (true, s) => performPort w.req { s with portq := s.portq.filter (fun x => x.id != w.id) }
    | (false, s) => s

/-- A request from outside is served, or waits. -/
def acceptPort (q : PortReq) (s : State) : State :=
  let w : PortWait := { id := s.nextId, req := q }
  tryPort w { s.fresh with portq := s.portq ++ [w] }

/-- PEER_REQUEST: performed and answered, or refused. -/
def execPeerRequest (r : PeerReq) (s : State) : Out := .next (if s.phase = .running then acceptPort (.peer r) s else s)

/-- REPLICA_REQUEST. -/
def execReplicaRequest (vmid setId offset size : Nat) (s : State) : Out :=
  .next (if s.phase ≠ .running ∨ !s.hasPartition vmid then s else acceptPort (.replica vmid setId offset size) s)

/-- CP_WRITE. In recovery it reaches the staging area only (R456). -/
def execCpWrite (m : CpMsg) (s : State) : Out :=
  .next (onMessage 1 m true (s.phase == .running || m.stream == 0) (fun m s =>
    if m.stream = 0 then portWrite m s else acceptPort (.write m) s) s)

/-- CP_READ. -/
def execCpRead (m : CpMsg) (s : State) : Out :=
  .next (onMessage 2 m true (s.phase == .running) (fun m s => if m.stream = 0 then portAnswer m s else acceptPort (.read m) s) s)

/-- BANDWIDTH_REFILL: at a 1 µs boundary of device time every bucket gains RATE, up to RATE × DEPTH; requests from outside that wait are
tried again, in arrival order. -/
def execBandwidthRefill (s : State) : Out :=
  if s.time / 4000 ≤ s.bwFrame then .next s
  else
    let buckets := s.partitions.flatMap (fun v => ((s.bucketsOf v).filter (fun b => s.bwRate v b != 0)).map (fun b => (v, b)))
    let s := buckets.foldl (fun s p => (List.range 24).foldl (fun s ctl => s.refillOne ctl p.1 p.2) s) { s with bwFrame := s.bwFrame + 1 }
    .next (s.portq.foldl (fun s w => tryPort w s) s)

/-! ### CWRITE and CREAD: stream 0 as level 0 -/

/-- ADDR of a CREAD or CWRITE: the index with bit 10, and the VMID; its other bits are reserved. -/
def cpIndex (m : CpMsg) : Nat := m.addr % 1024
def cpBelow (m : CpMsg) : Bool := bit m.addr 10
def cpLegal (m : CpMsg) : Bool := m.stream == 0 && bits m.addr 15 11 == 0 && m.addr / 2 ^ 22 == 0

/-- Level 0 with SELVMID as the message gives it. -/
def State.portAccessor (s : State) (m : CpMsg) : Accessor :=
  let v := bits m.addr 21 16
  { level := 0, core := 256, vmid := v, asid := s.portAsid v, sel := v }

/-- CP_CWRITE: in recovery RSTREQ only. A write that is refused is dropped. -/
def execCpCwrite (m : CpMsg) (s : State) : Out :=
  .next (onMessage 4 m true (cpLegal m && (s.phase == .running || cpIndex m == 0x281)) (fun m s =>
    match writeControl (s.portAccessor m) (cpBelow m) (cpIndex m) (BitVec.ofNat 64 (ofBytes (payloadBytes 8 m.payload))) s with
    | .error _ => s
    | .ok s => s) s)

/-- CP_CREAD. -/
def execCpCread (m : CpMsg) (s : State) : Out :=
  .next (onMessage 5 m true (cpLegal m && s.phase == .running) (fun m s =>
    match readControl (s.portAccessor m) (cpBelow m) (cpIndex m) s with
    | .error r => failAnswer m r.cause s
    | .ok (x, s) => answer m 6 (payloadBytes m.len (toBytes 8 x.toNat)) s) s)

/-! ### Generations (R432) -/

/-- OLD_KEY_EXPIRY. -/
def execOldKeyExpiry (stream : Nat) (s : State) : Out := .next (expireOld stream s)

/-- KEYSW: LEN 0; its GEN becomes current, but while the old key is still held. -/
def execKeysw (m : CpMsg) (s : State) : Out :=
  .next (onMessage 7 m false (m.len == 0 && s.phase == .running) (fun m s =>
    match s.stream m.stream with
    | none => s
    | some x =>
      if x.old.isSome then failAnswer m .illstate s
      else if b2n x.gen = m.gen then s
      else s.setStream { x with gen := !x.gen, old := some s.time }) (expireOld m.stream s))

/-- The oldest answer is sent, under its generation while the key of that is held. -/
def sendNext (s : State) : State :=
  let s := match s.answers with
    | .cp no _ _ _ _ :: _ => expireOld no s
    | _ => s
  match s.answers with
  | [] => s
  | a :: r => sendAnswer a { s with answers := r }

end Sys2Proof.Machine
end

