-- ==== Sys2Proof/Machine/KernelTypes.lean ====
section
/-!
DEFINITION. The type language of admission (08_admission.md R163–R167, R460; 14_programs_sync.md R310; 15_programs_model.md
R321): registers, types, terms, relations, and what the Registrar knows at a point of its walk.
-/

namespace Sys2Proof.Machine

/-! ### Registers and types -/

/-- The register files, numbered as register codes number them (R163). -/
inductive RFile where
  | s | v | k | a
  deriving DecidableEq, Repr

/-- A register as an annotation or an instruction names it. A run of registers may pass 127. -/
structure RReg where
  file : RFile
  num  : Nat
  deriving DecidableEq, Repr

def RFile.code : RFile → Nat
  | .s => 0
  | .v => 1
  | .k => 2
  | .a => 3

/-- The register code (R163). -/
def RReg.code (r : RReg) : Nat := r.file.code * 128 + r.num % 128

/-- The register of a code; k and a registers have numbers below 8 (R181). -/
def RReg.ofCode (c : Nat) : Option RReg :=
  let n := c % 128
  match c / 128 with
  | 0 => some ⟨.s, n⟩
  | 1 => some ⟨.v, n⟩
  | 2 => if n < 8 then some ⟨.k, n⟩ else none
  | 3 => if n < 8 then some ⟨.a, n⟩ else none
  | _ => none

def sReg (r : Reg) : RReg := ⟨.s, r.toNat⟩
def vReg (r : Reg) : RReg := ⟨.v, r.toNat⟩
def kReg (r : Reg3) : RReg := ⟨.k, r.toNat⟩
def aReg (r : Reg3) : RReg := ⟨.a, r.toNat⟩
/-- The scalar register that reads 0 (R52). -/
def zeroReg : RReg := ⟨.s, 0⟩

/-- The types of Table 8-4; `esz` is the log2 of an element's size. -/
inductive Ty where
  | i32 | n32 | f32 | h2 | b2 | i64 | mask
  | ptr (region esz : Nat) (base : Bool)
  | idx (region : Nat)
  | len (region : Nat)
  | name | ob | bar | tile | lock | ret | rtab
  deriving DecidableEq, Repr

/-- The code of a type (Table 8-4). -/
def Ty.code : Ty → Nat
  | .i32 => 1 | .n32 => 2 | .f32 => 3 | .h2 => 4 | .b2 => 5 | .i64 => 6 | .mask => 7
  | .ptr _ _ _ => 8 | .idx _ => 9 | .len _ => 10
  | .name => 11 | .ob => 12 | .bar => 13 | .tile => 14 | .lock => 15 | .ret => 16 | .rtab => 17

def Ty.region : Ty → Nat
  | .ptr r _ _ | .idx r | .len r => r
  | _ => 0

/-- The type entry of a type on a register (Table 8-3). -/
def Ty.entry (t : Ty) (r : RReg) : Nat :=
  let p := match t with
    | .ptr _ e b => e * 2 ^ 23 + b2n b * 2 ^ 31
    | _ => 0
  r.code + t.code * 2 ^ 18 + t.region * 2 ^ 25 + p

/-- The type a type entry gives. -/
def Ty.ofEntry (e : Nat) : Option Ty :=
  let r := bits e 30 25
  match bits e 22 18 with
  | 1 => some .i32
  | 2 => some .n32
  | 3 => some .f32
  | 4 => some .h2
  | 5 => some .b2
  | 6 => some .i64
  | 7 => some .mask
  | 8 => some (.ptr r (bits e 24 23) (bit e 31))
  | 9 => some (.idx r)
  | 10 => some (.len r)
  | 11 => some .name
  | 12 => some .ob
  | 13 => some .bar
  | 14 => some .tile
  | 15 => some .lock
  | 16 => some .ret
  | 17 => some .rtab
  | _ => none

/-- The data types (R164). -/
def Ty.data : Ty → Bool
  | .i32 | .n32 | .f32 | .h2 | .b2 | .i64 => true
  | .mask | .ptr _ _ _ | .idx _ | .len _ | .name | .ob | .bar | .tile | .lock | .ret | .rtab => false

/-- The registers a type entry of a type may name (Table 8-4, R310, R321). No entry names s0 or a tile. -/
def Ty.fits (t : Ty) (r : RReg) : Bool :=
  let s := r.file == .s && r.num != 0
  let v := r.file == .v
  match t with
  | .i32 | .n32 | .f32 | .idx _ | .bar => s || v
  | .h2 | .b2 => v
  | .i64 => s || (v && r.num % 2 == 0)
  | .mask => r.file == .k && r.num != 0
  | .ptr _ _ _ | .len _ | .ob | .lock | .rtab => s
  | .name => s && r.num % 2 == 0
  | .ret => s && r.num == 127
  | .tile => false

/-! ### Terms and relations (R165) -/

/-- A register's value, the count ahead of a pointer, or E(r): the value of a len(r) and the rem of a ptr(r) with BASEP
(R321). -/
inductive Term where
  | val (r : RReg)
  | rem (n : Nat)
  | ext (region : Nat)
  deriving DecidableEq, Repr

/-- `a + c ≤ b`. -/
structure Rel where
  a : Term
  c : Int
  b : Term
  deriving DecidableEq, Repr

/-- A term's ten bits in a relation entry (Table 8-5). -/
def termOfBits (x : Nat) : Option Term :=
  match RReg.ofCode (x % 512) with
  | none => none
  | some r => if x / 512 % 2 = 0 then some (.val r) else if r.file = .s then some (.rem r.num) else none

/-! ### What is known at a point of the walk -/

/-- A compare whose sources are unwritten since (R166, item 3): the register that holds its result. -/
structure Compare where
  dest : RReg
  fn   : CmpFn
  a    : RReg
  b    : RReg
  deriving DecidableEq, Repr

structure Known where
  types  : List (RReg × Ty) := []
  rels   : List Rel := []
  depth  : Nat := 0
  joins  : List Nat := []              -- blocks of the open levels' joins, innermost last
  brkt   : Bool := false
  wb     : Nat := 0
  locks  : List Nat := []              -- scalar registers that hold a lock
  consts : List (RReg × Nat) := []     -- registers whose value the block itself has made a constant
  cmps   : List Compare := []
  deriving DecidableEq, Repr

/-- The type entry in force on a register, as declared or as written. -/
def Known.own (w : Known) (r : RReg) : Option Ty := (w.types.find? (fun p => p.1 == r)).map (·.2)

/-- The type in force (R310, R321, R460); none is dead. -/
def Known.typeOf (w : Known) (tiles : Nat) (r : RReg) : Option Ty :=
  if r = zeroReg then some .n32
  else
    match r.file with
    | .a => if r.num < tiles then some .tile else none
    | .v =>
      match w.own r with
      | some t => some t
      | none => if r.num % 2 = 1 ∧ w.own ⟨.v, r.num - 1⟩ = some .i64 then some .i32 else none
    | .s | .k => w.own r

/-- The term that stands for a term of the program: rem of a ptr(r) with BASEP and the value of a len(r) are one (R321). -/
def Known.canon (w : Known) (t : Term) : Term :=
  match t with
  | .val r => match w.own r with
    | some (.len q) => .ext q
    | _ => t
  | .rem n => match w.own ⟨.s, n⟩ with
    | some (.ptr q _ true) => .ext q
    | _ => t
  | .ext _ => t

/-- A register still holds E(q). -/
def Known.holdsExt (w : Known) (q : Nat) : Bool :=
  w.types.any (fun p => match p.2 with
    | .len r => r == q
    | .ptr r _ b => b && r == q
    | _ => false)

/-- `s0 + 0 ≤ s0`, always in the set (R321). -/
def standing : Rel := ⟨.val zeroReg, 0, .val zeroReg⟩

/-- The relation set. -/
def Known.set (w : Known) : List Rel := standing :: w.rels

/-- A relation is implied: the same term, in the set, or through one term between (R166). -/
def Known.implied (w : Known) (a : Term) (c : Int) (b : Term) : Bool :=
  let a := w.canon a
  let b := w.canon b
  (a == b && decide (c ≤ 0))
    || w.set.any (fun r => r.a == a && ((r.b == b && decide (c ≤ r.c))
        || w.set.any (fun q => q.a == r.b && q.b == b && decide (c ≤ r.c + q.c))))

/-- The strongest relation of the set between two terms. -/
def Known.strongest (w : Known) (a b : Term) : Option Int :=
  let a := w.canon a
  let b := w.canon b
  w.set.foldl (fun m r => if r.a = a ∧ r.b = b then (match m with
    | none => some r.c
    | some c => some (max c r.c)) else m) none

def Known.add (w : Known) (r : Rel) : Known := { w with rels := ⟨w.canon r.a, r.c, w.canon r.b⟩ :: w.rels }

/-- The term names the register. -/
def Term.names (t : Term) (r : RReg) : Bool :=
  match t with
  | .val q => q == r
  | .rem n => r == ⟨.s, n⟩
  | .ext _ => false

def Rel.names (x : Rel) (r : RReg) : Bool := x.a.names r || x.b.names r

/-- Relations on an E(q) that no register holds any more go with the last register that named it (R166, item 2). -/
def Known.prune (w : Known) : Known :=
  let ok (t : Term) : Bool := match t with
    | .ext q => w.holdsExt q
    | .val _ | .rem _ => true
  { w with rels := w.rels.filter (fun r => ok r.a && ok r.b) }

/-- The type entries after a write to a register: the other half of an i64 lane pair becomes i32 (R460). -/
def setType (l : List (RReg × Ty)) (r : RReg) (t : Option Ty) : List (RReg × Ty) :=
  let mate : RReg := ⟨r.file, if r.num % 2 = 0 then r.num + 1 else r.num - 1⟩
  let even : RReg := ⟨r.file, r.num / 2 * 2⟩
  let wasPair := r.file == .v && l.any (fun p => p.1 == even && p.2 == .i64)
  let rest := l.filter (fun p => p.1 != r && !(wasPair && p.1 == mate))
  let rest := if wasPair then (mate, Ty.i32) :: rest else rest
  match t with
  | none => rest
  | some t => (r, t) :: rest

/-- What a write forgets: relations, a constant, and the compares that name the register. -/
def Known.forget (w : Known) (r : RReg) : Known :=
  { w with rels := w.rels.filter (fun x => !x.names r), consts := w.consts.filter (fun p => p.1 != r),
           cmps := w.cmps.filter (fun c => c.dest != r && c.a != r && c.b != r) }

/-- Any write to a register (R166, item 2); a write to s0 is discarded (R52). An i64 written to a lane register covers its
pair, and a name ends with the second register of its pair. A relation on an E(q) that the old value alone named goes even
where the new value names it again. -/
def Known.write (w : Known) (r : RReg) (t : Option Ty) : Known :=
  if r = zeroReg then w
  else
    let w := w.forget r
    let w := if r.file = .v then
        (if t = some .i64 then { (w.forget ⟨.v, r.num + 1⟩) with types := w.types.filter (fun p => p.1 != ⟨.v, r.num + 1⟩) }
         else w)
      else w
    let mate : RReg := ⟨.v, if r.num % 2 = 0 then r.num + 1 else r.num - 1⟩
    let w := if r.file = .v ∧ r.num % 2 = 1 ∧ w.own mate = some .i64 then
        { w with rels := w.rels.filter (fun x => !x.names mate) } else w
    let types := if t = some .i64 then (r, Ty.i64) :: w.types.filter (fun p => p.1 != r) else setType w.types r t
    let upper (q : RReg) : Bool := r.file == RFile.s && r.num % 2 == 1 && q == ⟨.s, r.num - 1⟩
    let types := types.filter (fun p => !(upper p.1 && p.2 == Ty.name))
    { ({ w with types := types.filter (fun p => p.1 != r) }).prune with types := types }

/-- `d := a + c` (R166, item 1): every relation on the term `a` holds of `d`, shifted; relations that name the old d are not
carried. -/
def shifted (l : List Rel) (d : RReg) (old new : Term) (c : Int) : List Rel :=
  l.flatMap (fun r =>
    (if r.a = old ∧ r.b ≠ old ∧ !r.b.names d then [⟨new, r.c - c, r.b⟩] else [])
    ++ (if r.b = old ∧ r.a ≠ old ∧ !r.a.names d then [⟨r.a, r.c + c, new⟩] else [])
    ++ (if r.a = old ∧ r.b = old ∧ !old.names d then [⟨new, r.c - c, old⟩, ⟨old, r.c + c, new⟩] else []))

/-- A move: the destination's type, and the relations of the source's value with it. -/
def Known.move (w : Known) (d a : RReg) (c : Int) (t : Ty) : Known :=
  if d = zeroReg then w
  else
    let got := shifted w.set d (w.canon (.val a)) (.val d) c
    let w := w.write d (some t)
    { w with rels := got ++ w.rels }.prune

/-- SADDI of `q` elements (c bytes) to a pointer (R166, item 1): a pointer without BASEP, with its rem smaller by q. -/
def Known.movePtr (w : Known) (d a : RReg) (c : Int) (q : Nat) (region esz : Nat) : Known :=
  if d = zeroReg then w
  else
    let got := shifted w.set d (w.canon (.val a)) (.val d) c
      ++ shifted w.set d (w.canon (.rem a.num)) (.rem d.num) (-(q : Int))
    let w := w.write d (some (.ptr region esz false))
    { w with rels := got ++ w.rels }.prune

/-- The value is known to be at least zero: n32, or s0 ≤ x is implied (R166, item 3). -/
def Known.nonneg (w : Known) (tiles : Nat) (r : RReg) : Bool :=
  w.typeOf tiles r == some .n32 || w.implied (.val zeroReg) 0 (.val r)

/-- The relations that a compare gives where it holds, or where it fails (R166, item 3). -/
def Known.cmpRels (w : Known) (tiles : Nat) (c : Compare) (holds : Bool) : List Rel :=
  let a := Term.val c.a
  let b := Term.val c.b
  let lt (a b : Term) : List Rel := [⟨a, 1, b⟩]
  let le (a b : Term) : List Rel := [⟨a, 0, b⟩]
  let both := w.nonneg tiles c.a && w.nonneg tiles c.b
  let order (yes no : List Rel) : List Rel := if holds then yes else no
  let unsigned (l : List Rel) : List Rel := if both then l else []
  match c.fn with
  | .eq => if holds then le a b ++ le b a else []
  | .ne => if holds then [] else le a b ++ le b a
  | .lt => order (lt a b) (le b a)
  | .le => order (le a b) (lt b a)
  | .gt => order (lt b a) (le a b)
  | .ge => order (le b a) (lt a b)
  | .ltn => unsigned (order (lt a b) (le b a))
  | .len => unsigned (order (le a b) (lt b a))
  | .gtn => unsigned (order (lt b a) (le a b))
  | .gen => unsigned (order (le b a) (lt a b))

/-- The compare whose result a register holds decides an edge. -/
def Known.decided (w : Known) (tiles : Nat) (dest : RReg) (holds : Bool) : Known :=
  match w.cmps.find? (fun c => c.dest == dest) with
  | none => w
  | some c => (w.cmpRels tiles c holds).foldl Known.add w

/-- The register that names, under another window base, the physical register a lane register names (R48). -/
def rewindow (old new : Nat) (r : RReg) : Option RReg :=
  if r.file ≠ .v ∨ r.num ≤ 15 then some r
  else if new + 16 ≤ r.num + old ∧ r.num + old ≤ new + 127 then some ⟨.v, r.num + old - new⟩
  else none

def rewindowTerm (old new : Nat) (t : Term) : Option Term :=
  match t with
  | .val r => (rewindow old new r).map .val
  | .rem _ | .ext _ => some t

/-- WBASE: what is known of a physical register goes with it to its new name (R49). -/
def Known.window (w : Known) (wb : Nat) : Known :=
  { w with
    wb := wb
    types := w.types.filterMap (fun p => (rewindow w.wb wb p.1).map (fun r => (r, p.2)))
    consts := w.consts.filterMap (fun p => (rewindow w.wb wb p.1).map (fun r => (r, p.2)))
    rels := w.rels.filterMap (fun r =>
      match rewindowTerm w.wb wb r.a, rewindowTerm w.wb wb r.b with
      | some a, some b => some ⟨a, r.c, b⟩
      | _, _ => none)
    cmps := w.cmps.filterMap (fun c =>
      match rewindow w.wb wb c.a, rewindow w.wb wb c.b with
      | some a, some b => some { c with a := a, b := b }
      | _, _ => none) }

/-! ### Proofs of access (R167, Table 8-6; R321, item 4) -/

/-- `count` elements from an offset of `off` bytes on lie in the region of a pointer to elements of n bytes. -/
def Known.provenRun (w : Known) (base : RReg) (off : Int) (n count : Nat) : Bool :=
  match w.own base with
  | some (.ptr _ e _) =>
    2 ^ e == n && decide (0 ≤ off) && off % (n : Int) == 0
      && w.implied (.val zeroReg) (off / (n : Int) + (count : Int)) (.rem base.num)
  | _ => false

/-- An indexed access. -/
def Known.provenIndex (w : Known) (tiles : Nat) (base index : RReg) (n : Nat) : Bool :=
  match w.own base with
  | some (.ptr r e b) =>
    2 ^ e == n && ((b && w.own index == some (.idx r))
      || (w.nonneg tiles index && w.implied (.val index) 1 (.rem base.num)))
  | _ => false

/-- A structure of `size` bytes is read whole through a pointer: its region. -/
def Known.provenWhole (w : Known) (base : RReg) (size : Nat) : Option Nat :=
  match w.own base with
  | some (.ptr r e _) => if size % 2 ^ e = 0 ∧ w.provenRun base 0 (2 ^ e) (size / 2 ^ e) then some r else none
  | _ => none

end Sys2Proof.Machine
end

