-- ==== Sys2Proof/Machine/ImageFormat.lean ====
section
/-!
DEFINITION. The kernel image and what the Registrar checks of it before and beside the walk (08_admission.md R162–R165, R170,
R173; 14_programs_sync.md R312): rules 1, 2, 3 and the ranges of rule 38.
-/

namespace Sys2Proof.Machine

/-- What breaks a rule, with the fields of the fault record that say how (Table 8-10). -/
structure Flaw where
  rule   : Nat
  reg    : Nat := 0x1FF
  expect : Nat := 0
  found  : Nat := 0
  aux    : Nat := 0
  deriving DecidableEq, Repr

/-- Where it is broken, and how long admission took. -/
structure Refused where
  flaw   : Flaw
  block  : Nat := 0xFFFFFFFF
  word   : Nat := 0xFFFFFFFF
  insn   : Nat := 0
  cycles : Nat := 64
  deriving DecidableEq, Repr

/-- How checking an image ends early. -/
inductive AdmErr where
  | unread                 -- a byte of the image cannot be read (R162)
  | refused (r : Refused)
  deriving DecidableEq, Repr

/-- A block with its annotation record as it stands in the image (R163). -/
structure Blk where
  head  : Nat
  joins : List Nat
  types : List Nat
  rels  : List Nat
  locks : List Nat
  deriving DecidableEq, Repr

def Blk.start (b : Blk) : Nat := bits b.head 127 96
def Blk.nw (b : Blk) : Nat := bits b.head 95 80
def Blk.brkt (b : Blk) : Bool := bit b.head 53
def Blk.wb (b : Blk) : Nat := 16 * bits b.head 52 48
/-- Annotation entries, join-list words among them (R170). -/
def Blk.entries (b : Blk) : Nat := b.joins.length + b.types.length + b.rels.length + b.locks.length

/-- A runner entry (R162). -/
structure RunEntry where
  start : Nat
  stop  : Nat
  resv  : Nat
  vmap  : Nat
  smap  : Nat
  deriving DecidableEq, Repr

/-- An image in the Registrar's buffer. -/
structure Img where
  hdr     : Nat
  decls   : List Nat
  code    : List Word
  blocks  : List Blk
  jtabs   : List (List Nat)
  runners : List RunEntry
  deriving DecidableEq, Repr

/-! ### The header (Table 8-1) -/

def hNwords (h : Nat) : Nat := bits h 95 64
def hNblocks (h : Nat) : Nat := bits h 127 96
def hCodeoff (h : Nat) : Nat := bits h 159 128
def hAnnoff (h : Nat) : Nat := bits h 191 160
def hBlkoff (h : Nat) : Nat := bits h 223 192
def hJtoff (h : Nat) : Nat := bits h 255 224
def hRunoff (h : Nat) : Nat := bits h 287 256
def hNjt (h : Nat) : Nat := bits h 303 288
def hNrun (h : Nat) : Nat := bits h 319 304
def hLanes (h : Nat) : Nat := bits h 330 320
def hRegs (h : Nat) : Nat := bits h 340 331
def hTiles (h : Nat) : Nat := bits h 344 341
def hBars (h : Nat) : Nat := bits h 349 345
def hScratch (h : Nat) : Nat := bits h 370 350
def hNreg (h : Nat) : Nat := bits h 390 384
def hEntry (h : Nat) : Nat := bits h 479 448
def hLvl (h : Nat) : Nat := bits h 55 48

/-- The header's fields are legal, for a submitter's level. -/
def headerOk (level h : Nat) : Bool :=
  bits h 31 0 == 0x314C4A48 && bits h 47 32 == 1 && (hLvl h == 1 || hLvl h == 2) && decide (level ≤ hLvl h)
    && bits h 63 57 == 0 && decide (2 ≤ hNwords h ∧ hNwords h ≤ 2 ^ 20) && decide (1 ≤ hNblocks h ∧ hNblocks h ≤ 2 ^ 20)
    && hCodeoff h % 4 == 0
    && decide (32 ≤ hLanes h ∧ hLanes h ≤ 1024) && hLanes h % 32 == 0
    && decide (32 ≤ hRegs h ∧ hRegs h ≤ 512) && hRegs h % 16 == 0
    && decide (hTiles h ≤ 8) && decide (hBars h ≤ 16) && decide (256 ≤ hScratch h ∧ hScratch h ≤ 2 ^ 20)
    && decide (1 ≤ hNreg h ∧ hNreg h ≤ 64) && decide (bits h 421 400 ≤ 2 ^ 21) && decide (hEntry h < hNblocks h)
    && bits h 383 371 == 0 && bits h 399 391 == 0 && bits h 447 422 == 0 && bits h 511 480 == 0

/-- A declaration's fields (R162): region 0 is declared with R alone and elements of 8 bytes. -/
def declOk (d : Nat) : Bool :=
  bits d 63 13 == 0 && bits d 7 6 == 0 && (d % 64 != 0 || d == 0x1300)

/-- Every declaration is legal, region 0 is declared, and no region twice, which the manual does not say of a repeated INDEX (DESIGN
CHOICE: log entry 28). -/
def declsOk (l : List Nat) : Bool :=
  l.all declOk && l.contains 0x1300 && decide ((l.map (fun d => d % 64)).Nodup)

/-- The declaration of a region. -/
def Img.decl (im : Img) (r : Nat) : Option Nat := im.decls.find? (fun d => d % 64 == r)

/-- The declared right: 12 R, 11 W, 10 CA. -/
def Img.right (im : Img) (r b : Nat) : Bool :=
  match im.decl r with
  | some d => bit d b
  | none => false

/-! ### Reading the image -/

/-- What reads n bytes at an offset from the image's start: none where they cannot be read. -/
abbrev Reader := Nat → Nat → Option Nat

/-- n numbers of z bytes each. -/
def readRun (rd : Reader) (z : Nat) : Nat → Nat → Option (List Nat)
  | 0, _ => some []
  | n + 1, off =>
    match rd off z, readRun rd z n (off + z) with
    | some x, some l => some (x :: l)
    | _, _ => none

/-- The jump tables, and the offset after them. -/
def readTables (rd : Reader) : Nat → Nat → Option (List (List Nat) × Nat)
  | 0, off => some ([], off)
  | n + 1, off =>
    match rd off 4 with
    | none => none
    | some k =>
      if 2 ^ 32 < off + 4 + 4 * k then some ([], 2 ^ 32 + 1)
      else
        match readRun rd 4 k (off + 4), readTables rd n (off + 4 + 4 * k) with
        | some l, some (r, e) => some (l :: r, e)
        | _, _ => none

/-- The runner table. -/
def readRunners (rd : Reader) : Nat → Nat → Option (List RunEntry)
  | 0, _ => some []
  | n + 1, off =>
    match rd off 4, rd (off + 4) 4, rd (off + 8) 8, rd (off + 16) 16, rd (off + 32) 16, readRunners rd n (off + 48) with
    | some a, some b, some z, some v, some s, some l => some (⟨a, b, z, v, s⟩ :: l)
    | _, _, _, _, _, _ => none

/-- An annotation record (R163). The padding to a multiple of 8 bytes is counted from the record's own start, and its bytes are
not checked; the manual says neither (DESIGN CHOICE, log entry 28). -/
def readBlk (rd : Reader) (at_ : Nat) : Option Blk :=
  match rd at_ 16 with
  | none => none
  | some h =>
    let dep := bits h 57 54
    let nt := bits h 79 71
    let t := at_ + 16 + 4 * dep
    let r := at_ + cdiv (16 + 4 * dep + 4 * nt) 8 * 8
    let k := r + 8 * bits h 70 63
    match readRun rd 4 dep (at_ + 16), readRun rd 4 nt t, readRun rd 8 (bits h 70 63) r, readRun rd 4 (bits h 62 58) k with
    | some j, some ty, some re, some lk => some ⟨h, j, ty, re, lk⟩
    | _, _, _, _ => none

/-- The records the block table names. -/
def readBlks (rd : Reader) (ann : Nat) : List Nat → Option (List Blk)
  | [] => some []
  | o :: l =>
    match readBlk rd (ann + o), readBlks rd ann l with
    | some b, some r => some (b :: r)
    | _, _ => none

/-- No two ranges overlap, and all lie below 2^32. -/
def apart (l : List (Nat × Nat)) : Bool :=
  let l := l.filter (fun p => p.2 != 0)
  l.all (fun p => decide (p.1 + p.2 ≤ 2 ^ 32))
    && decide (l.Pairwise (fun p q => p.1 + p.2 ≤ q.1 ∨ q.1 + q.2 ≤ p.1))

/-- The image in the buffer: the header and declarations, then every byte they name; rule 1 beside it (R170). -/
def readImage (rd : Reader) (level : Nat) : Except AdmErr Img :=
  let bad : Except AdmErr Img := .error (.refused { flaw := { rule := 1 } })
  match rd 0 64 with
  | none => .error .unread
  | some h =>
    if !headerOk level h then bad
    else
      match readRun rd 8 (hNreg h) 64 with
      | none => .error .unread
      | some decls =>
        if !declsOk decls then bad
        else
          let fixed := [(0, 64 + 8 * hNreg h), (hCodeoff h, 4 * hNwords h), (hBlkoff h, 4 * hNblocks h), (hRunoff h, 48 * hNrun h)]
          if !apart fixed then bad
          else
            match readTables rd (hNjt h) (hJtoff h) with
            | none => .error .unread
            | some (jt, stop) =>
              if !apart ((hJtoff h, stop - hJtoff h) :: fixed) then bad
              else
                match readRunners rd (hNrun h) (hRunoff h), readRun rd 4 (hNwords h) (hCodeoff h),
                  (readRun rd 4 (hNblocks h) (hBlkoff h)).bind (readBlks rd (hAnnoff h)) with
                | some rs, some code, some blocks =>
                  if rs.any (fun r => r.resv != 0) then bad
                  else .ok { hdr := h, decls := decls, code := code.map (BitVec.ofNat 32), blocks := blocks, jtabs := jt, runners := rs }
                | _, _, _ => .error .unread

/-! ### Rule 2 and the ranges of rule 38 -/

/-- How many block-table entries are read up to the first that breaks rule 2: blocks are contiguous from word 0 and leave the final
word alone uncovered, so an entry that covers it fails, and the last entry where words before it are left. -/
def rule2 (nwords : Nat) : Nat → Nat → List Blk → Option Nat
  | i, at_, [] => if at_ + 1 = nwords then none else some i
  | i, at_, b :: l =>
    if b.start = at_ ∧ 1 ≤ b.nw ∧ at_ + b.nw < nwords then rule2 nwords (i + 1) (at_ + b.nw) l else some (i + 1)

/-- Rules 2 and 38 before the walk (R170, R173, R312). -/
def Img.beforeWalk (im : Img) : Option Refused :=
  let n := hNwords im.hdr
  match rule2 n 0 0 im.blocks with
  | some i => some { flaw := { rule := 2 }, cycles := 64 + i }
  | none =>
    (im.runners.zipIdx.find? (fun p => !decide (p.1.start < p.1.stop ∧ p.1.stop + 1 ≤ n))).map (fun p =>
      { flaw := { rule := 38, aux := p.2 }, word := p.1.start, cycles := 64 + im.blocks.length })

/-! ### Rule 3 -/

/-- A type entry: none is well formed, else the register code to report. -/
def Img.badEntry (im : Img) (seen : List Nat) (e : Nat) : Bool :=
  match RReg.ofCode (e % 512), Ty.ofEntry e with
  | some r, some t =>
    let region := match t with
      | .ptr _ _ _ | .idx _ | .len _ => (im.decl t.region).isSome
      | _ => bits e 30 25 == 0
    let ptr := match t with
      | .ptr _ _ _ => true
      | _ => bits e 24 23 == 0 && !bit e 31
    !(t.fits r && region && ptr && bits e 17 9 == 0 && !seen.contains (e % 512))
  | _, _ => true

/-- The first type entry that breaks rule 3. -/
def Img.badTypes (im : Img) : List Nat → List Nat → Option Nat
  | _, [] => none
  | seen, e :: l => if im.badEntry seen e then some (e % 512) else im.badTypes (e % 512 :: seen) l

/-- A type entry on the odd register of a pair whose even register has type i64 (R460). -/
def halfOfPair (l : List Nat) : Option Nat :=
  (l.find? (fun e => e % 512 / 128 == 1 && e % 2 == 1 && l.any (fun d => d % 512 + 1 == e % 512 && bits d 22 18 == 6))).map (· % 512)

def badRel (x : Nat) : Bool := bits x 31 20 != 0 || (termOfBits (x % 1024)).isNone || (termOfBits (bits x 19 10)).isNone

/-- What breaks rule 3 in a record: the register code to report. -/
def Img.rule3 (im : Img) (b : Blk) : Option Nat :=
  if bits b.head 47 0 ≠ 0 ∨ 272 < b.types.length ∨ 16 < b.locks.length ∨ b.joins.any (fun j => decide (im.blocks.length ≤ j)) then
    some 0x1FF
  else
    match im.badTypes [] b.types, halfOfPair b.types with
    | some r, _ | none, some r => some r
    | none, none =>
      if b.rels.any badRel then some 0x1FF
      else (b.locks.find? (fun x => decide (128 ≤ x))).map (· % 512)

/-- What an annotation declares (R163–R165). The lock entries are the set of R169: a register that the record types as a lock
without listing it is no member, and the record is not refused for it (DESIGN CHOICE, log entry 28). -/
def Blk.known (b : Blk) : Known :=
  let types := b.types.filterMap (fun e =>
    match RReg.ofCode (e % 512), Ty.ofEntry e with
    | some r, some t => some (r, t)
    | _, _ => none)
  let w : Known := { types := types, depth := b.joins.length, joins := b.joins, brkt := b.brkt, wb := b.wb, locks := b.locks }
  b.rels.foldl (fun w x =>
    match termOfBits (x % 1024), termOfBits (bits x 19 10) with
    | some a, some c => w.add ⟨a, sextN 32 (x / 2 ^ 32), c⟩
    | _, _ => w) w

/-- The entry block's annotation is that of R164 (rule 41). -/
def Blk.entryOk (b : Blk) : Bool :=
  b.types.length == 3 && b.types.contains (Ty.n32.entry ⟨.v, 0⟩) && b.types.contains ((Ty.ptr 0 3 true).entry ⟨.s, 1⟩)
    && b.types.contains (Ty.rtab.entry ⟨.s, 2⟩) && b.rels.isEmpty && b.locks.isEmpty && b.joins.isEmpty && !b.brkt && b.wb == 0

end Sys2Proof.Machine
end

