-- ==== Sys2Proof/Machine/Admission.lean ====
section
/-!
DEFINITION. The Registrar's walk (08_admission.md R166–R173, R461, Table 8-8; result types of R231, R253, R307, R311, R318,
R322, R437): the types instructions read and give, and rules 3 to 41 at each instruction and edge.
-/

namespace Sys2Proof.Machine

/-! ### Groups (R184) -/

/-- A group of a block: its first word's offset, its words, and the instruction, or the rule that its words break; `broken` is a rule
broken by the words of a group whose instruction is known all the same, so that rules of lower number are judged first (R170). -/
structure Grp where
  at_    : Nat
  words  : List Word
  last   : Bool                -- the last group of its block
  ins    : Except Nat Instr
  broken : Option Nat := none
  deriving Repr

/-- The offset after the group. -/
def Grp.next (g : Grp) : Nat := g.at_ + g.words.length
/-- The word that a fault record shows: the instruction's. -/
def Grp.insn (g : Grp) : Word := g.words.getLast?.getD 0

/-- Major opcodes of prefixes. -/
def isPrefix (w : Word) : Bool := (wOp w).toNat == 0x0D || (wOp w).toNat == 0x0E || (wOp w).toNat == 0x0F

/-- Must-be-zero fields and reserved values of an instruction that its operand fields hold (rule 6), for an image's header. -/
def fieldsOk (h : Nat) : Instr → Bool
  | .vote fn _ ra => (match fn with | .eq => true | .any | .all | .cnt => kField ra)
  | .kop _ fn d a b => (match fn with
    | .and | .or | .xor | .andn => kField d && kField a && kField b
    | .not | .mov => kField d && kField a && b == 0
    | .pop | .first | .last | .tov => kField a && b == 0
    | .fromv => kField d && b == 0
    | .clear | .fill => kField d && a == 0 && b == 0)
  | .matLoop _ ra _ | .matDrain _ ra _ => quadReg ra
  | .vun _ fn _ ra => fn != .lane || ra == 0
  | .halu _ _ fn _ _ rb => !fn.unary || rb == 0
  | .cvt _ fn _ _ rb => fn.pair || rb == 0
  | .expd _ kind _ _ _ rb => if kind = .lut then rb.toNat % 4 == 0 else rb == 0
  | .fence scope _ => decide (scope.toNat < 6)
  | .cpyGs rd _ _ | .cpySg rd _ _ | .cpyGob rd _ _ | .cpyGb rd _ _ | .cpySob rd _ _ | .cpyCas rd _ _ | .cpyCag rd _ _
  | .cpySca rd _ _ | .cpyGg rd _ _ => rd != 0 && decide (rd.toNat < 123)
  | .cld _ _ ra _ _ => ra.toNat != 126
  | .srd _ ix => (1 ≤ ix.toNat && ix.toNat ≤ 14) || (16 ≤ ix.toNat && ix.toNat ≤ 18)
  | .swr _ ix => ix == 0x00A
  | .smovv _ _ lane => decide (lane.toNat < hLanes h)
  | .switch _ t => decide (t.toNat < hNjt h)
  | _ => true

/-- A PFXP word's own fields (R186). -/
def pfxpOk (w : Word) : Bool :=
  match Pfxp.ofWord w with
  | none => false
  | some p => decide (p.scope.toNat < 6) && (!p.inv || p.pred != 0)

/-- The prefix fields that stand in front of an instruction are accepted by it (Table 9-3). -/
def pfxAccepted (i : Instr) : Bool :=
  match i with
  | .shfl p .. | .vmad p .. | .vsel p .. | .vpack p .. | .fcmp p .. | .hfma p .. | .cvt8Pack p .. =>
    Pfx.ok (match i with | .shfl .. => false | _ => true) false true p
  | .halu p _ fn .. => Pfx.ok true false (!fn.unary) p
  | .cvt p fn .. => Pfx.ok true false fn.pair p
  | .ldl _ p .. | .stl _ p .. | .ldi p .. | .sti p .. | .ldaq _ p .. | .strl _ p .. | .rldsF p .. | .rldsI p .. | .cld p .. =>
    Pfx.ok true true false p
  | .sld _ p .. | .sst _ p .. | .pref p .. => Pfx.ok false true false p
  | .wait p .. | .bari p .. | .barx p .. | .barz p .. | .barp p .. => Pfx.ok false false false p
  | _ => Pfx.ok true false false (instrPfx i)

/-- The word is a legal instruction by itself (rule 6). -/
def wordOk (h : Nat) (w : Word) : Bool :=
  if (wOp w).toNat = 0x0B then w.extractLsb' 20 2 == 0
  else
    match decodeWord none none w with
    | .ok i => fieldsOk h i
    | .error _ => false

/-- The instruction of a group's last word alone, for a group that breaks rule 7 or 19. -/
def bareIns (w : Word) (rule : Nat) : Except Nat Instr × Option Nat :=
  if (wOp w).toNat = 0x0B then (.ok (.bspl 0 (w.extractLsb' 22 3) (wBit w 19) (wOff19 w)), some rule)
  else
    match decodeWord none none w with
    | .ok i => (.ok i, some rule)
    | .error _ => (.error rule, none)

/-- What a group's words are, and the rule they break: 6, 7 or 19. -/
def groupIns (h : Nat) (ws : List Word) : Except Nat Instr × Option Nat :=
  let pre := ws.dropLast
  let w := ws.getLast?.getD 0
  if ws.any (fun x => !opcodeListed (wOp x)) || pre.any (fun x => (wOp x).toNat == 0x0E && !pfxpOk x) then (.error 6, none)
  else if isPrefix w then (.error 7, none)
  else if !wordOk h w then (.error 6, none)
  else
    let imx := pre.find? (fun x => (wOp x).toNat == 0x0D)
    let pxp := pre.find? (fun x => (wOp x).toNat == 0x0E)
    let pxj := pre.find? (fun x => (wOp x).toNat == 0x0F)
    let one := decide (pre.length = b2n imx.isSome + b2n pxp.isSome + b2n pxj.isSome)
    if !one then bareIns w 7
    else if (wOp w).toNat = 0x0B then
      match pre with
      | [] => bareIns w 19
      | [j] =>
        if (wOp j).toNat = 0x0F then (.ok (.bspl (wImm25 j) (w.extractLsb' 22 3) (wBit w 19) (wOff19 w)), none) else bareIns w 7
      | _ => bareIns w 7
    else if pxj.isSome then bareIns w 7
    else
      match decodeWord (imx.map wImm25) (pxp.bind Pfxp.ofWord) w with
      | .ok i => if pfxAccepted i then (.ok i, none) else bareIns w 7
      | .error _ => bareIns w 7

/-- The groups of a block's words. -/
def groupsOf (h : Nat) : Nat → Nat → List Word → List Grp
  | 0, _, _ => []
  | fuel + 1, at_, ws =>
    match ws with
    | [] => []
    | w :: r =>
      let n := if isPrefix w then (match r with
        | x :: _ => if isPrefix x then 3 else 2
        | [] => 1) else 1
      let g := ws.take n
      let r := groupIns h g
      { at_ := at_, words := g, last := decide (ws.length ≤ n), ins := r.1, broken := r.2 } :: groupsOf h fuel (at_ + n) (ws.drop n)

def Img.groups (im : Img) (b : Blk) : List Grp := groupsOf im.hdr b.nw b.start ((im.code.drop b.start).take b.nw)

/-! ### Types that instructions read (rule 12) -/

/-- What a source accepts (R164). `live` leaves the type to the rule that names it; `pair` is the second register of a name operand,
which has no type of its own. -/
inductive Acc where
  | data | mask | name | lock | live | bar | addr | count | pointer | index | pair
  deriving DecidableEq, Repr

def Acc.takes (a : Acc) (t : Ty) : Bool :=
  match a with
  | .data => t.data
  | .mask => t == .mask
  | .name => t == .name
  | .lock => t == .lock
  | .live | .pair => true
  | .bar => t.data || t == .bar
  | .addr => t.data || (match t with | .ptr _ _ _ => true | _ => false)
  | .count => t.data || (match t with | .len _ => true | _ => false)
  | .pointer => t.data || (match t with | .ptr _ _ _ | .len _ => true | _ => false)
  | .index => t.data || (match t with | .idx _ => true | _ => false)

/-- The accepted type of lowest code. -/
def Acc.least : Acc → Ty
  | .mask => .mask
  | .name => .name
  | .lock => .lock
  | .data | .live | .bar | .addr | .count | .pointer | .index | .pair => .i32

def RegRef.rreg : RegRef → RReg
  | .v r => vReg r
  | .s r => sReg r
  | .k r => kReg r
  | .a r => aReg r

/-- The plain reading of a source: data, or a mask. -/
def RegRef.plain (r : RegRef) : RReg × Acc :=
  (r.rreg, match r with
    | .k _ => .mask
    | .a _ => .live
    | .v _ | .s _ => .data)

/-- The coordinates, the completion specification, the record and the far register of a CPY. All five coordinate registers must be
live (rule 12), though the copy reads no coordinate at or above RANK, which lies in memory (R300; DESIGN CHOICE, log entry 28). -/
def cpySources (rd ra rb : Reg) (far : Acc) (coords : Bool) : List (RReg × Acc) :=
  (if coords then (List.range 5).map (fun j => (⟨.s, rd.toNat + j⟩, Acc.data)) else [])
    ++ [(⟨.s, rd.toNat + 5⟩, far), (sReg ra, .data), (sReg rb, .live)]

/-- The sources of an instruction, its predicate apart. Beside data, SADDI takes a pointer or a length, SCMP a length, and PREF and
TLK.LOCK a pointer, though their descriptions name no such type outright (R164; DESIGN CHOICE, log entry 28). -/
def sourcesOf (i : Instr) : List (RReg × Acc) :=
  match i with
  | .ret => [(⟨.s, 127⟩, .live)]
  | .launch _ ra => [(sReg ra, .live)]
  | .obRel ra | .obStat _ ra => [(sReg ra, .live)]
  | .obSt rd ra rb => [(vReg rd, .data), (sReg ra, .live), (sReg rb, .data)]
  | .obLd _ ra rb => [(sReg ra, .live), (sReg rb, .data)]
  | .matLoop rd ra rb => (aReg rd, .live) :: (sReg rb, .live) :: (sRun ra 4).map RegRef.plain
  | .matDrain rd ra rb => (aReg rd, .live) :: (if rb = 0 then [] else [(sReg rb, Acc.live)]) ++ (sRun ra 4).map RegRef.plain
  | .chkbLane _ ra rb => [(vReg ra, .data), (sReg rb, .count)]
  | .chkbScalar _ ra rb => [(sReg ra, .data), (sReg rb, .count)]
  | .tlkLock _ ra rb => [(sReg ra, .addr), (sReg rb, .data)]
  | .tlkUnlk ra => [(sReg ra, .lock)]
  | .scmp _ _ ra rb => [(sReg ra, .count), (sReg rb, .count)]
  | .saddi _ _ ra _ => [(sReg ra, .pointer)]
  | .ldl _ _ _ _ ra _ _ | .sld _ _ _ _ ra _ _ | .ldaq _ _ _ ra _ _ | .rldsF _ _ _ ra _ _ | .rldsI _ _ ra _ _ =>
    [(sReg ra, .live)]
  | .stl _ _ wd rs ra _ _ => (sReg ra, .live) :: (vOf wd rs).map RegRef.plain
  | .ldi _ _ _ ra rb _ => [(sReg ra, .live), (vReg rb, .index)]
  | .sti _ wd rs ra rb _ => (sReg ra, .live) :: (vReg rb, .index) :: (vOf wd rs).map RegRef.plain
  | .sst _ _ _ rs ra _ _ => [(sReg rs, .data), (sReg ra, .live)]
  | .strl _ _ rs ra _ _ => [(vReg rs, .data), (sReg ra, .live)]
  | .aadd _ rd ra rb _ | .amin _ rd ra rb _ | .amax _ rd ra rb _ | .aand _ rd ra rb _ | .aor _ rd ra rb _
  | .axor _ rd ra rb _ | .axch _ rd ra rb _ | .afadd _ rd ra rb _ => [(vReg rd, .data), (sReg ra, .live), (vReg rb, .index)]
  | .acas _ rd ra rb _ => [(vReg rd, .data), (⟨.v, rd.toNat + 1⟩, .data), (sReg ra, .live), (vReg rb, .index)]
  | .mredW _ _ ra rb _ | .mredF _ _ ra rb _ => [(sReg ra, .live), (vReg rb, .index), (⟨.v, rb.toNat + 1⟩, .data)]
  | .mredD _ _ ra rb _ => [(sReg ra, .live), (vReg rb, .index), (⟨.v, rb.toNat + 1⟩, .data), (⟨.v, rb.toNat + 2⟩, .data)]
  | .wait _ _ ra rb | .bari _ ra rb | .barv _ ra rb | .barw _ ra rb | .barx _ ra rb => [(sReg ra, .bar), (sReg rb, .data)]
  | .barz _ ra | .barp _ _ ra => [(sReg ra, .bar)]
  | .cpyGs rd ra rb | .cpySg rd ra rb | .cpyGob rd ra rb | .cpyGb rd ra rb | .cpyCas rd ra rb | .cpySca rd ra rb =>
    cpySources rd ra rb .data true
  | .cpySob rd ra rb => cpySources rd ra rb .data false
  | .cpyCag rd ra rb | .cpyGg rd ra rb => cpySources rd ra rb .live true
  | .caRef ra | .caRel ra | .caStat _ ra => [(sReg ra, .live), (⟨.s, ra.toNat + 1⟩, .pair)]
  | .caGet _ ra => [(sReg ra, .live)]
  | .caSwap rd ra rb =>
    [(sReg rd, .data), (⟨.s, rd.toNat + 1⟩, .data), (sReg ra, .live), (sReg rb, .name), (⟨.s, rb.toNat + 1⟩, .pair), (⟨.s, rb.toNat + 2⟩, .data),
     (⟨.s, rb.toNat + 3⟩, .data)]
  | .cld _ _ ra rb _ => [(sReg ra, .live), (⟨.s, ra.toNat + 1⟩, .pair), (⟨.s, ra.toNat + 2⟩, .data), (vReg rb, .data)]
  | .pref _ _ ra _ => [(sReg ra, .addr)]
  | _ => (instrReads i).map RegRef.plain

/-- Every register the group reads. -/
def readsOf (i : Instr) : List (RReg × Acc) := (instrPred i).map RegRef.plain ++ sourcesOf i

/-! ### Results (rule 13) -/

/-- The depth and width word of a CLD, where the block has made it a constant. -/
def Known.constOf (w : Known) (r : RReg) : Option Nat :=
  if r = zeroReg then some 0 else (w.consts.find? (fun p => p.1 == r)).map (·.2)

def cldWidth (w : Known) (ra : Reg) : Option Nat := (w.constOf ⟨.s, ra.toNat + 2⟩).map (fun x => 2 ^ bits x 9 8)

/-- The registers a group writes. -/
def writesOf (w : Known) (i : Instr) : List RReg :=
  (instrWrites i).map RegRef.rreg ++ (match i with
    | .cld _ rd ra _ _ => if cldWidth w ra = some 8 then [⟨.v, rd.toNat + 1⟩] else []
    | _ => [])

def loadTy : Width → Ty
  | .b | .h => .n32
  | .w => .i32
  | .d => .i64

/-- The type of an instruction's lane result (Tables 11-1, 12-1). -/
def laneTy (w : Known) (i : Instr) : Ty :=
  match i with
  | .vun _ fn _ _ => (match fn with
    | .clz | .popc | .lane | .zextb | .zexth => .n32
    | .mov | .not | .neg | .abs | .brev | .bcst | .sextb | .sexth => .i32)
  | .falu .. | .falus .. | .ffma .. => .f32
  | .funit _ fn _ _ => if fn = .cls then .n32 else .f32
  | .halu _ bf .. => if bf then .b2 else .h2
  | .hfma _ bf wide .. => if wide then .f32 else if bf then .b2 else .h2
  | .cvt _ fn .. => (match fn with
    | .f32I32 | .f32N32 | .f16l | .f16h | .bf16l | .bf16h => .f32
    | .i32F32Rz | .i32F32Rne | .i32F32Rd | .i32F32Ru => .i32
    | .n32F32Rz | .n32F32Rne => .n32
    | .f16x2 => .h2
    | .bf16x2 | .bf16x2Rz => .b2)
  | .cvt8Unpack .. | .afadd .. => .f32
  | .ldl _ _ wd .. | .ldi _ wd .. => loadTy wd
  | .lds _ _ dbl .. => if dbl then .i64 else .i32
  | .rldsF _ bf .. => if bf then .b2 else .f32
  | .pldd .. => .i64
  | .cld _ _ ra _ _ => (match cldWidth w ra with
    | some 8 => .i64
    | some 4 => .i32
    | _ => .n32)
  | _ => .i32

/-- Each register that a group writes with the type it receives; none is dead. -/
def resultsOf (w : Known) (i : Instr) : List (RReg × Option Ty) :=
  let name (rd : Reg) : List (RReg × Option Ty) := [(⟨.s, rd.toNat + 1⟩, none), (sReg rd, some .name)]
  match i with
  | .call _ => [(⟨.s, 127⟩, some .ret)]
  | .obRes rd _ => [(sReg rd, some .ob)]
  | .obRel ra => [(sReg ra, none)]
  | .tlkLock rd _ _ => [(sReg rd, some .lock)]
  | .tlkUnlk ra => [(sReg ra, none)]
  | .redf _ rd _ => [(sReg rd, some .f32)]
  | .barp _ rd _ => [(sReg rd, some .n32)]
  | .caLoa rd _ | .caNode rd _ => name rd
  | .caRel ra => [(sReg ra, none), (⟨.s, ra.toNat + 1⟩, none)]
  | .caGet rd _ | .cpySca rd _ _ => name rd ++ [(⟨.s, rd.toNat + 2⟩, some .i64), (⟨.s, rd.toNat + 3⟩, some .i64)]
  | _ =>
    (instrWrites i).filterMap (fun r =>
      match r with
      | .v q => if laneTy w i = .i64 ∧ q.toNat % 2 = 1 then none else some (vReg q, some (laneTy w i))
      | .k q => some (kReg q, some .mask)
      | .s q => some (sReg q, some .i64)
      | .a _ => none)

/-- The constant a group writes, where its sources are constants. -/
def constResult (w : Known) (i : Instr) : Option (RReg × Nat) :=
  let s (rd ra : Reg) (f : Nat → Nat) : Option (RReg × Nat) := (w.constOf (sReg ra)).map (fun x => (sReg rd, f x % 2 ^ 64))
  let u (m : Int) : Nat := (m % 2 ^ 64).toNat
  let shift (k : ShiftKind) (z n x : Nat) : Nat := match k with
    | .shl => x * 2 ^ n
    | .shr => x / 2 ^ n
    | .sra => ((sextN z x / 2 ^ n) % 2 ^ z).toNat
  match i with
  | .saddi x rd ra imm => s rd ra (fun a => a + u (imm64 x imm).toInt)
  | .sandi x rd ra imm => s rd ra (fun a => a &&& u (imm64 x imm).toInt)
  | .sori x rd ra imm => s rd ra (fun a => a ||| u (imm64 x imm).toInt)
  | .sshi k rd ra n => s rd ra (fun a => shift k 64 n.toNat a)
  | .slui rd imm => some (sReg rd, u (imm.toInt * 2 ^ 14))
  | .vun none .bcst rd ra => (w.constOf (sReg ra)).map (fun x => (vReg rd, x % 2 ^ 32))
  | .vun none .mov rd ra => (w.constOf (vReg ra)).map (fun x => (vReg rd, x))
  | .vaddi x none rd ra imm => (w.constOf (vReg ra)).map (fun a => (vReg rd, (a + u (imm64 x imm).toInt) % 2 ^ 32))
  | .vshi none k rd ra n => (w.constOf (vReg ra)).map (fun a => (vReg rd, shift k 32 n.toNat a % 2 ^ 32))
  | _ => none

/-- A predicate makes a lane write partial (R166, item 1). -/
def whole (p : Pfx) : Bool :=
  match p with
  | none => true
  | some q => q.pred == 0

/-- Results given one by one. -/
def Known.writeAll (w : Known) (l : List (RReg × Option Ty)) : Known := l.foldl (fun w p => w.write p.1 p.2) w

/-- The first load of R164 from the region table: the pointer or the length it gives. -/
def Img.tableLoad (im : Img) (off : Int) : Ty :=
  let j := (off / 32).toNat
  match im.decl j with
  | some d => if off % 32 = 0 then .ptr j (bits d 9 8) true else if off % 32 = 8 then .len j else .i64
  | none => .i64

/-- What a group does to what is known, its edges apart (R166, R169, R307, R318). Of the lane compares VCMP alone can decide an edge: a
VCMPS compares with part of a scalar register. -/
def Img.effect (im : Img) (i : Instr) (w : Known) : Known :=
  let c := constResult w i
  let w' : Known := match i with
    | .saddi x rd ra imm =>
      let k := (imm64 x imm).toInt
      let plain := w.move (sReg rd) (sReg ra) k .i64
      match w.own (sReg ra) with
      | some (.ptr r e _) =>
        if 0 ≤ k ∧ k % (2 ^ e : Nat) = 0 ∧ w.implied (.val zeroReg) (k / (2 ^ e : Nat)) (.rem ra.toNat) then
          w.movePtr (sReg rd) (sReg ra) k (k.toNat / 2 ^ e) r e
        else plain
      | _ =>
        if ra = 0 ∧ 0 ≤ k ∧ k % 16 = 0 ∧ k / 16 < hBars im.hdr then w.move (sReg rd) (sReg ra) k .bar else plain
    | .vaddi x p rd ra imm =>
      if whole p then w.move (vReg rd) (vReg ra) (sextN 32 ((imm64 x imm).toInt % 2 ^ 32).toNat) .i32
      else w.write (vReg rd) (some .i32)
    | .vun p fn rd ra =>
      if fn = .mov ∧ whole p then w.move (vReg rd) (vReg ra) 0 .i32
      else if fn = .bcst ∧ whole p then w.move (vReg rd) (sReg ra) 0 .i32
      else w.writeAll (resultsOf w i)
    | .chkbLane rd _ rb =>
      match w.own (sReg rb) with
      | some (.len r) => w.write (vReg rd) (some (.idx r))
      | _ => ((w.write (vReg rd) (some .n32)).add ⟨.val zeroReg, 0, .val (vReg rd)⟩).add ⟨.val (vReg rd), 1, .val (sReg rb)⟩
    | .chkbScalar rd _ rb =>
      if rd = 0 then w
      else
        match w.own (sReg rb) with
        | some (.len r) => w.write (sReg rd) (some (.idx r))
        | _ =>
          let w := (w.write (sReg rd) (some .i64)).add ⟨.val zeroReg, 0, .val (sReg rd)⟩
          if rd = rb then w else w.add ⟨.val (sReg rd), 1, .val (sReg rb)⟩
    | .sld x _ dbl rd ra off _ =>
      if dbl ∧ w.own (sReg ra) = some .rtab then w.write (sReg rd) (some (im.tableLoad (offS x off 8)))
      else w.write (sReg rd) (some .i64)
    | .scmp fn rd ra rb =>
      let w := w.write (sReg rd) (some .i64)
      if rd = 0 ∨ rd = ra ∨ rd = rb then w else { w with cmps := ⟨sReg rd, fn, sReg ra, sReg rb⟩ :: w.cmps }
    | .vcmp _ fn kd ra rb =>
      let w := w.write (kReg kd) (some .mask)
      { w with cmps := ⟨kReg kd, fn, vReg ra, vReg rb⟩ :: w.cmps }
    | .allb => { w with brkt := true }
    | .alle => { w with brkt := false }
    | .wbase n => w.window n.toNat
    | .join => { w with depth := w.depth - 1, joins := w.joins.dropLast }
    | .tlkLock rd _ _ => { (w.writeAll (resultsOf w i)) with locks := rd.toNat :: w.locks.filter (· != rd.toNat) }
    | .tlkUnlk ra => { (w.writeAll (resultsOf w i)) with locks := w.locks.filter (· != ra.toNat) }
    | _ => w.writeAll (resultsOf w i)
  match c with
  | some (r, x) => if r = zeroReg then w' else { w' with consts := (r, x) :: w'.consts.filter (fun p => p.1 != r) }
  | none => w'

/-! ### Edges (R166, item 3; R169; R460; R461) -/

/-- The block that starts at a word. -/
def Img.blockAt (im : Img) (w : Int) : Option Nat :=
  (im.blocks.zipIdx.find? (fun p => decide ((p.1.start : Int) = w))).map (·.2)

/-- The word a branch word's offset leads to (R182). -/
def Grp.to (g : Grp) (off : Int) : Int := (g.next : Int) - 1 + off

/-- A jump table whose entries are all blocks: the words they start at. -/
def Img.tableStarts (im : Img) (t : Nat) : Option (List Nat) :=
  (im.jtabs[t]?).bind (fun l => l.mapM (fun e => (im.blocks[e]?).map Blk.start))

/-- The words a group's taken edges lead to; a SWITCH's in its table's order, which is the order in which they are judged (R170 gives
none: DESIGN CHOICE, log entry 28). -/
def Img.targets (im : Img) (g : Grp) (i : Instr) : List Int :=
  match i with
  | .bra off | .call off => [g.to off.toInt]
  | .bu _ _ off => [g.to off.toInt]
  | .bz _ off | .bnz _ off => [g.to off.toInt]
  | .bspl _ _ _ off => [g.to off.toInt]
  | .switch _ t => ((im.tableStarts t.toNat).getD []).eraseDups.map (fun (x : Nat) => (x : Int))
  | _ => []

/-- END, BRA, RET and SWITCH have no fall-through (rule 5). -/
def leaves (i : Instr) : Bool :=
  match i with
  | .endClass | .bra _ | .ret | .switch _ _ => true
  | _ => false

/-- Control transfers, at which a lookahead count stops (R172). -/
def transfers (i : Instr) : Bool :=
  match i with
  | .endClass | .bra _ | .ret | .switch _ _ | .call _ | .bu _ _ _ | .bz _ _ | .bnz _ _ | .bspl _ _ _ _ | .join => true
  | _ => false

/-- What holds on the taken edges and on the fall-through, after the group's effect. -/
structure Flow where
  taken : List (Int × Known)
  fall  : Option Known

/-- At the return point of a CALL, v112–v127 and s112–s127 are dead (R461). -/
def Known.afterCall (w : Known) : Known :=
  w.writeAll (((List.range 16).map (fun j => (⟨.s, 112 + j⟩, none))) ++ ((List.range 16).map (fun j => (⟨.v, 112 + j⟩, none))))

def Img.flow (im : Img) (g : Grp) (i : Instr) (w : Known) : Flow :=
  let t := hTiles im.hdr
  let go (w : Known) : List (Int × Known) := (im.targets g i).map (fun x => (x, w))
  match i with
  | .endClass | .ret => ⟨[], none⟩
  | .bra _ | .switch _ _ => ⟨go w, none⟩
  | .call _ => ⟨go w, some w.afterCall⟩
  | .bu k c _ =>
    let k : RReg := kReg k
    ⟨go (match c with
      | .all => w.decided t k true
      | .none => w.decided t k false
      | .any | .nall => w), some w⟩
  | .bz ra _ => ⟨go (w.decided t (sReg ra) false), some (w.decided t (sReg ra) true)⟩
  | .bnz ra _ => ⟨go (w.decided t (sReg ra) true), some (w.decided t (sReg ra) false)⟩
  | .bspl joinOff k inv _ =>
    let j := (im.blockAt (g.to joinOff.toInt)).getD im.blocks.length
    let w : Known := { w with depth := w.depth + 1, joins := w.joins ++ [j] }
    ⟨go (w.decided t (kReg k) (!inv)), some (w.decided t (kReg k) inv)⟩
  | _ => ⟨[], some w⟩

/-- A type in force meets an entry type (rule 14, R460). -/
def Known.meets (w : Known) (r : RReg) (have_ want : Ty) : Bool :=
  match have_, want with
  | .i32, .n32 => w.implied (.val zeroReg) 0 (.val r)
  | .n32, .i32 => true
  | .ptr a e b, .ptr a' e' b' => a == a' && e == e' && (b || !b')
  | _, _ => have_ == want

/-- A routine block: its annotation types s127 as ret (R461). -/
def Blk.routine (b : Blk) : Bool := b.types.contains (Ty.ret.entry ⟨.s, 127⟩)

/-- A relation as an entry of Table 8-5, with another constant. -/
def relWord (x : Nat) (c : Int) : Nat := x % 2 ^ 20 + (c % 2 ^ 32).toNat * 2 ^ 32

/-- The register of a relation entry that a record reports: the left one, or the right one where the left is s0. -/
def relReg (x : Nat) : Nat := if x % 512 = 0 then bits x 18 10 else x % 512

/-- The edge rules into a block, in ascending order (R170). `call` is a CALL's taken edge, on which depth, bracket and locks are
not compared (R461). -/
def Img.edgeFlaws (im : Img) (w : Known) (call : Bool) (t : Nat) : List Flaw :=
  match im.blocks[t]? with
  | none => []
  | some b =>
    match im.rule3 b with
    | some r => [{ rule := 3, reg := r, aux := t }]
    | none =>
      let tiles := hTiles im.hdr
      let e := b.known
      let bad14 := e.types.filterMap (fun p =>
        match w.typeOf tiles p.1 with
        | none => some { rule := 14, reg := p.1.code, expect := p.2.entry p.1, aux := t : Flaw }
        | some h =>
          if w.meets p.1 h p.2 then none
          else some { rule := 14, reg := p.1.code, expect := p.2.entry p.1, found := h.entry p.1, aux := t })
      let lost := e.types.filter (fun p => p.2 == .i32 && w.typeOf tiles p.1 == some .n32)
      let w' := lost.foldl (fun (w : Known) p => { w with rels := w.rels.filter (fun x => !x.names p.1) }) w
      let bad36 := b.rels.filterMap (fun x =>
        match termOfBits (x % 1024), termOfBits (bits x 19 10) with
        | some a, some c =>
          if w'.implied a (sextN 32 (x / 2 ^ 32)) c then none
          else some { rule := 36, reg := relReg x, expect := x, aux := t,
                      found := match w'.strongest a c with
                        | some k => relWord x k
                        | none => 0 : Flaw }
        | _, _ => none)
      let lockDiff := (w.locks.filter (fun r => !b.locks.contains r)) ++ (b.locks.filter (fun r => !w.locks.contains r))
      (if b.wb = w.wb then [] else [{ rule := if call then 17 else 11, aux := if call then t else 0 }])
        ++ bad14.take 1
        ++ (if call && (!b.routine || !b.joins.isEmpty || b.brkt || !b.locks.isEmpty) then [{ rule := 17, reg := 127, aux := t }] else [])
        ++ (if call || (w.depth ≤ 15 ∧ w.joins = b.joins) then [] else [{ rule := 21, aux := t }])
        ++ (if call || w.brkt = b.brkt then [] else [{ rule := 25, aux := t }])
        ++ bad36.take 1
        ++ (if call then [] else (lockDiff.head?.map (fun r => { rule := 37, reg := r, aux := t : Flaw })).toList)

/-! ### Split arms (rule 24) -/

/-- The blocks a group of groups leads to; a CALL leads to its return point only. -/
def Img.leadsTo (im : Img) (bi : Nat) (gs : List Grp) : List Nat :=
  gs.flatMap (fun g =>
    match g.ins with
    | .error _ => []
    | .ok i =>
      let ts := match i with
        | .call _ => []
        | _ => (im.targets g i).filterMap im.blockAt
      ts ++ (if g.last && !leaves i then [bi + 1] else []))

/-- Blocks reached from some, without passing `stop`. -/
def reach (succ : Nat → List Nat) (stop : Option Nat) : Nat → List Nat → List Nat
  | 0, seen => seen
  | n + 1, seen =>
    let new := (seen.flatMap succ).filter (fun b => some b != stop && !seen.contains b)
    if new.isEmpty then seen else reach succ stop n (seen ++ new.eraseDups)

/-- One arm of a split: whole blocks, and the rest of the block after its BSPL. -/
structure Arm where
  blocks : List Nat
  rest   : Option (Nat × Nat) := none
  deriving DecidableEq, Repr

def Arm.holds (a : Arm) (bi at_ : Nat) : Bool :=
  a.blocks.contains bi || (match a.rest with
    | none => false
    | some (b, w) => b == bi && decide (w ≤ at_))

/-- Both arms of every BSPL of an image. -/
def Img.arms (im : Img) (gs : List (List Grp)) : List (Arm × Arm) :=
  let n := im.blocks.length
  let succ (b : Nat) : List Nat := im.leadsTo b (gs.getD b [])
  (gs.zipIdx).flatMap (fun p => (p.1.zipIdx).filterMap (fun q =>
    match q.1.ins with
    | .ok (.bspl j _ _ off) =>
      let join := im.blockAt (q.1.to j.toInt)
      let from_ (l : List Nat) : List Nat := reach succ join n (l.filter (fun b => some b != join))
      let after := p.1.drop (q.2 + 1)
      let seeds := if q.1.last then [p.2 + 1] else im.leadsTo p.2 after
      some (⟨from_ (im.blockAt (q.1.to off.toInt)).toList, none⟩, ⟨from_ seeds, if q.1.last then none else some (p.2, q.1.next)⟩)
    | _ => none))

/-- The scalar and k registers that an instruction reads, and those it writes; a CALL writes s112–s127 (R461). -/
def armReads (i : Instr) : List RReg :=
  ((readsOf i).map (·.1)).filter (fun r => (r.file == .s || r.file == .k) && r.num != 0)
def armWrites (w : Known) (i : Instr) : List RReg :=
  (writesOf w i).filter (fun r => (r.file == .s || r.file == .k) && r.num != 0)
    ++ (match i with
      | .call _ => (List.range 16).map (fun j => ⟨.s, 112 + j⟩)
      | _ => [])

/-- A group as rule 24 remembers it. -/
structure ArmUse where
  block  : Nat
  at_    : Nat
  reads  : List RReg
  writes : List RReg
  deriving DecidableEq, Repr

/-- A register that one arm writes and the other uses, found at the later of the two instructions. -/
def armClash (arms : List (Arm × Arm)) (seen : List ArmUse) (u : ArmUse) : Option RReg :=
  let clash (v : ArmUse) : List RReg :=
    u.writes.filter (fun r => v.writes.contains r || v.reads.contains r) ++ u.reads.filter (fun r => v.writes.contains r)
  let here (a : Arm) : Bool := a.holds u.block u.at_
  let others (a : Arm) : List RReg := ((u :: seen).filter (fun v => a.holds v.block v.at_)).flatMap clash
  (arms.flatMap (fun p => (if here p.1 then others p.2 else []) ++ (if here p.2 then others p.1 else []))).head?

/-! ### The rules at an instruction -/

/-- What the walk keeps from instruction to instruction. -/
structure WalkState where
  uses : List ArmUse := []
  ran  : List (List RReg) := []      -- for each runner entry, the registers its slice has written
  deriving DecidableEq, Repr

/-- Class-wide instructions (R35). -/
def isWide (i : Instr) : Bool :=
  match i with
  | .vote .. | .shfl .. | .redi .. | .redf .. | .obRes .. | .obRel .. | .obSt .. | .obLd .. | .obStat .. | .matZero ..
  | .matLoop .. | .matDrain .. | .matStat .. | .cpyGs .. | .cpySg .. | .cpyGob .. | .cpyGb .. | .cpySob .. | .cpyCas ..
  | .cpyCag .. | .cpySca .. | .cpyGg .. | .caLoa .. | .caNode .. | .caRef .. | .caRel .. | .caGet .. | .caSwap .. | .caStat .. => true
  | _ => false

/-- A virtual access: base, index, byte offset, size, whether lane-linear, and whether it writes. -/
structure VAccess where
  base  : Reg
  index : Option Reg := none
  off   : Int := 0
  size  : Nat
  lanes : Bool := false
  load  : Bool
  store : Bool

def vAccess (i : Instr) : Option VAccess :=
  let n (wd : Width) : Nat := Width.bytes wd
  let d (t : Bool) : Nat := if t then 8 else 4
  match i with
  | .ldl x _ wd _ ra off _ => some { base := ra, off := offS x off (n wd), size := n wd, lanes := true, load := true, store := false }
  | .stl x _ wd _ ra off _ => some { base := ra, off := offS x off (n wd), size := n wd, lanes := true, load := false, store := true }
  | .ldi _ wd _ ra rb _ => some { base := ra, index := some rb, size := n wd, load := true, store := false }
  | .sti _ wd _ ra rb _ => some { base := ra, index := some rb, size := n wd, load := false, store := true }
  | .sld x _ t _ ra off _ => some { base := ra, off := offS x off (d t), size := d t, load := true, store := false }
  | .sst x _ t _ ra off _ => some { base := ra, off := offS x off (d t), size := d t, load := false, store := true }
  | .ldaq x _ _ ra off _ => some { base := ra, off := offS x off 4, size := 4, lanes := true, load := true, store := false }
  | .strl x _ _ ra off _ => some { base := ra, off := offS x off 4, size := 4, lanes := true, load := false, store := true }
  | .rldsF _ _ _ ra off _ | .rldsI _ _ ra off _ =>
    some { base := ra, off := off.toInt * 4, size := 4, lanes := true, load := true, store := false }
  | .aadd _ _ ra rb _ | .amin _ _ ra rb _ | .amax _ _ ra rb _ | .aand _ _ ra rb _ | .aor _ _ ra rb _ | .axor _ _ ra rb _
  | .axch _ _ ra rb _ | .acas _ _ ra rb _ | .afadd _ _ ra rb _ | .mredW _ _ ra rb _ | .mredF _ _ ra rb _ =>
    some { base := ra, index := some rb, size := 4, load := false, store := true }
  | .mredD _ _ ra rb _ => some { base := ra, index := some rb, size := 8, load := false, store := true }
  | _ => none

/-- The lookahead of an instruction (R189). -/
def laOf (i : Instr) : Nat :=
  match i with
  | .ldl _ _ _ _ _ _ la | .stl _ _ _ _ _ _ la | .sld _ _ _ _ _ _ la | .sst _ _ _ _ _ _ la | .lds _ _ _ _ _ _ la
  | .sts _ _ _ _ _ _ la => la.toNat
  | .ldi _ _ _ _ _ la | .sti _ _ _ _ _ la | .ldaq _ _ _ _ _ la | .strl _ _ _ _ _ la | .rldsF _ _ _ _ _ la => la.toNat
  | .rldsI _ _ _ _ la | .aadd _ _ _ _ la | .amin _ _ _ _ la | .amax _ _ _ _ la | .aand _ _ _ _ la | .aor _ _ _ _ la
  | .axor _ _ _ _ la | .axch _ _ _ _ la | .acas _ _ _ _ la | .afadd _ _ _ _ la | .mredW _ _ _ _ la | .mredD _ _ _ _ la
  | .mredF _ _ _ _ la | .cld _ _ _ _ la => la.toNat
  | .pldd _ _ _ la | .pstd _ _ _ la => la.toNat
  | _ => 0

/-- Rule 35 (R172): the largest lookahead the following groups permit, and the register that ends it. `dst` and `src` are what the
long-latency instruction writes and reads, named under its window base `wb`; a later group's registers are compared by those names,
since a WBASE leaves the physical registers bound at issue (R49, R213). `w` is what is known before the next group. -/
def Img.lookFrom (im : Img) (wb : Nat) (dst src : List RReg) : Known → Nat → Nat → List Grp → Option (RReg × Nat)
  | _, 0, _, _ => none
  | _, _, _, [] => none
  | w, n + 1, done, g :: rest =>
    match g.ins with
    | .error _ => none
    | .ok j =>
      let named (l : List RReg) : List RReg := l.filterMap (rewindow w.wb wb)
      let hit := ((named ((readsOf j).map (·.1))).filter dst.contains)
        ++ ((named (writesOf w j)).filter (fun r => src.contains r || dst.contains r))
      match hit with
      | r :: _ => some (r, done)
      | [] => if transfers j then none else im.lookFrom wb dst src (im.effect j w) n (done + 1) rest

def Img.lookFlaw (im : Img) (w : Known) (i : Instr) (rest : List Grp) : Option (RReg × Nat) :=
  im.lookFrom w.wb ((writesOf w i).filter (· != zeroReg)) (((readsOf i).map (·.1)).filter (· != zeroReg)) (im.effect i w) (laOf i) 0 rest

/-- A constant scratchpad address (rule 29): n bytes below SCRATCH of the member it names, and no byte written of a barrier
object below BARS. -/
def Img.scratchOk (im : Img) (a n : Nat) (write : Bool) : Bool :=
  decide (a < 2 ^ 22) && decide (a % 2 ^ 20 + n ≤ hScratch im.hdr) && (!write || decide (16 * hBars im.hdr ≤ a % 2 ^ 20))

/-- The scratchpad access of an instruction whose address is a constant: address, bytes, whether it writes. -/
def scratchConst (w : Known) (i : Instr) : Option (Nat × Nat × Bool) :=
  let v (ra : Reg) (x : Imx) (off : BitVec 7) (n : Nat) (wr : Bool) : Option (Nat × Nat × Bool) :=
    (w.constOf (vReg ra)).map (fun a => (a + offU x off n, n, wr))
  match i with
  | .lds x _ dbl _ ra off _ => v ra x off (if dbl then 8 else 4) false
  | .sts x _ dbl _ ra off _ => v ra x off (if dbl then 8 else 4) true
  | .wait _ _ ra _ => (w.constOf (sReg ra)).map (fun a => (a, 4, false))
  | .caLoa _ ra | .caNode _ ra => (w.constOf (sReg ra)).map (fun a => (a, 128, false))
  | _ => none

/-- A CPY's scratchpad operand: its far register, and whether it is written. -/
def cpyScratch (i : Instr) : Option (RReg × Bool) :=
  match i with
  | .cpyGs rd _ _ | .cpyCas rd _ _ => some (⟨.s, rd.toNat + 5⟩, true)
  | .cpySg rd _ _ | .cpySca rd _ _ => some (⟨.s, rd.toNat + 5⟩, false)
  | _ => none

/-- The shape records a CPY reads. -/
def cpyRecords (i : Instr) : List RReg :=
  match i with
  | .cpyGs _ _ rb | .cpySg _ _ rb | .cpyGob _ _ rb | .cpyGb _ _ rb | .cpySob _ _ rb | .cpyCas _ _ rb | .cpySca _ _ rb => [sReg rb]
  | .cpyCag rd _ rb | .cpyGg rd _ rb => [sReg rb, ⟨.s, rd.toNat + 5⟩]
  | _ => []

/-- The register a barrier operation or a WAIT addresses. -/
def barOf (i : Instr) : Option Reg :=
  match i with
  | .bari _ ra _ | .barv _ ra _ | .barw _ ra _ | .barx _ ra _ | .barz _ ra | .barp _ _ ra => some ra
  | _ => none

/-- An instruction that a runner slice may not hold (R173). -/
def runnerBars (g : Grp) (i : Instr) : Bool :=
  (match vAccess i with
    | some a => a.store
    | none => false)
  || isWide i && !(match i with | .vote .. | .shfl .. | .redi .. | .redf .. => true | _ => false)
  || (barOf i).isSome || (privLevel (wOp g.insn)).isSome
  || (match i with
    | .sts .. | .wait .. | .trap .. | .brk .. | .launch .. | .call .. => true
    | _ => false)

/-- One flaw where a condition fails. -/
def require (ok : Bool) (f : Flaw) : List Flaw := if ok then [] else [f]

/-- Registers outside the allocation, tiles that are not declared, a k0 destination (rule 9). -/
def Img.rule9 (im : Img) (w : Known) (i : Instr) : List Flaw :=
  let n := hRegs im.hdr
  let regs := (readsOf i).map (·.1) ++ writesOf w i
  let bad (r : RReg) : Bool := match r.file with
    | .v => decide (127 < r.num) || decide (n ≤ (if r.num ≤ 15 then r.num else r.num + w.wb))
    | .a => decide (hTiles im.hdr ≤ r.num)
    | .s | .k => false
  (((regs.filter bad) ++ (writesOf w i).filter (fun r => r == ⟨.k, 0⟩)).map
    (fun r => { rule := 9, reg := if r.num ≤ 127 then r.code else 0x1FF : Flaw })).take 1

/-- Pairs and quartets that must begin at an even register or a multiple of 4 (rule 10). -/
def rule10 (w : Known) (i : Instr) : List Flaw :=
  let v (ok : Bool) (r : Reg) : List Flaw := require ok { rule := 10, reg := (vReg r).code }
  let s (ok : Bool) (r : Reg) : List Flaw := require ok { rule := 10, reg := (sReg r).code }
  match i with
  | .ldl _ _ wd rd .. | .stl _ _ wd rd .. => v (wd.regOk rd) rd
  | .ldi _ wd rd .. | .sti _ wd rd .. => v (wd.regOk rd) rd
  | .lds _ _ dbl rd .. | .sts _ _ dbl rd .. => v (!dbl || evenReg rd) rd
  | .hfma _ _ wide rd .. => v (!wide || evenReg rd) rd
  | .pldd rd ra .. | .pstd rd ra .. => v (evenReg rd) rd ++ v (evenReg ra) ra
  | .mredD _ _ _ rb _ => v (!evenReg rb) rb
  | .caLoa rd _ | .caNode rd _ | .cpySca rd _ _ => s (evenReg rd) rd
  | .caRef ra | .caRel ra | .caStat _ ra => s (evenReg ra) ra
  | .caGet rd _ => s (quadReg rd) rd
  | .caSwap rd _ rb => s (evenReg rd) rd ++ s (quadReg rb) rb
  | .cld _ rd ra _ _ => s (evenReg ra) ra ++ v (cldWidth w ra != some 8 || evenReg rd) rd
  | _ => []

/-- A term's ten bits in a relation entry (Table 8-5). -/
def Term.code (t : Term) : Nat :=
  match t with
  | .val r => r.code
  | .rem n => n + 512
  | .ext _ => 0

/-- A relation that a rule needs, and the strongest that holds (R175). -/
def Known.relFlaw (w : Known) (rule : Nat) (reg : RReg) (a : Term) (c : Int) (b : Term) : List Flaw :=
  let bits_ : Nat := a.code + b.code * 2 ^ 10
  require (w.implied a c b) { rule := rule, reg := reg.code, expect := relWord bits_ c, found := ((w.strongest a b).map (relWord bits_)).getD 0 }

/-- A lane index is at least zero and below n (rules 18 and 31). -/
def Known.indexFlaws (w : Known) (tiles rule : Nat) (r : RReg) (n : Int) : List Flaw :=
  (if w.nonneg tiles r then [] else w.relFlaw rule r (.val zeroReg) 0 (.val r)) ++ w.relFlaw rule r (.val r) (1 - n) (.val zeroReg)

/-- Rules 26 to 28 and 15 on a virtual access (R164, R167). An indexed access that fails rule 26 is reported on its index (R312); where the
base is no pointer, as an index into region 0 (log entry 28). -/
def Img.accessFlaws (im : Img) (w : Known) (a : VAccess) : List Flaw :=
  let tiles := hTiles im.hdr
  let base := sReg a.base
  let have_ := w.typeOf tiles base
  let indexed (x : Reg) (r : Nat) : Flaw :=
    { rule := 26, reg := (vReg x).code, expect := (Ty.idx r).entry (vReg x), found := ((w.typeOf tiles (vReg x)).map (fun t => t.entry (vReg x))).getD 0 }
  match have_ with
  | some .rtab => require (a.load && !a.lanes && a.index.isNone && decide (0 ≤ a.off ∧ a.off + a.size ≤ 2048)) { rule := 28, reg := base.code }
  | some (.ptr r e _) =>
    let count := if a.lanes then hLanes im.hdr else 1
    let need : Int := a.off / (a.size : Int) + count
    let rule26 : List Flaw :=
      match a.index with
      | some x => require (2 ^ e == a.size && w.provenIndex tiles base (vReg x) a.size) (indexed x r)
      | none =>
        if 2 ^ e ≠ a.size then
          [{ rule := 26, reg := base.code, expect := (Ty.ptr r (Nat.log2 a.size) false).entry base, found := (have_.getD .i32).entry base }]
        else if w.provenRun base a.off a.size count then []
        else
          [{ rule := 26, reg := base.code, expect := relWord (Term.code (.rem base.num) * 2 ^ 10) need,
             found := ((w.strongest (.val zeroReg) (.rem base.num)).map (relWord (Term.code (.rem base.num) * 2 ^ 10))).getD 0 }]
    rule26 ++ require ((!a.load || im.right r 12) && (!a.store || im.right r 11)) { rule := 27, reg := base.code }
      ++ require (!a.store || r != 0) { rule := 28, reg := base.code }
  | _ =>
    match a.index with
    | some x => [indexed x 0]
    | none =>
      [{ rule := 26, reg := base.code, expect := (Ty.ptr 0 (Nat.log2 a.size) false).entry base,
         found := (have_.map (fun t => t.entry base)).getD 0 }]

/-- Rules 29 to 34 and 40: operands with types or proofs of their own. -/
def Img.operandFlaws (im : Img) (w : Known) (i : Instr) : List Flaw :=
  let tiles := hTiles im.hdr
  let ty (r : Reg) : Option Ty := w.typeOf tiles (sReg r)
  let is (rule : Nat) (r : Reg) (t : Ty) : List Flaw :=
    require (ty r == some t) { rule := rule, reg := (sReg r).code, expect := t.entry (sReg r), found := ((ty r).map (fun x => x.entry (sReg r))).getD 0 }
  let wholeIn (rule : Nat) (r : RReg) (size right : Nat) : List Flaw :=
    match w.own r with
    | some (.ptr q e _) =>
      if w.provenWhole r size = some q then require (im.right q right) { rule := rule, reg := r.code }
      else w.relFlaw rule r (.val zeroReg) (size / 2 ^ e : Nat) (.rem r.num)
    | t => [{ rule := rule, reg := r.code, expect := (Ty.ptr 0 0 false).entry r, found := (t.map (fun x => x.entry r)).getD 0 }]
  let slotRight (r : Reg) (b : Nat) : List Flaw := match w.own (sReg r) with
    | some (.ptr q _ _) => require (im.right q b) { rule := 15, reg := (sReg r).code }
    | _ => []
  let const29 := match scratchConst w i with
    | some (a, n, wr) => require (im.scratchOk a n wr) { rule := 29 }
    | none => []
  let bars := match barOf i with
    | some r => is 30 r .bar ++ require (hBars im.hdr != 0) { rule := 30, reg := (sReg r).code }
    | none => match i with
      | .wait _ _ ra _ =>
        let inBar := match w.constOf (sReg ra) with
          | some a => decide (a % 2 ^ 20 < 16 * hBars im.hdr)
          | none => false
        if ty ra = some .bar then require (hBars im.hdr != 0) { rule := 30, reg := (sReg ra).code }
        else if inBar then is 30 ra .bar else []
      | _ => []
  let own := match i with
    | .caRef ra | .caRel ra | .caStat _ ra => is 31 ra .name
    | .caGet _ ra => slotRight ra 12 ++ wholeIn 31 (sReg ra) 32 10
    | .caSwap _ ra _ => slotRight ra 11 ++ wholeIn 31 (sReg ra) 32 10
    | .cld _ _ ra rb _ =>
      let word := w.constOf ⟨.s, ra.toNat + 2⟩
      let extent := match word with
        | some x => if bits x 63 10 = 0 ∧ bits x 7 4 = 0 ∧ bits x 3 0 ≤ 8 then 128 * 8 ^ bits x 3 0 else 0
        | none => 0
      is 31 ra .name
        ++ require (extent != 0) { rule := 31, reg := (⟨.s, ra.toNat + 2⟩ : RReg).code }
        ++ w.indexFlaws tiles 31 (vReg rb) extent
    | .obRel ra | .obStat _ ra => is 33 ra .ob
    | .obSt _ ra _ | .obLd _ ra _ => is 33 ra .ob
    | .matLoop _ _ rb => is 34 rb .ob
    | .matDrain _ _ rb => if rb = 0 then [] else is 34 rb .ob
    | .launch _ ra => wholeIn 40 (sReg ra) 128 12
    | _ => []
  let cpy := (cpyRecords i).flatMap (fun r => wholeIn 32 r 128 12) ++ (match cpyScratch i with
    | some (r, wr) => match w.constOf r with
      | some a => require (im.scratchOk a 1 wr) { rule := 32, reg := r.code }
      | none => []
    | none => [])
  const29 ++ bars ++ own ++ cpy

/-- Rules 17 to 25 and 37 on the instruction itself (R169, R461), with rule 17 on a routine's edge into a block that is no routine
block. ALLE is taken at depth 0 alone, though rule 25 names no depth for it (DESIGN CHOICE, log entry 28). -/
def Img.controlFlaws (im : Img) (b : Blk) (bi : Nat) (g : Grp) (i : Instr) (w : Known) : List Flaw :=
  let tiles := hTiles im.hdr
  let inside := if b.routine then
      let wrote := (writesOf w i).find? (fun r => !(r == zeroReg || (r.file == .v && decide (112 ≤ r.num))
        || (r.file == .s && decide (112 ≤ r.num ∧ r.num ≤ 126))))
      let banned := isWide i || (match i with
        | .bspl .. | .join | .endClass | .kend | .allb | .alle | .wbase .. | .call .. | .launch .. | .tlkLock .. | .tlkUnlk .. => true
        | _ => false)
      let outs := (im.targets g i).filterMap im.blockAt ++ (if g.last && !leaves i then [bi + 1] else [])
      let out := outs.find? (fun t => match im.blocks[t]? with
        | some x => !x.routine
        | none => false)
      (out.map (fun t => { rule := 17, aux := t : Flaw })).toList
        ++ require (b.joins.isEmpty && !b.brkt && b.locks.isEmpty && wrote.isNone && !banned)
          { rule := 17, reg := (wrote.map RReg.code).getD 0x1FF }
    else []
  let own := match i with
    | .call _ => require (im.blockAt g.next).isSome { rule := 17 }
      ++ ((w.locks.find? (fun r => decide (112 ≤ r ∧ r ≤ 127))).map (fun r => { rule := 37, reg := r : Flaw })).toList
    | .ret => require (w.typeOf tiles ⟨.s, 127⟩ == some .ret)
        { rule := 17, reg := 127, expect := Ty.ret.entry ⟨.s, 127⟩, found := ((w.typeOf tiles ⟨.s, 127⟩).map (fun t => t.entry ⟨.s, 127⟩)).getD 0 }
    | .switch ra t =>
      let n := ((im.jtabs[t.toNat]?).getD []).length
      require (im.tableStarts t.toNat).isSome { rule := 18 }
        ++ w.indexFlaws tiles 18 (vReg ra) n
    | .bspl joinOff _ _ _ =>
      let j := g.to joinOff.toInt
      require ((im.blockAt j).isSome && im.code[j.toNat]? == some 0x18000000) { rule := 20 }
        ++ require (decide (w.depth < 15)) { rule := 21 }
    | .join => require (decide (0 < w.depth) && w.joins.getLast? == some bi && g.at_ == b.start) { rule := 22 }
    | .allb => require (w.depth == 0 && !w.brkt) { rule := 25 }
    | .alle => require (w.depth == 0 && w.brkt) { rule := 25 }
    | .endClass => require (!w.brkt) { rule := 25 } ++ (w.locks.head?.map (fun r => { rule := 37, reg := r : Flaw })).toList
    | .tlkUnlk ra => require (w.locks.contains ra.toNat) { rule := 37, reg := ra.toNat }
    | .wbase n => require (n.toNat % 16 == 0 && decide (n.toNat ≤ hRegs im.hdr - 128) && w.depth == 0) { rule := 11 }
    | .trap code => require (hLvl im.hdr == 1 || decide (code.toNat ≤ 1023)) { rule := 39 }
    | .brk code => require (hLvl im.hdr == 1 || decide (code.toNat ≤ 255)) { rule := 39 }
    | _ => []
  let held := (writesOf w i).filterMap (fun r => if r.file = .s ∧ w.locks.contains r.num then some { rule := 37, reg := r.code : Flaw } else none)
  inside ++ own ++ require (!isWide i || w.depth == 0) { rule := 23 } ++ held
    ++ require ((im.targets g i).all (fun t => (im.blockAt t).isSome)) { rule := 16 }

/-- The contents of runner slices (rule 38, R173). A k register cannot be listed, so a slice reads none that it has not written. -/
def Img.runnerFlaws (im : Img) (ran : List (List RReg)) (g : Grp) (i : Instr) : List Flaw :=
  (im.runners.zip ran).flatMap (fun p =>
    if p.1.start ≤ g.at_ ∧ g.at_ < p.1.stop then
      let missing := ((readsOf i).map (·.1)).find? (fun r =>
        r != zeroReg && !p.2.contains r && (match r.file with
          | .v => !bit p.1.vmap r.num
          | .s => !bit p.1.smap r.num
          | .k => r.num != 0
          | .a => false))
      require (!runnerBars g i && missing.isNone) { rule := 38, reg := (missing.map RReg.code).getD 0x1FF }
    else [])

/-- The relation that a predicate adds for its instruction alone (R166, item 4). -/
def Img.predicated (im : Img) (i : Instr) (w : Known) : Known :=
  match instrPfx i with
  | none => w
  | some p => if p.pred = 0 then w else w.decided (hTiles im.hdr) (kReg p.pred) (!p.inv)

/-- The flaw of lowest rule; of several, the first. -/
def leastFlaw (l : List Flaw) : Option Flaw :=
  l.foldl (fun m f => match m with
    | none => some f
    | some x => if f.rule < x.rule then some f else m) none

/-- Every rule at one group of a block, and what is known after it (R170, item 3). -/
def Img.visit (im : Img) (arms : List (Arm × Arm)) (b : Blk) (bi : Nat) (g : Grp) (rest : List Grp) (w : Known) (k : WalkState) :
    Except Flaw (Known × WalkState) :=
  let lastBlock := bi + 1 == im.blocks.length
  let early := require (!g.words.contains 0x06000000) { rule := 4 }
    ++ require (!(lastBlock && g.last) || [0x02, 0x04, 0x06, 0x07].contains (wOp g.insn).toNat) { rule := 5 }
  match g.ins with
  | .error r =>
    .error ((leastFlaw (early ++ [{ rule := r }])).getD { rule := r })
  | .ok i =>
    let w' := im.effect i w
    let fl := im.flow g i w'
    let call := match i with
      | .call _ => true
      | _ => false
    let taken := fl.taken.flatMap (fun p => match im.blockAt p.1 with
      | some t => im.edgeFlaws p.2 call t
      | none => [])
    let fall := match fl.fall with
      | some f => if g.last && !lastBlock then im.edgeFlaws f false (bi + 1) else []
      | none => []
    let p := im.predicated i w
    let tiles := hTiles im.hdr
    let dead := ((readsOf i).filter (fun r => r.1 != ⟨.k, 0⟩ && r.2 != .pair)).filterMap (fun r => match w.typeOf tiles r.1 with
      | none => some { rule := 12, reg := r.1.code, expect := r.2.least.entry r.1 : Flaw }
      | some t => if r.2.takes t then none else some { rule := 12, reg := r.1.code, expect := r.2.least.entry r.1, found := t.entry r.1 })
    let table := match i with
      | .sld x _ true _ ra off _ =>
        let o := offS x off 8
        require (w.own (sReg ra) != some .rtab || o < 0 || (o % 32 != 0 && o % 32 != 8) || (im.decl (o / 32).toNat).isSome)
          { rule := 15, reg := (sReg ra).code }
      | _ => []
    let use : ArmUse := ⟨bi, g.at_, armReads i, armWrites w i⟩
    let look := match im.lookFlaw w i rest with
      | some (r, n) => [{ rule := 35, reg := r.code, expect := laOf i, found := n : Flaw }]
      | none => []
    let flaws := taken ++ fall ++ early ++ (g.broken.map (fun r => { rule := r : Flaw })).toList
      ++ require (hLvl im.hdr != 2 || (privLevel (wOp g.insn)).isNone) { rule := 8 }
      ++ im.rule9 w i ++ rule10 w i ++ dead.take 1 ++ table
      ++ im.controlFlaws b bi g i w
      ++ ((armClash arms k.uses use).map (fun r => { rule := 24, reg := r.code : Flaw })).toList
      ++ ((vAccess i).map (im.accessFlaws p)).getD []
      ++ im.operandFlaws p i ++ look ++ im.runnerFlaws k.ran g i
    match leastFlaw flaws with
    | some f => .error f
    | none =>
      let ran := (im.runners.zip k.ran).map (fun q => if q.1.start ≤ g.at_ ∧ g.at_ < q.1.stop then writesOf w i ++ q.2 else q.2)
      .ok (fl.fall.getD w', { uses := use :: k.uses, ran := ran })

/-! ### The walk (R170) -/

/-- The groups of one block, from its annotation on. -/
def Img.walkGroups (im : Img) (arms : List (Arm × Arm)) (b : Blk) (bi : Nat) : List Grp → Known → WalkState → Except (Flaw × Grp) WalkState
  | [], _, k => .ok k
  | g :: rest, w, k =>
    match im.visit arms b bi g rest w k with
    | .error f => .error (f, g)
    | .ok (w, k) => im.walkGroups arms b bi rest w k

/-- The blocks in order; `e` counts the annotation entries of the blocks begun (R312). -/
def Img.walkBlocks (im : Img) (arms : List (Arm × Arm)) : List (Blk × List Grp) → Nat → Nat → WalkState → Option Refused
  | [], _, e, _ =>
    let n := hNwords im.hdr
    let last := im.code.getLast?.getD 0
    if last = 0x06000000 then none
    else some { flaw := { rule := 4 }, word := n - 1, insn := last.toNat, cycles := 64 + cdiv n 4 + hNblocks im.hdr + cdiv e 2 }
  | (b, gs) :: rest, bi, e, k =>
    let e := e + b.entries
    let cost (words : Nat) : Nat := 64 + cdiv words 4 + (bi + 1) + cdiv e 2
    match im.rule3 b with
    | some r => some { flaw := { rule := 3, reg := r }, block := bi, cycles := cost b.start }
    | none =>
      if bi = hEntry im.hdr ∧ !b.entryOk then some { flaw := { rule := 41 }, block := bi, cycles := cost b.start }
      else
        match im.walkGroups arms b bi gs b.known k with
        | .error (f, g) => some { flaw := f, block := bi, word := g.at_, insn := g.insn.toNat, cycles := cost g.next }
        | .ok k => im.walkBlocks arms rest (bi + 1) e k

/-- The whole check of an image: refused, or admitted with its cycles (R170, R171, R312). -/
def checkImage (rd : Reader) (level : Nat) : Except AdmErr (Img × Nat) :=
  match readImage rd level with
  | .error e => .error e
  | .ok im =>
    match im.beforeWalk with
    | some r => .error (.refused r)
    | none =>
      let gs := im.blocks.map im.groups
      match im.walkBlocks (im.arms gs) (im.blocks.zip gs) 0 0 { ran := im.runners.map (fun _ => []) } with
      | some r => .error (.refused r)
      | none => .ok (im, 64 + cdiv (hNwords im.hdr) 4 + im.blocks.length + cdiv ((im.blocks.map Blk.entries).sum) 2)

end Sys2Proof.Machine
end

