-- ==== Sys2Proof/Machine/Registrar.lean ====
section
/-!
DEFINITION. SEAL (16_privilege.md R348, R350) and what the Registrar does with its requests: admission, the fault record and
sealing (08_admission.md R170, R175, R176; 17_translation.md R373), and the unsealing of an image (R375).
-/

namespace Sys2Proof.Machine

/-! ### Whose image -/

/-- The partition whose images a SEAL acts on: the issuer's; level 0 acts for the partition SELVMID names (log entry 60). -/
def State.sealVmid (s : State) : Nat := if s.cls.level = 0 then (s.word .dev 0x002).toNat % 64 else s.cls.vmid

/-- And the tenant whose tables translate its addresses: level 0 takes SELASID. -/
def State.sealAsid (s : State) : Nat :=
  if s.cls.level = 0 then (s.word (.part s.sealVmid) 0x003).toNat % 2 ^ 16 else s.cls.asid

/-- The issuer lacks a right. -/
def State.lacks (s : State) (bitNo : Nat) : Bool := !(s.rights s.cls.level s.cls.vmid s.cls.asid).getLsbD bitNo

/-- What ADMIT writes for a request that ends without a handle. -/
def noHandle (st : DWord) : DWord := BitVec.ofNat 64 (2 ^ 63) + st

/-! ### SEAL.ADMIT, SEAL.SEAL -/

/-- SEAL.ADMIT: the request joins the Registrar's queue, and the split waits for its status. -/
def execSealAdmit (rd ra rb : Reg) (s : State) : Out :=
  .next (guarded (.sealAdmit rd ra rb) (fun s =>
    if 2 ≤ s.cls.level then raise { cause := .priv } s
    else if s.lacks 0 then raise { cause := .right, aux := 0 } s
    else if (s.getS ra).toNat % 64 ≠ 0 ∨ (s.getS rb).toNat % 64 ≠ 0 then retire (s.setS rd (noHandle statusBadarg))
    else
      let q : AdmitReq :=
        { cls := s.cls.id, split := s.iss.split, rd := rd, vmid := s.sealVmid, asid := s.sealAsid, level := s.cls.level,
          image := (s.getS ra).toNat, block := (s.getS rb).toNat }
      blockOn .status { s with admits := s.admits ++ [q] }) s)

/-- SEAL.SEAL: level 0 marks frames sealed; frames that the map does not cover give BADARG (log entry 26). -/
def execSealSeal (rd ra rb : Reg) (s : State) : Out :=
  .next (guarded (.sealSeal rd ra rb) (fun s =>
    let a := (s.getS ra).toNat
    let n := (s.getS rb).toNat
    if s.cls.level ≠ 0 then raise { cause := .priv } s
    else if a % 4096 ≠ 0 ∨ n < 1 ∨ 2 ^ 20 < n ∨ s.sealLimit < a / 4096 + n then retire (s.setS rd statusBadarg)
    else retire ((s.seal ((List.range n).map (fun i => a / 4096 + i))).setS rd statusDone)) s)

/-! ### A status that comes later (R348) -/

/-- Write the status of a class's split, live or saved, and let the split go on. -/
def Cls.giveStatus (split : Nat) (rd : Reg) (x : DWord) (c : Cls) : Cls :=
  let c := c.setS rd x
  if (c.split split).state = .blocked .status then c.modSplit split (fun sp => { sp with state := .ready, age := 0 }) else c

/-- Apply a function to a class wherever it is: live, or in a saved context. -/
def State.modAny (s : State) (id : Nat) (f : Cls → Cls) : State :=
  let s := s.modCls id f
  { s with saved := s.saved.map (fun x => { x with classes := x.classes.map (fun c => if c.id = id then f c else c) }) }

def finishStatus (cls split : Nat) (rd : Reg) (x : DWord) (s : State) : State := s.modAny cls (Cls.giveStatus split rd x)

/-! ### Stage-1 leaves (R373, R375) -/

/-- SEALED 1, X 1, W 0. -/
def sealLeaf (e : Nat) : Nat := setBits (setBits (setBits e 4 4 1) 3 3 1) 2 2 0
/-- SEALED 0, X 0, W 1. -/
def unsealLeaf (e : Nat) : Nat := setBits (setBits (setBits e 4 4 0) 3 3 0) 2 2 1

/-! ### REGISTRAR_ADMISSION -/

/-- The fault record of a refused image (Table 8-10). -/
def Refused.record (r : Refused) (image : Nat) : Nat :=
  image * 2 ^ 448 + r.block * 2 ^ 416 + r.word * 2 ^ 384 + r.flaw.rule * 2 ^ 376 + r.flaw.reg * 2 ^ 365 + r.insn * 2 ^ 320
    + r.flaw.expect * 2 ^ 256 + r.flaw.found * 2 ^ 192 + r.flaw.aux * 2 ^ 128 + r.cycles * 2 ^ 64

/-- The pool a request supplies (R350). -/
structure Pool where
  base : Nat
  n    : Nat
  frec : Nat
  deriving DecidableEq, Repr

/-- The request block, if it is legal and can be read. -/
def State.poolOf (s : State) (q : AdmitReq) : Option Pool × State :=
  match s.unitNum q.vmid q.asid q.block 32 with
  | (.error _, s) => (none, s)
  | (.ok x, s) =>
    let p : Pool := { base := bits x 63 0, n := bits x 127 64, frec := bits x 191 128 }
    if bits x 255 192 ≠ 0 ∨ p.n < 1 ∨ 2 ^ 20 < p.n ∨ p.base % 4096 ≠ 0 ∨ p.frec % 64 ≠ 0 then (none, s) else (some p, s)

/-- The frame of a pool page: mapped with W by a 4 KiB leaf, below SEALLIM (R350, R373). -/
def State.poolFrame (s : State) (q : AdmitReq) (va : Nat) : Option Nat :=
  match s.stage1 q.vmid q.asid va .none, s.unitAddr q.vmid q.asid va .w with
  | .ok (_, size), .ok p => if size = 4096 ∧ !p.peer ∧ p.pa / 4096 < s.sealLimit then some (p.pa / 4096) else none
  | _, _ => none

/-- The frames of every pool page. -/
def State.poolFrames (s : State) (q : AdmitReq) (p : Pool) : Option (List Nat) :=
  (List.range p.n).foldr (fun i r =>
    match s.poolFrame q (p.base + 4096 * i), r with
    | some f, some l => some (f :: l)
    | _, _ => none) (some [])

/-- The sealed jump tables: word offsets of the blocks from the first code word (R207). An entry of a table that no SWITCH
uses may name no block: what stands in its place is free (log entry 61). -/
def Img.sealedTables (im : Img) (free : Nat) : List (List Nat) :=
  im.jtabs.map (fun t => t.map (fun b => ((im.blocks[b]?).map Blk.start).getD (Config.choice free % 2 ^ 32)))

/-- The bytes that go to the page after the code: the tables, then the runner entries. -/
def tableBytes (ts : List (List Nat)) (rs : List RunEntry) : List Byte :=
  ts.flatMap (fun t => toBytes 4 t.length ++ t.flatMap (toBytes 4))
    ++ rs.flatMap (fun r => toBytes 4 r.start ++ toBytes 4 r.stop ++ toBytes 8 r.resv ++ toBytes 16 r.vmap ++ toBytes 16 r.smap)

/-- Write bytes a page at a time for the Registrar, which has checked the pages. -/
def State.unitPut (s : State) (vmid asid va : Nat) (bs : List Byte) : State := (s.unitWrite vmid asid va bs).2

/-- Seal an admitted image in its pool (R176, R373): code and tables written, seal bits set, leaves rewritten and shot down,
and the handle given. -/
def sealImage (q : AdmitReq) (p : Pool) (frames : List Nat) (im : Img) (s : State) : State :=
  let ts := im.sealedTables s.free
  let tb := tableBytes ts im.runners
  let nCode := cdiv (4 * hNwords im.hdr) 4096
  let need := nCode + cdiv tb.length 4096
  if p.n < need then finishStatus q.cls q.split q.rd (noHandle statusNopool) s
  else
    let used := frames.take need
    let pages := (List.range need).map (fun i => p.base + 4096 * i)
    let handle : DWord := BitVec.ofNat 64 (p.base + s.serial % 4096)
    let image : Image :=
      { handle := handle, vmid := q.vmid, header := BitVec.ofNat 512 im.hdr, regions := im.decls.map (BitVec.ofNat 64),
        entry := p.base + 4 * ((im.blocks[hEntry im.hdr]?).map Blk.start).getD 0, code := p.base,
        segb := p.base + 4 * hNwords im.hdr, jtAt := p.base + 4096 * nCode, tables := ts,
        runners := im.runners.map (fun r => (r.start, r.stop, BitVec.ofNat 128 r.vmap, BitVec.ofNat 128 r.smap)),
        pages := pages, frames := used, asid := q.asid }
    let s := (s.unitPut q.vmid q.asid p.base (im.code.flatMap (fun w => toBytes 4 w.toNat))).unitPut q.vmid q.asid
      (p.base + 4096 * nCode) tb
    let s := pages.foldl (fun (s : State) va => rewriteLeaf q.vmid q.asid va sealLeaf s) (s.seal used)
    let s := shoot (pagesTarget q.vmid p.base need) s
    finishStatus q.cls q.split q.rd handle
      { s with serial := (s.serial + 1) % 4096, images := s.images ++ [image], free := s.free + 1 }

/-- The Registrar takes its oldest request (R350). -/
def admitOne (q : AdmitReq) (s : State) : State :=
  let done (x : DWord) (s : State) : State := finishStatus q.cls q.split q.rd x s
  let bad (s : State) : State := done (noHandle statusBadarg) s
  match s.poolOf q with
  | (none, s) => bad s
  | (some p, s) =>
    match s.poolFrames q p, s.unitPieces q.vmid q.asid p.frec 64 .w with
    | some frames, .ok _ =>
      let rd : Reader := fun o n =>
        match ({ s with free := s.free + o } : State).unitNum q.vmid q.asid (q.image + o) n with
        | (.error _, _) => none
        | (.ok x, _) => some x
      let s := { s with free := s.free + 2 ^ 32 }
      match checkImage rd q.level with
      | .error .unread => bad s
      | .error (.refused r) => done (noHandle statusRefused) (s.unitPut q.vmid q.asid p.frec (toBytes 64 (r.record q.image)))
      | .ok (im, _) => sealImage q p frames im s
    | _, _ => bad s

/-- The Registrar waits for accesses that were translated with entries of the pool before its shootdown (R366). -/
def State.poolBusy (s : State) (q : AdmitReq) : Bool :=
  match (s.poolOf q).1 with
  | none => false
  | some p => s.translatedOut (pagesTarget q.vmid p.base p.n)

/-- REGISTRAR_ADMISSION. -/
def execRegistrarAdmission (s : State) : Out :=
  match s.admits with
  | [] => .next s
  | q :: rest => .next (if s.poolBusy q then s else admitOne q { s with admits := rest })

/-! ### UNSEAL (R375) -/

/-- Lines of an image leave every instruction cache. -/
def dropLines (frames : List Nat) (s : State) : State :=
  { s with icache := s.icache.filter (fun p => !frames.contains (p.2 / 64)) }

/-- The class runs under the tables that map the image's pages: those of its ASID, or of one with the same stage-1 root. -/
def State.runsImage (s : State) (im : Image) (c : Cls) : Bool :=
  c.level != 0 && c.vmid == im.vmid && (c.image == im.handle || s.sameTables im.vmid im.asid c.asid)

/-- An address of the image's pages. -/
def Image.covers (im : Image) (pc : Int) : Bool := decide (0 ≤ pc) && im.pages.contains (pc.toNat / 4096 * 4096)

/-- The addresses of the words of the group at a program counter, as far as the tables let them be read. -/
def State.groupAt (s : State) (c : Cls) (pc : Int) : List Int :=
  let word (a : Int) : Option Word :=
    match (if a < 0 then .error { cause := .addr } else (s.unitNum c.vmid c.asid a.toNat 4).1) with
    | .error _ => none
    | .ok x => some (BitVec.ofNat 32 x)
  match word pc with
  | none => [pc]
  | some w =>
    if groupLength [w] < 2 then [pc]
    else
      match word (pc + 4) with
      | none => [pc, pc + 4]
      | some x => if groupLength [w, x] < 3 then [pc, pc + 4] else [pc, pc + 4, pc + 8]

/-- The split's program counter lies in the pages, or its next group has a word there; of one that waits for its children, the address it
joins at, or the group after it. -/
def State.imageStops (s : State) (im : Image) (c : Cls) (sp : Split) : Bool :=
  match sp.state with
  | .free | .joinChild => false
  | .joinParent j => im.covers j || (s.groupAt c (j + 4)).any im.covers
  | .ready | .blocked _ => (s.groupAt c sp.pc).any im.covers

/-- Park the splits of a class that stand in an image's pages. -/
def State.parkCls (s : State) (im : Image) (c : Cls) : Cls :=
  if s.runsImage im c then
    { c with splits := c.splits.map (fun sp => if s.imageStops im c sp then { sp with parked := some im.handle.toNat } else sp) }
  else c

/-- On every core and in every saved context. -/
def parkImage (im : Image) (s : State) : State :=
  let park := s.parkCls im
  let s := s.mapCls park
  { s with saved := s.saved.map (fun x => { x with classes := x.classes.map park }) }

/-- SEAL.UNSEAL, steps 1 to 3. -/
def execSealUnseal (rd ra : Reg) (s : State) : Out :=
  .next (guarded (.sealUnseal rd ra) (fun s =>
    if 2 ≤ s.cls.level then raise { cause := .priv } s
    else if s.lacks 1 then raise { cause := .right, aux := 1 } s
    else
      match s.images.find? (fun im => im.handle == s.getS ra && im.vmid == s.sealVmid && !im.closing) with
      | none => retire (s.setS rd statusBadarg)
      | some im =>
        let im' : Image := { im with closing := true, closer := some (s.cls.id, s.iss.split, rd) }
        let s := blockOn .status { s with images := s.images.map (fun x => if x = im then im' else x) }
        parkImage im' (shoot (pagesTarget im.vmid im.code im.pages.length) (dropLines im.frames s))) s)

/-- A parked split that its event can reach: it issues no instruction and waits for nothing that will still be written. -/
def Split.fetchbDue (sp : Split) (h : Nat) : Bool :=
  sp.parked == some h && (match sp.state with
    | .ready | .blocked (.wait _ _ _ _ _) | .blocked (.barw _ _ _ _) | .blocked .fetch => true
    | .free | .joinParent _ | .joinChild | .blocked .event | .blocked (.content _) | .blocked (.engine _) | .blocked .status => false)

/-- FETCHB for every parked split of a handle that it can reach: precise, at the parked address. -/
def deliverFetchb (h : Nat) (s : State) : State :=
  (s.allCls.flatMap (fun c => ((List.range c.splits.length).filter (fun i => (c.split i).fetchbDue h)).map (fun i => (c.id, i)))).foldl
    (fun (s : State) p =>
      match s.getCls p.1 with
      | none => s
      | some c =>
        let pc := (c.split p.2).pc
        raiseAt p.1 p.2 pc [] .fetchb (s.modCls p.1 (fun c => c.modSplit p.2 (fun sp => { sp with parked := none, owed := none })))) s

/-- Steps 5 and 6: the pages are level 1's again, and UNSEAL writes DONE. -/
def releaseImage (im : Image) (s : State) : State :=
  let t := pagesTarget im.vmid im.code im.pages.length
  let s := (dropLines im.frames s).unseal im.frames
  let s := im.pages.foldl (fun (s : State) va => rewriteLeaf im.vmid im.asid va unsealLeaf s) s
  let s := shoot t { s with images := s.images.filter (fun x => x != im) }
  match im.closer with
  | none => s
  | some (cls, split, rd) => finishStatus cls split rd statusDone s

/-- UNSEAL_COMPLETION, steps 4 to 6, once no access is out that was translated through the pages. A split that could not take
its FETCHB then (its parent joins later, its context is saved, its request is not complete) takes it when it can. -/
def execUnsealCompletion (handle : Nat) (s : State) : Out :=
  .next (match s.images.find? (fun im => im.closing && im.handle.toNat == handle) with
    | none => deliverFetchb handle s
    | some im =>
      if s.translatedOut (pagesTarget im.vmid im.code im.pages.length) then s
      else releaseImage im (deliverFetchb handle (parkImage im s)))

end Sys2Proof.Machine
end

