-- ==== Sys2Proof/Machine/Runner.lean ====
section
/-!
DEFINITION. Runners (02_execution.md R40–R42): RUNNER_SPAWN, and the one instruction a runner executes in a slot that no candidate
uses. A runner works on a copy of its class in a copy of the machine: of what it does there, only its own registers, the caches, the
TLBs and the tokens its requests took are kept.
-/

namespace Sys2Proof.Machine

/-! ### Spawning -/

/-- The runner slice of a class's image that holds an address: its first address, the address after it, and its register maps. -/
def State.sliceAt (s : State) (c : Cls) (pc : Int) : Option (Int × Int × BitVec 128 × BitVec 128) :=
  match s.images.find? (fun im => im.handle == c.image && im.vmid == c.vmid) with
  | none => none
  | some im =>
    (im.runners.find? (fun r => decide ((im.code : Int) + 4 * r.1 ≤ pc ∧ pc < im.code + 4 * r.2.1))).map
      (fun r => ((im.code : Int) + 4 * r.1, (im.code : Int) + 4 * r.2.1, r.2.2))

/-- The load a runner was spawned for is still outstanding. -/
def State.runnerLives (s : State) (r : Runner) : Bool :=
  match s.getCls r.cls with
  | none => false
  | some c => c.live && c.mem.any (fun a => a.id == r.acc)

/-- The copy a runner works on: the registers its slice lists, the split's mask, and nothing else. -/
def runnerCopy (c : Cls) (mask : Mask) (pc : Int) (vmap smap : BitVec 128) : Cls :=
  let listed := ((List.range 128).filter (fun r => vmap.getLsbD r)).map (fun r => c.phys (BitVec.ofNat 7 r))
  let root : Split := { state := .ready, pc := pc, mask := mask }
  { c with
    v := (c.v.zipIdx).map (fun p => if listed.contains p.2 then p.1 else []),
    s := Vector.ofFn (fun (i : Fin 128) => if smap.getLsbD i.val then c.s[i] else 0),
    k := Vector.replicate 8 0, splits := root :: List.replicate 15 {}, mem := [], bracket := none, poisonV := [] }

/-- The split is held by a load alone: its lookahead is used up, or its next group needs what the load brings. -/
def State.heldByLoad (s : State) (c : Cls) (i : Nat) : Bool :=
  let sp := c.split i
  !c.lookaheadOk sp || (match s.prepare c.id i with
    | .run _ _ => false
    | .done t => (t.cls.split i).held)

/-- RUNNER_SPAWN (R40): the split has been ready to issue for more than 48 cycles while an outstanding load held it, its program
counter and the load lie in one runner slice, and a runner slot of the core is free. -/
def execRunnerSpawn (cls split acc : Nat) (s : State) : Out :=
  let s := { s with runners := s.runners.filter (fun r => s.runnerLives r) }
  .next (match s.getCls cls with
    | none => s
    | some c =>
      let sp := c.split split
      match c.mem.find? (fun a => a.id == acc && a.split == split && a.op.plainLoad && !a.logged), s.sliceAt c sp.pc with
      | some a, some (lo, hi, vmap, smap) =>
        if c.live ∧ c.kind = ClsKind.launch ∧ sp.state = .ready ∧ 48 < sp.age ∧ s.holdsCore c ∧ s.heldByLoad c split
            ∧ lo ≤ a.pc ∧ a.pc < hi ∧ (s.runners.filter (fun r => r.core == c.core)).length < 2
            ∧ !s.runners.any (fun r => r.acc == acc) then
          { s with runners := s.runners ++
              [{ core := c.core, cls := cls, split := split, acc := acc, endAt := hi, start := lo,
                 copy := runnerCopy c sp.mask a.pc vmap smap }] }
        else s
      | _, _ => s)

/-! ### One instruction of a runner (R41) -/

/-- Instructions at which a runner ends: END, KEND, BSPL, JOIN and the class-wide ones. -/
def endsRunner (i : Instr) : Bool :=
  isWide i || (match i with
    | .endClass | .kend | .bspl .. | .join => true
    | _ => false)

/-- The instruction is a load. -/
def isLoad (i : Instr) : Bool :=
  match i with
  | .ldl .. | .ldi .. | .sld .. | .lds .. | .ldaq .. | .cld .. | .rldsF .. | .rldsI .. => true
  | _ => false

/-- A load's destination reads as 0 in the effective lanes. -/
def zeroDest (i : Instr) (s : State) : State :=
  (instrWrites i).foldl (fun (s : State) r => match r with
    | .v r => s.setV r (s.eff (instrPfx i)) (fun _ => 0)
    | .s r => s.setS r 0
    | .k _ | .a _ => s) s

/-- Nothing was raised, and the runner's split may go on. -/
def State.undisturbed (s t : State) : Bool :=
  t.pending.length == s.pending.length && t.queue.length == s.queue.length && t.sent.length == s.sent.length
    && t.cls.mem.isEmpty && (t.cls.split 0).state == .ready && !(t.cls.split 0).held

/-- Run one instruction in the copy: what it leaves, if it did all it should. `ex` is the machine's `exec`. -/
def runCopy (ex : Instr → State → Out) (i : Instr) (s : State) : Option State :=
  match ex i s with
  | .fault _ | .refused _ => none
  | .next t =>
    let t := match t.cls.mem.head? with
      | none => t
      | some a =>
        match ex (.loadValueReturn t.cls.id a.id (BitVec.allOnes 1024)) t with
        | .next u => u
        | .fault _ | .refused _ => t
    if s.undisturbed t then some t else none

/-- What a runner leaves in the machine: what its loads brought into the caches and TLBs, and what that cost (R42). -/
def State.keepCaches (s t : State) : State :=
  { s with mem := t.mem, keyOf := t.keyOf, l1 := t.l1, l2 := t.l2, rdc := t.rdc, poison := t.poison, tlb := t.tlb, tokens := t.tokens,
           meter := t.meter, free := t.free }

/-- A slot of the core in this cycle, and the unit, that no candidate uses (R40). -/
def State.spareSlot (s : State) (core : Nat) (i : Instr) : Bool :=
  decide ((s.slots.filter (fun p => p.1 == core)).length < 4) && (s.nextOn core).isNone && s.unitFree core (unitOf i)

/-- Runner n executes one instruction in a slot and a unit that no candidate uses, or ends. The spec's list of ends names no event of
another instruction than a load, such as a CHKB that fails: such an instruction ends the runner too (DESIGN CHOICE: log entry 19). -/
def runRunner (ex : Instr → State → Out) (n : Nat) (s : State) : State :=
  match s.runners[n]? with
  | none => s
  | some r =>
    let stop : State := { s with runners := s.runners.eraseIdx n }
    let keep (i : Instr) (t : State) : State :=
      State.took { s.keepCaches t with runners := s.runners.set n { r with ran := r.ran + 1, copy := t.cls } }
        r.core r.cls (r.copy.form, r.copy.vmid) (some (unitOf i, 1))
    let pc := (r.copy.split 0).pc
    if !s.runnerLives r ∨ 256 ≤ r.ran ∨ pc < r.start ∨ r.endAt ≤ pc then stop
    else
      match s.fetchGroup r.copy pc with
      | .failed _ _ _ => stop
      | .words ws _ =>
        match decodeChecked r.copy.level ws with
        | .error _ => stop
        | .ok i =>
          let box : State :=
            { s with cls := r.copy, others := s.allCls.filter (fun c => c.id != r.cls), runners := [],
                     iss := { split := 0, pc := pc, words := ws } }
          if endsRunner i then stop
          else if !s.spareSlot r.core i then s
          else
            match runCopy ex i box with
            | some t => keep i t
            | none => if isLoad i then keep i (retire (zeroDest i box)) else stop

end Sys2Proof.Machine
end

