-- ==== Sys2Proof/Machine/Scalar.lean ====
section
/-!
DEFINITION. Scalar arithmetic (10_isa_control.md R223–R228).
-/

namespace Sys2Proof.Machine

/-- SALU (R223): ADDS sets SAT when it clamps; nothing else sets a flag. -/
def execSalu (fn : AluFn) (rd ra rb : Reg) (s : State) : Out :=
  .next (guarded (.salu fn rd ra rb) (fun s => scalarOp rd (alu fn (s.getS ra) (s.getS rb)) s) s)

/-- SCMP (R224). -/
def execScmp (fn : CmpFn) (rd ra rb : Reg) (s : State) : Out :=
  .next (guarded (.scmp fn rd ra rb) (fun s =>
    scalarOp rd ⟨if cmp fn (s.getS ra) (s.getS rb) then 1 else 0, 0⟩ s) s)

/-- SADDI (R225). -/
def execSaddi (x : Imx) (rd ra : Reg) (imm : BitVec 11) (s : State) : Out :=
  .next (guarded (.saddi x rd ra imm) (fun s => scalarOp rd ⟨s.getS ra + imm64 x imm, 0⟩ s) s)

/-- SANDI (R225). -/
def execSandi (x : Imx) (rd ra : Reg) (imm : BitVec 11) (s : State) : Out :=
  .next (guarded (.sandi x rd ra imm) (fun s => scalarOp rd ⟨s.getS ra &&& imm64 x imm, 0⟩ s) s)

/-- SORI (R225). -/
def execSori (x : Imx) (rd ra : Reg) (imm : BitVec 11) (s : State) : Out :=
  .next (guarded (.sori x rd ra imm) (fun s => scalarOp rd ⟨s.getS ra ||| imm64 x imm, 0⟩ s) s)

/-- SSHI (R226). -/
def execSshi (kind : ShiftKind) (rd ra : Reg) (n : BitVec 6) (s : State) : Out :=
  .next (guarded (.sshi kind rd ra n) (fun s => scalarOp rd ⟨shiftK kind (s.getS ra) n.toNat, 0⟩ s) s)

/-- SLUI (R227). -/
def execSlui (rd : Reg) (imm : BitVec 18) (s : State) : Out :=
  .next (guarded (.slui rd imm) (fun s => scalarOp rd ⟨imm.signExtend 64 <<< 14, 0⟩ s) s)

/-- SMOVV (R228): the lane is read whatever its mask state; a lane at or above L raises ILLOP at decode step 6
(`valuesOk`). -/
def execSmovv (rd ra : Reg) (lane : BitVec 10) (s : State) : Out :=
  .next (guarded (.smovv rd ra lane) (fun s => scalarOp rd ⟨(s.getV ra lane.toNat).setWidth 64, 0⟩ s) s)

end Sys2Proof.Machine
end

