-- ==== Sys2Proof/Machine/Dispatch.lean ====
section
/-!
DEFINITION. The one match that dispatches an instruction or device event to its meaning, one arm per constructor.
-/

namespace Sys2Proof.Machine

def exec (i : Instr) (s : State) : Host.Outcome State Fault Refusal :=
  match i with
  | .nop => Sys2Proof.Machine.execNop s
  | .endClass => Sys2Proof.Machine.execEndClass s
  | .kend => Sys2Proof.Machine.execKend s
  | .bra off => Sys2Proof.Machine.execBra off s
  | .call off => Sys2Proof.Machine.execCall off s
  | .ret => Sys2Proof.Machine.execRet s
  | .switch ra table => Sys2Proof.Machine.execSwitch ra table s
  | .bu k c off => Sys2Proof.Machine.execBu k c off s
  | .bz ra off => Sys2Proof.Machine.execBz ra off s
  | .bnz ra off => Sys2Proof.Machine.execBnz ra off s
  | .bspl joinOff k inv off => Sys2Proof.Machine.execBspl joinOff k inv off s
  | .join => Sys2Proof.Machine.execJoin s
  | .allb => Sys2Proof.Machine.execAllb s
  | .alle => Sys2Proof.Machine.execAlle s
  | .wbase n => Sys2Proof.Machine.execWbase n s
  | .vote fn rd ra => Sys2Proof.Machine.execVote fn rd ra s
  | .shfl p op all rd ra rb => Sys2Proof.Machine.execShfl p op all rd ra rb s
  | .srd rd ix => Sys2Proof.Machine.execSrd rd ix s
  | .swr ra ix => Sys2Proof.Machine.execSwr ra ix s
  | .trap code => Sys2Proof.Machine.execTrap code s
  | .brk code => Sys2Proof.Machine.execBrk code s
  | .launch rd ra => Sys2Proof.Machine.execLaunch rd ra s
  | .kop p fn rd ra rb => Sys2Proof.Machine.execKop p fn rd ra rb s
  | .obRes rd ra => Sys2Proof.Machine.execObRes rd ra s
  | .obRel ra => Sys2Proof.Machine.execObRel ra s
  | .obSt rd ra rb => Sys2Proof.Machine.execObSt rd ra rb s
  | .obLd rd ra rb => Sys2Proof.Machine.execObLd rd ra rb s
  | .obStat rd ra => Sys2Proof.Machine.execObStat rd ra s
  | .matZero rd => Sys2Proof.Machine.execMatZero rd s
  | .matLoop rd ra rb => Sys2Proof.Machine.execMatLoop rd ra rb s
  | .matDrain rd ra rb => Sys2Proof.Machine.execMatDrain rd ra rb s
  | .matStat rd ra => Sys2Proof.Machine.execMatStat rd ra s
  | .chkbLane rd ra rb => Sys2Proof.Machine.execChkbLane rd ra rb s
  | .chkbScalar rd ra rb => Sys2Proof.Machine.execChkbScalar rd ra rb s
  | .tlkLock rd ra rb => Sys2Proof.Machine.execTlkLock rd ra rb s
  | .tlkUnlk ra => Sys2Proof.Machine.execTlkUnlk ra s
  | .pstd rs ra off la => Sys2Proof.Machine.execPstd rs ra off la s
  | .salu fn rd ra rb => Sys2Proof.Machine.execSalu fn rd ra rb s
  | .scmp fn rd ra rb => Sys2Proof.Machine.execScmp fn rd ra rb s
  | .saddi x rd ra imm => Sys2Proof.Machine.execSaddi x rd ra imm s
  | .sandi x rd ra imm => Sys2Proof.Machine.execSandi x rd ra imm s
  | .sori x rd ra imm => Sys2Proof.Machine.execSori x rd ra imm s
  | .sshi kind rd ra n => Sys2Proof.Machine.execSshi kind rd ra n s
  | .slui rd imm => Sys2Proof.Machine.execSlui rd imm s
  | .smovv rd ra lane => Sys2Proof.Machine.execSmovv rd ra lane s
  | .crd rd below ix => Sys2Proof.Machine.execCrd rd below ix s
  | .cwr ra below ix => Sys2Proof.Machine.execCwr ra below ix s
  | .tret => Sys2Proof.Machine.execTret s
  | .tlbFill rd ra rb => Sys2Proof.Machine.execTlbFill rd ra rb s
  | .tlbInv rd ra rb => Sys2Proof.Machine.execTlbInv rd ra rb s
  | .tlbInva rd rb => Sys2Proof.Machine.execTlbInva rd rb s
  | .tlbShoot rd ra rb => Sys2Proof.Machine.execTlbShoot rd ra rb s
  | .tlbLook rd ra rb => Sys2Proof.Machine.execTlbLook rd ra rb s
  | .sealAdmit rd ra rb => Sys2Proof.Machine.execSealAdmit rd ra rb s
  | .sealSeal rd ra rb => Sys2Proof.Machine.execSealSeal rd ra rb s
  | .sealUnseal rd ra => Sys2Proof.Machine.execSealUnseal rd ra s
  | .ctxSave rd ra rb => Sys2Proof.Machine.execCtxSave rd ra rb s
  | .ctxLoad rd ra rb => Sys2Proof.Machine.execCtxLoad rd ra rb s
  | .ctxPark rd ra => Sys2Proof.Machine.execCtxPark rd ra s
  | .ctxResume rd ra => Sys2Proof.Machine.execCtxResume rd ra s
  | .rightsGrant rd ra rb => Sys2Proof.Machine.execRightsGrant rd ra rb s
  | .rightsRevoke rd ra rb => Sys2Proof.Machine.execRightsRevoke rd ra rb s
  | .rightsRoute rd ra rb => Sys2Proof.Machine.execRightsRoute rd ra rb s
  | .pldd rd ra off la => Sys2Proof.Machine.execPldd rd ra off la s
  | .valu p fn rd ra rb => Sys2Proof.Machine.execValu p fn rd ra rb s
  | .valus p fn rd ra rb => Sys2Proof.Machine.execValus p fn rd ra rb s
  | .vmad p fn rd ra rb => Sys2Proof.Machine.execVmad p fn rd ra rb s
  | .vcmp p fn kd ra rb => Sys2Proof.Machine.execVcmp p fn kd ra rb s
  | .vcmps p fn kd ra rb => Sys2Proof.Machine.execVcmps p fn kd ra rb s
  | .vun p fn rd ra => Sys2Proof.Machine.execVun p fn rd ra s
  | .vsel p rd ra rb k => Sys2Proof.Machine.execVsel p rd ra rb k s
  | .vaddi x p rd ra imm => Sys2Proof.Machine.execVaddi x p rd ra imm s
  | .vshi p kind rd ra n => Sys2Proof.Machine.execVshi p kind rd ra n s
  | .vpack p fn rd ra rb => Sys2Proof.Machine.execVpack p fn rd ra rb s
  | .falu p fn rd ra rb => Sys2Proof.Machine.execFalu p fn rd ra rb s
  | .falus p fn rd ra rb => Sys2Proof.Machine.execFalus p fn rd ra rb s
  | .ffma p fn scalar rd ra rb => Sys2Proof.Machine.execFfma p fn scalar rd ra rb s
  | .fcmp p fn kd ra rb => Sys2Proof.Machine.execFcmp p fn kd ra rb s
  | .funit p fn rd ra => Sys2Proof.Machine.execFunit p fn rd ra s
  | .halu p bf fn rd ra rb => Sys2Proof.Machine.execHalu p bf fn rd ra rb s
  | .hfma p bf wide rd ra rb => Sys2Proof.Machine.execHfma p bf wide rd ra rb s
  | .cvt p fn rd ra rb => Sys2Proof.Machine.execCvt p fn rd ra rb s
  | .cvt8Pack p e5 hi sat rd ra rb => Sys2Proof.Machine.execCvt8Pack p e5 hi sat rd ra rb s
  | .cvt8Unpack p e5 byte rd ra => Sys2Proof.Machine.execCvt8Unpack p e5 byte rd ra s
  | .expd p kind hi rd ra rb => Sys2Proof.Machine.execExpd p kind hi rd ra rb s
  | .redi fn rd ra => Sys2Proof.Machine.execRedi fn rd ra s
  | .redf fn rd ra => Sys2Proof.Machine.execRedf fn rd ra s
  | .ldl x p wd rd ra off la => Sys2Proof.Machine.execLdl x p wd rd ra off la s
  | .stl x p wd rs ra off la => Sys2Proof.Machine.execStl x p wd rs ra off la s
  | .ldi p wd rd ra rb la => Sys2Proof.Machine.execLdi p wd rd ra rb la s
  | .sti p wd rs ra rb la => Sys2Proof.Machine.execSti p wd rs ra rb la s
  | .sld x p dbl rd ra off la => Sys2Proof.Machine.execSld x p dbl rd ra off la s
  | .sst x p dbl rs ra off la => Sys2Proof.Machine.execSst x p dbl rs ra off la s
  | .lds x p dbl rd ra off la => Sys2Proof.Machine.execLds x p dbl rd ra off la s
  | .sts x p dbl rs ra off la => Sys2Proof.Machine.execSts x p dbl rs ra off la s
  | .ldaq x p rd ra off la => Sys2Proof.Machine.execLdaq x p rd ra off la s
  | .strl x p rs ra off la => Sys2Proof.Machine.execStrl x p rs ra off la s
  | .aadd p rd ra rb la => Sys2Proof.Machine.execAadd p rd ra rb la s
  | .amin p rd ra rb la => Sys2Proof.Machine.execAmin p rd ra rb la s
  | .amax p rd ra rb la => Sys2Proof.Machine.execAmax p rd ra rb la s
  | .aand p rd ra rb la => Sys2Proof.Machine.execAand p rd ra rb la s
  | .aor p rd ra rb la => Sys2Proof.Machine.execAor p rd ra rb la s
  | .axor p rd ra rb la => Sys2Proof.Machine.execAxor p rd ra rb la s
  | .axch p rd ra rb la => Sys2Proof.Machine.execAxch p rd ra rb la s
  | .acas p rd ra rb la => Sys2Proof.Machine.execAcas p rd ra rb la s
  | .afadd p rd ra rb la => Sys2Proof.Machine.execAfadd p rd ra rb la s
  | .mredW p fn ra rb la => Sys2Proof.Machine.execMredW p fn ra rb la s
  | .mredD p fn ra rb la => Sys2Proof.Machine.execMredD p fn ra rb la s
  | .mredF p fn ra rb la => Sys2Proof.Machine.execMredF p fn ra rb la s
  | .rldsF p bf rd ra off la => Sys2Proof.Machine.execRldsF p bf rd ra off la s
  | .rldsI p rd ra off la => Sys2Proof.Machine.execRldsI p rd ra off la s
  | .fence scope kind => Sys2Proof.Machine.execFence scope kind s
  | .wait p c ra rb => Sys2Proof.Machine.execWait p c ra rb s
  | .bari p ra rb => Sys2Proof.Machine.execBari p ra rb s
  | .barv p ra rb => Sys2Proof.Machine.execBarv p ra rb s
  | .barw p ra rb => Sys2Proof.Machine.execBarw p ra rb s
  | .barx p ra rb => Sys2Proof.Machine.execBarx p ra rb s
  | .barz p ra => Sys2Proof.Machine.execBarz p ra s
  | .barp p rd ra => Sys2Proof.Machine.execBarp p rd ra s
  | .cpyGs rd ra rb => Sys2Proof.Machine.execCpyGs rd ra rb s
  | .cpySg rd ra rb => Sys2Proof.Machine.execCpySg rd ra rb s
  | .cpyGob rd ra rb => Sys2Proof.Machine.execCpyGob rd ra rb s
  | .cpyGb rd ra rb => Sys2Proof.Machine.execCpyGb rd ra rb s
  | .cpySob rd ra rb => Sys2Proof.Machine.execCpySob rd ra rb s
  | .cpyCas rd ra rb => Sys2Proof.Machine.execCpyCas rd ra rb s
  | .cpyCag rd ra rb => Sys2Proof.Machine.execCpyCag rd ra rb s
  | .cpySca rd ra rb => Sys2Proof.Machine.execCpySca rd ra rb s
  | .cpyGg rd ra rb => Sys2Proof.Machine.execCpyGg rd ra rb s
  | .caLoa rd ra => Sys2Proof.Machine.execCaLoa rd ra s
  | .caNode rd ra => Sys2Proof.Machine.execCaNode rd ra s
  | .caRef ra => Sys2Proof.Machine.execCaRef ra s
  | .caRel ra => Sys2Proof.Machine.execCaRel ra s
  | .caGet rd ra => Sys2Proof.Machine.execCaGet rd ra s
  | .caSwap rd ra rb => Sys2Proof.Machine.execCaSwap rd ra rb s
  | .caStat rd ra => Sys2Proof.Machine.execCaStat rd ra s
  | .cld p rd ra rb la => Sys2Proof.Machine.execCld p rd ra rb la s
  | .pref p count ra off => Sys2Proof.Machine.execPref p count ra off s
  | .loadValueReturn cls acc lanes => Sys2Proof.Machine.execLoadValueReturn cls acc lanes s
  | .storePerformed cls acc lane => Sys2Proof.Machine.execStorePerformed cls acc lane s
  | .monitorAtomic cls acc => Sys2Proof.Machine.execMonitorAtomic cls acc s
  | .releaseQueueEntry vmid store monitor => Sys2Proof.Machine.execReleaseQueueEntry vmid store monitor s
  | .copyEngineStart op => Sys2Proof.Machine.execCopyEngineStart op s
  | .copyEngineComplete op => Sys2Proof.Machine.execCopyEngineComplete op s
  | .matLoopRun core op => Sys2Proof.Machine.execMatLoopRun core op s
  | .matLoopComplete core op => Sys2Proof.Machine.execMatLoopComplete core op s
  | .matDrainRun core op => Sys2Proof.Machine.execMatDrainRun core op s
  | .twinRendezvous core op => Sys2Proof.Machine.execTwinRendezvous core op s
  | .twinwaitExpiry core op => Sys2Proof.Machine.execTwinwaitExpiry core op s
  | .runnerSpawn cls split acc => Sys2Proof.Machine.execRunnerSpawn cls split acc s
  | .handlerEntry core level => Sys2Proof.Machine.execHandlerEntry core level s
  | .handlerTimeLimit core level => Sys2Proof.Machine.execHandlerTimeLimit core level s
  | .walkerStart core => Sys2Proof.Machine.execWalkerStart core s
  | .logReplay cls acc => Sys2Proof.Machine.execLogReplay cls acc s
  | .faultQueueAppend q => Sys2Proof.Machine.execFaultQueueAppend q s
  | .fqdoneReplay q seq => Sys2Proof.Machine.execFqdoneReplay q seq s
  | .fqdoneForward q seq => Sys2Proof.Machine.execFqdoneForward q seq s
  | .fqdoneKill q seq => Sys2Proof.Machine.execFqdoneKill q seq s
  | .fqdoneAbort q seq => Sys2Proof.Machine.execFqdoneAbort q seq s
  | .fqconsWrite q value => Sys2Proof.Machine.execFqconsWrite q value s
  | .dlconsWrite vmid value => Sys2Proof.Machine.execDlconsWrite vmid value s
  | .cadescInstall vmid asid addr => Sys2Proof.Machine.execCadescInstall vmid asid addr s
  | .cadescFresh vmid asid addr => Sys2Proof.Machine.execCadescFresh vmid asid addr s
  | .queueEnable vmid queue => Sys2Proof.Machine.execQueueEnable vmid queue s
  | .queueDisable vmid queue abort => Sys2Proof.Machine.execQueueDisable vmid queue abort s
  | .takeLaunchPacket vmid => Sys2Proof.Machine.execTakeLaunchPacket vmid s
  | .fencePacket vmid queue => Sys2Proof.Machine.execFencePacket vmid queue s
  | .fenceWordWrite vmid queue => Sys2Proof.Machine.execFenceWordWrite vmid queue s
  | .submitServiceRecord vmid => Sys2Proof.Machine.execSubmitServiceRecord vmid s
  | .placeHouse launch house unit_ => Sys2Proof.Machine.execPlaceHouse launch house unit_ s
  | .formEnd form => Sys2Proof.Machine.execFormEnd form s
  | .launchComplete launch => Sys2Proof.Machine.execLaunchComplete launch s
  | .deadlineExpiry form => Sys2Proof.Machine.execDeadlineExpiry form s
  | .energyWindowEnd window package => Sys2Proof.Machine.execEnergyWindowEnd window package s
  | .bandwidthRefill => Sys2Proof.Machine.execBandwidthRefill s
  | .bandwidthSet vmid asid rate depth => Sys2Proof.Machine.execBandwidthSet vmid asid rate depth s
  | .energyShareWrite vmid value => Sys2Proof.Machine.execEnergyShareWrite vmid value s
  | .rotationWrite core entry value => Sys2Proof.Machine.execRotationWrite core entry value s
  | .rotationPeriodBoundary core => Sys2Proof.Machine.execRotationPeriodBoundary core s
  | .sliceBoundary core => Sys2Proof.Machine.execSliceBoundary core s
  | .virtualTimeAdjust vmid scale value => Sys2Proof.Machine.execVirtualTimeAdjust vmid scale value s
  | .timerExpiry vmid => Sys2Proof.Machine.execTimerExpiry vmid s
  | .strictRetry cls acc => Sys2Proof.Machine.execStrictRetry cls acc s
  | .strictTimeout cls acc => Sys2Proof.Machine.execStrictTimeout cls acc s
  | .registrarAdmission => Sys2Proof.Machine.execRegistrarAdmission s
  | .unsealCompletion handle => Sys2Proof.Machine.execUnsealCompletion handle s
  | .cpWrite m => Sys2Proof.Machine.execCpWrite m s
  | .cpRead m => Sys2Proof.Machine.execCpRead m s
  | .cpCwrite m => Sys2Proof.Machine.execCpCwrite m s
  | .cpCread m => Sys2Proof.Machine.execCpCread m s
  | .keysw m => Sys2Proof.Machine.execKeysw m s
  | .oldKeyExpiry stream => Sys2Proof.Machine.execOldKeyExpiry stream s
  | .peerRequest r => Sys2Proof.Machine.execPeerRequest r s
  | .peerTimeout cls acc => Sys2Proof.Machine.execPeerTimeout cls acc s
  | .replicaRequest vmid setId offset size => Sys2Proof.Machine.execReplicaRequest vmid setId offset size s
  | .gatherResponse cls acc count sums => Sys2Proof.Machine.execGatherResponse cls acc count sums s
  | .gatherTimeout cls acc => Sys2Proof.Machine.execGatherTimeout cls acc s
  | .getCertificate stream => Sys2Proof.Machine.execGetCertificate stream s
  | .getMeasurements stream index => Sys2Proof.Machine.execGetMeasurements stream index s
  | .keyExchange r => Sys2Proof.Machine.execKeyExchange r s
  | .keyUpdate stream => Sys2Proof.Machine.execKeyUpdate stream s
  | .resetRequest confidential => Sys2Proof.Machine.execResetRequest confidential s
  | .powerOnReset => Sys2Proof.Machine.execPowerOnReset s
  | .keyRekey tag => Sys2Proof.Machine.execKeyRekey tag s
  | .coreRestart core => Sys2Proof.Machine.execCoreRestart core s
  | .errorSnapshot vmid ix => Sys2Proof.Machine.execErrorSnapshot vmid ix s
  | .measurementExtend slot pa => Sys2Proof.Machine.execMeasurementExtend slot pa s
  | .memoryError e => Sys2Proof.Machine.execMemoryError e s
  | .patrolScrub pa err => Sys2Proof.Machine.execPatrolScrub pa err s
  | .thermalThrottle temp => Sys2Proof.Machine.execThermalThrottle temp s
  | .thermalTrip temp => Sys2Proof.Machine.execThermalTrip temp s
  | .instructionFetch cls split => Sys2Proof.Machine.execInstructionFetch cls split s
  | .monitorContentOperation req => Sys2Proof.Machine.execMonitorContentOperation req s
  | .copyEngineFault op why => Sys2Proof.Machine.execCopyEngineFault op why s
  | .thermalRecovery temp => Sys2Proof.Machine.execThermalRecovery temp s

end Sys2Proof.Machine
end

