-- ==== Sys2Proof/Machine/Schedule.lean ====
section
/-!
DEFINITION. What happens next (log entry 1): the move that the agenda names, else the instruction R38 chooses, else a runner's, else
one of the device events that the state gives reason to try, in turn. Every event checks for itself whether it may happen.
-/

namespace Sys2Proof.Machine

/-- The next event of a memory instruction in flight. -/
def accessEvents (c : Cls) (a : Access) : List Instr :=
  match a.stage with
  | .ready => [.logReplay c.id a.id]
  | .retry _ => [.strictRetry c.id a.id, .strictTimeout c.id a.id]
  | .walking | .delivered _ _ | .stopped => []
  | .fabric =>
    match a.op with
    | .load _ | .loadScalar _ | .loadAcquire | .loadScratch _ | .cld _ _ _ | .physLoad | .launch =>
      [.loadValueReturn c.id a.id (BitVec.allOnes 1024)]
    | .store _ | .storeScalar _ | .storeRelease _ | .storeScratch _ | .physStore =>
      match a.lanes.find? (fun l => !l.done) with
      | none => []
      | some l => [.storePerformed c.id a.id l.lane]
    | .atomic _ | .mred _ _ | .mredF _ => [.monitorAtomic c.id a.id]
    | .slotGet | .slotSwap _ _ => [.monitorContentOperation a.id]
    | .rlds _ _ => [.gatherTimeout c.id a.id]
    | .copy _ => [.logReplay c.id a.id]
    | .tlk _ => []

/-- The next event of an operation at a matrix sequencer, or of its rendezvous. -/
def seqEvents (o : SeqOp) : List Instr :=
  match o.meet with
  | .waiting _ => [.twinRendezvous o.core o.id, .twinwaitExpiry o.core o.id]
  | .none | .met _ | .solo =>
    (if o.kind.tw && o.meet == .none then [.twinRendezvous o.core o.id] else [])
      ++ (match o.kind with
        | .loop _ d _ => [if o.step == dCount d then .matLoopComplete o.core o.id else .matLoopRun o.core o.id]
        | .drain _ _ _ => [.matDrainRun o.core o.id]
        | .zero _ | .stat _ _ => [])

/-- The next event of a copy engine's operation. -/
def engineEvents (e : EngineOp) : List Instr :=
  match e.stop, e.state with
  | some w, _ => [.copyEngineFault e.id w]
  | none, .queued => [.copyEngineStart e.id]
  | none, .running => if e.fn = 7 ∧ !e.built then [.monitorContentOperation e.id] else [.copyEngineComplete e.id]
  | none, .walking | none, .stopped _ _ => []

/-- What the Timetable may do next in a partition. -/
def State.turnEvents (s : State) (v : Nat) : List Instr :=
  match s.turn v with
  | .child _ | .passEnd => [.takeLaunchPacket v]
  | .service => [.submitServiceRecord v]
  | .packet q (.ok w) _ => if isFence w then [.fencePacket v q] else [.takeLaunchPacket v]
  | .packet _ (.error _) _ => [.takeLaunchPacket v]
  | .idle => []

/-- What may happen next to a launch: a house is placed where its plan has it, or the launch is complete. -/
def State.launchEvents (s : State) (l : Launch) : List Instr :=
  (if s.launchDone l then [.launchComplete l.no] else [])
    ++ ((List.range l.plan.length).filterMap (fun i =>
      match l.plan[i]?, l.nextHouse i with
      | some u, some h => some (.placeHouse l.no h u.core)
      | _, _ => none)).take 4

/-- What may happen next to a form. -/
def Form.events (f : Form) : List Instr :=
  if f.launch = 0 then [] else .formEnd f.id :: (if f.timeLeft = 0 ∧ !f.stopped then [.deadlineExpiry f.id] else [])

/-- Boundaries of device time that have come, and the cores whose slice has. -/
def State.timeEvents (s : State) : List Instr :=
  (if s.bwFrame < s.time / 4000 then [.bandwidthRefill] else [])
  ++ (if s.eWindow < s.time / 4000 then [.energyWindowEnd s.eWindow 0] else [])
  ++ (List.range Config.cores).flatMap (fun c =>
    let p := s.rotPer c * frameTicks
    (if p ≠ 0 ∧ (assoc s.rotFrom c).getD 0 / p < s.time / p then [.rotationPeriodBoundary c] else [])
      ++ (if assoc s.holder c ≠ (s.sliceNow c).map (fun x => x.vmid) then [.sliceBoundary c] else []))
  ++ (s.partitions.filter (fun v => s.word (.part v) 0x232 != BitVec.allOnes 64 && decide ((s.word (.part v) 0x232).toNat ≤ s.vtime v))).map
    (fun v => .timerExpiry v)
  ++ (s.streams.filter (fun x => x.old.isSome && !s.oldHeld x)).map (fun x => .oldKeyExpiry x.no)

/-- Splits that a load has held for long in a runner slice (R40). -/
def State.runnerEvents (s : State) (c : Cls) : List Instr :=
  c.mem.filterMap (fun a =>
    let sp := c.split a.split
    if a.op.plainLoad && !a.logged && decide (48 < sp.age) && (s.sliceAt c sp.pc).isSome then some (.runnerSpawn c.id a.split a.id)
    else none)

/-- Splits whose next group is not in their core's instruction cache, or whose prefetched run may go on (R43). -/
def State.fetchEvents (s : State) (c : Cls) : List Instr :=
  ((List.range c.splits.length).filter (fun i => s.mayRun c i && (c.split i).owed.isNone
    && (!s.cached c i || (c.split i).run.isSome))).map (fun i => .instructionFetch c.id i)

/-- Handles whose pages are being unsealed, or that still owe a split its FETCHB (R375). -/
def State.unsealing (s : State) : List Nat :=
  ((s.images.filter (fun im => im.closing)).map (fun im => im.handle.toNat)
    ++ s.allCls.flatMap (fun c => c.splits.filterMap (fun sp => sp.parked))).eraseDups

/-- Every event that the state gives reason to try. -/
def State.events (s : State) : List Instr :=
  match s.phase with
  | .boot => [.powerOnReset]
  | .recovery => []
  | .tripped =>
    s.allCls.flatMap (fun c => c.mem.flatMap (accessEvents c))
    ++ s.creqs.map (fun q => .monitorContentOperation q.id)
    ++ s.seq.flatMap seqEvents
    ++ s.engines.flatMap engineEvents
    ++ (s.forms.filter (fun f => f.launch != 0)).map (fun f => .formEnd f.id)
    ++ (s.launches.filter s.launchDone).map (fun l => .launchComplete l.no)
    ++ (if s.bwFrame < s.time / 4000 then [.bandwidthRefill] else [])
  | .running =>
    s.allCls.flatMap (fun c => c.mem.flatMap (accessEvents c) ++ s.runnerEvents c ++ s.fetchEvents c)
    ++ s.ghosts.map (fun g => .loadValueReturn g.cls g.acc 0)
    ++ s.creqs.map (fun q => .monitorContentOperation q.id)
    ++ s.stores.flatMap (fun st => ((st.relq.map (s.monitorOf st)).eraseDups).map (fun m => .releaseQueueEntry st.vmid st.ix m))
    ++ s.seq.flatMap seqEvents
    ++ s.engines.flatMap engineEvents
    ++ (s.misses.map (fun m => m.core)).eraseDups.map (fun c => .walkerStart c)
    ++ (s.pending.map (fun p => (p.core, p.level))).eraseDups.map (fun p => .handlerEntry p.1 p.2)
    ++ (s.hslots.filter (fun h => decide (h.limit ≤ h.ran))).map (fun h => .handlerTimeLimit h.core h.level)
    ++ ((s.queue.filter (fun x => x.seq.isNone)).map (fun x => x.q)).eraseDups.map (fun q => .faultQueueAppend q)
    ++ (List.replicate s.admits.length .registrarAdmission).take 1
    ++ s.unsealing.map (fun h => .unsealCompletion h)
    ++ s.partitions.flatMap s.turnEvents
    ++ s.fences.map (fun f => .fenceWordWrite f.vmid f.queue)
    ++ s.launches.flatMap s.launchEvents
    ++ s.forms.flatMap Form.events
    ++ s.timeEvents

/-- With no split to issue, the events in turn, and now and then nothing. A runner has every other cycle. -/
def State.idle (s : State) : Option Instr :=
  s.events[(if s.runners.isEmpty then s.time else s.time / 2) % (s.events.length + 1)]?

/-- A runner's turn in a cycle that no split uses. -/
def State.runnerTurn (s : State) : Option Nat :=
  if s.runners.isEmpty ∨ s.time % 2 = 1 then none else some (s.time / 2 % s.runners.length)

/-! ### Moves that are no event of the opcode table -/

/-- Device time passes, a cache entry leaves its cache, an answer is sent, a saved image in memory is altered. -/
def quietMove (m : Move) (s : State) : State :=
  match m with
  | .issue _ _ | .event _ | .runner _ => s
  | .elapse n => s.tick n
  | .evictTlb n =>
    match s.tlb[n]? with
    | none => s
    | some e =>
      match e.home with
      | .lockable _ _ => s
      | .core _ | .quad _ => { s with tlb := s.tlb.eraseIdx n }
  | .evictL1 core pa => if (leastRank (s.linesL1 core)).contains (lineOf pa) then s.evictL1 core (lineOf pa) else s
  | .evictL2 pa => if s.mayLeave (lineOf pa) then s.retireL2 (lineOf pa) else s
  | .evictRdc die pa => { s with rdc := s.rdc.filter (fun x => !(x.die == die && lineOf x.pa == lineOf pa)) }
  | .send => sendNext s
  | .alterSaved n =>
    { s with saved := (s.saved.zipIdx).map (fun p => if p.2 = n && !p.1.shadow then { p.1 with altered := true } else p.1) }

/-! ### Issuing -/

/-- What follows a meaning. -/
def thenNext (f : State → State) : Out → Out
  | .next s => .next (f s)
  | .fault r => .fault r
  | .refused r => .refused r

/-- The group has issued, unless its split had to be passed over: it takes its class's turn in the cycle and, as an instruction, its
unit (R27, R38). -/
def noteIssue (core cls split : Nat) (form : Nat × Nat) (unit_ : Option (PipeUnit × Nat)) (s : State) : State :=
  match s.getCls cls with
  | none => s.took core cls form unit_
  | some c => if (c.split split).held then s else s.took core cls form unit_

/-- The form of a class with its partition, as the energy window names it (R424); level 0 belongs to none. -/
def State.formKey (s : State) (cls : Nat) : Nat × Nat :=
  ((s.getCls cls).map (fun c => (c.form, if c.level = 0 then 64 else c.vmid))).getD (0, 64)

/-- Issue a split: its group is fetched and decoded, and runs. `ex` is the machine's `exec`. -/
def issueSplit (ex : Instr → State → Out) (core cls split : Nat) (s : State) : Out :=
  match s.prepare cls split with
  | .done t => .next (noteIssue core cls split (s.formKey cls) none t)
  | .run i t => thenNext (noteIssue core cls split (s.formKey cls) (some (unitOf i, t.occupancy i))) (ex i t)

/-- What a move of the agenda does. A split issues only where R38 would have it issue next on its core. -/
def doMove (ex : Instr → State → Out) (m : Move) (s : State) : Out :=
  match m with
  | .issue cls split =>
    match s.getCls cls with
    | none => .next s
    | some c =>
      match s.nextOn c.core with
      | none => .next s
      | some x => if x.cls = cls ∧ x.split = split then issueSplit ex c.core cls split s else .next s
  | .event i => if i.isEvent then ex i s.unhold else .next s
  | .runner n => .next (runRunner ex n s)
  | m => .next (quietMove m s).unhold

/-- With nothing left to issue in this cycle: a runner's instruction or an event, and the cycle ends. -/
def endCycle (ex : Instr → State → Out) (s : State) : Out :=
  match s.runnerTurn, s.idle with
  | some n, _ => .next ((runRunner ex n s).tick 1).unhold
  | none, some i => ex i (s.tick 1).unhold
  | none, none => .next (s.tick 1).unhold

/-- One step. -/
def stepWith (ex : Instr → State → Out) (s : State) : Out :=
  match s.agenda with
  | m :: ms => doMove ex m { s with agenda := ms }
  | [] =>
    match s.pick with
    | some (core, x) => issueSplit ex core x.cls x.split s
    | none => endCycle ex s

/-! ### Placing one instruction -/

/-- The physical address `placeWord` uses. -/
def placeAt : Nat := 0x100000

/-- One instruction as the next that the Bursar's class issues, its line in the instruction cache: see `State.withFetchWord`. -/
def placeWord (nbits w : Nat) (s : State) : State :=
  let rest := s.allCls.filter (fun c => c.id != 0 && c.core != 256)
  let root : Split := { state := .ready, pc := placeAt, mask := liveMask 32 }
  let c : Cls := { bursar0 with splits := root :: List.replicate 15 {} }
  let line := (256, placeAt / 64)
  { s with agenda := [.issue 0 0], cls := c, others := rest, phase := .running, hot := false,
           coreOff := s.coreOff.filter (fun x => x != 256),
           mem := s.mem.write placeAt (toBytes 16 (w % 2 ^ nbits)),
           keyOf := if s.keyId s.pkey = 0 then assocDel s.keyOf placeAt else assocSet s.keyOf placeAt (s.keyId s.pkey),
           l2 := s.l2.filter (fun x => x.pa != placeAt), poison := s.poison.filter (fun q => q != placeAt),
           icache := if s.icache.contains line then s.icache else line :: s.icache,
           slots := s.slots.filter (fun p => p.1 != 256), busy := s.busy.filter (fun b => b.1 != 256),
           sealMap := if s.sealMap.contains (placeAt / 4096) then s.sealMap else placeAt / 4096 :: s.sealMap }

end Sys2Proof.Machine
end

