-- ==== Sys2Proof/Machine/Step.lean ====
section
/-!
DEFINITION. One step of the machine, and `State.withFetchWord`, which places one instruction where the next step fetches it.
-/

namespace Sys2Proof.Machine

/-- One step: `stepWith` says which move it is. -/
def step (s : State) : Host.Outcome State Fault Refusal := stepWith exec s

/-- The machine with one instruction placed as the Bursar's next: a level-0 class with its root split at the first byte of a
sealed physical frame, which holds the instruction's words and then zeros (log entry 5). -/
def State.withFetchWord (s : State) (nbits w : Nat) : State := placeWord nbits w s

end Sys2Proof.Machine
end

