-- ==== Sys2Proof/Safety.lean ====
section
/-!
DEFINITION. What claims are stated with: when an instruction is admitted, what a completed one leaves as it was, and the integer
functions of R223, R224 and R232 to R239 as the manual's sentences give them, over exact integers.
-/

namespace Sys2Proof.Machine

/-! ### Hypotheses -/

/-- The issuing split is an entry of its class's split table, and no single-stepping is on (R30, R454). -/
def State.issuing (s : State) : Bool := decide (s.iss.split < s.cls.splits.length) && !s.stepping

/-- Decode step 5 and the error marks let the instruction run: the registers it names lie in the allocation, and none it reads
carries an error mark (R193, R453). -/
def State.legal (s : State) (i : Instr) : Bool := operandsOk i s && !readsMarked i s

/-- The conditions under which a class-wide instruction runs (R35). -/
def State.wholeClass (s : State) : Bool := decide (s.depth = 0) && decide (s.act = s.cls.liveM)

/-- What the issuing group's split may do: the issuing class is the one that issues, lives, and holds split `i`. -/
def State.alone (s : State) : Bool := s.others.all (fun c => c.id != s.cls.id)

/-! ### Frames -/

/-- Nothing outside the issuing class has changed; in particular no byte of memory. -/
structure OutsideKept (s t : State) : Prop where
  rest  : { t with cls := s.cls } = s
  bytes : ∀ a, t.mem.get a = s.mem.get a

/-- The issuing split goes on at `pc` with a new age; its state, mask, levels and parent, and every other split, are as before. -/
structure GoesOn (s t : State) (pc : Int) : Prop where
  pc     : t.cur.pc = pc
  age    : t.cur.age = 0
  cur    : { t.cur with pc := s.cur.pc, age := s.cur.age, pend := s.cur.pend } = s.cur
  splits : ∀ j, j ≠ s.iss.split → t.cls.split j = s.cls.split j
  issue  : t.iss = s.iss

/-- The group completed at `pc` and wrote nothing of its class. -/
structure WritesNothing (s t : State) (pc : Int) : Prop where
  on      : GoesOn s t pc
  cls     : { t.cls with splits := s.cls.splits } = s.cls
  outside : OutsideKept s t

/-- The group completed and wrote scalar register `rd` and the sticky flags `fl` of CSTAT: the value `x`, nothing when `rd` is
s0 (R52, R62). -/
structure WritesScalar (s t : State) (pc : Int) (rd : Reg) (x : DWord) (fl : Word) : Prop where
  on      : GoesOn s t pc
  value   : t.getS rd = if rd = 0 then 0 else x
  others  : ∀ r, r ≠ rd → t.getS r = s.getS r
  flags   : t.cls.cstat = s.cls.cstat ||| fl
  marks   : ∀ m, m ∈ t.cls.poisonV → m ∈ s.cls.poisonV
  cls     : { t.cls with splits := s.cls.splits, s := s.cls.s, cstat := s.cls.cstat, poisonV := s.cls.poisonV } = s.cls
  outside : OutsideKept s t

/-- The group completed and wrote the lanes of `eff` of lane register `rd`, and the flags `fl`; every other lane of `rd` and
every other physical register keeps its value (R27, R62). -/
structure WritesLanes (s t : State) (pc : Int) (rd : Reg) (eff : Mask) (f : Nat → Word) (fl : Word) : Prop where
  on      : GoesOn s t pc
  value   : ∀ i, i < s.cls.lanes → t.getV rd i = if eff.getLsbD i then f i else s.getV rd i
  others  : ∀ p, p ≠ s.cls.phys rd → ∀ i, t.cls.getP p i = s.cls.getP p i
  flags   : t.cls.cstat = s.cls.cstat ||| fl
  marks   : ∀ m, m ∈ t.cls.poisonV → m ∈ s.cls.poisonV
  cls     : { t.cls with splits := s.cls.splits, v := s.cls.v, cstat := s.cls.cstat, poisonV := s.cls.poisonV } = s.cls
  outside : OutsideKept s t

/-- The group completed and wrote mask register `kd` and the flags `fl`: bit i of an effective lane is `f i` and every other bit
is 0; with no effective lane the register keeps its value (R28, R53, R54). -/
structure WritesMask (s t : State) (pc : Int) (kd : Reg3) (eff : Mask) (f : Nat → Bool) (fl : Word) : Prop where
  on      : GoesOn s t pc
  value   : ∀ i, i < 1024 →
    (t.cls.k[kd.toNat]'kd.isLt).getLsbD i =
      if eff = 0 then (s.cls.k[kd.toNat]'kd.isLt).getLsbD i else (eff.getLsbD i && f i)
  others  : ∀ r : Reg3, r ≠ kd → t.cls.k[r.toNat]'r.isLt = s.cls.k[r.toNat]'r.isLt
  flags   : t.cls.cstat = s.cls.cstat ||| fl
  marks   : ∀ m, m ∈ t.cls.poisonV → m ∈ s.cls.poisonV
  cls     : { t.cls with splits := s.cls.splits, k := s.cls.k, cstat := s.cls.cstat, poisonV := s.cls.poisonV } = s.cls
  outside : OutsideKept s t

/-- A precise event of the issuing group: its split is blocked at the group's first word, no register, mask or byte has changed,
and the event waits at its level on the class's core (R200, R337, R338). -/
structure Raises (s t : State) (r : Raise) : Prop where
  blocked : t.cur.state = .blocked .event ∧ t.cur.pc = s.iss.pc
  cur     : { t.cur with state := s.cur.state, pc := s.cur.pc } = s.cur
  splits  : ∀ j, j ≠ s.iss.split → t.cls.split j = s.cls.split j
  cls     : { t.cls with splits := s.cls.splits } = s.cls
  event   : t.pending = s.pending ++ [⟨s.cls.core, s.route s.cls.level s.cls.vmid r.cause r.stage2, s.eventOf r⟩]
  rest    : { t with cls := s.cls, pending := s.pending } = s
  bytes   : ∀ a, t.mem.get a = s.mem.get a

/-- A precise event after the group's effect: the record's program counter is that of the next group, the split goes on at `pc` when
it is resumed and at `skip` when it is skipped (R217, R344, R454). -/
structure RaisesAfter (s t : State) (pc skip : Int) (r : Raise) : Prop where
  blocked : t.cur.state = .blocked .event ∧ t.cur.pc = pc
  mask    : t.cur.mask = s.cur.mask ∧ t.cur.levels = s.cur.levels ∧ t.cur.parent = s.cur.parent
  splits  : ∀ j, j ≠ s.iss.split → t.cls.split j = s.cls.split j
  cls     : { t.cls with splits := s.cls.splits } = s.cls
  event   : t.pending = s.pending ++ [⟨s.cls.core, s.route s.cls.level s.cls.vmid r.cause r.stage2,
    { s.eventOf r with epc := BitVec.ofInt 64 s.next, resume := pc, skipTo := skip }⟩]
  rest    : { t with cls := s.cls, pending := s.pending } = s
  bytes   : ∀ a, t.mem.get a = s.mem.get a

/-- The address a branch with offset `off` goes to: that of its own word and `off` words on (R182). -/
def branchTarget {n : Nat} (s : State) (off : BitVec n) : Int :=
  s.iss.pc + 4 * ((s.iss.words.length : Int) - 1) + 4 * off.toInt

/-! ### Memory instructions: Table 12-3 and R254 to R264 as a table -/

/-- What a memory instruction asks for: its operation, its effective mask, the requests of its lanes (lane, exact effective
address, data), and the registers its results go to. -/
structure MemForm where
  op    : AccOp
  mask  : Mask
  reqs  : List LaneReq
  dest  : List Nat := []
  sdest : Option Reg := none

/-- The signed offset of an L or M word in units (R183, R185). -/
def offInt (x : Imx) (off : BitVec 7) : Int :=
  match x with
  | none => off.toInt
  | some h => (h ++ off : BitVec 32).toInt

/-- One request for each lane of a mask below L, in ascending order. -/
def lanesAt (s : State) (m : Mask) (ea : Nat → Int) (data : Nat → Nat) (cmp : Nat → Nat := fun _ => 0) : List LaneReq :=
  ((List.range s.cls.lanes).filter (fun i => m.getLsbD i)).map (fun i => { lane := i, ea := ea i, data := data i, cmp := cmp i })

/-- The low n bytes of a lane register, or of a pair for 8 (R50). -/
def laneBytes (s : State) (r : Reg) (n i : Nat) : Nat :=
  ((s.getV r i).toNat + (if n = 8 then (s.getV (r + 1) i).toNat * 2 ^ 32 else 0)) % 2 ^ (8 * n)

/-- The physical registers that n bytes go to: one, or a pair for 8; none with an empty mask. -/
def destOf (s : State) (m : Mask) (r : Reg) (n : Nat) : List Nat :=
  if m = 0 then [] else if n = 8 then [s.cls.phys r, s.cls.phys (r + 1)] else [s.cls.phys r]

/-- s[ra] + n·i + n·off. -/
def eaLinear (s : State) (ra : Reg) (n : Nat) (off : Int) (i : Nat) : Int := (s.getS ra).toNat + (n : Int) * i + off * n

/-- s[ra] + n·v[rb][i], the index unsigned. -/
def eaIndexed (s : State) (ra rb : Reg) (n i : Nat) : Int := (s.getS ra).toNat + (s.getV rb i).toNat * (n : Int)

/-- A returning atomic (R260). -/
def atomForm (s : State) (f : AtomFn) (p : Pfx) (rd ra rb : Reg) : MemForm :=
  { op := .atomic f, mask := s.eff p, dest := destOf s (s.eff p) rd 4,
    reqs := lanesAt s (s.eff p) (eaIndexed s ra rb 4) (fun i => (s.getV rd i).toNat)
      (fun i => if f = .cas then (s.getV (rd + 1) i).toNat else 0) }

def Width.size (wd : Width) : Nat :=
  match wd with
  | .b => 1
  | .h => 2
  | .w => 4
  | .d => 8

/-- The memory instructions on virtual addresses. -/
def memForm (s : State) : Instr → Option MemForm
  | .ldl x p wd rd ra off _ =>
    some { op := .load (Width.size wd), mask := s.eff p, dest := destOf s (s.eff p) rd (Width.size wd),
           reqs := lanesAt s (s.eff p) (eaLinear s ra (Width.size wd) (offInt x off)) (fun _ => 0) }
  | .stl x p wd rs ra off _ =>
    some { op := .store (Width.size wd), mask := s.eff p,
           reqs := lanesAt s (s.eff p) (eaLinear s ra (Width.size wd) (offInt x off)) (laneBytes s rs (Width.size wd)) }
  | .ldi p wd rd ra rb _ =>
    some { op := .load (Width.size wd), mask := s.eff p, dest := destOf s (s.eff p) rd (Width.size wd),
           reqs := lanesAt s (s.eff p) (eaIndexed s ra rb (Width.size wd)) (fun _ => 0) }
  | .sti p wd rs ra rb _ =>
    some { op := .store (Width.size wd), mask := s.eff p,
           reqs := lanesAt s (s.eff p) (eaIndexed s ra rb (Width.size wd)) (laneBytes s rs (Width.size wd)) }
  | .sld x p dbl rd ra off _ =>
    some { op := .loadScalar (if dbl then 8 else 4), mask := s.eff p, sdest := some rd,
           reqs := [{ lane := 0x7FFF, ea := (s.getS ra).toNat + offInt x off * (if dbl then 8 else 4) }] }
  | .sst x p dbl rs ra off _ =>
    some { op := .storeScalar (if dbl then 8 else 4), mask := s.eff p,
           reqs := [{ lane := 0x7FFF, ea := (s.getS ra).toNat + offInt x off * (if dbl then 8 else 4),
                      data := (s.getS rs).toNat % 2 ^ (if dbl then 64 else 32) }] }
  | .ldaq x p rd ra off _ =>
    some { op := .loadAcquire, mask := s.eff p, dest := destOf s (s.eff p) rd 4,
           reqs := lanesAt s (s.eff p) (eaLinear s ra 4 (offInt x off)) (fun _ => 0) }
  | .strl x p rs ra off _ =>
    some { op := .storeRelease ((assoc s.tagCount s.cls.tag).getD 0), mask := s.eff p,
           reqs := lanesAt s (s.eff p) (eaLinear s ra 4 (offInt x off)) (laneBytes s rs 4) }
  | .aadd p rd ra rb _ => some (atomForm s .add p rd ra rb)
  | .amin p rd ra rb _ => some (atomForm s .min p rd ra rb)
  | .amax p rd ra rb _ => some (atomForm s .max p rd ra rb)
  | .aand p rd ra rb _ => some (atomForm s .and p rd ra rb)
  | .aor p rd ra rb _ => some (atomForm s .or p rd ra rb)
  | .axor p rd ra rb _ => some (atomForm s .xor p rd ra rb)
  | .axch p rd ra rb _ => some (atomForm s .xch p rd ra rb)
  | .acas p rd ra rb _ => some (atomForm s .cas p rd ra rb)
  | .afadd p rd ra rb _ => some (atomForm s .fadd p rd ra rb)
  | .mredW p fn ra rb _ =>
    some { op := .mred 4 fn, mask := s.eff p,
           reqs := lanesAt s (s.eff p) (eaIndexed s ra rb 4) (laneBytes s (rb + 1) 4) }
  | .mredD p fn ra rb _ =>
    some { op := .mred 8 fn, mask := s.eff p,
           reqs := lanesAt s (s.eff p) (eaIndexed s ra rb 8) (laneBytes s (rb + 1) 8) }
  | .mredF p fn ra rb _ =>
    some { op := .mredF fn, mask := s.eff p,
           reqs := lanesAt s (s.eff p) (eaIndexed s ra rb 4) (laneBytes s (rb + 1) 4) }
  | .rldsF p bf rd ra off _ =>
    some { op := .rlds bf false, mask := s.eff p, dest := destOf s (s.eff p) rd 4,
           reqs := lanesAt s (s.eff p) (eaLinear s ra 4 off.toInt) (fun _ => 0) }
  | .rldsI p rd ra off _ =>
    some { op := .rlds false true, mask := s.eff p, dest := destOf s (s.eff p) rd 4,
           reqs := lanesAt s (s.eff p) (eaLinear s ra 4 off.toInt) (fun _ => 0) }
  | _ => none

/-- The end of the address space of a level: level 0 reaches physical addresses, and the copy window (R95, R341). -/
def topOf (level : Nat) (ea : Int) : Int := if level = 0 ∧ ea < windowBase then 2 ^ 48 else 2 ^ 57

/-- A lane passes phase 1 of R97: its bytes lie in the address space, and its address is a multiple of its width. -/
def phase1 (level n : Nat) (l : LaneReq) : Bool :=
  decide (0 ≤ l.ea) && decide (l.ea + n ≤ topOf level l.ea) && decide (l.ea % (n : Int) = 0)

/-- What identifies a lane's request. -/
def LaneReq.asked (l : LaneReq) : Nat × Int × Nat × Nat := (l.lane, l.ea, l.data, l.cmp)

/-- A memory instruction entered its class's outstanding list, and nothing else but its split changed in the class; no byte of
memory, no control word, no other class, form or event changed. -/
structure EntersMemory (s t : State) (f : MemForm) (a : Access) : Prop where
  entry   : t.cls.mem = s.cls.mem ++ [a]
  op      : a.op = f.op
  asked   : a.lanes.map LaneReq.asked = f.reqs.map LaneReq.asked
  dest    : a.dest = f.dest ∧ a.sdest = f.sdest
  group   : a.split = s.iss.split ∧ a.pc = s.iss.pc ∧ a.words = s.iss.words ∧ a.mask = f.mask
  on      : GoesOn s t s.next
  cls     : { t.cls with splits := s.cls.splits, mem := s.cls.mem } = s.cls
  rest    : t.words = s.words ∧ t.others = s.others ∧ t.forms = s.forms ∧ t.pending = s.pending
  bytes   : ∀ x, t.mem.get x = s.mem.get x

/-! ### Barriers (R268 to R270) -/

/-- The forms after bytes have been written to one scratchpad; marks of sectors written whole are gone (R453). -/
def scratchWritten (s : State) (form off : Nat) (bs : List Byte) : List Form :=
  s.forms.map (fun g => if g.id = form then
    { g with scratch := g.scratch.write off bs,
             scrPoison := g.scrPoison.filter (fun q => !(decide (off ≤ q ∧ q + 32 ≤ off + bs.length))) } else g)

/-- With nothing left to arrive the phase completes: the count begins again (R269). -/
def barAfter (b : Barrier) : Barrier :=
  if b.v = true ∧ b.parr = 0 ∧ b.pbytes = 0 then { b with phase := (b.phase + 1) % 256, parr := b.xcount } else b

/-- A barrier instruction went on at the next group: in its class only splits changed, woken ones among them, no byte of memory
and no word changed, and the scratchpads are `forms`. -/
structure BarrierDone (s t : State) (forms : List Form) : Prop where
  forms : t.forms = forms
  pc    : t.cur.pc = s.next ∧ t.cur.mask = s.cur.mask ∧ t.cur.levels = s.cur.levels ∧ t.iss = s.iss
  cls   : { t.cls with splits := s.cls.splits } = s.cls
  words : t.words = s.words ∧ t.pending = s.pending
  bytes : ∀ x, t.mem.get x = s.mem.get x

/-! ### The sequencer -/

/-- A queued operation but for its place in the order in which loops have become ready. -/
def SeqOp.unplaced (o : SeqOp) : SeqOp := { o with turn := none }

/-! ### Copies (R299 to R305) -/

/-- The function number of a CPY with its registers (Table 13-10). -/
def copyForm : Instr → Option (Nat × Reg × Reg × Reg)
  | .cpyGs rd ra rb => some (0, rd, ra, rb)
  | .cpySg rd ra rb => some (1, rd, ra, rb)
  | .cpyGob rd ra rb => some (2, rd, ra, rb)
  | .cpyGb rd ra rb => some (3, rd, ra, rb)
  | .cpySob rd ra rb => some (4, rd, ra, rb)
  | .cpyCas rd ra rb => some (5, rd, ra, rb)
  | .cpyCag rd ra rb => some (6, rd, ra, rb)
  | .cpySca rd ra rb => some (7, rd, ra, rb)
  | .cpyGg rd ra rb => some (8, rd, ra, rb)
  | _ => none

/-- A request of the issuing group stands at a content monitor and its split waits for it; nothing else changed (R150, R274). -/
structure Requests (s t : State) (r : CReq) : Prop where
  req     : ∃ q, t.creqs = s.creqs ++ [q] ∧ q.req = r ∧ q.cls = some (s.cls.id, s.iss.split) ∧ q.vmid = s.cls.vmid ∧
              q.store = s.cls.cstore ∧ q.pc = s.iss.pc ∧ q.words = s.iss.words ∧ t.cur.state = .blocked (.content q.id)
  pc      : t.cur.pc = s.iss.pc ∧ t.cur.mask = s.cur.mask ∧ t.cur.levels = s.cur.levels
  splits  : ∀ j, j ≠ s.iss.split → t.cls.split j = s.cls.split j
  cls     : { t.cls with splits := s.cls.splits } = s.cls
  rest    : { t with cls := s.cls, creqs := s.creqs, nextId := s.nextId } = s
  bytes   : ∀ x, t.mem.get x = s.mem.get x

/-! ### The integer functions as the manual's sentences give them -/

/-- A number clamped to the signed range of w bits (R66). -/
def clampInt (w : Nat) (x : Int) : Int := max (-2 ^ (w - 1)) (min (2 ^ (w - 1) - 1) x)

/-- R223 and R232: sums, differences and products modulo 2^w, upper halves of exact products, shifts as products and quotients
by powers of two, with the amount modulo w. -/
def aluSpec {w : Nat} (fn : AluFn) (a b : BitVec w) : BitVec w :=
  match fn with
  | .add => BitVec.ofInt w (a.toInt + b.toInt)
  | .sub => BitVec.ofInt w (a.toInt - b.toInt)
  | .mul => BitVec.ofInt w (a.toInt * b.toInt)
  | .mulh => BitVec.ofInt w (a.toInt * b.toInt / 2 ^ w)
  | .mulhn => BitVec.ofNat w (a.toNat * b.toNat / 2 ^ w)
  | .and => a &&& b
  | .or => a ||| b
  | .xor => a ^^^ b
  | .shl => BitVec.ofNat w (a.toNat * 2 ^ (b.toNat % w))
  | .shr => BitVec.ofNat w (a.toNat / 2 ^ (b.toNat % w))
  | .sra => BitVec.ofInt w (a.toInt / 2 ^ (b.toNat % w))
  | .min => BitVec.ofInt w (min a.toInt b.toInt)
  | .max => BitVec.ofInt w (max a.toInt b.toInt)
  | .minn => BitVec.ofNat w (min a.toNat b.toNat)
  | .maxn => BitVec.ofNat w (max a.toNat b.toNat)
  | .adds => BitVec.ofInt w (clampInt w (a.toInt + b.toInt))

/-- Only ADDS sets a flag: SAT (bit 5 of CSTAT), when it clamps (R66, R223). -/
def aluFlags {w : Nat} (fn : AluFn) (a b : BitVec w) : Word :=
  if fn = .adds ∧ clampInt w (a.toInt + b.toInt) ≠ a.toInt + b.toInt then fSAT else 0

/-- R224, R234: signed comparisons, and unsigned ones with the suffix N. -/
def cmpSpec {w : Nat} (fn : CmpFn) (a b : BitVec w) : Bool :=
  match fn with
  | .eq => decide (a = b)
  | .ne => decide (a ≠ b)
  | .lt => decide (a.toInt < b.toInt)
  | .le => decide (a.toInt ≤ b.toInt)
  | .gt => decide (b.toInt < a.toInt)
  | .ge => decide (b.toInt ≤ a.toInt)
  | .ltn => decide (a.toNat < b.toNat)
  | .len => decide (a.toNat ≤ b.toNat)
  | .gtn => decide (b.toNat < a.toNat)
  | .gen => decide (b.toNat ≤ a.toNat)

/-- R226, R238. -/
def shiftSpec {w : Nat} (k : ShiftKind) (a : BitVec w) (n : Nat) : BitVec w :=
  match k with
  | .shl => BitVec.ofNat w (a.toNat * 2 ^ n)
  | .shr => BitVec.ofNat w (a.toNat / 2 ^ n)
  | .sra => BitVec.ofInt w (a.toInt / 2 ^ n)

/-- The immediate of an I-format word: imm11, or imm25 ‖ imm11 under PFXI, as a signed number (R185, R225, R237). -/
def immInt (x : Imx) (imm : BitVec 11) : Int :=
  match x with
  | none => imm.toInt
  | some h => (h ++ imm : BitVec 36).toInt

/-- R233: the low or upper half of the product plus the addend, or the exact sum clamped. -/
def madSpec (fn : MadFn) (a b c : Word) : Word :=
  match fn with
  | .mad => BitVec.ofInt 32 (a.toInt * b.toInt + c.toInt)
  | .madh => BitVec.ofInt 32 (a.toInt * b.toInt / 2 ^ 32 + c.toInt)
  | .madhn => BitVec.ofNat 32 (a.toNat * b.toNat / 2 ^ 32 + c.toNat)
  | .mads => BitVec.ofInt 32 (clampInt 32 (a.toInt * b.toInt + c.toInt))

/-- MADS sets SAT when it clamps (R66, R233). -/
def madFlags (fn : MadFn) (a b c : Word) : Word :=
  if fn = .mads ∧ clampInt 32 (a.toInt * b.toInt + c.toInt) ≠ a.toInt * b.toInt + c.toInt then fSAT else 0

/-- R235. CLZ is the number of leading zero bits, 32 for 0; POPC the number of ones; BREV reverses the 32 bits. -/
def vunSpec (fn : VunFn) (a : Word) : Word :=
  match fn with
  | .mov | .bcst | .lane => a
  | .not => a ^^^ 0xFFFFFFFF
  | .neg => BitVec.ofInt 32 (-a.toInt)
  | .abs => BitVec.ofInt 32 a.toInt.natAbs
  | .clz => BitVec.ofNat 32 (if a = 0 then 32 else 31 - Nat.log2 a.toNat)
  | .popc => BitVec.ofNat 32 ((List.range 32).filter (fun j => a.getLsbD j)).length
  | .brev => BitVec.ofNat 32 (Nat.ofBits (fun i : Fin 32 => a.getLsbD (31 - i)))
  | .sextb => BitVec.ofInt 32 (a.setWidth 8).toInt
  | .sexth => BitVec.ofInt 32 (a.setWidth 16).toInt
  | .zextb => BitVec.ofNat 32 (a.toNat % 2 ^ 8)
  | .zexth => BitVec.ofNat 32 (a.toNat % 2 ^ 16)

/-- R239: halves of two words, or bytes packed into one half of the old destination `d`. -/
def packSpec (fn : PackFn) (a b d : Word) : Word :=
  match fn with
  | .hlo => BitVec.ofNat 32 (a.toNat % 2 ^ 16 + (b.toNat % 2 ^ 16) * 2 ^ 16)
  | .hhi => BitVec.ofNat 32 (a.toNat / 2 ^ 16 + b.toNat / 2 ^ 16 * 2 ^ 16)
  | .blo => BitVec.ofNat 32 (a.toNat % 2 ^ 8 + (b.toNat % 2 ^ 8) * 2 ^ 8 + d.toNat / 2 ^ 16 * 2 ^ 16)
  | .bhi => BitVec.ofNat 32 (d.toNat % 2 ^ 16 + (a.toNat % 2 ^ 8) * 2 ^ 16 + (b.toNat % 2 ^ 8) * 2 ^ 24)

/-- R249: the exact sum, or an extreme of the lanes, sign- or zero-extended, or the lanes' bits combined. -/
def RediSays (fn : RedFn) (xs : List Word) (x : DWord) : Prop :=
  match fn with
  | .add => x = BitVec.ofInt 64 (xs.map (fun a => a.toInt)).sum
  | .min => ∃ a ∈ xs, x = BitVec.ofInt 64 a.toInt ∧ ∀ b ∈ xs, a.toInt ≤ b.toInt
  | .max => ∃ a ∈ xs, x = BitVec.ofInt 64 a.toInt ∧ ∀ b ∈ xs, b.toInt ≤ a.toInt
  | .minn => ∃ a ∈ xs, x = BitVec.ofNat 64 a.toNat ∧ ∀ b ∈ xs, a.toNat ≤ b.toNat
  | .maxn => ∃ a ∈ xs, x = BitVec.ofNat 64 a.toNat ∧ ∀ b ∈ xs, b.toNat ≤ a.toNat
  | .and => ∀ j, x.getLsbD j = (decide (j < 32) && xs.all (fun a => a.getLsbD j))
  | .or => ∀ j, x.getLsbD j = xs.any (fun a => a.getLsbD j)
  | .xor => ∀ j, x.getLsbD j = decide (xs.countP (fun a => a.getLsbD j) % 2 = 1)

/-- The flags of a lane instruction: the OR of the effective lanes' (R78). -/
def laneFlags (s : State) (eff : Mask) (f : Nat → Word) : Word :=
  (lanesOf s.cls.lanes eff).foldr (fun i acc => f i ||| acc) 0

end Sys2Proof.Machine
end

