-- ==== Sys2Proof/Certificates/Slice0/Obligations.lean ====
section
/-!
DEFINITION. The statements for the provers, one definition each: what the instructions and device events of the A480 do, what
they leave as it was, and what the machine keeps.
-/

open Sys2Proof Sys2Proof.Machine

/-! ### Encoding, decoding and the step (09_encoding.md) -/

/-- Every well-formed instruction is read back whole from the words that encode it, whatever words follow, and those words are one
group of R184; a device event has no words. -/
def Obligations.EncodedInstructionsDecode : Prop :=
  ∀ i : Instr,
    (i.wf = true → i.isEvent = false → ∀ rest : List Word,
      decodeGroup (i.encode ++ rest) = .ok i ∧ groupLength (i.encode ++ rest) = i.encode.length) ∧
    (i.isEvent = true → i.encode = [])

/-- The other direction: a group that decodes has one meaning, and no bit of it is dropped: its instruction is well formed and
encodes as the group's own words, but for the order of two prefixes (R184). -/
def Obligations.DecodedGroupsEncode : Prop :=
  ∀ (ws : List Word) (i : Instr), decodeGroup ws = .ok i →
    i.wf = true ∧ i.isEvent = false ∧
    (i.encode = ws.take (groupLength ws) ∨
      ∃ a b c, ws.take (groupLength ws) = [a, b, c] ∧ i.encode = [b, a, c])

/-- Words written out in the manual, and words laid out field by field from Tables 9-1 to 9-9, decode to the instructions they
stand for. -/
def Obligations.ManualWordsDecode : Prop :=
  decodeGroup [0x1A00001F, 0x471A37FF] = .ok (.sandi (some 0x1F) 70 70 0x7FF) ∧
  decodeGroup [0x4B1A3230] = .ok (.sshi .shr 70 70 48) ∧
  decodeGroup [0x4D180003] = .ok (.slui 70 3) ∧
  decodeGroup [0x33428800] = .ok (.launch 80 81) ∧
  decodeGroup [0x12140003] = .ok (.bz 5 3) ∧
  decodeGroup [0x24000020] = .ok (.wbase 32) ∧
  decodeGroup [0x2C00400A] = .ok (.swr 8 0x00A) ∧
  decodeGroup [0x54000000] = .ok .tret ∧
  decodeGroup [0x0C000000] = .ok .ret ∧
  decodeGroup [0x18000000] = .ok .join ∧
  decodeGroup [0x06000000] = .ok .kend ∧
  decodeGroup [0b0110000_0000011_0000001_0000010_0000] = .ok (.valu none .add 3 1 2) ∧
  decodeGroup [0b1010010_0000011_0000001_1111111_0010] = .ok (.ldl none none .w 3 1 0x7F 2) ∧
  decodeGroup [0b0001111_0000000000000000000000100, 0b0001011_010_00_1_0000000000000000011] = .ok (.bspl 4 2 true 3)

/-- A group is fetched, decoded and run. The split `x` that a step issues is the one its core issues next, named by the agenda or,
with an empty agenda, found by the step itself; its words decode to `i` at the class's level. If no register that `i` names is
still being written, the step is `i` on the state in which that class issues, with the class's turn, its unit and the slot's energy noted;
else the split is passed over (R188, R193, R37, R38, R424; log entry 1). Noting changes no other field. A device event the agenda names
runs as itself. That the agenda names the split is the model's choice (log entry 1). -/
def Obligations.StepRunsInstruction : Prop :=
  (∀ (s u : State) (x : Candidate) (c : Cls) (ws : List Word) (lines : List Nat) (i : Instr),
    (s.agenda = [] ∧ u = s ∧ s.pick = some (c.core, x) ∨
      (∃ ms, s.agenda = .issue x.cls x.split :: ms ∧ u = { s with agenda := ms } ∧ u.nextOn c.core = some x)) →
    u.getCls x.cls = some c → (c.split x.split).owed = none →
    let pc := (c.split x.split).pc
    let v := { u.focus x.cls with iss := { split := x.split, pc := pc, words := ws } }
    (u.focus x.cls).fetchGroup c pc = .words ws lines → decodeChecked c.level ws = .ok i →
    (interlocked i v = false →
      step s = thenNext (noteIssue c.core x.cls x.split (u.formKey x.cls) (some (unitOf i, v.occupancy i))) (exec i v)) ∧
    (interlocked i v = true → step s = .next (noteIssue c.core x.cls x.split (u.formKey x.cls) none (hold v))) ∧
    v.cls = c ∧ v.mem = s.mem ∧ v.words = s.words ∧ v.time = s.time ∧ v.pending = s.pending) ∧
  (∀ (s : State) (core cls split : Nat) (form : Nat × Nat) (w : Option (PipeUnit × Nat)),
    { noteIssue core cls split form w s with slots := s.slots, busy := s.busy, meter := s.meter } = s) ∧
  (∀ (s : State) (ms : List Move) (i : Instr), s.agenda = .event i :: ms → i.isEvent = true →
    step s = exec i { s with agenda := ms }.unhold)

/-- The decode checks in their order: a reserved opcode and a malformed group raise ILLOP whatever the level, then a privileged
opcode above its level raises PRIV, then a reserved field raises ILLOP; the event blocks the split with nothing else changed
(R192, R193, R200). Decode step 5 and error marks, for every instruction of the scalar and lane families: a register outside
the allocation raises ILLOP, and a source that carries an error mark raises ECC with the effective mask in its record, with
nothing else changed (R193, R453). -/
def Obligations.IllegalGroupsRaise : Prop :=
  ((∀ (level : Nat) (ws : List Word), decodeGroup ws = .error .reservedOpcode ∨ decodeGroup ws = .error .prefixGroup →
     decodeChecked level ws = .error .illop) ∧
   (∀ (level h : Nat) (ws : List Word), privLevel (groupOpcode ws) = some h → h < level →
     decodeGroup ws ≠ .error .reservedOpcode → decodeGroup ws ≠ .error .prefixGroup → decodeChecked level ws = .error .priv) ∧
   (∀ (level : Nat) (ws : List Word), (∀ h, privLevel (groupOpcode ws) = some h → level ≤ h) →
     decodeGroup ws = .error .illegalField → decodeChecked level ws = .error .illop) ∧
   ([0x1F, 0x28, 0x29, 0x2A, 0x2B, 0x2C, 0x2D, 0x2E, 0x2F].map (fun n => privLevel (BitVec.ofNat 7 n)) =
     [some 0, some 1, some 1, some 1, some 1, some 1, some 0, some 1, some 0]) ∧
   (∀ (s : State) (cls split : Nat) (c : Cls) (ws : List Word) (lines : List Nat) (cause : Cause),
     let v := { s.focus cls with iss := { split := split, pc := (c.split split).pc, words := ws } }
     (s.focus cls).cls = c → (c.split split).owed = none → split < c.splits.length → c.kind ≠ .handler →
     (s.focus cls).fetchGroup c (c.split split).pc = .words ws lines → decodeChecked c.level ws = .error cause →
     ∃ t, Raises v t { cause := cause } ∧ ∀ core, issueSplit exec core cls split s = .next (noteIssue core cls split (s.formKey cls) none t))) ∧
  (∀ (s : State) (i : Instr), s.iss.split < s.cls.splits.length → s.cls.kind ≠ .handler →
     (match i with
       | .salu _ _ _ _ | .scmp _ _ _ _ | .saddi _ _ _ _ | .sandi _ _ _ _ | .sori _ _ _ _ | .sshi _ _ _ _ | .smovv _ _ _
       | .valu _ _ _ _ _ | .valus _ _ _ _ _ | .vmad _ _ _ _ _ | .vcmp _ _ _ _ _ | .vcmps _ _ _ _ _ | .vun _ _ _ _
       | .vsel _ _ _ _ _ | .vaddi _ _ _ _ _ | .vshi _ _ _ _ _ | .vpack _ _ _ _ _ | .falu _ _ _ _ _ | .falus _ _ _ _ _
       | .ffma _ _ _ _ _ _ | .fcmp _ _ _ _ _ | .funit _ _ _ _ | .halu _ _ _ _ _ _ | .hfma _ _ _ _ _ _ | .cvt _ _ _ _ _
       | .cvt8Pack _ _ _ _ _ _ _ | .cvt8Unpack _ _ _ _ _ | .expd _ _ _ _ _ _ => True
       | _ => False) →
     (operandsOk i s = false → ∃ t, exec i s = .next t ∧ Raises s t { cause := .illop }) ∧
     (operandsOk i s = true → readsMarked i s = true →
       ∃ t, exec i s = .next t ∧ Raises s t { cause := .ecc, mask := some (s.eff (instrPfx i)) }))

/-- The memory keeps its one canonical form in every step: addresses rise strictly and no zero byte is listed, so equal memories
are equal data (log entry 2). -/
def Obligations.StepKeepsMemoryForm : Prop :=
  ∀ s t : State, s.mem.wf = true → step s = .next t → t.mem.wf = true

/-- A byte written reads back and every other byte reads as before; what hardware writes under an owner tag it reads back under
that tag, and no byte of another sector changes (R1, R447). What an unlisted byte reads as is the model's choice (log entry
2). -/
def Obligations.MemoryReadsWhatWasWritten : Prop :=
  (∀ (m : Memory) (a x : Nat) (b : Byte), m.wf = true → (m.set a b).get x = if x = a then b else m.get x) ∧
  (∀ (m : Memory) (a x : Nat) (bs : List Byte), m.wf = true →
    (m.write a bs).get x = if a ≤ x ∧ x < a + bs.length then bs.getD (x - a) 0 else m.get x) ∧
  (∀ m n : Memory, m.wf = true → n.wf = true → (∀ x, m.get x = n.get x) → m = n) ∧
  (∀ (s : State) (tag a : Nat) (b : Byte), s.mem.wf = true →
    ((∀ x, s.l2find a = some x → s.keyId x.tag = s.keyId tag) → (s.hwWrite tag a [b]).physByte .unit (s.keyId tag) a = b) ∧
    ∀ x, sector x ≠ sector a → (s.hwWrite tag a [b]).mem.get x = s.mem.get x)

/-- A power-on reset: normal mode, memory scrubbed and in canonical form, nothing resident, pending or outstanding, boot still to
run; every cause of a partition routed as Table 16-4 says, and HLIMIT 1,000,000 (R444, Tables 16-3, 16-4). That boot has still
to run, and that memory is empty before it, are the model's choices (log entries 2 and 4). -/
def Obligations.ResetValues : Prop :=
  State.reset.confidential = false ∧ State.reset.mem = [] ∧ State.reset.mem.wf = true ∧ (∀ a, State.reset.mem.get a = 0) ∧
  State.reset.phase = .boot ∧ State.reset.time = 0 ∧ State.reset.holder = [] ∧ State.reset.pending = [] ∧
  State.reset.others = [] ∧ State.reset.cls.splits = [] ∧ State.reset.tlb = [] ∧ State.reset.sealMap = [] ∧
  ∀ v : Nat, v < 64 →
    (∀ c ∈ [Cause.illop, .illstate, .kendx, .fetchb, .align, .addr, .xlock, .chk, .race, .scratch, .barcount, .twinfail, .matmis,
        .obfault, .cafull, .cacoll, .caname, .trapi, .breakp, .priv, .right], State.reset.routeEntry v c.code = 2) ∧
    (∀ c ∈ [Cause.xlate, .prot, .orphan], State.reset.routeEntry v c.code = 1) ∧
    (∀ c ∈ [Cause.deadline, .strict, .ecc, .dirtyfull], State.reset.routeEntry v c.code = 4) ∧
    State.reset.word (.part v) 0x014 = 1000000

/-! ### Scalar and lane arithmetic (10_isa_control.md, 11_isa_vector.md) -/

/-- SALU, SADDI, SANDI, SORI, SSHI, SLUI and SCMP complete and write exactly s[rd] and, ADDS that clamps, SAT (R223–R227, R52,
R66). SMOVV reads lane `lane` of v[ra] whatever its mask state and zero-extends it; a lane at or above L raises ILLOP (R228).
R223 is stated whole; the other rules named are stated for their results. -/
def Obligations.ScalarResults : Prop :=
  (∀ s : State, s.issuing = true →
     (∀ fn rd ra rb, s.legal (.salu fn rd ra rb) = true → ∃ t, exec (.salu fn rd ra rb) s = .next t ∧
       WritesScalar s t s.next rd (aluSpec fn (s.getS ra) (s.getS rb)) (aluFlags fn (s.getS ra) (s.getS rb))) ∧
     (∀ fn rd ra rb, s.legal (.scmp fn rd ra rb) = true → ∃ t, exec (.scmp fn rd ra rb) s = .next t ∧
       WritesScalar s t s.next rd (if cmpSpec fn (s.getS ra) (s.getS rb) then 1 else 0) 0) ∧
     (∀ x rd ra imm, s.legal (.saddi x rd ra imm) = true → ∃ t, exec (.saddi x rd ra imm) s = .next t ∧
       WritesScalar s t s.next rd (BitVec.ofInt 64 ((s.getS ra).toInt + immInt x imm)) 0) ∧
     (∀ x rd ra imm, s.legal (.sandi x rd ra imm) = true → ∃ t, exec (.sandi x rd ra imm) s = .next t ∧
       WritesScalar s t s.next rd (s.getS ra &&& BitVec.ofInt 64 (immInt x imm)) 0) ∧
     (∀ x rd ra imm, s.legal (.sori x rd ra imm) = true → ∃ t, exec (.sori x rd ra imm) s = .next t ∧
       WritesScalar s t s.next rd (s.getS ra ||| BitVec.ofInt 64 (immInt x imm)) 0) ∧
     (∀ kind rd ra n, s.legal (.sshi kind rd ra n) = true → ∃ t, exec (.sshi kind rd ra n) s = .next t ∧
       WritesScalar s t s.next rd (shiftSpec kind (s.getS ra) n.toNat) 0) ∧
     (∀ rd imm, s.legal (.slui rd imm) = true → ∃ t, exec (.slui rd imm) s = .next t ∧
       WritesScalar s t s.next rd (BitVec.ofInt 64 (imm.toInt * 2 ^ 14)) 0)) ∧
  (∀ (s : State) (rd ra : Reg) (lane : BitVec 10), s.issuing = true →
     (s.legal (.smovv rd ra lane) = true → lane.toNat < s.cls.lanes → ∃ t, exec (.smovv rd ra lane) s = .next t ∧
       WritesScalar s t s.next rd (BitVec.ofNat 64 (s.getV ra lane.toNat).toNat) 0) ∧
     (s.cls.lanes ≤ lane.toNat → s.cls.kind ≠ .handler → ∃ t, exec (.smovv rd ra lane) s = .next t ∧
       Raises s t { cause := .illop }))

/-- VALU, VALUS, VMAD, VUN, VSEL, VADDI, VSHI and VPACK complete and write exactly the effective lanes of v[rd], with the flags of
the effective lanes (R229, R232, R233, R235–R239). -/
def Obligations.LaneIntegerResults : Prop :=
  ∀ s : State, s.issuing = true →
    (∀ p fn rd ra rb, s.legal (.valu p fn rd ra rb) = true → ∃ t, exec (.valu p fn rd ra rb) s = .next t ∧
      WritesLanes s t s.next rd (s.eff p) (fun i => aluSpec fn (s.getV ra i) (s.getV rb i))
        (laneFlags s (s.eff p) (fun i => aluFlags fn (s.getV ra i) (s.getV rb i)))) ∧
    (∀ p fn rd ra rb, s.legal (.valus p fn rd ra rb) = true → ∃ t, exec (.valus p fn rd ra rb) s = .next t ∧
      WritesLanes s t s.next rd (s.eff p) (fun i => aluSpec fn (s.getV ra i) (s.lowS rb))
        (laneFlags s (s.eff p) (fun i => aluFlags fn (s.getV ra i) (s.lowS rb)))) ∧
    (∀ p fn rd ra rb, s.legal (.vmad p fn rd ra rb) = true → ∃ t, exec (.vmad p fn rd ra rb) s = .next t ∧
      WritesLanes s t s.next rd (s.eff p) (fun i => madSpec fn (s.getV ra i) (s.laneB (Pfxp.rbsOf p) rb i) (s.getV rd i))
        (laneFlags s (s.eff p) (fun i => madFlags fn (s.getV ra i) (s.laneB (Pfxp.rbsOf p) rb i) (s.getV rd i)))) ∧
    (∀ p fn rd ra, s.legal (.vun p fn rd ra) = true → ∃ t, exec (.vun p fn rd ra) s = .next t ∧
      WritesLanes s t s.next rd (s.eff p)
        (fun i => vunSpec fn (if fn = .bcst then s.lowS ra else if fn = .lane then BitVec.ofNat 32 i else s.getV ra i))
        (laneFlags s (s.eff p) (fun _ => 0))) ∧
    (∀ p rd ra rb k, s.legal (.vsel p rd ra rb k) = true → ∃ t, exec (.vsel p rd ra rb k) s = .next t ∧
      WritesLanes s t s.next rd (s.eff p)
        (fun i => if (s.getK k).getLsbD i then s.getV ra i else s.laneB (Pfxp.rbsOf p) rb i)
        (laneFlags s (s.eff p) (fun _ => 0))) ∧
    (∀ x p rd ra imm, s.legal (.vaddi x p rd ra imm) = true → ∃ t, exec (.vaddi x p rd ra imm) s = .next t ∧
      WritesLanes s t s.next rd (s.eff p) (fun i => BitVec.ofInt 32 ((s.getV ra i).toInt + immInt x imm))
        (laneFlags s (s.eff p) (fun _ => 0))) ∧
    (∀ p kind rd ra n, s.legal (.vshi p kind rd ra n) = true → ∃ t, exec (.vshi p kind rd ra n) s = .next t ∧
      WritesLanes s t s.next rd (s.eff p) (fun i => shiftSpec kind (s.getV ra i) n.toNat)
        (laneFlags s (s.eff p) (fun _ => 0))) ∧
    (∀ p fn rd ra rb, s.legal (.vpack p fn rd ra rb) = true → ∃ t, exec (.vpack p fn rd ra rb) s = .next t ∧
      WritesLanes s t s.next rd (s.eff p) (fun i => packSpec fn (s.getV ra i) (s.laneB (Pfxp.rbsOf p) rb i) (s.getV rd i))
        (laneFlags s (s.eff p) (fun _ => 0)))

/-- VCMP, VCMPS and FCMP write the bits of the effective lanes of k[kd] and clear every other bit; with no effective lane k[kd]
keeps its value (R28, R54, R234, R242). -/
def Obligations.LaneCompares : Prop :=
  ∀ s : State, s.issuing = true →
    (∀ p fn kd ra rb, s.legal (.vcmp p fn kd ra rb) = true → ∃ t, exec (.vcmp p fn kd ra rb) s = .next t ∧
      WritesMask s t s.next kd (s.eff p) (fun i => decide (i < s.cls.lanes) && cmpSpec fn (s.getV ra i) (s.getV rb i))
        (laneFlags s (s.eff p) (fun _ => 0))) ∧
    (∀ p fn kd ra rb, s.legal (.vcmps p fn kd ra rb) = true → ∃ t, exec (.vcmps p fn kd ra rb) s = .next t ∧
      WritesMask s t s.next kd (s.eff p) (fun i => decide (i < s.cls.lanes) && cmpSpec fn (s.getV ra i) (s.lowS rb))
        (laneFlags s (s.eff p) (fun _ => 0))) ∧
    (∀ p fn kd ra rb, s.legal (.fcmp p fn kd ra rb) = true → ∃ t, exec (.fcmp p fn kd ra rb) s = .next t ∧
      WritesMask s t s.next kd (s.eff p)
        (fun i => decide (i < s.cls.lanes) && (fcmp fn (s.getV ra i) (s.laneB (Pfxp.rbsOf p) rb i)).val)
        (laneFlags s (s.eff p) (fun i => (fcmp fn (s.getV ra i) (s.laneB (Pfxp.rbsOf p) rb i)).flags)))

/-- FALU, FALUS, FFMA, FUN, HALU, HFMA (narrow), CVT, CVT8 and EXPD complete and write exactly the effective lanes of v[rd], with
the flags of the effective lanes, by the model's own arithmetic functions (R229, R240–R248). The wide HFMA writes the pair
v[rd], v[rd+1], each from the operands as they stood before either write (R50, R245). A NaN operand: FALU ADD, SUB, MUL and
ABSD and FFMA deliver the one quiet NaN 0x7FC00000; MIN, MAX, MINM and MAXM ignore a NaN when the other operand is a number; a
signaling NaN sets NV. FUN ABS and NEG change the sign bit of a number alone; FCMP UN holds of NaN operands exactly, and EQ
treats +0 and −0 as equal (R77, R240–R243). -/
def Obligations.LaneFloatResults : Prop :=
  (∀ s : State, s.issuing = true →
     (∀ p fn rd ra rb, s.legal (.falu p fn rd ra rb) = true → ∃ t, exec (.falu p fn rd ra rb) s = .next t ∧
       WritesLanes s t s.next rd (s.eff p) (fun i => (falu fn (s.getV ra i) (s.getV rb i)).val)
         (laneFlags s (s.eff p) (fun i => (falu fn (s.getV ra i) (s.getV rb i)).flags))) ∧
     (∀ p fn rd ra rb, s.legal (.falus p fn rd ra rb) = true → ∃ t, exec (.falus p fn rd ra rb) s = .next t ∧
       WritesLanes s t s.next rd (s.eff p) (fun i => (falu fn (s.getV ra i) (s.lowS rb)).val)
         (laneFlags s (s.eff p) (fun i => (falu fn (s.getV ra i) (s.lowS rb)).flags))) ∧
     (∀ p fn sc rd ra rb, s.legal (.ffma p fn sc rd ra rb) = true → ∃ t, exec (.ffma p fn sc rd ra rb) s = .next t ∧
       WritesLanes s t s.next rd (s.eff p) (fun i => (ffma fn (s.getV ra i) (s.laneB sc rb i) (s.getV rd i)).val)
         (laneFlags s (s.eff p) (fun i => (ffma fn (s.getV ra i) (s.laneB sc rb i) (s.getV rd i)).flags))) ∧
     (∀ p fn rd ra, s.legal (.funit p fn rd ra) = true → ∃ t, exec (.funit p fn rd ra) s = .next t ∧
       WritesLanes s t s.next rd (s.eff p) (fun i => (funit fn (s.getV ra i)).val)
         (laneFlags s (s.eff p) (fun i => (funit fn (s.getV ra i)).flags))) ∧
     (∀ p bf fn rd ra rb, s.legal (.halu p bf fn rd ra rb) = true → ∃ t, exec (.halu p bf fn rd ra rb) s = .next t ∧
       WritesLanes s t s.next rd (s.eff p) (fun i => (halu bf fn (s.getV ra i) (s.laneB (Pfxp.rbsOf p) rb i)).val)
         (laneFlags s (s.eff p) (fun i => (halu bf fn (s.getV ra i) (s.laneB (Pfxp.rbsOf p) rb i)).flags))) ∧
     (∀ p bf rd ra rb, s.legal (.hfma p bf false rd ra rb) = true → ∃ t, exec (.hfma p bf false rd ra rb) s = .next t ∧
       WritesLanes s t s.next rd (s.eff p)
         (fun i => (hfma2 bf (s.getV ra i) (s.laneB (Pfxp.rbsOf p) rb i) (s.getV rd i)).val)
         (laneFlags s (s.eff p) (fun i => (hfma2 bf (s.getV ra i) (s.laneB (Pfxp.rbsOf p) rb i) (s.getV rd i)).flags))) ∧
     (∀ p fn rd ra rb, s.legal (.cvt p fn rd ra rb) = true → ∃ t, exec (.cvt p fn rd ra rb) s = .next t ∧
       WritesLanes s t s.next rd (s.eff p) (fun i => (cvt fn (s.getV ra i) (s.laneB (Pfxp.rbsOf p) rb i)).val)
         (laneFlags s (s.eff p) (fun i => (cvt fn (s.getV ra i) (s.laneB (Pfxp.rbsOf p) rb i)).flags))) ∧
     (∀ p e5 hi sat rd ra rb, s.legal (.cvt8Pack p e5 hi sat rd ra rb) = true →
       ∃ t, exec (.cvt8Pack p e5 hi sat rd ra rb) s = .next t ∧
       WritesLanes s t s.next rd (s.eff p)
         (fun i => (cvt8Pack e5 hi sat (s.getV ra i) (s.laneB (Pfxp.rbsOf p) rb i) (s.getV rd i)).val)
         (laneFlags s (s.eff p)
           (fun i => (cvt8Pack e5 hi sat (s.getV ra i) (s.laneB (Pfxp.rbsOf p) rb i) (s.getV rd i)).flags))) ∧
     (∀ p e5 byte rd ra, s.legal (.cvt8Unpack p e5 byte rd ra) = true →
       ∃ t, exec (.cvt8Unpack p e5 byte rd ra) s = .next t ∧
       WritesLanes s t s.next rd (s.eff p) (fun i => (cvt8Unpack e5 byte (s.getV ra i)).val)
         (laneFlags s (s.eff p) (fun i => (cvt8Unpack e5 byte (s.getV ra i)).flags))) ∧
     (∀ p kind hi rd ra rb, s.legal (.expd p kind hi rd ra rb) = true →
       ∃ t, exec (.expd p kind hi rd ra rb) s = .next t ∧
       WritesLanes s t s.next rd (s.eff p)
         (fun i => expdLane kind hi (s.getV ra i) (fun j => s.getV (rb + BitVec.ofNat 7 j) i))
         (laneFlags s (s.eff p) (fun _ => 0)))) ∧
  (∀ (s : State) (p : Pfx) (bf : Bool) (rd ra rb : Reg), s.issuing = true → (Instr.hfma p bf true rd ra rb).wf = true →
     s.legal (.hfma p bf true rd ra rb) = true →
     ∃ t, exec (.hfma p bf true rd ra rb) s = .next t ∧ GoesOn s t s.next ∧ OutsideKept s t ∧
       (∀ i, i < s.cls.lanes → (s.eff p).getLsbD i = true → ∀ e : Fin 2,
         t.getV (rd + BitVec.ofNat 7 e) i
           = (hfmaWide bf e (s.getV ra i) (s.laneB (Pfxp.rbsOf p) rb i) (s.getV (rd + BitVec.ofNat 7 e) i)).val) ∧
       (∀ i, i < s.cls.lanes → (s.eff p).getLsbD i = false → ∀ e : Fin 2,
         t.getV (rd + BitVec.ofNat 7 e) i = s.getV (rd + BitVec.ofNat 7 e) i) ∧
       (∀ q, q ≠ s.cls.phys rd → q ≠ s.cls.phys (rd + 1) → ∀ i, t.cls.getP q i = s.cls.getP q i) ∧
       { t.cls with splits := s.cls.splits, v := s.cls.v, cstat := s.cls.cstat, poisonV := s.cls.poisonV } = s.cls) ∧
  ((∀ (fn : FaluFn) (a b : Word), fn ∈ [FaluFn.add, .sub, .mul, .absd] →
     ((f32 a).isNan = true ∨ (f32 b).isNan = true) →
     (falu fn a b).val = 0x7FC00000 ∧ (falu fn a b).flags = if (f32 a).isSig || (f32 b).isSig then fNV else 0) ∧
   (∀ (fn : FaluFn) (a b : Word), fn ∈ [FaluFn.min, .max, .minm, .maxm] →
     ((f32 a).isNan = true ∨ (f32 b).isNan = true) →
     (falu fn a b).val = (if (f32 a).isNan = false then a else if (f32 b).isNan = false then b else 0x7FC00000) ∧
     (falu fn a b).flags = if (f32 a).isSig || (f32 b).isSig then fNV else 0) ∧
   (∀ (fn : FmaFn) (a b c : Word), ((f32 a).isNan = true ∨ (f32 b).isNan = true ∨ (f32 c).isNan = true) →
     (ffma fn a b c).val = 0x7FC00000) ∧
   (∀ a : Word, (f32 a).isNan = false → (funit .abs a).val = a &&& 0x7FFFFFFF ∧ (funit .neg a).val = a ^^^ 0x80000000) ∧
   (∀ a b : Word, (fcmp .un a b).val = ((f32 a).isNan || (f32 b).isNan)) ∧
   (fcmp .eq 0x00000000 0x80000000).val = true)

/-! ### Across the class, control flow, splits (10_isa_control.md) -/

/-- VOTE, SHFL and REDF complete at depth 0 with every live lane active: VOTE and REDF write s[rd] alone, SHFL every live lane of
v[rd] (R214, R215, R90, R250). REDI writes s[rd] alone: the exact sum, an extreme, or the bitwise combination of every live
lane (R249). -/
def Obligations.ClassWideResults : Prop :=
  (∀ s : State, s.issuing = true → s.wholeClass = true → s.cls.lanes ≤ 1024 →
     (∀ rd ra, s.legal (.vote .any rd ra) = true → ∃ t, exec (.vote .any rd ra) s = .next t ∧
       WritesScalar s t s.next rd (if (List.range s.cls.lanes).any (fun i => (s.getK (k3 ra)).getLsbD i) then 1 else 0) 0) ∧
     (∀ rd ra, s.legal (.vote .all rd ra) = true → ∃ t, exec (.vote .all rd ra) s = .next t ∧
       WritesScalar s t s.next rd (if (List.range s.cls.lanes).all (fun i => (s.getK (k3 ra)).getLsbD i) then 1 else 0) 0) ∧
     (∀ rd ra, s.legal (.vote .cnt rd ra) = true → ∃ t, exec (.vote .cnt rd ra) s = .next t ∧
       WritesScalar s t s.next rd
         (BitVec.ofNat 64 ((List.range s.cls.lanes).countP (fun i => (s.getK (k3 ra)).getLsbD i))) 0) ∧
     (∀ rd ra, s.legal (.vote .eq rd ra) = true → ∃ t, exec (.vote .eq rd ra) s = .next t ∧
       WritesScalar s t s.next rd (if ∀ i, i < s.cls.lanes → s.getV ra i = s.getV ra 0 then 1 else 0) 0) ∧
     (∀ p op all rd ra rb, s.legal (.shfl p op all rd ra rb) = true → ∃ t, exec (.shfl p op all rd ra rb) s = .next t ∧
       WritesLanes s t s.next rd s.cls.liveM (fun i =>
         let n := if all then s.cls.lanes else 32
         let base := if all then 0 else i / 32 * 32
         let b : Int := (s.laneB (Pfxp.rbsOf p) rb i).toNat
         let j : Int := match op with
           | .idx => b
           | .up => (i - base : Nat) - b
           | .down => (i - base : Nat) + b
           | .xor => ((i - base) ^^^ (s.laneB (Pfxp.rbsOf p) rb i).toNat : Nat)
         if 0 ≤ j ∧ j < n then s.getV ra (base + j.toNat) else s.getV ra i) 0) ∧
     (∀ fn rd ra, s.legal (.redf fn rd ra) = true → ∃ t, exec (.redf fn rd ra) s = .next t ∧
       let words := (List.range (s.cls.lanes / 32)).map (fun w => (List.range 32).map (fun i => s.getV ra (32 * w + i)))
       WritesScalar s t s.next rd (BitVec.ofNat 64 (redfValue fn words).val.toNat) (redfValue fn words).flags)) ∧
  (∀ (s : State) (fn : RedFn) (rd ra : Reg), s.issuing = true → s.wholeClass = true → 0 < s.cls.lanes →
     s.legal (.redi fn rd ra) = true →
     ∃ x, RediSays fn ((List.range s.cls.lanes).map (fun i => s.getV ra i)) x ∧
       ∃ t, exec (.redi fn rd ra) s = .next t ∧ WritesScalar s t s.next rd x 0)

/-- Every class-wide instruction raises ILLSTATE, before any effect, at any other split depth or with any live lane inactive; the
event carries the depth and the mask (R35). -/
def Obligations.ClassWideElsewhere : Prop :=
  ∀ (s : State) (i : Instr), s.issuing = true → s.wholeClass = false → s.cls.kind ≠ .handler → s.legal i = true →
    (match i with
      | .vote _ _ _ | .shfl _ _ _ _ _ _ | .redi _ _ _ | .redf _ _ _
      | .obRes _ _ | .obRel _ | .obSt _ _ _ | .obLd _ _ _ | .obStat _ _
      | .matZero _ | .matLoop _ _ _ | .matDrain _ _ _ | .matStat _ _
      | .cpyGs _ _ _ | .cpySg _ _ _ | .cpyGob _ _ _ | .cpyGb _ _ _ | .cpySob _ _ _ | .cpyCas _ _ _ | .cpyCag _ _ _
      | .cpySca _ _ _ | .cpyGg _ _ _
      | .caLoa _ _ | .caNode _ _ | .caRef _ | .caRel _ | .caGet _ _ | .caSwap _ _ _ | .caStat _ _ => True
      | _ => False) →
    ∃ t, exec i s = .next t ∧ Raises s t { cause := .illstate } ∧
      (s.eventOf { cause := .illstate }).depth = s.depth ∧ (s.eventOf { cause := .illstate }).mask = s.act

/-- KOP: the bitwise functions, FROMV, CLEAR and FILL write a mask register, POP, FIRST and LAST a scalar, TOV lanes (R222, R53,
R54). FIRST and LAST of no lane write all ones. -/
def Obligations.KopResults : Prop :=
  ∀ s : State, s.issuing = true →
    (∀ p fn rd ra rb, s.legal (.kop p fn rd ra rb) = true → fn ∈ [KopFn.and, .or, .xor, .andn, .not, .mov, .fromv, .clear, .fill] →
      ∃ t, exec (.kop p fn rd ra rb) s = .next t ∧
      WritesMask s t s.next (k3 rd) (s.eff p) (fun i =>
        let a := (s.getK (k3 ra)).getLsbD i
        let b := (s.getK (k3 rb)).getLsbD i
        match fn with
        | .and => a && b
        | .or => a || b
        | .xor => a != b
        | .andn => a && !b
        | .not => !a
        | .mov => a
        | .fromv => decide (i < s.cls.lanes) && decide (s.getV ra i ≠ 0)
        | .fill => true
        | .clear | .pop | .first | .last | .tov => false) 0) ∧
    (∀ p rd ra rb, s.legal (.kop p .pop rd ra rb) = true → ∃ t, exec (.kop p .pop rd ra rb) s = .next t ∧
      WritesScalar s t s.next rd
        (BitVec.ofNat 64 ((List.range s.cls.lanes).countP (fun i => (s.getK (k3 ra)).getLsbD i && (s.eff p).getLsbD i))) 0) ∧
    (∀ p rd ra rb, s.legal (.kop p .first rd ra rb) = true → ∃ t, exec (.kop p .first rd ra rb) s = .next t ∧
      ((∀ i, i < s.cls.lanes → ((s.getK (k3 ra)).getLsbD i && (s.eff p).getLsbD i) = false) →
        WritesScalar s t s.next rd 0xFFFFFFFFFFFFFFFF 0) ∧
      (∀ j, j < s.cls.lanes → ((s.getK (k3 ra)).getLsbD j && (s.eff p).getLsbD j) = true →
        (∀ i, i < j → ((s.getK (k3 ra)).getLsbD i && (s.eff p).getLsbD i) = false) →
        WritesScalar s t s.next rd (BitVec.ofNat 64 j) 0)) ∧
    (∀ p rd ra rb, s.legal (.kop p .last rd ra rb) = true → ∃ t, exec (.kop p .last rd ra rb) s = .next t ∧
      ((∀ i, i < s.cls.lanes → ((s.getK (k3 ra)).getLsbD i && (s.eff p).getLsbD i) = false) →
        WritesScalar s t s.next rd 0xFFFFFFFFFFFFFFFF 0) ∧
      (∀ j, j < s.cls.lanes → ((s.getK (k3 ra)).getLsbD j && (s.eff p).getLsbD j) = true →
        (∀ i, j < i → i < s.cls.lanes → ((s.getK (k3 ra)).getLsbD i && (s.eff p).getLsbD i) = false) →
        WritesScalar s t s.next rd (BitVec.ofNat 64 j) 0)) ∧
    (∀ p rd ra rb, s.legal (.kop p .tov rd ra rb) = true → ∃ t, exec (.kop p .tov rd ra rb) s = .next t ∧
      WritesLanes s t s.next rd (s.eff p) (fun i => if (s.getK (k3 ra)).getLsbD i then 1 else 0) 0)

/-- NOP, BRA, CALL, BU, BZ and BNZ: where the split goes on, CALL's return address in s127, and nothing else (R202, R205, R208,
R209). RET goes to s127; an address with a bit of 63:57 or 1:0 set raises FETCHB with that address (R206). SWITCH goes to the
entry of the sealed jump table that the lowest active lane's index selects; a table number at or above NJT, and an index
beyond the table, raise ILLOP (R207). -/
def Obligations.UniformTransfers : Prop :=
  (∀ s : State, s.issuing = true →
     (∃ t, exec .nop s = .next t ∧ WritesNothing s t s.next) ∧
     (∀ off, ∃ t, exec (.bra off) s = .next t ∧ WritesNothing s t (branchTarget s off)) ∧
     (∀ off, ∃ t, exec (.call off) s = .next t ∧ WritesScalar s t (branchTarget s off) 127 (BitVec.ofInt 64 s.next) 0) ∧
     (∀ k c off, s.legal (.bu k c off) = true → ∃ t, exec (.bu k c off) s = .next t ∧
       let taken : Prop := match c with
         | .any => s.getK k &&& s.act ≠ 0
         | .all => s.act &&& ~~~ s.getK k = 0
         | .none => s.getK k &&& s.act = 0
         | .nall => s.act &&& ~~~ s.getK k ≠ 0
       (taken → WritesNothing s t (branchTarget s off)) ∧ (¬taken → WritesNothing s t s.next)) ∧
     (∀ ra off, s.legal (.bz ra off) = true → ∃ t, exec (.bz ra off) s = .next t ∧
       WritesNothing s t (if s.getS ra = 0 then branchTarget s off else s.next)) ∧
     (∀ ra off, s.legal (.bnz ra off) = true → ∃ t, exec (.bnz ra off) s = .next t ∧
       WritesNothing s t (if s.getS ra = 0 then s.next else branchTarget s off))) ∧
  (∀ s : State, s.issuing = true → s.legal .ret = true →
     ((s.getS 127).toNat < 2 ^ 57 → (s.getS 127).toNat % 4 = 0 →
       ∃ t, exec .ret s = .next t ∧ WritesNothing s t (s.getS 127).toNat) ∧
     (((s.getS 127).toNat < 2 ^ 57 → (s.getS 127).toNat % 4 ≠ 0) → s.cls.kind ≠ .handler →
       ∃ t, exec .ret s = .next t ∧ Raises s t { cause := .fetchb, addr := (s.getS 127).toNat })) ∧
  (∀ (s : State) (ra : Reg) (table : BitVec 11), s.issuing = true →
     (s.cls.njt ≤ table.toNat → s.cls.kind ≠ .handler → ∃ t, exec (.switch ra table) s = .next t ∧ Raises s t { cause := .illop }) ∧
     (s.legal (.switch ra table) = true →
     (∀ (im : Image) (tab : List Nat) (lane : Nat), table.toNat < s.cls.njt →
       s.images.find? (fun im => im.handle == s.cls.image && im.vmid == s.cls.vmid) = some im →
       im.tables[table.toNat]? = some tab →
       lane < s.cls.lanes → s.act.getLsbD lane = true → (∀ i, i < lane → s.act.getLsbD i = false) →
       (∀ w, tab[(s.getV ra lane).toNat]? = some w →
         ∃ t, exec (.switch ra table) s = .next t ∧ WritesNothing s t ((s.cls.code : Int) + 4 * w)) ∧
       (tab.length ≤ (s.getV ra lane).toNat → s.cls.kind ≠ .handler →
         ∃ t, exec (.switch ra table) s = .next t ∧ Raises s t { cause := .illop }))))

/-- BSPL with lanes on both sides and two free entries opens two children in the two lowest free entries; the parent waits at the
join; depth grows by one in each child (R30, R31, R210). BSPL with a side without lanes, or without two free entries, opens a
level record in the same split: the taken side first, when it has lanes (R31, R210); at depth 15 it raises ILLSTATE. -/
def Obligations.BsplOpensLevel : Prop :=
  (∀ (s : State) (joinOff : BitVec 25) (k : Reg3) (inv : Bool) (off : BitVec 19) (a b : Nat) (rest : List Nat),
     s.issuing = true → s.legal (.bspl joinOff k inv off) = true → s.depth < 15 →
     a < s.cls.splits.length → b < s.cls.splits.length → s.cls.freeEntries = a :: b :: rest →
     a ≠ s.iss.split → b ≠ s.iss.split → a ≠ b →
     let sel := if inv then ~~~ (s.getK k) else s.getK k
     s.act &&& sel ≠ 0 → s.act &&& ~~~ sel ≠ 0 →
     ∃ t, exec (.bspl joinOff k inv off) s = .next t ∧
       (t.cls.split a).state = .ready ∧ (t.cls.split a).mask = s.act &&& sel ∧ (t.cls.split a).pc = branchTarget s off ∧
       (t.cls.split b).state = .ready ∧ (t.cls.split b).mask = s.act &&& ~~~ sel ∧ (t.cls.split b).pc = s.next ∧
       (∀ c ∈ [a, b], (t.cls.split c).parent = s.iss.split ∧
         (t.cls.split c).levels = .child (branchTarget s joinOff) :: s.cur.levels) ∧
       (t.cls.split s.iss.split).state = .joinParent (branchTarget s joinOff) ∧
       (∀ j, j ≠ a → j ≠ b → j ≠ s.iss.split → t.cls.split j = s.cls.split j) ∧
       { t.cls with splits := s.cls.splits } = s.cls ∧ { t with cls := s.cls, iss := s.iss } = s ∧
       ∀ x, t.mem.get x = s.mem.get x) ∧
  (∀ (s : State) (joinOff : BitVec 25) (k : Reg3) (inv : Bool) (off : BitVec 19),
     s.issuing = true → s.legal (.bspl joinOff k inv off) = true →
     let sel := if inv then ~~~ (s.getK k) else s.getK k
     (s.depth < 15 → s.act &&& sel ≠ 0 → s.act &&& ~~~ sel = 0 ∨ s.cls.freeEntries.length < 2 →
       ∃ t, exec (.bspl joinOff k inv off) s = .next t ∧ t.cur.pc = branchTarget s off ∧ t.cur.mask = s.act &&& sel ∧
         t.cur.state = s.cur.state ∧
         t.cur.levels = .deferred (branchTarget s joinOff) s.next (s.act &&& ~~~ sel) 0 :: s.cur.levels ∧
         (∀ j, j ≠ s.iss.split → t.cls.split j = s.cls.split j) ∧
         { t.cls with splits := s.cls.splits } = s.cls ∧ OutsideKept s t) ∧
     (s.depth < 15 → s.act &&& sel = 0 →
       ∃ t, exec (.bspl joinOff k inv off) s = .next t ∧ t.cur.pc = s.next ∧ t.cur.mask = s.act &&& ~~~ sel ∧
         t.cur.levels = .deferred (branchTarget s joinOff) (branchTarget s off) 0 0 :: s.cur.levels ∧
         (∀ j, j ≠ s.iss.split → t.cls.split j = s.cls.split j) ∧
         { t.cls with splits := s.cls.splits } = s.cls ∧ OutsideKept s t) ∧
     (s.depth = 15 → s.cls.kind ≠ .handler →
       ∃ t, exec (.bspl joinOff k inv off) s = .next t ∧ Raises s t { cause := .illstate }))

/-- JOIN of a level record: the deferred side runs next if it has lanes, else the level closes and the split goes on after the
JOIN with the lanes of both sides (R32, R211). JOIN anywhere but at the innermost open level's join raises ILLSTATE. JOIN of a
child: the first to arrive waits; when its sibling has arrived the parent goes on after the JOIN with the lanes of both, and
both children's entries are free (R32, R211). -/
def Obligations.JoinClosesLevel : Prop :=
  (∀ s : State, s.issuing = true →
     (∀ join dpc set kept rest, s.cur.levels = .deferred join dpc set kept :: rest → join = s.iss.pc →
       (set ≠ 0 → ∃ t, exec .join s = .next t ∧ t.cur.pc = dpc ∧ t.cur.mask = set ∧
         t.cur.state = (if s.cur.stops = 0 then .ready else .blocked .event) ∧
         t.cur.levels = .deferred join dpc 0 (kept ||| s.act) :: rest ∧
         (∀ j, j ≠ s.iss.split → t.cls.split j = s.cls.split j) ∧
         { t.cls with splits := s.cls.splits } = s.cls ∧ OutsideKept s t) ∧
       (set = 0 → kept ||| s.act ≠ 0 → ∃ t, exec .join s = .next t ∧ t.cur.pc = join + 4 ∧ t.cur.mask = kept ||| s.act ∧
         t.cur.state = (if s.cur.stops = 0 then .ready else .blocked .event) ∧ t.cur.levels = rest ∧
         (∀ j, j ≠ s.iss.split → t.cls.split j = s.cls.split j) ∧
         { t.cls with splits := s.cls.splits } = s.cls ∧ OutsideKept s t)) ∧
     (s.cur.joinAt ≠ some s.iss.pc → s.cls.kind ≠ .handler → ∃ t, exec .join s = .next t ∧ Raises s t { cause := .illstate })) ∧
  (∀ (s : State) (join : Int) (rest : List LevelRec) (j : Nat), s.issuing = true → s.cur.levels = .child join :: rest →
     join = s.iss.pc → s.cls.sibling s.iss.split = some j → j ≠ s.iss.split → s.cur.parent ≠ s.iss.split → s.cur.parent ≠ j →
     j < s.cls.splits.length → s.cur.parent < s.cls.splits.length →
     ((s.cls.split j).state ≠ .joinChild ∨ (s.cls.split j).stops ≠ 0 ∨ s.cur.stops ≠ 0 → ∃ t, exec .join s = .next t ∧ t.cur.state = .joinChild ∧ t.cur.mask = s.act ∧
       (∀ i, i ≠ s.iss.split → t.cls.split i = s.cls.split i) ∧
       { t.cls with splits := s.cls.splits } = s.cls ∧ OutsideKept s t) ∧
     ((s.cls.split j).state = .joinChild → (s.cls.split j).stops = 0 → s.cur.stops = 0 →
       (s.cls.split j).mask ||| s.act ≠ 0 → ∃ t, exec .join s = .next t ∧
       t.cls.split s.iss.split = {} ∧ t.cls.split j = {} ∧
       (t.cls.split s.cur.parent).state = (if (s.cls.split s.cur.parent).stops = 0 then .ready else .blocked .event) ∧
       (t.cls.split s.cur.parent).pc = join + 4 ∧
       (t.cls.split s.cur.parent).mask = (s.cls.split j).mask ||| s.act ∧
       (t.cls.split s.cur.parent).levels = (s.cls.split s.cur.parent).levels ∧
       (∀ i, i ≠ s.iss.split → i ≠ j → i ≠ s.cur.parent → t.cls.split i = s.cls.split i) ∧
       { t.cls with splits := s.cls.splits } = s.cls ∧ { t with cls := s.cls, iss := s.iss } = s ∧
       ∀ x, t.mem.get x = s.mem.get x))

/-- ALLB saves the mask and makes every live lane active, ALLE restores it, WBASE moves the window; at another depth, in a
bracket, outside one or with a value out of range they raise ILLSTATE or ILLOP and change nothing (R36, R49, R212, R213). R36
is stated whole; END inside a bracket raises ILLSTATE. -/
def Obligations.BracketRules : Prop :=
  ∀ s : State, s.issuing = true →
    (s.depth = 0 → s.cls.bracket = none → ∃ t, exec .allb s = .next t ∧ t.cls.bracket = some s.act ∧ t.act = s.cls.liveM ∧
      t.cur.pc = s.next ∧ t.cur.levels = s.cur.levels ∧ (∀ j, j ≠ s.iss.split → t.cls.split j = s.cls.split j) ∧
      { t.cls with splits := s.cls.splits, bracket := s.cls.bracket } = s.cls ∧ OutsideKept s t) ∧
    (∀ m, s.depth = 0 → s.cls.bracket = some m → ∃ t, exec .alle s = .next t ∧ t.cls.bracket = none ∧ t.act = m ∧
      t.cur.pc = s.next ∧ t.cur.levels = s.cur.levels ∧ (∀ j, j ≠ s.iss.split → t.cls.split j = s.cls.split j) ∧
      { t.cls with splits := s.cls.splits, bracket := s.cls.bracket } = s.cls ∧ OutsideKept s t) ∧
    (∀ n : BitVec 9, s.depth = 0 → n.toNat % 16 = 0 → n.toNat ≤ s.cls.nregs - 128 → ∃ t, exec (.wbase n) s = .next t ∧
      GoesOn s t s.next ∧ t.cls.wb = n.toNat ∧ { t.cls with splits := s.cls.splits, wb := s.cls.wb } = s.cls ∧
      OutsideKept s t) ∧
    (s.cls.kind ≠ .handler →
      (s.depth ≠ 0 ∨ s.cls.bracket ≠ none → ∃ t, exec .allb s = .next t ∧ Raises s t { cause := .illstate }) ∧
      (s.depth ≠ 0 ∨ s.cls.bracket = none → ∃ t, exec .alle s = .next t ∧ Raises s t { cause := .illstate }) ∧
      (s.cls.bracket ≠ none → ∃ t, exec .endClass s = .next t ∧ Raises s t { cause := .illstate }) ∧
      (∀ n : BitVec 9, n.toNat % 16 ≠ 0 ∨ s.cls.nregs - 128 < n.toNat →
        ∃ t, exec (.wbase n) s = .next t ∧ Raises s t { cause := .illop }) ∧
      (∀ n : BitVec 9, n.toNat % 16 = 0 → n.toNat ≤ s.cls.nregs - 128 → s.depth ≠ 0 →
        ∃ t, exec (.wbase n) s = .next t ∧ Raises s t { cause := .illstate }))

/-- SRD reads the special registers of Table 3-3; SWR clears the flags of CSTAT whose bits are set and nothing else; another index
raises ILLOP (R60–R62, R216). -/
def Obligations.SpecialRegisters : Prop :=
  ∀ s : State, s.issuing = true → s.flagsDue = false →
    (∀ (rd : Reg) (ix : BitVec 11) (x : DWord),
      (ix, x) ∈ [((0x001 : BitVec 11), BitVec.ofNat 64 s.cls.lanes), (0x002, BitVec.ofNat 64 s.cls.classno),
        (0x003, BitVec.ofNat 64 s.cls.formno), (0x004, BitVec.ofNat 64 s.cls.houseno), (0x005, BitVec.ofNat 64 s.cls.forminh),
        (0x006, BitVec.ofNat 64 (s.cls.core % 256)), (0x007, BitVec.ofNat 64 (s.cls.core % 256 / 64)),
        (0x008, BitVec.ofNat 64 s.cls.wb), (0x009, BitVec.ofNat 64 s.cur.levels.length),
        (0x00A, ((s.cls.cstat &&& 0x7F) ||| (if s.cls.bracket.isSome then 0x100 else 0)).setWidth 64),
        (0x00B, BitVec.ofNat 64 (min s.cls.soc 65535)), (0x00C, BitVec.ofNat 64 (s.vtime s.cls.vmid)), (0x00D, BitVec.ofNat 64 s.cls.cycle),
        (0x00E, BitVec.ofNat 64 s.cls.lrec), (0x010, BitVec.ofNat 64 s.cls.twin)] →
      ∃ t, exec (.srd rd ix) s = .next t ∧ WritesScalar s t s.next rd x 0) ∧
    (∀ (rd : Reg) (f : Form), s.formOf s.cls = some f →
      (∃ t, exec (.srd rd 0x011) s = .next t ∧ WritesScalar s t s.next rd (BitVec.ofNat 64 f.energy) 0) ∧
      (∃ t, exec (.srd rd 0x012) s = .next t ∧ WritesScalar s t s.next rd (BitVec.ofNat 64 f.timeLeft) 0)) ∧
    (∀ ra, s.legal (.swr ra 0x00A) = true → ∃ t, exec (.swr ra 0x00A) s = .next t ∧ GoesOn s t s.next ∧
      t.cls.cstat = s.cls.cstat &&& ~~~ (s.getS ra).setWidth 32 ∧
      { t.cls with splits := s.cls.splits, cstat := s.cls.cstat } = s.cls ∧ OutsideKept s t) ∧
    (s.cls.kind ≠ .handler →
      (∀ (rd : Reg) (ix : BitVec 11), ix.toNat = 0 ∨ ix.toNat = 0x00F ∨ 0x012 < ix.toNat →
        ∃ t, exec (.srd rd ix) s = .next t ∧ Raises s t { cause := .illop }) ∧
      (∀ (ra : Reg) (ix : BitVec 11), ix ≠ 0x00A →
        ∃ t, exec (.swr ra ix) s = .next t ∧ Raises s t { cause := .illop }))

/-- KEND raises KENDX and BRK raises BREAK with its code, both with EPC the instruction itself; TRAP raises TRAPI with its code
and EPC the next group, where its split goes on (R204, R217, R218, R337). Under single-stepping a group that completes raises
BREAK with AUX 0x800 and EPC the next group; resumed, its split goes on where it stands, shown for NOP and a branch (R454). END of
a class's only split ends the class: its registers, splits and locks go, no byte of memory changes, and its end is a release of
its race tag; inside a bracket END raises ILLSTATE (R33, R203, R18, R135). -/
def Obligations.TrapsAndEnds : Prop :=
  (∀ s : State, s.issuing = true → s.cls.kind ≠ .handler →
     (∃ t, exec .kend s = .next t ∧ Raises s t { cause := .kendx }) ∧
     (∀ code : BitVec 11, ∃ t, exec (.brk code) s = .next t ∧ Raises s t { cause := .breakp, aux := code.toNat }) ∧
     (∀ code : BitVec 11, ∃ t, exec (.trap code) s = .next t ∧
       RaisesAfter s t s.next s.next { cause := .trapi, aux := code.toNat }) ∧
     (s.eventOf { cause := .breakp }).epc = BitVec.ofInt 64 s.iss.pc) ∧
  (∀ s : State, s.stepping = true → s.iss.split < s.cls.splits.length → s.cur.state = .ready → s.cls.kind ≠ .handler →
     (∃ t, exec .nop s = .next t ∧
       RaisesAfter s t s.next (s.next + 4 * (s.iss.words.length : Int)) { cause := .breakp, aux := 0x800 }) ∧
     (∀ off, ∃ t, exec (.bra off) s = .next t ∧ RaisesAfter s t (branchTarget s off)
       (branchTarget s off + 4 * (s.iss.words.length : Int)) { cause := .breakp, aux := 0x800 })) ∧
  (∀ s : State, s.issuing = true →
     (s.cls.kind = .launch → s.cls.status = .live → s.cls.bracket = none → s.iss.split = 0 → s.cur.levels = [] →
       s.hslots = [] → s.cls.mem = [] → s.creqs = [] → s.pins = [] → s.others = [] →
       ∃ t, exec .endClass s = .next t ∧ t.cls.status = .ended ∧ (∀ sp ∈ t.cls.splits, sp = {}) ∧
         t.cls.v = [] ∧ t.cls.locks = [] ∧ t.cls.s = s.cls.s ∧ t.cls.id = s.cls.id ∧
         (assoc t.tagCount s.cls.tag).getD 0 = (assoc s.tagCount s.cls.tag).getD 0 + 1 ∧
         t.words = s.words ∧ t.forms = s.forms ∧ ∀ x, t.mem.get x = s.mem.get x) ∧
     (s.cls.bracket ≠ none → s.cls.kind ≠ .handler → ∃ t, exec .endClass s = .next t ∧ Raises s t { cause := .illstate }))

/-! ### Memory instructions (12_isa_memory.md) -/

/-- Every load, store, atomic, reduction and replicated load on virtual addresses whose lanes pass phase 1 and translate enters
its class's outstanding list, with the addresses, data and destinations of Table 12-3, and its split goes on (R61, R97,
R251–R264). With an empty effective mask a lane access makes no request, raises nothing and goes on (R28). The instructions
are LDL, STL, LDI, STI, SLD, SST, LDAQ, STRL, AADD, AMIN, AMAX, AAND, AOR, AXOR, AXCH, ACAS, AFADD, MRED.W, MRED.D, MRED.F and
RLDS. The outstanding list as the place where an access stands until it is performed is the model's form (log entry 10). -/
def Obligations.MemoryIssues : Prop :=
  (∀ (s : State) (i : Instr) (f : MemForm), memForm s i = some f → s.issuing = true → s.legal i = true →
     s.cls.mem = [] → s.creqs = [] → s.pins = [] → f.reqs ≠ [] → (∀ l ∈ f.reqs, phase1 s.cls.level f.op.size l = true) →
     (∀ l ∈ f.reqs, ∃ l', s.checkLane s.cls f.op l (Pfxp.polOf (instrPfx i)) = .ok l') →
     ∃ t a, exec i s = .next t ∧ EntersMemory s t f a ∧ a.stage = .fabric) ∧
  (∀ (s : State) (i : Instr) (f : MemForm), memForm s i = some f → s.issuing = true → s.legal i = true → s.cls.mem = [] →
     f.reqs = [] → ∃ t, exec i s = .next t ∧ WritesNothing s t s.next)

/-- A lane that fails phase 1: the lowest-numbered one raises ADDR when a byte lies outside the address space, else ALIGN; no lane
accesses memory (R95–R97, R251). A lane that misses the TLB leaves the whole instruction in the operand log and takes a miss
slot of the core for its page; the split goes on (R363, R377, R378). -/
def Obligations.MemoryFaultsAndMisses : Prop :=
  (∀ (s : State) (i : Instr) (f : MemForm) (pre post : List LaneReq) (l : LaneReq), memForm s i = some f → s.issuing = true →
     s.legal i = true → s.cls.mem = [] → s.cls.kind ≠ .handler → f.reqs = pre ++ l :: post →
     (∀ m ∈ pre, phase1 s.cls.level f.op.size m = true) → phase1 s.cls.level f.op.size l = false →
     ∃ t, exec i s = .next t ∧
       Raises s t
         { cause := if l.ea < 0 ∨ topOf s.cls.level l.ea < l.ea + f.op.size then .addr else .align,
           addr := (l.ea % 2 ^ 64).toNat, lane := l.lane, aux := f.op.size, write := f.op.need.writes, mask := some f.mask }) ∧
  (∀ (s : State) (i : Instr) (f : MemForm) (l : LaneReq) (dmiss : Bool), memForm s i = some f → s.issuing = true →
     s.legal i = true → s.cls.mem = [] → s.pins = [] → s.others = [] → s.misses = [] → f.reqs = [l] →
     phase1 s.cls.level f.op.size l = true → s.checkLane s.cls f.op l (Pfxp.polOf (instrPfx i)) = .miss dmiss →
     ∃ t a m, exec i s = .next t ∧ EntersMemory s t f a ∧ a.stage = .walking ∧ t.misses = [m] ∧
       m.core = s.cls.core ∧ m.vmid = s.cls.vmid ∧ m.asid = s.cls.asid ∧ m.page = l.ea.toNat / 4096 * 4096 ∧
       m.write = f.op.need.writes ∧ m.dmiss = dmiss ∧ m.waiters = [(s.cls.id, a.id, l.lane)])

/-- LDS and STS: when every lane passes its checks the instruction enters the outstanding list; with no active lane it does
nothing; else the first event that the checks find is raised, and no lane accesses storage (R21, R97–R99, R127, R257). The
order of a scratchpad access's checks. First, of all lanes: SCRATCH for an address that no member's allocation holds, then
ALIGN, the lowest lane's if several fail. Only then SCRATCH for a store to a barrier object, ECC for a load of marked bytes,
and RACE for bytes that an engine is writing, or a store to bytes that one is reading (R97, R98, R127, R257, R453). -/
def Obligations.ScratchpadAccesses : Prop :=
  (∀ (s : State) (x : Imx) (p : Pfx) (dbl : Bool) (r ra : Reg) (off : BitVec 7) (la : La) (store : Bool),
     let n := if dbl then 8 else 4
     let i : Instr := if store then .sts x p dbl r ra off la else .lds x p dbl r ra off la
     let f : MemForm :=
       { op := if store then .storeScratch n else .loadScratch n, mask := s.eff p, dest := if store then [] else destOf s (s.eff p) r n,
         reqs := lanesAt s (s.eff p) (fun j => (s.getV ra j).toNat + (match x with
             | none => off.toNat
             | some h => (h ++ off : BitVec 32).toNat) * (n : Int)) (if store then laneBytes s r n else fun _ => 0) }
     s.issuing = true → s.legal i = true → s.cls.mem = [] →
     (f.reqs ≠ [] → s.scratchFirst n store f.reqs = none →
       ∃ t a, exec i s = .next t ∧ EntersMemory s t f a ∧ a.stage = .fabric) ∧
     (f.reqs = [] → ∃ t, exec i s = .next t ∧ WritesNothing s t s.next) ∧
     (s.cls.kind ≠ .handler → ∀ l c, s.scratchFirst n store f.reqs = some (l, c) →
       ∃ t, exec i s = .next t ∧
         Raises s t { cause := c, addr := (l.ea % 2 ^ 64).toNat, lane := l.lane, aux := scratchAux c n store, write := store,
                      mask := some (s.eff p) })) ∧
  (∀ (s : State) (n : Nat) (store : Bool),
     (∀ ea : Int,
       (ea < 0 ∨ s.scratchPlace s.cls.form ea.toNat n = none → s.scratchAddr s.cls.form ea n = some .scratch) ∧
       (∀ f off, 0 ≤ ea → s.scratchPlace s.cls.form ea.toNat n = some (f, off) →
         (off % n ≠ 0 → s.scratchAddr s.cls.form ea n = some .align) ∧
         (off % n = 0 → s.scratchAddr s.cls.form ea n = none) ∧
         (store = true → off < 16 * f.bars → s.scratchLate s.cls.form ea n store = some .scratch) ∧
         (store = false → s.scratchPoisoned f.id off n = true → s.scratchLate s.cls.form ea n store = some .ecc) ∧
         ((store = true → 16 * f.bars ≤ off) → (store = false → s.scratchPoisoned f.id off n = false) →
           s.scratchLate s.cls.form ea n store = if s.engineRace f.id off n store = true then some .race else none))) ∧
     (∀ (pre post : List LaneReq) (l : LaneReq) (c : Cause), (∀ m ∈ pre, s.scratchAddr s.cls.form m.ea n = none) →
       s.scratchAddr s.cls.form l.ea n = some c → s.scratchFirst n store (pre ++ l :: post) = some (l, c)) ∧
     (∀ (pre post : List LaneReq) (l : LaneReq) (c : Cause), (∀ m ∈ pre ++ l :: post, s.scratchAddr s.cls.form m.ea n = none) →
       (∀ m ∈ pre, s.scratchLate s.cls.form m.ea n store = none) → s.scratchLate s.cls.form l.ea n store = some c →
       s.scratchFirst n store (pre ++ l :: post) = some (l, c)) ∧
     (∀ lanes : List LaneReq, (∀ m ∈ lanes, s.scratchAddr s.cls.form m.ea n = none ∧ s.scratchLate s.cls.form m.ea n store = none) →
       s.scratchFirst n store lanes = none))

/-- PLDD and PSTD at level 0: each active lane's address is v[ra+1] ‖ v[ra] plus 8·off exactly; beyond the memory that exists it
raises ADDR, misaligned ALIGN; else the access enters the outstanding list (R352). -/
def Obligations.PhysicalAccesses : Prop :=
  ∀ (s : State) (r ra : Reg) (off : BitVec 7) (la : La) (store : Bool),
    let i : Instr := if store then .pstd r ra off la else .pldd r ra off la
    let f : MemForm :=
      { op := if store then .physStore else .physLoad, mask := s.act, dest := if store then [] else destOf s s.act r 8,
        reqs := lanesAt s s.act (fun j => (s.getV ra j).toNat + (s.getV (ra + 1) j).toNat * 2 ^ 32 + 8 * off.toInt)
          (if store then laneBytes s r 8 else fun _ => 0) }
    s.issuing = true → s.legal i = true → s.cls.level = 0 → s.cls.mem = [] →
    (f.reqs ≠ [] → (∀ l ∈ f.reqs, 0 ≤ l.ea ∧ l.ea < 2 ^ 48 ∧ l.ea < Config.memLimit ∧ l.ea % 8 = 0 ∧
        (store = false → s.markAt .unit l.ea.toNat = false) ∧ (store = true → s.sealed l.ea.toNat = false) ∧
        s.inRecords l.ea.toNat 8 = false) →
      ∃ t a, exec i s = .next t ∧ EntersMemory s t f a ∧ a.stage = .fabric) ∧
    (s.cls.kind ≠ .handler → ∀ l rest, f.reqs = l :: rest →
      let ev (c : Cause) : Raise :=
        { cause := c, addr := (l.ea % 2 ^ 64).toNat, lane := l.lane, aux := 8, write := store, mask := some s.act }
      (l.ea < 0 ∨ 2 ^ 48 ≤ l.ea ∨ (Config.memLimit : Int) ≤ l.ea → ∃ t, exec i s = .next t ∧ Raises s t (ev .addr)) ∧
      (0 ≤ l.ea → l.ea < 2 ^ 48 → l.ea < Config.memLimit → l.ea % 8 ≠ 0 →
        ∃ t, exec i s = .next t ∧ Raises s t (ev .align)))

/-- FENCE: at CLASS scope nothing but the next group; a release kind waits for every earlier access of the class and raises its
tag's release count, an acquire kind waits for the class's loads and drops its core's L1 lines of shared pages; no register
changes (R119, R135, R265). WAIT on a scratchpad word: when the condition holds the split goes on, else it is blocked at the
next group until a write to the word makes it hold; no register changes. An address that LDS could not read raises its event
(R266). -/
def Obligations.FencesAndWaits : Prop :=
  (∀ (s : State) (scope : BitVec 3) (kind : FenceKind), s.issuing = true →
     (scope = 0 → ∃ t, exec (.fence scope kind) s = .next t ∧ WritesNothing s t s.next) ∧
     (scope ≠ 0 → s.cls.mem = [] → s.creqs = [] → s.pins = [] → ∃ t, exec (.fence scope kind) s = .next t ∧ GoesOn s t s.next ∧
       { t.cls with splits := s.cls.splits } = s.cls ∧
       (assoc t.tagCount s.cls.tag).getD 0 = (assoc s.tagCount s.cls.tag).getD 0 + (if kind = .acq then 0 else 1) ∧
       t.l1 = (if kind = .rel then s.l1 else s.l1.filter (fun x => x.core != s.cls.core || x.priv)) ∧
       t.words = s.words ∧ t.pending = s.pending ∧ t.forms = s.forms ∧ ∀ a, t.mem.get a = s.mem.get a) ∧
     (scope ≠ 0 → kind ≠ .acq ∧ s.quiet s.cls = false ∨ kind ≠ .rel ∧ s.cls.loadsOut = true → ∃ t, exec (.fence scope kind) s = .next t ∧ t.cur.pc = s.cur.pc ∧
       t.cur.held = true ∧ OutsideKept s t)) ∧
  (∀ (s : State) (p : Pfx) (c : WaitCond) (ra rb : Reg) (f : Form) (off : Nat), s.issuing = true →
     s.legal (.wait p c ra rb) = true → s.cls.mem = [] →
     let l : LaneReq := { lane := 0x7FFF, ea := (s.getS ra).toNat }
     (s.cls.kind ≠ .handler → ∀ m cause, s.scratchFirst 4 false [l] = some (m, cause) →
       ∃ t, exec (.wait p c ra rb) s = .next t ∧
         Raises s t { cause := cause, addr := (s.getS ra).toNat, aux := scratchAux cause 4 false }) ∧
     (s.scratchFirst 4 false [l] = none → s.scratchPlace s.cls.form (s.getS ra).toNat 4 = some (f, off) →
     let w : Word := BitVec.ofNat 32 (f.scratch.num off 4)
     let x : Word := (s.getS rb).setWidth 32
     let holds : Prop := match c with
       | .eq => w = x
       | .ne => w ≠ x
       | .gep => (w - x).toNat < 2 ^ 31
       | .gen => x.toNat ≤ w.toNat
       | .masknz => w &&& x ≠ 0
     (holds → ∃ t, exec (.wait p c ra rb) s = .next t ∧ GoesOn s t s.next ∧ { t.cls with splits := s.cls.splits } = s.cls ∧
       t.forms = s.forms ∧ ∀ a, t.mem.get a = s.mem.get a) ∧
     (¬holds → ∃ t, exec (.wait p c ra rb) s = .next t ∧
       t.cur.state = .blocked (.wait f.id off c x (Pfxp.scopeOf p 2)) ∧ t.cur.pc = s.next ∧ t.cur.mask = s.cur.mask ∧
       { t.cls with splits := s.cls.splits } = s.cls ∧ OutsideKept s t)))

/-- BARI, BARV, BARX, BARZ and BARP on a barrier object of a form of the house: the object they leave, and the phase BARP reads
(R268, R269). Where barrier instructions stop: an address that names no object raises SCRATCH, ALIGN or SCRATCH, in that
order; an arrival on an object not in use, with another expected count, or with more lanes than are left raises BARCOUNT
(R269). -/
def Obligations.BarrierOperations : Prop :=
  (∀ (s : State) (p : Pfx) (ra rb rd : Reg) (f : Form) (off : Nat), s.issuing = true → s.cls.mem = [] → s.creqs = [] → s.pins = [] →
     s.scratchPlace s.cls.form (s.getS ra).toNat 16 = some (f, off) → off % 16 = 0 → off < 16 * f.bars →
     s.scratchPoisoned f.id off 16 = false →
     let b := s.barrier f.id off
     let m := ((List.range s.cls.lanes).filter (fun i => (s.eff p).getLsbD i)).length
     (s.legal (.bari p ra rb) = true → (b.v = false ∨ (b.parr = b.xcount ∧ b.pbytes = 0)) →
       1 ≤ (s.getS rb).toNat → (s.getS rb).toNat ≤ 131072 →
       ∃ t, exec (.bari p ra rb) s = .next t ∧ BarrierDone s t (scratchWritten s f.id off
         (Barrier.bytes { phase := b.phase, v := true, parr := (s.getS rb).toNat, xcount := (s.getS rb).toNat, pbytes := 0 }))) ∧
     (s.legal (.barv p ra rb) = true → m ≠ 0 → b.v = true → (s.getS rb).toNat = b.xcount → m ≤ b.parr →
       ∃ t, exec (.barv p ra rb) s = .next t ∧
         BarrierDone s t (scratchWritten s f.id off (barAfter { b with parr := b.parr - m }).bytes)) ∧
     (s.legal (.barx p ra rb) = true → b.v = true → (s.getS rb).toNat < 2 ^ 31 → b.pbytes + (s.getS rb).toNat < 2 ^ 31 →
       ∃ t, exec (.barx p ra rb) s = .next t ∧
         BarrierDone s t (scratchWritten s f.id off (barAfter { b with pbytes := b.pbytes + (s.getS rb).toNat }).bytes)) ∧
     (s.legal (.barz p ra) = true → (b.v = false ∨ (b.parr = b.xcount ∧ b.pbytes = 0)) →
       ∃ t, exec (.barz p ra) s = .next t ∧ BarrierDone s t (scratchWritten s f.id off (List.replicate 16 0))) ∧
     (s.legal (.barp p rd ra) = true → ∃ t, exec (.barp p rd ra) s = .next t ∧
       WritesScalar s t s.next rd (BitVec.ofNat 64 b.phase) 0) ∧
     (s.legal (.barw p ra rb) = true → m ≠ 0 → b.v = true → (s.getS rb).toNat = b.xcount → m < b.parr →
       ∃ t, exec (.barw p ra rb) s = .next t ∧
         BarrierDone s t (scratchWritten s f.id off (Barrier.bytes { b with parr := b.parr - m })) ∧
         t.cur.state = .blocked (.barw f.id off b.phase (Pfxp.scopeOf p 2)))) ∧
  (∀ (s : State) (p : Pfx) (ra rb : Reg), s.issuing = true → s.cls.kind ≠ .handler → s.cls.mem = [] →
     s.legal (.barx p ra rb) = true →
     let a := (s.getS ra).toNat
     (s.scratchPlace s.cls.form a 16 = none →
       ∃ t, exec (.barx p ra rb) s = .next t ∧ Raises s t { cause := .scratch, addr := a, aux := 16 }) ∧
     (∀ f off, s.scratchPlace s.cls.form a 16 = some (f, off) →
       (off % 16 ≠ 0 → ∃ t, exec (.barx p ra rb) s = .next t ∧ Raises s t { cause := .align, addr := a, aux := 16 }) ∧
       (off % 16 = 0 → 16 * f.bars ≤ off →
         ∃ t, exec (.barx p ra rb) s = .next t ∧ Raises s t { cause := .scratch, addr := a, aux := 16 }) ∧
       (off % 16 = 0 → off < 16 * f.bars → s.scratchPoisoned f.id off 16 = false →
         let b := s.barrier f.id off
         let m := ((List.range s.cls.lanes).filter (fun i => (s.eff p).getLsbD i)).length
         (b.v = false ∨ 2 ^ 31 ≤ (s.getS rb).toNat ∨ 2 ^ 31 ≤ b.pbytes + (s.getS rb).toNat →
           ∃ t, exec (.barx p ra rb) s = .next t ∧ Raises s t { cause := .barcount, addr := a }) ∧
         (s.legal (.barv p ra rb) = true → m ≠ 0 → b.v = false ∨ (s.getS rb).toNat ≠ b.xcount ∨ b.parr < m →
           ∃ t, exec (.barv p ra rb) s = .next t ∧ Raises s t { cause := .barcount, addr := a }) ∧
         (s.legal (.bari p ra rb) = true →
           (b.v = true ∧ (b.parr ≠ b.xcount ∨ b.pbytes ≠ 0)) ∨ (s.getS rb).toNat = 0 ∨ 131072 < (s.getS rb).toNat →
           ∃ t, exec (.bari p ra rb) s = .next t ∧ Raises s t { cause := .barcount, addr := a }))))

/-- PREF goes on at the next group whatever its address: it raises nothing and writes nothing of its class. While the core's L1
and the home slices have room for its lines it changes caches alone, and no byte of memory (R272). TLK.LOCK of n translated
pages takes n list entries and lockable TLB entries and writes their handle; with too few free, XLOCK; of no page or more than
16, ILLOP. TLK.UNLK of a current handle frees them and raises the index's generation; any other handle raises ILLSTATE (R308). -/
def Obligations.PrefetchAndLocks : Prop :=
  (∀ (s : State) (p : Pfx) (count ra : Reg) (off : BitVec 7), s.issuing = true → s.legal (.pref p count ra off) = true →
     s.cls.pipeHeld = false → s.cls.level = 0 ∨ (s.bwRate s.cls.vmid s.cls.asid = 0 ∧ s.bwRate s.cls.vmid partBucket = 0) →
     ∃ t, exec (.pref p count ra off) s = .next t ∧ GoesOn s t s.next ∧ { t.cls with splits := s.cls.splits } = s.cls ∧
       (s.l1.length ≤ 384 → s.l2.length ≤ 6144 →
         { t with cls := s.cls, l1 := s.l1, l2 := s.l2, rdc := s.rdc, tlb := s.tlb, meter := s.meter, free := s.free } = s ∧ ∀ x, t.mem.get x = s.mem.get x)) ∧
  (∀ (s : State) (rd ra rb : Reg), s.issuing = true →
     (∀ l, s.legal (.tlkLock rd ra rb) = true → 1 ≤ (s.getS rb).toNat → (s.getS rb).toNat ≤ 16 → s.cls.mem = [] →
       (s.getS rb).toNat ≤ s.cls.freeLocks.length → s.lockUse s.cls.core + (s.getS rb).toNat ≤ 16 →
       (s.getS ra).toNat < 2 ^ (if s.cls.level = 0 then 48 else 57) →
       s.lockPages s.cls (s.getS rb).toNat (s.getS ra).toNat = .ok l →
       ∃ t, exec (.tlkLock rd ra rb) s = .next t ∧ t.cur.pc = s.next ∧
         (rd ≠ 0 → t.getS rd = BitVec.ofNat 64 (s.cls.freeLocks.headD 0 + ((s.getS rb).toNat - 1) * 16
           + s.cls.lockGen.getD (s.cls.freeLocks.headD 0) 0 % 256 * 256)) ∧
         (∀ r, r ≠ rd → t.getS r = s.getS r) ∧
         t.tlb = l.map (fun e => { e with home := .lockable s.cls.core s.cls.id })
           ++ (l.foldl (fun u e => u.touchTlb s.cls.core s.cls.vmid s.cls.asid e.va) s).tlb ∧
         t.words = s.words ∧ t.pending = s.pending ∧ ∀ x, t.mem.get x = s.mem.get x) ∧
     (s.cls.kind ≠ .handler → s.legal (.tlkLock rd ra rb) = true →
       ((s.getS rb).toNat < 1 ∨ 16 < (s.getS rb).toNat →
         ∃ t, exec (.tlkLock rd ra rb) s = .next t ∧ Raises s t { cause := .illop }) ∧
       (1 ≤ (s.getS rb).toNat → (s.getS rb).toNat ≤ 16 →
         s.cls.freeLocks.length < (s.getS rb).toNat ∨ 16 < s.lockUse s.cls.core + (s.getS rb).toNat →
         ∃ t, exec (.tlkLock rd ra rb) s = .next t ∧ Raises s t { cause := .xlock, addr := (s.getS ra).toNat })) ∧
     (s.legal (.tlkUnlk ra) = true →
       let h := (s.getS ra).toNat
       let mine := s.cls.locks.filter (fun l => match l with
         | none => false
         | some k => k.first == h % 16)
       let current : Prop := h < 2 ^ 16 ∧ mine ≠ [] ∧ mine.length = h / 16 % 16 + 1 ∧
         h / 256 = s.cls.lockGen.getD (h % 16) 0 % 256
       (current → ∃ t, exec (.tlkUnlk ra) s = .next t ∧ GoesOn s t s.next ∧
         t.cls.locks = s.cls.locks.map (fun l => match l with
           | none => none
           | some k => if k.first = h % 16 then none else some k) ∧
         t.cls.lockGen.getD (h % 16) 0 = (s.cls.lockGen.getD (h % 16) 0 + 1) % 256 ∧ t.cls.s = s.cls.s ∧
         t.words = s.words ∧ t.pending = s.pending ∧ ∀ x, t.mem.get x = s.mem.get x) ∧
       (¬current → s.cls.kind ≠ .handler → ∃ t, exec (.tlkUnlk ra) s = .next t ∧ Raises s t { cause := .illstate })))

/-- LAUNCH without the LAUNCH right raises RIGHT with AUX 2; a record address with a bit of 63:57 set raises ADDR, one not a
multiple of 128 ALIGN; else, with no store outstanding, it is a release and its record's read enters the outstanding list
(R219–R221, R331). The record of a LAUNCH returns: with a child left and a place free in the child queue, the packet of 64
bytes and the record's copy after it are written at that place and nowhere else, the count of children left falls and the
destination reads 0; with none left nothing is queued and it reads 2 (R219, R220, R398). That the lowest free place is taken,
and that the packet's other fields read zero, are the model's choices (log entry 84). -/
def Obligations.LaunchInstruction : Prop :=
  (∀ (s : State) (rd ra : Reg), s.issuing = true → s.legal (.launch rd ra) = true → s.cls.mem = [] → s.creqs = [] →
     let a := (s.getS ra).toNat
     let held := (s.rights s.cls.level s.cls.vmid s.cls.asid).getLsbD 2
     (s.cls.kind ≠ .handler →
       (held = false → ∃ t, exec (.launch rd ra) s = .next t ∧ Raises s t { cause := .right, aux := 2 }) ∧
       (held = true → 2 ^ 57 ≤ a → ∃ t, exec (.launch rd ra) s = .next t ∧ Raises s t { cause := .addr, addr := a, aux := 128 }) ∧
       (held = true → a < 2 ^ 57 → a % 128 ≠ 0 →
         ∃ t, exec (.launch rd ra) s = .next t ∧ Raises s t { cause := .align, addr := a, aux := 128 })) ∧
     (held = true → a < 2 ^ 57 → a % 128 = 0 → s.pins = [] →
       (∃ l', s.checkLane s.cls .launch { lane := 0x7FFF, ea := a } = .ok l') →
       ∃ t x, exec (.launch rd ra) s = .next t ∧
         EntersMemory s t { op := .launch, mask := s.act, reqs := [{ lane := 0x7FFF, ea := a }], sdest := some rd } x ∧
         x.stage = .fabric ∧
         (assoc t.tagCount s.cls.tag).getD 0 = (assoc s.tagCount s.cls.tag).getD 0 + 1)) ∧
  (∀ (s : State) (a : Access) (l : LaneReq) (rd : Reg) (la : Launch), s.cls.mem = [a] → a.op = .launch → a.lanes = [l] → l.done = false →
     s.cls.level = 2 → s.hslots = [] → s.ghosts = [] → s.pins = [] → s.others = [] → l.win = true → l.peer = false →
     a.stage = .fabric → a.sdest = some rd → rd ≠ 0 →
     a.gen = (assoc s.ctxGen (s.cls.vmid, s.cls.core)).getD 0 → s.launches = [la] → la.no = s.cls.launch →
     (∀ k, 0 < la.childLeft → s.childSlot = some k →
       ∃ t q, exec (.loadValueReturn s.cls.id a.id (BitVec.allOnes 1024)) s = .next t ∧ t.getS rd = 0 ∧
       t.childq = s.childq ++ [q] ∧ q.slot = k ∧ q.vmid = s.cls.vmid ∧ q.asid = s.cls.asid ∧ q.parent = s.cls.launch ∧ q.band = s.cls.band ∧
       t.launches.map (fun x => x.childLeft) = [la.childLeft - 1] ∧ t.cls.mem = [] ∧
       (s.l2 = [] → Memory.wf s.mem = true → t.hwRead 0 (s.childPlace k) 64 = toBytes 64 (2 ^ 32 + s.cls.launch % 2 ^ 64 * 2 ^ 192)) ∧
       ∀ x, x < s.childPlace k ∨ s.childPlace k + 192 ≤ x → t.mem.get x = s.mem.get x) ∧
     (la.childLeft = 0 → ∃ t, exec (.loadValueReturn s.cls.id a.id (BitVec.allOnes 1024)) s = .next t ∧ t.getS rd = 2 ∧
       t.childq = s.childq ∧ t.launches = s.launches ∧ t.cls.mem = [] ∧ ∀ x, t.mem.get x = s.mem.get x))

/-- LOAD_VALUE_RETURN of one lane of a level-0 load: the lane of the register bound at issue takes the bytes at the physical
address, and no byte of memory changes (R39, R116, R254, R352). STORE_PERFORMED of one lane of a level-0 store: exactly the
bytes at the lane's physical address change, to the lane's data, and no register changes (R61, R115, R255, R352). LDS and STS
performed: the value of a lane of LDS is what its bytes of the house's scratchpads hold, and a lane of STS writes exactly its
bytes there (R21, R98, R257). An access that has passed translation and reaches no memory stops the machine: the manual gives
no value for it; a model's choice (log entry 3). The last clause is the model's choice (log entry 3), and rests on no rule. -/
def Obligations.LoadsAndStoresPerform : Prop :=
  (∀ (s : State) (a : Access) (l : LaneReq) (p : Nat) (n : Nat), s.cls.level = 0 → s.cls.kind ≠ .handler → s.hslots = [] →
     s.ghosts = [] → s.pins = [] → s.cls.mem = [a] → a.op = .load n → 0 < n → n ≤ 4 → a.lanes = [l] → l.done = false → l.win = false → l.peer = false →
     a.dest = [p] → a.sdest = none → a.stage = .fabric →
     a.gen = (assoc s.ctxGen (s.cls.vmid, s.cls.core)).getD 0 → l.lane < s.cls.lanes → l.lane < 1024 →
     l.pa % 32 + n ≤ 32 → l.pa + n ≤ Config.memLimit → s.poison = [] → s.others = [] →
     s.keyAt l.pa = s.keyId l.key →
     ∃ t, exec (.loadValueReturn s.cls.id a.id (BitVec.ofNat 1024 (2 ^ l.lane))) s = .next t ∧
       t.cls.getP p l.lane = BitVec.ofNat 32 (s.mem.num l.pa n) ∧
       (∀ i, i ≠ l.lane → i < s.cls.lanes → t.cls.getP p i = s.cls.getP p i) ∧
       (∀ q, q ≠ p → ∀ i, t.cls.getP q i = s.cls.getP q i) ∧
       t.cls.mem = [] ∧ t.cls.s = s.cls.s ∧ t.cls.k = s.cls.k ∧ t.cls.splits = s.cls.splits ∧ t.words = s.words ∧
       ∀ x, t.mem.get x = s.mem.get x) ∧
  (∀ (s : State) (a : Access) (l : LaneReq) (n : Nat), s.cls.level = 0 → s.cls.kind ≠ .handler → s.hslots = [] → s.pins = [] →
     s.cls.mem = [a] → a.op = .store n ∨ (a.op = .physStore ∧ n = 8) → n ≤ 8 → a.lanes = [l] → l.done = false → l.peer = false →
     a.stage = .fabric → a.gen = (assoc s.ctxGen (s.cls.vmid, s.cls.core)).getD 0 → l.pa % 32 + n ≤ 32 →
     l.pa + n ≤ Config.memLimit → s.others = [] → s.keyAt l.pa = s.keyId l.key → Memory.wf s.mem = true →
     (∀ y ∈ s.l1, y.core = s.cls.core → y.pa = sector l.pa → y.dirty = false) →
     (∀ y, s.l2find l.pa = some y → s.keyId y.tag = s.keyId l.key) →
     ∃ t, exec (.storePerformed s.cls.id a.id l.lane) s = .next t ∧
       (∀ x, l.pa ≤ x → x < l.pa + n → t.mem.get x = BitVec.ofNat 8 (l.data / 256 ^ (x - l.pa))) ∧
       (∀ x, x < l.pa ∨ l.pa + n ≤ x → t.mem.get x = s.mem.get x) ∧
       t.cls.mem = [] ∧ t.cls.s = s.cls.s ∧ t.cls.v = s.cls.v ∧ t.cls.k = s.cls.k ∧ t.cls.splits = s.cls.splits ∧
       t.words = s.words) ∧
  (∀ (s : State) (a : Access) (l : LaneReq) (n : Nat) (f : Form) (off : Nat), s.cls.kind ≠ .handler → s.hslots = [] →
     s.ghosts = [] → s.pins = [] → s.others = [] → s.cls.mem = [a] → a.lanes = [l] → l.done = false → l.peer = false → a.stage = .fabric →
     a.gen = (assoc s.ctxGen (s.cls.vmid, s.cls.core)).getD 0 → n = 4 ∨ n = 8 →
     s.scratchPlace s.cls.form l.ea.toNat n = some (f, off) → s.scratchPoisoned f.id off n = false →
     (∀ p ps, a.op = .loadScratch n → a.dest = p :: ps → (n = 4 → ps = []) → (n = 8 → ∃ q, q ≠ p ∧ ps = [q]) → a.sdest = none →
       l.lane < s.cls.lanes → l.lane < 1024 →
       ∃ t, exec (.loadValueReturn s.cls.id a.id (BitVec.ofNat 1024 (2 ^ l.lane))) s = .next t ∧
         t.cls.getP p l.lane = BitVec.ofNat 32 (ofBytes (s.readScratch f.id off 4)) ∧
         (∀ q, q ∈ ps → t.cls.getP q l.lane = BitVec.ofNat 32 (ofBytes (s.readScratch f.id (off + 4) 4))) ∧
         (∀ r i, r ∉ a.dest ∨ i ≠ l.lane → i < s.cls.lanes → t.cls.getP r i = s.cls.getP r i) ∧
         t.cls.mem = [] ∧ t.cls.s = s.cls.s ∧ t.forms = s.forms ∧ ∀ x, t.mem.get x = s.mem.get x) ∧
     (a.op = .storeScratch n →
       ∃ t, exec (.storePerformed s.cls.id a.id l.lane) s = .next t ∧
         t.forms = scratchWritten s f.id off (toBytes n l.data) ∧
         t.cls.mem = [] ∧ t.cls.s = s.cls.s ∧ t.cls.v = s.cls.v ∧ t.cls.k = s.cls.k ∧ ∀ x, t.mem.get x = s.mem.get x)) ∧
  (∀ (s : State) (a : Access) (l : LaneReq) (n : Nat), s.cls.level = 0 → s.cls.mem = [a] → a.lanes = [l] → l.done = false →
     l.win = false → l.peer = false → a.stage = .fabric → a.gen = (assoc s.ctxGen (s.cls.vmid, s.cls.core)).getD 0 →
     a.op = .store n → Config.memLimit < l.pa + n →
     exec (.storePerformed s.cls.id a.id l.lane) s = .fault (.noMemory l.pa))

/-- MONITOR_ATOMIC of one lane of a level-0 atomic: the old word returns to the lane's register and the new word of R260 replaces
it in memory; every other byte stays (R111, R260). -/
def Obligations.AtomicReturnsOldWord : Prop :=
  ∀ (s : State) (a : Access) (l : LaneReq) (f : AtomFn) (p : Nat), s.cls.level = 0 → s.cls.kind ≠ .handler → s.hslots = [] →
    s.cls.mem = [a] → a.op = .atomic f → a.lanes = [l] → l.done = false → l.win = false → l.peer = false → a.stage = .fabric →
    a.dest = [p] → a.sdest = none → a.gen = (assoc s.ctxGen (s.cls.vmid, s.cls.core)).getD 0 → l.lane < s.cls.lanes → l.lane < 1024 →
    (∀ y, s.l2find l.pa = some y → s.keyId y.tag = s.keyId l.key) → l.pa % 4 = 0 → l.pa + 4 ≤ Config.memLimit → s.poison = [] → s.pins = [] → s.others = [] → s.keyAt l.pa = s.keyId l.key →
    Memory.wf s.mem = true →
    let old := s.mem.num l.pa 4
    let new : Nat := match f with
      | .add => (old + l.data) % 2 ^ 32
      | .and => (old &&& l.data) % 2 ^ 32
      | .or => (old ||| l.data) % 2 ^ 32
      | .xor => (old ^^^ l.data) % 2 ^ 32
      | .xch => l.data % 2 ^ 32
      | .cas => if old = l.data % 2 ^ 32 then l.cmp % 2 ^ 32 else old
      | .min => if (BitVec.ofNat 32 old).toInt ≤ (BitVec.ofNat 32 l.data).toInt then old else l.data % 2 ^ 32
      | .max => if (BitVec.ofNat 32 l.data).toInt ≤ (BitVec.ofNat 32 old).toInt then old else l.data % 2 ^ 32
      | .fadd => (falu .add (BitVec.ofNat 32 old) (BitVec.ofNat 32 l.data)).val.toNat
    ∃ t, exec (.monitorAtomic s.cls.id a.id) s = .next t ∧ t.cls.getP p l.lane = BitVec.ofNat 32 old ∧
      t.mem.num l.pa 4 = new ∧ (∀ x, x < l.pa ∨ l.pa + 4 ≤ x → t.mem.get x = s.mem.get x) ∧
      t.cls.mem = [] ∧ t.cls.s = s.cls.s ∧ t.cls.splits = s.cls.splits ∧ t.words = s.words

/-- STRICT_RETRY: an access that no pin refuses any more is back in the fabric. STRICT_TIMEOUT: one refused for 65,536 cycles
raises STRICT as a precise event of its split, and stands stopped until that is disposed of (R131). PEER_TIMEOUT after 100 µs
and GATHER_TIMEOUT after 1 ms deliver a stage-1 XLATE for the request's lane, to a level-1 fault queue when the partition
routes it there; GATHER_RESPONSE from every replica binds the sums and ends the load (R264, R434, R435). -/
def Obligations.RetriesAndTimeouts : Prop :=
  (∀ (s : State) (a : Access) (since : Nat), s.cls.mem = [a] → a.stage = .retry since → s.others = [] →
     (s.stillRefused s.cls a = false → ∃ t, exec (.strictRetry s.cls.id a.id) s = .next t ∧
       t.cls.mem = [{ a with stage := .fabric }] ∧ { t.cls with mem := s.cls.mem } = s.cls ∧ OutsideKept s t) ∧
     (s.stillRefused s.cls a = true → since + 65536 ≤ s.time → s.cls.kind ≠ .handler →
       ∃ t ev, exec (.strictTimeout s.cls.id a.id) s = .next t ∧ t.pending = s.pending ++ [ev] ∧ ev.ev.cause = .strict ∧
         ev.ev.acc = some a.id ∧ ev.ev.epc = BitVec.ofInt 64 a.pc ∧ ev.core = s.cls.core ∧
         ev.level = s.route s.cls.level s.cls.vmid .strict false ∧
         t.cls.mem.map (fun x => x.stage) = [.stopped] ∧ t.cls.s = s.cls.s ∧ t.cls.v = s.cls.v ∧
         ∀ x, t.mem.get x = s.mem.get x)) ∧
  (∀ (s : State) (a : Access) (l : LaneReq), s.cls.mem = [a] → a.lanes = [l] → l.done = false → a.stage = .fabric →
     s.others = [] → s.cls.status = .live → s.hslots = [] → s.ghosts = [] → s.pins = [] → s.cls.kind ≠ .handler → s.cls.level = 2 →
     s.logRoom s.cls a = true →
     a.gen = (assoc s.ctxGen (s.cls.vmid, s.cls.core)).getD 0 →
     (l.peer = true → a.sent + 400000 ≤ s.time → s.route 2 s.cls.vmid .xlate false = 1 →
       ∃ t, exec (.peerTimeout s.cls.id a.id) s = .next t ∧
         t.queue = s.queue ++ [{ q := some s.cls.vmid, owner := .access s.cls.id a.id, entry := 0 }] ∧
         t.cls.mem.map (fun x => (x.stage, x.fault.map (fun g => (g.cause, g.stage2, g.lane)))) =
           [(.delivered 1 none, some (.xlate, false, l.lane))] ∧
         t.cls.splits = s.cls.splits ∧ t.cls.v = s.cls.v ∧ ∀ x, t.mem.get x = s.mem.get x) ∧
     (∀ bf isInt, a.op = .rlds bf isInt → a.sent + 4000000 ≤ s.time → s.route 2 s.cls.vmid .xlate false = 1 →
       ∃ t, exec (.gatherTimeout s.cls.id a.id) s = .next t ∧
         t.queue = s.queue ++ [{ q := some s.cls.vmid, owner := .access s.cls.id a.id, entry := 0 }] ∧
         t.cls.mem.map (fun x => (x.stage, x.fault.map (fun g => (g.cause, g.stage2, g.lane)))) =
           [(.delivered 1 none, some (.xlate, false, l.lane))] ∧
         t.cls.splits = s.cls.splits ∧ t.cls.v = s.cls.v ∧ ∀ x, t.mem.get x = s.mem.get x) ∧
     (∀ (p : Nat) (sum : Word) (ix set off n : Nat), a.op = .rlds false true → a.dest = [p] → a.sdest = none → l.lane < s.cls.lanes →
       l.lane < 1024 → s.replicaSet s.cls.vmid l.pa = some (ix, set, off, n) → s.time < a.sent + 4000000 →
       ∃ t, exec (.gatherResponse s.cls.id a.id n [sum]) s = .next t ∧ t.cls.getP p l.lane = sum ∧
         (∀ q, q ≠ p → ∀ i, t.cls.getP q i = s.cls.getP q i) ∧ t.cls.mem = [] ∧ t.cls.s = s.cls.s ∧
         ∀ x, t.mem.get x = s.mem.get x))

/-- CHKB.LANE, CHKB.SCALAR, LDS, STS and CLD complete. CHKB with every index below its bound copies it and goes on. With one active
lane, LDS and STS that name aligned, unmarked scratchpad bytes which no engine uses, and CLD that names an aligned offset of the
tree, go on with their access outstanding; when it returns, the lane of LDS and CLD holds the bytes, and that of STS has written
them (R98, R99, R257, R275, R307). With any lanes they go on by ScratchpadAccesses and ContentInstructions. -/
def Obligations.ChecksAndShortLoadsComplete : Prop :=
  ∀ (s : State) (rd ra rb : Reg) (x : Imx) (p : Pfx) (off : BitVec 7) (la : La), s.issuing = true → s.cls.mem = [] →
    (s.legal (.chkbLane rd ra rb) = true →
      (∀ i, i < s.cls.lanes → s.act.getLsbD i = true → (s.getV ra i).toNat < (s.getS rb).toNat) →
      ∃ t, exec (.chkbLane rd ra rb) s = .next t ∧ WritesLanes s t s.next rd s.act (fun i => s.getV ra i) 0) ∧
    (s.legal (.chkbScalar rd ra rb) = true → (s.getS ra).toNat < (s.getS rb).toNat →
      ∃ t, exec (.chkbScalar rd ra rb) s = .next t ∧ WritesScalar s t s.next rd (s.getS ra) 0) ∧
    (s.others = [] → s.hslots = [] → s.ghosts = [] → s.pins = [] → s.cls.lanes ≤ 1024 →
      (∀ (j n : Nat) (dbl : Bool) (f : Form) (o : Nat), lanesOf s.cls.lanes (s.eff p) = [j] → n = (if dbl then 8 else 4) →
        s.scratchPlace s.cls.form ((s.getV ra j).toNat + (match x with
          | none => off.toNat
          | some h => (h ++ off : BitVec 32).toNat) * n) n = some (f, o) → o % n = 0 →
        (s.legal (.lds x p dbl rd ra off la) = true → s.scratchPoisoned f.id o n = false → s.engineRace f.id o n false = false →
          ∃ t a u, exec (.lds x p dbl rd ra off la) s = .next t ∧ t.cur.pc = s.next ∧ t.cls.mem = [a] ∧
            exec (.loadValueReturn s.cls.id a.id (s.eff p)) t = .next u ∧ u.cls.mem = [] ∧
            u.getV rd j = BitVec.ofNat 32 (ofBytes (s.readScratch f.id o 4)) ∧
            (dbl = true → u.getV (rd + 1) j = BitVec.ofNat 32 (ofBytes (s.readScratch f.id (o + 4) 4))) ∧
            u.forms = s.forms ∧ u.cls.s = s.cls.s ∧ u.pending = s.pending ∧ ∀ y, u.mem.get y = s.mem.get y) ∧
        (s.legal (.sts x p dbl rd ra off la) = true → 16 * f.bars ≤ o → s.engineRace f.id o n true = false →
          ∃ t a u, exec (.sts x p dbl rd ra off la) s = .next t ∧ t.cur.pc = s.next ∧ t.cls.mem = [a] ∧
            exec (.storePerformed s.cls.id a.id j) t = .next u ∧ u.cls.mem = [] ∧
            u.forms = scratchWritten s f.id o (toBytes n (laneBytes s rd n j)) ∧
            u.cls.v = s.cls.v ∧ u.cls.s = s.cls.s ∧ u.pending = s.pending ∧ ∀ y, u.mem.get y = s.mem.get y)) ∧
      (∀ (j : Nat) (st : CStore) (bs : List Byte), s.legal (.cld p rd ra rb la) = true → lanesOf s.cls.lanes (s.eff p) = [j] →
        s.bwRate s.cls.vmid s.cls.asid = 0 → s.bwRate s.cls.vmid partBucket = 0 →
        s.myStore s.cls = some st → cldCheck s rd ra rb j = none →
        st.treeBytes (bits (s.getS (ra + 2)).toNat 3 0) (s.nameAt ra) (s.getV rb j).toNat
          (2 ^ bits (s.getS (ra + 2)).toNat 9 8) = some bs →
        ∃ t a u, exec (.cld p rd ra rb la) s = .next t ∧ t.cur.pc = s.next ∧ t.cls.mem = [a] ∧
          exec (.loadValueReturn s.cls.id a.id (s.eff p)) t = .next u ∧ u.cls.mem = [] ∧
          u.getV rd j = BitVec.ofNat 32 (ofBytes bs) ∧
          (bits (s.getS (ra + 2)).toNat 9 8 = 3 → u.getV (rd + 1) j = BitVec.ofNat 32 (ofBytes bs / 2 ^ 32)) ∧
          u.stores = s.stores ∧ u.cls.s = s.cls.s ∧ u.pending = s.pending ∧ ∀ y, u.mem.get y = s.mem.get y))

/-- CA.LOA, CA.NODE, CA.REF, CA.REL and CA.STAT on an enabled store complete: the group's request reaches its monitor, which
performs it, and the split goes on at the next group with the result in its registers: the name of the line looked up or
allocated, the reference added or taken, the line's state (R147, R150, R152–R154, R273, R274). CA.GET and CA.SWAP on a slot of
ordinary memory complete: at the slot's monitor CA.GET reads the slot, adds a reference to the name it holds and writes its 32
bytes to four registers. CA.SWAP of the expected name writes the new slot, adds a reference to its name and sends a release of
the old one; of another name it writes nothing; either way the old name returns (R149, R156, R157). -/
def Obligations.ContentOperationsComplete : Prop :=
  (∀ (s : State) (rd ra : Reg) (st : CStore) (ix : Nat), s.issuing = true → s.wholeClass = true → s.cls.mem = [] → s.creqs = [] →
     s.bwRate s.cls.vmid s.cls.asid = 0 → s.bwRate s.cls.vmid partBucket = 0 →
     s.pins = [] → s.cls.status = .live → s.cls.cstore = some ix → s.storeAt s.cls.vmid ix = some st → descEn st.desc = true →
     let n := s.nameAt ra
     let done (i : Instr) (post : State → Prop) : Prop :=
       ∃ t q u, exec i s = .next t ∧ t.creqs = [q] ∧ t.cur.state = .blocked (.content q.id) ∧
         exec (.monitorContentOperation q.id) t = .next u ∧ u.creqs = [] ∧ u.cur.state = .ready ∧ u.cur.pc = s.next ∧
         u.cls.v = s.cls.v ∧ u.pending = s.pending ∧ (∀ y, u.mem.get y = s.mem.get y) ∧ post u
     let store (u : State) : Option CStore := u.storeAt s.cls.vmid ix
     (s.legal (.caRef ra) = true → n = 0 ∨ (st.live n).isSome = true →
       done (.caRef ra) (fun u => store u = some (if n = 0 then st else st.incr n) ∧ u.cls.s = s.cls.s)) ∧
     (s.legal (.caRel ra) = true → n = 0 ∨ (st.live n).isSome = true →
       done (.caRel ra) (fun u => store u = some (if n = 0 then st else st.decr n) ∧ u.cls.s = s.cls.s)) ∧
     (s.legal (.caStat rd ra) = true → rd ≠ 0 →
       done (.caStat rd ra) (fun u => store u = some st ∧ u.getS rd = st.stat n ∧ ∀ r, r ≠ rd → u.getS r = s.getS r)) ∧
     (∀ (f : Form) (off : Nat), s.scratchPlace s.cls.form (s.getS ra).toNat 128 = some (f, off) → off % 128 = 0 →
       s.engineRace f.id off 128 false = false → s.scratchPoisoned f.id off 128 = false → rd ≠ 0 → rd.toNat ≤ 126 →
       let bs := s.readScratch f.id off 128
       (∀ st' m, s.legal (.caLoa rd ra) = true → st.intern false bs = .ok (st', m) →
         done (.caLoa rd ra) (fun u => store u = some st' ∧ u.getS rd = m.setWidth 64 ∧ u.getS (rd + 1) = (m >>> 64).setWidth 64 ∧
           ∀ r, r ≠ rd → r ≠ rd + 1 → u.getS r = s.getS r)) ∧
       (∀ st' m, s.legal (.caNode rd ra) = true → (∀ k ∈ childNames bs, k = 0 ∨ (st.live k).isSome = true) →
         st.intern true bs = .ok (st', m) →
         done (.caNode rd ra) (fun u => store u = some st' ∧ u.getS rd = m.setWidth 64 ∧ u.getS (rd + 1) = (m >>> 64).setWidth 64 ∧
           ∀ r, r ≠ rd → r ≠ rd + 1 → u.getS r = s.getS r)))) ∧
  (∀ (s : State) (rd ra rb : Reg) (st : CStore) (ix : Nat) (l : LaneReq), s.issuing = true → s.wholeClass = true →
     s.cls.mem = [] → s.creqs = [] → s.pins = [] → s.l1 = [] → s.l2 = [] → s.rdc = [] → s.cls.status = .live → s.cls.level = 2 →
     s.cls.cstore = some ix → s.storeAt s.cls.vmid ix = some st → descEn st.desc = true →
     s.bwRate s.cls.vmid s.cls.asid = 0 → s.bwRate s.cls.vmid partBucket = 0 → rd ≠ 0 → rd.toNat ≤ 124 →
     (s.getS ra).toNat % 32 = 0 → (s.getS ra).toNat + 32 ≤ 2 ^ 48 → l.peer = false → l.pa % 32 = 0 →
     l.pa + 32 ≤ Config.memLimit → attrChk l.attr = false → s.keyAt l.pa = s.keyId l.key → Memory.wf s.mem = true →
     let w := s.mem.num l.pa 32
     let old := slotName w
     slotOk w = true →
     let done (i : Instr) (post : State → Prop) : Prop :=
       ∃ t a u, exec i s = .next t ∧ t.cls.mem = [a] ∧ t.cur.state = .blocked (.content a.id) ∧
         exec (.monitorContentOperation a.id) t = .next u ∧ u.cls.mem = [] ∧ u.cur.state = .ready ∧ u.cur.pc = s.next ∧
         u.cls.v = s.cls.v ∧ u.pending = s.pending ∧ post u
     let store (u : State) : Option CStore := u.storeAt s.cls.vmid ix
     let other (u : State) (k : Nat) : Prop := ∀ r : Reg, r.toNat < rd.toNat ∨ rd.toNat + k ≤ r.toNat → u.getS r = s.getS r
     (s.legal (.caGet rd ra) = true → s.checkLane s.cls .slotGet { lane := 0x7FFF, ea := (s.getS ra).toNat } = .ok l →
       old = 0 ∨ (st.live old).isSome = true →
       done (.caGet rd ra) (fun u => store u = some (if old = 0 then st else st.incr old) ∧
         (∀ k : Nat, k < 4 → u.getS (rd + BitVec.ofNat 7 k) = BitVec.ofNat 64 (w / 2 ^ (64 * k))) ∧ other u 4 ∧
         u.creqs = [] ∧ ∀ y, u.mem.get y = s.mem.get y)) ∧
     (let new := (s.nameAt (rb + 2)).setWidth 256 <<< 128 ||| (s.nameAt rb).setWidth 256
      let name := slotName new.toNat
      s.legal (.caSwap rd ra rb) = true → slotOk new.toNat = true →
       s.checkLane s.cls (.slotSwap (s.nameAt rd) new) { lane := 0x7FFF, ea := (s.getS ra).toNat } = .ok l →
       (old = s.nameAt rd → name = 0 ∨ (st.live name).isSome = true →
         done (.caSwap rd ra rb) (fun u => store u = some (if name = 0 then st else st.incr name) ∧
           u.getS rd = old.setWidth 64 ∧ u.getS (rd + 1) = (old >>> 64).setWidth 64 ∧ other u 2 ∧
           u.creqs.map (fun q => q.req) = (if old = 0 then [] else [.rel old]) ∧
           u.mem.num l.pa 32 = new.toNat ∧ ∀ y, y < l.pa ∨ l.pa + 32 ≤ y → u.mem.get y = s.mem.get y)) ∧
       (old ≠ s.nameAt rd →
         done (.caSwap rd ra rb) (fun u => store u = some st ∧
           u.getS rd = old.setWidth 64 ∧ u.getS (rd + 1) = (old >>> 64).setWidth 64 ∧ other u 2 ∧ u.creqs = [] ∧
           ∀ y, u.mem.get y = s.mem.get y))))

/-! ### Privilege, events and handlers (16_privilege.md) -/

/-- At level 2 CRD, CWR and every RIGHTS operation raise PRIV and change nothing; at level 1 so do CRD and CWR of a word reserved
to level 0, shown for SELVMID, PKEY, S2ROOT and ROTPER (R331, R335). A level-1 write of BWRATE or BWDEPTH without the QOS
right, of PEERWIN, PEEREXP, RSETCTL or RSETBASE without PEER, of TIMER without TIME, or of DLCONS without DLOG raises RIGHT
with AUX the right's bit and changes nothing (R331, R335). -/
def Obligations.PrivilegeAndRights : Prop :=
  (∀ (s : State) (i : Instr), s.issuing = true → s.legal i = true → s.cls.kind ≠ .handler →
     (match i with
       | .crd _ _ _ | .cwr _ _ _ | .rightsGrant _ _ _ | .rightsRevoke _ _ _ | .rightsRoute _ _ _ => 2 ≤ s.cls.level
       | _ => False) ∨
     (s.cls.level = 1 ∧ match i with
       | .crd _ _ ix | .cwr _ _ ix => ix ∈ [(0x002 : BitVec 10), 0x030, 0x103, 0x201]
       | _ => False) →
     ∃ t, exec i s = .next t ∧ Raises s t { cause := .priv }) ∧
  (∀ (s : State) (r : Reg) (ix : BitVec 10) (bit : Nat), s.issuing = true → s.cls.level = 1 → s.cls.kind ≠ .handler →
     s.legal (.cwr r false ix) = true →
     (ix, bit) ∈ [((0x211 : BitVec 10), 3), (0x212, 3), (0x251, 6), (0x259, 6), (0x261, 6), (0x262, 6), (0x232, 8), (0x113, 7)] →
     (s.rights 1 s.cls.vmid 0).getLsbD bit = false →
     ∃ t, exec (.cwr r false ix) s = .next t ∧ Raises s t { cause := .right, aux := bit })

/-- RIGHTS.GRANT and REVOKE at level 0 for a partition: its rights word gains or loses the bits, REVOKE takes them from every
tenant of it too; no other word changes and the status is DONE. At level 1, a GRANT of a right the partition does not hold raises
RIGHT with AUX the lowest such bit (R332, R333, R349). RIGHTS.ROUTE at level 0 sets one cause's entry of a partition's routing
table and answers the old one; every other cause keeps its entry. ECC and DIRTYFULL cannot be routed: bit 63 with PINNED, status 2
(R338, R348, R349). Where an event goes: level 0 for a level-0 class, for ECC and DIRTYFULL and for stage-2 XLATE and PROT; else
the level of the partition's routing table, but never above the class's own level (R338). A level-1 class reads and writes its
partition's handler words HENTRY, HBUF, HRTAB and HLIMIT: CRD gives the stored value, CWR stores the defined bits and no other
word, register or byte changes (R335, R341). -/
def Obligations.RightsAndRoutes : Prop :=
  (∀ (s : State) (rd ra rb : Reg), s.issuing = true →
     (∀ v : Nat, s.cls.level = 0 → v < 64 → s.hasPartition v = true → s.getS ra = BitVec.ofNat 64 (v * 2 ^ 16) →
       (s.getS rb).toNat < 1024 →
       (s.legal (.rightsGrant rd ra rb) = true → ∃ t, exec (.rightsGrant rd ra rb) s = .next t ∧ t.cur.pc = s.next ∧
         t.getS rd = 0 ∧ (∀ r, r ≠ rd → t.getS r = s.getS r) ∧
         t.word (.part v) 0x001 = s.word (.part v) 0x001 ||| s.getS rb ∧
         (∀ k, k ≠ ⟨.part v, 0x001, 0⟩ → assoc t.words k = assoc s.words k) ∧ ∀ x, t.mem.get x = s.mem.get x) ∧
       (s.legal (.rightsRevoke rd ra rb) = true → ∃ t, exec (.rightsRevoke rd ra rb) s = .next t ∧ t.cur.pc = s.next ∧
         t.getS rd = 0 ∧ (∀ r, r ≠ rd → t.getS r = s.getS r) ∧
         t.word (.part v) 0x001 = s.word (.part v) 0x001 &&& ~~~ s.getS rb ∧
         (∀ a, t.word (.tenant v a) 0x001 = s.word (.tenant v a) 0x001 &&& ~~~ s.getS rb) ∧
         (∀ k, k ≠ ⟨.part v, 0x001, 0⟩ → (∀ a sub, k ≠ ⟨.tenant v a, 0x001, sub⟩) → assoc t.words k = assoc s.words k) ∧
         ∀ x, t.mem.get x = s.mem.get x)) ∧
     (∀ n : Nat, s.cls.level = 1 → s.cls.kind ≠ .handler → s.legal (.rightsGrant rd ra rb) = true →
       bits (s.getS ra).toNat 63 62 ≠ 0 → n < 64 → (s.getS rb).getLsbD n = true →
       (s.rights 1 s.cls.vmid s.cls.asid).getLsbD n = false →
       (∀ j, j < n → (s.getS rb).getLsbD j = true → (s.rights 1 s.cls.vmid s.cls.asid).getLsbD j = true) →
       ∃ t, exec (.rightsGrant rd ra rb) s = .next t ∧ Raises s t { cause := .right, aux := n })) ∧
  (∀ (s : State) (rd ra rb : Reg) (v c : Nat), s.issuing = true → s.legal (.rightsRoute rd ra rb) = true → s.cls.level = 0 →
     v < 64 → s.hasPartition v = true → s.getS ra = BitVec.ofNat 64 (v * 2 ^ 16 + c) →
     (s.getS rb).toNat < 8 → (s.getS rb).toNat % 4 ≠ 3 →
     (c ∈ [0x1B, 0x1C] → ∃ t, exec (.rightsRoute rd ra rb) s = .next t ∧
       WritesScalar s t s.next rd (BitVec.ofNat 64 (2 ^ 63 + 2 * 2 ^ 32 + s.routeEntry v c)) 0) ∧
     (0 < c → c < 0x1F → c ∉ [0x17, 0x1A, 0x1B, 0x1C] → ∃ t, exec (.rightsRoute rd ra rb) s = .next t ∧ t.cur.pc = s.next ∧
       t.getS rd = (if rd = 0 then 0 else BitVec.ofNat 64 (s.routeEntry v c)) ∧ (∀ r, r ≠ rd → t.getS r = s.getS r) ∧
       t.routeEntry v c = (s.getS rb).toNat ∧ (∀ c', c' < 32 → c' ≠ c → t.routeEntry v c' = s.routeEntry v c') ∧
       (∀ u, u ≠ v → ∀ c', t.routeEntry u c' = s.routeEntry u c') ∧ ∀ x, t.mem.get x = s.mem.get x)) ∧
  (∀ (s : State) (level vmid : Nat) (c : Cause) (stage2 : Bool),
     (level = 0 → s.route level vmid c stage2 = 0) ∧
     (c = .ecc ∨ c = .dirtyfull → s.route level vmid c stage2 = 0) ∧
     (stage2 = true → c = .xlate ∨ c = .prot → s.route level vmid c stage2 = 0) ∧
     (level ≠ 0 → c ≠ .ecc → c ≠ .dirtyfull → (stage2 = false ∨ (c ≠ .xlate ∧ c ≠ .prot)) →
       s.route level vmid c stage2 = min (s.routeEntry vmid c.code % 4) level)) ∧
  (∀ (s : State) (r : Reg) (ix : BitVec 10), s.issuing = true → s.cls.level = 1 → s.cls.status = .live →
     ix ∈ [(0x011 : BitVec 10), 0x012, 0x013, 0x014] →
     (s.legal (.crd r false ix) = true → ∃ t, exec (.crd r false ix) s = .next t ∧
       WritesScalar s t s.next r (s.word (.part s.cls.vmid) ix.toNat) 0) ∧
     (s.legal (.cwr r false ix) = true → ∃ t, exec (.cwr r false ix) s = .next t ∧ GoesOn s t s.next ∧
       t.word (.part s.cls.vmid) ix.toNat = s.getS r &&& (if ix = 0x012 then 0xFFFFFFFFFFFF0000 else 0xFFFFFFFFFFFFFFFF) ∧
       (∀ k, k ≠ ⟨.part s.cls.vmid, ix.toNat, 0⟩ → assoc t.words k = assoc s.words k) ∧
       { t.cls with splits := s.cls.splits } = s.cls ∧ { t with cls := s.cls, words := s.words } = s ∧
       ∀ x, t.mem.get x = s.mem.get x))

/-- HANDLER_ENTRY at level 0: the oldest event of the core's level 0 leaves the queue, its record is written at the core's 256
bytes of HBUF and nowhere else, and a handler class begins at HENTRY with 32 lanes, s1 the buffer's address (R339–R342).
HANDLER_TIME_LIMIT: a level-1 handler that has run HLIMIT cycles is ended, its event is killed, and an asynchronous DEADLINE
with AUX the limit waits at level 0 (R343). The number of registers of a level-0 handler is the model's choice (log entry 22). -/
def Obligations.HandlerEntryBegins : Prop :=
  (∀ (s : State) (core : Nat) (p : Pending), s.oldest core 0 = some p → s.phase = .running → s.coreOff = [] →
     s.hslots = [] →
     let entry := (s.word .level0 0x011).toNat
     let buf := (s.word .level0 0x012).toNat / 2 ^ 16 * 2 ^ 16 + 256 * core
     entry < Config.memLimit → s.sealed entry = true → buf + 256 ≤ Config.memLimit →
     (s.word .level0 0x013).toNat + 64 + 1984 ≤ Config.memLimit → s.tagsLeft ≠ 0 → s.inRecords buf 200 = false →
     s.inRecords ((s.word .level0 0x013).toNat + 64) 1984 = false →
     ∃ t c h, exec (.handlerEntry core 0) s = .next t ∧ t.others = s.others ++ [c] ∧ t.cls = s.cls ∧
       t.pending = s.pending.erase p ∧ t.hslots = [h] ∧ h.ev = p.ev ∧ h.cls = c.id ∧ h.core = core ∧ h.level = 0 ∧ h.reply = buf + 192 ∧ h.buf = buf ∧
       c.kind = .handler ∧ c.level = 0 ∧ c.core = core ∧ c.status = .live ∧ c.lanes = 32 ∧ c.id = s.nextId ∧
       (c.split 0).state = .ready ∧ (c.split 0).pc = ((entry / 4 * 4 : Nat) : Int) ∧ (c.split 0).mask = liveMask 32 ∧
       c.getS 1 = BitVec.ofNat 64 buf ∧ (∀ i, i < 32 → c.getV 0 i = BitVec.ofNat 32 i) ∧ t.words = s.words ∧
       ∀ x, x < buf ∨ buf + 256 ≤ x → t.mem.get x = s.mem.get x) ∧
  (∀ (s : State) (h : HSlot), s.hslots = [h] → h.limit ≤ h.ran → h.level = 1 → h.cls = s.cls.id → s.cls.kind = .handler →
     s.cls.status = .live → s.cls.mem = [] → s.others = [] → h.ev.cls ≠ s.cls.id → s.saved = [] → s.pending = [] → s.pins = [] → h.ev.async = false →
     h.ev.acc = none →
     ∃ t e, exec (.handlerTimeLimit h.core 1) s = .next t ∧ t.hslots = [] ∧ t.cls.status = .ended ∧
       t.pending = [⟨h.core, 0, e⟩] ∧ e.cause = .deadline ∧ e.async = true ∧ e.nested = true ∧ e.aux = BitVec.ofNat 64 h.limit ∧
       ∀ x, t.mem.get x = s.mem.get x)

/-- The dispositions of a precise event: RESUME returns its split to the instruction, SKIP to the next, KILL ends the class, ABORT
every class of its launch, which is orphaned; nothing else of the class changes under RESUME and SKIP, and no byte of memory
under any (R344). -/
def Obligations.Dispositions : Prop :=
  ∀ (s : State) (ev : Event), s.saved = [] → ev.async = false → ev.acc = none → ev.cls = s.cls.id → s.others = [] →
    s.hslots = [] → s.pins = [] → s.cls.status = .live → s.cls.endDue = false → (s.cls.split ev.split).stops = 0 →
    (s.cls.split ev.split).state = .blocked .event → (s.cls.split 0).state ≠ .free → ev.split < s.cls.splits.length →
    (∀ d pc, (d = 0 ∧ pc = ev.resume) ∨ (d = 1 ∧ pc = ev.skipTo) →
      ((dispose ev d s).cls.split ev.split).state = .ready ∧ ((dispose ev d s).cls.split ev.split).pc = pc ∧
      ((dispose ev d s).cls.split ev.split).mask = (s.cls.split ev.split).mask ∧
      (∀ j, j ≠ ev.split → (dispose ev d s).cls.split j = s.cls.split j) ∧
      { (dispose ev d s).cls with splits := s.cls.splits } = s.cls ∧ OutsideKept s (dispose ev d s)) ∧
    (s.cls.kind = .launch → s.cls.mem = [] →
      (dispose ev 2 s).cls.status = .ended ∧ (dispose ev 2 s).launches = s.launches ∧
      (∀ x, (dispose ev 2 s).mem.get x = s.mem.get x) ∧
      (ev.launch = s.cls.launch → (dispose ev 3 s).cls.status = .ended ∧
        (dispose ev 3 s).launches = s.launches.map (fun l => if l.no = ev.launch then { l with orphan := true, noPlace := true } else l) ∧
        ∀ x, (dispose ev 3 s).mem.get x = s.mem.get x))

/-- TRET ends its handler class and disposes of its event as reply word 0 says, shown for RESUME: the raising split is ready at
the instruction again and the handler's slot is free. Outside a handler TRET raises ILLSTATE; with a store outstanding it
waits (R344, R345). -/
def Obligations.TretReturns : Prop :=
  ∀ s : State, s.issuing = true →
    (∀ (h : HSlot) (c : Cls), s.cls.kind = .handler → s.cls.status = .live → s.cls.mem = [] → s.hslots = [h] → h.cls = s.cls.id →
      s.others = [c] → c.id ≠ s.cls.id → c.status = .live → h.ev.cls = c.id → h.ev.async = false → h.ev.acc = none →
      s.saved = [] → s.pins = [] → s.l1 = [] → c.endDue = false → (c.split h.ev.split).stops = 0 →
      (c.split h.ev.split).state = .blocked .event → h.ev.split < c.splits.length →
      (c.split 0).state ≠ .free → h.replyPeer = false → (s.replyByte h).toNat % 4 = 0 →
      ∃ t d, exec .tret s = .next t ∧ t.hslots = [] ∧ t.cls.status = .ended ∧ t.others = [d] ∧
        (d.split h.ev.split).state = .ready ∧ (d.split h.ev.split).pc = h.ev.resume ∧
        (∀ j, j ≠ h.ev.split → d.split j = c.split j) ∧ { d with splits := c.splits } = c ∧
        t.words = s.words ∧ ∀ x, t.mem.get x = s.mem.get x) ∧
    (s.cls.kind ≠ .handler → ∃ t, exec .tret s = .next t ∧ Raises s t { cause := .illstate }) ∧
    (s.cls.kind = .handler → s.cls.soc ≠ 0 → ∃ t, exec .tret s = .next t ∧ t.cur.pc = s.cur.pc ∧ t.cur.held = true ∧
      OutsideKept s t)

/-! ### The matrix unit, the copy engines, the content stores (13_isa_matrix.md, 07_content.md) -/

/-- OB.RES takes the lowest free index and answers a handle that names the new reservation; OB.STAT reads a record back; OB.REL
frees its index, after which the handle names nothing; with no free index, an illegal record or a dead handle they raise
OBFAULT and change nothing (R58, R59, R279). While an operation ahead of it still uses the reservation OB.REL waits, with its
place in the sequencer's queue (R285). OB.ST puts the converted elements of every lane at e, e+1, … of a reservation,
MXFP4 by 32-lane blocks with their scale bytes, and no other byte of the operand buffer changes; OB.LD delivers the stored
elements of L lanes; an element outside the reservation raises OBFAULT (R278, R280, R281). -/
def Obligations.BufferOperations : Prop :=
  (∀ (s : State) (rd ra : Reg), s.issuing = true → s.wholeClass = true → s.seqFull = false → s.cur.queued = false →
     (s.legal (.obRes rd ra) = true →
       (∀ i, i < 16 → s.cls.obRes.getD i none = none → (∀ j, j < i → s.cls.obRes.getD j none ≠ none) → s.cls.resLegal (s.getS ra) = true →
         ∃ t h, exec (.obRes rd ra) s = .next t ∧ GoesOn s t s.next ∧ t.cls.resOf h = some (i, s.getS ra) ∧
           h.toNat % 16 = i ∧ t.getS rd = (if rd = 0 then 0 else h) ∧ (∀ r, r ≠ rd → t.getS r = s.getS r) ∧
           (∀ j, j ≠ i → t.cls.obRes.getD j none = s.cls.obRes.getD j none) ∧
           { t.cls with splits := s.cls.splits, s := s.cls.s, obRes := s.cls.obRes, poisonV := s.cls.poisonV } = s.cls ∧
           OutsideKept s t) ∧
       (s.cls.kind ≠ .handler → (∀ i, i < 16 → s.cls.obRes.getD i none ≠ none) ∨ s.cls.resLegal (s.getS ra) = false →
         ∃ t, exec (.obRes rd ra) s = .next t ∧ Raises s t { cause := .obfault })) ∧
     (s.legal (.obStat rd ra) = true →
       (∀ i r, s.cls.resOf (s.getS ra) = some (i, r) → ∃ t, exec (.obStat rd ra) s = .next t ∧ WritesScalar s t s.next rd r 0) ∧
       (s.cls.kind ≠ .handler → s.cls.resOf (s.getS ra) = none →
         ∃ t, exec (.obStat rd ra) s = .next t ∧ Raises s t { cause := .obfault }))) ∧
  (∀ (s : State) (ra : Reg) (i : Nat) (r : DWord), s.issuing = true → s.wholeClass = true → s.seqFull = false ∨ s.cur.queued = true →
     s.legal (.obRel ra) = true → s.cls.resOf (s.getS ra) = some (i, r) →
     (s.resWriter s.cls.id s.nextId (s.getS ra) = false → s.resReader s.cls.id s.nextId (s.getS ra) = false →
       ∃ t, exec (.obRel ra) s = .next t ∧ GoesOn (setQueued false s) t s.next ∧ t.cls.resOf (s.getS ra) = none ∧
         (∀ j, j ≠ i → t.cls.obRes.getD j none = s.cls.obRes.getD j none) ∧
         { t.cls with splits := s.cls.splits, obRes := s.cls.obRes, obGen := s.cls.obGen } = s.cls ∧ OutsideKept s t) ∧
     (s.resWriter s.cls.id s.nextId (s.getS ra) = true ∨ s.resReader s.cls.id s.nextId (s.getS ra) = true →
       ∃ t, exec (.obRel ra) s = .next t ∧ t.cur.pc = s.cur.pc ∧ t.cur.held = true ∧ t.cur.queued = true ∧
         { t.cls with splits := s.cls.splits } = s.cls ∧ OutsideKept s t)) ∧
  (∀ (s : State) (rd ra rb : Reg), s.issuing = true → s.wholeClass = true → s.cls.lanes ≤ 1024 →
     (∀ r, s.obElems ra rb = some r → s.resWriter s.cls.id s.nextId (s.getS ra) = false →
       let e := (s.getS rb).toNat
       (s.legal (.obSt rd ra rb) = true → s.resReader s.cls.id s.nextId (s.getS ra) = false →
         ∃ t, exec (.obSt rd ra rb) s = .next t ∧ GoesOn s t s.next ∧
           (resFmt r ≠ 4 → ∀ j, j < s.cls.lanes → codeAt t.cls.ob (resBase r * 64) (resFmt r) (e + j) =
             (storeCode (resFmt r) (s.getV rd j)).val % 16 ^ nibbles (resFmt r)) ∧
           (resFmt r = 4 → ∀ w, w < s.cls.lanes / 32 →
             let b := storeBlock ((List.range 32).map (fun k => s.getV rd (32 * w + k)))
             (t.cls.ob.get (scaleAt r (e / 32 + w))).toNat = b.1 % 256 ∧
             ∀ k, k < 32 → codeAt t.cls.ob (resBase r * 64) 4 (e + 32 * w + k) = b.2.1.getD k 0 % 16) ∧
           (∀ x, (∀ p ∈ obSpans r e s.cls.lanes, x < p.1 ∨ p.1 + p.2 ≤ x) → t.cls.ob.get x = s.cls.ob.get x) ∧
           { t.cls with splits := s.cls.splits, ob := s.cls.ob, obPoison := s.cls.obPoison, cstat := s.cls.cstat } = s.cls ∧
           OutsideKept s t) ∧
       (s.legal (.obLd rd ra rb) = true → touchMarks s.cls.obPoison (obSpans r e s.cls.lanes) = false →
         ∃ t, exec (.obLd rd ra rb) s = .next t ∧
           WritesLanes s t s.next rd s.cls.liveM (fun j => (obValue s.cls r (e + j)).val)
             (laneFlags s s.cls.liveM (fun j => (obValue s.cls r (e + j)).flags)))) ∧
     (s.obElems ra rb = none → s.cls.kind ≠ .handler →
       (s.legal (.obSt rd ra rb) = true → ∃ t, exec (.obSt rd ra rb) s = .next t ∧ Raises s t { cause := .obfault }) ∧
       (s.legal (.obLd rd ra rb) = true → ∃ t, exec (.obLd rd ra rb) s = .next t ∧ Raises s t { cause := .obfault })))

/-- The MAT instructions at a sequencer with room: MAT.ZERO and MAT.STAT act at once on a tile that no queued operation of the
class uses; MAT.LOOP and MAT.DRAIN that pass their checks enter the queue as its youngest; a malformed descriptor raises
ILLOP, a dead handle OBFAULT (R286, R288, R292, R293). -/
def Obligations.MatrixInstructions : Prop :=
  ∀ (s : State) (rd : Reg3) (ra rb : Reg), s.issuing = true → s.wholeClass = true → s.seqFull = false → s.cur.queued = false →
    (∀ o ∈ s.seq, o.id < s.nextId ∧ match o.kind with
      | .loop _ _ _ | .drain _ _ _ => True
      | .zero _ | .stat _ _ => False) →
    (s.legal (.matZero rd) = true → (∀ o ∈ s.seq, o.cls = s.cls.id → rd.toNat ∉ o.kind.tiles) →
      ∃ t, exec (.matZero rd) s = .next t ∧ t.cur.pc = s.next ∧ t.cls.tile rd.toNat = {} ∧
        (∀ n, n ≠ rd.toNat → t.cls.tile n = s.cls.tile n) ∧ { t.cls with splits := s.cls.splits, tiles := s.cls.tiles } = s.cls ∧
        { t with cls := s.cls, others := s.others, nextId := s.nextId, seq := s.seq } = s ∧
        t.seq.map SeqOp.unplaced = s.seq.map SeqOp.unplaced ∧ ∀ x, t.mem.get x = s.mem.get x) ∧
    (s.legal (.matStat ra rd) = true → (∀ o ∈ s.seq, o.cls = s.cls.id → rd.toNat ∉ o.kind.tiles) → s.cls.live = true →
      let x := s.cls.tile rd.toNat
      ∃ t, exec (.matStat ra rd) s = .next t ∧ t.cur.pc = s.next ∧
        t.getS ra = (if ra = 0 then 0 else
          BitVec.ofNat 64 (x.steps + (if x.isInt then 2 ^ 32 else 0) + (if x.dup then 2 ^ 33 else 0) + (if x.tws then 2 ^ 34 else 0))) ∧
        (∀ r, r ≠ ra → t.getS r = s.getS r) ∧
        { t.cls with splits := s.cls.splits, s := s.cls.s, poisonV := s.cls.poisonV } = s.cls ∧
        { t with cls := s.cls, others := s.others, nextId := s.nextId, seq := s.seq } = s ∧
        t.seq.map SeqOp.unplaced = s.seq.map SeqOp.unplaced ∧ ∀ x, t.mem.get x = s.mem.get x) ∧
    (s.legal (.matLoop rd ra rb) = true → loopFault s rd (s.getSRun ra 4) (s.getS rb) = none →
      ∃ t, exec (.matLoop rd ra rb) s = .next t ∧ WritesNothing s { t with seq := s.seq, nextId := s.nextId } s.next ∧
        ∃ o, t.seq.map SeqOp.unplaced = (s.seq ++ [o]).map SeqOp.unplaced ∧ o.kind = .loop rd.toNat (s.getSRun ra 4) (s.getS rb) ∧ o.cls = s.cls.id ∧ o.core = s.cls.core ∧
          o.step = 0) ∧
    (s.legal (.matDrain rd ra rb) = true → drainFault s rd rb (s.getSRun ra 4) = none →
      ∃ t, exec (.matDrain rd ra rb) s = .next t ∧ WritesNothing s { t with seq := s.seq, nextId := s.nextId } s.next ∧
        ∃ o, t.seq.map SeqOp.unplaced = (s.seq ++ [o]).map SeqOp.unplaced ∧ o.cls = s.cls.id ∧ o.core = s.cls.core ∧
          o.kind = .drain rd.toNat (s.getSRun ra 4) (if drainToOb (s.getSRun ra 4) then s.getS rb else 0)) ∧
    (s.cls.kind ≠ .handler →
      (s.legal (.matLoop rd ra rb) = true → loopLegal s.cls rd (s.getSRun ra 4) = false →
        ∃ t, exec (.matLoop rd ra rb) s = .next t ∧ Raises s t { cause := .illop }) ∧
      (s.legal (.matLoop rd ra rb) = true → loopLegal s.cls rd (s.getSRun ra 4) = true → s.cls.resOf (s.getS rb) = none →
        ∃ t, exec (.matLoop rd ra rb) s = .next t ∧ Raises s t { cause := .obfault }) ∧
      (s.legal (.matDrain rd ra rb) = true → drainLegal s.cls rd rb (s.getSRun ra 4) = false →
        ∃ t, exec (.matDrain rd ra rb) s = .next t ∧ Raises s t { cause := .illop }))

/-- MAT_LOOP_RUN does one K-step, of both loops of a joint one: under INT8 each element gains the exact sum of 32 products modulo
2^32; any other format is the step of R84 to R86 on each element. MAT_LOOP_COMPLETE takes a loop whose last step is done out
of the queue (R87, R288). MAT_DRAIN_RUN of an unguided drain into scratchpad writes 64 rows of 64 converted elements, PITCH
bytes apart, and no other byte of it; CLR clears the tile and nothing else does. When the tile and its shadow differ it writes
nothing (R88, R292). A TW loop of a twin whose partner is not there, or has ended, or that has waited TWINWAIT cycles runs
solo, and CSTAT keeps a sticky bit 6; one whose partner waits at the same instruction and agrees in COUNT, BFMT, BOFF, BSTEP
and DUP meets it (R294). -/
def Obligations.LoopsAndDrains : Prop :=
  (∀ (s : State) (core op : Nat) (o : SeqOp) (c : Cls) (n : Nat) (d : List DWord) (h : DWord), s.seqOp core op = some (o, c) →
     o.kind = .loop n d h → dDup d = false →
     (∀ i r f, c.resOf h = some (i, r) → s.formById c.form = some f → s.seqReady o c = true → o.released = true → s.metWith o = none →
       s.arrayFree o = true → o.step < dCount d → 0 ≤ dGroup d o.step → 0 ≤ dBlock d o.step →
       touchMarks c.obPoison (obSpans r (64 * (dGroup d o.step).toNat * 32) 2048) = false →
       touchMarks f.bstPoison [((dBlock d o.step).toNat, blockBytes (dFmt d))] = false →
       let g := (dGroup d o.step).toNat
       let b := (dBlock d o.step).toNat
       ∃ t e, exec (.matLoopRun core op) s = .next t ∧ t.getCls c.id = some e ∧
         (e.tile n).el = stepTile c.ob r g f.bstore (dFmt d) b (c.tile n).el ∧ (e.tile n).isInt = (dFmt d == 5) ∧
         (e.tile n).steps = min ((c.tile n).steps + 1) 0xFFFFFFFF ∧ (∀ m, m ≠ n → e.tile m = c.tile m) ∧
         (resFmt r = 5 → dFmt d = 5 → ∀ i j, i < 64 → j < 64 → (e.tile n).el.getD (64 * i + j) 0 =
           (c.tile n).el.getD (64 * i + j) 0 + BitVec.ofInt 32 (((List.range 32).map (fun k =>
             (c.ob.get (resBase r * 64 + ((64 * g + i) * 32 + k))).toInt * (f.bstore.get (b + 32 * j + k)).toInt)).sum)) ∧
         { e with tiles := c.tiles } = c ∧ t.seq.length = s.seq.length ∧
         { t with cls := s.cls, others := s.others, seq := s.seq, meter := s.meter } = s ∧ ∀ x, t.mem.get x = s.mem.get x) ∧
     (∀ (p : SeqOp) (n' : Nat) (d' : List DWord) (h' : DWord), s.seq = [o, p] → o.id ≠ p.id → s.metWith o = some p →
       p.kind = .loop n' d' h' → s.mayStep o = true → s.mayStep p = true →
       (∀ q ∈ [o, p], ∃ e f i r, s.getCls q.cls = some e ∧ s.formById e.form = some f ∧
         e.resOf (if q.id = o.id then h else h') = some (i, r)) →
       ∃ t, exec (.matLoopRun core op) s = .next t ∧ t.seq.map (fun q => (q.id, q.step)) = [(o.id, o.step + 1), (p.id, p.step + 1)] ∧
         { t with cls := s.cls, others := s.others, seq := s.seq, meter := s.meter } = s ∧ ∀ x, t.mem.get x = s.mem.get x) ∧
     (s.seq = [o] → o.step = dCount d → compMode (dComp d) = 0 →
       ∃ t e, exec (.matLoopComplete core op) s = .next t ∧ t.seq = [] ∧ t.getCls c.id = some e ∧ (e.tile n).dup = false ∧
         (e.tile n).el = (c.tile n).el ∧ (e.tile n).steps = (c.tile n).steps ∧ (∀ m, m ≠ n → e.tile m = c.tile m) ∧
         { e with tiles := c.tiles } = c ∧ { t with cls := s.cls, others := s.others, seq := s.seq } = s ∧
         ∀ x, t.mem.get x = s.mem.get x)) ∧
  (∀ (s : State) (core op : Nat) (o : SeqOp) (c : Cls) (n : Nat) (d : List DWord) (h : DWord) (f : Form) (off : Nat),
     s.seqOp core op = some (o, c) → s.seq = [o] → o.kind = .drain n d h → dTw d = false → drainToOb d = false →
     s.seqReady o c = true → c.forked o.before = true → drainMarked c n d = false →
     s.scratchPlace c.form (drainAddr d) (drainSpan d) = some (f, off) → s.formById f.id = some f →
     (drainDiff c n d = none → compMode (dComp d) = 0 → 64 * drainEsz d ≤ drainPitch d →
       ∃ t g e, exec (.matDrainRun core op) s = .next t ∧ t.seq = [] ∧ t.formById f.id = some g ∧ t.getCls c.id = some e ∧
         (∀ i j, i < 64 → j < 64 → g.scratch.num (off + i * drainPitch d + j * drainEsz d) (drainEsz d) =
           (drainValue (c.tile n).isInt (dFmt d) (dScale d) ((c.tile n).el.getD (64 * i + j) 0)).val % 256 ^ drainEsz d) ∧
         (∀ x, (∀ i, i < 64 → x < off + i * drainPitch d ∨ off + i * drainPitch d + 64 * drainEsz d ≤ x) →
           g.scratch.get x = f.scratch.get x) ∧
         e.tile n = (if dClr d then {} else c.tile n) ∧ e.s = c.s ∧ e.v = c.v ∧ e.k = c.k ∧ t.words = s.words ∧
         ∀ x, t.mem.get x = s.mem.get x) ∧
     (drainDiff c n d ≠ none → s.hslots = [] → (∀ level, s.asyncRoom c.core level = true) →
       ∃ t, exec (.matDrainRun core op) s = .next t ∧ t.seq = [] ∧ t.forms = s.forms ∧ t.cls = s.cls ∧ t.others = s.others ∧
         t.words = s.words ∧ ∀ x, t.mem.get x = s.mem.get x)) ∧
  (∀ (s : State) (core op : Nat) (o : SeqOp) (n : Nat) (d : List DWord) (h : DWord), s.seqOp core op = some (o, s.cls) →
     o.kind = .loop n d h → dTw d = true →
     (∀ ev, (ev = .twinRendezvous core op ∧ o.meet = .none ∧ s.seqReady o s.cls = true) ∨
         (ev = .twinwaitExpiry core op ∧ ∃ since, o.meet = .waiting since) →
       s.twinOf s.cls = none ∨ (∃ e, s.twinOf s.cls = some e ∧ e.live = false) ∨
         (∃ since, o.meet = .waiting since ∧ since + s.twinwait s.cls ≤ s.cls.cycle) →
       ∃ t, exec ev s = .next t ∧ t.cls.cstat = s.cls.cstat ||| 0x40 ∧ (t.cls.tile n).tws = true ∧
         (t.cls.tile n).el = (s.cls.tile n).el ∧ (∀ m, m ≠ n → t.cls.tile m = s.cls.tile m) ∧
         (∀ p ∈ t.seq, p.id = o.id → p.meet = .solo) ∧ { t.cls with cstat := s.cls.cstat, tiles := s.cls.tiles } = s.cls ∧
         ∀ x, t.mem.get x = s.mem.get x) ∧
     (∀ (e : Cls) (p : SeqOp) (since n' : Nat) (d' : List DWord) (h' : DWord), o.meet = .none → s.seqReady o s.cls = true →
       s.twinOf s.cls = some e → e.live = true → s.seq = [p, o] → p.id ≠ o.id → p.cls = e.id → p.meet = .waiting since →
       p.pc = o.pc → p.kind = .loop n' d' h' → dCount d' = dCount d → dFmt d' = dFmt d → dDup d' = dDup d →
       bits (dWord d' 2) 20 0 = bits (dWord d 2) 20 0 → bits (dWord d' 2) 47 32 = bits (dWord d 2) 47 32 →
       ∃ t, exec (.twinRendezvous core op) s = .next t ∧
         t.seq.map SeqOp.unplaced = [{ p with meet := .met o.id, turn := none }, { o with meet := .met p.id, turn := none }] ∧
         { t with seq := s.seq, nextId := s.nextId } = s))

/-- CHKB: each active lane's index below s[rb] is copied; the first that is not raises CHK with the lane and its value. The scalar
form the same (R307). -/
def Obligations.BoundsChecks : Prop :=
  ∀ (s : State) (rd ra rb : Reg), s.issuing = true →
    (s.legal (.chkbLane rd ra rb) = true →
      ((∀ i, i < s.cls.lanes → s.act.getLsbD i = true → (s.getV ra i).toNat < (s.getS rb).toNat) →
        ∃ t, exec (.chkbLane rd ra rb) s = .next t ∧ WritesLanes s t s.next rd s.act (fun i => s.getV ra i) 0) ∧
      (∀ i, s.cls.kind ≠ .handler → i < s.cls.lanes → s.act.getLsbD i = true → (s.getS rb).toNat ≤ (s.getV ra i).toNat →
        (∀ j, j < i → s.act.getLsbD j = true → (s.getV ra j).toNat < (s.getS rb).toNat) →
        ∃ t, exec (.chkbLane rd ra rb) s = .next t ∧ Raises s t { cause := .chk, lane := i, addr := (s.getV ra i).toNat })) ∧
    (s.legal (.chkbScalar rd ra rb) = true →
      ((s.getS ra).toNat < (s.getS rb).toNat →
        ∃ t, exec (.chkbScalar rd ra rb) s = .next t ∧ WritesScalar s t s.next rd (s.getS ra) 0) ∧
      (s.cls.kind ≠ .handler → (s.getS rb).toNat ≤ (s.getS ra).toNat →
        ∃ t, exec (.chkbScalar rd ra rb) s = .next t ∧ Raises s t { cause := .chk, addr := (s.getS ra).toNat }))

/-- Every CPY whose checks of R302 pass stands in its engine's queue with its record, coordinates, far register and completion;
its split goes on, that of CPY.SCA waits for the engine. A malformed completion or far register raises ILLOP, a record that is
not 128-byte aligned ALIGN; with 16 commands queued it waits (R299, R301, R302, R305). That a malformed far register raises
ILLOP is the model's reading (log entry 24). -/
def Obligations.CopyCommands : Prop :=
  ∀ (s : State) (i : Instr) (fn : Nat) (rd ra rb : Reg), copyForm i = some (fn, rd, ra, rb) → s.issuing = true →
    s.wholeClass = true → s.legal i = true →
    let well := compOk (s.getS ra) && farOk fn (s.getS (rd + 5)) && !(fn == 7 && rd.toNat % 2 == 1)
    let a := s.copyAccess fn rd ra rb
    (∀ (e : EngineOp) (u : State), well = true → s.engineFull s.cls.core = false → s.cls.mem = [] → (∀ x ∈ s.engines, x.id < s.nextId) →
      (∀ l ∈ a.lanes, l.ea % 128 = 0 ∧ l.ea + 128 ≤ topOf s.cls.level l.ea) → copyTry s s.cls a fn = .go e u →
      ∃ t, exec i s = .next t ∧ t.engines = s.engines ++ [e] ∧ e.fn = fn ∧ e.far = s.getS (rd + 5) ∧ e.comp = s.getS ra ∧
        e.coords = (s.getSRun rd 5).map (fun x => x.toInt) ∧ e.state = .queued ∧ e.progress = 0 ∧ e.cls = s.cls.id ∧
        e.engine = s.cls.core / 4 ∧ { t.cls with splits := s.cls.splits } = s.cls ∧ t.words = s.words ∧ t.pending = s.pending ∧
        (fn ≠ 7 → t.cur.pc = s.next) ∧ (fn = 7 → t.cur.pc = s.iss.pc ∧ t.cur.state = .blocked (.engine e.id))) ∧
    (well = true → s.engineFull s.cls.core = true →
      ∃ t, exec i s = .next t ∧ t.cur = { s.cur with held := true } ∧ { t.cls with splits := s.cls.splits } = s.cls ∧
        OutsideKept s t) ∧
    (s.cls.kind ≠ .handler →
      (well = false → ∃ t, exec i s = .next t ∧ Raises s t { cause := .illop }) ∧
      (well = true → s.engineFull s.cls.core = false → (s.getS rb).toNat + 128 ≤ 2 ^ 48 → (s.getS rb).toNat % 128 ≠ 0 →
        ∃ t, exec i s = .next t ∧ Raises s t { cause := .align, addr := (s.getS rb).toNat, aux := 128 }))

/-- COPY_ENGINE_START takes the oldest command of an idle engine. COPY_ENGINE_COMPLETE of a copy from scratchpad to a reservation
moves every byte of the box, under its swizzle, and no other byte; of a finished build it writes the name, size and height and
lets the split go on. COPY_ENGINE_FAULT sends a translation fault to its fault service (R299–R305). -/
def Obligations.CopyEngineMoves : Prop :=
  ∀ (s : State) (op : Nat) (e : EngineOp) (c : Cls), s.engineOp op = some (e, c) → s.engines = [e] → s.onCore c = true →
    (e.state = .queued → c.forked e.before = true → c.copyBefore op = false → (∀ h, copyHandle e.fn e.far = some h →
        s.resWriter e.cls e.id h = false ∧ s.resReader e.cls e.id h = false) →
      ∃ t, exec (.copyEngineStart op) s = .next t ∧ t = { s with engines := [{ e with state := .running }] }) ∧
    (∀ (f : Form) (off i : Nat) (r : DWord), e.state = .running → e.stop = none → e.fn = 4 → e.progress = 0 → e.pinned = false →
      compMode e.comp = 0 → s.seq = [] → s.scratchPlace e.form (shBase e.shape) (shBytes e.shape) = some (f, off) →
      s.formById f.id = some f → f.scrPoison = [] → c.resOf (e.far &&& 0xFFF) = some (i, r) →
      let at_ := resBase r * 64 + bits e.far.toNat 63 32
      ∃ t c', exec (.copyEngineComplete op) s = .next t ∧ t.engines = [] ∧ t.getCls e.cls = some c' ∧
        (∀ x, x < shBytes e.shape → c'.ob.get (at_ + x) = f.scratch.get (off + swizzle (shSwz e.shape) x)) ∧
        (∀ x, x < at_ ∨ at_ + shBytes e.shape ≤ x → c'.ob.get x = c.ob.get x) ∧
        { c' with ob := c.ob, obPoison := c.obPoison } = c ∧ t.forms = s.forms ∧ t.words = s.words ∧
        ∀ x, t.mem.get x = s.mem.get x) ∧
    (e.state = .running → e.stop = none → e.fn = 7 → e.built = true → e.pinned = false → compMode e.comp = 0 → s.seq = [] →
      c = s.cls → s.cls.live = true → s.stepping = false → e.split < s.cls.splits.length → e.rd ≠ 0 → e.rd.toNat ≤ 124 →
      let name := e.names.getD 0 0
      ∃ t, exec (.copyEngineComplete op) s = .next t ∧ t.engines = [] ∧ t.iss.split = e.split ∧ t.cur.state = .ready ∧
        t.cur.pc = e.pc + 4 * e.words.length ∧ t.getS e.rd = name.setWidth 64 ∧ t.getS (e.rd + 1) = (name >>> 64).setWidth 64 ∧
        t.getS (e.rd + 2) = BitVec.ofNat 64 (shBytes e.shape) ∧ t.getS (e.rd + 3) = BitVec.ofNat 64 e.height ∧
        (∀ r : Reg, r.toNat < e.rd.toNat ∨ e.rd.toNat + 4 ≤ r.toNat → t.getS r = s.getS r) ∧ t.cls.v = s.cls.v ∧
        ∀ x, t.mem.get x = s.mem.get x) ∧
    (∀ (va : Nat) (stage2 wr : Bool), e.stop = some (.xlate va stage2 wr) →
      let level := min (s.route c.level c.vmid .xlate stage2) 1
      ∃ t, exec (.copyEngineFault op (.xlate va stage2 wr)) s = .next t ∧
        t.queue = s.queue ++ [{ q := if level = 0 then none else some c.vmid, owner := .engine e.id, entry := 0 }] ∧
        let fi : FaultInfo := { cause := .xlate, stage2 := stage2, write := wr, addr := va, aux := shE e.shape }
        t.engines = [{ e with state := .stopped level none, stop := none, fault := some fi }] ∧
        { t with engines := s.engines, queue := s.queue } = s ∧ ∀ x, t.mem.get x = s.mem.get x)

/-- The CA instructions of a class whose store is enabled: CA.LOA and CA.NODE send 128 aligned scratchpad bytes, CA.REF, CA.REL
and CA.STAT a name, CA.GET and CA.SWAP a slot access to a monitor, and the split waits; without an enabled store they raise
CANAME (R150, R273, R274). CLD whose offsets lie in the tree and are aligned walks from the named root and enters the
outstanding list with each lane's bytes; the first lane that does not is CANAME or ALIGN; with no effective lane it does
nothing (R148, R275). -/
def Obligations.ContentInstructions : Prop :=
  (∀ (s : State) (rd ra rb : Reg), s.issuing = true → s.wholeClass = true → s.cls.mem = [] →
     ((s.myStore s.cls).isSome = true →
       (s.legal (.caRef ra) = true → ∃ t, exec (.caRef ra) s = .next t ∧ Requests s t (.ref (s.nameAt ra))) ∧
       (s.legal (.caRel ra) = true → ∃ t, exec (.caRel ra) s = .next t ∧ Requests s t (.rel (s.nameAt ra))) ∧
       (s.legal (.caStat rd ra) = true → ∃ t, exec (.caStat rd ra) s = .next t ∧ Requests s t (.stat (s.nameAt ra) rd)) ∧
       (∀ f off, s.scratchPlace s.cls.form (s.getS ra).toNat 128 = some (f, off) → off % 128 = 0 →
         s.engineRace f.id off 128 false = false → s.scratchPoisoned f.id off 128 = false →
         (s.legal (.caLoa rd ra) = true → ∃ t, exec (.caLoa rd ra) s = .next t ∧
           Requests s t (.loa (s.readScratch f.id off 128) rd)) ∧
         (s.legal (.caNode rd ra) = true → ∃ t, exec (.caNode rd ra) s = .next t ∧
           Requests s t (.node (s.readScratch f.id off 128) rd))) ∧
       (∀ i op, (i = .caGet rd ra ∧ op = .slotGet) ∨ (i = .caSwap rd ra rb ∧ op = .slotSwap (s.nameAt rd)
             ((s.nameAt (rb + 2)).setWidth 256 <<< 128 ||| (s.nameAt rb).setWidth 256)) →
         s.legal i = true → (s.getS ra).toNat % 32 = 0 → (s.getS ra).toNat + 32 ≤ 2 ^ 48 →
         (∃ l, s.checkLane s.cls op { lane := 0x7FFF, ea := (s.getS ra).toNat } = .ok l) →
         ∃ t a, exec i s = .next t ∧ t.cls.mem = [a] ∧ a.op = op ∧ a.sdest = some rd ∧ a.stage = .fabric ∧
           a.lanes.map (fun l => l.ea) = [((s.getS ra).toNat : Int)] ∧ t.cur.state = .blocked (.content a.id) ∧
           t.cur.pc = s.iss.pc ∧ { t.cls with splits := s.cls.splits, mem := s.cls.mem } = s.cls ∧
           t.stores = s.stores ∧ t.pending = s.pending ∧ ∀ x, t.mem.get x = s.mem.get x)) ∧
     (s.myStore s.cls = none → s.cls.kind ≠ .handler → ∀ i,
       i ∈ [Instr.caLoa rd ra, .caNode rd ra, .caRef ra, .caRel ra, .caGet rd ra, .caSwap rd ra rb, .caStat rd ra] →
       s.legal i = true → ∃ t, exec i s = .next t ∧ Raises s t { cause := .caname })) ∧
  (∀ (s : State) (p : Pfx) (rd ra rb : Reg) (la : La), s.issuing = true → s.legal (.cld p rd ra rb la) = true →
     let ctl := (s.getS (ra + 2)).toNat
     let d := bits ctl 3 0
     let w := 2 ^ bits ctl 9 8
     let lanes := lanesOf s.cls.lanes (s.eff p)
     (∀ (st : CStore) (val : Nat → Nat), lanes ≠ [] → s.cls.mem = [] → s.myStore s.cls = some st →
       (∀ i ∈ lanes, cldCheck s rd ra rb i = none ∧
         (st.treeBytes d (s.nameAt ra) (s.getV rb i).toNat w).map ofBytes = some (val i)) →
       ∃ t a, exec (.cld p rd ra rb la) s = .next t ∧
         EntersMemory s t { op := .cld (s.nameAt ra) d w, mask := s.eff p, dest := destOf s (s.eff p) rd w,
                            reqs := lanesAt s (s.eff p) (fun i => (s.getV rb i).toNat) val } a) ∧
     (lanes = [] → ∃ t, exec (.cld p rd ra rb la) s = .next t ∧ WritesNothing s t s.next) ∧
     (s.cls.kind ≠ .handler → ∀ pre i post c, lanes = pre ++ i :: post → (∀ j ∈ pre, cldCheck s rd ra rb j = none) →
       cldCheck s rd ra rb i = some c → ∃ t, exec (.cld p rd ra rb la) s = .next t ∧
         Raises s t { cause := c, lane := i, addr := (s.getV rb i).toNat, aux := if c = .align then w else 0,
                      mask := some (s.eff p) }))

/-- MONITOR_CONTENT_OPERATION. Zero bytes have the null name; bytes that a usable line of their kind holds get its name and one
reference more; other bytes get a new line at the lowest free ordinal. CA.REF adds a reference; CA.REL takes one, and the last
makes the line dying and queues it (R144, R147, R152–R154). RELEASE_QUEUE_ENTRY frees the oldest dying line of its monitor and
sends a release for each child of a node. CADESC's INSTALL and FRESH give a store its descriptor when R141 does not refuse it,
FRESH with no line; a refused one changes no store (R141, R142, R154, R155). Which ordinal a new line takes first is the
manual's lowest free one; the home of a line's index is the model's (log entry 43). -/
def Obligations.ContentStores : Prop :=
  (∀ (s : State) (q : ContentReq) (st : CStore) (sp : Nat), s.creqs = [q] → s.pins = [] → q.cls = some (s.cls.id, sp) → s.cls.live = true →
     s.stepping = false → sp < s.cls.splits.length → s.storeAt q.vmid (q.store.getD 8) = some st →
     s.bwRate q.vmid s.cls.asid = 0 → s.bwRate q.vmid partBucket = 0 →
     let went (t : State) : Prop := t.creqs = [] ∧ t.iss.split = sp ∧ t.cur.state = .ready ∧ t.cur.pc = q.pc + 4 * q.words.length ∧
       t.pending = s.pending ∧ t.cls.v = s.cls.v ∧ ∀ x, t.mem.get x = s.mem.get x
     let store (t : State) : Option CStore := t.storeAt q.vmid (q.store.getD 8)
     (∀ n l, q.req = .ref n → n ≠ 0 → st.live n = some l → l.state = .live → l.ref < 0xFFFFFFFF →
       ∃ t st', exec (.monitorContentOperation q.id) s = .next t ∧ went t ∧ store t = some st' ∧
         st'.live n = some { l with ref := l.ref + 1 } ∧ (∀ m, m ≠ n → st'.find m = st.find m) ∧ t.cls.s = s.cls.s) ∧
     (∀ n l, q.req = .rel n → n ≠ 0 → st.live n = some l → l.state = .live → 1 ≤ l.ref →
       ∃ t st', exec (.monitorContentOperation q.id) s = .next t ∧ went t ∧ store t = some st' ∧
         (1 < l.ref → st'.live n = some { l with ref := l.ref - 1 } ∧ st'.relq = st.relq) ∧
         (l.ref = 1 → st'.live n = none ∧ st'.find n = some { l with ref := 0, state := .dying } ∧
           st'.relq = st.relq ++ [n]) ∧
         (∀ m, m ≠ n → st'.find m = st.find m) ∧ t.cls.s = s.cls.s) ∧
     (∀ n rd, q.req = .stat n rd → rd ≠ 0 → ∃ t, exec (.monitorContentOperation q.id) s = .next t ∧ went t ∧ store t = some st ∧
       t.getS rd = st.stat n ∧ ∀ r, r ≠ rd → t.getS r = s.getS r) ∧
     (∀ bs rd, q.req = .loa bs rd → rd ≠ 0 → rd.toNat % 2 = 0 →
       (∀ b ∈ bs, b = 0) → ∃ t, exec (.monitorContentOperation q.id) s = .next t ∧ went t ∧ store t = some st ∧
         t.getS rd = 0 ∧ t.getS (rd + 1) = 0 ∧ ∀ r, r ≠ rd → r ≠ rd + 1 → t.getS r = s.getS r) ∧
     (∀ bs rd o, q.req = .loa bs rd → rd ≠ 0 → rd.toNat % 2 = 0 → (∃ b ∈ bs, b ≠ 0) →
       (∀ l ∈ st.lines, l.state = .dying ∨ l.hash ≠ st.hash false bs ∨ l.node = true ∨ l.data ≠ bs) → o < 256 →
       o ≠ 0 ∨ st.hash false bs ≠ 0 → (∀ l ∈ st.lines, l.hash = st.hash false bs → l.ord ≠ o) →
       (∀ p, p < o → (p = 0 ∧ st.hash false bs = 0) ∨ ∃ l ∈ st.lines, l.hash = st.hash false bs ∧ l.ord = p) →
       st.lines.length < descLines st.desc → st.lines.length < 28 * 2 ^ descNb st.desc →
       ∃ t st', exec (.monitorContentOperation q.id) s = .next t ∧ went t ∧ store t = some st' ∧
         st'.lines = { hash := st.hash false bs, ord := o, node := false, data := bs, ref := 1, state := .live } :: st.lines ∧
         t.getS rd = (mkName (st.hash false bs) o).setWidth 64 ∧ t.getS (rd + 1) = ((mkName (st.hash false bs) o) >>> 64).setWidth 64) ∧
     (∀ bs rd (l : CLine) pre post, q.req = .loa bs rd → rd ≠ 0 → rd.toNat % 2 = 0 → (∃ b ∈ bs, b ≠ 0) → st.lines = pre ++ l :: post →
       (∀ m ∈ pre, m.state = .dying ∨ m.hash ≠ st.hash false bs ∨ m.node = true ∨ m.data ≠ bs) →
       l.state ≠ .dying → l.hash = st.hash false bs → l.node = false → l.data = bs →
       ∃ t, exec (.monitorContentOperation q.id) s = .next t ∧ went t ∧ store t = some (st.incr l.name) ∧
         t.getS rd = l.name.setWidth 64 ∧ t.getS (rd + 1) = (l.name >>> 64).setWidth 64)) ∧
  (∀ (s : State) (vmid ix : Nat),
     (∀ (st : CStore) (m : Nat) (n : BitVec 128) (rest : List (BitVec 128)) (l : CLine), s.storeAt vmid ix = some st →
       st.relq = n :: rest → s.monitorOf st n = m → st.find n = some l →
       ∃ t st', exec (.releaseQueueEntry vmid ix m) s = .next t ∧ t.storeAt vmid ix = some st' ∧ st'.find n = none ∧
         (∀ k, k ≠ n → st'.find k = st.find k) ∧ st'.relq = rest ∧
         t.creqs.map (fun q => q.req) = s.creqs.map (fun q => q.req) ++
           (if l.node then ((childNames l.data).filter (fun k => k != 0)).map CReq.rel else []) ∧
         { t with stores := s.stores, creqs := s.creqs, nextId := s.nextId } = s ∧ ∀ x, t.mem.get x = s.mem.get x) ∧
     (∀ (asid addr n : Nat) (fresh : Bool), (s.word (.part vmid) 0x040).toNat % 8 = ix → addr % 64 = 0 →
       ∀ u, s.unitNum vmid asid addr 64 = (.ok n, u) →
       let old := (s.storeAt vmid ix).getD { vmid := vmid, ix := ix }
       let new : BitVec 512 := BitVec.ofNat 512 n
       let live := !fresh && old.lines.any CLine.usable
       let i : Instr := if fresh then .cadescFresh vmid asid addr else .cadescInstall vmid asid addr
       (fresh = true → descEn old.desc = false) →
       (u.descRefused vmid old.desc new live = false → ∃ t st, exec i s = .next t ∧ t.storeAt vmid ix = some st ∧ st.desc = new ∧
         st.asid = asid ∧ (if fresh then st.lines = [] ∧ st.relq = [] else st.lines = old.lines ∧ st.relq = old.relq) ∧
         (t.word (.part vmid) 0x042).toNat % 256 = 0 ∧
         t.creqs = (if fresh then s.creqs.filter (fun q => !(q.cls.isNone && q.vmid == vmid && q.store == some ix)) else s.creqs) ∧
         { t with stores := u.stores, words := u.words, creqs := u.creqs } = u ∧
         ∀ x, t.mem.get x = s.mem.get x) ∧
       (u.descRefused vmid old.desc new live = true → ∃ t, exec i s = .next t ∧ t.stores = s.stores ∧
         (t.word (.part vmid) 0x042).toNat % 256 = 1 ∧ { t with words := u.words } = u ∧ ∀ x, t.mem.get x = s.mem.get x)))

/-! ### Translation, fault queues, sealing, contexts (17_translation.md, 18_preemption.md) -/

/-- TLB.INV and INVA write DONE and leave no live entry of their target in the core's L1 or its quad's L2, SHOOT none anywhere; no
entry outside the target goes. SHOOT waits for the class's earlier accesses; then it invalidates, and waits on for the accesses
already translated with what it has removed. An illegal
target is BADARG, and nothing is removed. LOOK reads one entry, or 0, or all ones for illegal operands (R364, R366, R367). -/
def Obligations.TlbInvalidations : Prop :=
  ∀ (s : State) (i : Instr) (rd ra rb : Reg) (every : Bool), s.issuing = true → s.legal i = true →
    let here (e : TlbEntry) : Bool := decide (e.home = .core s.cls.core ∨ e.home = .quad (s.cls.core / 4))
    (i = .tlbInv rd ra rb ∧ every = false ∨ i = .tlbInva rd rb ∧ every = true ∨ i = .tlbShoot rd ra rb ∧ every = false →
      s.target? s.cls every (if every then 0 else s.getS ra) (s.getS rb) = none →
      ∃ t, exec i s = .next t ∧ WritesScalar s t s.next rd 1 0) ∧
    (i = .tlbLook rd ra rb → s.target? s.cls false (s.getS ra) (s.getS rb) = none →
      ∃ t, exec i s = .next t ∧ WritesScalar s t s.next rd (BitVec.allOnes 64) 0) ∧
    (∀ g : Target, s.target? s.cls every (if every then 0 else s.getS ra) (s.getS rb) = some g →
      (i = .tlbInv rd ra rb ∧ every = false ∨ i = .tlbInva rd rb ∧ every = true →
        ∃ t, exec i s = .next t ∧ GoesOn s t s.next ∧ t.getS rd = 0 ∧ (∀ r, r ≠ rd → t.getS r = s.getS r) ∧
          (∀ e ∈ t.tlb, here e = true → g.hits e = false) ∧ (∀ e ∈ s.tlb, g.hits e = false → e ∈ t.tlb) ∧
          t.cls.v = s.cls.v ∧ t.cls.k = s.cls.k ∧ t.words = s.words ∧ ∀ x, t.mem.get x = s.mem.get x) ∧
      (i = .tlbShoot rd ra rb → every = false → s.quiet s.cls = true → s.shootOf = none → s.underTarget g = [] → s.enginesUnder g = [] →
        s.l1 = [] → s.pins = [] →
        ∃ t, exec i s = .next t ∧ t.cur.pc = s.next ∧ t.getS rd = 0 ∧ (∀ r, r ≠ rd → t.getS r = s.getS r) ∧
          (∀ e ∈ t.tlb, e.stale = false → g.hits e = false) ∧ (∀ e ∈ s.tlb, g.hits e = false → e ∈ t.tlb) ∧
          t.cls.v = s.cls.v ∧ t.cls.k = s.cls.k ∧ t.words = s.words ∧ ∀ x, t.mem.get x = s.mem.get x) ∧
      (i = .tlbShoot rd ra rb → every = false → s.quiet s.cls = false →
        ∃ t, exec i s = .next t ∧ t.cur = { s.cur with held := true } ∧ OutsideKept s t) ∧
      (i = .tlbShoot rd ra rb → every = false → s.quiet s.cls = true → s.shootOf = none → s.translatedOut g = true →
        ∃ t, exec i s = .next t ∧ t.cur = { s.cur with held := true } ∧ t.shootOf.isSome = true ∧
          (∀ e ∈ t.tlb, e.stale = false → g.hits e = false) ∧ (∀ e ∈ s.tlb, g.hits e = false → e ∈ t.tlb) ∧
          t.cls.s = s.cls.s ∧ t.cls.v = s.cls.v ∧ t.words = s.words ∧ ∀ x, t.mem.get x = s.mem.get x) ∧
      (i = .tlbLook rd ra rb → every = false → bits (s.getS rb).toNat 47 32 ≠ 0 →
        ∃ t, exec i s = .next t ∧ WritesScalar s t s.next rd (BitVec.allOnes 64) 0) ∧
      (i = .tlbLook rd ra rb → every = false → bits (s.getS rb).toNat 47 32 = 0 → ∀ e, s.tlb = [e] → e.stale = false →
        here e = true →
        ∃ t, exec i s = .next t ∧ WritesScalar s t s.next rd (if g.hits e = false then 0 else
          BitVec.ofNat 64 (setBits e.attr.toNat 47 12 ((if s.cls.level = 0 then e.pa else e.ga) / 4096))) 0))

/-- TLB.FILL of a walker: a slot of its run whose control and leaf are legal gets its entry, in the core's L1 and the quad's L2,
and is free; a fault control delivers the fault to what waits; another slot number is BADARG. Only the walker runs it: others
in level 0 raise ILLSTATE, other levels PRIV (R363, R365). WALKER_START: a core with an occupied slot and no walker gets one
at WALKENT, 32 lanes at level 0, with a lane active for each occupied slot and the slot's address in v2 and v3. LOG_REPLAY: a
ready entry whose lanes pass goes to the fabric again (R363, R380). -/
def Obligations.WalkersAndReplays : Prop :=
  (∀ (s : State) (rd ra rb : Reg) (m : MissSlot), s.issuing = true → s.legal (.tlbFill rd ra rb) = true →
     let ctl := (s.getS ra).toNat
     let leaf := (s.getS rb).toNat
     let size := fillSize (bits ctl 6 5)
     (s.cls.level = 0 → s.cls.kind = .walker → s.misses = [m] → m.core = s.cls.core → m.ix = bits ctl 4 0 → m.inRun = true →
       bits ctl 7 7 = 0 → bits ctl 63 25 = 0 → m.stale = false → m.shot = [] → m.engine = none → m.fetch = false →
       (bits ctl 9 8 = 0 → bits leaf 47 12 * 4096 % size = 0 → bit leaf 5 = true →
         attrChk (BitVec.ofNat 64 leaf) = false → m.waiters = [] →
         ∃ t, exec (.tlbFill rd ra rb) s = .next t ∧ GoesOn s t s.next ∧ t.getS rd = 0 ∧ t.misses = [] ∧
           (∀ h ∈ [TlbHome.core m.core, .quad (m.core / 4)], ∃ e ∈ t.tlb, e.home = h ∧ e.vmid = m.vmid ∧ e.asid = m.asid ∧
             e.va = m.ea / size * size ∧ e.size = size ∧ e.pa = bits leaf 47 12 * 4096 ∧ e.attr = BitVec.ofNat 64 leaf ∧
             e.key = bits ctl 15 10 ∧ e.stale = false) ∧
           (∀ r, r ≠ rd → t.getS r = s.getS r) ∧ t.words = s.words ∧ ∀ x, t.mem.get x = s.mem.get x) ∧
       (∀ (c : Cls) (a : Access) (l : LaneReq), bits ctl 8 8 = 1 → bits ctl 23 16 = 7 → bits ctl 24 24 = 0 → s.others = [c] →
         c.id ≠ s.cls.id → c.level = 2 → c.status = .live → c.kind = .launch → s.route 2 c.vmid .xlate false = 1 →
         m.waiters = [(c.id, a.id, l.lane)] → c.mem = [a] → a.stage = .walking → a.found = none → a.lanes = [l] → 0 ≤ l.ea →
         ∃ t d, exec (.tlbFill rd ra rb) s = .next t ∧ GoesOn s t s.next ∧ t.getS rd = 0 ∧ t.misses = [] ∧ t.tlb = s.tlb ∧
           (let fi : FaultInfo := { cause := .xlate, write := m.write, addr := l.ea.toNat, lane := l.lane, aux := a.op.size }
            t.others = [d] ∧ d.mem = [{ a.intoLog c (.delivered 1 none) with fault := some fi }]) ∧
           t.queue = s.queue ++ [{ q := some c.vmid, owner := .access c.id a.id, entry := 0 }] ∧
           t.words = s.words ∧ ∀ x, t.mem.get x = s.mem.get x)) ∧
     (s.cls.level = 0 → s.cls.kind = .walker → (∀ n ∈ s.misses, n.core ≠ s.cls.core ∨ n.ix ≠ bits ctl 4 0 ∨ n.inRun = false) →
       ∃ t, exec (.tlbFill rd ra rb) s = .next t ∧ WritesScalar s t s.next rd 1 0) ∧
     (s.cls.kind ≠ .handler → s.cls.kind ≠ .walker →
       ∃ t, exec (.tlbFill rd ra rb) s = .next t ∧ Raises s t { cause := if s.cls.level = 0 then .illstate else .priv })) ∧
  (∀ s : State,
     (∀ core, s.phase = .running → s.coreEnabled core = true → s.coreOff.contains core = false →
       (∃ m ∈ s.misses, m.core = core) →
       (∀ c ∈ s.allCls, c.kind = .walker → c.core = core → c.status = .ended) →
       ∃ t c, exec (.walkerStart core) s = .next t ∧ t.others = s.others ++ [c] ∧ t.cls = s.cls ∧ c.kind = .walker ∧ c.level = 0 ∧
         c.core = core ∧ c.lanes = 32 ∧ c.id = s.nextId ∧ (c.split 0).state = .ready ∧
         (c.split 0).pc = (((s.word .dev 0x104).toNat / 4 * 4 : Nat) : Int) ∧
         (∀ i, i < 32 → (c.split 0).mask.getLsbD i = s.misses.any (fun m => m.core == core && m.ix == i)) ∧
         (∀ m ∈ s.misses, m.core = core → m.ix < 32 → (∀ n ∈ s.misses, n.core = core → n.ix = m.ix → n = m) →
           c.getV 2 m.ix = BitVec.ofNat 32 m.ea ∧ c.getV 3 m.ix = BitVec.ofNat 32 (m.ea / 2 ^ 32)) ∧
         (∀ m ∈ t.misses, m.core = core → m.inRun = true) ∧ t.misses.length = s.misses.length ∧ t.words = s.words ∧
         ∀ x, t.mem.get x = s.mem.get x) ∧
     (∀ (a : Access) (l l' : LaneReq) (n : Nat), s.cls.mem = [a] → a.stage = .ready → a.op = .load n ∨ a.op = .store n → a.lanes = [l] →
       l.done = false → s.cls.replays a = true → s.onCore s.cls = true → phase1 s.cls.level n l = true →
       s.checkLane s.cls a.op l a.pol = .ok l' →
       ∃ t, exec (.logReplay s.cls.id a.id) s = .next t ∧
         t.cls.mem.map (fun x => (x.stage, x.lanes, x.op, x.id, x.dest, x.fault)) = [(.fabric, [l'], a.op, a.id, a.dest, none)] ∧
         { t.cls with mem := s.cls.mem, restoring := s.cls.restoring } = s.cls ∧ t.cls.restoring = false ∧ t.pending = s.pending ∧
         t.words = s.words ∧ ∀ x, t.mem.get x = s.mem.get x))

/-- FAULT_QUEUE_APPEND of the device queue writes the oldest waiting entry with its SEQ and time at FQPROD's place of the ring and
raises FQPROD; no other byte changes. A full ring keeps it waiting (R382, R383). FQDONE on the entry of a logged access:
REPLAY makes it ready again, FORWARD gives its event to the tenant and blocks its split, KILL ends its class, ABORT ends its
launch's classes and orphans it; a SEQ of no undisposed entry is ignored (R381, R385, R388). A write of FQCONS or DLCONS moves
the consumer to the value, but not past the producer, and changes no other word (R371, R383). -/
def Obligations.FaultQueues : Prop :=
  (∀ (s : State) (x : QEntry) (rest : List QEntry) (e : BitVec 512), s.queue = x :: rest → x.q = none → x.seq = none →
     s.entryOf x = some e → s.fqStuck = false →
     let ring := (s.word .level0 0x300).toNat / 4096 * 4096
     let at_ := ring + 64 * (s.fqProd none % s.fqLen none)
     (ringUse (s.fqProd none) (s.fqCons none) < s.fqLen none → at_ + 64 ≤ Config.memLimit → Memory.wf s.mem = true →
       ∃ t, exec (.faultQueueAppend none) s = .next t ∧
         (∀ i, i < 64 → t.mem.get (at_ + i) = BitVec.ofNat 8 ((stampEntry e (s.fqProd none) s.time).toNat / 256 ^ i)) ∧
         (∀ y, y < at_ ∨ at_ + 64 ≤ y → t.mem.get y = s.mem.get y) ∧ t.fqProd none = (s.fqProd none + 1) % 2 ^ 32 ∧
         (∀ k, k ≠ ⟨.level0, 0x302, 0⟩ → assoc t.words k = assoc s.words k) ∧
         t.queue = (if x.owner = .nobody then [] else [{ x with seq := some (s.fqProd none) }]) ++ rest ∧
         (s.cls.id ≠ 0 → t.cls.s = s.cls.s ∧ t.cls.v = s.cls.v ∧ t.cls.splits = s.cls.splits)) ∧
     (s.fqLen none ≤ ringUse (s.fqProd none) (s.fqCons none) → exec (.faultQueueAppend none) s = .next s)) ∧
  (∀ (s : State) (x : QEntry) (a : Access) (f : FaultInfo) (seq lv : Nat), s.queue = [x] → x.seq = some seq →
     (∀ i ∈ [Instr.fqdoneReplay x.q (seq + 1), .fqdoneForward x.q (seq + 1), .fqdoneKill x.q (seq + 1), .fqdoneAbort x.q (seq + 1)],
       exec i s = .next s) ∧
     (x.owner = .access s.cls.id a.id → s.cls.mem = [a] → a.fault = some f → a.stage = .delivered lv (some seq) → s.cls.level = 2 →
       s.cls.status = .live → s.cls.kind = .launch → s.others = [] → s.hslots = [] → s.saved = [] →
       (∃ t, exec (.fqdoneReplay x.q seq) s = .next t ∧ t.queue = [] ∧ t.cls.mem = [{ a with stage := .ready, fault := none }] ∧
         { t with cls := s.cls, queue := s.queue } = s ∧ { t.cls with mem := s.cls.mem } = s.cls) ∧
       (∃ t p, exec (.fqdoneForward x.q seq) s = .next t ∧ t.queue = [] ∧ t.pending = s.pending ++ [p] ∧ p.level = 2 ∧
         p.core = s.cls.core ∧ p.ev.cause = f.cause ∧ p.ev.acc = some a.id ∧ p.ev.epc = BitVec.ofInt 64 a.pc ∧
         t.cls.mem = [{ a.intoLog s.cls (.delivered 2 none) with fault := some f }] ∧
         ((s.cls.split a.split).state = .ready → a.split < s.cls.splits.length → (t.cls.split a.split).state = .blocked .event) ∧
         { t.cls with mem := s.cls.mem, splits := s.cls.splits } = s.cls) ∧
       (∃ t, exec (.fqdoneKill x.q seq) s = .next t ∧ t.queue = [] ∧ t.cls.status = .ended ∧ t.cls.mem = [] ∧
         t.launches = s.launches) ∧
       (∃ t, exec (.fqdoneAbort x.q seq) s = .next t ∧ t.queue = [] ∧ t.cls.status = .ended ∧
         t.launches = s.launches.map (fun l => if l.no = s.cls.launch then { l with orphan := true, noPlace := true } else l)))) ∧
  (∀ (s : State) (value : Nat),
     (∀ q : QueueId, ∃ t, exec (.fqconsWrite q value) s = .next t ∧
       t.fqCons q = (if (value % 2 ^ 32 + 2 ^ 32 - s.fqCons q) % 2 ^ 32 ≤ (s.fqProd q + 2 ^ 32 - s.fqCons q) % 2 ^ 32
         then value % 2 ^ 32 else s.fqProd q) ∧
       (∀ k, k ≠ ⟨queueBank q, 0x303, 0⟩ → assoc t.words k = assoc s.words k) ∧ { t with words := s.words } = s) ∧
     (∀ v : Nat, ∃ t, exec (.dlconsWrite v value) s = .next t ∧
       let cons := (s.word (.part v) 0x113).toNat % 2 ^ 32
       let prod := (s.word (.part v) 0x112).toNat % 2 ^ 32
       (t.word (.part v) 0x113).toNat = (if (value % 2 ^ 32 + 2 ^ 32 - cons) % 2 ^ 32 ≤ (prod + 2 ^ 32 - cons) % 2 ^ 32
         then value % 2 ^ 32 else prod) ∧
       (∀ k, k ≠ ⟨.part v, 0x113, 0⟩ → assoc t.words k = assoc s.words k) ∧ { t with words := s.words } = s))

/-- SEAL.ADMIT of a level-1 class with the right joins the Registrar's queue and waits for its status; a misaligned operand is
BADARG. SEAL.SEAL at level 0 seals exactly the frames it names, and of memory only the sectors of the seal map that hold their
bits can change. SEAL.UNSEAL of an image begins its closing and waits; a handle of none is BADARG. Without the privilege or
the right they raise PRIV or RIGHT (R349, R350, R373, R375). That a frame run beyond SEALLIM is BADARG is the model's choice
(log entry 26). -/
def Obligations.SealOperations : Prop :=
  ∀ (s : State) (rd ra rb : Reg), s.issuing = true →
    (s.legal (.sealAdmit rd ra rb) = true →
      (s.cls.level = 1 → s.lacks 0 = false → (s.getS ra).toNat % 64 = 0 → (s.getS rb).toNat % 64 = 0 →
        ∃ t q, exec (.sealAdmit rd ra rb) s = .next t ∧ t.admits = s.admits ++ [q] ∧ q.image = (s.getS ra).toNat ∧
          q.block = (s.getS rb).toNat ∧ q.rd = rd ∧ q.cls = s.cls.id ∧ q.split = s.iss.split ∧ q.vmid = s.cls.vmid ∧
          t.cur.state = .blocked .status ∧ t.cur.pc = s.next ∧ { t.cls with splits := s.cls.splits } = s.cls ∧
          { t with cls := s.cls, admits := s.admits } = s) ∧
      (s.cls.level = 1 → s.lacks 0 = false → (s.getS ra).toNat % 64 ≠ 0 ∨ (s.getS rb).toNat % 64 ≠ 0 →
        ∃ t, exec (.sealAdmit rd ra rb) s = .next t ∧ WritesScalar s t s.next rd (BitVec.ofNat 64 (2 ^ 63 + 1)) 0) ∧
      (s.cls.level = 1 → s.lacks 0 = true → s.cls.kind ≠ .handler →
        ∃ t, exec (.sealAdmit rd ra rb) s = .next t ∧ Raises s t { cause := .right, aux := 0 })) ∧
    (s.legal (.sealSeal rd ra rb) = true →
      let a := (s.getS ra).toNat
      let n := (s.getS rb).toNat
      (s.cls.level = 0 → a % 4096 = 0 → 1 ≤ n → n ≤ 2 ^ 20 → a / 4096 + n ≤ s.sealLimit →
        ∃ t, exec (.sealSeal rd ra rb) s = .next t ∧ GoesOn s t s.next ∧ t.getS rd = 0 ∧ (∀ r, r ≠ rd → t.getS r = s.getS r) ∧
          (∀ x, t.sealed x = (s.sealed x || decide (a ≤ x ∧ x < a + 4096 * n))) ∧ t.words = s.words ∧
          (∀ x, (∀ f, a / 4096 ≤ f → f < a / 4096 + n → sector x ≠ sector ((s.word .dev 0x105).toNat + f / 8)) →
            t.mem.get x = s.mem.get x)) ∧
      (s.cls.level = 0 → a % 4096 ≠ 0 ∨ n < 1 ∨ 2 ^ 20 < n ∨ s.sealLimit < a / 4096 + n →
        ∃ t, exec (.sealSeal rd ra rb) s = .next t ∧ WritesScalar s t s.next rd 1 0) ∧
      (s.cls.level ≠ 0 → s.cls.kind ≠ .handler →
        ∃ t, exec (.sealSeal rd ra rb) s = .next t ∧ Raises s t { cause := .priv })) ∧
    (s.legal (.sealUnseal rd ra) = true → s.cls.level = 1 →
      (s.lacks 1 = false → (∀ im ∈ s.images, im.handle ≠ s.getS ra ∨ im.vmid ≠ s.cls.vmid ∨ im.closing = true) →
        ∃ t, exec (.sealUnseal rd ra) s = .next t ∧ WritesScalar s t s.next rd 1 0) ∧
      (∀ im, s.lacks 1 = false → s.images = [im] → im.handle = s.getS ra → im.vmid = s.cls.vmid → im.closing = false → s.l1 = [] →
        ∃ t, exec (.sealUnseal rd ra) s = .next t ∧ t.images.map (fun x => (x.handle, x.closing)) = [(im.handle, true)] ∧
          t.cur.state = .blocked .status ∧ t.cur.pc = s.next ∧ (∀ p ∈ t.icache, p.2 / 64 ∉ im.frames) ∧
          t.sealMap = s.sealMap ∧ (∀ r, t.getS r = s.getS r) ∧ ∀ x, t.mem.get x = s.mem.get x))

/-- REGISTRAR_ADMISSION of an image that passes every rule: it is listed, its pool pages are its own, their frames are sealed, and
the request's register holds its handle; one that a rule refuses is not listed and the status is REFUSED with bit 63; an
unreadable request block is BADARG with bit 63 (R170, R175, R176, R350, R373). UNSEAL_COMPLETION, once no access is out that
was translated through the image's pages: the image is gone, its frames are not sealed, and the UNSEAL's register reads DONE;
until then nothing changes (R375). Answering BADARG before any rule, and waiting for translated accesses, are the model's
reading (log entries 27 and 28). -/
def Obligations.RegistrarAnswers : Prop :=
  (∀ (s : State) (q : AdmitReq) (rest : List AdmitReq), s.admits = q :: rest → s.poolBusy q = false → q.cls = s.cls.id → q.rd ≠ 0 →
     (∀ u, s.poolOf q = (none, u) → ∃ t, exec .registrarAdmission s = .next t ∧ t.admits = rest ∧ t.images = s.images ∧
       t.getS q.rd = BitVec.ofNat 64 (2 ^ 63 + 1) ∧ (∀ r, r ≠ q.rd → t.getS r = s.getS r) ∧
       ((s.cls.split q.split).state = .blocked .status → q.split < s.cls.splits.length → (t.cls.split q.split).state = .ready) ∧
       t.sealMap = s.sealMap ∧ ∀ x, t.mem.get x = s.mem.get x) ∧
     (∀ (p : Pool) (u : State) (fr : List Nat) (ps : List (Nat × Place × Nat)), s.poolOf q = (some p, u) →
       u.poolFrames q p = some fr → u.unitPieces q.vmid q.asid p.frec 64 .w = .ok ps →
       let rd : Reader := fun o n =>
         match ({ u with free := u.free + o } : State).unitNum q.vmid q.asid (q.image + o) n with
         | (.error _, _) => none
         | (.ok x, _) => some x
       (∀ r, checkImage rd q.level = .error (.refused r) → ∃ t, exec .registrarAdmission s = .next t ∧ t.images = s.images ∧
         t.sealMap = s.sealMap ∧ t.getS q.rd = BitVec.ofNat 64 (2 ^ 63 + 4) ∧ t.admits = rest) ∧
       (∀ im cyc, checkImage rd q.level = .ok (im, cyc) →
         let need := cdiv (4 * hNwords im.hdr) 4096 + cdiv (tableBytes (im.sealedTables (u.free + 2 ^ 32)) im.runners).length 4096
         (p.n < need → ∃ t, exec .registrarAdmission s = .next t ∧ t.images = s.images ∧ t.sealMap = s.sealMap ∧
           t.getS q.rd = BitVec.ofNat 64 (2 ^ 63 + 5)) ∧
         (need ≤ p.n → ∃ t g, exec .registrarAdmission s = .next t ∧ t.images = s.images ++ [g] ∧ t.getS q.rd = g.handle ∧
           g.vmid = q.vmid ∧ g.code = p.base ∧ g.closing = false ∧ g.pages = (List.range need).map (fun i => p.base + 4096 * i) ∧
           g.frames = fr.take need ∧ (∀ f ∈ g.frames, f ∈ t.sealMap) ∧ (∀ f ∈ s.sealMap, f ∈ t.sealMap) ∧
           (∀ r, r ≠ q.rd → t.getS r = s.getS r))))) ∧
  (∀ (s : State) (im : Image) (sp : Nat) (rd : Reg), s.images = [im] → im.closing = true → im.closer = some (s.cls.id, sp, rd) →
     rd ≠ 0 → s.l1 = [] → (∀ c ∈ s.allCls, c.kind ≠ .handler) →
     (s.translatedOut (pagesTarget im.vmid im.code im.pages.length) = false →
       ∃ t, exec (.unsealCompletion im.handle.toNat) s = .next t ∧ t.images = [] ∧ (∀ f ∈ im.frames, f ∉ t.sealMap) ∧
         (∀ f ∈ s.sealMap, f ∉ im.frames → f ∈ t.sealMap) ∧ t.getS rd = 0 ∧ (∀ r, r ≠ rd → t.getS r = s.getS r)) ∧
     (s.translatedOut (pagesTarget im.vmid im.code im.pages.length) = true →
       exec (.unsealCompletion im.handle.toNat) s = .next s))

/-- The CTX functions at level 0: PARK and RESUME change who is parked alone; SAVE of one core to a free half of its shadow bank
takes every class of the partition off it, and LOAD of a context saved so puts its classes back; elsewhere than level 0 all
raise PRIV (R348, R351, R391–R396). That SAVE and LOAD take effect at once is the model's choice (log entry 36). -/
def Obligations.ContextOperations : Prop :=
  ∀ (s : State) (rd ra rb : Reg) (v core : Nat), s.issuing = true →
    (s.cls.level = 0 → s.ctxTarget (s.getS ra) = some (v, some core) →
      (s.legal (.ctxPark rd ra) = true → ∃ t, exec (.ctxPark rd ra) s = .next t ∧
        WritesScalar s { t with parkedP := s.parkedP } s.next rd 0 0 ∧ ∀ p, p ∈ t.parkedP ↔ p = (v, core) ∨ p ∈ s.parkedP) ∧
      (s.legal (.ctxResume rd ra) = true → ∃ t, exec (.ctxResume rd ra) s = .next t ∧
        WritesScalar s { t with parkedP := s.parkedP } s.next rd 0 0 ∧ ∀ p, p ∈ t.parkedP ↔ p ≠ (v, core) ∧ p ∈ s.parkedP) ∧
      (∀ half, s.legal (.ctxSave rd ra rb) = true → ctxArea (s.getS rb) = some (true, half) → s.saveCores v (some core) = [core] →
        s.noRoom v [core] true half = false → s.rotSaved v core = none → s.creqs = [] → s.l1 = [] → s.seq = [] →
        (∀ c ∈ s.others, c.mem = [] ∧ c.id ≠ s.cls.id) → (s.others.map (fun c => c.id)).Nodup → s.cls.mem = [] →
        ∃ t x, exec (.ctxSave rd ra rb) s = .next t ∧ t.cur.pc = s.next ∧ t.getS rd = 0 ∧ (∀ r, r ≠ rd → t.getS r = s.getS r) ∧
          t.saved = x :: s.saved ∧ x.vmid = v ∧ x.core = core ∧ x.shadow = true ∧ x.place = half ∧
          x.classes.map (fun c => c.id) = (s.others.filter (fun c => c.inContext core v)).map (fun c => c.id) ∧
          (∀ c ∈ t.others, c.inContext core v = false) ∧ (∀ c ∈ s.others, c.inContext core v = false → c ∈ t.others) ∧
          (v, core) ∈ t.savedP ∧ t.words = s.words ∧ ∀ y, t.mem.get y = s.mem.get y) ∧
      (∀ half x c, s.legal (.ctxLoad rd ra rb) = true → ctxArea (s.getS rb) = some (true, half) → s.saved = [x] → x.vmid = v →
        x.core = core → x.shadow = true → x.place = half → x.lost = false → s.cannotTake x core = false → s.ghostOf x = false → x.classes = [c] → x.forms = [] → s.l1 = [] →
        (s.together (s.formsOf v) core).contains core = true → (∀ e ∈ s.allCls, e.id ≠ c.id) → c.locks = [] → x.recorded = [] →
        x.disposed = [] → x.ends = [] →
        ∃ t d, exec (.ctxLoad rd ra rb) s = .next t ∧ t.cur.pc = s.next ∧ t.getS rd = 0 ∧ (∀ r, r ≠ rd → t.getS r = s.getS r) ∧
          t.saved = [] ∧ t.others = s.others ++ [d] ∧ d.core = core ∧
          { d with core := c.core, mem := c.mem, restoring := c.restoring } = c ∧
          assoc t.resident core = some v ∧ (v, core) ∉ t.savedP ∧ t.words = s.words ∧ ∀ y, t.mem.get y = s.mem.get y)) ∧
    (s.cls.level ≠ 0 → s.cls.kind ≠ .handler → ∀ i, i ∈ [Instr.ctxSave rd ra rb, .ctxLoad rd ra rb, .ctxPark rd ra, .ctxResume rd ra] →
      s.legal i = true → ∃ t, exec i s = .next t ∧ Raises s t { cause := .priv })

/-! ### Scheduling, partitions, links, trust (19_scheduling.md, 20_partitions.md, 22_trust.md) -/

/-- BANDWIDTH_SET gives a bucket its RATE and DEPTH, a tenant's RATE clamped to its partition's; illegal values change nothing.
BANDWIDTH_REFILL at a 1 µs boundary adds RATE to every bucket at each controller, up to RATE × DEPTH (R422, R423).
ENERGY_WINDOW_END of the next window adds the package's measured energy to the package, and what the window's activity charges, by
the certificate's coefficients, to the partition and the form; a form above its FENERGY is throttled. ENERGY_SHARE_WRITE stores a
share, and the package cap up to 3,000 W (R414, R424, R425). -/
def Obligations.Budgets : Prop :=
  (∀ (s : State) (v rate depth : Nat),
     (rateOk rate = true → depthOk depth = true →
       (∃ t, exec (.bandwidthSet v none rate depth) s = .next t ∧ t.bwRate v partBucket = rate ∧ t.bwDepth v partBucket = depth ∧
         { t with words := s.words, tokens := s.tokens } = s) ∧
       (∀ a, a < 65536 → ∃ t, exec (.bandwidthSet v (some a) rate depth) s = .next t ∧ t.bwDepth v a = depth ∧
         t.bwRate v a = (if s.bwRate v partBucket = 0 then rate else min rate (s.bwRate v partBucket)) ∧
         (∀ k, k ≠ ⟨.part v, 0x211, a⟩ → k ≠ ⟨.part v, 0x212, a⟩ → assoc t.words k = assoc s.words k) ∧
         { t with words := s.words, tokens := s.tokens } = s)) ∧
     (∀ o, rateOk rate = false ∨ depthOk depth = false → exec (.bandwidthSet v o rate depth) s = .next s) ∧
     (s.bwFrame < s.time / 4000 → ∃ t, exec .bandwidthRefill s = .next t ∧ t.bwFrame = s.bwFrame + 1 ∧
       (∀ p b ctl, s.hasPartition p = true → b ∈ s.bucketsOf p → s.bwRate p b ≠ 0 → ctl < 24 →
         t.bwTokens ctl p b = min (s.bwTokens ctl p b + s.bwRate p b) (s.bwRate p b * s.bwDepth p b)) ∧
       { t with tokens := s.tokens, bwFrame := s.bwFrame } = s) ∧
     (s.time / 4000 ≤ s.bwFrame → exec .bandwidthRefill s = .next s)) ∧
  (∀ (s : State) (f : Form) (package value : Nat),
     (s.eWindow < s.time / 4000 → s.forms = [f] → s.saved = [] → f.launch ≠ 0 → s.hasPartition f.vmid = true →
       let n := chargedTo f.id s.charges
       (∀ (k : EnergyKind) (a m : Nat), s.meter.pipes = [((f.core, k), a)] → s.meter.slots = [((f.core, f.id, f.vmid), m)] → 0 < m →
         s.meter.bytes = [] → n = a * s.coeffOf k ∧ chargedPart f.vmid s.charges = n) ∧
       ∃ t, exec (.energyWindowEnd s.eWindow package) s = .next t ∧ t.eWindow = s.eWindow + 1 ∧ t.meter = {} ∧
         t.word .dev 0x222 = s.word .dev 0x222 + BitVec.ofNat 64 package ∧
         t.word (.part f.vmid) 0x223 = s.word (.part f.vmid) 0x223 + BitVec.ofNat 64 (chargedPart f.vmid s.charges) ∧
         t.forms.map (fun g => (g.id, g.energy, g.throttled)) =
           [(f.id, (f.energy + n) % 2 ^ 64, f.throttled || decide (f.fenergy < (f.energy + n) % 2 ^ 64))] ∧
         t.cls = s.cls ∧ t.others = s.others ∧ ∀ x, t.mem.get x = s.mem.get x) ∧
     (∀ w, s.time / 4000 ≤ s.eWindow ∨ w ≠ s.eWindow → exec (.energyWindowEnd w package) s = .next s) ∧
     (∀ v : Option Nat, ∃ t, exec (.energyShareWrite v value) s = .next t ∧
       (match v with
         | none => t.word .dev 0x220 = BitVec.ofNat 64 (min value 3000)
         | some v => t.word (.part v) 0x221 = BitVec.ofNat 64 value) ∧
       t.forms = s.forms ∧ t.cls = s.cls ∧ t.others = s.others ∧ ∀ x, t.mem.get x = s.mem.get x))

/-- ROTATION_WRITE of a legal word waits, an illegal one changes nothing; ROTATION_PERIOD_BOUNDARY brings what its core's words
were given before the boundary into force, and nothing given after it (R420). SLICE_BOUNDARY: a core with no context on it goes
idle where no slice is, and else to the partition of the present slice; its runners are discarded (R42, R420, R421). A write of
VTOFF or VTSCALE takes VTIME to the new value, but never back. When VTIME has reached TMRAT, TIMER_EXPIRY disarms the timer and
submits TMREC, if there is one; before that it does nothing (R426, R427). RUNNER_SPAWN gives a split that a load has held for more
than 48 cycles in a runner slice a runner on a copy of its class that holds no access. INSTRUCTION_FETCH of a split that may run
brings the lines of its next group into the instruction cache, or with those there the line after its run, where the run ends at a
KEND word; no register, mask or byte changes (R40, R41, R43). What a runner copies is the model's form (log entry 19). -/
def Obligations.RotationsAndTime : Prop :=
  (∀ (s : State) (core : Nat), core < Config.cores →
     (∀ (entry : Option Nat) (value : DWord), (∀ e, entry = some e → e < 8) →
       let e := entry.getD 8
       (s.rotRefused core e (rotMask e value) = none → ∃ t, exec (.rotationWrite core entry value) s = .next t ∧
         t.rotWritten core e = rotMask e value ∧ { t with rotNext := s.rotNext } = s) ∧
       (s.rotRefused core e (rotMask e value) ≠ none → exec (.rotationWrite core entry value) s = .next s)) ∧
     (let p := s.rotPer core * frameTicks
      p ≠ 0 → (assoc s.rotFrom core).getD 0 / p < s.time / p → (s.rotNext.map (fun x => x.1)).Nodup → (∀ x ∈ s.rotNext, x.1.2 ≤ 8) →
       ((∀ x ∈ s.rotNext, x.1.1 = core → s.time / p * p ≤ x.2.2) →
         exec (.rotationPeriodBoundary core) s = .next { s with rotFrom := assocSet s.rotFrom core s.time }) ∧
       ((∀ x ∈ s.rotNext, x.1.1 = core → x.2.2 < s.time / p * p) →
       ∃ t, exec (.rotationPeriodBoundary core) s = .next t ∧ (∀ e, e < 8 → t.rotEnt core e = s.rotWritten core e) ∧
         t.rotPer core = (s.rotWritten core 8).toNat ∧ (∀ c e, c ≠ core → e < 8 → t.rotEnt c e = s.rotEnt c e) ∧
         (∀ x ∈ t.rotNext, x.1.1 ≠ core) ∧ t.cls = s.cls ∧ t.others = s.others ∧ ∀ x, t.mem.get x = s.mem.get x))) ∧
  (∀ (s : State) (core : Nat), s.phase = .running → s.coreEnabled core = true → s.cls.id = 0 → assoc s.resident core = none →
     (∀ w, s.sliceNow core = none → assoc s.holder core = some w →
       ∃ t, exec (.sliceBoundary core) s = .next t ∧ assoc t.holder core = none ∧
         (∀ c, c ≠ core → assoc t.holder c = assoc s.holder c) ∧ t.runners = s.runners.filter (fun r => r.core != core) ∧
         { t with holder := s.holder, runners := s.runners } = s) ∧
     (∀ sl, s.sliceNow core = some sl → assoc s.holder core ≠ some sl.vmid → s.savedP.contains (sl.vmid, core) = false →
       s.hasPartition sl.vmid = true → s.coreUp core = true → s.rotSaved sl.vmid core = none →
       ∃ t, exec (.sliceBoundary core) s = .next t ∧ assoc t.holder core = some sl.vmid ∧ assoc t.resident core = some sl.vmid ∧
         (∀ c, c ≠ core → assoc t.holder c = assoc s.holder c) ∧ t.runners = s.runners.filter (fun r => r.core != core) ∧
         { t with holder := s.holder, resident := s.resident, runners := s.runners } = s)) ∧
  (∀ (s : State) (v : Nat),
     (∀ (scale : Bool) (value : DWord),
       let off := if scale then s.word (.part v) 0x230 else value
       let sc := if scale then value else s.word (.part v) 0x231
       ∃ t, exec (.virtualTimeAdjust v scale value) s = .next t ∧
         t.vtime v = max (s.vtime v) ((off.toNat + sc.toNat * s.time / 2 ^ 32) % 2 ^ 64) ∧
         (∀ k, k ≠ ⟨.part v, 0x230, 0⟩ → k ≠ ⟨.part v, 0x231, 0⟩ → assoc t.words k = assoc s.words k) ∧
         { t with words := s.words } = s) ∧
     (let at_ := s.word (.part v) 0x232
      let r := (s.word (.part v) 0x233).toNat
      (at_ ≠ BitVec.allOnes 64 → at_.toNat ≤ s.vtime v → s.hasPartition v = true →
         ∃ t, exec (.timerExpiry v) s = .next t ∧ t.word (.part v) 0x232 = BitVec.allOnes 64 ∧
           t.timers = s.timers ++ (if r = 0 then [] else [(v, r)]) ∧
           (∀ k, k ≠ ⟨.part v, 0x232, 0⟩ → assoc t.words k = assoc s.words k) ∧ { t with words := s.words, timers := s.timers } = s) ∧
      (at_ = BitVec.allOnes 64 ∨ s.vtime v < at_.toNat → exec (.timerExpiry v) s = .next s))) ∧
  (∀ (s : State) (c : Cls) (split : Nat), s.getCls c.id = some c →
     (∀ (a : Access) (lo hi : Int) (vm sm : BitVec 128), s.runners = [] → c.mem = [a] → a.split = split → a.op.plainLoad = true →
       a.logged = false → s.sliceAt c (c.split split).pc = some (lo, hi, vm, sm) → c.live = true → c.kind = .launch →
       (c.split split).state = .ready → 48 < (c.split split).age → s.holdsCore c = true → s.heldByLoad c split = true →
       lo ≤ a.pc → a.pc < hi →
       ∃ t r, exec (.runnerSpawn c.id split a.id) s = .next t ∧ t.runners = [r] ∧ r.core = c.core ∧ r.cls = c.id ∧ r.acc = a.id ∧
         r.start = lo ∧ r.endAt = hi ∧ r.ran = 0 ∧ r.copy.mem = [] ∧ (r.copy.split 0).pc = a.pc ∧
         (r.copy.split 0).mask = (c.split split).mask ∧ (∀ x : Reg, sm.getLsbD x.toNat = true → r.copy.getS x = c.getS x) ∧
         { t with runners := s.runners } = s) ∧
     (let room (ls : List Nat) : Prop := (s.icache.filter (fun p => p.1 == c.core)).length + ls.length ≤ icacheLines ∧
        s.l2.length ≤ 6144 ∧ (c.level = 0 ∨ (s.bwRate c.vmid c.asid = 0 ∧ s.bwRate c.vmid partBucket = 0))
      let brings (t : State) (ls : List Nat) : Prop :=
       (∀ l ∈ ls, (c.core, l) ∈ t.icache) ∧ (∀ p ∈ s.icache, p ∈ t.icache) ∧ (∀ n, n ≠ c.id → t.getCls n = s.getCls n) ∧
         (∃ d, t.getCls c.id = some d ∧ { d with splits := c.splits } = c ∧
           ∀ i, { d.split i with run := none } = { c.split i with run := none }) ∧
         t.words = s.words ∧ t.forms = s.forms ∧ t.pending = s.pending ∧ ∀ x, t.mem.get x = s.mem.get x
      (∀ ws ls, s.mayRun c split = true → s.cached c split = false → s.fetchGroup c (c.split split).pc = .words ws ls → room ls →
         ∃ t, exec (.instructionFetch c.id split) s = .next t ∧ brings t ls) ∧
      (∀ line p k l, s.mayRun c split = true → s.cached c split = true → (c.split split).run = some line →
         s.lineAt c (line + 64) = some (p, l) → (fetchLine c (line + 64) s).lineAt c (line + 64) = some (p, k) → s.bwWait = [] → room [p] →
         ∃ t, exec (.instructionFetch c.id split) s = .next t ∧ brings t [p] ∧
           (t.getCls c.id).map (fun d => (d.split split).run) = some (if k = true then none else some (line + 64)))) ∧
     (s.mayRun c split = false → exec (.instructionFetch c.id split) s = .next s))

/-- QUEUE_ENABLE begins fetching at QCONS 0, QUEUE_DISABLE ends it and with ABORT orphans the queue's launches; FENCE_PACKET takes
a fence and the queue waits; FENCE_WORD_WRITE lets it go on when every launch before it has completed (R399–R401, R417). A
LAUNCH packet whose record Table 19-4 accepts is taken and its launch stands last in the list; one it refuses leaves the list
as it was and its status is written at COMPW; a record that is not 128-byte aligned is dropped with an ORPHAN entry. A fault
queue's service record likewise (R402, R403, R405, R409). The order in which queues are served is the manual's R402 as the
model reads it (log entry 39). -/
def Obligations.QueuesAndRecords : Prop :=
  (∀ (s : State) (v q : Nat), q < 64 →
     (s.qEn v q = false → ∃ t, exec (.queueEnable v q) s = .next t ∧ t.qEn v q = true ∧ t.qCons v q = 0 ∧
       t.qctl v q = s.qctl v q + 1 ∧
       (∀ k, k ≠ ⟨.part v, 0x182, q⟩ → k ≠ ⟨.part v, 0x183, q⟩ → assoc t.words k = assoc s.words k) ∧ { t with words := s.words } = s) ∧
     (s.qEn v q = true → exec (.queueEnable v q) s = .next s) ∧
     (∀ abort, ∃ t, exec (.queueDisable v q abort) s = .next t ∧ t.qEn v q = false ∧
       t.launches = s.launches.map (fun l => if abort ∧ l.vmid = v ∧ l.child = false ∧ l.queue = q
         then { l with noPlace := true, orphan := true } else l) ∧
       (∀ k, k ≠ ⟨.part v, 0x182, q⟩ → assoc t.words k = assoc s.words k) ∧ { t with words := s.words, launches := s.launches } = s) ∧
     (∀ w u, s.turn v = .packet q (.ok w) u → isFence w = true → s.phase = .running →
       ∃ t, exec (.fencePacket v q) s = .next t ∧ t.qCons v q = (s.qCons v q + 1) % 2 ^ 32 ∧ t.fenced v q = true ∧
         t.fences = s.fences ++ [{ vmid := v, queue := q, seq := bits w 31 0, word := bits w 127 64, upTo := s.launchNo + 1 }] ∧
         { t with words := s.words, fences := s.fences, ttNext := s.ttNext, sent := s.sent, free := s.free } = s) ∧
     (∀ f rest, s.fences = f :: rest → f.vmid = v → f.queue = q →
       (∀ l ∈ s.launches, l.vmid = v → l.child = false → l.queue = q → l.no < f.upTo → exec (.fenceWordWrite v q) s = .next s) ∧
       ((∀ l ∈ s.launches, l.vmid = v → l.child = false → l.queue = q → f.upTo ≤ l.no) →
         ∃ t, exec (.fenceWordWrite v q) s = .next t ∧ t.fences = rest ∧ (f.word = 0 → t = { s with fences := rest }) ∧
           (f.word ≠ 0 → ∀ u, (State.cleanL1 { s with fences := rest } (fun x => x.vmid == v)).unitWrite v (s.qAsid v q) f.word
             (toBytes 8 (f.seq % 2 ^ 32)) = (none, u) → t = u)))) ∧
  (∀ (s : State) (v : Nat), s.phase = .running →
     (∀ q w p, s.turn v = .packet q (.ok w) p → bits w 39 32 = 1 → bits w 511 128 = 0 → bits w 63 40 = 0 →
       let at_ := bits w 127 64
       let b : Submission := { vmid := v, asid := s.qAsid v q, queue := q, owner0 := s.queueOwner0 v q, at_ := at_ }
       (at_ % 128 ≠ 0 → ∃ t, exec (.takeLaunchPacket v) s = .next t ∧ t.launches = s.launches ∧
         t.qCons v q = (s.qCons v q + 1) % 2 ^ 32 ∧ t.queue.length = s.queue.length + 1 ∧ ∀ x, t.mem.get x = s.mem.get x) ∧
       (∀ bs u, at_ % 128 = 0 → (p.advance v q).unitRead v (s.qAsid v q) at_ 128 = (.ok bs, u) →
         let r := BitVec.ofNat 1024 (ofBytes bs)
         lrReserved r = true → lrCompw r < 2 ^ 57 → lrCompw r % 8 = 0 →
         (∀ l u', u.judge b r = (.ok l, u') → ∃ t, exec (.takeLaunchPacket v) s = .next t ∧
           t.launches.map (fun x => x.no) = s.launches.map (fun x => x.no) ++ [l.no] ∧ t.launchNo = l.no ∧
           t.qCons v q = (s.qCons v q + 1) % 2 ^ 32 ∧ ∀ x, t.mem.get x = s.mem.get x) ∧
         (∀ st u', u.judge b r = (.error st, u') → ∃ t, exec (.takeLaunchPacket v) s = .next t ∧ t.launches = s.launches ∧
           t.qCons v q = (s.qCons v q + 1) % 2 ^ 32 ∧
           ∀ x, (u'.cleanL1 (fun y => y.vmid == v)).unitWrite v (s.qAsid v q) (lrCompw r)
             (toBytes 8 (st * 2 ^ 32 + lrCompv r % 2 ^ 32)) = (none, x) → t = x))) ∧
     (s.turn v = .service → s.services = [v] →
       let at_ := (s.word (.part v) 0x305).toNat
       let s' : State := { s with services := [] }
       let b : Submission := { vmid := v, asid := s.qAsid v 0, owner0 := true, service := true, at_ := at_ }
       (at_ % 128 ≠ 0 → ∃ t, exec (.submitServiceRecord v) s = .next t ∧ t.services = [] ∧ v ∈ t.refusedS ∧
         t.launches = s.launches ∧ t.queue.length = s.queue.length + 1) ∧
       (∀ bs l u u', at_ % 128 = 0 → s'.unitRead v (s.qAsid v 0) at_ 128 = (.ok bs, u) → lrReserved (BitVec.ofNat 1024 (ofBytes bs)) = true →
         lrCompw (BitVec.ofNat 1024 (ofBytes bs)) < 2 ^ 57 → lrCompw (BitVec.ofNat 1024 (ofBytes bs)) % 8 = 0 →
         u.judge b (BitVec.ofNat 1024 (ofBytes bs)) = (.ok l, u') →
         ∃ t, exec (.submitServiceRecord v) s = .next t ∧ t.services = [] ∧ t.refusedS = s.refusedS ∧
           t.launches.map (fun x => x.no) = s.launches.map (fun x => x.no) ++ [l.no])))

/-- PLACE_HOUSE creates the forms of a house and their classes, and nothing stands in between: each class begins at ENTRY with
PARAM in s1, its region table's address in s2 and L live lanes. A house that cannot be placed is not begun (R19–R25, R412).
FORM_END frees a form all of whose classes have ended and left no scratchpad store or copy, and whose operations have; a form
with a class that has not stays. LAUNCH_COMPLETE of a launch that is done drops it and writes its completion word: OK, or
ORPHAN. DEADLINE_EXPIRY stops a form whose time is up and raises DEADLINE with its FTIME (R14, R18, R404, R413). -/
def Obligations.HousesAndLaunches : Prop :=
  (∀ (s : State) (l : Launch) (im : Image) (rest : List Launch) (ims : List Image) (house u : Nat), s.launches = l :: rest →
     s.images = im :: ims → im.handle = BitVec.ofNat 64 l.img → im.vmid = l.vmid →
     (s.phase = .running → s.hot = false → s.l1 = [] → s.canPlace l house u = true →
       ∃ t cs fs, exec (.placeHouse l.no house u) s = .next t ∧ t.others = s.others ++ cs ∧ t.forms = s.forms ++ fs ∧
         fs.length = lrForms l.shape ∧ cs.length = lrForms l.shape * lrCpf l.shape ∧
         (∀ f ∈ fs, f.launch = l.no ∧ f.house = house ∧ f.vmid = l.vmid ∧ f.size = lrScratch l.shape ∧ f.bars = lrBars l.shape ∧
           f.scratch = [] ∧ f.timeLeft = lrFtime l.shape ∧ f.core ∈ unitCores (lrForms l.shape) u) ∧
         (∀ c ∈ cs, c.kind = .launch ∧ c.status = .live ∧ c.launch = l.no ∧ c.level = l.lvl ∧ c.vmid = l.vmid ∧ c.asid = l.asid ∧
           c.lanes = lrLanes l.shape ∧ c.nregs = lrRegs l.shape ∧ (c.split 0).state = .ready ∧
           (c.split 0).pc = (lrEntry l.shape : Int) ∧ (c.split 0).mask = liveMask (lrLanes l.shape) ∧
           c.getS 1 = BitVec.ofNat 64 (lrParam l.shape) ∧ c.getS 2 = BitVec.ofNat 64 l.tabAt ∧ ∃ f ∈ fs, c.form = f.id ∧ c.core = f.core) ∧
         t.cls = s.cls ∧ t.words = s.words ∧ ∀ x, t.mem.get x = s.mem.get x) ∧
     (s.canPlace l house u = false → exec (.placeHouse l.no house u) s = .next s)) ∧
  (∀ s : State,
     (∀ form, (∃ f ∈ s.forms, f.id = form ∧ f.launch ≠ 0) → (∀ c ∈ s.allCls, c.kind = .launch → c.form = form → c.status = .ended ∧ c.mem.any Access.keepsForm = false) →
       s.engines = [] → s.seq = [] →
       ∃ t, exec (.formEnd form) s = .next t ∧ t = { s with forms := s.forms.filter (fun f => f.id != form) }) ∧
     (∀ form, (∃ c ∈ s.allCls, c.kind = .launch ∧ c.form = form ∧ (c.status ≠ .ended ∨ c.mem.any (fun a => a.keepsForm && !s.givenUp a) = true)) →
       exec (.formEnd form) s = .next s) ∧
     (∀ (l : Launch) (rest : List Launch), s.launches = l :: rest → s.launchDone l = true → l.service = false →
       ∃ t, exec (.launchComplete l.no) s = .next t ∧ t.launches = rest.filter (fun x => x.no != l.no) ∧ t.forms = s.forms ∧
         t.cls = s.cls ∧ t.words = s.words ∧ (∀ c ∈ t.others, c ∈ s.others) ∧
         ∀ u, (State.cleanL1 { s with launches := t.launches, others := t.others } (fun x => x.vmid == l.vmid)).unitWrite l.vmid l.asid
           (lrCompw l.shape) (toBytes 8 ((if l.orphan then 3 else 0) * 2 ^ 32 + lrCompv l.shape % 2 ^ 32)) = (none, u) → t = u) ∧
     (∀ (l : Launch) (rest : List Launch), s.launches = l :: rest → s.launchDone l = false →
       exec (.launchComplete l.no) s = .next s) ∧
     (∀ (f : Form), s.forms = [f] → f.launch ≠ 0 → f.timeLeft = 0 → f.stopped = false → s.others = [] → s.cls.kind = .launch →
       s.cls.form = f.id → s.cls.live = true → (∀ level, s.asyncRoom s.cls.core level = true) → s.hslots = [] →
       ∃ t p, exec (.deadlineExpiry f.id) s = .next t ∧ t.forms = [{ f with stopped := true }] ∧ t.pending = s.pending ++ [p] ∧
         p.ev.cause = .deadline ∧ p.ev.async = true ∧ p.ev.aux = BitVec.ofNat 64 f.ftime ∧ p.core = s.cls.core ∧
         p.level = s.route s.cls.level s.cls.vmid .deadline false ∧
         t.launches = s.launches.map (fun l => if l.no = f.launch then { l with orphan := true } else l) ∧ t.cls = s.cls ∧
         t.words = s.words ∧ ∀ x, t.mem.get x = s.mem.get x))

/-- An accepted READ of stream 0 answers the bytes at a physical address, an accepted WRITE changes its bytes (and of their
sectors no others, unless they were under another key); CREAD and CWRITE act on a control word as level 0. Each uses its nonce. A
message that the stream does not accept, its tag among the tests, is counted and does nothing else (R430, R431). KEYSW to the
other generation makes it current and dates the old key; OLD_KEY_EXPIRY, when that key is held no more, drops it, and nothing is
owed under it. KEY_EXCHANGE of a requester that level 1 has named opens a stream at generation 0, KEY_UPDATE gives it the other
generation's keys, GET_CERTIFICATE and GET_MEASUREMENTS answer, the latter with MEASn first (R432, R458). PEER_REQUEST that its
export window lets in is performed in the partition's memory and answered: a read with the bytes there, a write changes exactly
its bytes; any other is refused and changes nothing else. REPLICA_REQUEST answers a valid set's bytes (R434, R435). What a
discarded message leaves, and what a faulting request answers, are the model's reading (log entries 34 and 35). -/
def Obligations.PortsAndPeers : Prop :=
  (∀ (s : State) (m : CpMsg) (i : Instr) (ty : Nat),
     (i, ty) ∈ [(Instr.cpWrite m, 1), (.cpRead m, 2), (.cpCwrite m, 4), (.cpCread m, 5)] → s.phase = .running →
     (s.admitsMsg ty m true = none → ∃ t, exec i s = .next t ∧
       assoc t.cpBad m.stream = some (((assoc s.cpBad m.stream).getD 0 + 1) % 2 ^ 16) ∧ { t with cpBad := s.cpBad } = s) ∧
     (∀ x k, s.admitsMsg ty m true = some (x, k) → m.stream = 0 →
       let m' := openMsg m k.inKey
       let s' := s.setStream (x.putKeys (m.gen == 1) (some { k with least := m.nonce + 1 }))
       (i = .cpRead m → s.physFault m.addr m.len false = none → ∃ t, exec i s = .next t ∧
         t = { s' with answers := s.answers ++ [.cp 0 m.gen m.tag 3 (s.hwRead s.pkey m.addr m.len)] }) ∧
       (i = .cpWrite m → s.physFault m.addr m.len true = none → s.l2 = [] → Memory.wf s.mem = true → ∃ t, exec i s = .next t ∧
         (∀ j, j < m.len → t.mem.get (m.addr + j) = m'.payload.getD j 0) ∧
         (∀ y, (∀ j, j < m.len → sector y ≠ sector (m.addr + j)) → t.mem.get y = s.mem.get y) ∧
         (s.confidential = false → s.keyOf = [] → ∀ y, y < m.addr ∨ m.addr + m.len ≤ y → t.mem.get y = s.mem.get y) ∧
         t.words = s.words ∧ t.cls = s.cls ∧ t.streams = s'.streams) ∧
       (cpLegal m = true →
         (∀ v u, i = .cpCread m → readControl (s'.portAccessor m') (cpBelow m) (cpIndex m) s' = .ok (v, u) →
           ∃ t, exec i s = .next t ∧ t = { u with answers := u.answers ++ [.cp 0 m.gen m.tag 6 (payloadBytes m.len (toBytes 8 v.toNat))] }) ∧
         (∀ u, i = .cpCwrite m → writeControl (s'.portAccessor m') (cpBelow m) (cpIndex m)
             (BitVec.ofNat 64 (ofBytes (payloadBytes 8 m'.payload))) s' = .ok u → exec i s = .next u)))) ∧
  (∀ (s : State) (n who : Nat),
     (∀ (m : CpMsg) (x : Stream) (k : StreamKeys), s.phase = .running → s.admitsMsg 7 m false = some (x, k) → m.len = 0 →
       x.old = none → b2n x.gen ≠ m.gen → ∃ t y, exec (.keysw m) s = .next t ∧ t.stream m.stream = some y ∧ y.gen = !x.gen ∧
         y.old = some s.time ∧ y.keys x.gen = x.keys x.gen ∧ y.keys (!x.gen) = some { k with least := m.nonce + 1 } ∧
         { t with streams := s.streams } = s) ∧
     (∀ (x : Stream) (t0 : Nat), s.stream n = some x → x.old = some t0 → s.oldHeld x = false →
       ∃ t y, exec (.oldKeyExpiry n) s = .next t ∧ t.stream n = some y ∧ y.old = none ∧ y.gen = x.gen ∧
         y.keys x.gen = x.keys x.gen ∧ y.keys (!x.gen) = none ∧ (∀ a ∈ t.answers, a.owes n (!x.gen) = false) ∧
         t.answers.length = s.answers.length + (s.portq.filter (fun q => (q.req.owes n (!x.gen)).isSome)).length ∧
         { t with streams := s.streams, answers := s.answers, portq := s.portq } = s) ∧
     (s.streamOk n = true →
       (∃ t bs, exec (.getCertificate n) s = .next t ∧ t.answers = s.answers ++ [.spdm n bs] ∧
         { t with answers := s.answers, free := s.free } = s) ∧
       (∀ k, k < 16 → ∃ t bs, exec (.getMeasurements n (k + 1)) s = .next t ∧
         t.answers = s.answers ++ [.spdm n (toBytes 64 (s.measure k).toNat ++ bs)] ∧
         { t with answers := s.answers, free := s.free } = s) ∧
       (∃ t bs, exec (.keyExchange ⟨n, who⟩) s = .next t ∧ (s.named n who = false → t = s) ∧ (s.named n who = true →
         t.stream n = some { no := n, keys0 := some s.newKeys } ∧
         t.answers = s.answers ++ [.spdm n bs] ∧ { t with streams := s.streams, answers := s.answers, free := s.free } = s)) ∧
       (∀ x, s.stream n = some x → x.old = none → ∃ t y, exec (.keyUpdate n) s = .next t ∧ t.stream n = some y ∧
         y.gen = x.gen ∧ y.keys x.gen = x.keys x.gen ∧ y.keys (!x.gen) = some s.newKeys ∧
         { t with streams := s.streams, answers := s.answers, free := s.free } = s)) ∧
     (s.streamOk n = false → (∀ i ∈ [Instr.getCertificate n, .getMeasurements n 1, .keyExchange ⟨n, who⟩], exec i s = .next s) ∧
       ((∀ x, s.stream n = some x → x.old = none) → exec (.keyUpdate n) s = .next s))) ∧
  (∀ (s : State) (r : PeerReq), s.phase = .running → s.portq = [] → s.bwRate r.vmid noTenant = 0 → s.bwRate r.vmid partBucket = 0 →
     (s.exportAddr r = none → ∃ t, exec (.peerRequest r) s = .next t ∧
       t = { s with nextId := s.nextId + 1, answers := s.answers ++ [.peerAnswer r.srcDev false []] }) ∧
     (∀ ga p n, s.peerPieces r = some [(ga, p, n)] → n = r.size → p.peer = false →
       (r.kind = .read → ∃ t, exec (.peerRequest r) s = .next t ∧ t =
         { s with nextId := s.nextId + 1, meter := t.meter,
                  answers := s.answers ++ [.peerAnswer r.srcDev true (s.physRead p.via (s.keyId p.key) p.pa n)] }) ∧
       (∀ bs, r.kind = .write bs → n ≤ 4096 → s.confidential = false → s.keyOf = [] → s.l2 = [] → Memory.wf s.mem = true →
         ∃ t, exec (.peerRequest r) s = .next t ∧ t.answers = s.answers ++ [.peerAnswer r.srcDev true []] ∧
           (∀ k, k < n → t.mem.get (p.pa + k) = bs.getD k 0) ∧ (∀ y, y < p.pa ∨ p.pa + n ≤ y → t.mem.get y = s.mem.get y) ∧
           t.words = s.words ∧ t.cls = s.cls ∧ t.others = s.others)) ∧
     (∀ set off size ga p n, s.hasPartition r.vmid = true → s.replicaPieces r.vmid set off size = some [(ga, p, n)] → p.peer = false →
       ∃ t, exec (.replicaRequest r.vmid set off size) s = .next t ∧ t =
         { s with nextId := s.nextId + 1, meter := t.meter,
                  answers := s.answers ++ [.replica set off (s.physRead p.via (s.keyId p.key) p.pa n)] }))

/-- A power-on reset with verified flash boots in normal mode at device time 0, a requested reset in the mode asked for at the
time that it is: the firmware alone stands in memory, in sealed frames, with their bits of the seal map, and the Bursar runs
it at level 0; with no flash the device waits in recovery at step 3 (R443–R445, R456). MEASUREMENT_EXTEND of slots 4 to 15
hashes the old value and 64 bytes of memory into the slot, and no other slot or byte changes; boot's own slots are not
extended. ERROR_SNAPSHOT copies a device record to ERRREC0–7. KEY_REKEY replaces a tag's key in confidential mode only, and no
cache keeps a line under it. CORE_RESTART brings back a stopped core, unless it is out until the next reset (R449, R452, R455,
R457). What flash holds, and recovery without it, are the model's choices (log entry 4). -/
def Obligations.ResetsAndTrust : Prop :=
  (∀ (s : State) (i : Instr) (c : Bool), (i = .powerOnReset ∧ c = false) ∨ i = .resetRequest c →
     (s.flash = none → ∃ t, exec i s = .next t ∧ t.phase = .recovery ∧ t.failedAt = 3 ∧ t.mem = [] ∧ t.launches = [] ∧
       t.confidential = c) ∧
     (∀ f, (if i = .powerOnReset then s.flash else s.stagedFlash) = some f → s.certOk f = true → f.fwOk = true →
       ∃ t, exec i s = .next t ∧ t.phase = .running ∧ t.confidential = c ∧ t.failedAt = 0 ∧ t.others = [] ∧ t.forms = [] ∧
         t.launches = [] ∧ t.cls.level = 0 ∧ (t.cls.split 0).pc = (f.fwAt : Int) ∧ (t.cls.split 0).state = .ready ∧
         t.time = (if i = .powerOnReset then 0 else s.time) ∧ (t.word .dev 0x105).toNat = f.sealBase % 2 ^ 64 ∧
         (t.word .dev 0x106).toNat = f.sealLim % 2 ^ 64 ∧ t.tlb = [] ∧ t.l1 = [] ∧ t.saved = [] ∧
         (∀ k, k < f.firmware.length → t.sealed (f.fwAt / 4096 * 4096 + k) = true) ∧
         (let mapped (x : Nat) : Prop := ∃ k, k < f.firmware.length ∧ x = f.sealBase % 2 ^ 64 + (f.fwAt + k) / 4096 / 8
          (∀ k, k < f.firmware.length → mapped (f.fwAt + k) ∨ t.mem.get (f.fwAt + k) = f.firmware.getD k 0) ∧
          (∀ x, x < f.fwAt ∨ f.fwAt + f.firmware.length ≤ x → mapped x ∨ t.mem.get x = 0)))) ∧
  (∀ s : State,
     (∀ slot pa, 4 ≤ slot → slot < 16 → pa % 64 = 0 → pa + 64 ≤ Config.memLimit →
       ∃ t, exec (.measurementExtend slot pa) s = .next t ∧
         t.measure slot = BitVec.ofNat 512 (ofBytes (shake256
           (toBytes 64 (s.measure slot).toNat ++ s.hwRead ((s.word .dev 0x030).toNat % 64) pa 64) 64)) ∧
         (∀ n, n ≠ slot → t.measure n = s.measure n) ∧ { t with meas := s.meas } = s) ∧
     (∀ slot pa, slot < 4 ∨ 15 < slot → exec (.measurementExtend slot pa) s = .next s) ∧
     (∀ ix, ix < 256 → ∃ t, exec (.errorSnapshot none ix) s = .next t ∧
       (∀ k, k < 8 → t.word .dev (0x289 + k) = (s.devLog.getD ix 0).extractLsb' (64 * k) 64) ∧
       (t.word .dev 0x288).toNat = ix ∧ { t with words := s.words } = s) ∧
     (∀ tag, s.confidential = true → 0 < tag → tag < 64 → ∃ t, exec (.keyRekey tag) s = .next t ∧
       assoc t.keyGen tag = some ((assoc s.keyGen tag).getD 0 + 1) ∧ (∀ k, k ≠ tag → assoc t.keyGen k = assoc s.keyGen k) ∧
       t.icache = [] ∧ (∀ x ∈ t.l1, x.key % 64 ≠ tag) ∧ (∀ x ∈ t.l2, x.tag % 64 ≠ tag) ∧ (∀ x ∈ t.rdc, x.tag % 64 ≠ tag) ∧
       (∀ x ∈ t.pins, x.key % 64 ≠ tag) ∧
       ((∀ c ∈ s.allCls, c.mem = []) → s.engines = [] → s.saved = [] → t.words = s.words ∧ t.cls = s.cls ∧ t.others = s.others)) ∧
     (∀ tag, s.confidential = false ∨ tag = 0 ∨ 64 ≤ tag → exec (.keyRekey tag) s = .next s) ∧
     (∀ core, s.coreDead.contains core = false → ∃ t, exec (.coreRestart core) s = .next t ∧ core ∉ t.coreOff ∧
       (∀ c, c ≠ core → (c ∈ t.coreOff ↔ c ∈ s.coreOff)) ∧ { t with coreOff := s.coreOff } = s) ∧
     (∀ core, s.coreDead.contains core = true → exec (.coreRestart core) s = .next s))

/-- An error found in memory, by an access or by the patrol scrub, is logged; a corrected one leaves no mark and an uncorrectable
one marks the copy of its sector that the detecting unit holds; no byte changes. Above 105 °C the device throttles and every
launch lapses, at 115 °C it stops: classes end, what stays of them are accesses without a destination, and every launch is an
orphan; below 105 °C the throttle ends, and a stopped device without launches resets (R450, R453, R459). -/
def Obligations.ErrorsAndHeat : Prop :=
  ∀ s : State,
    (∀ (e : MemErr) (pa : Nat) (i : Instr), (i = .memoryError e ∧ e.site = .sector pa) ∨ i = .patrolScrub pa (some e) →
      ∃ t, exec i s = .next t ∧ t.devCount = s.devCount + 1 ∧
        t.cls = s.cls ∧ t.others = s.others ∧ t.words = s.words ∧ (∀ x, t.mem.get x = s.mem.get x) ∧
        (e.corrected = true → t.poison = s.poison ∧ t.l1 = s.l1 ∧ t.l2 = s.l2 ∧ t.rdc = s.rdc) ∧
        (e.corrected = false →
          let u := e.unit_.toNat
          let die := e.die.toNat % 4
          let at_ := pa / 32 * 32
          (u < 0x40 → t.poison = s.poison ∧ t.rdc = s.rdc ∧
            t.l1 = s.l1.map (fun x => if x.core = 64 * die + u ∧ x.pa = at_ then { x with mark := true } else x)) ∧
          (0x40 ≤ u → u < 0x50 → t.l1 = s.l1 ∧ t.rdc = s.rdc ∧
            ∀ x, x ∈ t.poison ↔ x ∈ s.poison ∨ (x = at_ ∧ (s.l2find pa).isSome = true)) ∧
          (u = 0x50 → t.poison = s.poison ∧ t.l1 = s.l1 ∧
            t.rdc = s.rdc.map (fun x => if x.die = die ∧ x.pa = at_ then { x with mark := true } else x)) ∧
          (0x50 < u → s.l2find pa = none → t.l1 = s.l1 ∧ t.rdc = s.rdc ∧ ∀ x, x ∈ t.poison ↔ x ∈ s.poison ∨ x = at_))) ∧
    (∀ pa, exec (.patrolScrub pa none) s = .next s) ∧
    (∀ temp, s.phase = .running →
      (1680 < temp → s.hot = false → ∃ t, exec (.thermalThrottle temp) s = .next t ∧ t.hot = true ∧ t.forms = s.forms ∧
        t.cls = s.cls ∧ t.others = s.others ∧ ∀ x, t.mem.get x = s.mem.get x) ∧
      (temp ≤ 1680 → exec (.thermalThrottle temp) s = .next s) ∧
      (1840 ≤ temp → ∃ t, exec (.thermalTrip temp) s = .next t ∧ t.phase = .tripped ∧ t.pending = [] ∧ t.saved = [] ∧
        (∀ f ∈ t.forms, f.launch ≠ 0) ∧ (∀ l ∈ t.launches, l.orphan = true ∧ l.noPlace = true) ∧
        ∀ c ∈ t.allCls, c.kind ≠ .bursar → c.status ≠ .live ∧ ∀ a ∈ c.mem, a.dest = [] ∧ a.sdest = none) ∧
      (temp < 1840 → exec (.thermalTrip temp) s = .next s) ∧
      (temp < 1680 → exec (.thermalRecovery temp) s = .next { s with hot := false }) ∧
      (1680 ≤ temp → exec (.thermalRecovery temp) s = .next s)) ∧
    (∀ temp, s.phase = .tripped → temp < 1680 →
      (s.launches = [] → exec (.thermalRecovery temp) s = exec (.resetRequest s.confidential) s) ∧
      (s.launches ≠ [] → exec (.thermalRecovery temp) s = .next s))
end

