-- ==== Sys2Proof/Laws/Arith.lean ====
section
/-!
SUPPORT. The integer functions of the meanings against the manual's sentences over exact integers (R66, R223, R224, R226, R232
to R239).
-/

namespace Sys2Proof.Machine

theorem clampS_val (w : Nat) (x : Int) : (clampS w x).val = BitVec.ofInt w (clampInt w x) := by
  have hp : (0 : Int) < 2 ^ (w - 1) := Int.pow_pos (by decide)
  unfold clampS clampInt
  simp only []
  split
  · exact congrArg (BitVec.ofInt w) (by omega)
  · split
    · exact congrArg (BitVec.ofInt w) (by omega)
    · exact congrArg (BitVec.ofInt w) (by omega)

theorem clampS_flags (w : Nat) (x : Int) : (clampS w x).flags = if clampInt w x ≠ x then fSAT else 0 := by
  have hp : (0 : Int) < 2 ^ (w - 1) := Int.pow_pos (by decide)
  unfold clampS clampInt
  simp only []
  split
  · rw [if_pos]; omega
  · split
    · rw [if_pos]; omega
    · rw [if_neg]; omega

theorem ofInt_toInt_of {w : Nat} (a : BitVec w) (x : Int) (h : x = a.toInt) : BitVec.ofInt w x = a := by
  rw [h, BitVec.ofInt_toInt]

theorem ofNat_toNat_of {w : Nat} (a : BitVec w) (x : Nat) (h : x = a.toNat) : BitVec.ofNat w x = a := by
  rw [h, BitVec.ofNat_toNat, BitVec.setWidth_eq]

theorem shl_spec {w : Nat} (a : BitVec w) (n : Nat) : a <<< n = BitVec.ofNat w (a.toNat * 2 ^ n) := by
  apply BitVec.eq_of_toNat_eq
  rw [BitVec.toNat_shiftLeft, BitVec.toNat_ofNat, Nat.shiftLeft_eq]

theorem shr_spec {w : Nat} (a : BitVec w) (n : Nat) : a >>> n = BitVec.ofNat w (a.toNat / 2 ^ n) := by
  apply BitVec.eq_of_toNat_eq
  rw [BitVec.toNat_ushiftRight, BitVec.toNat_ofNat, Nat.shiftRight_eq_div_pow]
  exact (Nat.mod_eq_of_lt (Nat.lt_of_le_of_lt (Nat.div_le_self _ _) a.isLt)).symm

theorem sra_spec {w : Nat} (a : BitVec w) (n : Nat) : a.sshiftRight n = BitVec.ofInt w (a.toInt / 2 ^ n) := by
  unfold BitVec.sshiftRight
  rw [Int.shiftRight_eq_div_pow]
  norm_cast

theorem alu_val {w : Nat} (fn : AluFn) (a b : BitVec w) : (alu fn a b).val = aluSpec fn a b := by
  cases fn
  case add => simp [alu, aluSpec, BitVec.ofInt_add]
  case sub =>
    simp only [alu, aluSpec]
    apply BitVec.eq_of_toInt_eq
    rw [BitVec.toInt_sub, BitVec.toInt_ofInt]
  case mul => simp [alu, aluSpec, BitVec.ofInt_mul]
  case mulh => rfl
  case mulhn => rfl
  case and => rfl
  case or => rfl
  case xor => rfl
  case shl => exact shl_spec a _
  case shr => exact shr_spec a _
  case sra => exact sra_spec a _
  case min =>
    simp only [alu, aluSpec, BitVec.slt, decide_eq_true_eq]
    split
    · rw [Int.min_eq_left (by omega), BitVec.ofInt_toInt]
    · rw [Int.min_eq_right (by omega), BitVec.ofInt_toInt]
  case max =>
    simp only [alu, aluSpec, BitVec.slt, decide_eq_true_eq]
    split
    · rw [Int.max_eq_right (by omega), BitVec.ofInt_toInt]
    · rw [Int.max_eq_left (by omega), BitVec.ofInt_toInt]
  case minn =>
    simp only [alu, aluSpec, BitVec.ult, decide_eq_true_eq]
    split
    · rw [Nat.min_eq_left (by omega)]; exact (ofNat_toNat_of a _ rfl).symm
    · rw [Nat.min_eq_right (by omega)]; exact (ofNat_toNat_of b _ rfl).symm
  case maxn =>
    simp only [alu, aluSpec, BitVec.ult, decide_eq_true_eq]
    split
    · rw [Nat.max_eq_right (by omega)]; exact (ofNat_toNat_of b _ rfl).symm
    · rw [Nat.max_eq_left (by omega)]; exact (ofNat_toNat_of a _ rfl).symm
  case adds => exact clampS_val w _

theorem alu_flags {w : Nat} (fn : AluFn) (a b : BitVec w) : (alu fn a b).flags = aluFlags fn a b := by
  cases fn
  case adds =>
    have := clampS_flags w (a.toInt + b.toInt)
    simpa [alu, aluFlags] using this
  all_goals rfl

theorem toNat_lt_iff {w : Nat} (a b : BitVec w) : a.ult b = decide (a.toNat < b.toNat) := rfl

theorem cmp_spec {w : Nat} (fn : CmpFn) (a b : BitVec w) : cmp fn a b = cmpSpec fn a b := by
  have ni (x y : Int) : (!decide (x < y)) = decide (y ≤ x) := by rw [← decide_not]; simp
  have nn (x y : Nat) : (!decide (x < y)) = decide (y ≤ x) := by rw [← decide_not]; simp
  cases fn <;> simp only [cmp, cmpSpec, BitVec.slt, BitVec.ult, ni, nn]
  · exact beq_eq_decide a b
  · simp [bne, beq_eq_decide]

theorem shiftK_spec {w : Nat} (k : ShiftKind) (a : BitVec w) (n : Nat) : shiftK k a n = shiftSpec k a n := by
  cases k
  · exact shl_spec a n
  · exact shr_spec a n
  · exact sra_spec a n

theorem mad_val (fn : MadFn) (a b c : Word) : (mad fn a b c).val = madSpec fn a b c := by
  cases fn
  case mad => simp [mad, madSpec, BitVec.ofInt_mul, BitVec.ofInt_add]
  case madh => simp [mad, madSpec, mulHi, BitVec.ofInt_add]
  case madhn =>
    simp only [mad, madSpec, mulHiN]
    apply BitVec.eq_of_toNat_eq
    simp [BitVec.toNat_add]
  case mads => exact clampS_val 32 _

theorem mad_flags (fn : MadFn) (a b c : Word) : (mad fn a b c).flags = madFlags fn a b c := by
  cases fn
  case mads =>
    have := clampS_flags 32 (a.toInt * b.toInt + c.toInt)
    simpa [mad, madFlags] using this
  all_goals rfl

theorem word_of_toNat (a : Word) (x : Nat) (h : a.toNat = x % 2 ^ 32) : a = BitVec.ofNat 32 x :=
  BitVec.eq_of_toNat_eq (by rw [h, BitVec.toNat_ofNat])

theorem append_toNat {m n : Nat} (x : BitVec m) (y : BitVec n) : (x ++ y).toNat = x.toNat * 2 ^ n + y.toNat := by
  rw [BitVec.toNat_append, Nat.shiftLeft_eq, Nat.mul_comm, ← Nat.two_pow_add_eq_or_of_lt y.isLt]

theorem vpack_spec (fn : PackFn) (a b d : Word) : vpack fn a b d = packSpec fn a b d := by
  have ha := a.isLt
  have hb := b.isLt
  have hd := d.isLt
  cases fn <;> unfold vpack packSpec <;> simp only [] <;> apply word_of_toNat <;>
    simp only [append_toNat, BitVec.extractLsb'_toNat, Nat.shiftRight_eq_div_pow] <;> omega

theorem clz_le (n x : Nat) : clz n x ≤ n := by
  induction n with
  | zero => simp [clz]
  | succ n ih => unfold clz; split <;> omega

theorem clz_eq (n x : Nat) (hx : x < 2 ^ n) (h0 : x ≠ 0) : clz n x = n - 1 - Nat.log2 x := by
  induction n with
  | zero => omega
  | succ n ih =>
    unfold clz
    by_cases ht : x.testBit n = true
    · rw [if_pos ht]
      have : Nat.log2 x = n := by
        have h1 : 2 ^ n ≤ x := Nat.ge_two_pow_of_testBit ht
        exact (Nat.log2_eq_iff h0).mpr ⟨h1, hx⟩
      omega
    · rw [if_neg ht]
      have hlt : x < 2 ^ n := by
        by_contra hge
        apply ht
        have h2 : x / 2 ^ n = 1 := by
          have : x / 2 ^ n < 2 := (Nat.div_lt_iff_lt_mul (by positivity)).mpr (by rw [Nat.pow_succ] at hx; omega)
          have : 1 ≤ x / 2 ^ n := (Nat.le_div_iff_mul_le (by positivity)).mpr (by omega)
          omega
        rw [Nat.testBit_eq_decide_div_mod_eq, h2]
        simp
      rw [ih hlt]
      have : Nat.log2 x < n := (Nat.log2_lt h0).mpr hlt
      omega

theorem popcount_eq (n x : Nat) : popcount n x = ((List.range n).filter (fun j => x.testBit j)).length := by
  induction n with
  | zero => rfl
  | succ n ih =>
    unfold popcount at ih ⊢
    rw [List.range_succ, List.filter_append, List.length_append, ← ih, List.foldl_append]
    by_cases h : x.testBit n = true
    · simp [h]
    · simp only [Bool.not_eq_true] at h; simp [h]

theorem vunary_spec (fn : VunFn) (a : Word) : vunary fn a = vunSpec fn a := by
  have ha := a.isLt
  cases fn <;> unfold vunary vunSpec <;> simp only []
  · exact (BitVec.xor_allOnes (x := a)).symm
  · apply BitVec.eq_of_toInt_eq
    rw [BitVec.toInt_neg, BitVec.toInt_ofInt]
  · apply BitVec.eq_of_toInt_eq
    rw [BitVec.toInt_ofInt]
    have h0 : BitVec.toInt (0 : Word) = 0 := rfl
    simp only [BitVec.slt, h0, decide_eq_true_eq]
    split
    · rw [BitVec.toInt_neg]; congr 1; omega
    · have : ((a.toInt.natAbs : Nat) : Int) = a.toInt := by omega
      rw [this]
      exact (BitVec.toInt_bmod_cancel a).symm
  · by_cases h : a = 0
    · subst h; decide
    · rw [if_neg h, clz_eq 32 a.toNat ha]
      intro h0; exact h (BitVec.eq_of_toNat_eq (by simpa using h0))
  · rw [popcount_eq]; rfl
  · apply BitVec.eq_of_getLsbD_eq
    intro i hi
    rw [BitVec.getLsbD_ofNat, BitVec.getLsbD_reverse, BitVec.getMsbD, Nat.testBit_ofBits_lt _ _ hi]
  · rfl
  · rfl
  · apply word_of_toNat; simp
  · apply word_of_toNat; simp

end Sys2Proof.Machine
end

