-- ==== Sys2Proof/Laws/Encoding.lean ====
section
/-!
SUPPORT. Fields of the words of R180: each field of a word built from fields reads back, each function's code names it again, and a
PFXP word gives back its fields.
-/

namespace Sys2Proof.Laws

theorem fieldNat {n : Nat} (x : BitVec n) (lo w : Nat) : (x.extractLsb' lo w).toNat = x.toNat / 2 ^ lo % 2 ^ w := by
  rw [BitVec.extractLsb'_toNat, Nat.shiftRight_eq_div_pow]

theorem appendNat {m n : Nat} (x : BitVec m) (y : BitVec n) : (x ++ y).toNat = x.toNat * 2 ^ n + y.toNat := by
  rw [BitVec.toNat_append, Nat.shiftLeft_eq, Nat.mul_comm x.toNat, ← Nat.two_pow_add_eq_or_of_lt y.isLt, Nat.mul_comm]

/-! ### Fields of words -/

@[simp] theorem wOp_mkR (op rd ra rb fn) : wOp (mkR op rd ra rb fn) = op := by
  apply BitVec.eq_of_toNat_eq
  simp only [wOp, mkR, fieldNat, appendNat]
  have := op.isLt; have := rd.isLt; have := ra.isLt; have := rb.isLt; have := fn.isLt
  omega
@[simp] theorem wRd_mkR (op rd ra rb fn) : wRd (mkR op rd ra rb fn) = rd := by
  apply BitVec.eq_of_toNat_eq
  simp only [wRd, mkR, fieldNat, appendNat]
  have := op.isLt; have := rd.isLt; have := ra.isLt; have := rb.isLt; have := fn.isLt
  omega
@[simp] theorem wRa_mkR (op rd ra rb fn) : wRa (mkR op rd ra rb fn) = ra := by
  apply BitVec.eq_of_toNat_eq
  simp only [wRa, mkR, fieldNat, appendNat]
  have := op.isLt; have := rd.isLt; have := ra.isLt; have := rb.isLt; have := fn.isLt
  omega
@[simp] theorem wRb_mkR (op rd ra rb fn) : wRb (mkR op rd ra rb fn) = rb := by
  apply BitVec.eq_of_toNat_eq
  simp only [wRb, mkR, fieldNat, appendNat]
  have := op.isLt; have := rd.isLt; have := ra.isLt; have := rb.isLt; have := fn.isLt
  omega
@[simp] theorem wFn_mkR (op rd ra rb fn) : wFn (mkR op rd ra rb fn) = fn := by
  apply BitVec.eq_of_toNat_eq
  simp only [wFn, mkR, fieldNat, appendNat]
  have := op.isLt; have := rd.isLt; have := ra.isLt; have := rb.isLt; have := fn.isLt
  omega
@[simp] theorem wOp_mkI (op rd ra imm) : wOp (mkI op rd ra imm) = op := by
  apply BitVec.eq_of_toNat_eq
  simp only [wOp, mkI, fieldNat, appendNat]
  have := op.isLt; have := rd.isLt; have := ra.isLt; have := imm.isLt
  omega
@[simp] theorem wRd_mkI (op rd ra imm) : wRd (mkI op rd ra imm) = rd := by
  apply BitVec.eq_of_toNat_eq
  simp only [wRd, mkI, fieldNat, appendNat]
  have := op.isLt; have := rd.isLt; have := ra.isLt; have := imm.isLt
  omega
@[simp] theorem wRa_mkI (op rd ra imm) : wRa (mkI op rd ra imm) = ra := by
  apply BitVec.eq_of_toNat_eq
  simp only [wRa, mkI, fieldNat, appendNat]
  have := op.isLt; have := rd.isLt; have := ra.isLt; have := imm.isLt
  omega
@[simp] theorem wImm11_mkI (op rd ra imm) : wImm11 (mkI op rd ra imm) = imm := by
  apply BitVec.eq_of_toNat_eq
  simp only [wImm11, mkI, fieldNat, appendNat]
  have := op.isLt; have := rd.isLt; have := ra.isLt; have := imm.isLt
  omega
@[simp] theorem wOp_mkJ (op imm) : wOp (mkJ op imm) = op := by
  apply BitVec.eq_of_toNat_eq
  simp only [wOp, mkJ, fieldNat, appendNat]
  have := op.isLt; have := imm.isLt
  omega
@[simp] theorem wImm25_mkJ (op imm) : wImm25 (mkJ op imm) = imm := by
  apply BitVec.eq_of_toNat_eq
  simp only [wImm25, mkJ, fieldNat, appendNat]
  have := op.isLt; have := imm.isLt
  omega
@[simp] theorem wOp_mkU (op rd imm) : wOp (mkU op rd imm) = op := by
  apply BitVec.eq_of_toNat_eq
  simp only [wOp, mkU, fieldNat, appendNat]
  have := op.isLt; have := rd.isLt; have := imm.isLt
  omega
@[simp] theorem wRd_mkU (op rd imm) : wRd (mkU op rd imm) = rd := by
  apply BitVec.eq_of_toNat_eq
  simp only [wRd, mkU, fieldNat, appendNat]
  have := op.isLt; have := rd.isLt; have := imm.isLt
  omega
@[simp] theorem wImm18_mkU (op rd imm) : wImm18 (mkU op rd imm) = imm := by
  apply BitVec.eq_of_toNat_eq
  simp only [wImm18, mkU, fieldNat, appendNat]
  have := op.isLt; have := rd.isLt; have := imm.isLt
  omega
@[simp] theorem wOp_mkB (op k cond off) : wOp (mkB op k cond off) = op := by
  apply BitVec.eq_of_toNat_eq
  simp only [wOp, mkB, fieldNat, appendNat]
  have := op.isLt; have := k.isLt; have := cond.isLt; have := off.isLt
  omega
@[simp] theorem wOff19_mkB (op k cond off) : wOff19 (mkB op k cond off) = off := by
  apply BitVec.eq_of_toNat_eq
  simp only [wOff19, mkB, fieldNat, appendNat]
  have := op.isLt; have := k.isLt; have := cond.isLt; have := off.isLt
  omega
@[simp] theorem predicate_mkB (op k cond off) : (mkB op k cond off).extractLsb' 22 3 = k := by
  apply BitVec.eq_of_toNat_eq
  simp only [mkB, fieldNat, appendNat]
  have := op.isLt; have := k.isLt; have := cond.isLt; have := off.isLt
  omega
@[simp] theorem condition_mkB (op k cond off) : (mkB op k cond off).extractLsb' 19 3 = cond := by
  apply BitVec.eq_of_toNat_eq
  simp only [mkB, fieldNat, appendNat]
  have := op.isLt; have := k.isLt; have := cond.isLt; have := off.isLt
  omega

/-! ### PFXP words (R186) -/

@[simp] theorem wOp_pfxp (q : Pfxp) : wOp q.toWord = 0x0E := by
  rcases q with ⟨p, i, po, sc, rb⟩
  apply BitVec.eq_of_toNat_eq
  simp only [wOp, Pfxp.toWord, fieldNat, appendNat]
  have := p.isLt; have := po.isLt; have := sc.isLt; have := (BitVec.ofBool i).isLt; have := (BitVec.ofBool rb).isLt
  simp at *
  omega

@[simp] theorem ofWord_pfxp (q : Pfxp) : Pfxp.ofWord q.toWord = some q := by
  rcases q with ⟨p, i, po, sc, rb⟩
  simp only [Pfxp.ofWord, Pfxp.toWord]
  cases i <;> cases rb <;> revert p po sc <;> decide +kernel

/-! ### Function values (Table 9-9) -/

@[simp] theorem AluFn.ofCode_code4 (f : AluFn) : AluFn.ofCode (f.code 4) = some f := by cases f <;> rfl
@[simp] theorem CmpFn.ofCode_code4 (f : CmpFn) : CmpFn.ofCode (f.code 4) = some f := by cases f <;> rfl
@[simp] theorem MadFn.ofCode_code2 (f : MadFn) : MadFn.ofCode (f.code 2) = some f := by cases f <;> rfl
@[simp] theorem MadFn.ofCode_code3 (f : MadFn) : MadFn.ofCode (f.code 3) = some f := by cases f <;> rfl
@[simp] theorem MadFn.ofCode_code4 (f : MadFn) : MadFn.ofCode (f.code 4) = some f := by cases f <;> rfl
@[simp] theorem VunFn.ofCode_code4 (f : VunFn) : VunFn.ofCode (f.code 4) = some f := by cases f <;> rfl
@[simp] theorem PackFn.ofCode_code2 (f : PackFn) : PackFn.ofCode (f.code 2) = some f := by cases f <;> rfl
@[simp] theorem PackFn.ofCode_code3 (f : PackFn) : PackFn.ofCode (f.code 3) = some f := by cases f <;> rfl
@[simp] theorem PackFn.ofCode_code4 (f : PackFn) : PackFn.ofCode (f.code 4) = some f := by cases f <;> rfl
@[simp] theorem VoteFn.ofCode_code2 (f : VoteFn) : VoteFn.ofCode (f.code 2) = some f := by cases f <;> rfl
@[simp] theorem VoteFn.ofCode_code3 (f : VoteFn) : VoteFn.ofCode (f.code 3) = some f := by cases f <;> rfl
@[simp] theorem VoteFn.ofCode_code4 (f : VoteFn) : VoteFn.ofCode (f.code 4) = some f := by cases f <;> rfl
@[simp] theorem ShflOp.ofCode_code2 (f : ShflOp) : ShflOp.ofCode (f.code 2) = some f := by cases f <;> rfl
@[simp] theorem ShflOp.ofCode_code3 (f : ShflOp) : ShflOp.ofCode (f.code 3) = some f := by cases f <;> rfl
@[simp] theorem ShflOp.ofCode_code4 (f : ShflOp) : ShflOp.ofCode (f.code 4) = some f := by cases f <;> rfl
@[simp] theorem KopFn.ofCode_code4 (f : KopFn) : KopFn.ofCode (f.code 4) = some f := by cases f <;> rfl
@[simp] theorem FaluFn.ofCode_code4 (f : FaluFn) : FaluFn.ofCode (f.code 4) = some f := by cases f <;> rfl
@[simp] theorem FmaFn.ofCode_code2 (f : FmaFn) : FmaFn.ofCode (f.code 2) = some f := by cases f <;> rfl
@[simp] theorem FmaFn.ofCode_code3 (f : FmaFn) : FmaFn.ofCode (f.code 3) = some f := by cases f <;> rfl
@[simp] theorem FmaFn.ofCode_code4 (f : FmaFn) : FmaFn.ofCode (f.code 4) = some f := by cases f <;> rfl
@[simp] theorem FcmpFn.ofCode_code3 (f : FcmpFn) : FcmpFn.ofCode (f.code 3) = some f := by cases f <;> rfl
@[simp] theorem FcmpFn.ofCode_code4 (f : FcmpFn) : FcmpFn.ofCode (f.code 4) = some f := by cases f <;> rfl
@[simp] theorem FunFn.ofCode_code4 (f : FunFn) : FunFn.ofCode (f.code 4) = some f := by cases f <;> rfl
@[simp] theorem HaluFn.ofCode_code3 (f : HaluFn) : HaluFn.ofCode (f.code 3) = some f := by cases f <;> rfl
@[simp] theorem HaluFn.ofCode_code4 (f : HaluFn) : HaluFn.ofCode (f.code 4) = some f := by cases f <;> rfl
@[simp] theorem CvtFn.ofCode_code4 (f : CvtFn) : CvtFn.ofCode (f.code 4) = some f := by cases f <;> rfl
@[simp] theorem ExpdKind.ofCode_code3 (f : ExpdKind) : ExpdKind.ofCode (f.code 3) = some f := by cases f <;> rfl
@[simp] theorem ExpdKind.ofCode_code4 (f : ExpdKind) : ExpdKind.ofCode (f.code 4) = some f := by cases f <;> rfl
@[simp] theorem RedFn.ofCode_code3 (f : RedFn) : RedFn.ofCode (f.code 3) = some f := by cases f <;> rfl
@[simp] theorem RedFn.ofCode_code4 (f : RedFn) : RedFn.ofCode (f.code 4) = some f := by cases f <;> rfl
@[simp] theorem RedfFn.ofCode_code2 (f : RedfFn) : RedfFn.ofCode (f.code 2) = some f := by cases f <;> rfl
@[simp] theorem RedfFn.ofCode_code3 (f : RedfFn) : RedfFn.ofCode (f.code 3) = some f := by cases f <;> rfl
@[simp] theorem RedfFn.ofCode_code4 (f : RedfFn) : RedfFn.ofCode (f.code 4) = some f := by cases f <;> rfl
@[simp] theorem ShiftKind.ofCode_code2 (f : ShiftKind) : ShiftKind.ofCode (f.code 2) = some f := by cases f <;> rfl
@[simp] theorem ShiftKind.ofCode_code3 (f : ShiftKind) : ShiftKind.ofCode (f.code 3) = some f := by cases f <;> rfl
@[simp] theorem ShiftKind.ofCode_code4 (f : ShiftKind) : ShiftKind.ofCode (f.code 4) = some f := by cases f <;> rfl
@[simp] theorem BuCond.ofCode_code2 (f : BuCond) : BuCond.ofCode (f.code 2) = some f := by cases f <;> rfl
@[simp] theorem BuCond.ofCode_code3 (f : BuCond) : BuCond.ofCode (f.code 3) = some f := by cases f <;> rfl
@[simp] theorem BuCond.ofCode_code4 (f : BuCond) : BuCond.ofCode (f.code 4) = some f := by cases f <;> rfl
@[simp] theorem FenceKind.ofCode_code2 (f : FenceKind) : FenceKind.ofCode (f.code 2) = some f := by cases f <;> rfl
@[simp] theorem FenceKind.ofCode_code3 (f : FenceKind) : FenceKind.ofCode (f.code 3) = some f := by cases f <;> rfl
@[simp] theorem FenceKind.ofCode_code4 (f : FenceKind) : FenceKind.ofCode (f.code 4) = some f := by cases f <;> rfl
@[simp] theorem WaitCond.ofCode_code3 (f : WaitCond) : WaitCond.ofCode (f.code 3) = some f := by cases f <;> rfl
@[simp] theorem WaitCond.ofCode_code4 (f : WaitCond) : WaitCond.ofCode (f.code 4) = some f := by cases f <;> rfl
@[simp] theorem Width.ofCode_code2 (f : Width) : Width.ofCode (f.code 2) = some f := by cases f <;> rfl
@[simp] theorem Width.ofCode_code3 (f : Width) : Width.ofCode (f.code 3) = some f := by cases f <;> rfl
@[simp] theorem Width.ofCode_code4 (f : Width) : Width.ofCode (f.code 4) = some f := by cases f <;> rfl

end Sys2Proof.Laws
end

