-- ==== Sys2Proof/Laws/Memory.lean ====
section
/-!
SUPPORT. The laws of a byte list: reading after writing, and the canonical form that every operation on memory keeps (log entry 2).
-/

namespace Sys2Proof.Machine

/-- What the canonical form says of a list with a first entry. -/
theorem Memory.wf_cons {k : Nat} {v : Byte} {m : Memory} :
    Memory.wf ((k, v) :: m) = true ↔ v ≠ 0 ∧ (∀ c ∈ m, k < c.1) ∧ Memory.wf m = true := by
  simp [Memory.wf, and_assoc]

/-- An address below every entry reads as what an unlisted address reads as. -/
theorem Memory.get_below {m : Memory} {a : Nat} (h : ∀ c ∈ m, a < c.1) : m.get a = 0 := by
  induction m with
  | nil => rfl
  | cons x m ih =>
    have hx := h x (by simp)
    rw [Memory.get, if_neg (by omega)]
    exact ih (fun c hc => h c (List.mem_cons_of_mem _ hc))

theorem Memory.get_set_other (m : Memory) (a x : Nat) (b : Byte) (h : x ≠ a) : (m.set a b).get x = m.get x := by
  induction m with
  | nil => by_cases hb : b = 0#8 <;> simp [Memory.set, Memory.get, hb, h.symm]
  | cons c m ih =>
    obtain ⟨k, v⟩ := c
    by_cases h1 : a < k
    · by_cases hb : b = 0#8 <;> simp [Memory.set, h1, hb, Memory.get, h.symm]
    · by_cases h2 : a = k
      · subst h2
        by_cases hb : b = 0#8 <;> simp [Memory.set, hb, Memory.get, h.symm]
      · simp [Memory.set, h1, h2, Memory.get, ih]

theorem Memory.get_set_self (m : Memory) (a : Nat) (b : Byte) (h : Memory.wf m = true) : (m.set a b).get a = b := by
  induction m with
  | nil => by_cases hb : b = 0#8 <;> simp [Memory.set, Memory.get, hb]
  | cons c m ih =>
    obtain ⟨k, v⟩ := c
    obtain ⟨-, hk, hm⟩ := Memory.wf_cons.1 h
    by_cases h1 : a < k
    · by_cases hb : b = 0#8
      · have hz : Memory.get m a = 0 := Memory.get_below fun c hc => Nat.lt_trans h1 (hk c hc)
        simp [Memory.set, h1, hb, Memory.get, hz, show ¬ k = a by omega]
      · simp [Memory.set, h1, hb, Memory.get]
    · by_cases h2 : a = k
      · subst h2
        by_cases hb : b = 0#8
        · simp [Memory.set, hb, Memory.get_below hk]
        · simp [Memory.set, hb, Memory.get]
      · simp [Memory.set, h1, h2, Memory.get, Ne.symm h2, ih hm]

theorem Memory.mem_set {m : Memory} {a : Nat} {b : Byte} {c : Nat × Byte} (h : c ∈ m.set a b) : c = (a, b) ∨ c ∈ m := by
  induction m with
  | nil => by_cases hb : b = 0#8 <;> simp_all [Memory.set]
  | cons x m ih =>
    obtain ⟨k, v⟩ := x
    by_cases h1 : a < k
    · by_cases hb : b = 0#8 <;> simp_all [Memory.set]
    · by_cases h2 : a = k
      · by_cases hb : b = 0
        · rw [Memory.set, if_neg h1, if_pos h2, if_pos hb] at h; exact .inr (List.mem_cons_of_mem _ h)
        · rw [Memory.set, if_neg h1, if_pos h2, if_neg hb] at h
          rcases List.mem_cons.1 h with h | h
          · exact .inl h
          · exact .inr (List.mem_cons_of_mem _ h)
      · rw [Memory.set, if_neg h1, if_neg h2] at h
        rcases List.mem_cons.1 h with h | h
        · exact .inr (h ▸ List.mem_cons_self)
        · exact (ih h).imp id (List.mem_cons_of_mem _)

theorem Memory.set_wf (m : Memory) (a : Nat) (b : Byte) (h : Memory.wf m = true) : Memory.wf (m.set a b) = true := by
  induction m with
  | nil => by_cases hb : b = 0#8 <;> simp [Memory.set, Memory.wf, hb]
  | cons x m ih =>
    obtain ⟨k, v⟩ := x
    obtain ⟨hv, hk, hm⟩ := Memory.wf_cons.1 h
    by_cases h1 : a < k
    · by_cases hb : b = 0
      · rw [Memory.set, if_pos h1, if_pos hb]; exact h
      · rw [Memory.set, if_pos h1, if_neg hb]
        refine Memory.wf_cons.2 ⟨hb, fun c hc => ?_, h⟩
        rcases List.mem_cons.1 hc with rfl | hc
        · exact h1
        · exact Nat.lt_trans h1 (hk c hc)
    · by_cases h2 : a = k
      · subst h2
        by_cases hb : b = 0
        · rw [Memory.set, if_neg h1, if_pos rfl, if_pos hb]; exact hm
        · rw [Memory.set, if_neg h1, if_pos rfl, if_neg hb]; exact Memory.wf_cons.2 ⟨hb, hk, hm⟩
      · rw [Memory.set, if_neg h1, if_neg h2]
        refine Memory.wf_cons.2 ⟨hv, fun c hc => ?_, ih hm⟩
        rcases Memory.mem_set hc with rfl | hc
        · show k < a; omega
        · exact hk c hc

/-! ### Several bytes -/

theorem Memory.write_wf (m : Memory) (a : Nat) (bs : List Byte) (h : Memory.wf m = true) : Memory.wf (m.write a bs) = true := by
  induction bs generalizing m a with
  | nil => exact h
  | cons b bs ih => exact ih _ _ (Memory.set_wf m a b h)

theorem Memory.get_write_outside (m : Memory) (a x : Nat) (bs : List Byte) (h : x < a ∨ a + bs.length ≤ x) :
    (m.write a bs).get x = m.get x := by
  induction bs generalizing m a with
  | nil => rfl
  | cons b bs ih =>
    simp only [List.length_cons] at h
    rw [Memory.write, ih _ _ (by omega), Memory.get_set_other _ _ _ _ (by omega)]

theorem Memory.get_write (m : Memory) (a i : Nat) (bs : List Byte) (h : Memory.wf m = true) (hi : i < bs.length) :
    (m.write a bs).get (a + i) = bs.getD i 0 := by
  induction bs generalizing m a i with
  | nil => simp at hi
  | cons b bs ih =>
    rw [Memory.write]
    cases i with
    | zero => rw [Memory.get_write_outside _ _ _ _ (by omega)]; exact Memory.get_set_self m a b h
    | succ i =>
      have := ih (m.set a b) (a + 1) i (Memory.set_wf m a b h) (by simpa using hi)
      rw [show a + (i + 1) = a + 1 + i by omega, this]; rfl

theorem Memory.filter_wf (m : Memory) (p : Nat × Byte → Bool) (h : Memory.wf m = true) : Memory.wf (m.filter p) = true := by
  induction m with
  | nil => rfl
  | cons x m ih =>
    obtain ⟨k, v⟩ := x
    obtain ⟨hv, hk, hm⟩ := Memory.wf_cons.1 h
    rw [List.filter_cons]
    split
    · exact Memory.wf_cons.2 ⟨hv, fun c hc => hk c (List.mem_of_mem_filter hc), ih hm⟩
    · exact ih hm

theorem Memory.clear_wf (m : Memory) (a n : Nat) (h : Memory.wf m = true) : Memory.wf (m.clear a n) = true :=
  Memory.filter_wf m _ h

/-- Cleared bytes read as 0, and no other byte changes. -/
theorem Memory.get_clear (m : Memory) (a n x : Nat) : (m.clear a n).get x = if a ≤ x ∧ x < a + n then 0 else m.get x := by
  induction m with
  | nil => simp [Memory.clear, Memory.get]
  | cons c m ih =>
    obtain ⟨k, v⟩ := c
    unfold Memory.clear at ih ⊢
    rw [List.filter_cons]
    by_cases hk : k < a ∨ a + n ≤ k
    · rw [if_pos (by simpa using hk), Memory.get, Memory.get, ih]
      by_cases hx : k = x
      · rw [if_pos hx, if_pos hx, if_neg (by omega)]
      · rw [if_neg hx, if_neg hx]
    · rw [if_neg (by simpa using hk), ih, Memory.get]
      by_cases hx : k = x
      · rw [if_pos (by omega), if_pos (by omega)]
      · rw [if_neg hx]

/-! ### Tables of pairs -/

theorem assoc_assocDel {α β : Type} [DecidableEq α] (l : List (α × β)) (a x : α) :
    assoc (assocDel l a) x = if x = a then none else assoc l x := by
  unfold assoc assocDel
  rw [List.find?_filter]
  by_cases h : x = a
  · subst h; simp
  · rw [if_neg h]
    congr 2
    funext y
    by_cases hy : y.1 = x <;> simp [hy, h]

theorem assoc_assocSet {α β : Type} [DecidableEq α] (l : List (α × β)) (a x : α) (b : β) :
    assoc (assocSet l a b) x = if x = a then some b else assoc l x := by
  have hd := assoc_assocDel l a x
  by_cases h : x = a
  · subst h; simp [assoc, assocSet]
  · rw [if_neg h] at hd ⊢
    rw [← hd]
    simp [assoc, assocSet, assocDel, Ne.symm h]

end Sys2Proof.Machine
end

