-- ==== Sys2Proof/Laws/State.lean ====
section
/-!
SUPPORT. What each named update of the state leaves as it was, and what a register reads as after it.
-/

namespace Sys2Proof.Machine

/-! ### Updates inside the issuing class: everything outside it stays -/

theorem setS_outside (s : State) (r : Reg) (x : DWord) : { s.setS r x with cls := s.cls } = s := rfl
theorem orFlags_outside (s : State) (fl : Word) : { s.orFlags fl with cls := s.cls } = s := rfl
theorem modCur_outside (s : State) (f : Split → Split) : { s.modCur f with cls := s.cls } = s := rfl
theorem setV_outside (s : State) (r : Reg) (eff : Mask) (f : Nat → Word) : { s.setV r eff f with cls := s.cls } = s := by
  unfold State.setV; split <;> rfl
theorem setK_outside (s : State) (k : Reg3) (eff m : Mask) : { s.setK k eff m with cls := s.cls } = s := by
  unfold State.setK; split <;> rfl

@[simp] theorem setS_mem (s : State) (r : Reg) (x : DWord) : (s.setS r x).mem = s.mem := rfl
@[simp] theorem setS_iss (s : State) (r : Reg) (x : DWord) : (s.setS r x).iss = s.iss := rfl
@[simp] theorem setS_words (s : State) (r : Reg) (x : DWord) : (s.setS r x).words = s.words := rfl
@[simp] theorem setS_time (s : State) (r : Reg) (x : DWord) : (s.setS r x).time = s.time := rfl
@[simp] theorem setS_pending (s : State) (r : Reg) (x : DWord) : (s.setS r x).pending = s.pending := rfl
@[simp] theorem orFlags_mem (s : State) (fl : Word) : (s.orFlags fl).mem = s.mem := rfl
@[simp] theorem orFlags_iss (s : State) (fl : Word) : (s.orFlags fl).iss = s.iss := rfl
@[simp] theorem orFlags_words (s : State) (fl : Word) : (s.orFlags fl).words = s.words := rfl
@[simp] theorem orFlags_time (s : State) (fl : Word) : (s.orFlags fl).time = s.time := rfl
@[simp] theorem orFlags_pending (s : State) (fl : Word) : (s.orFlags fl).pending = s.pending := rfl
@[simp] theorem modCur_mem (s : State) (f : Split → Split) : (s.modCur f).mem = s.mem := rfl
@[simp] theorem modCur_iss (s : State) (f : Split → Split) : (s.modCur f).iss = s.iss := rfl
@[simp] theorem modCur_words (s : State) (f : Split → Split) : (s.modCur f).words = s.words := rfl
@[simp] theorem modCur_time (s : State) (f : Split → Split) : (s.modCur f).time = s.time := rfl
@[simp] theorem modCur_pending (s : State) (f : Split → Split) : (s.modCur f).pending = s.pending := rfl
@[simp] theorem setV_mem (s : State) (r : Reg) (e : Mask) (f : Nat → Word) : (s.setV r e f).mem = s.mem := by
  unfold State.setV; split <;> rfl
@[simp] theorem setV_iss (s : State) (r : Reg) (e : Mask) (f : Nat → Word) : (s.setV r e f).iss = s.iss := by
  unfold State.setV; split <;> rfl
@[simp] theorem setV_words (s : State) (r : Reg) (e : Mask) (f : Nat → Word) : (s.setV r e f).words = s.words := by
  unfold State.setV; split <;> rfl
@[simp] theorem setK_mem (s : State) (k : Reg3) (e m : Mask) : (s.setK k e m).mem = s.mem := by
  unfold State.setK; split <;> rfl
@[simp] theorem setK_iss (s : State) (k : Reg3) (e m : Mask) : (s.setK k e m).iss = s.iss := by
  unfold State.setK; split <;> rfl
@[simp] theorem setK_words (s : State) (k : Reg3) (e m : Mask) : (s.setK k e m).words = s.words := by
  unfold State.setK; split <;> rfl

@[simp] theorem setS_others (s : State) (r : Reg) (x : DWord) : (s.setS r x).others = s.others := rfl
@[simp] theorem setS_forms (s : State) (r : Reg) (x : DWord) : (s.setS r x).forms = s.forms := rfl
@[simp] theorem setS_launches (s : State) (r : Reg) (x : DWord) : (s.setS r x).launches = s.launches := rfl
@[simp] theorem setS_l1 (s : State) (r : Reg) (x : DWord) : (s.setS r x).l1 = s.l1 := rfl
@[simp] theorem setS_l2 (s : State) (r : Reg) (x : DWord) : (s.setS r x).l2 = s.l2 := rfl
@[simp] theorem setS_rdc (s : State) (r : Reg) (x : DWord) : (s.setS r x).rdc = s.rdc := rfl
@[simp] theorem setS_pins (s : State) (r : Reg) (x : DWord) : (s.setS r x).pins = s.pins := rfl
@[simp] theorem setS_tlb (s : State) (r : Reg) (x : DWord) : (s.setS r x).tlb = s.tlb := rfl
@[simp] theorem setS_icache (s : State) (r : Reg) (x : DWord) : (s.setS r x).icache = s.icache := rfl
@[simp] theorem setS_misses (s : State) (r : Reg) (x : DWord) : (s.setS r x).misses = s.misses := rfl
@[simp] theorem setS_sealMap (s : State) (r : Reg) (x : DWord) : (s.setS r x).sealMap = s.sealMap := rfl
@[simp] theorem setS_images (s : State) (r : Reg) (x : DWord) : (s.setS r x).images = s.images := rfl
@[simp] theorem setS_seq (s : State) (r : Reg) (x : DWord) : (s.setS r x).seq = s.seq := rfl
@[simp] theorem setS_engines (s : State) (r : Reg) (x : DWord) : (s.setS r x).engines = s.engines := rfl
@[simp] theorem setS_stores (s : State) (r : Reg) (x : DWord) : (s.setS r x).stores = s.stores := rfl
@[simp] theorem setS_creqs (s : State) (r : Reg) (x : DWord) : (s.setS r x).creqs = s.creqs := rfl
@[simp] theorem setS_hslots (s : State) (r : Reg) (x : DWord) : (s.setS r x).hslots = s.hslots := rfl
@[simp] theorem setS_queue (s : State) (r : Reg) (x : DWord) : (s.setS r x).queue = s.queue := rfl
@[simp] theorem setS_holder (s : State) (r : Reg) (x : DWord) : (s.setS r x).holder = s.holder := rfl
@[simp] theorem setS_phase (s : State) (r : Reg) (x : DWord) : (s.setS r x).phase = s.phase := rfl
@[simp] theorem setS_agenda (s : State) (r : Reg) (x : DWord) : (s.setS r x).agenda = s.agenda := rfl
@[simp] theorem setS_nextId (s : State) (r : Reg) (x : DWord) : (s.setS r x).nextId = s.nextId := rfl
@[simp] theorem setS_free (s : State) (r : Reg) (x : DWord) : (s.setS r x).free = s.free := rfl
@[simp] theorem orFlags_others (s : State) (fl : Word) : (s.orFlags fl).others = s.others := rfl
@[simp] theorem orFlags_forms (s : State) (fl : Word) : (s.orFlags fl).forms = s.forms := rfl
@[simp] theorem orFlags_launches (s : State) (fl : Word) : (s.orFlags fl).launches = s.launches := rfl
@[simp] theorem orFlags_l1 (s : State) (fl : Word) : (s.orFlags fl).l1 = s.l1 := rfl
@[simp] theorem orFlags_l2 (s : State) (fl : Word) : (s.orFlags fl).l2 = s.l2 := rfl
@[simp] theorem orFlags_rdc (s : State) (fl : Word) : (s.orFlags fl).rdc = s.rdc := rfl
@[simp] theorem orFlags_pins (s : State) (fl : Word) : (s.orFlags fl).pins = s.pins := rfl
@[simp] theorem orFlags_tlb (s : State) (fl : Word) : (s.orFlags fl).tlb = s.tlb := rfl
@[simp] theorem orFlags_icache (s : State) (fl : Word) : (s.orFlags fl).icache = s.icache := rfl
@[simp] theorem orFlags_misses (s : State) (fl : Word) : (s.orFlags fl).misses = s.misses := rfl
@[simp] theorem orFlags_sealMap (s : State) (fl : Word) : (s.orFlags fl).sealMap = s.sealMap := rfl
@[simp] theorem orFlags_images (s : State) (fl : Word) : (s.orFlags fl).images = s.images := rfl
@[simp] theorem orFlags_seq (s : State) (fl : Word) : (s.orFlags fl).seq = s.seq := rfl
@[simp] theorem orFlags_engines (s : State) (fl : Word) : (s.orFlags fl).engines = s.engines := rfl
@[simp] theorem orFlags_stores (s : State) (fl : Word) : (s.orFlags fl).stores = s.stores := rfl
@[simp] theorem orFlags_creqs (s : State) (fl : Word) : (s.orFlags fl).creqs = s.creqs := rfl
@[simp] theorem orFlags_hslots (s : State) (fl : Word) : (s.orFlags fl).hslots = s.hslots := rfl
@[simp] theorem orFlags_queue (s : State) (fl : Word) : (s.orFlags fl).queue = s.queue := rfl
@[simp] theorem orFlags_holder (s : State) (fl : Word) : (s.orFlags fl).holder = s.holder := rfl
@[simp] theorem orFlags_phase (s : State) (fl : Word) : (s.orFlags fl).phase = s.phase := rfl
@[simp] theorem orFlags_agenda (s : State) (fl : Word) : (s.orFlags fl).agenda = s.agenda := rfl
@[simp] theorem orFlags_nextId (s : State) (fl : Word) : (s.orFlags fl).nextId = s.nextId := rfl
@[simp] theorem orFlags_free (s : State) (fl : Word) : (s.orFlags fl).free = s.free := rfl
@[simp] theorem modCur_others (s : State) (f : Split → Split) : (s.modCur f).others = s.others := rfl
@[simp] theorem modCur_forms (s : State) (f : Split → Split) : (s.modCur f).forms = s.forms := rfl
@[simp] theorem modCur_launches (s : State) (f : Split → Split) : (s.modCur f).launches = s.launches := rfl
@[simp] theorem modCur_l1 (s : State) (f : Split → Split) : (s.modCur f).l1 = s.l1 := rfl
@[simp] theorem modCur_l2 (s : State) (f : Split → Split) : (s.modCur f).l2 = s.l2 := rfl
@[simp] theorem modCur_rdc (s : State) (f : Split → Split) : (s.modCur f).rdc = s.rdc := rfl
@[simp] theorem modCur_pins (s : State) (f : Split → Split) : (s.modCur f).pins = s.pins := rfl
@[simp] theorem modCur_tlb (s : State) (f : Split → Split) : (s.modCur f).tlb = s.tlb := rfl
@[simp] theorem modCur_icache (s : State) (f : Split → Split) : (s.modCur f).icache = s.icache := rfl
@[simp] theorem modCur_misses (s : State) (f : Split → Split) : (s.modCur f).misses = s.misses := rfl
@[simp] theorem modCur_sealMap (s : State) (f : Split → Split) : (s.modCur f).sealMap = s.sealMap := rfl
@[simp] theorem modCur_images (s : State) (f : Split → Split) : (s.modCur f).images = s.images := rfl
@[simp] theorem modCur_seq (s : State) (f : Split → Split) : (s.modCur f).seq = s.seq := rfl
@[simp] theorem modCur_engines (s : State) (f : Split → Split) : (s.modCur f).engines = s.engines := rfl
@[simp] theorem modCur_stores (s : State) (f : Split → Split) : (s.modCur f).stores = s.stores := rfl
@[simp] theorem modCur_creqs (s : State) (f : Split → Split) : (s.modCur f).creqs = s.creqs := rfl
@[simp] theorem modCur_hslots (s : State) (f : Split → Split) : (s.modCur f).hslots = s.hslots := rfl
@[simp] theorem modCur_queue (s : State) (f : Split → Split) : (s.modCur f).queue = s.queue := rfl
@[simp] theorem modCur_holder (s : State) (f : Split → Split) : (s.modCur f).holder = s.holder := rfl
@[simp] theorem modCur_phase (s : State) (f : Split → Split) : (s.modCur f).phase = s.phase := rfl
@[simp] theorem modCur_agenda (s : State) (f : Split → Split) : (s.modCur f).agenda = s.agenda := rfl
@[simp] theorem modCur_nextId (s : State) (f : Split → Split) : (s.modCur f).nextId = s.nextId := rfl
@[simp] theorem modCur_free (s : State) (f : Split → Split) : (s.modCur f).free = s.free := rfl
@[simp] theorem setV_others (s : State) (r : Reg) (e : Mask) (f : Nat → Word) : (s.setV r e f).others = s.others := by
  unfold State.setV; split <;> rfl
@[simp] theorem setV_forms (s : State) (r : Reg) (e : Mask) (f : Nat → Word) : (s.setV r e f).forms = s.forms := by
  unfold State.setV; split <;> rfl
@[simp] theorem setV_launches (s : State) (r : Reg) (e : Mask) (f : Nat → Word) : (s.setV r e f).launches = s.launches := by
  unfold State.setV; split <;> rfl
@[simp] theorem setV_l1 (s : State) (r : Reg) (e : Mask) (f : Nat → Word) : (s.setV r e f).l1 = s.l1 := by
  unfold State.setV; split <;> rfl
@[simp] theorem setV_l2 (s : State) (r : Reg) (e : Mask) (f : Nat → Word) : (s.setV r e f).l2 = s.l2 := by
  unfold State.setV; split <;> rfl
@[simp] theorem setV_rdc (s : State) (r : Reg) (e : Mask) (f : Nat → Word) : (s.setV r e f).rdc = s.rdc := by
  unfold State.setV; split <;> rfl
@[simp] theorem setV_pins (s : State) (r : Reg) (e : Mask) (f : Nat → Word) : (s.setV r e f).pins = s.pins := by
  unfold State.setV; split <;> rfl
@[simp] theorem setV_tlb (s : State) (r : Reg) (e : Mask) (f : Nat → Word) : (s.setV r e f).tlb = s.tlb := by
  unfold State.setV; split <;> rfl
@[simp] theorem setV_icache (s : State) (r : Reg) (e : Mask) (f : Nat → Word) : (s.setV r e f).icache = s.icache := by
  unfold State.setV; split <;> rfl
@[simp] theorem setV_misses (s : State) (r : Reg) (e : Mask) (f : Nat → Word) : (s.setV r e f).misses = s.misses := by
  unfold State.setV; split <;> rfl
@[simp] theorem setV_sealMap (s : State) (r : Reg) (e : Mask) (f : Nat → Word) : (s.setV r e f).sealMap = s.sealMap := by
  unfold State.setV; split <;> rfl
@[simp] theorem setV_images (s : State) (r : Reg) (e : Mask) (f : Nat → Word) : (s.setV r e f).images = s.images := by
  unfold State.setV; split <;> rfl
@[simp] theorem setV_seq (s : State) (r : Reg) (e : Mask) (f : Nat → Word) : (s.setV r e f).seq = s.seq := by
  unfold State.setV; split <;> rfl
@[simp] theorem setV_engines (s : State) (r : Reg) (e : Mask) (f : Nat → Word) : (s.setV r e f).engines = s.engines := by
  unfold State.setV; split <;> rfl
@[simp] theorem setV_stores (s : State) (r : Reg) (e : Mask) (f : Nat → Word) : (s.setV r e f).stores = s.stores := by
  unfold State.setV; split <;> rfl
@[simp] theorem setV_creqs (s : State) (r : Reg) (e : Mask) (f : Nat → Word) : (s.setV r e f).creqs = s.creqs := by
  unfold State.setV; split <;> rfl
@[simp] theorem setV_pending (s : State) (r : Reg) (e : Mask) (f : Nat → Word) : (s.setV r e f).pending = s.pending := by
  unfold State.setV; split <;> rfl
@[simp] theorem setV_hslots (s : State) (r : Reg) (e : Mask) (f : Nat → Word) : (s.setV r e f).hslots = s.hslots := by
  unfold State.setV; split <;> rfl
@[simp] theorem setV_queue (s : State) (r : Reg) (e : Mask) (f : Nat → Word) : (s.setV r e f).queue = s.queue := by
  unfold State.setV; split <;> rfl
@[simp] theorem setV_holder (s : State) (r : Reg) (e : Mask) (f : Nat → Word) : (s.setV r e f).holder = s.holder := by
  unfold State.setV; split <;> rfl
@[simp] theorem setV_time (s : State) (r : Reg) (e : Mask) (f : Nat → Word) : (s.setV r e f).time = s.time := by
  unfold State.setV; split <;> rfl
@[simp] theorem setV_phase (s : State) (r : Reg) (e : Mask) (f : Nat → Word) : (s.setV r e f).phase = s.phase := by
  unfold State.setV; split <;> rfl
@[simp] theorem setV_agenda (s : State) (r : Reg) (e : Mask) (f : Nat → Word) : (s.setV r e f).agenda = s.agenda := by
  unfold State.setV; split <;> rfl
@[simp] theorem setV_nextId (s : State) (r : Reg) (e : Mask) (f : Nat → Word) : (s.setV r e f).nextId = s.nextId := by
  unfold State.setV; split <;> rfl
@[simp] theorem setV_free (s : State) (r : Reg) (e : Mask) (f : Nat → Word) : (s.setV r e f).free = s.free := by
  unfold State.setV; split <;> rfl
@[simp] theorem setK_others (s : State) (k : Reg3) (e m : Mask) : (s.setK k e m).others = s.others := by
  unfold State.setK; split <;> rfl
@[simp] theorem setK_forms (s : State) (k : Reg3) (e m : Mask) : (s.setK k e m).forms = s.forms := by
  unfold State.setK; split <;> rfl
@[simp] theorem setK_launches (s : State) (k : Reg3) (e m : Mask) : (s.setK k e m).launches = s.launches := by
  unfold State.setK; split <;> rfl
@[simp] theorem setK_l1 (s : State) (k : Reg3) (e m : Mask) : (s.setK k e m).l1 = s.l1 := by
  unfold State.setK; split <;> rfl
@[simp] theorem setK_l2 (s : State) (k : Reg3) (e m : Mask) : (s.setK k e m).l2 = s.l2 := by
  unfold State.setK; split <;> rfl
@[simp] theorem setK_rdc (s : State) (k : Reg3) (e m : Mask) : (s.setK k e m).rdc = s.rdc := by
  unfold State.setK; split <;> rfl
@[simp] theorem setK_pins (s : State) (k : Reg3) (e m : Mask) : (s.setK k e m).pins = s.pins := by
  unfold State.setK; split <;> rfl
@[simp] theorem setK_tlb (s : State) (k : Reg3) (e m : Mask) : (s.setK k e m).tlb = s.tlb := by
  unfold State.setK; split <;> rfl
@[simp] theorem setK_icache (s : State) (k : Reg3) (e m : Mask) : (s.setK k e m).icache = s.icache := by
  unfold State.setK; split <;> rfl
@[simp] theorem setK_misses (s : State) (k : Reg3) (e m : Mask) : (s.setK k e m).misses = s.misses := by
  unfold State.setK; split <;> rfl
@[simp] theorem setK_sealMap (s : State) (k : Reg3) (e m : Mask) : (s.setK k e m).sealMap = s.sealMap := by
  unfold State.setK; split <;> rfl
@[simp] theorem setK_images (s : State) (k : Reg3) (e m : Mask) : (s.setK k e m).images = s.images := by
  unfold State.setK; split <;> rfl
@[simp] theorem setK_seq (s : State) (k : Reg3) (e m : Mask) : (s.setK k e m).seq = s.seq := by
  unfold State.setK; split <;> rfl
@[simp] theorem setK_engines (s : State) (k : Reg3) (e m : Mask) : (s.setK k e m).engines = s.engines := by
  unfold State.setK; split <;> rfl
@[simp] theorem setK_stores (s : State) (k : Reg3) (e m : Mask) : (s.setK k e m).stores = s.stores := by
  unfold State.setK; split <;> rfl
@[simp] theorem setK_creqs (s : State) (k : Reg3) (e m : Mask) : (s.setK k e m).creqs = s.creqs := by
  unfold State.setK; split <;> rfl
@[simp] theorem setK_pending (s : State) (k : Reg3) (e m : Mask) : (s.setK k e m).pending = s.pending := by
  unfold State.setK; split <;> rfl
@[simp] theorem setK_hslots (s : State) (k : Reg3) (e m : Mask) : (s.setK k e m).hslots = s.hslots := by
  unfold State.setK; split <;> rfl
@[simp] theorem setK_queue (s : State) (k : Reg3) (e m : Mask) : (s.setK k e m).queue = s.queue := by
  unfold State.setK; split <;> rfl
@[simp] theorem setK_holder (s : State) (k : Reg3) (e m : Mask) : (s.setK k e m).holder = s.holder := by
  unfold State.setK; split <;> rfl
@[simp] theorem setK_time (s : State) (k : Reg3) (e m : Mask) : (s.setK k e m).time = s.time := by
  unfold State.setK; split <;> rfl
@[simp] theorem setK_phase (s : State) (k : Reg3) (e m : Mask) : (s.setK k e m).phase = s.phase := by
  unfold State.setK; split <;> rfl
@[simp] theorem setK_agenda (s : State) (k : Reg3) (e m : Mask) : (s.setK k e m).agenda = s.agenda := by
  unfold State.setK; split <;> rfl
@[simp] theorem setK_nextId (s : State) (k : Reg3) (e m : Mask) : (s.setK k e m).nextId = s.nextId := by
  unfold State.setK; split <;> rfl
@[simp] theorem setK_free (s : State) (k : Reg3) (e m : Mask) : (s.setK k e m).free = s.free := by
  unfold State.setK; split <;> rfl

/-! ### Updates of a word, of the counters, of classes by number -/

@[simp] theorem setWord_cls (s : State) (b : Bank) (ix : Nat) (x : DWord) (sub : Nat) : (s.setWord b ix x sub).cls = s.cls := rfl
@[simp] theorem setWord_others (s : State) (b : Bank) (ix : Nat) (x : DWord) (sub : Nat) : (s.setWord b ix x sub).others = s.others := rfl
@[simp] theorem setWord_forms (s : State) (b : Bank) (ix : Nat) (x : DWord) (sub : Nat) : (s.setWord b ix x sub).forms = s.forms := rfl
@[simp] theorem setWord_launches (s : State) (b : Bank) (ix : Nat) (x : DWord) (sub : Nat) : (s.setWord b ix x sub).launches = s.launches := rfl
@[simp] theorem setWord_l1 (s : State) (b : Bank) (ix : Nat) (x : DWord) (sub : Nat) : (s.setWord b ix x sub).l1 = s.l1 := rfl
@[simp] theorem setWord_l2 (s : State) (b : Bank) (ix : Nat) (x : DWord) (sub : Nat) : (s.setWord b ix x sub).l2 = s.l2 := rfl
@[simp] theorem setWord_rdc (s : State) (b : Bank) (ix : Nat) (x : DWord) (sub : Nat) : (s.setWord b ix x sub).rdc = s.rdc := rfl
@[simp] theorem setWord_pins (s : State) (b : Bank) (ix : Nat) (x : DWord) (sub : Nat) : (s.setWord b ix x sub).pins = s.pins := rfl
@[simp] theorem setWord_tlb (s : State) (b : Bank) (ix : Nat) (x : DWord) (sub : Nat) : (s.setWord b ix x sub).tlb = s.tlb := rfl
@[simp] theorem setWord_icache (s : State) (b : Bank) (ix : Nat) (x : DWord) (sub : Nat) : (s.setWord b ix x sub).icache = s.icache := rfl
@[simp] theorem setWord_misses (s : State) (b : Bank) (ix : Nat) (x : DWord) (sub : Nat) : (s.setWord b ix x sub).misses = s.misses := rfl
@[simp] theorem setWord_sealMap (s : State) (b : Bank) (ix : Nat) (x : DWord) (sub : Nat) : (s.setWord b ix x sub).sealMap = s.sealMap := rfl
@[simp] theorem setWord_images (s : State) (b : Bank) (ix : Nat) (x : DWord) (sub : Nat) : (s.setWord b ix x sub).images = s.images := rfl
@[simp] theorem setWord_seq (s : State) (b : Bank) (ix : Nat) (x : DWord) (sub : Nat) : (s.setWord b ix x sub).seq = s.seq := rfl
@[simp] theorem setWord_engines (s : State) (b : Bank) (ix : Nat) (x : DWord) (sub : Nat) : (s.setWord b ix x sub).engines = s.engines := rfl
@[simp] theorem setWord_stores (s : State) (b : Bank) (ix : Nat) (x : DWord) (sub : Nat) : (s.setWord b ix x sub).stores = s.stores := rfl
@[simp] theorem setWord_creqs (s : State) (b : Bank) (ix : Nat) (x : DWord) (sub : Nat) : (s.setWord b ix x sub).creqs = s.creqs := rfl
@[simp] theorem setWord_pending (s : State) (b : Bank) (ix : Nat) (x : DWord) (sub : Nat) : (s.setWord b ix x sub).pending = s.pending := rfl
@[simp] theorem setWord_hslots (s : State) (b : Bank) (ix : Nat) (x : DWord) (sub : Nat) : (s.setWord b ix x sub).hslots = s.hslots := rfl
@[simp] theorem setWord_queue (s : State) (b : Bank) (ix : Nat) (x : DWord) (sub : Nat) : (s.setWord b ix x sub).queue = s.queue := rfl
@[simp] theorem setWord_holder (s : State) (b : Bank) (ix : Nat) (x : DWord) (sub : Nat) : (s.setWord b ix x sub).holder = s.holder := rfl
@[simp] theorem setWord_mem (s : State) (b : Bank) (ix : Nat) (x : DWord) (sub : Nat) : (s.setWord b ix x sub).mem = s.mem := rfl
@[simp] theorem setWord_iss (s : State) (b : Bank) (ix : Nat) (x : DWord) (sub : Nat) : (s.setWord b ix x sub).iss = s.iss := rfl
@[simp] theorem setWord_time (s : State) (b : Bank) (ix : Nat) (x : DWord) (sub : Nat) : (s.setWord b ix x sub).time = s.time := rfl
@[simp] theorem setWord_phase (s : State) (b : Bank) (ix : Nat) (x : DWord) (sub : Nat) : (s.setWord b ix x sub).phase = s.phase := rfl
@[simp] theorem setWord_agenda (s : State) (b : Bank) (ix : Nat) (x : DWord) (sub : Nat) : (s.setWord b ix x sub).agenda = s.agenda := rfl
@[simp] theorem setWord_nextId (s : State) (b : Bank) (ix : Nat) (x : DWord) (sub : Nat) : (s.setWord b ix x sub).nextId = s.nextId := rfl
@[simp] theorem setWord_free (s : State) (b : Bank) (ix : Nat) (x : DWord) (sub : Nat) : (s.setWord b ix x sub).free = s.free := rfl
@[simp] theorem fresh_cls (s : State) : s.fresh.cls = s.cls := rfl
@[simp] theorem fresh_others (s : State) : s.fresh.others = s.others := rfl
@[simp] theorem fresh_forms (s : State) : s.fresh.forms = s.forms := rfl
@[simp] theorem fresh_launches (s : State) : s.fresh.launches = s.launches := rfl
@[simp] theorem fresh_l1 (s : State) : s.fresh.l1 = s.l1 := rfl
@[simp] theorem fresh_l2 (s : State) : s.fresh.l2 = s.l2 := rfl
@[simp] theorem fresh_rdc (s : State) : s.fresh.rdc = s.rdc := rfl
@[simp] theorem fresh_pins (s : State) : s.fresh.pins = s.pins := rfl
@[simp] theorem fresh_tlb (s : State) : s.fresh.tlb = s.tlb := rfl
@[simp] theorem fresh_icache (s : State) : s.fresh.icache = s.icache := rfl
@[simp] theorem fresh_misses (s : State) : s.fresh.misses = s.misses := rfl
@[simp] theorem fresh_sealMap (s : State) : s.fresh.sealMap = s.sealMap := rfl
@[simp] theorem fresh_images (s : State) : s.fresh.images = s.images := rfl
@[simp] theorem fresh_seq (s : State) : s.fresh.seq = s.seq := rfl
@[simp] theorem fresh_engines (s : State) : s.fresh.engines = s.engines := rfl
@[simp] theorem fresh_stores (s : State) : s.fresh.stores = s.stores := rfl
@[simp] theorem fresh_creqs (s : State) : s.fresh.creqs = s.creqs := rfl
@[simp] theorem fresh_pending (s : State) : s.fresh.pending = s.pending := rfl
@[simp] theorem fresh_hslots (s : State) : s.fresh.hslots = s.hslots := rfl
@[simp] theorem fresh_queue (s : State) : s.fresh.queue = s.queue := rfl
@[simp] theorem fresh_holder (s : State) : s.fresh.holder = s.holder := rfl
@[simp] theorem fresh_words (s : State) : s.fresh.words = s.words := rfl
@[simp] theorem fresh_mem (s : State) : s.fresh.mem = s.mem := rfl
@[simp] theorem fresh_iss (s : State) : s.fresh.iss = s.iss := rfl
@[simp] theorem fresh_time (s : State) : s.fresh.time = s.time := rfl
@[simp] theorem fresh_phase (s : State) : s.fresh.phase = s.phase := rfl
@[simp] theorem fresh_agenda (s : State) : s.fresh.agenda = s.agenda := rfl
@[simp] theorem fresh_free (s : State) : s.fresh.free = s.free := rfl
@[simp] theorem usedChoice_cls (s : State) : s.usedChoice.cls = s.cls := rfl
@[simp] theorem usedChoice_others (s : State) : s.usedChoice.others = s.others := rfl
@[simp] theorem usedChoice_forms (s : State) : s.usedChoice.forms = s.forms := rfl
@[simp] theorem usedChoice_launches (s : State) : s.usedChoice.launches = s.launches := rfl
@[simp] theorem usedChoice_l1 (s : State) : s.usedChoice.l1 = s.l1 := rfl
@[simp] theorem usedChoice_l2 (s : State) : s.usedChoice.l2 = s.l2 := rfl
@[simp] theorem usedChoice_rdc (s : State) : s.usedChoice.rdc = s.rdc := rfl
@[simp] theorem usedChoice_pins (s : State) : s.usedChoice.pins = s.pins := rfl
@[simp] theorem usedChoice_tlb (s : State) : s.usedChoice.tlb = s.tlb := rfl
@[simp] theorem usedChoice_icache (s : State) : s.usedChoice.icache = s.icache := rfl
@[simp] theorem usedChoice_misses (s : State) : s.usedChoice.misses = s.misses := rfl
@[simp] theorem usedChoice_sealMap (s : State) : s.usedChoice.sealMap = s.sealMap := rfl
@[simp] theorem usedChoice_images (s : State) : s.usedChoice.images = s.images := rfl
@[simp] theorem usedChoice_seq (s : State) : s.usedChoice.seq = s.seq := rfl
@[simp] theorem usedChoice_engines (s : State) : s.usedChoice.engines = s.engines := rfl
@[simp] theorem usedChoice_stores (s : State) : s.usedChoice.stores = s.stores := rfl
@[simp] theorem usedChoice_creqs (s : State) : s.usedChoice.creqs = s.creqs := rfl
@[simp] theorem usedChoice_pending (s : State) : s.usedChoice.pending = s.pending := rfl
@[simp] theorem usedChoice_hslots (s : State) : s.usedChoice.hslots = s.hslots := rfl
@[simp] theorem usedChoice_queue (s : State) : s.usedChoice.queue = s.queue := rfl
@[simp] theorem usedChoice_holder (s : State) : s.usedChoice.holder = s.holder := rfl
@[simp] theorem usedChoice_words (s : State) : s.usedChoice.words = s.words := rfl
@[simp] theorem usedChoice_mem (s : State) : s.usedChoice.mem = s.mem := rfl
@[simp] theorem usedChoice_iss (s : State) : s.usedChoice.iss = s.iss := rfl
@[simp] theorem usedChoice_time (s : State) : s.usedChoice.time = s.time := rfl
@[simp] theorem usedChoice_phase (s : State) : s.usedChoice.phase = s.phase := rfl
@[simp] theorem usedChoice_agenda (s : State) : s.usedChoice.agenda = s.agenda := rfl
@[simp] theorem usedChoice_nextId (s : State) : s.usedChoice.nextId = s.nextId := rfl
@[simp] theorem modCls_forms (s : State) (i : Nat) (f : Cls → Cls) : (s.modCls i f).forms = s.forms := rfl
@[simp] theorem modCls_launches (s : State) (i : Nat) (f : Cls → Cls) : (s.modCls i f).launches = s.launches := rfl
@[simp] theorem modCls_l1 (s : State) (i : Nat) (f : Cls → Cls) : (s.modCls i f).l1 = s.l1 := rfl
@[simp] theorem modCls_l2 (s : State) (i : Nat) (f : Cls → Cls) : (s.modCls i f).l2 = s.l2 := rfl
@[simp] theorem modCls_rdc (s : State) (i : Nat) (f : Cls → Cls) : (s.modCls i f).rdc = s.rdc := rfl
@[simp] theorem modCls_pins (s : State) (i : Nat) (f : Cls → Cls) : (s.modCls i f).pins = s.pins := rfl
@[simp] theorem modCls_tlb (s : State) (i : Nat) (f : Cls → Cls) : (s.modCls i f).tlb = s.tlb := rfl
@[simp] theorem modCls_icache (s : State) (i : Nat) (f : Cls → Cls) : (s.modCls i f).icache = s.icache := rfl
@[simp] theorem modCls_misses (s : State) (i : Nat) (f : Cls → Cls) : (s.modCls i f).misses = s.misses := rfl
@[simp] theorem modCls_sealMap (s : State) (i : Nat) (f : Cls → Cls) : (s.modCls i f).sealMap = s.sealMap := rfl
@[simp] theorem modCls_images (s : State) (i : Nat) (f : Cls → Cls) : (s.modCls i f).images = s.images := rfl
@[simp] theorem modCls_seq (s : State) (i : Nat) (f : Cls → Cls) : (s.modCls i f).seq = s.seq := rfl
@[simp] theorem modCls_engines (s : State) (i : Nat) (f : Cls → Cls) : (s.modCls i f).engines = s.engines := rfl
@[simp] theorem modCls_stores (s : State) (i : Nat) (f : Cls → Cls) : (s.modCls i f).stores = s.stores := rfl
@[simp] theorem modCls_creqs (s : State) (i : Nat) (f : Cls → Cls) : (s.modCls i f).creqs = s.creqs := rfl
@[simp] theorem modCls_pending (s : State) (i : Nat) (f : Cls → Cls) : (s.modCls i f).pending = s.pending := rfl
@[simp] theorem modCls_hslots (s : State) (i : Nat) (f : Cls → Cls) : (s.modCls i f).hslots = s.hslots := rfl
@[simp] theorem modCls_queue (s : State) (i : Nat) (f : Cls → Cls) : (s.modCls i f).queue = s.queue := rfl
@[simp] theorem modCls_holder (s : State) (i : Nat) (f : Cls → Cls) : (s.modCls i f).holder = s.holder := rfl
@[simp] theorem modCls_words (s : State) (i : Nat) (f : Cls → Cls) : (s.modCls i f).words = s.words := rfl
@[simp] theorem modCls_mem (s : State) (i : Nat) (f : Cls → Cls) : (s.modCls i f).mem = s.mem := rfl
@[simp] theorem modCls_iss (s : State) (i : Nat) (f : Cls → Cls) : (s.modCls i f).iss = s.iss := rfl
@[simp] theorem modCls_time (s : State) (i : Nat) (f : Cls → Cls) : (s.modCls i f).time = s.time := rfl
@[simp] theorem modCls_phase (s : State) (i : Nat) (f : Cls → Cls) : (s.modCls i f).phase = s.phase := rfl
@[simp] theorem modCls_agenda (s : State) (i : Nat) (f : Cls → Cls) : (s.modCls i f).agenda = s.agenda := rfl
@[simp] theorem modCls_nextId (s : State) (i : Nat) (f : Cls → Cls) : (s.modCls i f).nextId = s.nextId := rfl
@[simp] theorem modCls_free (s : State) (i : Nat) (f : Cls → Cls) : (s.modCls i f).free = s.free := rfl
@[simp] theorem mapCls_forms (s : State) (f : Cls → Cls) : (s.mapCls f).forms = s.forms := rfl
@[simp] theorem mapCls_launches (s : State) (f : Cls → Cls) : (s.mapCls f).launches = s.launches := rfl
@[simp] theorem mapCls_l1 (s : State) (f : Cls → Cls) : (s.mapCls f).l1 = s.l1 := rfl
@[simp] theorem mapCls_l2 (s : State) (f : Cls → Cls) : (s.mapCls f).l2 = s.l2 := rfl
@[simp] theorem mapCls_rdc (s : State) (f : Cls → Cls) : (s.mapCls f).rdc = s.rdc := rfl
@[simp] theorem mapCls_pins (s : State) (f : Cls → Cls) : (s.mapCls f).pins = s.pins := rfl
@[simp] theorem mapCls_tlb (s : State) (f : Cls → Cls) : (s.mapCls f).tlb = s.tlb := rfl
@[simp] theorem mapCls_icache (s : State) (f : Cls → Cls) : (s.mapCls f).icache = s.icache := rfl
@[simp] theorem mapCls_misses (s : State) (f : Cls → Cls) : (s.mapCls f).misses = s.misses := rfl
@[simp] theorem mapCls_sealMap (s : State) (f : Cls → Cls) : (s.mapCls f).sealMap = s.sealMap := rfl
@[simp] theorem mapCls_images (s : State) (f : Cls → Cls) : (s.mapCls f).images = s.images := rfl
@[simp] theorem mapCls_seq (s : State) (f : Cls → Cls) : (s.mapCls f).seq = s.seq := rfl
@[simp] theorem mapCls_engines (s : State) (f : Cls → Cls) : (s.mapCls f).engines = s.engines := rfl
@[simp] theorem mapCls_stores (s : State) (f : Cls → Cls) : (s.mapCls f).stores = s.stores := rfl
@[simp] theorem mapCls_creqs (s : State) (f : Cls → Cls) : (s.mapCls f).creqs = s.creqs := rfl
@[simp] theorem mapCls_pending (s : State) (f : Cls → Cls) : (s.mapCls f).pending = s.pending := rfl
@[simp] theorem mapCls_hslots (s : State) (f : Cls → Cls) : (s.mapCls f).hslots = s.hslots := rfl
@[simp] theorem mapCls_queue (s : State) (f : Cls → Cls) : (s.mapCls f).queue = s.queue := rfl
@[simp] theorem mapCls_holder (s : State) (f : Cls → Cls) : (s.mapCls f).holder = s.holder := rfl
@[simp] theorem mapCls_words (s : State) (f : Cls → Cls) : (s.mapCls f).words = s.words := rfl
@[simp] theorem mapCls_mem (s : State) (f : Cls → Cls) : (s.mapCls f).mem = s.mem := rfl
@[simp] theorem mapCls_iss (s : State) (f : Cls → Cls) : (s.mapCls f).iss = s.iss := rfl
@[simp] theorem mapCls_time (s : State) (f : Cls → Cls) : (s.mapCls f).time = s.time := rfl
@[simp] theorem mapCls_phase (s : State) (f : Cls → Cls) : (s.mapCls f).phase = s.phase := rfl
@[simp] theorem mapCls_agenda (s : State) (f : Cls → Cls) : (s.mapCls f).agenda = s.agenda := rfl
@[simp] theorem mapCls_nextId (s : State) (f : Cls → Cls) : (s.mapCls f).nextId = s.nextId := rfl
@[simp] theorem mapCls_free (s : State) (f : Cls → Cls) : (s.mapCls f).free = s.free := rfl

/-- A control word after a write of one (R335). -/
theorem word_setWord (s : State) (b c : Bank) (ix jx : Nat) (x : DWord) (sub tub : Nat) :
    (s.setWord b ix x sub).word c jx tub = if c = b ∧ jx = ix ∧ tub = sub then x else s.word c jx tub := by
  unfold State.word State.setWord
  rw [assoc_assocSet]
  by_cases h : c = b ∧ jx = ix ∧ tub = sub
  · obtain ⟨rfl, rfl, rfl⟩ := h; simp
  · rw [if_neg h, if_neg (by simpa using h)]

/-! ### Fields of the class that an update leaves -/

@[simp] theorem Cls.setS_splits (c : Cls) (r : Reg) (x : DWord) : (c.setS r x).splits = c.splits := by
  unfold Cls.setS; split <;> rfl
@[simp] theorem Cls.setS_level (c : Cls) (r : Reg) (x : DWord) : (c.setS r x).level = c.level := by
  unfold Cls.setS; split <;> rfl
@[simp] theorem Cls.setS_vmid (c : Cls) (r : Reg) (x : DWord) : (c.setS r x).vmid = c.vmid := by
  unfold Cls.setS; split <;> rfl
@[simp] theorem Cls.setS_asid (c : Cls) (r : Reg) (x : DWord) : (c.setS r x).asid = c.asid := by
  unfold Cls.setS; split <;> rfl
@[simp] theorem Cls.setS_mem (c : Cls) (r : Reg) (x : DWord) : (c.setS r x).mem = c.mem := by
  unfold Cls.setS; split <;> rfl
@[simp] theorem Cls.setS_cstat (c : Cls) (r : Reg) (x : DWord) : (c.setS r x).cstat = c.cstat := by
  unfold Cls.setS; split <;> rfl
@[simp] theorem Cls.setP_splits (c : Cls) (p : Nat) (e : Mask) (f : Nat → Word) : (c.setP p e f).splits = c.splits := rfl
@[simp] theorem Cls.setP_s (c : Cls) (p : Nat) (e : Mask) (f : Nat → Word) : (c.setP p e f).s = c.s := rfl
@[simp] theorem Cls.setP_k (c : Cls) (p : Nat) (e : Mask) (f : Nat → Word) : (c.setP p e f).k = c.k := rfl
@[simp] theorem Cls.setP_wb (c : Cls) (p : Nat) (e : Mask) (f : Nat → Word) : (c.setP p e f).wb = c.wb := rfl
@[simp] theorem Cls.setP_lanes (c : Cls) (p : Nat) (e : Mask) (f : Nat → Word) : (c.setP p e f).lanes = c.lanes := rfl
@[simp] theorem Cls.setP_cstat (c : Cls) (p : Nat) (e : Mask) (f : Nat → Word) : (c.setP p e f).cstat = c.cstat := rfl
@[simp] theorem Cls.setSplit_s (c : Cls) (i : Nat) (sp : Split) : (c.setSplit i sp).s = c.s := rfl
@[simp] theorem Cls.setSplit_k (c : Cls) (i : Nat) (sp : Split) : (c.setSplit i sp).k = c.k := rfl
@[simp] theorem Cls.setSplit_v (c : Cls) (i : Nat) (sp : Split) : (c.setSplit i sp).v = c.v := rfl
@[simp] theorem Cls.modSplit_s (c : Cls) (i : Nat) (f : Split → Split) : (c.modSplit i f).s = c.s := rfl
@[simp] theorem Cls.modSplit_k (c : Cls) (i : Nat) (f : Split → Split) : (c.modSplit i f).k = c.k := rfl
@[simp] theorem Cls.modSplit_v (c : Cls) (i : Nat) (f : Split → Split) : (c.modSplit i f).v = c.v := rfl

/-! ### The split table -/

theorem Cls.split_modSplit_self (c : Cls) (i : Nat) (f : Split → Split) (h : i < c.splits.length) :
    (c.modSplit i f).split i = f (c.split i) := by
  simp [Cls.modSplit, Cls.setSplit, Cls.split, List.getD, h]

theorem Cls.split_modSplit_other (c : Cls) (i j : Nat) (f : Split → Split) (h : j ≠ i) :
    (c.modSplit i f).split j = c.split j := by
  simp [Cls.modSplit, Cls.setSplit, Cls.split, List.getD, h.symm]

/-! ### Registers after a write -/

/-- s0 reads as zero (R52). -/
@[simp] theorem Cls.getS_zero (c : Cls) : c.getS 0 = 0 := rfl

theorem Cls.getS_setS (c : Cls) (r q : Reg) (x : DWord) :
    (c.setS r x).getS q = if q = r then (if r = 0 then 0 else x) else c.getS q := by
  unfold Cls.setS Cls.getS
  by_cases hr : r = 0
  · rw [if_pos hr, if_pos hr]
    by_cases hq : q = r
    · rw [if_pos hq, if_pos (hq.trans hr)]
    · rw [if_neg hq]
  · rw [if_neg hr, if_neg hr]
    by_cases hq : q = r
    · subst hq
      rw [if_neg hr, if_pos rfl]
      exact Vector.getElem_set_self _
    · rw [if_neg hq]
      have h : r.toNat ≠ q.toNat := fun e => hq (BitVec.eq_of_toNat_eq e.symm)
      by_cases h0 : q = 0
      · rw [if_pos h0, if_pos h0]
      · rw [if_neg h0, if_neg h0]
        exact Vector.getElem_set_ne r.isLt q.isLt h

theorem padSet_getD {α : Type} (d : α) (l : List α) (i j : Nat) (x : α) :
    (padSet d l i x).getD j d = if j = i then x else l.getD j d := by
  induction l generalizing i j with
  | nil =>
    induction i generalizing j with
    | zero => cases j <;> simp [padSet]
    | succ i ih =>
      cases j with
      | zero => simp [padSet]
      | succ j => simpa [padSet] using ih j
  | cons y l ih =>
    cases i with
    | zero => cases j <;> simp [padSet]
    | succ i =>
      cases j with
      | zero => simp [padSet]
      | succ j => simpa [padSet] using ih i j

theorem Cls.getP_setP_self (c : Cls) (p : Nat) (e : Mask) (f : Nat → Word) (i : Nat) (h : i < c.lanes) :
    (c.setP p e f).getP p i = if e.getLsbD i then f i else c.getP p i := by
  unfold Cls.setP Cls.getP
  rw [padSet_getD]
  simp [List.getD, h]

theorem Cls.getP_setP_other (c : Cls) (p q : Nat) (e : Mask) (f : Nat → Word) (i : Nat) (h : q ≠ p) :
    (c.setP p e f).getP q i = c.getP q i := by
  unfold Cls.setP Cls.getP
  rw [padSet_getD]
  simp [h]

/-- Names of lane registers do not alias (R48). -/
theorem Cls.phys_inj (c : Cls) (r q : Reg) : c.phys r = c.phys q ↔ r = q := by
  unfold Cls.phys
  constructor
  · intro h
    apply BitVec.eq_of_toNat_eq
    split at h <;> split at h <;> omega
  · rintro rfl; rfl

/-! ### Masks -/

theorem getLsbD_oneShift (i j : Nat) : (((1 <<< i : Nat) : Mask)).getLsbD j = (decide (j < 1024) && decide (i = j)) := by
  rw [BitVec.natCast_eq_ofNat, BitVec.getLsbD_ofNat, Nat.one_shiftLeft, Nat.testBit_two_pow]

theorem maskOf_getLsbD (lanes : Nat) (f : Nat → Bool) (j : Nat) :
    (maskOf lanes f).getLsbD j = (decide (j < 1024) && decide (j < lanes) && f j) := by
  unfold maskOf
  induction lanes with
  | zero => simp
  | succ n ih =>
    rw [List.range_succ, List.foldl_append]
    simp only [List.foldl_cons, List.foldl_nil]
    by_cases hj : n = j
    · subst hj
      split
      · next h => rw [BitVec.getLsbD_or, ih, getLsbD_oneShift]; simp [h]
      · next h => rw [ih]; simp [h]
    · have : (j < n + 1) = (j < n) := by simp; omega
      split
      · rw [BitVec.getLsbD_or, ih, getLsbD_oneShift]; simp [hj, this]
      · rw [ih]; simp [this]

end Sys2Proof.Machine
end

