-- ==== Sys2Proof/Laws/Groups.lean ====
section
/-!
SUPPORT. One lemma for each shared way a group ends: it completes (`retire`, `branchTo`, `scalarOp`, `laneOp`, `laneCmp`), it
raises an event (`raise`), it waits (`hold`), and what decode step 5 does before it (`guarded`, `classWide`).
-/

namespace Sys2Proof.Machine

theorem State.issuing_split {s : State} (h : s.issuing = true) : s.iss.split < s.cls.splits.length := by
  simp [State.issuing] at h; exact h.1

theorem State.issuing_step {s : State} (h : s.issuing = true) : s.stepping = false := by
  simp [State.issuing] at h; exact h.2

/-- Single-stepping depends on the class's level, partition and tenant and on the words. -/
theorem State.stepping_congr {s t : State} (hl : t.cls.level = s.cls.level) (hv : t.cls.vmid = s.cls.vmid)
    (ha : t.cls.asid = s.cls.asid) (hw : t.words = s.words) : t.stepping = s.stepping := by
  unfold State.stepping State.confidential State.word
  simp only [hl, hv, ha, hw]

theorem State.stepped_of_not {s : State} (h : s.stepping = false) (pc : Int) : s.stepped pc = s := by
  unfold State.stepped; simp [h]

/-! ### Decode step 5 -/

theorem guarded_legal {i : Instr} {s : State} (h : s.legal i = true) (body : State → State) :
    guarded i body s = body s := by
  simp [State.legal] at h
  unfold guarded; simp [h]

/-- An admitted instruction answers what its body gives. -/
theorem next_of_legal {i : Instr} {s : State} {body : State → State} {P : State → Prop} (h : s.legal i = true)
    (hp : P (body s)) : ∃ t, (Host.Outcome.next (guarded i body s) : Out) = .next t ∧ P t :=
  ⟨body s, congrArg Host.Outcome.next (guarded_legal h body), hp⟩

theorem guarded_unallocated {i : Instr} {s : State} (h : operandsOk i s = false) (body : State → State) :
    guarded i body s = raise { cause := .illop } s := by
  unfold guarded; simp [h]

theorem guarded_marked {i : Instr} {s : State} (h : operandsOk i s = true) (hm : readsMarked i s = true)
    (body : State → State) :
    guarded i body s = raise { cause := .ecc, mask := some (s.eff (instrPfx i)) } s := by
  unfold guarded; simp [h, hm]

theorem classWide_whole {s : State} (h : s.wholeClass = true) (body : State → State) : classWide body s = body s := by
  simp [State.wholeClass] at h
  unfold classWide; simp [h]

theorem classWide_part {s : State} (h : s.wholeClass = false) (body : State → State) :
    classWide body s = raise { cause := .illstate } s := by
  unfold classWide
  rw [if_pos]
  by_cases hd : s.depth = 0
  · right; intro ha; simp [State.wholeClass, hd, ha] at h
  · exact Or.inl hd

/-! ### Completing -/

/-- The split update of a completed group. -/
theorem goesOn_of_modCur {s u : State} {pc : Int} (hs : s.iss.split < s.cls.splits.length) (hi : u.iss = s.iss)
    (hsp : u.cls.splits = s.cls.splits) (pend : List Pend) :
    GoesOn s (u.modCur (fun sp => { sp with pc := pc, age := 0, pend := pend })) pc := by
  have hlen : u.iss.split < u.cls.splits.length := by rw [hi, hsp]; exact hs
  have hcur : (u.modCur (fun sp => { sp with pc := pc, age := 0, pend := pend })).cur
      = { u.cur with pc := pc, age := 0, pend := pend } := Cls.split_modSplit_self u.cls u.iss.split _ hlen
  have hu : u.cur = s.cur := by unfold State.cur Cls.split; rw [hi, hsp]
  refine ⟨?_, ?_, ?_, ?_, ?_⟩
  · rw [hcur]
  · rw [hcur]
  · rw [hcur, hu]
  · intro j hj
    have h1 := Cls.split_modSplit_other u.cls u.iss.split j (fun sp => { sp with pc := pc, age := 0, pend := pend })
      (by rw [hi]; exact hj)
    calc _ = u.cls.split j := h1
      _ = s.cls.split j := by unfold Cls.split; rw [hsp]
  · exact hi

/-- A group that completes at `pc` does nothing but move its split on, when no single-stepping is on. -/
theorem retireAt_eq {s : State} (h : s.stepping = false) (pc : Int) :
    retireAt pc s = s.modCur (fun sp => { sp with pc := pc, age := 0, pend := s.cls.passPend sp.pend }) := by
  unfold retireAt
  apply State.stepped_of_not
  rw [State.stepping_congr (s := s)] <;> first | rfl | exact h

theorem branchTo_eq {s : State} (h : s.stepping = false) (pc : Int) :
    branchTo pc s = s.modCur (fun sp =>
      { sp with pc := pc, age := 0, pend := (s.cls.passPend sp.pend).map (fun p => { p with left := 0 }) }) := by
  unfold branchTo
  apply State.stepped_of_not
  rw [State.stepping_congr (s := s)] <;> first | rfl | exact h

theorem modCur_cls (u : State) (f : Split → Split) :
    { (u.modCur f).cls with splits := u.cls.splits } = u.cls := rfl

theorem retire_writesNothing {s : State} (h : s.issuing = true) : WritesNothing s (retire s) s.next := by
  unfold retire
  rw [retireAt_eq (State.issuing_step h)]
  exact ⟨goesOn_of_modCur (State.issuing_split h) rfl rfl _, rfl, rfl, fun _ => rfl⟩

theorem branchTo_writesNothing {s : State} (h : s.issuing = true) (pc : Int) : WritesNothing s (branchTo pc s) pc := by
  rw [branchTo_eq (State.issuing_step h)]
  exact ⟨goesOn_of_modCur (State.issuing_split h) rfl rfl _, rfl, rfl, fun _ => rfl⟩

theorem mem_filter_sub {α : Type} {p : α → Bool} {l : List α} {m : α} (h : m ∈ l.filter p) : m ∈ l :=
  (List.mem_filter.mp h).1

/-- A scalar register write, moved on to `pc` by an update of the issuing split. -/
theorem setS_writesScalar {s : State} (h : s.issuing = true) (pc : Int) (rd : Reg) (x : DWord) (fl : Word) (pend : List Pend) :
    WritesScalar s (((s.orFlags fl).setS rd x).modCur (fun sp => { sp with pc := pc, age := 0, pend := pend })) pc rd x fl := by
  have hsp : ((s.orFlags fl).setS rd x).cls.splits = s.cls.splits := Cls.setS_splits _ _ _
  refine ⟨goesOn_of_modCur (u := (s.orFlags fl).setS rd x) (State.issuing_split h) rfl hsp _, ?_, ?_, ?_, ?_, ?_, rfl,
    fun _ => rfl⟩
  · exact (Cls.getS_setS (s.orFlags fl).cls rd rd x).trans (by rw [if_pos rfl])
  · intro r hr
    exact (Cls.getS_setS (s.orFlags fl).cls rd r x).trans (by rw [if_neg hr]; rfl)
  · exact Cls.setS_cstat _ _ _
  · intro m hm
    have : m ∈ ((s.orFlags fl).cls.setS rd x).poisonV := hm
    unfold Cls.setS at this
    split at this
    · exact this
    · exact mem_filter_sub this
  · by_cases hr : rd = 0
    · have e : (s.orFlags fl).setS rd x = s.orFlags fl := by unfold State.setS Cls.setS; rw [if_pos hr]
      rw [e]; rfl
    · have e : (s.orFlags fl).cls.setS rd x = { (s.orFlags fl).cls with s := (s.orFlags fl).cls.s.set rd.toNat x rd.isLt, poisonV := (s.orFlags fl).cls.poisonV.filter (fun p => p ≠ (1, rd.toNat)) } := by
        unfold Cls.setS; rw [if_neg hr]
      have e2 : (s.orFlags fl).setS rd x = { s.orFlags fl with cls := (s.orFlags fl).cls.setS rd x } := rfl
      rw [e2, e]; rfl

theorem scalarOp_writesScalar {s : State} (h : s.issuing = true) (rd : Reg) (r : Fl DWord) :
    WritesScalar s (scalarOp rd r s) s.next rd r.val r.flags := by
  unfold scalarOp retire
  have hst : ((s.orFlags r.flags).setS rd r.val).stepping = false := by
    have e := State.stepping_congr (s := s) (t := (s.orFlags r.flags).setS rd r.val) (Cls.setS_level (s.orFlags r.flags).cls rd r.val)
      (Cls.setS_vmid (s.orFlags r.flags).cls rd r.val) (Cls.setS_asid (s.orFlags r.flags).cls rd r.val) rfl
    rw [e]; exact State.issuing_step h
  rw [retireAt_eq hst]
  exact setS_writesScalar h _ rd r.val r.flags _

/-- A write of one scalar register and no flag. -/
theorem setS_retire_writesScalar {s : State} (h : s.issuing = true) (rd : Reg) (x : DWord) :
    WritesScalar s (retire (s.setS rd x)) s.next rd x 0 := by
  have := scalarOp_writesScalar h rd ⟨x, 0⟩
  have e : s.orFlags 0 = s := by
    unfold State.orFlags
    have : s.cls.cstat ||| 0 = s.cls.cstat := BitVec.or_zero
    rw [this]
  unfold scalarOp at this
  rw [e] at this
  exact this

theorem flagsOver_eq (s : State) (eff : Mask) (f : Nat → Word) : flagsOver s.cls.lanes eff f = laneFlags s eff f := by
  unfold flagsOver laneFlags
  have key : ∀ (l : List Nat) (a : Word), l.foldl (fun acc i => acc ||| f i) a = a ||| l.foldr (fun i acc => f i ||| acc) 0 := by
    intro l
    induction l with
    | nil => intro a; exact BitVec.or_zero.symm
    | cons x xs ih => intro a; rw [List.foldl_cons, ih, List.foldr_cons, BitVec.or_assoc]
  exact (key _ 0).trans BitVec.zero_or

theorem not_mem_lanesOf_zero (lanes : Nat) : lanesOf lanes 0 = [] := by
  unfold lanesOf
  rw [List.filter_eq_nil_iff]
  intro i _
  simp

theorem Cls.setP_frame (c : Cls) (fl : Word) (p : Nat) (e : Mask) (f : Nat → Word) (i : Nat) (g : Split → Split) :
    { (({ c with cstat := c.cstat ||| fl } : Cls).setP p e f).modSplit i g with
      splits := c.splits, v := c.v, cstat := c.cstat, poisonV := c.poisonV } = c := by
  cases c; rfl

theorem Cls.orFlags_frame (c : Cls) (fl : Word) (i : Nat) (g : Split → Split) :
    { ({ c with cstat := c.cstat ||| fl } : Cls).modSplit i g with
      splits := c.splits, v := c.v, k := c.k, cstat := c.cstat, poisonV := c.poisonV } = c := by
  cases c; rfl

theorem modCur_clsEq (s : State) (f : Split → Split) : (s.modCur f).cls = s.cls.modSplit s.iss.split f := rfl

theorem Cls.modSplit_marks (c : Cls) (i : Nat) (f : Split → Split) : (c.modSplit i f).poisonV = c.poisonV := rfl

theorem modCur_getV (s : State) (f : Split → Split) (r : Reg) (i : Nat) : (s.modCur f).getV r i = s.cls.getV r i := rfl

theorem Cls.modSplit_getP (c : Cls) (n : Nat) (f : Split → Split) (p i : Nat) : (c.modSplit n f).getP p i = c.getP p i := rfl

theorem Cls.getV_setP (c : Cls) (rd : Reg) (e : Mask) (f : Nat → Word) (i : Nat) (h : i < c.lanes) :
    (c.setP (c.phys rd) e f).getV rd i = if e.getLsbD i then f i else c.getV rd i := by
  have : (c.setP (c.phys rd) e f).phys rd = c.phys rd := rfl
  unfold Cls.getV
  rw [this]
  exact Cls.getP_setP_self c (c.phys rd) e f i h

theorem Cls.setP_marks (c : Cls) (p : Nat) (e : Mask) (f : Nat → Word) (m : Nat × Nat) (h : m ∈ (c.setP p e f).poisonV) :
    m ∈ c.poisonV := by
  have h : m ∈ (if c.liveM &&& e = c.liveM then c.poisonV.filter (fun q => q ≠ (0, p)) else c.poisonV) := h
  split at h
  · exact mem_filter_sub h
  · exact h

theorem outside_modCur {s u : State} (hu : { u with cls := s.cls } = s) (f : Split → Split) : OutsideKept s (u.modCur f) :=
  ⟨hu, fun a => by
    have : u.mem = s.mem := (congrArg State.mem hu : ({ u with cls := s.cls } : State).mem = s.mem)
    rw [modCur_mem, this]⟩

theorem setV_writesLanes {s : State} (h : s.issuing = true) (rd : Reg) (eff : Mask) (f : Nat → Word) (fl : Word) (pc : Int)
    (pend : List Pend) :
    WritesLanes s (((s.orFlags fl).setV rd eff f).modCur (fun sp => { sp with pc := pc, age := 0, pend := pend })) pc rd eff f
      fl := by
  by_cases he : eff = 0
  · have e : (s.orFlags fl).setV rd eff f = s.orFlags fl := by unfold State.setV; rw [if_pos he]
    rw [e]
    refine ⟨goesOn_of_modCur (u := s.orFlags fl) (State.issuing_split h) rfl rfl _, ?_, fun _ _ _ => rfl, rfl, fun m hm => hm,
      Cls.orFlags_frame s.cls fl s.iss.split _, outside_modCur (u := s.orFlags fl) rfl _⟩
    intro i _
    subst he
    rw [modCur_getV, if_neg (show ¬ (0 : Mask).getLsbD i = true by simp)]
    exact (rfl : ({ s.cls with cstat := s.cls.cstat ||| fl } : Cls).getV rd i = s.cls.getV rd i)
  · have e : (s.orFlags fl).setV rd eff f = { s.orFlags fl with cls := (s.orFlags fl).cls.setP (s.cls.phys rd) eff f } := by
      unfold State.setV; rw [if_neg he]; rfl
    rw [e]
    refine ⟨goesOn_of_modCur (u := { s.orFlags fl with cls := (s.orFlags fl).cls.setP (s.cls.phys rd) eff f })
      (State.issuing_split h) rfl rfl _, ?_, ?_, rfl, ?_, Cls.setP_frame s.cls fl _ eff f s.iss.split _,
      outside_modCur rfl _⟩
    · intro i hi
      rw [modCur_getV]
      exact Cls.getV_setP { s.cls with cstat := s.cls.cstat ||| fl } rd eff f i hi
    · intro p hp i
      rw [modCur_clsEq, Cls.modSplit_getP]
      exact Cls.getP_setP_other { s.cls with cstat := s.cls.cstat ||| fl } (s.cls.phys rd) p eff f i hp
    · intro m hm
      rw [modCur_clsEq, Cls.modSplit_marks] at hm
      exact Cls.setP_marks { s.cls with cstat := s.cls.cstat ||| fl } (s.cls.phys rd) eff f m hm

theorem State.setV_stepping (s : State) (rd : Reg) (eff : Mask) (f : Nat → Word) :
    (s.setV rd eff f).stepping = s.stepping := by
  unfold State.setV; split
  · rfl
  · exact State.stepping_congr rfl rfl rfl rfl

theorem State.setK_stepping (s : State) (k : Reg3) (eff m : Mask) : (s.setK k eff m).stepping = s.stepping := by
  unfold State.setK; split
  · rfl
  · exact State.stepping_congr rfl rfl rfl rfl

theorem State.orFlags_stepping (s : State) (fl : Word) : (s.orFlags fl).stepping = s.stepping :=
  State.stepping_congr rfl rfl rfl rfl

theorem State.setV_next (s : State) (rd : Reg) (eff : Mask) (f : Nat → Word) : (s.setV rd eff f).next = s.next := by
  unfold State.next; rw [setV_iss]

theorem State.setK_next (s : State) (k : Reg3) (eff m : Mask) : (s.setK k eff m).next = s.next := by
  unfold State.next; rw [setK_iss]

theorem laneOp_writesLanes {s : State} (h : s.issuing = true) (p : Pfx) (rd : Reg) (f : Nat → Fl Word) :
    WritesLanes s (laneOp p rd f s) s.next rd (s.eff p) (fun i => (f i).val) (laneFlags s (s.eff p) (fun i => (f i).flags)) := by
  unfold laneOp retire
  simp only []
  rw [flagsOver_eq, retireAt_eq, State.setV_next]
  · exact setV_writesLanes h rd _ _ _ _ _
  · rw [State.setV_stepping, State.orFlags_stepping]; exact State.issuing_step h

/-- A write of lanes and no flag. -/
theorem setV_retire_writesLanes {s : State} (h : s.issuing = true) (rd : Reg) (eff : Mask) (f : Nat → Word) :
    WritesLanes s (retire (s.setV rd eff f)) s.next rd eff f 0 := by
  unfold retire
  rw [retireAt_eq, State.setV_next]
  · have e : s.orFlags 0 = s := by
      unfold State.orFlags
      have : s.cls.cstat ||| 0 = s.cls.cstat := BitVec.or_zero
      rw [this]
    have := setV_writesLanes h rd eff f 0 s.next ((s.setV rd eff f).cls.passPend s.cur.pend)
    rw [e] at this
    have hc : (s.setV rd eff f).cur = s.cur := by
      unfold State.setV; split <;> rfl
    have hlen : (s.setV rd eff f).iss.split < (s.setV rd eff f).cls.splits.length := by
      unfold State.setV; split <;> exact State.issuing_split h
    have hm : (s.setV rd eff f).modCur (fun sp => { sp with pc := s.next, age := 0, pend := (s.setV rd eff f).cls.passPend sp.pend })
        = (s.setV rd eff f).modCur (fun sp => { sp with pc := s.next, age := 0, pend := (s.setV rd eff f).cls.passPend s.cur.pend }) := by
      unfold State.modCur Cls.modSplit
      have hc' : (s.setV rd eff f).cls.split (s.setV rd eff f).iss.split = s.cur := hc
      simp only [hc']
    rw [hm]; exact this
  · rw [State.setV_stepping]; exact State.issuing_step h

theorem Cls.setK_frame (c : Cls) (fl : Word) (k : Vector Mask 8) (q : List (Nat × Nat)) (i : Nat) (g : Split → Split) :
    { ({ c with cstat := c.cstat ||| fl, k := k, poisonV := q } : Cls).modSplit i g with
      splits := c.splits, k := c.k, cstat := c.cstat, poisonV := c.poisonV } = c := by
  cases c; rfl

theorem setK_writesMask {s : State} (h : s.issuing = true) (kd : Reg3) (eff m : Mask) (fl : Word) (pc : Int) (pend : List Pend)
    (f : Nat → Bool) (hf : ∀ i, i < 1024 → eff.getLsbD i = true → m.getLsbD i = f i) :
    WritesMask s (((s.orFlags fl).setK kd eff m).modCur (fun sp => { sp with pc := pc, age := 0, pend := pend })) pc kd eff f
      fl := by
  by_cases he : eff = 0
  · have e : (s.orFlags fl).setK kd eff m = s.orFlags fl := by unfold State.setK; rw [if_pos he]
    rw [e]
    refine ⟨goesOn_of_modCur (u := s.orFlags fl) (State.issuing_split h) rfl rfl _, ?_, fun _ _ => rfl, rfl, fun m hm => hm,
      Cls.orFlags_frame s.cls fl s.iss.split _, outside_modCur (u := s.orFlags fl) rfl _⟩
    intro i _
    rw [if_pos he]; rfl
  · have e : ((s.orFlags fl).setK kd eff m).cls.k = s.cls.k.set kd.toNat (m &&& eff) kd.isLt := by
      unfold State.setK; rw [if_neg he]; rfl
    have hi : ((s.orFlags fl).setK kd eff m).iss = s.iss := by unfold State.setK; rw [if_neg he]; rfl
    have hsp : ((s.orFlags fl).setK kd eff m).cls.splits = s.cls.splits := by unfold State.setK; rw [if_neg he]; rfl
    refine ⟨goesOn_of_modCur (u := (s.orFlags fl).setK kd eff m) (State.issuing_split h) hi hsp _, ?_, ?_, ?_, ?_, ?_, ?_⟩
    · intro i hi
      show ((((s.orFlags fl).setK kd eff m).cls.k)[kd.toNat]'kd.isLt).getLsbD i = _
      rw [if_neg he]
      simp only [e, Vector.getElem_set_self, BitVec.getLsbD_and]
      by_cases hb : eff.getLsbD i = true
      · rw [hf i hi hb, hb]; simp
      · simp only [Bool.not_eq_true] at hb; rw [hb]; simp
    · intro r hr
      show (((s.orFlags fl).setK kd eff m).cls.k)[r.toNat]'r.isLt = _
      simp only [e]
      exact Vector.getElem_set_ne _ _ (fun e => hr (BitVec.eq_of_toNat_eq e.symm))
    · show ((s.orFlags fl).setK kd eff m).cls.cstat = _
      unfold State.setK; rw [if_neg he]; rfl
    · intro q hq
      have : q ∈ ((s.orFlags fl).setK kd eff m).cls.poisonV := hq
      unfold State.setK at this; rw [if_neg he] at this
      exact mem_filter_sub this
    · have e2 : (s.orFlags fl).setK kd eff m = { s with cls := { s.cls with
          cstat := s.cls.cstat ||| fl, k := s.cls.k.set kd.toNat (m &&& eff) kd.isLt,
          poisonV := s.cls.poisonV.filter (fun p => p ≠ (2, kd.toNat)) } } := by unfold State.setK; rw [if_neg he]; rfl
      rw [e2]
      exact Cls.setK_frame s.cls fl _ _ s.iss.split _
    · exact outside_modCur (s := s) (by unfold State.setK; rw [if_neg he]; rfl) _

theorem laneCmp_writesMask {s : State} (h : s.issuing = true) (p : Pfx) (kd : Reg3) (f : Nat → Fl Bool) :
    WritesMask s (laneCmp p kd f s) s.next kd (s.eff p) (fun i => decide (i < s.cls.lanes) && (f i).val)
      (laneFlags s (s.eff p) (fun i => (f i).flags)) := by
  unfold laneCmp retire
  simp only []
  rw [flagsOver_eq, retireAt_eq, State.setK_next]
  · apply setK_writesMask h
    intro i hi _
    rw [maskOf_getLsbD]; simp [hi]
  · rw [State.setK_stepping, State.orFlags_stepping]; exact State.issuing_step h

theorem WritesLanes.of_eq {s t : State} {pc : Int} {rd : Reg} {eff : Mask} {f g : Nat → Word} {fl fl' : Word}
    (h : WritesLanes s t pc rd eff f fl) (hf : f = g) (hfl : fl = fl') : WritesLanes s t pc rd eff g fl' := by
  subst hf; subst hfl; exact h

theorem WritesMask.of_eq {s t : State} {pc : Int} {kd : Reg3} {eff : Mask} {f g : Nat → Bool} {fl fl' : Word}
    (h : WritesMask s t pc kd eff f fl) (hf : f = g) (hfl : fl = fl') : WritesMask s t pc kd eff g fl' := by
  subst hf; subst hfl; exact h

theorem WritesScalar.of_eq {s t : State} {pc : Int} {rd : Reg} {x y : DWord} {fl fl' : Word}
    (h : WritesScalar s t pc rd x fl) (hx : x = y) (hfl : fl = fl') : WritesScalar s t pc rd y fl' := by
  subst hx; subst hfl; exact h

/-! ### Events -/

/-- A class that is no handler raises; nothing else changes. -/
theorem raise_raises {s : State} (r : Raise) (hs : s.iss.split < s.cls.splits.length) (hk : s.cls.kind ≠ .handler) :
    Raises s (raise r s) r := by
  have hpost : raise r s = { s.modCur (fun sp => { sp with state := .blocked .event, pc := s.iss.pc }) with
      pending := s.pending ++ [⟨s.cls.core, s.route s.cls.level s.cls.vmid r.cause r.stage2, s.eventOf r⟩] } := by
    unfold raise State.post
    have : (s.cls.kind == ClsKind.handler) = false := by
      cases hc : s.cls.kind <;> simp_all
    simp only [this, Bool.false_and, Bool.false_eq_true, if_false]
    rfl
  have hcur : (raise r s).cur = { s.cur with state := .blocked .event, pc := s.iss.pc } := by
    rw [hpost]; exact Cls.split_modSplit_self s.cls s.iss.split _ hs
  refine ⟨?_, ?_, ?_, ?_, ?_, ?_, ?_⟩
  · rw [hcur]; exact ⟨rfl, rfl⟩
  · rw [hcur]
  · intro j hj; rw [hpost]; exact Cls.split_modSplit_other s.cls s.iss.split j _ hj
  · rw [hpost]; rfl
  · rw [hpost]
  · rw [hpost]; rfl
  · intro a; rw [hpost]; rfl

/-- The same after the group's effect. -/
theorem raiseAfter_raises {s : State} (r : Raise) (hs : s.iss.split < s.cls.splits.length) (hk : s.cls.kind ≠ .handler) :
    RaisesAfter s (raiseAfter r s) s.next s.next r := by
  have hb : (s.cls.kind == ClsKind.handler) = false := by cases hc : s.cls.kind <;> simp_all
  have e : raiseAfter r s = { s.modCur (fun sp => { sp with state := .blocked .event, pc := s.next, pend := s.cls.passPend sp.pend }) with
      pending := s.pending ++ [⟨s.cls.core, s.route s.cls.level s.cls.vmid r.cause r.stage2,
        { s.eventOf r with epc := pcWord s.next, resume := s.next, skipTo := s.next }⟩] } := by
    unfold raiseAfter State.post
    simp only [hb, Bool.false_and, Bool.false_eq_true, if_false]
    rfl
  have hcur : (raiseAfter r s).cur = { s.cur with state := .blocked .event, pc := s.next, pend := s.cls.passPend s.cur.pend } := by
    rw [e]; exact Cls.split_modSplit_self s.cls s.iss.split _ hs
  refine ⟨?_, ?_, ?_, ?_, ?_, ?_, ?_⟩
  · rw [hcur]; exact ⟨rfl, rfl⟩
  · rw [hcur]; exact ⟨rfl, rfl, rfl⟩
  · intro j hj; rw [e]; exact Cls.split_modSplit_other s.cls s.iss.split j _ hj
  · rw [e]; rfl
  · rw [e]; rfl
  · rw [e]; rfl
  · intro a; rw [e]; rfl

end Sys2Proof.Machine
end

