-- ==== Sys2Proof/Laws/PerInstr.lean ====
section
/-!
SUPPORT. Per-instruction families. `Grouped`: an instruction is one group of at most three words (R184), and only a device event,
which no program encodes, has no words.
-/

namespace Sys2Proof.Laws.Grouped

def Statement (i : Instr) : Prop := i.encode.length ≤ 3 ∧ (i.encode = [] ↔ i.isEvent = true)

theorem of_event {i : Instr} (h : i.encode = []) (he : i.isEvent = true) : Statement i := by simp [Statement, h, he]

theorem of_word {i : Instr} {w : Word} (h : i.encode = [w]) (he : i.isEvent = false) : Statement i := by simp [Statement, h, he]

theorem of_two {i : Instr} {v w : Word} (h : i.encode = [v, w]) (he : i.isEvent = false) : Statement i := by
  simp [Statement, h, he]

theorem of_prefixed {i : Instr} {x : Imx} {p : Pfx} {w : Word} (h : i.encode = prefixWords x p ++ [w])
    (he : i.isEvent = false) : Statement i := by
  cases x <;> cases p <;> simp [Statement, h, he, prefixWords]

theorem nop : Statement .nop := of_word rfl rfl
theorem endClass : Statement .endClass := of_word rfl rfl
theorem kend : Statement .kend := of_word rfl rfl
theorem bra (off : BitVec 25) : Statement (.bra off) := of_word rfl rfl
theorem call (off : BitVec 25) : Statement (.call off) := of_word rfl rfl
theorem ret : Statement .ret := of_word rfl rfl
theorem switch (ra : Reg) (table : BitVec 11) : Statement (.switch ra table) := of_word rfl rfl
theorem bu (k : Reg3) (c : BuCond) (off : BitVec 19) : Statement (.bu k c off) := of_word rfl rfl
theorem bz (ra : Reg) (off : BitVec 18) : Statement (.bz ra off) := of_word rfl rfl
theorem bnz (ra : Reg) (off : BitVec 18) : Statement (.bnz ra off) := of_word rfl rfl
theorem bspl (joinOff : BitVec 25) (k : Reg3) (inv : Bool) (off : BitVec 19) : Statement (.bspl joinOff k inv off) := of_two rfl rfl
theorem join : Statement .join := of_word rfl rfl
theorem allb : Statement .allb := of_word rfl rfl
theorem alle : Statement .alle := of_word rfl rfl
theorem wbase (n : BitVec 9) : Statement (.wbase n) := of_word rfl rfl
theorem vote (fn : VoteFn) (rd ra : Reg) : Statement (.vote fn rd ra) := of_word rfl rfl
theorem shfl (p : Pfx) (op : ShflOp) (all : Bool) (rd ra rb : Reg) : Statement (.shfl p op all rd ra rb) := of_prefixed rfl rfl
theorem srd (rd : Reg) (ix : BitVec 11) : Statement (.srd rd ix) := of_word rfl rfl
theorem swr (ra : Reg) (ix : BitVec 11) : Statement (.swr ra ix) := of_word rfl rfl
theorem trap (code : BitVec 11) : Statement (.trap code) := of_word rfl rfl
theorem brk (code : BitVec 11) : Statement (.brk code) := of_word rfl rfl
theorem launch (rd ra : Reg) : Statement (.launch rd ra) := of_word rfl rfl
theorem kop (p : Pfx) (fn : KopFn) (rd ra rb : Reg) : Statement (.kop p fn rd ra rb) := of_prefixed rfl rfl
theorem obRes (rd ra : Reg) : Statement (.obRes rd ra) := of_word rfl rfl
theorem obRel (ra : Reg) : Statement (.obRel ra) := of_word rfl rfl
theorem obSt (rd ra rb : Reg) : Statement (.obSt rd ra rb) := of_word rfl rfl
theorem obLd (rd ra rb : Reg) : Statement (.obLd rd ra rb) := of_word rfl rfl
theorem obStat (rd ra : Reg) : Statement (.obStat rd ra) := of_word rfl rfl
theorem matZero (rd : Reg3) : Statement (.matZero rd) := of_word rfl rfl
theorem matLoop (rd : Reg3) (ra rb : Reg) : Statement (.matLoop rd ra rb) := of_word rfl rfl
theorem matDrain (rd : Reg3) (ra rb : Reg) : Statement (.matDrain rd ra rb) := of_word rfl rfl
theorem matStat (rd : Reg) (ra : Reg3) : Statement (.matStat rd ra) := of_word rfl rfl
theorem chkbLane (rd ra rb : Reg) : Statement (.chkbLane rd ra rb) := of_word rfl rfl
theorem chkbScalar (rd ra rb : Reg) : Statement (.chkbScalar rd ra rb) := of_word rfl rfl
theorem tlkLock (rd ra rb : Reg) : Statement (.tlkLock rd ra rb) := of_word rfl rfl
theorem tlkUnlk (ra : Reg) : Statement (.tlkUnlk ra) := of_word rfl rfl
theorem pstd (rs ra : Reg) (off : BitVec 7) (la : La) : Statement (.pstd rs ra off la) := of_word rfl rfl
theorem salu (fn : AluFn) (rd ra rb : Reg) : Statement (.salu fn rd ra rb) := of_word rfl rfl
theorem scmp (fn : CmpFn) (rd ra rb : Reg) : Statement (.scmp fn rd ra rb) := of_word rfl rfl
theorem saddi (x : Imx) (rd ra : Reg) (imm : BitVec 11) : Statement (.saddi x rd ra imm) := of_prefixed rfl rfl
theorem sandi (x : Imx) (rd ra : Reg) (imm : BitVec 11) : Statement (.sandi x rd ra imm) := of_prefixed rfl rfl
theorem sori (x : Imx) (rd ra : Reg) (imm : BitVec 11) : Statement (.sori x rd ra imm) := of_prefixed rfl rfl
theorem sshi (kind : ShiftKind) (rd ra : Reg) (n : BitVec 6) : Statement (.sshi kind rd ra n) := of_word rfl rfl
theorem slui (rd : Reg) (imm : BitVec 18) : Statement (.slui rd imm) := of_word rfl rfl
theorem smovv (rd ra : Reg) (lane : BitVec 10) : Statement (.smovv rd ra lane) := of_word rfl rfl
theorem crd (rd : Reg) (below : Bool) (ix : BitVec 10) : Statement (.crd rd below ix) := of_word rfl rfl
theorem cwr (ra : Reg) (below : Bool) (ix : BitVec 10) : Statement (.cwr ra below ix) := of_word rfl rfl
theorem tret : Statement .tret := of_word rfl rfl
theorem tlbFill (rd ra rb : Reg) : Statement (.tlbFill rd ra rb) := of_word rfl rfl
theorem tlbInv (rd ra rb : Reg) : Statement (.tlbInv rd ra rb) := of_word rfl rfl
theorem tlbInva (rd rb : Reg) : Statement (.tlbInva rd rb) := of_word rfl rfl
theorem tlbShoot (rd ra rb : Reg) : Statement (.tlbShoot rd ra rb) := of_word rfl rfl
theorem tlbLook (rd ra rb : Reg) : Statement (.tlbLook rd ra rb) := of_word rfl rfl
theorem sealAdmit (rd ra rb : Reg) : Statement (.sealAdmit rd ra rb) := of_word rfl rfl
theorem sealSeal (rd ra rb : Reg) : Statement (.sealSeal rd ra rb) := of_word rfl rfl
theorem sealUnseal (rd ra : Reg) : Statement (.sealUnseal rd ra) := of_word rfl rfl
theorem ctxSave (rd ra rb : Reg) : Statement (.ctxSave rd ra rb) := of_word rfl rfl
theorem ctxLoad (rd ra rb : Reg) : Statement (.ctxLoad rd ra rb) := of_word rfl rfl
theorem ctxPark (rd ra : Reg) : Statement (.ctxPark rd ra) := of_word rfl rfl
theorem ctxResume (rd ra : Reg) : Statement (.ctxResume rd ra) := of_word rfl rfl
theorem rightsGrant (rd ra rb : Reg) : Statement (.rightsGrant rd ra rb) := of_word rfl rfl
theorem rightsRevoke (rd ra rb : Reg) : Statement (.rightsRevoke rd ra rb) := of_word rfl rfl
theorem rightsRoute (rd ra rb : Reg) : Statement (.rightsRoute rd ra rb) := of_word rfl rfl
theorem pldd (rd ra : Reg) (off : BitVec 7) (la : La) : Statement (.pldd rd ra off la) := of_word rfl rfl
theorem valu (p : Pfx) (fn : AluFn) (rd ra rb : Reg) : Statement (.valu p fn rd ra rb) := of_prefixed rfl rfl
theorem valus (p : Pfx) (fn : AluFn) (rd ra rb : Reg) : Statement (.valus p fn rd ra rb) := of_prefixed rfl rfl
theorem vmad (p : Pfx) (fn : MadFn) (rd ra rb : Reg) : Statement (.vmad p fn rd ra rb) := of_prefixed rfl rfl
theorem vcmp (p : Pfx) (fn : CmpFn) (kd : Reg3) (ra rb : Reg) : Statement (.vcmp p fn kd ra rb) := of_prefixed rfl rfl
theorem vcmps (p : Pfx) (fn : CmpFn) (kd : Reg3) (ra rb : Reg) : Statement (.vcmps p fn kd ra rb) := of_prefixed rfl rfl
theorem vun (p : Pfx) (fn : VunFn) (rd ra : Reg) : Statement (.vun p fn rd ra) := of_prefixed rfl rfl
theorem vsel (p : Pfx) (rd ra rb : Reg) (k : Reg3) : Statement (.vsel p rd ra rb k) := of_prefixed rfl rfl
theorem vaddi (x : Imx) (p : Pfx) (rd ra : Reg) (imm : BitVec 11) : Statement (.vaddi x p rd ra imm) := of_prefixed rfl rfl
theorem vshi (p : Pfx) (kind : ShiftKind) (rd ra : Reg) (n : BitVec 5) : Statement (.vshi p kind rd ra n) := of_prefixed rfl rfl
theorem vpack (p : Pfx) (fn : PackFn) (rd ra rb : Reg) : Statement (.vpack p fn rd ra rb) := of_prefixed rfl rfl
theorem falu (p : Pfx) (fn : FaluFn) (rd ra rb : Reg) : Statement (.falu p fn rd ra rb) := of_prefixed rfl rfl
theorem falus (p : Pfx) (fn : FaluFn) (rd ra rb : Reg) : Statement (.falus p fn rd ra rb) := of_prefixed rfl rfl
theorem ffma (p : Pfx) (fn : FmaFn) (scalar : Bool) (rd ra rb : Reg) : Statement (.ffma p fn scalar rd ra rb) := of_prefixed rfl rfl
theorem fcmp (p : Pfx) (fn : FcmpFn) (kd : Reg3) (ra rb : Reg) : Statement (.fcmp p fn kd ra rb) := of_prefixed rfl rfl
theorem funit (p : Pfx) (fn : FunFn) (rd ra : Reg) : Statement (.funit p fn rd ra) := of_prefixed rfl rfl
theorem halu (p : Pfx) (bf : Bool) (fn : HaluFn) (rd ra rb : Reg) : Statement (.halu p bf fn rd ra rb) := of_prefixed rfl rfl
theorem hfma (p : Pfx) (bf wide : Bool) (rd ra rb : Reg) : Statement (.hfma p bf wide rd ra rb) := of_prefixed rfl rfl
theorem cvt (p : Pfx) (fn : CvtFn) (rd ra rb : Reg) : Statement (.cvt p fn rd ra rb) := of_prefixed rfl rfl
theorem cvt8Pack (p : Pfx) (e5 hi sat : Bool) (rd ra rb : Reg) : Statement (.cvt8Pack p e5 hi sat rd ra rb) := of_prefixed rfl rfl
theorem cvt8Unpack (p : Pfx) (e5 : Bool) (byte : BitVec 2) (rd ra : Reg) : Statement (.cvt8Unpack p e5 byte rd ra) := of_prefixed rfl rfl
theorem expd (p : Pfx) (kind : ExpdKind) (hi : Bool) (rd ra rb : Reg) : Statement (.expd p kind hi rd ra rb) := of_prefixed rfl rfl
theorem redi (fn : RedFn) (rd ra : Reg) : Statement (.redi fn rd ra) := of_word rfl rfl
theorem redf (fn : RedfFn) (rd ra : Reg) : Statement (.redf fn rd ra) := of_word rfl rfl
theorem ldl (x : Imx) (p : Pfx) (wd : Width) (rd ra : Reg) (off : BitVec 7) (la : La) : Statement (.ldl x p wd rd ra off la) := of_prefixed rfl rfl
theorem stl (x : Imx) (p : Pfx) (wd : Width) (rs ra : Reg) (off : BitVec 7) (la : La) : Statement (.stl x p wd rs ra off la) := of_prefixed rfl rfl
theorem ldi (p : Pfx) (wd : Width) (rd ra rb : Reg) (la : La) : Statement (.ldi p wd rd ra rb la) := of_prefixed rfl rfl
theorem sti (p : Pfx) (wd : Width) (rs ra rb : Reg) (la : La) : Statement (.sti p wd rs ra rb la) := of_prefixed rfl rfl
theorem sld (x : Imx) (p : Pfx) (dbl : Bool) (rd ra : Reg) (off : BitVec 7) (la : La) : Statement (.sld x p dbl rd ra off la) := of_prefixed rfl rfl
theorem sst (x : Imx) (p : Pfx) (dbl : Bool) (rs ra : Reg) (off : BitVec 7) (la : La) : Statement (.sst x p dbl rs ra off la) := of_prefixed rfl rfl
theorem lds (x : Imx) (p : Pfx) (dbl : Bool) (rd ra : Reg) (off : BitVec 7) (la : La) : Statement (.lds x p dbl rd ra off la) := of_prefixed rfl rfl
theorem sts (x : Imx) (p : Pfx) (dbl : Bool) (rs ra : Reg) (off : BitVec 7) (la : La) : Statement (.sts x p dbl rs ra off la) := of_prefixed rfl rfl
theorem ldaq (x : Imx) (p : Pfx) (rd ra : Reg) (off : BitVec 7) (la : La) : Statement (.ldaq x p rd ra off la) := of_prefixed rfl rfl
theorem strl (x : Imx) (p : Pfx) (rs ra : Reg) (off : BitVec 7) (la : La) : Statement (.strl x p rs ra off la) := of_prefixed rfl rfl
theorem aadd (p : Pfx) (rd ra rb : Reg) (la : La) : Statement (.aadd p rd ra rb la) := of_prefixed rfl rfl
theorem amin (p : Pfx) (rd ra rb : Reg) (la : La) : Statement (.amin p rd ra rb la) := of_prefixed rfl rfl
theorem amax (p : Pfx) (rd ra rb : Reg) (la : La) : Statement (.amax p rd ra rb la) := of_prefixed rfl rfl
theorem aand (p : Pfx) (rd ra rb : Reg) (la : La) : Statement (.aand p rd ra rb la) := of_prefixed rfl rfl
theorem aor (p : Pfx) (rd ra rb : Reg) (la : La) : Statement (.aor p rd ra rb la) := of_prefixed rfl rfl
theorem axor (p : Pfx) (rd ra rb : Reg) (la : La) : Statement (.axor p rd ra rb la) := of_prefixed rfl rfl
theorem axch (p : Pfx) (rd ra rb : Reg) (la : La) : Statement (.axch p rd ra rb la) := of_prefixed rfl rfl
theorem acas (p : Pfx) (rd ra rb : Reg) (la : La) : Statement (.acas p rd ra rb la) := of_prefixed rfl rfl
theorem afadd (p : Pfx) (rd ra rb : Reg) (la : La) : Statement (.afadd p rd ra rb la) := of_prefixed rfl rfl
theorem mredW (p : Pfx) (fn : RedFn) (ra rb : Reg) (la : La) : Statement (.mredW p fn ra rb la) := of_prefixed rfl rfl
theorem mredD (p : Pfx) (fn : RedFn) (ra rb : Reg) (la : La) : Statement (.mredD p fn ra rb la) := of_prefixed rfl rfl
theorem mredF (p : Pfx) (fn : RedfFn) (ra rb : Reg) (la : La) : Statement (.mredF p fn ra rb la) := of_prefixed rfl rfl
theorem rldsF (p : Pfx) (bf : Bool) (rd ra : Reg) (off : BitVec 6) (la : La) : Statement (.rldsF p bf rd ra off la) := of_prefixed rfl rfl
theorem rldsI (p : Pfx) (rd ra : Reg) (off : BitVec 6) (la : La) : Statement (.rldsI p rd ra off la) := of_prefixed rfl rfl
theorem fence (scope : BitVec 3) (kind : FenceKind) : Statement (.fence scope kind) := of_word rfl rfl
theorem wait (p : Pfx) (c : WaitCond) (ra rb : Reg) : Statement (.wait p c ra rb) := of_prefixed rfl rfl
theorem bari (p : Pfx) (ra rb : Reg) : Statement (.bari p ra rb) := of_prefixed rfl rfl
theorem barv (p : Pfx) (ra rb : Reg) : Statement (.barv p ra rb) := of_prefixed rfl rfl
theorem barw (p : Pfx) (ra rb : Reg) : Statement (.barw p ra rb) := of_prefixed rfl rfl
theorem barx (p : Pfx) (ra rb : Reg) : Statement (.barx p ra rb) := of_prefixed rfl rfl
theorem barz (p : Pfx) (ra : Reg) : Statement (.barz p ra) := of_prefixed rfl rfl
theorem barp (p : Pfx) (rd ra : Reg) : Statement (.barp p rd ra) := of_prefixed rfl rfl
theorem cpyGs (rd ra rb : Reg) : Statement (.cpyGs rd ra rb) := of_word rfl rfl
theorem cpySg (rd ra rb : Reg) : Statement (.cpySg rd ra rb) := of_word rfl rfl
theorem cpyGob (rd ra rb : Reg) : Statement (.cpyGob rd ra rb) := of_word rfl rfl
theorem cpyGb (rd ra rb : Reg) : Statement (.cpyGb rd ra rb) := of_word rfl rfl
theorem cpySob (rd ra rb : Reg) : Statement (.cpySob rd ra rb) := of_word rfl rfl
theorem cpyCas (rd ra rb : Reg) : Statement (.cpyCas rd ra rb) := of_word rfl rfl
theorem cpyCag (rd ra rb : Reg) : Statement (.cpyCag rd ra rb) := of_word rfl rfl
theorem cpySca (rd ra rb : Reg) : Statement (.cpySca rd ra rb) := of_word rfl rfl
theorem cpyGg (rd ra rb : Reg) : Statement (.cpyGg rd ra rb) := of_word rfl rfl
theorem caLoa (rd ra : Reg) : Statement (.caLoa rd ra) := of_word rfl rfl
theorem caNode (rd ra : Reg) : Statement (.caNode rd ra) := of_word rfl rfl
theorem caRef (ra : Reg) : Statement (.caRef ra) := of_word rfl rfl
theorem caRel (ra : Reg) : Statement (.caRel ra) := of_word rfl rfl
theorem caGet (rd ra : Reg) : Statement (.caGet rd ra) := of_word rfl rfl
theorem caSwap (rd ra rb : Reg) : Statement (.caSwap rd ra rb) := of_word rfl rfl
theorem caStat (rd ra : Reg) : Statement (.caStat rd ra) := of_word rfl rfl
theorem cld (p : Pfx) (rd ra rb : Reg) (la : La) : Statement (.cld p rd ra rb la) := of_prefixed rfl rfl
theorem pref (p : Pfx) (count ra : Reg) (off : BitVec 7) : Statement (.pref p count ra off) := of_prefixed rfl rfl
theorem loadValueReturn (cls acc : Nat) (lanes : Mask) : Statement (.loadValueReturn cls acc lanes) := of_event rfl rfl
theorem storePerformed (cls acc lane : Nat) : Statement (.storePerformed cls acc lane) := of_event rfl rfl
theorem monitorAtomic (cls acc : Nat) : Statement (.monitorAtomic cls acc) := of_event rfl rfl
theorem releaseQueueEntry (vmid store monitor : Nat) : Statement (.releaseQueueEntry vmid store monitor) := of_event rfl rfl
theorem copyEngineStart (op : Nat) : Statement (.copyEngineStart op) := of_event rfl rfl
theorem copyEngineComplete (op : Nat) : Statement (.copyEngineComplete op) := of_event rfl rfl
theorem matLoopRun (core op : Nat) : Statement (.matLoopRun core op) := of_event rfl rfl
theorem matLoopComplete (core op : Nat) : Statement (.matLoopComplete core op) := of_event rfl rfl
theorem matDrainRun (core op : Nat) : Statement (.matDrainRun core op) := of_event rfl rfl
theorem twinRendezvous (core op : Nat) : Statement (.twinRendezvous core op) := of_event rfl rfl
theorem twinwaitExpiry (core op : Nat) : Statement (.twinwaitExpiry core op) := of_event rfl rfl
theorem runnerSpawn (cls split acc : Nat) : Statement (.runnerSpawn cls split acc) := of_event rfl rfl
theorem handlerEntry (core level : Nat) : Statement (.handlerEntry core level) := of_event rfl rfl
theorem handlerTimeLimit (core level : Nat) : Statement (.handlerTimeLimit core level) := of_event rfl rfl
theorem walkerStart (core : Nat) : Statement (.walkerStart core) := of_event rfl rfl
theorem logReplay (cls acc : Nat) : Statement (.logReplay cls acc) := of_event rfl rfl
theorem faultQueueAppend (q : QueueId) : Statement (.faultQueueAppend q) := of_event rfl rfl
theorem fqdoneReplay (q : QueueId) (seq : Nat) : Statement (.fqdoneReplay q seq) := of_event rfl rfl
theorem fqdoneForward (q : QueueId) (seq : Nat) : Statement (.fqdoneForward q seq) := of_event rfl rfl
theorem fqdoneKill (q : QueueId) (seq : Nat) : Statement (.fqdoneKill q seq) := of_event rfl rfl
theorem fqdoneAbort (q : QueueId) (seq : Nat) : Statement (.fqdoneAbort q seq) := of_event rfl rfl
theorem fqconsWrite (q : QueueId) (value : Nat) : Statement (.fqconsWrite q value) := of_event rfl rfl
theorem dlconsWrite (vmid value : Nat) : Statement (.dlconsWrite vmid value) := of_event rfl rfl
theorem cadescInstall (vmid asid addr : Nat) : Statement (.cadescInstall vmid asid addr) := of_event rfl rfl
theorem cadescFresh (vmid asid addr : Nat) : Statement (.cadescFresh vmid asid addr) := of_event rfl rfl
theorem queueEnable (vmid queue : Nat) : Statement (.queueEnable vmid queue) := of_event rfl rfl
theorem queueDisable (vmid queue : Nat) (abort : Bool) : Statement (.queueDisable vmid queue abort) := of_event rfl rfl
theorem takeLaunchPacket (vmid : Nat) : Statement (.takeLaunchPacket vmid) := of_event rfl rfl
theorem fencePacket (vmid queue : Nat) : Statement (.fencePacket vmid queue) := of_event rfl rfl
theorem fenceWordWrite (vmid queue : Nat) : Statement (.fenceWordWrite vmid queue) := of_event rfl rfl
theorem submitServiceRecord (vmid : Nat) : Statement (.submitServiceRecord vmid) := of_event rfl rfl
theorem placeHouse (launch house unit_ : Nat) : Statement (.placeHouse launch house unit_) := of_event rfl rfl
theorem formEnd (form : Nat) : Statement (.formEnd form) := of_event rfl rfl
theorem launchComplete (launch : Nat) : Statement (.launchComplete launch) := of_event rfl rfl
theorem deadlineExpiry (form : Nat) : Statement (.deadlineExpiry form) := of_event rfl rfl
theorem energyWindowEnd (window package : Nat) : Statement (.energyWindowEnd window package) := of_event rfl rfl
theorem bandwidthRefill : Statement .bandwidthRefill := of_event rfl rfl
theorem bandwidthSet (vmid : Nat) (asid : Option Nat) (rate depth : Nat) : Statement (.bandwidthSet vmid asid rate depth) := of_event rfl rfl
theorem energyShareWrite (vmid : Option Nat) (value : Nat) : Statement (.energyShareWrite vmid value) := of_event rfl rfl
theorem rotationWrite (core : Nat) (entry : Option Nat) (value : BitVec 64) : Statement (.rotationWrite core entry value) := of_event rfl rfl
theorem rotationPeriodBoundary (core : Nat) : Statement (.rotationPeriodBoundary core) := of_event rfl rfl
theorem sliceBoundary (core : Nat) : Statement (.sliceBoundary core) := of_event rfl rfl
theorem virtualTimeAdjust (vmid : Nat) (scale : Bool) (value : BitVec 64) : Statement (.virtualTimeAdjust vmid scale value) := of_event rfl rfl
theorem timerExpiry (vmid : Nat) : Statement (.timerExpiry vmid) := of_event rfl rfl
theorem strictRetry (cls acc : Nat) : Statement (.strictRetry cls acc) := of_event rfl rfl
theorem strictTimeout (cls acc : Nat) : Statement (.strictTimeout cls acc) := of_event rfl rfl
theorem registrarAdmission : Statement .registrarAdmission := of_event rfl rfl
theorem unsealCompletion (handle : Nat) : Statement (.unsealCompletion handle) := of_event rfl rfl
theorem cpWrite (m : CpMsg) : Statement (.cpWrite m) := of_event rfl rfl
theorem cpRead (m : CpMsg) : Statement (.cpRead m) := of_event rfl rfl
theorem cpCwrite (m : CpMsg) : Statement (.cpCwrite m) := of_event rfl rfl
theorem cpCread (m : CpMsg) : Statement (.cpCread m) := of_event rfl rfl
theorem keysw (m : CpMsg) : Statement (.keysw m) := of_event rfl rfl
theorem oldKeyExpiry (stream : Nat) : Statement (.oldKeyExpiry stream) := of_event rfl rfl
theorem peerRequest (r : PeerReq) : Statement (.peerRequest r) := of_event rfl rfl
theorem peerTimeout (cls acc : Nat) : Statement (.peerTimeout cls acc) := of_event rfl rfl
theorem replicaRequest (vmid setId offset size : Nat) : Statement (.replicaRequest vmid setId offset size) := of_event rfl rfl
theorem gatherResponse (cls acc count : Nat) (sums : List Word) : Statement (.gatherResponse cls acc count sums) := of_event rfl rfl
theorem gatherTimeout (cls acc : Nat) : Statement (.gatherTimeout cls acc) := of_event rfl rfl
theorem getCertificate (stream : Nat) : Statement (.getCertificate stream) := of_event rfl rfl
theorem getMeasurements (stream index : Nat) : Statement (.getMeasurements stream index) := of_event rfl rfl
theorem keyExchange (r : SessionReq) : Statement (.keyExchange r) := of_event rfl rfl
theorem keyUpdate (stream : Nat) : Statement (.keyUpdate stream) := of_event rfl rfl
theorem resetRequest (confidential : Bool) : Statement (.resetRequest confidential) := of_event rfl rfl
theorem powerOnReset : Statement .powerOnReset := of_event rfl rfl
theorem keyRekey (tag : Nat) : Statement (.keyRekey tag) := of_event rfl rfl
theorem coreRestart (core : Nat) : Statement (.coreRestart core) := of_event rfl rfl
theorem errorSnapshot (vmid : Option Nat) (ix : Nat) : Statement (.errorSnapshot vmid ix) := of_event rfl rfl
theorem measurementExtend (slot pa : Nat) : Statement (.measurementExtend slot pa) := of_event rfl rfl
theorem memoryError (e : MemErr) : Statement (.memoryError e) := of_event rfl rfl
theorem patrolScrub (pa : Nat) (err : Option MemErr) : Statement (.patrolScrub pa err) := of_event rfl rfl
theorem thermalThrottle (temp : Nat) : Statement (.thermalThrottle temp) := of_event rfl rfl
theorem thermalTrip (temp : Nat) : Statement (.thermalTrip temp) := of_event rfl rfl
theorem instructionFetch (cls split : Nat) : Statement (.instructionFetch cls split) := of_event rfl rfl
theorem monitorContentOperation (req : Nat) : Statement (.monitorContentOperation req) := of_event rfl rfl
theorem copyEngineFault (op : Nat) (why : EngineFault) : Statement (.copyEngineFault op why) := of_event rfl rfl
theorem thermalRecovery (temp : Nat) : Statement (.thermalRecovery temp) := of_event rfl rfl

end Sys2Proof.Laws.Grouped
end

