-- ==== Sys2Proof/Laws/Phys.lean ====
section
/-!
SUPPORT. What writes at the home do: they touch the memory system alone, and keep memory's canonical form (log entry 2).
-/

namespace Sys2Proof.Machine

/-- Nothing but memory, its caches at the home, its marks, its bandwidth buckets and the counter of free choices has changed. -/
def MemoryOnly (s t : State) : Prop :=
  t = { s with mem := t.mem, keyOf := t.keyOf, l2 := t.l2, rdc := t.rdc, poison := t.poison, tokens := t.tokens, free := t.free }

theorem MemoryOnly.refl (s : State) : MemoryOnly s s := rfl

theorem MemoryOnly.trans {s t u : State} (h : MemoryOnly s t) (g : MemoryOnly t u) : MemoryOnly s u := by
  unfold MemoryOnly at *
  rw [g, h]

theorem MemoryOnly.cls {s t : State} (h : MemoryOnly s t) : t.cls = s.cls := by rw [h]
theorem MemoryOnly.others {s t : State} (h : MemoryOnly s t) : t.others = s.others := by rw [h]
theorem MemoryOnly.words {s t : State} (h : MemoryOnly s t) : t.words = s.words := by rw [h]
theorem MemoryOnly.forms {s t : State} (h : MemoryOnly s t) : t.forms = s.forms := by rw [h]
theorem MemoryOnly.pending {s t : State} (h : MemoryOnly s t) : t.pending = s.pending := by rw [h]
theorem MemoryOnly.iss {s t : State} (h : MemoryOnly s t) : t.iss = s.iss := by rw [h]
theorem MemoryOnly.l1 {s t : State} (h : MemoryOnly s t) : t.l1 = s.l1 := by rw [h]
theorem MemoryOnly.tlb {s t : State} (h : MemoryOnly s t) : t.tlb = s.tlb := by rw [h]
theorem MemoryOnly.sealMap {s t : State} (h : MemoryOnly s t) : t.sealMap = s.sealMap := by rw [h]
theorem MemoryOnly.pins {s t : State} (h : MemoryOnly s t) : t.pins = s.pins := by rw [h]

/-- Steps of one kind, one after another. -/
theorem MemoryOnly.foldl {α : Type} {f : State → α → State} (h : ∀ s x, MemoryOnly s (f s x)) (l : List α) (s : State) :
    MemoryOnly s (l.foldl f s) := by
  induction l generalizing s with
  | nil => exact .refl s
  | cons x l ih => exact (h s x).trans (ih _)

theorem keeps_wf_foldl {α : Type} {f : State → α → State} (h : ∀ s x, Memory.wf s.mem = true → Memory.wf (f s x).mem = true)
    (l : List α) (s : State) (hs : Memory.wf s.mem = true) : Memory.wf (l.foldl f s).mem = true := by
  induction l generalizing s with
  | nil => exact hs
  | cons x l ih => exact ih _ (h s x hs)

theorem MemoryOnly.marks (s : State) (l : List Nat) : MemoryOnly s { s with poison := l } := rfl

/-! ### Each operation -/

theorem rekeySector_only (s : State) (key a : Nat) : MemoryOnly s (s.rekeySector key a) := by
  unfold State.rekeySector; simp only []; split <;> rfl

theorem rekeySector_wf (s : State) (key a : Nat) (h : Memory.wf s.mem = true) : Memory.wf (s.rekeySector key a).mem = true := by
  unfold State.rekeySector; simp only []; split
  · exact h
  · exact Memory.write_wf _ _ _ h

theorem dropL2_only (s : State) (x : L2Sector) : MemoryOnly s (s.dropL2 x) := by
  unfold State.dropL2; simp only []; split <;> rfl

theorem dropL2_wf (s : State) (x : L2Sector) (h : Memory.wf s.mem = true) : Memory.wf (s.dropL2 x).mem = true := by
  unfold State.dropL2; simp only []; split
  · exact h
  · exact Memory.write_wf _ _ _ h

theorem dropL2Line_only (s : State) (line : Nat) : MemoryOnly s (s.dropL2Line line) := .foldl dropL2_only _ _

theorem dropL2Line_wf (s : State) (line : Nat) (h : Memory.wf s.mem = true) : Memory.wf (s.dropL2Line line).mem = true :=
  keeps_wf_foldl dropL2_wf _ _ h

theorem debit_only (s : State) (ctl vmid sub units : Nat) : MemoryOnly s (s.debit ctl vmid sub units) := by
  unfold State.debit; split <;> rfl

theorem retireL2_only (s : State) (line : Nat) : MemoryOnly s (s.retireL2 line) := by
  unfold State.retireL2; simp only []; split
  · exact dropL2Line_only s line
  · split
    · exact (debit_only s _ _ _ _).trans (dropL2Line_only _ _)
    · exact .refl s

theorem retireL2_wf (s : State) (line : Nat) (h : Memory.wf s.mem = true) : Memory.wf (s.retireL2 line).mem = true := by
  unfold State.retireL2; simp only []; split
  · exact dropL2Line_wf s line h
  · split
    · refine dropL2Line_wf _ _ ?_
      unfold State.debit; split <;> exact h
    · exact h

theorem roomL2_only (s : State) (pa : Nat) : MemoryOnly s (s.roomL2 pa) := by
  unfold State.roomL2; split
  · exact .refl s
  · split
    · exact .refl s
    · exact MemoryOnly.trans (t := s.usedChoice) rfl (retireL2_only _ _)

theorem roomL2_wf (s : State) (pa : Nat) (h : Memory.wf s.mem = true) : Memory.wf (s.roomL2 pa).mem = true := by
  unfold State.roomL2; split
  · exact h
  · split
    · exact h
    · exact retireL2_wf s.usedChoice _ h

theorem enterL2_only (s : State) (w : Via) (tag rank a : Nat) : MemoryOnly s (s.enterL2 w tag rank a) := by
  unfold State.enterL2; split
  · exact .refl s
  · exact .refl s
  · split
    · split <;> rfl
    · simp only []; split
      · exact (roomL2_only s a).trans rfl
      · exact roomL2_only s a

theorem enterL2_wf (s : State) (w : Via) (tag rank a : Nat) (h : Memory.wf s.mem = true) :
    Memory.wf (s.enterL2 w tag rank a).mem = true := by
  unfold State.enterL2; split
  · exact h
  · exact h
  · split
    · split <;> exact h
    · simp only []; split <;> exact roomL2_wf s a h

theorem writeByte_only (s : State) (w : Via) (tag : Nat) (wb : Bool) (a : Nat) (b : Byte) :
    MemoryOnly s (s.writeByte w tag wb a b) := by
  unfold State.writeByte; simp only []; split
  · exact (rekeySector_only s _ a).trans rfl
  · split
    · rfl
    · split
      · exact (rekeySector_only s _ a).trans rfl
      · split <;> exact (rekeySector_only s _ a).trans rfl

theorem writeByte_wf (s : State) (w : Via) (tag : Nat) (wb : Bool) (a : Nat) (b : Byte) (h : Memory.wf s.mem = true) :
    Memory.wf (s.writeByte w tag wb a b).mem = true := by
  unfold State.writeByte; simp only []; split
  · exact Memory.set_wf _ _ _ (rekeySector_wf s _ a h)
  · split
    · exact h
    · split
      · exact Memory.set_wf _ _ _ (rekeySector_wf s _ a h)
      · split <;> exact Memory.set_wf _ _ _ (rekeySector_wf s _ a h)

theorem invalRdc_only (s : State) (w : Via) (grain base n : Nat) : MemoryOnly s (s.invalRdc w grain base n) := rfl

theorem clearMarks_only (s : State) (w : Via) (wb : Bool) (a n : Nat) : MemoryOnly s (s.clearMarks w wb a n) := rfl

/-- A write of bytes at the home touches the memory system alone. -/
theorem physWrite_only (s : State) (w : Via) (tag : Nat) (p : LineAttr) (a : Nat) (bs : List Byte) :
    MemoryOnly s (s.physWrite w tag p a bs) := by
  unfold State.physWrite
  dsimp only
  have h : MemoryOnly s
      (bs.zipIdx.foldl (fun s q => (s.enterL2 w tag p.rank (a + q.2)).writeByte w tag p.wb (a + q.2) q.1) s) :=
    .foldl (fun s q => (enterL2_only s w tag p.rank _).trans (writeByte_only _ w tag p.wb _ _)) _ _
  revert h
  generalize List.foldl _ s bs.zipIdx = u
  intro h
  refine (MemoryOnly.trans ?_ (clearMarks_only _ w p.wb a _))
  split
  · exact h
  · exact h.trans (invalRdc_only u w _ a _)

theorem physWrite_wf (s : State) (w : Via) (tag : Nat) (p : LineAttr) (a : Nat) (bs : List Byte) (h : Memory.wf s.mem = true) :
    Memory.wf (s.physWrite w tag p a bs).mem = true := by
  unfold State.physWrite
  dsimp only
  have g : Memory.wf
      (bs.zipIdx.foldl (fun s q => (s.enterL2 w tag p.rank (a + q.2)).writeByte w tag p.wb (a + q.2) q.1) s).mem = true :=
    keeps_wf_foldl (fun s q hs => writeByte_wf _ w tag p.wb _ _ (enterL2_wf s w tag p.rank _ hs)) _ _ h
  revert g
  generalize List.foldl _ s bs.zipIdx = u
  intro g
  by_cases hb : bs.isEmpty
  · rw [if_pos hb]; exact g
  · rw [if_neg hb]; exact g

theorem hwWrite_only (s : State) (tag a : Nat) (bs : List Byte) : MemoryOnly s (s.hwWrite tag a bs) := physWrite_only s _ _ _ _ _

theorem hwWrite_wf (s : State) (tag a : Nat) (bs : List Byte) (h : Memory.wf s.mem = true) :
    Memory.wf (s.hwWrite tag a bs).mem = true := physWrite_wf s _ _ _ _ _ h

end Sys2Proof.Machine
end

