-- ==== Sys2Proof/Laws/Units.lean ====
section
/-!
SUPPORT. What a hardware unit's accesses do: a read sends at most requests to peers, a write changes the memory system besides
(R433, R434; log entry 62).
-/

namespace Sys2Proof.Machine

/-- Nothing but the traffic to peers and the counter of free choices has changed. -/
def SentOnly (s t : State) : Prop := t = { s with sent := t.sent, free := t.free }

theorem SentOnly.refl (s : State) : SentOnly s s := rfl

theorem SentOnly.trans {s t u : State} (h : SentOnly s t) (g : SentOnly t u) : SentOnly s u := by
  unfold SentOnly at *
  rw [g, h]

theorem SentOnly.foldl {α : Type} {f : State → α → State} (h : ∀ s x, SentOnly s (f s x)) (l : List α) (s : State) :
    SentOnly s (l.foldl f s) := by
  induction l generalizing s with
  | nil => rfl
  | cons x l ih => exact (h s x).trans (ih _)

theorem SentOnly.cls {s t : State} (h : SentOnly s t) : t.cls = s.cls := by rw [h]
theorem SentOnly.others {s t : State} (h : SentOnly s t) : t.others = s.others := by rw [h]
theorem SentOnly.words {s t : State} (h : SentOnly s t) : t.words = s.words := by rw [h]
theorem SentOnly.mem {s t : State} (h : SentOnly s t) : t.mem = s.mem := by rw [h]
theorem SentOnly.launches {s t : State} (h : SentOnly s t) : t.launches = s.launches := by rw [h]

theorem peerSend_only (s : State) (vmid ga n : Nat) (kind : PeerKind) : SentOnly s (s.peerSend vmid ga n kind) := by
  unfold State.peerSend
  split <;> rfl

theorem peerAsk_only (s : State) (vmid ga n : Nat) (kind : PeerKind) : SentOnly s (s.peerAsk vmid ga n kind).2 :=
  (peerSend_only s vmid ga n kind).trans rfl

theorem readPlace_only (s : State) (vmid : Nat) (p : Place) (n : Nat) : SentOnly s (s.readPlace vmid p n).2 := by
  unfold State.readPlace
  split
  · exact peerAsk_only s vmid p.pa n .read
  · rfl

theorem readPieces_only (vmid : Nat) (l : List (Nat × Place × Nat)) (s : State) : SentOnly s (readPieces vmid l s).2 := by
  induction l generalizing s with
  | nil => rfl
  | cons x l ih =>
    have h := readPlace_only s vmid x.2.1 x.2.2
    simp only [readPieces]
    generalize s.readPlace vmid x.2.1 x.2.2 = r at *
    obtain ⟨o, t⟩ := r
    cases o with
    | none => exact h
    | some bs =>
      have g := ih t
      simp only
      generalize readPieces vmid l t = q at *
      obtain ⟨e, u⟩ := q
      cases e <;> exact h.trans g

theorem sendWalk_only (s : State) (vmid asid va : Nat) : SentOnly s (s.sendWalk vmid asid va) := by
  unfold State.sendWalk
  dsimp only
  generalize List.filter (fun g => (s.peerWindow vmid g).isSome) _ = out
  split
  · rfl
  · exact SentOnly.trans (SentOnly.foldl (fun t g => peerSend_only t vmid g 8 .read) out s) rfl

theorem unitRead_only (s : State) (vmid asid va n : Nat) : SentOnly s (s.unitRead vmid asid va n).2 := by
  unfold State.unitRead
  split
  · exact sendWalk_only s vmid asid va
  · exact (sendWalk_only s vmid asid va).trans (readPieces_only vmid _ _)

theorem unitNum_only (s : State) (vmid asid va n : Nat) : SentOnly s (s.unitNum vmid asid va n).2 := by
  have h := unitRead_only s vmid asid va n
  unfold State.unitNum
  generalize s.unitRead vmid asid va n = r at *
  obtain ⟨e, t⟩ := r
  cases e <;> exact h

end Sys2Proof.Machine
end

