-- ==== Sys2Proof/Tests/Slice0.lean ====
section
/-!
SUPPORT. Tests: ill-formed instructions are refused, words laid out from the manual's encodings decode, and for each obligation
with hypotheses a concrete state and operands that meet them, clause by clause (`wit_…`). The words are written out from Tables
9-1 to 9-9 and from the manual's listings; the witnesses test hypotheses and expect no result of the model.
-/

namespace Sys2Proof.Tests

-- One proof at a time: the kernel evaluates each witness, and side by side they would take too much memory.
set_option Elab.async false

open Sys2Proof Sys2Proof.Machine

/-! ### Small states -/

/-- A split that runs every lane of a 32-lane class. -/
def root : Split := { state := .ready, pc := 0x1000, mask := liveMask 32 }

/-- A launch's class with 32 lanes, 128 lane registers, two tiles and a quota of 64 units, at level 2 of partition 1. -/
def k : Cls :=
  { id := 1, level := 2, vmid := 1, asid := 1, launch := 1, form := 1, ntiles := 2, quota := 64, segb := 2 ^ 30,
    splits := root :: List.replicate 15 {} }

/-- The state in which a class issues the group at 0x1000. -/
def st (c : Cls) : State :=
  { cls := c, phase := .running, iss := { split := 0, pc := 0x1000, words := [0] }, nextId := 10 }

/-- A class with scalar registers set. -/
def withS (c : Cls) (l : List (Reg × DWord)) : Cls := l.foldl (fun c p => c.setS p.1 p.2) c

/-- A class at a level. -/
def atL (n : Nat) (c : Cls) : Cls := { c with level := n }

/-- A class whose lane `i` of register `r` holds `f r i`. -/
def withV (c : Cls) (f : Nat → Nat → Nat) : Cls :=
  { c with v := (List.range 128).map (fun r => (List.range 32).map (fun i => BitVec.ofNat 32 (f r i))) }

/-- A class whose mask registers all hold `m`. -/
def withK (m : Mask) (c : Cls) : Cls := { c with k := Vector.replicate 8 m }

/-- A PFXP prefix that names a predicate. -/
def pf (p : Reg3) (inv rbs : Bool) : Pfx := some { pred := p, inv := inv, pol := 0, scope := 0, rbs := rbs }

/-- The number `x` written as `n` bytes at an address. -/
def putN (m : Memory) (a n x : Nat) : Memory := Memory.write m a (toBytes n x)

/-- A word laid out field by field: (lowest bit, value). -/
def fld (l : List (Nat × Nat)) : Nat := (l.map (fun p => p.2 * 2 ^ p.1)).sum

/-- The table places of partition 1, whose stage 2 maps its first GiB onto itself. -/
def tabMem (m : Memory) : Memory :=
  putN (putN (putN (putN (putN (putN (putN m 0x10000 8 0x11001) 0x11000 8 0x12001) 0x12000 8 (0x2F + 2 ^ 48)) 0x20008 8 0x21001)
    0x21000 8 0x22001) 0x22000 8 0x23001) 0x23000 8 0x2F

/-- The control words that make partition 1 exist with those tables. -/
def tabWords (s : State) : State :=
  (((s.setWord (.part 1) 0x100 0x20000).setWord (.part 1) 0x101 0).setWord (.part 1) 0x102 10).setWord (.part 1) 0x103 0x10

/-- A TLB entry of core 0: two MiB from 0 at 4 MiB, every right. -/
def te : TlbEntry :=
  { home := .core 0, vmid := 1, asid := 1, va := 0, size := 2 ^ 21, ga := 2 ^ 22, pa := 2 ^ 22, attr := 0x00800000000000FF, key := 1,
    xpart := false, sf := false, sw := false }

/-- A lane's check answers a translation. -/
def laneOk (s : State) (op : AccOp) (l : LaneReq) : Bool :=
  match s.checkLane s.cls op l with
  | .ok _ => true
  | .miss _ | .bad _ | .now _ => false

/-- A match that answers a value the predicate accepts. -/
def someIs {α : Type} (o : Option α) (p : α → Bool) : Bool :=
  match o with
  | none => false
  | some a => p a

/-- An answer that the predicate accepts. -/
def okIs {ε α : Type} (o : Except ε α) (p : α → Bool) : Bool :=
  match o with
  | .error _ => false
  | .ok a => p a

/-- The next state meets the predicate. -/
def nextIs (o : Host.Outcome State Fault Refusal) (p : State → Bool) : Bool :=
  match o with
  | .next t => p t
  | .fault _ | .refused _ => false

/-! ### Ill-formed terms are refused (Table 9-11) -/

/-- One ill-formed instruction for each static check. -/
theorem test_illFormed_refused :
    ([ .valu (some { pred := 0, inv := true, pol := 0, scope := 0, rbs := false }) .add 3 1 2,          -- invert without a predicate
       .shfl (pf 3 false false) .idx false 3 1 2,                                                       -- a predicate where none is read
       .valu (pf 3 false true) .add 3 1 2,                                                              -- RBS where rb is no choice
       .valu (some { pred := 0, inv := false, pol := 1, scope := 0, rbs := false }) .add 3 1 2,         -- POL without a memory access
       .ldl none (some { pred := 0, inv := false, pol := 0, scope := 6, rbs := false }) .w 3 1 0 0,     -- a reserved scope
       .vote .any 3 8,                                                                                  -- no k register
       .kop none .and 0 1 2, .kop none .not 1 2 3, .kop none .pop 1 2 1, .kop none .tov 1 9 0,
       .kop none .clear 1 2 0, .kop none .fromv 9 1 0,                                                  -- KOP's fields
       .matLoop 1 10 12, .matDrain 1 0 12,                                                              -- a quartet's first register
       .pstd 3 4 0 0, .pldd 4 3 0 0,                                                                    -- pairs
       .vcmp none .eq 0 1 2, .fcmp none .eq 0 1 2,                                                      -- k0 as a destination
       .vun none .lane 3 1, .halu none false .neg2 3 1 2, .cvt none .f16l 3 1 2, .expd none .lut false 3 1 2,
       .expd none .e2m1 false 3 1 4, .hfma none false true 3 1 2,                                       -- fields that must be zero or even
       .ldl none none .d 3 1 0 0, .lds none none true 3 1 0 0,
       .acas none 127 1 2 0, .mredW none .add 1 127 0, .mredD none .add 1 8 0, .mredD none .add 1 127 0,
       .fence 6 .acq, .cpyGs 0 1 2, .cpyGs 123 1 2, .cpySca 9 1 2,                                      -- register runs
       .caLoa 3 1, .caRef 3, .caGet 6 1, .caSwap 4 1 6, .cld none 3 5 1 0, .cld none 3 126 1 0
     ] : List Instr).all (fun i => !i.wf) = true := by decide +kernel

/-! ### Words of the manual decode (Tables 9-1 to 9-9) -/

theorem test_decode_listings :
    decodeGroup [0x1A00001F, 0x471A37FF] = .ok (.sandi (some 0x1F) 70 70 0x7FF) ∧ decodeGroup [0x4B1A3230] = .ok (.sshi .shr 70 70 48) ∧
    decodeGroup [0x4D180003] = .ok (.slui 70 3) ∧ decodeGroup [0x33428800] = .ok (.launch 80 81) ∧
    decodeGroup [0x12140003] = .ok (.bz 5 3) ∧ decodeGroup [0x24000020] = .ok (.wbase 32) ∧
    decodeGroup [0x2C00400A] = .ok (.swr 8 0x00A) ∧ decodeGroup [0x54000000] = .ok .tret ∧ decodeGroup [0x0C000000] = .ok .ret ∧
    decodeGroup [0x18000000] = .ok .join ∧ decodeGroup [0x06000000] = .ok .kend := by decide +kernel

/-- Opcode ‖ rd ‖ ra ‖ rb ‖ fn, or a format's own fields, one word for each further family. -/
theorem test_decode_fields :
    decodeGroup [0b0110000_0000011_0000001_0000010_0000] = .ok (.valu none .add 3 1 2) ∧
    decodeGroup [0b1010010_0000011_0000001_1111111_0010] = .ok (.ldl none none .w 3 1 0x7F 2) ∧
    decodeGroup [0b0001111_0000000000000000000000100, 0b0001011_010_00_1_0000000000000000011] = .ok (.bspl 4 2 true 3) := by
  decide +kernel

/-- Privileged words: SEAL.ADMIT, PLDD, PSTD, CWR of FQDONE, TLB.FILL. -/
theorem test_decode_privileged :
    decodeGroup [0b0101100_1010000_1010001_1010010_0000] = .ok (.sealAdmit 80 81 82) ∧
    decodeGroup [0b0101111_0010100_0000010_0000001_0001] = .ok (.pldd 20 2 1 1) ∧
    decodeGroup [0b0011111_0010100_0000010_0000000_0000] = .ok (.pstd 20 2 0 0) ∧
    decodeGroup [0b0101001_0000000_1000111_0_1100000100] = .ok (.cwr 71 false 0x304) ∧
    decodeGroup [0b0101011_1010000_1010001_1010010_0000] = .ok (.tlbFill 80 81 82) := by decide +kernel

/-! ### Encoding, the step, reset -/

theorem wit_EncodedInstructionsDecode :
    ([.kend, .sandi (some 0x1F) 70 70 0x7FF, .ldl (some 0x1FFFFFF) (pf 7 true false) .d 126 127 0x7F 15, .cld none 9 124 127 15] : List Instr).all
      (fun i => i.wf && !i.isEvent) = true ∧ (Instr.bandwidthRefill).isEvent = true := by decide +kernel

theorem wit_DecodedGroupsEncode :
    ([[0x1A00001F, 0x471A37FF], [0x4D180003]] : List (List Word)).all (fun ws => okIs (decodeGroup ws) (fun _ => true)) = true := by
  decide +kernel

/-- A sealed image of partition 1 at 0x9000, one page long, whose first 16 words are a runner slice that uses s8–s11. -/
def im0 : Image :=
  { handle := 0x9003, vmid := 1, header := 0, regions := [], entry := 0x9000, code := 0x9000, segb := 0x9100, jtAt := 0xA000, tables := [],
    runners := [(0, 16, 0xF00, 0xF00)], pages := [0x9000], frames := [9], asid := 1 }

/-- A class that stands at the image's first group, a prefix and a SANDI. -/
def cF : Cls := { k with image := 0x9003, segb := 0x9100, code := 0x9000, splits := { root with pc := 0x9000 } :: List.replicate 15 {} }

/-- The state in which that class may issue on core 0. -/
def sFetch : State :=
  { tabWords (st cF) with
    mem := Memory.write [] 0x9000 (([0x1A00001F, 0x471A37FF] ++ List.replicate 14 0 ++ [0, 0, 0x06000000]).flatMap (fun w => toBytes 4 w)),
    images := [im0], sealMap := [9], holder := [(0, 1)], resident := [(0, 1)], icache := [(0, 0x240)],
    tlb := [{ te with va := 0x9000, size := 4096, ga := 0x9000, pa := 0x9000, attr := 0xB8, key := 0, sf := true }] }

/-- An access of lane 3 on its way to memory. -/
def acc : Access := { id := 5, op := .load 4, lanes := [{ lane := 3, ea := 0x30000 }], stage := .fabric, dest := [8], pc := 0x9004 }

/-- A split is picked, has nothing owed, fetches its words and they decode; as found, as the agenda names it, and held. -/
theorem wit_StepRunsInstruction :
    ([sFetch, { sFetch with cls := { cF with mem := [{ acc with op := .loadScalar 8, dest := [], sdest := some 70 }] } }] : List State).map (fun s =>
      let c := s.cls
      let i : Instr := .sandi (some 0x1F) 70 70 0x7FF
      let v := { s.focus 1 with iss := { split := 0, pc := 0x9000, words := [0x1A00001F, 0x471A37FF] } }
      (someIs s.pick (fun p => p.1 == 0 && p.2.cls == 1 && p.2.split == 0), someIs (s.nextOn 0) (fun x => x.cls == 1 && x.split == 0),
       s.getCls 1 == some c && (c.split 0).owed.isNone,
       match (s.focus 1).fetchGroup c 0x9000 with
       | .words ws _ => ws == [0x1A00001F, 0x471A37FF] && okIs (decodeChecked c.level ws) (fun j => j == i)
       | .failed _ _ _ => false,
       interlocked i v)) = [(true, true, true, true, false), (true, true, true, true, true)] := by decide +kernel

theorem wit_IllegalGroupsRaise :
    decodeGroup [0xFE000000] = .error .reservedOpcode ∧ decodeGroup [0x1A000000] = .error .prefixGroup ∧
    privLevel (groupOpcode [0x54000000]) = some 1 ∧ decodeGroup [0x0C000001] = .error .illegalField ∧
    privLevel (groupOpcode [0x0C000001]) = none ∧
    (let s := { sFetch with mem := Memory.write [] 0x9000 (toBytes 4 0x0C000001) }
     ((s.cls.split 0).owed.isNone && decide (0 < s.cls.splits.length) && s.cls.kind != .handler &&
      match s.fetchGroup s.cls 0x9000 with
      | .words ws _ => decodeChecked 2 ws == .error .illop
      | .failed _ _ _ => false) = true) := by decide +kernel

/-- A register outside the allocation; a source with an error mark. -/
theorem wit_IllegalGroupsRaise_operands :
    (operandsOk (.valu none .add 3 1 2) (st { k with nregs := 2 }),
     operandsOk (.valu none .add 3 1 2) (st { k with poisonV := [(0, 1)] }), readsMarked (.valu none .add 3 1 2) (st { k with poisonV := [(0, 1)] }))
      = (false, true, true) := by decide +kernel

theorem wit_StepKeepsMemoryForm : sFetch.mem.wf = true ∧ nextIs (step sFetch) (fun t => t.cur.pc == 0x9008) = true := by decide +kernel

theorem wit_MemoryReadsWhatWasWritten :
    Memory.wf [(0x1000, 7), (0x1002, 9)] = true ∧ ((Memory.set [(0x1000, 7), (0x1002, 9)] 0x1000 0) : Memory) = [(0x1002, 9)] ∧
    sector 0x1020 ≠ sector 0x101F := by decide +kernel

theorem wit_ResetValues : State.reset.routeEntry 0 1 = 2 ∧ State.reset.routeEntry 63 0x1B = 4 := by decide +kernel

/-! ### Arithmetic, across the class, control -/

/-- A class with lanes, scalars and mask registers set. -/
def cA : Cls :=
  withK 0x0F0F3355 (withS (withV { k with cstat := 4 } (fun r i => (r * 7919 + i * 104729) * 65537 % 2 ^ 32))
    [(1, 0x8000000000000000), (2, 0xFFFFFFFFFFFFFFFF), (5, 0x7FFFFFFFFFFFFFFF), (127, 0x2000)])

/-- It issues. -/
def sA : State := st cA

theorem wit_ScalarResults :
    sA.issuing = true ∧ sA.cls.kind ≠ .handler ∧ sA.cls.lanes = 32 ∧
    ([.salu .adds 9 1 5, .salu .sub 0 1 2, .scmp .lt 9 1 2, .saddi (some 0x1FFFFFF) 9 1 0x7FF, .sandi none 9 1 0x7FF, .sori none 9 1 1,
      .sshi .sra 9 1 63, .slui 9 0x20001, .smovv 9 4 31] : List Instr).all (fun i => sA.legal i) = true := by decide +kernel

theorem wit_LaneIntegerResults :
    sA.issuing = true ∧
    ([.valu (pf 3 true false) .add 9 4 5, .valus none .sub 9 4 5, .vmad (pf 3 false true) .madhn 9 4 5, .vun none .bcst 9 5, .vun none .lane 9 0,
      .vsel none 9 4 5 2, .vaddi (some 3) none 9 4 0x701, .vshi none .sra 9 4 31, .vpack none .bhi 9 4 5] : List Instr).all
      (fun i => sA.legal i) = true := by decide +kernel

/-- With effective lanes, and with none. -/
theorem wit_LaneCompares :
    ([.vcmp (pf 3 false false) .lt 3 4 5, .vcmps none .eq 3 4 5, .fcmp none .un 3 4 5] : List Instr).all (fun i => sA.legal i) = true ∧
    sA.eff (pf 3 false false) ≠ 0 ∧ (st (withK 0 cA)).eff (pf 3 false false) = 0 := by decide +kernel

theorem wit_LaneFloatResults :
    ([.falu none .add 9 4 5, .falus none .min 9 4 5, .ffma none .fma true 9 4 5, .funit none .rcp 9 4, .halu none true .add2 9 4 5,
      .hfma none false false 9 4 5, .hfma (pf 3 false true) true true 10 4 5, .cvt none .f16x2 9 4 5, .cvt8Pack none true false true 9 4 5,
      .cvt8Unpack none false 3 9 4, .expd none .lut true 9 4 8] : List Instr).all (fun i => sA.legal i && i.wf) = true ∧
    (f32 0x7F800001).isNan = true ∧ (f32 0x7F800001).isSig = true ∧ (f32 0x7F800000).isNan = false ∧ (f32 0x80000000).isNan = false := by
  decide +kernel

theorem wit_ClassWideResults :
    sA.wholeClass = true ∧ sA.cls.lanes ≤ 1024 ∧ 0 < sA.cls.lanes ∧
    ([.vote .any 9 3, .vote .all 9 0, .vote .cnt 9 3, .vote .eq 9 20, .shfl (pf 0 false true) .xor false 9 4 3, .shfl none .up true 9 4 3,
      .redf .add 9 4, .redi .min 9 4] : List Instr).all (fun i => sA.legal i) = true := by decide +kernel

/-- One level deep, and with a lane inactive. -/
theorem wit_ClassWideElsewhere :
    ([st { cA with splits := { root with levels := [.child 4] } :: List.replicate 15 {} },
      st { cA with splits := { root with mask := 0xFF } :: List.replicate 15 {} }] : List State).all (fun s =>
      s.issuing && !s.wholeClass && s.cls.kind != .handler &&
      ([.vote .any 9 3, .redi .add 9 4, .obRes 9 4, .matZero 1, .cpyGg 8 4 5, .caSwap 8 4 12, .caStat 8 4] : List Instr).all (fun i => s.legal i))
      = true := by decide +kernel

/-- FIRST and LAST of some lane and of none. -/
theorem wit_KopResults :
    ([.kop none .and 5 1 2, .kop (pf 3 true false) .fill 5 0 0, .kop none .fromv 5 9 0, .kop none .pop 9 3 0, .kop none .first 9 3 0,
      .kop none .last 0 3 0, .kop none .tov 9 3 0] : List Instr).all (fun i => sA.legal i) = true ∧
    ((sA.getK 3).getLsbD 0 && (sA.eff none).getLsbD 0) = true ∧ ((sA.getK 3).getLsbD 27 && (sA.eff none).getLsbD 27) = true ∧
    (List.range 32).all (fun i => !(decide (27 < i) && (sA.getK 3).getLsbD i)) = true ∧ (st (withK 0 cA)).getK 3 = 0 := by decide +kernel

/-- A class whose image has one jump table of 40 entries, with index 39 in lane 0. -/
def sSw (x : Nat) : State :=
  { st { withV k (fun _ _ => x) with image := 0x9003, njt := 1, code := 0x4000 } with images := [{ im0 with tables := [(List.range 40).map (· + 100)] }] }

theorem wit_UniformTransfers :
    sA.issuing = true ∧ ([.bu 3 .any 9, .bz 1 9, .bnz 0 9, .ret] : List Instr).all (fun i => sA.legal i) = true ∧
    (sA.getS 127).toNat < 2 ^ 57 ∧ (sA.getS 127).toNat % 4 = 0 ∧ ((st (withS cA [(127, 0x1FFFFFFFFFFFFFE)])).getS 127).toNat % 4 ≠ 0 ∧
    ¬ ((st (withS cA [(127, 0x200000000000000)])).getS 127).toNat < 2 ^ 57 ∧
    ([39, 40] : List Nat).all (fun x => (sSw x).legal (.switch 4 0) && ((sSw x).act.getLsbD 0) && ((sSw x).getV 4 0).toNat == x) = true ∧
    (sSw 39).images.find? (fun im => im.handle == (sSw 39).cls.image && im.vmid == (sSw 39).cls.vmid) ≠ none ∧
    (sSw 39).cls.njt ≤ (1 : BitVec 11).toNat := by decide +kernel

/-- A class whose root runs its lanes one level record or child deep. -/
def sLv (l : List LevelRec) (others : Nat → Split) : State :=
  st { cA with k := #v[0, 0xFF, 0xFFFFFFFF, 0, 0, 0, 0, 0],
               splits := (List.range 16).map (fun i => if i = 0 then { root with levels := l } else others i) }

/-- Lanes on both sides and two free entries; no lane taken; every lane taken; no free entry; depth 15. -/
theorem wit_BsplOpensLevel :
    (let s := sLv [] (fun _ => {})
     (s.issuing && s.legal (.bspl 100 1 false 50) && s.cls.freeEntries.take 2 == [1, 2] && s.act &&& s.getK 1 != 0 &&
      s.act &&& ~~~ s.getK 1 != 0 && s.act &&& s.getK 3 == 0 && s.act &&& ~~~ s.getK 2 == 0 && s.depth == 0) = true) ∧
    (sLv [] (fun _ => { state := .ready })).cls.freeEntries.length < 2 ∧ (sLv (List.replicate 15 (.child 4)) (fun _ => {})).depth = 15 := by
  decide +kernel

/-- A deferred side with lanes, one without, a JOIN elsewhere, and a child whose sibling runs or waits. -/
def sJ (x : SplitState) : State :=
  st { cA with splits := (List.range 16).map (fun i =>
    if i = 3 then { state := .joinParent 0x1000, mask := liveMask 32, levels := [.child 9] }
    else if i = 0 then { root with levels := [.child 0x1000, .child 9], parent := 3, mask := 0xF }
    else if i = 5 then { state := x, mask := 0xF0, parent := 3, levels := [.child 0x1000, .child 9] } else {}) }

theorem wit_JoinClosesLevel :
    ((sLv [.deferred 0x1000 0x3000 0xF0 0x1, .child 7] (fun _ => {})).issuing && (sLv [.deferred 0x1000 0x3000 0 0, .child 7] (fun _ => {})).act != 0 &&
     (sLv [.child 0x2000] (fun _ => {})).cur.joinAt != some 0x1000) = true ∧
    ([.ready, .joinChild] : List SplitState).all (fun x => (sJ x).issuing && (sJ x).cls.sibling 0 == some 5 && (sJ x).cur.parent == 3 &&
      ((sJ x).cls.split 5).state == x && ((sJ x).cls.split 5).mask ||| (sJ x).act != 0) = true := by decide +kernel

/-- At depth 0 outside and inside a bracket, with the last window; one level deep; values out of range. -/
theorem wit_BracketRules :
    sA.depth = 0 ∧ sA.cls.bracket = none ∧ (st { cA with bracket := some 0xF0 }).cls.bracket = some 0xF0 ∧
    (384 : BitVec 9).toNat % 16 = 0 ∧ (384 : BitVec 9).toNat ≤ (st { cA with nregs := 512 }).cls.nregs - 128 ∧
    (st { cA with nregs := 512 }).cls.nregs - 128 < (400 : BitVec 9).toNat ∧ (15 : BitVec 9).toNat % 16 ≠ 0 ∧
    (sLv [.child 4] (fun _ => {})).depth ≠ 0 ∧ sA.cls.kind ≠ .handler := by decide +kernel

theorem wit_SpecialRegisters :
    (let s : State := { sA with forms := [{ id := 1, launch := 1, energy := 99, timeLeft := 88 }] }
     (s.issuing && !s.flagsDue && (s.formOf s.cls).isSome && s.legal (.swr 4 0x00A) && s.cls.kind != .handler) = true) := by decide +kernel

/-- A class single-stepped by its tenant. -/
def sStep : State := { sA with words := [(⟨.part 1, 0x2A8, 0⟩, 1), (⟨.tenant 1 1, 0x2A8, 0⟩, 1)] }

theorem wit_TrapsAndEnds :
    (sA.issuing && sA.cls.kind != .handler && sStep.stepping && sStep.cur.state == .ready && sA.cls.kind == .launch && sA.cls.status == .live &&
     sA.cls.bracket.isNone && sA.cur.levels.isEmpty && sA.hslots.isEmpty && sA.cls.mem.isEmpty && sA.creqs.isEmpty && sA.pins.isEmpty &&
     sA.others.isEmpty && (st { cA with bracket := some 1 }).issuing) = true := by decide +kernel

/-! ### Memory instructions -/

/-- A class with addresses: s1 = 0x10000, lanes with small offsets, v7 far away. -/
def cM : Cls :=
  withK 0x0F0F3355 (withS (withV k (fun r i => (r + i * 3) % 64 + if r = 7 then 2 ^ 31 else 0)) [(1, 0x10000), (2, 0x3000), (3, 77), (4, 0x10080)])

/-- It issues, with a page mapped. -/
def sM : State := { st cM with tlb := [te] }

/-- One of each form that accesses memory on virtual addresses. -/
def memAll (p : Pfx) : List Instr :=
  [.ldl none p .b 10 1 0x7F 0, .ldl none p .d 10 1 4 3, .stl (some 1) p .w 10 1 0x7F 0, .ldi p .h 10 1 8 0, .sti p .d 10 1 8 0, .ldaq none p 10 1 5 0,
   .strl none p 10 1 5 0, .aadd p 10 1 8 0, .amin p 10 1 8 0, .amax p 10 1 8 0, .aand p 10 1 8 0, .aor p 10 1 8 0, .axor p 10 1 8 0,
   .axch p 10 1 8 0, .acas p 10 1 8 0, .afadd p 10 1 8 0, .mredW p .add 1 8 0, .mredD p .max 1 9 0, .mredF p .min 1 8 0]

/-- The scalar forms. -/
def memScalar : List Instr := [.sld none none false 10 1 4 0, .sst none none true 10 1 4 0]

/-- Every lane passes phase 1 and translates. -/
def allPass (s : State) (i : Instr) : Bool :=
  someIs (memForm s i) (fun f => s.issuing && s.legal i && !f.reqs.isEmpty && f.reqs.all (fun l => phase1 s.cls.level f.op.size l && laneOk s f.op l))

/-- Every form at levels 2 and 0; a replicated load with its set. -/
theorem wit_MemoryIssues :
    (memAll (pf 3 false false) ++ memScalar).all (allPass sM) = true ∧ (memAll none ++ memScalar).all (allPass (st (atL 0 cM))) = true ∧
    ([.rldsF none true 10 1 0x3F 0, .rldsI none 10 1 3 0] : List Instr).all (allPass
      { sM with tlb := [{ te with attr := 0x00C00000000000FF }],
                words := [(⟨.part 1, 0x261, 0⟩, BitVec.ofNat 64 (2 ^ 63 + 3 * 2 ^ 45)), (⟨.part 1, 0x262, 0⟩, BitVec.ofNat 64 (2 ^ 22))] }) = true := by
  decide +kernel

/-- With no effective lane. -/
theorem wit_MemoryIssues_empty :
    (memAll (pf 3 false false)).all (fun i => someIs (memForm (st (withK 0 cM)) i) (fun f => f.reqs.isEmpty && (st (withK 0 cM)).legal i)) = true := by
  decide +kernel

/-- The first lane that fails phase 1, by its address space at either level and by its alignment. -/
theorem wit_MemoryFaultsAndMisses :
    ([(0x10001, 2), (0x01FFFFFFFFFFFFFE, 2), (0xFFFFFFFFFFFE, 0), (0x200000000000000, 2)] : List (DWord × Nat)).all (fun x =>
      let s := { st (withS (atL x.2 cM) [(1, x.1)]) with tlb := [te] }
      ([.sti none .w 10 1 0 0, .sst none none false 10 1 1 0] : List Instr).all (fun i => someIs (memForm s i) (fun f =>
        s.legal i && f.reqs.any (fun l => !phase1 s.cls.level f.op.size l)))) = true := by decide +kernel

/-- One lane, and no entry for its page; one whose entry has D clear. -/
theorem wit_MemoryFaultsAndMisses_miss :
    ([[], [{ te with attr := 0x008000000000005F }]] : List (List TlbEntry)).all (fun tl =>
      let s := { st (withK 0x10 cM) with tlb := tl }
      someIs (memForm s (.stl none (pf 3 false false) .w 10 1 0 0)) (fun f =>
        match f.reqs with
        | [l] => phase1 2 f.op.size l && (match s.checkLane s.cls f.op l with
          | .miss d => d == !tl.isEmpty
          | .ok _ | .bad _ | .now _ => false)
        | _ => false)) = true := by decide +kernel

/-- A form with two barrier objects and some scratchpad bytes. -/
def fm : Form := { id := 1, launch := 1, core := 0, vmid := 1, size := 4096, bars := 2, scratch := Memory.write [] 0x200 [7, 0, 0, 0x80] }

/-- Lanes at a base, a step of 8 apart. -/
def sScr (base : Nat) : State := { st (withV k (fun r i => if r = 8 then base + 8 * i else i)) with forms := [fm] }

/-- The lanes of an LDS or STS of s8's addresses, and what its checks find first. -/
def scrFound (base : Nat) (store : Bool) : Option Cause :=
  ((sScr base).scratchFirst 8 store (lanesAt (sScr base) ((sScr base).eff none) (fun j => ((sScr base).getV 8 j).toNat) (fun _ => 0))).map (·.2)

/-- In bounds; a barrier object's bytes; beyond the house's allocations; misaligned; and no effective lane. -/
theorem wit_ScratchpadAccesses :
    (sScr 3840).legal (.sts none none true 10 8 0 0) = true ∧ scrFound 3840 true = none ∧ scrFound 0 true = some .scratch ∧ scrFound 0 false = none ∧
    scrFound 3848 false = some .scratch ∧ scrFound 36 false = some .align ∧
    ({ sScr 0 with forms := [{ fm with scrPoison := [0] }] } : State).scratchLate 1 0 8 false = some .ecc ∧
    lanesOf 32 ((st (withK 0 k)).eff (pf 3 false false)) = [] := by decide +kernel

/-- Level 0, with lane 0 at an address made of two registers. -/
def sPh (lo hi : Nat) : State := st (atL 0 (withV k (fun r i => if r = 8 then lo + 8 * i else if r = 9 then hi else i)))

/-- Aligned memory; beyond the memory that exists; beyond 48 bits; misaligned. -/
theorem wit_PhysicalAccesses :
    ([true, false] : List Bool).all (fun store => (sPh 64 0x27F).legal (if store then .pstd 10 8 0x7E 0 else .pldd 10 8 0x7E 0)) = true ∧
    (List.range 32).all (fun j => let a := 48 + 8 * j + 0x27F * 2 ^ 32
      decide (a < Config.memLimit ∧ a % 8 = 0) && !(sPh 64 0x27F).sealed a && !(sPh 64 0x27F).inRecords a 8 && !(sPh 64 0x27F).poisoned a 8) = true ∧
    Config.memLimit ≤ 48 + 0x280 * 2 ^ 32 ∧ 2 ^ 48 ≤ 48 + 0x10000 * 2 ^ 32 ∧ ((sPh 68 0).getV 8 0).toNat % 8 ≠ 0 := by decide +kernel

/-- A class with a store on its way is not quiet; one with a load out. A word that meets a condition and one that does not. -/
theorem wit_FencesAndWaits :
    (st k).quiet k = true ∧ (let c := { k with mem := [{ acc with op := .store 4, counts := true }] }; (st c).quiet c = false) ∧
    ({ k with mem := [acc] } : Cls).loadsOut = true ∧
    (let s : State := { st (withS k [(1, 0x200), (5, 7)]) with forms := [fm] }
     s.legal (.wait none .gen 1 5) = true ∧ s.scratchFirst 4 false [{ lane := 0x7FFF, ea := 0x200 }] = none ∧ s.scratchPlace 1 0x200 4 = some (fm, 0x200) ∧
     BitVec.ofNat 32 (fm.scratch.num 0x200 4) = 0x80000007 ∧ s.scratchFirst 4 false [{ lane := 0x7FFF, ea := 4096 }] ≠ none) := by decide +kernel

/-- A barrier object whose bytes are all zero. -/
def bar0 : Barrier := { phase := 0, v := false, parr := 0, xcount := 0, pbytes := 0 }

/-- A class that addresses the second barrier object, which holds `b`, with a count. -/
def sBar (b : Barrier) (a count : Nat) : State :=
  { st (withS k [(1, BitVec.ofNat 64 a), (5, BitVec.ofNat 64 count)]) with forms := [{ fm with scratch := Memory.write [] 16 b.bytes }] }

/-- A barrier in use with 40 of 64 to come; one not in use; the greatest counts. -/
theorem wit_BarrierOperations :
    (let b : Barrier := { phase := 255, v := true, parr := 40, xcount := 64, pbytes := 9 }
     let s := sBar b 16 64
     s.scratchPlace 1 16 16 = some ({ fm with scratch := Memory.write [] 16 b.bytes }, 16) ∧ s.barrier 1 16 = b ∧ s.scratchPoisoned 1 16 16 = false ∧
     ([.bari none 1 5, .barv none 1 5, .barx none 1 5, .barz none 1, .barp none 9 1, .barw none 1 5] : List Instr).all (fun i => s.legal i) = true ∧
     (sBar bar0 16 131072).barrier 1 16 = bar0 ∧ ((sBar bar0 16 131072).getS 5).toNat = 131072 ∧ ((sBar b 16 0x7FFFFFF6).getS 5).toNat + 9 < 2 ^ 31 ∧
     2 ^ 31 ≤ ((sBar b 16 0x7FFFFFF7).getS 5).toNat + 9) := by decide +kernel

/-- Addresses of no object: beyond the house, misaligned, of plain bytes; an arrival with a wrong count. -/
theorem wit_BarrierOperations_stops :
    (sBar bar0 4096 4).scratchPlace 1 4096 16 = none ∧ ((sBar bar0 17 4).scratchPlace 1 17 16).map (·.2) = some 17 ∧
    ((sBar bar0 32 4).scratchPlace 1 32 16).map (·.2) = some 32 ∧ 16 * fm.bars = 32 ∧
    (sBar { bar0 with v := true, parr := 31, xcount := 64 } 16 64).barrier 1 16 = { bar0 with v := true, parr := 31, xcount := 64 } := by decide +kernel

/-- Three mapped pages and room for them; no room; a handle held. -/
def sLk : State := { st (withS k [(1, 0x1200), (3, 3)]) with tlb := (List.range 8).map (fun n => { te with va := 4096 * n, size := 4096 }) }

/-- The state after locking three pages, its class at the same group again. -/
def relock (t : State) : State :=
  match exec (.tlkLock 9 1 3) t with
  | .next u => { u with iss := t.iss, cls := u.cls.modSplit 0 (fun sp => { sp with pc := 0x1000 }) }
  | .fault _ | .refused _ => t

theorem wit_PrefetchAndLocks :
    sLk.bwRate 1 1 = 0 ∧ sLk.bwRate 1 partBucket = 0 ∧ sLk.legal (.pref none 3 1 0x40) = true ∧ sLk.cls.pipeHeld = false ∧ sLk.l1.length ≤ 384 ∧ sLk.legal (.tlkLock 9 1 3) = true ∧
    3 ≤ sLk.cls.freeLocks.length ∧ sLk.lockUse 0 + 3 ≤ 16 ∧ (match sLk.lockPages sLk.cls 3 0x1200 with
     | .ok l => l.length == 3
     | _ => false) = true ∧
    (let t := relock sLk
     let h := (t.getS 9).toNat
     t.legal (.tlkUnlk 9) = true ∧ h < 2 ^ 16 ∧ (t.cls.locks.filter (fun l => someIs l (fun p => p.first == h % 16))).length = h / 16 % 16 + 1 ∧
     h / 256 = t.cls.lockGen.getD (h % 16) 0 % 256) ∧
    (relock (relock (relock (relock (relock sLk))))).cls.freeLocks.length = 1 ∧ ((st (withS k [(3, 17)])).getS 3).toNat = 17 := by decide +kernel

/-- The LAUNCH right held and not; a record's address beyond 2^57, misaligned, and good. -/
theorem wit_LaunchInstruction :
    (let s : State := { sM with words := [(⟨.part 1, 0x001, 0⟩, 0x3FF), (⟨.tenant 1 1, 0x001, 0⟩, 0x3FF)], cls := withS cM [(5, 0x1080)] }
     s.legal (.launch 9 5) = true ∧ (s.rights 2 1 1).getLsbD 2 = true ∧ laneOk s .launch { lane := 0x7FFF, ea := 0x1080 } = true ∧
     (sM.rights 2 1 1).getLsbD 2 = false ∧ 2 ^ 57 ≤ (0x200000000000000 : DWord).toNat ∧ (0x1FFFFFFFFFFFF01 : DWord).toNat % 128 ≠ 0) := by decide +kernel

/-- The record of a LAUNCH stands in the class's outstanding list; one child left, or none. -/
theorem wit_LaunchInstruction_returns :
    (let a : Access := { acc with op := .launch, lanes := [{ lane := 0x7FFF, ea := windowBase, pa := windowBase, win := true }], dest := [], sdest := some 9 }
     let s : State := { st { k with mem := [a] } with launches := [{ no := 1, vmid := 1, asid := 1, shape := 0, childLeft := 1 }],
                                                      words := [(⟨.dev, 0x185, 0⟩, 0x70000), (⟨.dev, 0x186, 0⟩, 2)] }
     (s.childSlot == some 0 && s.l2.isEmpty && s.mem.wf && s.cls.mem == [a] && s.cls.level == 2 && s.hslots.isEmpty && s.ghosts.isEmpty && s.pins.isEmpty && s.others.isEmpty &&
      a.gen == (assoc s.ctxGen (1, 0)).getD 0 && s.launches.all (fun l => l.no == s.cls.launch && decide (0 < l.childLeft))) = true) := by decide +kernel

/-- A class with one access of one lane; at level 0 of memory `m`. -/
def sAcc (lv : Nat) (a : Access) (m : Memory) : State := { st { atL lv k with mem := [a] } with mem := m, forms := [fm] }

/-- A load's and a store's lane at a sector's last bytes, and past the last byte of memory; LDS and STS of eight bytes. -/
theorem wit_LoadsAndStoresPerform :
    ([{ acc with lanes := [{ lane := 31, ea := 0x5000, pa := 0x501C }] }, { acc with op := .store 8, lanes := [{ lane := 0, ea := 0x5000, pa := 0x5018, data := 5 }] },
      { acc with op := .physStore, lanes := [{ lane := 3, ea := 0x5000, pa := 0x5000 }] }] : List Access).all (fun a =>
      let s := sAcc 0 a (Memory.write [] 0x5000 [1, 2, 3])
      s.cls.level == 0 && s.cls.kind != .handler && s.hslots.isEmpty && s.pins.isEmpty && s.others.isEmpty && s.poison.isEmpty && s.mem.wf &&
      s.l1.isEmpty && s.l2.isEmpty &&
      a.gen == (assoc s.ctxGen (1, 0)).getD 0 && a.lanes.all (fun l => !l.done && !l.win && !l.peer && decide (l.pa % 32 + a.op.size ≤ 32) &&
        decide (l.pa + a.op.size ≤ Config.memLimit) && s.keyAt l.pa == s.keyId l.key)) = true ∧
    (let s := sAcc 2 { acc with op := .loadScratch 8, lanes := [{ lane := 3, ea := 0x200 }], dest := [20, 21] } []
     s.scratchPlace 1 0x200 8 = some (fm, 0x200) ∧ s.scratchPoisoned 1 0x200 8 = false) ∧
    Config.memLimit < Config.memLimit - 1 + 2 := by decide +kernel

theorem wit_AtomicReturnsOldWord :
    (let a : Access := { acc with op := .atomic .cas, lanes := [{ lane := 31, ea := 0x5000, pa := 0x501C, data := 5, cmp := 7 }], dest := [20] }
     let s := sAcc 0 a (Memory.write [] 0x501C [5])
     (s.cls.level == 0 && s.cls.mem == [a] && s.l2.isEmpty && s.poison.isEmpty && s.pins.isEmpty && s.others.isEmpty && s.hslots.isEmpty && s.mem.wf &&
      a.lanes.all (fun l => decide (l.pa % 4 = 0) && decide (l.pa + 4 ≤ Config.memLimit) && s.keyAt l.pa == s.keyId l.key && decide (l.lane < s.cls.lanes))) = true) := by
  decide +kernel

/-- An access whose line another class has pinned with a reach that leaves it out, refused for 65,536 cycles; one that nothing pins. -/
theorem wit_RetriesAndTimeouts :
    (let l : LaneReq := { lane := 3, ea := 0x5000, pa := 0x5000, attr := 0x00800000000000FF, page := { va := 0, ga := 0, pa := 0, size := 4096 } }
     let a : Access := { acc with op := .store 4, lanes := [l], dest := [], stage := .retry 5 }
     let pin : Pin := { line := 0x5000, writer := 9, reach := [{ scope := 2, cls := 99, form := 99, launch := 99, house := 0, die := 0 }], bytes := [] }
     let s := sAcc 2 a []
     s.stillRefused s.cls a = false ∧ ({ s with pins := [pin], time := 65541 } : State).stillRefused s.cls a = true ∧ 5 + 65536 ≤ 65541) := by decide +kernel

/-- A peer load sent 100 µs ago, and a replicated load sent 1 ms ago of a set of three. -/
theorem wit_RetriesAndTimeouts_links :
    (let a : Access := { acc with op := .rlds false true, lanes := [{ lane := 31, ea := 0x5000, pa := 2 ^ 22 + 4, peer := true }], dest := [20] }
     let s : State := { sAcc 2 a [] with time := 4000000, words := [(⟨.part 1, 0x261, 0⟩, BitVec.ofNat 64 (2 ^ 63 + 3 * 2 ^ 45)), (⟨.part 1, 0x262, 0⟩, BitVec.ofNat 64 (2 ^ 22))] }
     (s.cls.mem == [a] && s.others.isEmpty && s.cls.status == .live && s.hslots.isEmpty && s.ghosts.isEmpty && s.cls.kind != .handler && s.logRoom s.cls a &&
      decide (a.sent + 4000000 ≤ s.time) && decide (({ s with time := 3999999 } : State).time < a.sent + 4000000) && s.route 2 1 .xlate false == 1 && (s.replicaSet 1 (2 ^ 22 + 4)).isSome && a.gen == (assoc s.ctxGen (1, 0)).getD 0) = true) := by
  decide +kernel

/-! ### Short loads, content operations -/

/-- 128 bytes, the line that holds them, and a store with that line. -/
def bytesA : List Byte := toBytes 128 0x1234567

/-- An enabled descriptor: 4,096 lines, 16 buckets. -/
def desc : BitVec 512 := BitVec.ofNat 512 (fld [(31, 1), (94, 1), (128, 4096), (180, 4), (192, 1), (193, 1)])

def st0 : CStore := { vmid := 1, ix := 0, desc := desc }
def lnA : CLine := { hash := st0.hash false bytesA, ord := 3, node := false, data := bytesA, ref := 1, state := .live }
def st1 : CStore := { st0 with lines := [lnA] }

/-- A class of that store: its mask registers name lane 3, s10:s11 the line, s20 its bytes in scratchpad, s30 a slot. -/
def cC : Cls :=
  { withK 8 (withS (withV k (fun r i => if r = 5 then 0x40C else if r = 6 then 4 * i else r * 31 + i))
      [(7, 5000), (10, lnA.name.setWidth 64), (11, (lnA.name >>> 64).setWidth 64), (12, 0x200), (13, 0x2000), (20, 0x400), (21, 0x800), (30, 0x1000)])
    with cstore := some 0 }

/-- It issues; the slot at 4 MiB + 0x1000 holds the line's name and a bound of 100. -/
def sC : State :=
  { st cC with tlb := [te], stores := [st1], mem := Memory.write [] (2 ^ 22 + 0x1000) (toBytes 32 (lnA.name.toNat + 100 * 2 ^ 128)),
               forms := [{ fm with size := 65536, scratch := Memory.write [] 0x400 bytesA }] }

theorem wit_ChecksAndShortLoadsComplete :
    (sC.issuing && sC.bwRate 1 1 == 0 && sC.bwRate 1 partBucket == 0 && sC.cls.mem.isEmpty && sC.legal (.chkbLane 9 6 7) && (List.range 32).all (fun i => decide ((sC.getV 6 i).toNat < (sC.getS 7).toNat)) &&
     sC.legal (.chkbScalar 9 20 7) && decide ((sC.getS 20).toNat < (sC.getS 7).toNat) && sC.others.isEmpty && sC.hslots.isEmpty && sC.ghosts.isEmpty &&
     sC.pins.isEmpty && lanesOf 32 (sC.eff (pf 3 false false)) == [3] && someIs (sC.scratchPlace 1 0x40C 4) (fun x => x.2 % 4 == 0 && 32 ≤ x.2) &&
     sC.legal (.lds none (pf 3 false false) false 40 5 0 0) && sC.legal (.sts none (pf 3 false false) false 40 5 0 0) &&
     someIs (sC.scratchPlace 1 0x400 8) (fun x => x.2 % 8 == 0) && sC.legal (.lds none (pf 3 false false) true 40 5 0 0) && !sC.scratchPoisoned 1 0x400 8 &&
     !sC.engineRace 1 0x400 8 false && !sC.engineRace 1 0x400 8 true) = true ∧
    (sC.legal (.cld (pf 3 false false) 40 10 6 0) && someIs (sC.myStore sC.cls) (fun x => x == st1) && (cldCheck sC 40 10 6 3).isNone &&
     (st1.treeBytes 0 (sC.nameAt 10) (sC.getV 6 3).toNat 4).isSome) = true := by decide +kernel

theorem wit_ContentOperationsComplete :
    (sC.wholeClass && sC.creqs.isEmpty && sC.cls.status == .live && someIs (sC.storeAt 1 0) (fun x => x == st1) && descEn st1.desc &&
     (st1.live (sC.nameAt 10)).isSome && ([.caRef 10, .caRel 10, .caStat 40 10, .caLoa 40 20, .caNode 40 21] : List Instr).all (fun i => sC.legal i) &&
     someIs (sC.scratchPlace 1 0x400 128) (fun x => x.2 % 128 == 0) && !sC.engineRace 1 0x400 128 false && !sC.scratchPoisoned 1 0x400 128 &&
     okIs (st1.intern false bytesA) (fun x => x.2 == lnA.name) && okIs (st1.intern true (List.replicate 128 0)) (fun _ => true) &&
     (childNames (sC.readScratch 1 0x800 128)).all (fun n => n == 0)) = true := by decide +kernel

/-- The slot's access of CA.GET, of CA.SWAP of the name it holds, and of another. -/
theorem wit_ContentOperationsComplete_slots :
    (let w := sC.mem.num (2 ^ 22 + 0x1000) 32
     (sC.l1.isEmpty && sC.l2.isEmpty && sC.rdc.isEmpty && sC.cls.level == 2 && sC.bwRate 1 1 == 0 && sC.bwRate 1 partBucket == 0 && slotOk w &&
      slotName w == lnA.name && sC.nameAt 10 == lnA.name && sC.nameAt 44 != lnA.name && sC.legal (.caGet 40 30) && sC.legal (.caSwap 10 30 48) &&
      sC.legal (.caSwap 44 30 48) && slotOk ((sC.nameAt 50).setWidth 256 <<< 128 ||| (sC.nameAt 48).setWidth 256).toNat && sC.mem.wf &&
      (match sC.checkLane sC.cls .slotGet { lane := 0x7FFF, ea := 0x1000 } with
       | .ok l => l.pa == 2 ^ 22 + 0x1000 && !l.peer && !attrChk l.attr && sC.keyAt l.pa == sC.keyId l.key
       | _ => false)) = true) := by decide +kernel

/-! ### Privilege, events, handlers -/

/-- Rights and place words of partition 1 and two of its tenants. -/
def rr : List (WKey × DWord) :=
  [(⟨.dev, 0x101, 0⟩, 0), (⟨.part 1, 0x101, 0⟩, 0), (⟨.part 1, 0x102, 0⟩, 0), (⟨.part 1, 0x103, 0⟩, 0x100000), (⟨.part 1, 0x001, 0⟩, 0x1F0),
   (⟨.tenant 1 1, 0x001, 0⟩, 0x3FF), (⟨.tenant 1 9, 0x001, 0⟩, 0x10)]

/-- A class at a level, with s5 and s6 set. -/
def sR (n : Nat) (x y : DWord) : State := { st (withS (atL n k) [(5, x), (6, y)]) with words := rr }

theorem wit_PrivilegeAndRights :
    (((sR 2 0 0).issuing && (sR 2 0 0).cls.kind != .handler &&
      ([.crd 9 false 0x011, .cwr 9 true 0x3FF, .rightsGrant 9 5 6, .rightsRevoke 9 5 6, .rightsRoute 9 5 6] : List Instr).all (fun i => (sR 2 0 0).legal i)) &&
     ((sR 1 0 0).cls.level == 1 && (sR 1 0 0).legal (.cwr 9 false 0x201) && (sR 1 0 0).legal (.cwr 9 false 0x211) &&
      [(0x211, 3), (0x113, 7)].all (fun x : Nat × Nat => decide (x.1 < 1024) && !(({ sR 1 0 0 with words := rr.take 4 } : State).rights 1 1 0).getLsbD x.2))) = true := by
  decide +kernel

theorem wit_RightsAndRoutes :
    (let s := sR 0 0x10000 0x209
     (s.hasPartition 1 && decide ((s.getS 6).toNat < 1024) && s.legal (.rightsGrant 9 5 6) && s.legal (.rightsRevoke 9 5 6)) = true) ∧
    (let s := sR 1 0x4000000000010009 0x3F8
     (s.legal (.rightsGrant 9 5 6) && bits (s.getS 5).toNat 63 62 != 0 && (s.getS 6).getLsbD 3 && !(s.rights 1 1 1).getLsbD 3) = true) ∧
    (let s := sR 0 0x1001B 5
     (s.legal (.rightsRoute 9 5 6) && s.getS 5 == BitVec.ofNat 64 (1 * 2 ^ 16 + 0x1B) && decide ((s.getS 6).toNat < 8)) = true) ∧
    (0x1E : Nat) ∉ [0x17, 0x1A, 0x1B, 0x1C] ∧
    (let s := sR 1 0 0
     (s.cls.status == .live && s.legal (.crd 9 false 0x012) && s.legal (.cwr 9 false 0x014)) = true) := by decide +kernel

/-- An event of split 0 of class 1. -/
def ev : Event :=
  { cause := .illop, cls := 1, split := 0, hasSplit := true, core := 3, epc := 0x1000, resume := 0x1000, skipTo := 0x1004, words := [5], mask := liveMask 32,
    launch := 1, time := 9 }

/-- A class whose split 0 waits for its event. -/
def cB : Cls := { k with splits := { root with state := .blocked .event } :: List.replicate 15 {} }

/-- The handler of an event of class 2 at level 1. -/
def hs : HSlot := { core := 0, level := 1, cls := 1, ev := { ev with cls := 2 }, vmid := 1, asid := 1, buf := 0, reply := 0x800, limit := 100, ran := 100 }

theorem wit_HandlerEntryBegins :
    (let s : State := { st k with words := [(⟨.level0, 0x011, 0⟩, 0x5002), (⟨.level0, 0x012, 0⟩, 0x30000), (⟨.level0, 0x013, 0⟩, 0x40000)], sealMap := [5],
                                  pending := [⟨3, 1, ev⟩, ⟨3, 0, ev⟩, ⟨3, 0, { ev with cause := .priv }⟩] }
     (s.oldest 3 0 == some ⟨3, 0, ev⟩ && s.phase == .running && s.coreOff.isEmpty && s.hslots.isEmpty && s.sealed 0x5002 &&
      decide ((s.word .level0 0x011).toNat < Config.memLimit) && s.tagsLeft != 0 && !s.inRecords ((s.word .level0 0x012).toNat) 200 &&
      !s.inRecords ((s.word .level0 0x013).toNat + 64) 1984) = true) ∧
    (let s : State := { st { atL 1 k with kind := .handler } with hslots := [{ hs with ev := { ev with cls := 77 } }] }
     (s.hslots.all (fun h => decide (h.limit ≤ h.ran) && h.level == 1 && h.cls == s.cls.id && h.ev.cls != s.cls.id && !h.ev.async && h.ev.acc.isNone) &&
      s.cls.mem.isEmpty && s.others.isEmpty && s.saved.isEmpty && s.pending.isEmpty && s.pins.isEmpty) = true) := by decide +kernel

theorem wit_Dispositions :
    (let s := st cB
     (s.saved.isEmpty && !ev.async && ev.acc.isNone && ev.cls == s.cls.id && s.others.isEmpty && s.hslots.isEmpty && s.pins.isEmpty && s.cls.status == .live &&
      !s.cls.endDue && (s.cls.split 0).stops == 0 && (s.cls.split 0).state != .free && (s.cls.split 0).state == .blocked .event && s.cls.kind == .launch && s.cls.mem.isEmpty &&
      ev.launch == s.cls.launch) = true) := by decide +kernel

theorem wit_TretReturns :
    (let s : State := { st { atL 1 k with kind := .handler } with others := [{ cB with id := 2 }], hslots := [hs], mem := Memory.write [] 0x800 [0xF0] }
     (s.issuing && s.cls.kind == .handler && s.cls.status == .live && s.cls.mem.isEmpty && s.saved.isEmpty && s.pins.isEmpty && s.l1.isEmpty &&
      s.hslots.all (fun h => !h.replyPeer && decide ((s.replyByte h).toNat % 4 = 0)) &&
      s.others.all (fun c => c.id != 1 && c.status == .live && (c.split 0).stops == 0 && (c.split 0).state != .free)) = true) ∧
    ({ k with kind := .handler, mem := [{ acc with op := .store 4, counts := true }] } : Cls).soc ≠ 0 := by decide +kernel

/-! ### The matrix unit and the copy engines -/

/-- A reservation record: base and length in units, rows, format. -/
def res (base len rows fmt : Nat) : DWord := BitVec.ofNat 64 (fld [(0, base), (13, len), (39, rows), (51, fmt)])

/-- A class with an INT8 reservation of 64 rows at unit 0, its handle in s12, two loop steps in s8–s11 and a drain in s16–s19. -/
def cX : Cls :=
  let c : Cls := { withK 0 k with quota := 128, obRes := [some (res 0 63 64 5)], obGen := [1], tiles := [{}, {}],
                                  ob := Memory.write [] 0 (List.replicate 64 3) }
  let h := ((List.range 4096).find? (fun h => (c.resOf (BitVec.ofNat 64 h)).isSome)).getD 0
  withS c [(1, res 100 7 64 0), (5, BitVec.ofNat 64 h), (8, BitVec.ofNat 64 (2 + 5 * 2 ^ 15)), (9, BitVec.ofNat 64 (2 ^ 32)),
    (10, BitVec.ofNat 64 (64 + 32 * 2 ^ 32)), (12, BitVec.ofNat 64 h), (16, 0x4000), (17, 0x100), (18, 256)]

/-- It issues on a core its partition holds, with a B-store. -/
def sX : State :=
  { st cX with holder := [(0, 1)], resident := [(0, 1)],
               forms := [{ fm with size := 65536, bsize := 65536, bstore := Memory.write [] 0 (List.replicate 64 5), btags := (List.range 128).map (fun u => (u, 5)) }] }

/-- A free index and a legal record; a dead handle; all sixteen indices taken; an element inside and one outside. -/
theorem wit_BufferOperations :
    (sX.issuing && sX.wholeClass && !sX.seqFull && !sX.cur.queued && (setQueued true sX).cur.queued && sX.legal (.obRes 9 1) && sX.cls.resLegal (sX.getS 1) && !sX.cls.resLegal (res 0 63 0 0) &&
     (sX.cls.obRes.getD 0 none).isSome && (sX.cls.obRes.getD 1 none).isNone && (sX.cls.resOf (sX.getS 5)).isSome && (sX.cls.resOf 0xFFFFFFFF).isNone &&
     sX.legal (.obStat 9 5) && sX.legal (.obRel 5) && !sX.resWriter 1 10 (sX.getS 5) && !sX.resReader 1 10 (sX.getS 5) && (sX.obElems 5 6).isSome &&
     ({ sX with cls := sX.cls.setS 6 4096 } : State).obElems 5 6 == none && sX.legal (.obSt 9 5 6) && sX.legal (.obLd 9 5 6)) = true := by decide +kernel

theorem wit_MatrixInstructions :
    (sX.seq.isEmpty && !sX.seqFull && !sX.cur.queued && ([.matZero 1, .matStat 9 1, .matLoop 1 8 12, .matDrain 1 16 0] : List Instr).all (fun i => sX.legal i) &&
     (loopFault sX 1 (sX.getSRun 8 4) (sX.getS 12)).isNone && (drainFault sX 1 0 (sX.getSRun 16 4)).isNone && sX.cls.live &&
     !loopLegal sX.cls 1 [0, 0x100000000, 0, 0] && !drainLegal sX.cls 1 0 [0x4000, 0x100, 255, 0]) = true := by decide +kernel

/-- The queued loop of that class at its last step, after it, and of a twin. -/
def opL : SeqOp := { id := 7, core := 0, cls := 1, split := 0, kind := .loop 1 (sX.getSRun 8 4) (sX.getS 12), step := 1 }

def twinD : List DWord := [BitVec.ofNat 64 (2 + 5 * 2 ^ 15 + 2 ^ 19), BitVec.ofNat 64 (2 ^ 32), BitVec.ofNat 64 (64 + 32 * 2 ^ 32), 0]
def opT : SeqOp := { opL with kind := .loop 1 twinD (sX.getS 12), pc := 0x500, step := 0 }

theorem wit_LoopsAndDrains :
    (let s := { sX with seq := [opL] }
     let d := s.getSRun 8 4
     ((s.seqOp 0 7).isSome && !dDup d && (s.cls.resOf (s.getS 12)).isSome && (s.formById 1).isSome && s.seqReady opL s.cls && opL.released &&
      (s.metWith opL).isNone && s.arrayFree opL && decide (opL.step < dCount d) && decide (0 ≤ dGroup d 1) && decide (0 ≤ dBlock d 1) && dCount d == 2 &&
      compMode (dComp d) == 0) = true) ∧
    (let o : SeqOp := { opL with kind := .drain 1 [0x4000, 0x100, 256, 0] 0 }
     let s := { sX with seq := [o] }
     (s.seqReady o s.cls && s.cls.forked o.before && !drainMarked s.cls 1 [0x4000, 0x100, 256, 0] && !dTw [0x4000, 0x100, 256, 0] &&
      !drainToOb [0x4000, 0x100, 256, 0] && (s.scratchPlace 1 (drainAddr [0x4000, 0x100, 256, 0]) (drainSpan [0x4000, 0x100, 256, 0])).isSome &&
      (drainDiff s.cls 1 [0x4000, 0x100, 256, 0]).isNone && (drainDiff { s.cls with tiles := [{}, { el := [5] }] } 1 [0x44000, 0x100, 256, 0]).isSome &&
      [0, 1, 2].all (fun n => s.asyncRoom 0 n)) = true) := by decide +kernel

/-- A TW loop without a twin, one that has waited, and one whose twin waits at the same instruction; both of a joint loop may step. -/
theorem wit_LoopsAndDrains_twins :
    (let s := { sX with seq := [opT] }
     (dTw twinD && (s.twinOf s.cls).isNone && s.seqReady opT s.cls) = true) ∧
    (let w : SeqOp := { opT with id := 6, cls := 2, meet := .waiting 5 }
     let s : State := { sX with others := [{ cX with id := 2, classno := 1 }], seq := [w, opT] }
     let a : SeqOp := { opT with meet := .met 6 }
     let b : SeqOp := { w with meet := .met 7 }
     let j : State := { s with seq := [a, b] }
     (s.seqReady opT s.cls && someIs (s.twinOf s.cls) (fun e => e.id == 2 && e.live) && j.metWith a == some b && j.mayStep a && j.mayStep b) = true) := by
  decide +kernel

theorem wit_BoundsChecks :
    (sC.legal (.chkbLane 9 6 7) && decide ((sC.getS 7).toNat ≤ (sC.getV 5 0).toNat + 5000 - 0x40C) &&
     decide (((st (withS cC [(7, 12)])).getV 6 2).toNat < 12) && decide (12 ≤ ((st (withS cC [(7, 12)])).getV 6 3).toNat) &&
     decide ((sC.getS 20).toNat < (sC.getS 7).toNat) && decide ((sC.getS 7).toNat ≤ (sC.getS 13).toNat)) = true := by decide +kernel

/-- A shape record for 64 bytes of rank 1 at 0x400, in the core's L1 at address 0x1000; CPY.SOB to a reservation. -/
def shp : Nat := fld [(0, 0x400), (128, 1), (192, 64), (640, 64)]

def sY : State :=
  { sX with cls := withS cX [(1, 0), (4, 0x1000), (8, 0), (9, 0), (10, 0), (13, cX.getS 5 + 0x4000000000)], tlb := [te],
            mem := Memory.write [] (2 ^ 22 + 0x1000) (toBytes 128 shp),
            l1 := (List.range 4).map (fun i =>
              { core := 0, pa := 2 ^ 22 + 0x1000 + 32 * i, vmid := 1, bytes := ((toBytes 128 shp).drop (32 * i)).take 32 }) }

/-- What CPY.SOB's checks answer. -/
def sobGo : Option EngineOp :=
  match copyTry sY sY.cls (sY.copyAccess 4 8 1 4) 4 with
  | .go e _ => some e
  | .miss _ | .fault _ _ | .wait | .retry | .bad _ => none

theorem wit_CopyCommands :
    (copyForm (.cpySob 8 1 4) == some (4, 8, 1, 4) && sY.issuing && sY.wholeClass && sY.legal (.cpySob 8 1 4) && compOk (sY.getS 1) &&
     farOk 4 (sY.getS 13) && !sY.engineFull 0 && sobGo.isSome && (sY.copyAccess 4 8 1 4).lanes.all (fun l => decide (l.ea % 128 = 0)) &&
     !compOk 0xC0000000 && someIs sobGo (fun e => ({ sY with engines := List.replicate 16 e } : State).engineFull 0)) = true := by decide +kernel

/-- A copy from 64 bytes of scratchpad to the reservation, queued, running and stopped by a fault; a finished build. -/
def opC : EngineOp :=
  { id := 10, engine := 0, cls := 1, split := 0, form := 1, launch := 1, core := 0, vmid := 1, asid := 1, tag := 0, fn := 4, shape := BitVec.ofNat 1024 shp,
    coords := [0, 0, 0, 0, 0], far := cX.getS 5 + 0x4000000000, comp := 0, pc := 0x1000, words := [0], state := .queued }

theorem wit_CopyEngineMoves :
    (let s := { sX with engines := [opC] }
     ((s.engineOp 10).isSome && s.onCore s.cls && s.cls.forked opC.before && !s.cls.copyBefore 10 &&
      someIs (copyHandle 4 opC.far) (fun h => !s.resWriter 1 10 h && !s.resReader 1 10 h) && opC.stop.isNone && opC.progress == 0 && !opC.pinned &&
      compMode opC.comp == 0 && s.seq.isEmpty && (s.scratchPlace 1 (shBase opC.shape) (shBytes opC.shape)).isSome &&
      s.forms.all (fun f => f.scrPoison.isEmpty) && (s.cls.resOf (opC.far &&& 0xFFF)).isSome && shBytes opC.shape == 64 &&
      ({ opC with fn := 7, state := .running, names := [5], height := buildDepth 64, rd := 20 } : EngineOp).built && s.cls.live && !s.stepping) = true) ∧
    (({ sX with engines := [{ opC with stop := some (.xlate 0x77000 false true) }] } : State).engineOp 10).isSome = true := by decide +kernel

/-- A store enabled, and none; CLD's offsets in the tree, misaligned and beyond it, and no lane. -/
theorem wit_ContentInstructions :
    ((sC.myStore sC.cls).isSome && laneOk sC .slotGet { lane := 0x7FFF, ea := 0x1000 } && (({ sC with stores := [] } : State).myStore sC.cls).isNone &&
     sC.legal (.caSwap 44 30 48) && sC.legal (.cld none 40 10 6 0) && (List.range 32).all (fun i => (cldCheck sC 40 10 6 i).isNone) &&
     lanesOf 32 (sC.eff (pf 3 false false)) == [3] && (cldCheck sC 40 10 6 3).isNone && cldCheck (st (withS cC [(12, 0x210)])) 40 10 6 3 == some .caname) = true ∧
    (let s := { sC with cls := withS sC.cls [(12, 0x200), (13, 128)] }
     ([0, 124, 128, 2] : List Word).map (fun x => cldCheck { s with cls := s.cls.setP (s.cls.phys 6) 8 (fun _ => x) } 40 10 6 3) =
       [none, none, some .caname, some .align]) ∧
    lanesOf 32 ((st (withK 0 k)).eff (pf 3 false false)) = [] := by decide +kernel

/-- A request of the class whose split waits, and the store's line: live with one reference; dying at the head of the release queue. -/
theorem wit_ContentStores :
    (let q : ContentReq := { id := 9, vmid := 1, store := some 0, cls := some (1, 0), req := .ref lnA.name, pc := 0x2000, words := [1] }
     let s : State := { sC with creqs := [q] }
     (s.pins.isEmpty && s.bwRate 1 1 == 0 && s.bwRate 1 partBucket == 0 && s.cls.live && !s.stepping && someIs (s.storeAt 1 0) (fun x => x == st1) && someIs (st1.live lnA.name) (fun l => l.ref == 1 && l.state == .live) &&
      st1.lines.all (fun l => l.hash != st1.hash false (toBytes 128 77)) && (st1.hash false (toBytes 128 77) != 0) && decide (st1.lines.length < descLines st1.desc) &&
      (toBytes 128 77).any (fun b => b != 0) && lnA.hash == st1.hash false bytesA && lnA.state != .dying) = true) ∧
    (let d : CStore := { st0 with lines := [{ lnA with ref := 0, state := .dying }], relq := [lnA.name] }
     (({ sC with stores := [d] } : State).storeAt 1 0 == some d && (d.find lnA.name).isSome) = true) := by decide +kernel

/-- A descriptor that is taken by a disabled store, and one refused while lines live. -/
theorem wit_ContentStores_descriptors :
    (let new : BitVec 512 := BitVec.ofNat 512 (fld [(31, 1), (94, 1), (128, 4096), (180, 4), (193, 1)])
     let s : State := tabWords { sC with stores := [{ st1 with desc := 0 }], mem := tabMem (putN [] 0x2000 64 new.toNat) }
     (okIs (s.unitNum 1 1 0x2000 64).1 (fun n => n == new.toNat) && !descEn 0 && !s.descRefused 1 0 new false && s.descRefused 1 desc (new + 2 ^ 257) true &&
      (s.word (.part 1) 0x040).toNat % 8 == 0) = true) := by decide +kernel

/-! ### Translation, fault queues, sealing, contexts -/

/-- A level-1 class whose s10 and s11 name a page. -/
def sT (x y : DWord) : State := tabWords { st (atL 1 (withS k [(10, x), (11, y)])) with tlb := [te] }

/-- A legal target, an illegal one, a count; a translated access in it. -/
theorem wit_TlbInvalidations :
    (let s := sT 0x3000 1
     ((s.target? s.cls false (s.getS 10) (s.getS 11)).isSome && (s.target? s.cls true 0 (s.getS 11)).isSome && s.quiet s.cls && s.l1.isEmpty && s.pins.isEmpty &&
      ([.tlbInv 20 10 11, .tlbInva 20 11, .tlbShoot 20 10 11, .tlbLook 20 10 11] : List Instr).all (fun i => s.legal i) &&
      ((sT 0x3000 0x8000000000000000).target? s.cls false 0x3000 0x8000000000000000).isNone && bits (s.getS 11).toNat 47 32 == 0 &&
      s.shootOf.isNone && someIs (s.target? s.cls false 0x3000 1) (fun g => (s.underTarget g).isEmpty && (s.enginesUnder g).isEmpty && g.hits te &&
        ({ s with others := [{ k with id := 3, mem := [{ acc with lanes := [{ lane := 3, ea := 0x3000 }] }] }] } : State).translatedOut g)) = true) := by decide +kernel

/-- A walker with one slot of its run, a leaf control, a fault control for a waiting class, and another slot's number. -/
theorem wit_WalkersAndReplays :
    (let w : Cls := { withS k [(10, 0x443), (11, 0x00800000002000FF)] with kind := .walker, level := 0, vmid := 0, asid := 0 }
     let m : MissSlot := { core := 0, ix := 3, vmid := 1, asid := 1, page := 0x3000, ea := 0x3000, inRun := true }
     let s : State := { st w with misses := [m] }
     (s.issuing && s.legal (.tlbFill 20 10 11) && bits 0x443 4 0 == m.ix && bits 0x443 7 7 == 0 && bits 0x443 63 25 == 0 && bits 0x443 9 8 == 0 &&
      bits 0x2000FF 47 12 * 4096 % fillSize (bits 0x443 6 5) == 0 && !attrChk 0x00800000002000FF && !m.stale && m.shot.isEmpty && m.engine.isNone && !m.fetch && m.waiters.isEmpty &&
      bits 0x70103 8 8 == 1 && bits 0x70103 23 16 == 7 && bits 0x70103 24 24 == 0 && bits 0x70103 4 0 == 3 && s.route 2 1 .xlate false == 1 &&
      s.phase == .running && s.coreEnabled 0 && !s.coreOff.contains 0) = true) ∧
    (let a : Access := { acc with lanes := [{ lane := 3, ea := 0x3000 }], stage := .ready }
     let s : State := { st { k with mem := [a] } with tlb := [te], holder := [(0, 1)], resident := [(0, 1)] }
     (s.onCore s.cls && s.cls.replays a && phase1 2 4 { lane := 3, ea := 0x3000 } && laneOk s a.op { lane := 3, ea := 0x3000 }) = true) := by decide +kernel

/-- An entry of the device queue with room, and with none; a delivered access with an undisposed sequence number. -/
theorem wit_FaultQueues :
    (let a : Access := { acc with stage := .delivered 0 none, fault := some { cause := .xlate, addr := 0x3000 } }
     let x : QEntry := { q := none, owner := .access 1 5, entry := 5 }
     let s : State := (({ st { k with mem := [a] } with queue := [x], time := 77 } : State).setWord .level0 0x300 0x40000).setWord .level0 0x302 7
     ((s.entryOf x).isSome && !s.fqStuck && decide (ringUse (s.fqProd none) (s.fqCons none) < s.fqLen none) &&
      decide ((s.setWord .level0 0x302 (BitVec.ofNat 64 (s.fqLen none))).fqLen none ≤ ringUse (s.fqLen none) 0)) = true) ∧
    (let a : Access := { acc with stage := .delivered 1 (some 4), fault := some { cause := .xlate, addr := 0x3000 } }
     let s : State := { st { k with mem := [a] } with queue := [{ q := some 1, seq := some 4, owner := .access 1 5, entry := 0 }] }
     (s.cls.level == 2 && s.cls.status == .live && s.cls.kind == .launch && s.others.isEmpty && s.hslots.isEmpty && s.saved.isEmpty &&
      (s.cls.split a.split).state == .ready) = true) := by decide +kernel

/-- The right held and not, operands aligned and not; frames up to the limit and one more; an image that can close and no image. -/
theorem wit_SealOperations :
    (let s := (sT 0x5000 0x6000).setWord (.part 1) 1 0xFFFF
     (s.legal (.sealAdmit 20 10 11) && !s.lacks 0 && !s.lacks 1 && (sT 0 0).lacks 0 && decide ((0x5020 : Nat) % 64 ≠ 0) &&
      ({ s with images := [{ im0 with handle := 0x5000 }] } : State).images.all (fun im => im.handle == s.getS 10 && im.vmid == s.cls.vmid && !im.closing) &&
      s.images.isEmpty && s.l1.isEmpty && s.legal (.sealUnseal 20 10)) = true) ∧
    (let s := ({ st (atL 0 (withS k [(10, 0xD000), (11, 3)])) with sealMap := [9] } : State).setWord .dev 0x106 0x10
     (s.legal (.sealSeal 20 10 11) && s.sealLimit == 16 && decide ((s.getS 10).toNat / 4096 + 3 ≤ s.sealLimit) && decide (s.sealLimit < (s.getS 10).toNat / 4096 + 4)) = true) := by
  decide +kernel

/-- A 34-word image: header, one block, END. -/
def tiny : List Nat :=
  [0x314c4a48, 0x20001, 0x2, 0x1, 0x80, 0x50, 0x48, 0x70, 0x70, 0x0, 0x10020, 0x80, 0x1, 0x0, 0x0, 0x0, 0x1300, 0x0, 0x0, 0x0, 0x0, 0x0, 0x10180, 0x0, 0x80080,
   0x81a00001, 0x440002, 0x0, 0x0, 0x0, 0x0, 0x0, 0x4000000, 0x6000000]

/-- A request for that image, or for one that rule 5 refuses, with a pool of n pages. -/
def sAdm (img : List Nat) (blk : Nat) : State :=
  let m := tabMem (putN (Memory.write [] 0x5000 (img.flatMap (fun w => toBytes 4 w))) 0x6000 32 blk)
  let m := putN (putN (putN m 0x23000 8 0x24001) 0x24000 8 0x2F) 0x24008 8 0x25001
  let m := (List.range 4).foldl (fun m i => putN m (0x25000 + 8 * (256 + i)) 8 (0x2F + 0x40000 + 4096 * i)) m
  let s := (sT 0 0).setWord .dev 0x106 0x10000
  { s with mem := m, admits := [{ cls := 1, split := 0, rd := 20, vmid := 1, asid := 1, level := 1, image := 0x5000, block := 0x6000 }],
           cls := s.cls.modSplit 0 (fun sp => { sp with state := .blocked .status }) }

/-- The first request, as the Registrar reads it. -/
def admReader (s : State) : Reader := fun o n =>
  match s.unitNum 1 1 (0x5000 + o) n with
  | (.error _, _) => none
  | (.ok x, _) => some x

theorem wit_RegistrarAnswers :
    (let s := sAdm tiny (fld [(0, 0x300000), (64, 2), (128, 0x7000)])
     s.admits.all (fun q => !s.poolBusy q && q.cls == s.cls.id && q.rd != 0 &&
       someIs (s.poolOf q).1 (fun p => p.n == 2 && (s.poolFrames q p).isSome && okIs (s.unitPieces 1 1 p.frec 64 .w) (fun _ => true))) &&
     okIs (checkImage (admReader s) 1) (fun r => cdiv (4 * hNwords r.1.hdr) 4096 + cdiv (tableBytes (r.1.sealedTables s.free) r.1.runners).length 4096 == 2 ||
       cdiv (4 * hNwords r.1.hdr) 4096 + cdiv (tableBytes (r.1.sealedTables s.free) r.1.runners).length 4096 == 1)) = true := by decide +kernel

/-- An image that a rule refuses, and a request block with a reserved bit set. -/
theorem wit_RegistrarAnswers_refused :
    (match checkImage (admReader (sAdm (tiny.set 32 0x02000000) (fld [(0, 0x300000), (64, 2), (128, 0x7000)]))) 1 with
     | .error (.refused _) => true
     | .error .unread | .ok _ => false) = true ∧
    (let s := sAdm tiny (fld [(0, 0x300000), (64, 2), (128, 0x7000), (200, 1)])
     s.admits.all (fun q => (s.poolOf q).1.isNone) = true) := by decide +kernel

/-- An image that closes, with no access out and with one. -/
theorem wit_RegistrarAnswers_unseal :
    (let s : State := { sT 0 0 with images := [{ im0 with closing := true, closer := some (1, 0, 20) }], sealMap := [9, 5] }
     (s.l1.isEmpty && s.allCls.all (fun c => c.kind != .handler) && !s.translatedOut (pagesTarget 1 0x9000 1) &&
      ({ s with others := [{ k with id := 3, mem := [{ acc with lanes := [{ lane := 0, ea := 0x9004 }] }] }] } : State).translatedOut (pagesTarget 1 0x9000 1)) = true) := by
  decide +kernel

/-- A level-0 class that names partition 1 on core 5 and half 1 of its shadow bank. -/
def sCtx : State :=
  tabWords { st (atL 0 (withS { k with vmid := 0, core := 3 } [(10, 0x501), (11, 3)])) with
    others := [{ k with id := 4, core := 5 }, { k with id := 7, core := 7 }], holder := [(0, 1)], resident := [(0, 1)] }

/-- The state after the save, with the class at its instruction again. -/
def sSaved : State :=
  match exec (.ctxSave 20 10 11) sCtx with
  | .next t => { t with iss := sCtx.iss, cls := t.cls.modSplit 0 (fun sp => { sp with pc := 0x1000 }) }
  | .fault _ | .refused _ => sCtx

theorem wit_ContextOperations :
    (let s := sCtx
     (s.issuing && s.cls.level == 0 && s.ctxTarget (s.getS 10) == some (1, some 5) && ctxArea (s.getS 11) == some (true, 1) && s.saveCores 1 (some 5) == [5] &&
      !s.noRoom 1 [5] true 1 && (s.rotSaved 1 5).isNone && s.creqs.isEmpty && s.l1.isEmpty && s.seq.isEmpty && s.cls.mem.isEmpty &&
      ([.ctxSave 20 10 11, .ctxLoad 20 10 11, .ctxPark 20 10, .ctxResume 20 10] : List Instr).all (fun i => s.legal i)) = true) ∧
    (let s := sSaved
     (match s.saved with
      | [x] => x.vmid == 1 && x.core == 5 && x.shadow && x.place == 1 && !x.lost && !s.cannotTake x 5 && !s.ghostOf x && x.classes.length == 1 && x.forms.isEmpty &&
          x.classes.all (fun c => c.locks.isEmpty) && x.recorded.isEmpty && x.disposed.isEmpty && x.ends.isEmpty
      | _ => false) && (s.together (s.formsOf 1) 5).contains 5 && s.legal (.ctxLoad 20 10 11)) = true := by decide +kernel

/-! ### Scheduling, partitions, links, trust -/

/-- A running device with partition 1, at 2 µs and a quarter. -/
def sB : State := { tabWords (st k) with time := 9000, bwFrame := 1, eWindow := 1 }

theorem wit_Budgets :
    rateOk (2 ^ 24) = true ∧ rateOk (2 ^ 24 + 1) = false ∧ rateOk 0 = true ∧ depthOk 16 = true ∧ depthOk 17 = false ∧ depthOk 0 = false ∧
    (let s := (sB.setWord (.part 1) 0x211 100 7).setWord (.part 1) 0x212 2 7
     (s.hasPartition 1 && (s.bucketsOf 1).contains 7 && s.bwRate 1 7 == 100 && decide (s.bwFrame < s.time / 4000) && decide (s.eWindow < s.time / 4000) &&
      s.bwRate 1 partBucket == 0) = true) ∧ ¬ (2 < sB.time / 4000) := by decide +kernel

/-- A window of 90 units of the lane pipes' activity on core 0, whose slots form 1 had. -/
theorem wit_Budgets_charges :
    (let s : State := { sB with forms := [fm], meter := { pipes := [((0, .lane), 90)], slots := [((0, 1, 1), 5)] } }
     (fm.launch != 0 && s.saved.isEmpty && s.hasPartition fm.vmid && s.meter.bytes.isEmpty && decide (s.eWindow < s.time / 4000)) = true) := by
  decide +kernel

/-- A core with a period and a word written before its boundary, which the next period takes. -/
def sRot : State := { (sB.setWord .dev 0x201 50 5) with rotNext := [((3, 8), 100, 9000), ((5, 0), 0x800A0000, 9000)], time := 10 ^ 8 }

/-- A core between partitions, in a slice and outside one. -/
def sSl : State :=
  ({ sB with cls := { k with id := 0, core := 256, kind := .bursar }, time := 0, holder := [(5, 3), (3, 2)] } : State).setWord .dev 0x201 50 5 |>.setWord .dev 0x203
    (BitVec.ofNat 64 (fld [(0, 0), (16, 5), (32, 1), (63, 1)])) (8 * 5 + 1)

theorem wit_RotationsAndTime :
    (sRot.rotRefused 3 8 (rotMask 8 60)).isNone = true ∧ (sRot.rotRefused 3 8 (rotMask 8 4097)).isSome = true ∧
    (let p := sRot.rotPer 5 * frameTicks
     decide (p ≠ 0) && sRot.rotNext.all (fun x => decide (x.2.2 < sRot.time / p * p)) && decide (sRot.time / p * p ≤ 10 ^ 8) &&
     decide ((assoc sRot.rotFrom 5).getD 0 / p < sRot.time / p) && sRot.rotNext.all (fun x => decide (x.1.2 ≤ 8))) = true ∧
    (sRot.rotNext.map (fun x => x.1)).Nodup ∧
    (sSl.coreEnabled 5 && sSl.cls.id == 0 && (assoc sSl.resident 5).isNone && assoc sSl.holder 5 == some 3 && someIs (sSl.sliceNow 5) (fun x => x.vmid == 1) &&
     sSl.hasPartition 1 && sSl.coreUp 5 && !sSl.savedP.contains (1, 5) && (sSl.rotSaved 1 5).isNone &&
     (({ sSl with time := 6 * 40000 } : State).sliceNow 5).isNone) = true := by decide +kernel

/-- VTIME at TMRAT and one before it; a disarmed timer. -/
theorem wit_RotationsAndTime_timer :
    (let s := (({ sB with time := 12345 } : State).setWord (.part 1) 0x230 1000).setWord (.part 1) 0x231 0x200000000
     s.vtime 1 = 25690) ∧ (25690 : DWord) ≠ BitVec.allOnes 64 := by decide +kernel

/-- A load that stands in a slice, with its split held by it for 49 cycles; one whose lines are there and not. -/
theorem wit_RotationsAndTime_runners :
    (let a : Access := { acc with op := .loadScalar 8, dest := [], sdest := some 70, pc := 0x9004 }
     let c : Cls := { cF with mem := [a], splits := { root with pc := 0x9000, age := 49 } :: List.replicate 15 {} }
     let s := { sFetch with cls := c }
     (a.op.plainLoad && !a.logged && (s.sliceAt c 0x9000).map (fun x => (x.1, x.2.1)) == some (0x9000, 0x9040) && c.live && s.holdsCore c && s.heldByLoad c 0 &&
      s.runners.isEmpty && decide (48 < (c.split 0).age)) = true) ∧
    (let c := sFetch.cls
     let s : State := { sFetch with icache := [] }
     (sFetch.mayRun c 0 && s.mayRun c 0 && sFetch.cached c 0 && !s.cached c 0 && (sFetch.lineAt c 0x9040).isSome && ((fetchLine c 0x9040 { sFetch with icache := [(0, 0x240), (0, 0x241)] }).lineAt c 0x9040).isSome &&
      sFetch.l2.isEmpty && sFetch.bwWait.isEmpty && sFetch.bwRate 1 1 == 0 && sFetch.bwRate 1 partBucket == 0 && !({ sFetch with cls := cB } : State).mayRun cB 0) = true) := by
  decide +kernel

/-- An image without regions, and a launch record that asks for one house of one form of two 32-lane classes. -/
def imL : Image := { im0 with header := BitVec.ofNat 512 (fld [(48, 2), (320, 32), (331, 16), (350, 4096)]), runners := [] }

def recL : Nat :=
  fld [(0, 0x9003), (64, 0x9000), (128, 0x9100), (192, 0x50000), (320, 2), (336, 1), (352, 1), (368, 1), (376, 2), (384, 32), (400, 16), (448, 4096),
    (576, 100000), (640, 5000), (704, 2 ^ 64 - 1), (768, 0x60000), (832, 7), (880, 3)]

/-- The Bursar's partition 1: queue 2 enabled with one packet at 0x40000, a rotation on core 4. -/
def sQ : State :=
  let s : State := tabWords { st { k with id := 0, core := 256, kind := .bursar, vmid := 0, level := 1 } with images := [imL], holder := [(4, 1)], resident := [(4, 1)] }
  let s := (s.setWord .dev 0x201 10 4).setWord .dev 0x203 (BitVec.ofNat 64 (fld [(16, 10), (32, 1), (63, 1)])) 32
  let s := ((s.setWord (.part 1) 0x181 0x40000 2).setWord (.part 1) 0x182 (1 + 2 ^ 16 + 16) 2).setWord (.part 1) 0x189 0x50000 3
  ((s.setWord (.part 1) 0x18A 1 3).setWord .dev 0x186 100).setWord (.part 1) 0x221 500

/-- Its memory, with a packet and a record; the page of the region table is read-only. -/
def memQ (pk rec : Nat) : Memory :=
  let m := tabMem (putN (putN [] 0x40000 64 pk) 0x41000 128 rec)
  let m := putN (putN (putN m 0x23000 8 0x24001) 0x24000 8 0x25001) 0x24008 8 (0x2F + 2 ^ 21)
  [0x40, 0x41, 0x50, 0x60].foldl (fun m i => putN m (0x25000 + 8 * i) 8 ((if i = 0x50 then 0x2B else 0x2F) + 4096 * i)) m

/-- The record as taken, and as judged. -/
def judged (s : State) : Except Nat Launch :=
  ((s.advance 1 2).judge { vmid := 1, asid := s.qAsid 1 2, queue := 2, owner0 := s.queueOwner0 1 2, at_ := 0x41000 } (BitVec.ofNat 1024 recL)).1

/-- A queue's packet: a launch whose record is readable and accepted; a fence; an unaligned record. -/
theorem wit_QueuesAndRecords :
    (let s := { sQ with mem := memQ (fld [(32, 1), (64, 0x41000)]) recL }
     ((match s.turn 1 with
       | .packet q (.ok w) p => q == 2 && bits w 39 32 == 1 && bits w 511 128 == 0 && bits w 63 40 == 0 && bits w 127 64 == 0x41000 &&
           okIs ((p.advance 1 q).unitRead 1 (s.qAsid 1 q) 0x41000 128).1 (fun bs => ofBytes bs == recL)
       | _ => false) && s.phase == .running && s.qEn 1 2 && !s.qEn 1 5) = true) ∧
    (let s := { sQ with mem := memQ (fld [(32, 2), (64, 0x60008)]) 0 }
     (match s.turn 1 with
      | .packet _ (.ok w) _ => isFence w
      | _ => false) = true) ∧
    lrReserved (BitVec.ofNat 1024 recL) = true ∧ lrCompw (BitVec.ofNat 1024 recL) % 8 = 0 ∧ lrCompw (BitVec.ofNat 1024 recL) < 2 ^ 57 ∧ 0x41040 % 128 ≠ 0 := by
  decide +kernel

theorem wit_QueuesAndRecords_judged :
    okIs (judged { sQ with mem := memQ (fld [(32, 1), (64, 0x41000)]) recL }) (fun _ => true) = true ∧
    okIs (({ sQ with mem := memQ 0 recL, services := [1] } : State).judge { vmid := 1, asid := 0, owner0 := true, service := true, at_ := 0x41000 }
      (BitVec.ofNat 1024 (recL + 4 * 2 ^ 64))).1 (fun _ => true) = false := by decide +kernel

/-- A fault queue's service record stands in turn. -/
theorem wit_QueuesAndRecords_service :
    (let s := ({ sQ with mem := memQ 0 recL, services := [1] } : State).setWord (.part 1) 0x305 0x41000 |>.setWord (.part 1) 0x182 0x10000 0 |>.setWord (.part 1) 0x182 0 2
     ((match s.turn 1 with
       | .service => true
       | _ => false) && okIs (({ s with services := [] } : State).judge { vmid := 1, asid := s.qAsid 1 0, owner0 := true, service := true, at_ := 0x41000 }
         (BitVec.ofNat 1024 recL)).1 (fun _ => true)) = true) := by decide +kernel

/-- A launch of one house, and a fence it holds back. -/
def sLaunch : State :=
  match exec (.takeLaunchPacket 1) { sQ with mem := memQ (fld [(32, 1), (64, 0x41000)]) recL } with
  | .next t => t
  | .fault _ | .refused _ => sQ

theorem wit_HousesAndLaunches :
    (let s := sLaunch
     (match s.launches with
      | [l] => s.canPlace l ((l.nextHouse 0).getD 9) 4 && !s.canPlace l 1 8 && imL.handle == BitVec.ofNat 64 l.img && imL.vmid == l.vmid && !l.service &&
          (let e : State := { s with launches := [{ l with placed := 2 }], others := [{ k with id := 9, status := .ended }] }
           e.launchDone { l with placed := 2 } && !s.launchDone l)
      | _ => false) && s.phase == .running && !s.hot && s.l1.isEmpty) = true := by decide +kernel

/-- A form whose classes have ended, one with a scratchpad store of an ended class, and one whose time is up. -/
theorem wit_HousesAndLaunches_ends :
    (let f : Form := { fm with ftime := 77 }
     let a : Access := { acc with op := .storeScratch 4 }
     let s : State := { st k with forms := [f] }
     (f.launch != 0 && f.timeLeft == 0 && !f.stopped && a.keepsForm && s.cls.kind == .launch && s.cls.form == f.id && s.cls.live && s.engines.isEmpty && s.seq.isEmpty &&
      [0, 1, 2].all (fun n => s.asyncRoom 0 n) && s.hslots.isEmpty) = true) := by decide +kernel

/-- A running device with two control streams. -/
def sP : State :=
  { sB with streams := [{ no := 0, keys0 := some { inKey := 7, outKey := 8, least := 5 } },
                        { no := 2, keys0 := some { inKey := 9, outKey := 10 }, keys1 := some { inKey := 11, outKey := 12 }, gen := true }] }

/-- NIST's test case 14 of AES-256-GCM: a zero key, IV and block. -/
theorem test_gcm :
    gcmCrypt 0 (List.replicate 12 0) (List.replicate 16 0) = beBytes 16 0xcea7403d4d606b6e074ec5d3baf39d18 ∧
    gcmTag 0 (List.replicate 12 0) [] (beBytes 16 0xcea7403d4d606b6e074ec5d3baf39d18) = beBytes 16 0xd0d1c8a799996bf0265b98b5d48ab919 := by
  decide +kernel

/-- A message that stream 0 accepts as one of a type: its tag is the header's and the payload's. -/
def msg0 : CpMsg :=
  { stream := 0, gen := 0, nonce := 5, tag := 77, addr := 0x1010, len := 5, payload := (List.range 64).map (BitVec.ofNat 8), mac := [] }
def sign (key : BitVec 256) (ty : Nat) (m : CpMsg) : CpMsg := { m with mac := tagFlit key m.nonce (cpHeader ty m) m.payload }
def msg : CpMsg := sign 7 1 msg0

theorem wit_PortsAndPeers :
    ((sP.admitsMsg 1 msg true).isSome && (sP.admitsMsg 1 (sign 7 1 { msg0 with nonce := 4 }) true).isNone && (sP.admitsMsg 2 msg true).isNone &&
     (sP.admitsMsg 2 (sign 7 2 msg0) true).isSome && (sP.admitsMsg 1 { msg with len := 4097 } true).isNone && (sP.physFault 0x1010 5 true).isNone && (sP.physFault 0x1010 5 false).isNone && sP.mem.wf &&
     sP.l2.isEmpty && sP.portq.isEmpty && sP.streamOk 0 && !sP.streamOk 9 && (sP.stream 2).isSome && sP.named 0 5) = true := by decide +kernel

/-- Control messages on stream 0, and KEYSW to the generation of stream 2 that is not current. -/
theorem wit_PortsAndPeers_control :
    (let m : CpMsg := { msg0 with addr := 0x30, len := 8 }
     (cpLegal m && someIs (sP.admitsMsg 4 (sign 7 4 m) true) (fun p =>
       let s := sP.setStream (p.1.putKeys false (some { p.2 with least := 6 }))
       let m := openMsg m 7
       okIs (readControl (s.portAccessor m) (cpBelow m) (cpIndex m) s) (fun _ => true) &&
       okIs (writeControl (s.portAccessor m) (cpBelow m) (cpIndex m) 3 s) (fun _ => true)) &&
     someIs (sP.admitsMsg 7 (sign 9 7 { msg0 with stream := 2, gen := 0, nonce := 0, len := 0, payload := [] }) false)
       (fun p => p.1.old.isNone && p.1.gen)) = true) := by decide +kernel

/-- An export window and a replica set of partition 1. -/
theorem wit_PortsAndPeers_links :
    (let s : State := { sP with mem := tabMem [] }
     let s := ((s.setWord (.part 1) 0x259 (BitVec.ofNat 64 (fld [(12, 5), (61, 7)])) 3).setWord (.part 1) 0x261 (BitVec.ofNat 64 (fld [(29, 9), (63, 1)])) 2).setWord (.part 1) 0x262 0x400000 2
     let r : PeerReq := { srcDev := 5, vmid := 1, exIdx := 3, offset := 0x400102, size := 4, kind := .write [9, 8, 7, 6] }
     (s.portq.isEmpty && s.bwRate 1 noTenant == 0 && s.bwRate 1 partBucket == 0 && !s.confidential && s.keyOf.isEmpty && s.l2.isEmpty && s.mem.wf &&
      someIs (s.peerPieces r) (fun ps => ps.map (fun p => (p.2.1.peer, p.2.2)) == [(false, 4)]) &&
      (s.exportAddr { r with srcDev := 6 }).isNone && (s.exportAddr { r with exIdx := 16 }).isNone && s.hasPartition 1 &&
      someIs (s.replicaPieces 1 9 0x100 8) (fun ps => ps.map (fun p => p.2.1.peer) == [false])) = true) := by decide +kernel

/-! ### A signature -/

/-- A public key of ML-DSA-65 and a signature of the bytes 1, 2, 3, 4 under it, both made with OpenSSL 3.6. -/
def dsaKey : List Byte :=
  (([
    0x5796548acce52d41344269ddced23dae1009dd700f559b215c3765f837fc36abffb060973cb79f71083fa9dc4223d6b899b7d122cd2d6e7a8c0c0ed8bb0b9d34,
    0x600ae2f648e114244726232b3bef2f9286d39cdbb1d630c1bf595eba8a9b8e9dca1b148a93a2fb43cdff319f9075d8656e4bfff31bc5ffecd6b49ef8abf9036e,
    0x544e184dc7f30216307fa63c44608d3925788c5695f5d5cb7fd25cd4e9b44455922556cb88f71df256a68fb9536540ea339147c3d1427de7e3cc58e8d4b71306,
    0xe1c525dae3b679ec93758c70a9974ad8935250ba365586aa2b0256c4b491655450f69af8ff14f26e6387c92630f6d18a48f950c5840f993c84642a658ed3cc7a,
    0x92f432df1fc01198bbd251a4c5231e781353a8cdd95e348196b3259456e4e73e5acf99a121a38ac175134ab4f2c9dfa90ca25fea9435a58f9dac56f975584bc1,
    0xca526561dce016674441b85b629d98c1a529ac21f7dcddf293eaf0e24c187e70b5e2cff33f940370bb75ee18c17e46222cc9cb88be6667e00203e8be6fe5f232,
    0x5f2744628a55c3aaec9feec3953c8e6cbcccf1ba808579109208cf52420bcacad30ec8bed25d6793f62b99efc8d719cc6ccf46139b5aad3faaef9e9a17f974ba,
    0x7ca25550e0f9b88acd07399b04874a6a663fa640bc0fcb1420a9382396f8636286418fccc33531c28696adaf8a8846b3ff96d4b90add4c725da99fb4c483de58,
    0x5b69cde752f12aa971b05d67e30cb3546509908598ad13c99fb4ca4c96849fb9719c9dff3382e07fbb53643d53fd11a1e1171eaebe1932b4e07471b8f8a57da0,
    0x790f12edf11bb36570c129af309200b8af27bb3fa79e21e2baa89a97efbfc598ee82f0db967efd2e29d585647cf8cc6a83446b09c7cbe0309972976eafa55f6b,
    0xb72fe7210d8a0cf6faf9a23a8da7764835da98035bb898b4010001f1ef67fb927f1b2223d58af222045fc51e18791b579a1a207e8b2cc57da837e4e7e90a2134,
    0x24754caacf8797b34d65a088a85d4d6a1ea9e61a7926fe70f040a6d2bd0d10bb32a7ba1abda52d498bb063e04e3778a3b5b39883f49596ab0ddc54fa9a615261,
    0x65aef6b1901e1731b261c690cfc9f6756b6f51fea9dc573bcb97572539ea8d19f438737ca3f3c7274623f401d4dc6f8635db1f9fdce0950e2256421a4a647de5,
    0x1f9df0d23339015aa550476dadce8695b4f71fb63260b1e61345450a7e7949f2fe2e1d0f6928772f19895a9f0aefd92b461f3b596056b8bbfbf66eec2d659975,
    0x5beb9317e63b2fcd10288724a275a6f8c039624d144e0ea01b5db5bae99e046e734c7b95b11d5233bf6704ebcd717b13903a3c839e8cd50f6b774acbbaed447c,
    0x4624067d87fb46bd7d8ae4c04693a3132a32e6cfceb5e4f6a34a3ac011c84e695bf594f3a4680ac6dab86f27a375c3824923a009bf4843cd0c2ddcaa5aca6c52,
    0xe066a14e7a0249ec46020b76c66a6795a85bd14becb03d9f0e5e9b53db9613edb5d27029986ff17fa39b51ba86f5e1e6cf3de2c8dd1b5a62299a7bc330471cd0,
    0x3590699db0292b655fcdff0091813c8a93a2f45a96c0a417a219484526b604ebfa7c5374f9ade862266836717dfc137eeb20cc73fb6679bfc52256e5b51d0c60,
    0x30b9d45649c5bb99c2e909a71646db6a78140721df5607856dd65c870e7e68924f93efe976212ac976b9004d95b15793dc8cdb9159d108e9b3d1b46fa79cee02,
    0x5b3b7ff3651f7689fd26e06b52e011d67ee0201f2286b10248b9fc8cf9b5c9c3ee0818902896417db61510210700e607ecd057c24116b15a3eea9486f33a135,
    0x9279e528d432620bfb54ef71149ac000c1dbd585b6c7d877520aa4961f8719dfef4c66d9d9d952b6f037cb0090571b814e8d6c3e586433bda964aeb76e770b,
    0xc963b54e047607d36c489683aefae3e8e2fe8f834e61539cff1aa48a3d7bba476e4175d1f7b5604bf63ff302594fa0134573c3b66dd49bdf9d3488e23a68b65,
    0x395455e16c09ed5dedee71c327b7c29746de6b8b55f4152c7d43c3b2216fc236959153d77523f6d204b2061039cb0d326e1f09c0a28a5a70fe35410e01bbaf83,
    0x55cbabd6b89870b39df112b38280049fc411d263f6f8a5341591fca9eaf8d07eccd62f93337c1341c6068064ca3946b7687818ab8e4ff0a9b426ac06ad4ba917,
    0x28b9256557c7c056464513b5d2a7f56ee9dcccfd42c4b4c38c8c31fd6509e63c18b319250356652007af47154425e0241c28a12026eb492ad8e2e08cd55ca36f,
    0x7aa07e0ec152f038158b993919a7c8f1d5a22801381a4483f3504ef9dd32d00d86bdd67162ab7bee74024f2151fa1d2c7e5dd4f868ddae100fad26a03711112e,
    0xaaea4ed60fcf2b818d16678f841592aebb17fe05ee4191020e4dcd740dcc712f774b5e15d2b4b1e90074465369c56e78268c2d70dc38e161aea2722a9e42130a,
    0x4a20ccb1788a3ea06c52f375e84f214f50113eaf37213300595331962a1ca9e3b4b9ec45dc7f9fa0f8daad9ba3251e859642a5f387af0d513a88717a913b4919,
    0x90b6f80ceddb213bfd141960eb80bfa90bf76e4a57ddc7fd016e213ed6af8528734b6dc41bc7e877bb4c84ed3a031282739c984f31359a226e9ae05b408d9350,
    0x6b8b9e227867457644a33ca95297a746b0d5ffa5f95f6d4c326fe8986d791a3959840dbe7ca5c8ebaf617af76a97fde72b8e62be6cc93b3196e5b842b3093933,
    0xa0b1357adb3c55bb93093e8a10e2b7a03793558a0f4dc2a81323113cc52201a2] : List Nat).flatMap (toBytes 64)).take 1952

def dsaSig : List Byte :=
  (([
    0x4b8163d62800842ba2368d04906a0823b4d4b71bdb9c1d520f2242bb14a2cd021327f97faa27b9ddc16e7ac397a0f9be98cd72693eeb0fe8a27beef4a8be6d8e,
    0xf9cd2497792275a90907c1f17b9c7292bcb6b054f81b2607c2f314fad8817d958ba4ea9d6fae298d78418451349cc87350576de736b9fc43e99981d12292cc12,
    0x54d7ae887a718c3cdc25913fe41119eca925679a7bf2bbfe84872c49fec0dae414cbfa4b3a281cebdc82cf59cb09d38513a0dd749db29809354d7fec746cd187,
    0x4531fabac2ffefab69b96df0f825a52d3460be252e067badc1c528fcba8102714a785bcc599047c20ab9112a7f2d6d9486eb8acb4eb90e95084ae7db2632461,
    0xfb8305c09d7c85ca31a5ce1fd4f190044be5c37cd35cf4613d1d37315cba8676839b155a0626067c3ab7c62bc10eb0ed7aab76b33040825b2474ca56fa3f8266,
    0x152ba72c4b0ec8ecab68cfaef1abb3910b2e6a0e85cee4af18293c286e04c4d4e995a9f5a40776c3a3705424e91adc8b79036c4d3d5c3292304c8ef0fdda44be,
    0xa3b1fb59773ceaa832a5318d48096e25f5134180cf561b5bd9fab1abd413fc0bb1fc260dd5f136b694cf130ab414f5c9ce88f80a7f629547dd7628b441611dbe,
    0x4caa312cf22ca6221b4c4caee4b8ac2e6f1d9509a3b05ddecde5ce21c478926075092bb7ec5a8453bf22d49b26b7eb33a4957337106a0843b7e441132ce7df8f,
    0x4d7273718baf569bd77f0aaac0436470cede16cf70d6694ac4a537b2b0b5b4bc9368847ed1a010e284f889603b2cfaa55b24e9090c409c72cca56bf704c8610d,
    0xcf439a1f8263877246633144214d1c690de540b0ef37f23abdecd3a125c4c5fa9abf6143ada287322156159628c5c6aed7193fa00b02ee99a93d0a21d1e8d7d1,
    0xac6f8705e58817549613b8e417449e498bd87cf5349ef2c01b649c2d71347c26cc8794ffea210e60c558e0bcc957b63ca5121f2127296c45336223da089ea9b3,
    0x439d48d63a116bf2e2be1d1547af9e9dff37df13ca91b607c6ae46df29d18862ea6cc7930794105649762815c3e76ac4726f06cbbb50e78680da9a2982a81ea0,
    0xd62d826daf8c51950aa39705caed94d2c5049ec87166e8a84aa4c7dc3a3dbb7014c65004406fdf7084d819aba67cc7f2472e6230a1799fbacd6ccdbf1ad926f4,
    0x81e9857ea2fb84e41721714e8b922563e67ccb0d1e7f9ecd66ad77811bd2f525e174abafff0af8427f1b1b1605641ff9f73c569c566149d521b1481bf47600ee,
    0x6080588e8e3bc301aa72c397377c65afda77028feb98114d7c201214d0ee2302193bccb41f8499de07da51767250f6f351acd9c12b686b1bbfc73272a0bd48e8,
    0xd1c9c96449b84c2ee804e719c52ac6e7bfe8396b4b9611260c6f1e5e81a7b3e02c3fd748b8b84177bbe7bec29b863679a9bb0b114cf97f5ef57000b5adec823,
    0x4e3c2a52ee09524c3582af7fd4a628b6a9a222631e59bf9d225ff8d3b75ac558ded832e146cab0bfc8382d1ce0b6b84157431365a172a2bafbc9b38892408563,
    0x99db47b98fc13839c36d653fe456ebdf7cb305f7b5e43c0d6e2802a0487c4b10994ead6b3a01f03f7410a3dd6c891b9675535e968ae04704afdf1ccc18f02a4a,
    0xbceb63aeeb0faffa44111d7496656ae0acf68d11f7ab17abc75170da24ad8df067be56eb7bf892cddcf729e23905a78f301f5dd2029c70ce2e3255520242170e,
    0xa7cd25bf697c50aab971b6f2e3e7d6f3f3ce5198bc5274785dcc7ce4de281c62f5938b2cfd5c896e3fa43ebbf30e62b8e05a94959902ac106231dba54f9550,
    0x2d317ef7625e338b1edea2ba59c0772414987b17efa87db4881c0d4121f4b1fb83143105440b7c9859be7c63074128cba67d52d4093867a2a645c45f2d25e598,
    0x7b754e83047e16697d7e60ce027386d67b0dcafae45720d8211b43ec18d620a2e4f9d00e1300788a1c60ccd03688b4928b2092ff87e79ab7b6eb4c6e397a6821,
    0x8869fa4f7bcc7c3041e8aec6b52cb8101aced364fe6f69d8c721cf1959489d48353f0e9ff8f97115844f98f1af4de7ee21cbb6e58c1f1e25f3cf0628395ab9c7,
    0x274d67a60a07011855eab308140efd21e2cbf1bae4425b0ab72d7392cd52c8f88de5fe0ec7ca6c8d2b283cab171e682d740ce700c352ca8f9afbe23b897fb02b,
    0x6df860690be87da5eb053733ab057bb91b2d427ab743be46bb1fe0554ca80f3e9cb8cb8b8590282fcb10de7fa1e9a306315dbd9b293cdd23747b0b303a0cc920,
    0x9c7f51b86ec8044a0f0fa94af854f585b35d0e81bf56f5c9fd268704fa2ee1389ada5d18c016a0f9f311915ab4acdc3c222a672d58e9033641fcbaba9aa79117,
    0x4b491d42c4f4e2e93d8d73392f81cc27b046fd9703c2ec801715e4d7ba5257b4e6d996aa279436c9e5bed7603177ec3814ebb0bee9556fa572a828b635bc037f,
    0x2d3356b448a10a8a6910cb7016d2563511a8e412c1b48102aa171e4d0adbdd990e605713215092247b7a31dac5b896a28a66bd2997177fd7ba74a6c923773c79,
    0xb7f3104aae5e2b0dc2f75ecb952edabb4738bcc9c032883f378ca6d84fe7da92f8cb88da4808fde3aaafb67a6a5e34ce71efce525dc39ea79c8ed5d34b8fc092,
    0xafa471e66f37b8c0d038259bb95def491b58b680eac0ec57d5406b3a5e8c350ea5997f62c44e55b3776ca7e455444d6186ef0a0a4cef6225f795c3da4acb7742,
    0xbd055c9230c743c70b1ccebe9844fb48e88b849e3b65b39bf0a6bc8b809477e7d5bd60ebad1dc1be810dfac41bfd4e7653420092c3209e60f68898657e768a44,
    0xfd86cb580a53c247d66026b1750c3df5cbacd606f3f79b9afd5ed001d7228e6c06512082c6504e9814f2d719caf8c9b71e9c8eb11119aa3106c5e4b3bf8d497b,
    0xbccce81317f2a3dcab4ea86e67d1b236b6bb5143a42e6cdcb1041cf03676ed34f2a7aaab7d0a2acc63cc1436edd2c9ee886805b40b47b5f42bea469d5c65389f,
    0xbdb8e1a29527029bf9933f071eb1bcb7b065ce3236cdbe5f4ea558b6659ce5711c1bdb28ed0cd5f4c7ca158ab11589070a87588d8bffec4f085dff571dd61df1,
    0xe283ff8deeb8c4e1f8dc06fff0339d24d28358cd1c9980331ca696a478d43f04acfa6f2ae77dfedf3b6d94c4ceed395cb38bf557be47dc2e775eaaaa2c940648,
    0xf497bb567e4d5e2df1ada3f271471249a474642fff6d24284553925071bcfc27fcf67a81b40afa6ba9e363c8106cd043a676e4a279fd06220bf068a6beb836b2,
    0xad04fd3190cdec1051bf00ca000b63ca22911e8a13616fca07d5ddf37dcd850acab96921419dff919aed3519d609ac657771aab043a0a9ca8f6ff89b34ecbb06,
    0xb77a786ab8cef5774b00cf2a5065c8ae3c49d47b267eb6511cd235c0cba21c9453855c0feeb98ba53c56c18cfe02896c237539fbd2ce70929110ed38d5cefdc5,
    0x86f270bd273b917a84921549355e804ecce040ed5d707ca34d72baa6c237cd45864f9a314b06127ffed2e4cdbc67904be42ab00af47f724980f29b6abbd70966,
    0x84877f15208f1a5ea03afb467dde9beb9ef9a624c5ba0117e11dc0370f476ff8ce8cf989e810e29d114925516d331f59f05a47bf39e4a1880d515f17ffa3ffd9,
    0xf4f51827ca7006a31fece83d862ac82054a951de4752fd3a43753285c296ba788bdf5d8d61c39b2258977fe5c8b107e87caadee2b8476b1a1e03bfd9fc69ff7e,
    0x881f2a13a00fbcb0fd81a123ec904ad0e816f9dea527e2512b05d3c5f56977a590c40ae16a29b8dfc9449f1c75cbf33ef86f5a12c185695b9b2b1a88336fb86d,
    0xd3c1bedc0024469d16c67b1de19d908664428be4c44686b6d44b30369ddfeafbdcaa3e88bfd4232421318639323fae364129d7fbdc1b822329f9eb1aa8af9df1,
    0xd928cb92d59e9c5efbc52127b40a16e069d4aa0af7102d573b9a2f6518d93e672e5c8e3587084b5f9fde4873e8c59e51625cf629847d9cd7b84ca77008b2ff9c,
    0x14994547ab4010d46bede923c255f60a7015e9545fb8a92ea120681f952266d6ee1da50eaccea80b7c132ebe302d12f8cc5f95a2cd073a5b8821256ed435d94c,
    0x690a7b61bc0bb1cb8640d0382b2563dba8c161a32aabd1eafd48cfef6c761341d5358bd1cdfd8d917dbedf27bc911e6efc5c02de0e0531b380d7666cb558fc45,
    0x22d5e627a935b5310b1e6c7813b13dc75d916499aeaa12d01702e4471b7463fbf9a919daebf96942ed9eba8e6fa22b2713506944c46f990de83c36afb9ff5175,
    0x93be0ca23548e1fb408382a75f7c806473a12541de3c7e1711d75ae38d9dccdf274d8c341b78826f6ce44f959924f24cb461603d79f29e237f287f9f7b75d299,
    0x398bbfc906f51a3e8f54159cfe3da49e5cb3b9593c70747ab2d24f455734010a0f38a1bdc9cc143909423a4d6097fe34188c524332189e9422e4b8ccd9a96f81,
    0xf5570dc64979067d35f7a92b76fe5a6b46bfb79f23eea952dd153d5930667d6386b3dcdad2553da63ccf6afb778e6a1a757d03e66e19196f8c75ef0095db5e1a,
    0x5edbf2bf8ada744433e28fee7af806cf384587d36449912c2f123571538ac145f77d1d030ab0048780e1cecc54d29d7260d912f1ef77547372fe3b7751d1549,
    0x1b15130f0c0500000000000000000000000000000000000000000000000000000000eb88552f140ad212fee943] : List Nat).flatMap (toBytes 64)).take 3309

theorem test_dsaVerify : dsaVerify dsaKey [1, 2, 3, 4] dsaSig = true := by decide +kernel

/-- A certificate and firmware that the signature is good for. -/
def flashA : Flash :=
  { cert := [1, 2, 3, 4], certSig := dsaSig, firmware := [1, 2, 3, 4], fwSig := dsaSig, fwKeys := [dsaKey], fwAt := 0x20000, sealBase := 0x80000,
    sealLim := 0x100, devno := 7, cores := List.range 256 }

/-- It verifies against its root key. -/
theorem wit_ResetsAndTrust_verified : State.certOk { sP with rootKey := dsaKey } flashA = true ∧ flashA.fwOk = true :=
  ⟨test_dsaVerify, List.any_eq_true.mpr ⟨dsaKey, List.mem_singleton.mpr rfl, test_dsaVerify⟩⟩

/-- Verified flash, and none; slots at both ends of what MEXT extends; a core stopped and one out until reset. -/
theorem wit_ResetsAndTrust :
    (let s : State := { sP with flash := some flashA, rootKey := dsaKey, coreOff := [3, 4], coreDead := [4] }
     (someIs s.flash (fun f => f.fwAt == 0x20000) && someIs s.stagedFlash (fun f => f.fwAt == 0x20000) && sP.flash.isNone && s.engines.isEmpty && s.saved.isEmpty &&
      s.allCls.all (fun c => c.mem.isEmpty) && !s.coreDead.contains 3 && s.coreDead.contains 4) = true) ∧
    (4 ≤ 4 ∧ 15 < 16 ∧ 0x1000 % 64 = 0 ∧ 0x1000 + 64 ≤ Config.memLimit) ∧ ({ sP with words := [(⟨.dev, 0x280, 0⟩, 3)] } : State).confidential = true := by decide +kernel

theorem wit_ErrorsAndHeat :
    (let e : MemErr := { site := .sector 0x1013, corrected := false, syndrome := 5, unit_ := 0x70, die := 0, stack := 1, chan := 2, bank := 3, tier := false, consumer := none }
     (e.site == .sector 0x1013 && decide (0x50 < e.unit_.toNat) && (sP.l2find 0x1013).isNone && sP.phase == .running && !sP.hot && ({ sP with phase := .tripped } : State).launches.isEmpty &&
      !({ sP with phase := .tripped, launches := [{ no := 3, vmid := 1, asid := 1, shape := 0 }] } : State).launches.isEmpty) = true) ∧
    (1680 < 1681 ∧ 1840 ≤ 1840 ∧ ¬ (1840 ≤ 1839) ∧ ¬ (1680 < 1680)) := by decide +kernel

end Sys2Proof.Tests
end

section
/-!
Chapter 2 (execution): class-wide instructions in a divided class (R35), and the bracket and the window (R36, R49).
-/

namespace Sys2Proof.Proofs.Execution

open Sys2Proof Sys2Proof.Machine

/-! ### Class-wide instructions in a divided class -/

/-- What holds of one class-wide instruction holds of all: an admitted one that reaches `classWide` in a divided class raises
ILLSTATE with the depth and the active mask in its record, whatever its body does. -/
theorem classWide_raises_illstate {s : State} {i : Instr} {body : State → State} (hs : s.issuing = true)
    (hw : s.wholeClass = false) (hk : s.cls.kind ≠ .handler) (hl : s.legal i = true)
    (he : exec i s = .next (guarded i (classWide body) s)) :
    ∃ t, exec i s = .next t ∧ Raises s t { cause := .illstate } ∧
      (s.eventOf { cause := .illstate }).depth = s.depth ∧ (s.eventOf { cause := .illstate }).mask = s.act := by
  have hraise : Raises s (classWide body s) { cause := .illstate } := by
    rw [classWide_part hw]
    exact raise_raises _ (State.issuing_split hs) hk
  rw [he]
  exact next_of_legal hl ⟨hraise, rfl, rfl⟩

/-- Settles O14: each class-wide instruction is `guarded` over `classWide` (the sequencer's through `atSeq`, the copies' through
`copyIssue`, the content store's through `onStore`), so the one lemma above serves them all. -/
theorem classWideElsewhere : Obligations.ClassWideElsewhere := by
  intro s i hs hw hk hl hi
  cases i with
  | vote | shfl | redi | redf
  | obRes | obRel | obSt | obLd | obStat
  | matZero | matLoop | matDrain | matStat
  | cpyGs | cpySg | cpyGob | cpyGb | cpySob | cpyCas | cpyCag | cpySca | cpyGg
  | caLoa | caNode | caRef | caRel | caGet | caSwap | caStat => exact classWide_raises_illstate hs hw hk hl rfl
  | _ => exact hi.elim

/-! ### Answers that raise, and completion after an update of the issuing class -/

/-- An answer that is a `raise` of the issuing group raises; nothing else happens. -/
theorem next_raise {s : State} {out : Out} {r : Raise} (hs : s.issuing = true) (hk : s.cls.kind ≠ .handler)
    (he : out = .next (raise r s)) : ∃ t, out = .next t ∧ Raises s t r :=
  ⟨raise r s, he, raise_raises r (State.issuing_split hs) hk⟩

/-- An update of the issuing class before the group completes keeps what lies outside the class. -/
theorem OutsideKept.of_class_update {s u t : State} (hu : { u with cls := s.cls } = s) (h : OutsideKept u t) :
    OutsideKept s t := by
  have hrest := congrArg (fun x : State => { x with cls := s.cls }) h.rest
  have hmem := congrArg State.mem hu
  exact ⟨hrest.trans hu, fun a => (h.bytes a).trans (congrArg (fun m : Memory => m.get a) hmem)⟩

/-- Whether a state issues depends on its latch, the size of the split table and what single-stepping looks at; not on the
bracket, the window or a mask. -/
theorem issuing_congr {s u : State} (hi : u.iss = s.iss) (hn : u.cls.splits.length = s.cls.splits.length)
    (hl : u.cls.level = s.cls.level) (hv : u.cls.vmid = s.cls.vmid) (ha : u.cls.asid = s.cls.asid)
    (hw : u.words = s.words) (hs : s.issuing = true) : u.issuing = true := by
  have hlen : u.iss.split < u.cls.splits.length := by
    rw [hi, hn]; exact State.issuing_split hs
  have hstep : u.stepping = false := (State.stepping_congr hl hv ha hw).trans (State.issuing_step hs)
  simp [State.issuing, hlen, hstep]

/-! ### The bracket (R36) -/

/-- The bracket slot and the issuing split's active mask set, as ALLB and ALLE set them. -/
def withBracket (s : State) (b : Option Mask) (m : Mask) : State :=
  { s with cls := { s.cls with bracket := b } }.modCur (fun sp => { sp with mask := m })

theorem withBracket_cur {s : State} (hs : s.issuing = true) (b : Option Mask) (m : Mask) :
    (withBracket s b m).cur = { s.cur with mask := m } :=
  Cls.split_modSplit_self { s.cls with bracket := b } s.iss.split _ (State.issuing_split hs)

theorem withBracket_split_other (s : State) (b : Option Mask) (m : Mask) {j : Nat} (hj : j ≠ s.iss.split) :
    (withBracket s b m).cls.split j = s.cls.split j :=
  Cls.split_modSplit_other { s.cls with bracket := b } s.iss.split j _ hj

theorem withBracket_issuing {s : State} (hs : s.issuing = true) (b : Option Mask) (m : Mask) :
    (withBracket s b m).issuing = true :=
  issuing_congr (s := s) rfl (List.length_set ..) rfl rfl rfl rfl hs

/-- The group completed with bracket slot `b` and active mask `m`, and changed nothing else. -/
def SetsBracket (s t : State) (b : Option Mask) (m : Mask) : Prop :=
  t.cls.bracket = b ∧ t.act = m ∧ t.cur.pc = s.next ∧ t.cur.levels = s.cur.levels ∧
    (∀ j, j ≠ s.iss.split → t.cls.split j = s.cls.split j) ∧
    { t.cls with splits := s.cls.splits, bracket := s.cls.bracket } = s.cls ∧ OutsideKept s t

theorem retire_withBracket {s : State} (hs : s.issuing = true) (b : Option Mask) (m : Mask) :
    SetsBracket s (retire (withBracket s b m)) b m := by
  obtain ⟨hon, hcls, hout⟩ := retire_writesNothing (withBracket_issuing hs b m)
  have hcur := hon.cur.trans (withBracket_cur hs b m)
  have hmask := congrArg Split.mask hcur
  have hlevels := congrArg Split.levels hcur
  refine ⟨congrArg Cls.bracket hcls, hmask, hon.pc, hlevels, fun j hj => ?_, ?_,
    OutsideKept.of_class_update (u := withBracket s b m) rfl hout⟩
  · exact (hon.splits j hj).trans (withBracket_split_other s b m hj)
  · exact congrArg (fun c : Cls => { c with splits := s.cls.splits, bracket := s.cls.bracket }) hcls

theorem execAllb_outside {s : State} (hd : s.depth = 0) (hb : s.cls.bracket = none) :
    execAllb s = .next (retire (withBracket s (some s.act) s.cls.liveM)) := by
  unfold execAllb
  rw [if_neg (by simp [hd, hb])]
  rfl

theorem execAllb_illstate {s : State} (h : s.depth ≠ 0 ∨ s.cls.bracket ≠ none) :
    execAllb s = .next (raise { cause := .illstate } s) := by
  unfold execAllb
  rw [if_pos (h.imp_right Option.isSome_iff_ne_none.mpr)]

theorem execAlle_inside {s : State} {m : Mask} (hd : s.depth = 0) (hb : s.cls.bracket = some m) :
    execAlle s = .next (retire (withBracket s none m)) := by
  unfold execAlle
  rw [hb]
  exact if_neg (not_not_intro hd)

theorem execAlle_illstate {s : State} (h : s.depth ≠ 0 ∨ s.cls.bracket = none) :
    execAlle s = .next (raise { cause := .illstate } s) := by
  unfold execAlle
  cases hb : s.cls.bracket with
  | none => rfl
  | some m => exact if_pos (h.resolve_right (by simp [hb]))

theorem execEndClass_inside {s : State} (h : s.cls.bracket ≠ none) :
    execEndClass s = .next (raise { cause := .illstate } s) := by
  unfold execEndClass
  rw [if_pos (Option.isSome_iff_ne_none.mpr h)]

/-! ### The window (R49) -/

/-- The window base set, as WBASE sets it. -/
def withWindow (s : State) (n : Nat) : State := { s with cls := { s.cls with wb := n } }

/-- The group completed with its class's window at `n`, and changed nothing else. -/
theorem retire_withWindow {s : State} (hs : s.issuing = true) (n : Nat) :
    GoesOn s (retire (withWindow s n)) s.next ∧ (retire (withWindow s n)).cls.wb = n ∧
      { (retire (withWindow s n)).cls with splits := s.cls.splits, wb := s.cls.wb } = s.cls ∧
      OutsideKept s (retire (withWindow s n)) := by
  obtain ⟨hon, hcls, hout⟩ := retire_writesNothing (issuing_congr (u := withWindow s n) rfl rfl rfl rfl rfl rfl hs)
  refine ⟨⟨hon.pc, hon.age, hon.cur, hon.splits, hon.issue⟩, congrArg Cls.wb hcls, ?_,
    OutsideKept.of_class_update (u := withWindow s n) rfl hout⟩
  exact congrArg (fun c : Cls => { c with splits := s.cls.splits, wb := s.cls.wb }) hcls

theorem execWbase_inRange {s : State} {n : BitVec 9} (hd : s.depth = 0) (hn : n.toNat % 16 = 0)
    (hr : n.toNat ≤ s.cls.nregs - 128) : execWbase n s = .next (retire (withWindow s n.toNat)) := by
  unfold execWbase
  rw [if_neg (by omega), if_neg (not_not_intro hd)]
  rfl

theorem execWbase_illop {s : State} {n : BitVec 9} (h : n.toNat % 16 ≠ 0 ∨ s.cls.nregs - 128 < n.toNat) :
    execWbase n s = .next (raise { cause := .illop } s) := by
  unfold execWbase
  rw [if_pos h]

theorem execWbase_illstate {s : State} {n : BitVec 9} (hn : n.toNat % 16 = 0) (hr : n.toNat ≤ s.cls.nregs - 128)
    (hd : s.depth ≠ 0) : execWbase n s = .next (raise { cause := .illstate } s) := by
  unfold execWbase
  rw [if_neg (by omega), if_pos hd]

/-- Settles O19: each case of ALLB, ALLE, END and WBASE answers a completion or a `raise`, and those are described once. -/
theorem bracketRules : Obligations.BracketRules := by
  intro s hs
  refine ⟨fun hd hb => ?_, fun m hd hb => ?_, fun n hd hn hr => ?_, fun hk => ⟨?_, ?_, ?_, ?_, ?_⟩⟩
  · exact ⟨_, execAllb_outside hd hb, retire_withBracket hs (some s.act) s.cls.liveM⟩
  · exact ⟨_, execAlle_inside hd hb, retire_withBracket hs none m⟩
  · exact ⟨_, execWbase_inRange hd hn hr, retire_withWindow hs n.toNat⟩
  · exact fun h => next_raise hs hk (execAllb_illstate h)
  · exact fun h => next_raise hs hk (execAlle_illstate h)
  · exact fun h => next_raise hs hk (execEndClass_inside h)
  · exact fun n h => next_raise hs hk (execWbase_illop h)
  · exact fun n hn hr hd => next_raise hs hk (execWbase_illstate hn hr hd)

end Sys2Proof.Proofs.Execution
end

section
/-!
Chapter 10 (control): the results of scalar arithmetic (R223 to R228).
-/

namespace Sys2Proof.Proofs.Control

open Sys2Proof Sys2Proof.Machine Sys2Proof.Proofs.Execution

/-! ### Immediates -/

/-- The 64-bit immediate is its signed number (R185). -/
theorem imm64_eq_ofInt (x : Imx) (imm : BitVec 11) : imm64 x imm = BitVec.ofInt 64 (immInt x imm) := by
  cases x with
  | none => rfl
  | some h => rfl

theorem add_imm64 (a : DWord) (x : Imx) (imm : BitVec 11) :
    a + imm64 x imm = BitVec.ofInt 64 (a.toInt + immInt x imm) := by
  rw [imm64_eq_ofInt, BitVec.ofInt_add, BitVec.ofInt_toInt]

/-- SLUI's value: the immediate's signed number, 14 bits up (R227). -/
theorem signExtend_shiftLeft (imm : BitVec 18) :
    imm.signExtend 64 <<< 14 = BitVec.ofInt 64 (imm.toInt * 2 ^ 14) := by
  rw [BitVec.signExtend, BitVec.shiftLeft_eq_mul_twoPow, BitVec.ofInt_mul]
  rfl

/-! ### Scalar instructions -/

/-- An admitted scalar instruction completes and writes `rd` and its flags, whatever its value function `r` computes. -/
theorem scalar_completes {s : State} (hs : s.issuing = true) {i : Instr} (hl : s.legal i = true) (rd : Reg)
    (r : State → Fl DWord) {x : DWord} {fl : Word} (hx : (r s).val = x) (hfl : (r s).flags = fl) :
    ∃ t, (Host.Outcome.next (guarded i (fun s => scalarOp rd (r s) s) s) : Out) = .next t ∧
      WritesScalar s t s.next rd x fl :=
  next_of_legal hl ((scalarOp_writesScalar hs rd (r s)).of_eq hx hfl)

/-- SMOVV of a lane at or above L fails decode step 6 (R193, R228). -/
theorem smovv_operandsOk_false {s : State} {lane : BitVec 10} (h : s.cls.lanes ≤ lane.toNat) (rd ra : Reg) :
    operandsOk (.smovv rd ra lane) s = false := by
  have hv : valuesOk (.smovv rd ra lane) s = false := decide_eq_false (Nat.not_lt.mpr h)
  rw [operandsOk, hv, Bool.and_false]

/-- Settles O9: every instruction of the family is one `scalarOp`, so the one completion lemma serves them all, each with
its value's and its flags' specification; SMOVV beyond the lanes is refused at decode. -/
theorem scalarResults : Obligations.ScalarResults := by
  refine ⟨fun s hs => ⟨?salu, ?scmp, ?saddi, ?sandi, ?sori, ?sshi, ?slui⟩, fun s rd ra lane hs => ⟨?smovv, ?beyond⟩⟩
  case salu => exact fun fn rd _ _ hl => scalar_completes hs hl rd _ (alu_val fn _ _) (alu_flags fn _ _)
  case scmp =>
    exact fun fn rd _ _ hl =>
      scalar_completes hs hl rd _ (congrArg (fun b : Bool => if b then (1 : DWord) else 0) (cmp_spec fn _ _)) rfl
  case saddi => exact fun x rd _ imm hl => scalar_completes hs hl rd _ (add_imm64 _ x imm) rfl
  case sandi =>
    exact fun x rd ra imm hl => scalar_completes hs hl rd _ (congrArg (s.getS ra &&& ·) (imm64_eq_ofInt x imm)) rfl
  case sori =>
    exact fun x rd ra imm hl => scalar_completes hs hl rd _ (congrArg (s.getS ra ||| ·) (imm64_eq_ofInt x imm)) rfl
  case sshi => exact fun kind rd _ n hl => scalar_completes hs hl rd _ (shiftK_spec kind _ n.toNat) rfl
  case slui => exact fun rd imm hl => scalar_completes hs hl rd _ (signExtend_shiftLeft imm) rfl
  case smovv => exact fun hl _ => scalar_completes hs hl rd _ (BitVec.ofNat_toNat 64 (s.getV ra lane.toNat)).symm rfl
  case beyond =>
    exact fun hlane hk =>
      next_raise hs hk (congrArg Host.Outcome.next (guarded_unallocated (smovv_operandsOk_false hlane rd ra) _))

end Sys2Proof.Proofs.Control
end

section
/-!
Chapter 16 (privilege): RIGHTS (R332, R333, R348, R349), the routing tables (R338), and the handler words of level 1 (R335, R341).
-/

namespace Sys2Proof.Proofs.Privilege

open Sys2Proof Sys2Proof.Machine Sys2Proof.Proofs.Execution

/-! ### A completed group that also wrote control words -/

theorem word_congr {s t : State} (h : t.words = s.words) (b : Bank) (ix sub : Nat) : t.word b ix sub = s.word b ix sub := by
  unfold State.word
  rw [h]

theorem routeEntry_congr {s t : State} (h : t.words = s.words) (v c : Nat) : t.routeEntry v c = s.routeEntry v c := by
  unfold State.routeEntry
  rw [word_congr h, word_congr h]

theorem assoc_words_setWord (s : State) (b : Bank) (ix : Nat) (x : DWord) (sub : Nat) {k : WKey} (hk : k ≠ ⟨b, ix, sub⟩) :
    assoc (s.setWord b ix x sub).words k = assoc s.words k :=
  (assoc_assocSet s.words ⟨b, ix, sub⟩ k x).trans (if_neg hk)

/-- Single-stepping does not reach level 0 (R454). -/
theorem stepping_level0 {s : State} (h : s.cls.level = 0) : s.stepping = false := by
  simp [State.stepping, h]

/-- A write of a word that is neither MODE nor STEP leaves single-stepping as it was (R454). -/
theorem setWord_stepping (s : State) (b : Bank) {ix : Nat} (x : DWord) (sub : Nat) (hm : ix ≠ 0x280) (hp : ix ≠ 0x2A8) :
    (s.setWord b ix x sub).stepping = s.stepping := by
  simp [State.stepping, State.confidential, word_setWord, hm.symm, hp.symm]

/-- Nothing but control words has changed. -/
def WordsOnly (s u : State) : Prop := u = { s with words := u.words }

theorem WordsOnly.cls {s u : State} (h : WordsOnly s u) : u.cls = s.cls := by rw [h]

theorem WordsOnly.iss {s u : State} (h : WordsOnly s u) : u.iss = s.iss := by rw [h]

theorem WordsOnly.mem {s u : State} (h : WordsOnly s u) : u.mem = s.mem := by rw [h]

theorem setWord_wordsOnly (s : State) (b : Bank) (ix : Nat) (x : DWord) (sub : Nat) : WordsOnly s (s.setWord b ix x sub) := rfl

theorem outsideKept_words {s t : State} (h : OutsideKept s t) : t.words = s.words := by
  have hwords := congrArg State.words h.rest
  exact hwords

/-- A change of control words that leaves single-stepping off lets the group go on. -/
theorem issuing_of_wordsOnly {s u : State} (hu : WordsOnly s u) (hst : u.stepping = false) (hs : s.issuing = true) :
    u.issuing = true := by
  have hlen : u.iss.split < u.cls.splits.length := by
    rw [hu.iss, hu.cls]
    exact State.issuing_split hs
  simp [State.issuing, hlen, hst]

/-- The group completed, wrote `x` to scalar register `rd`, and left the control words `ws`; every other scalar register and every
byte of memory is as before. -/
structure WritesWords (s t : State) (rd : Reg) (x : DWord) (ws : List (WKey × DWord)) : Prop where
  pc     : t.cur.pc = s.next
  value  : t.getS rd = if rd = 0 then 0 else x
  others : ∀ r, r ≠ rd → t.getS r = s.getS r
  words  : t.words = ws
  bytes  : ∀ a, t.mem.get a = s.mem.get a

/-- After an update of the control words alone, the group completes with its scalar result. -/
theorem retire_setS_writesWords {s u : State} (hu : WordsOnly s u) (hst : u.stepping = false)
    (hs : s.issuing = true) (rd : Reg) (x : DWord) : WritesWords s (retire (u.setS rd x)) rd x u.words := by
  have hw := setS_retire_writesScalar (issuing_of_wordsOnly hu hst hs) rd x
  refine ⟨?_, hw.value, fun r hr => ?_, outsideKept_words hw.outside, fun a => ?_⟩
  · rw [hw.on.pc, State.next, hu.iss, State.next]
  · rw [hw.others r hr, State.getS, hu.cls, State.getS]
  · rw [hw.outside.bytes a, hu.mem]

/-! ### GRANT and REVOKE -/

theorem changeRights_wordsOnly (grant : Bool) (v : Nat) (b : DWord) (s : State) :
    WordsOnly s (changeRights grant v none b s) := by
  cases grant with
  | true => rfl
  | false => rfl

/-- What REVOKE makes of a stored word: the bits go from the rights of every tenant of the partition (R332). -/
def tenantRevoked (v : Nat) (b : DWord) (k : WKey) (x : DWord) : DWord :=
  match k.bank with
  | .tenant u _ => if u = v ∧ k.ix = 0x001 then x &&& ~~~b else x
  | .dev | .core _ | .level0 | .part _ => x

theorem tenantRevoked_tenant (v a sub : Nat) (b x : DWord) : tenantRevoked v b ⟨.tenant v a, 0x001, sub⟩ x = x &&& ~~~b :=
  if_pos ⟨rfl, rfl⟩

/-- A word that is no rights word of the partition's tenants stays. -/
theorem tenantRevoked_other {v : Nat} {k : WKey} (hk : ∀ a sub, k ≠ ⟨.tenant v a, 0x001, sub⟩) (b x : DWord) :
    tenantRevoked v b k x = x := by
  obtain ⟨bank, ix, sub⟩ := k
  cases bank with
  | tenant u a =>
    refine if_neg ?_
    rintro ⟨rfl, rfl⟩
    exact hk a sub rfl
  | dev | core | level0 | part => rfl

/-- Reading a table whose values have been changed key by key. -/
theorem assoc_map_value {α β : Type} [DecidableEq α] (f : α → β → β) (l : List (α × β)) (k : α) :
    assoc (l.map (fun p => (p.1, f p.1 p.2))) k = (assoc l k).map (f k) := by
  induction l with
  | nil => rfl
  | cons p l ih =>
    unfold assoc at ih ⊢
    by_cases h : p.1 = k
    · simp [h]
    · simpa [h] using ih

theorem changeRights_grant (v : Nat) (b : DWord) (s : State) :
    changeRights true v none b s = s.setWord (.part v) 0x001 (s.word (.part v) 0x001 ||| b) := rfl

theorem changeRights_revoke_words (v : Nat) (b : DWord) (s : State) :
    (changeRights false v none b s).words =
      (s.setWord (.part v) 0x001 (s.word (.part v) 0x001 &&& ~~~b)).words.map (fun w => (w.1, tenantRevoked v b w.1 w.2)) := by
  refine List.map_congr_left fun w _ => ?_
  obtain ⟨⟨bank, ix, sub⟩, x⟩ := w
  cases bank with
  | tenant u a => exact (apply_ite (Prod.mk (⟨.tenant u a, ix, sub⟩ : WKey)) (u = v ∧ ix = 0x001) (x &&& ~~~b) x).symm
  | dev | core | level0 | part => rfl

theorem assoc_changeRights_revoke (v : Nat) (b : DWord) (s : State) (k : WKey) :
    assoc (changeRights false v none b s).words k =
      (assoc (s.setWord (.part v) 0x001 (s.word (.part v) 0x001 &&& ~~~b)).words k).map (tenantRevoked v b k) := by
  rw [changeRights_revoke_words, assoc_map_value]

theorem word_changeRights_revoke_part (v : Nat) (b : DWord) (s : State) :
    (changeRights false v none b s).word (.part v) 0x001 = s.word (.part v) 0x001 &&& ~~~b := by
  have h : assoc (s.setWord (.part v) 0x001 (s.word (.part v) 0x001 &&& ~~~b)).words ⟨.part v, 0x001, 0⟩ =
      some (s.word (.part v) 0x001 &&& ~~~b) := (assoc_assocSet ..).trans (if_pos rfl)
  rw [State.word, assoc_changeRights_revoke, h]
  rfl

/-- A tenant's rights lose the bits, stored or not: an unwritten rights word reads as none. -/
theorem word_changeRights_revoke_tenant (v a : Nat) (b : DWord) (s : State) :
    (changeRights false v none b s).word (.tenant v a) 0x001 = s.word (.tenant v a) 0x001 &&& ~~~b := by
  rw [State.word, assoc_changeRights_revoke, assoc_words_setWord s _ _ _ _ (by simp), State.word]
  cases assoc s.words ⟨.tenant v a, 0x001, 0⟩ with
  | none => exact BitVec.zero_and.symm
  | some x => exact tenantRevoked_tenant v a 0 b x

theorem assoc_changeRights_revoke_other (v : Nat) (b : DWord) (s : State) {k : WKey} (hp : k ≠ ⟨.part v, 0x001, 0⟩)
    (ht : ∀ a sub, k ≠ ⟨.tenant v a, 0x001, sub⟩) :
    assoc (changeRights false v none b s).words k = assoc s.words k := by
  have hid : tenantRevoked v b k = id := funext (tenantRevoked_other ht b)
  rw [assoc_changeRights_revoke, assoc_words_setWord s _ _ _ _ hp, hid, Option.map_id_fun, id]

/-! ### The operands of RIGHTS -/

theorem toNat_operand {x : DWord} {n : Nat} (hx : x = BitVec.ofNat 64 n) (hn : n < 2 ^ 64) : x.toNat = n := by
  rw [hx, BitVec.toNat_ofNat, Nat.mod_eq_of_lt hn]

/-- The fields of a RIGHTS operand that names partition `v`, and cause `c`. -/
theorem bits_operand {v c : Nat} (hv : v < 64) (hc : c < 256) :
    bits (v * 2 ^ 16 + c) 63 22 = 0 ∧ bits (v * 2 ^ 16 + c) 21 16 = v ∧ bits (v * 2 ^ 16 + c) 15 8 = 0 ∧
      bits (v * 2 ^ 16 + c) 7 0 = c := by
  simp only [bits, Nat.shiftRight_eq_div_pow]
  omega

theorem rightsTarget_partition {s : State} {a : DWord} {v : Nat} (h0 : s.cls.level = 0) (hv : v < 64)
    (hp : s.hasPartition v = true) (ha : a = BitVec.ofNat 64 (v * 2 ^ 16)) : s.rightsTarget a = some (v, none) := by
  have hn : a.toNat = v * 2 ^ 16 := toNat_operand ha (by omega)
  have hkind : bits (v * 2 ^ 16) 63 62 = 0 := by simp only [bits, Nat.shiftRight_eq_div_pow]; omega
  have hzero : bits (v * 2 ^ 16) 61 22 = 0 := by simp only [bits, Nat.shiftRight_eq_div_pow]; omega
  have hpart : bits (v * 2 ^ 16) 21 16 = v := by simp only [bits, Nat.shiftRight_eq_div_pow]; omega
  have hasid : bits (v * 2 ^ 16) 15 0 = 0 := by simp only [bits, Nat.shiftRight_eq_div_pow]; omega
  simp only [State.rightsTarget, hn, h0, hkind, hzero, hpart, hasid, hp, if_true]
  rfl

/-- GRANT and REVOKE at level 0 for a partition act, and the status is DONE. -/
theorem rightsOp_level0 {s : State} {ra rb : Reg} {v : Nat} (h0 : s.cls.level = 0) (hv : v < 64)
    (hp : s.hasPartition v = true) (ha : s.getS ra = BitVec.ofNat 64 (v * 2 ^ 16)) (hb : (s.getS rb).toNat < 1024)
    (grant : Bool) (rd : Reg) :
    rightsOp grant rd ra rb s = retire ((changeRights grant v none (s.getS rb) s).setS rd statusDone) := by
  have hhigh : bits (s.getS rb).toNat 63 10 = 0 := by simp only [bits, Nat.shiftRight_eq_div_pow]; omega
  simp [rightsOp, h0, rightsTarget_partition h0 hv hp ha, hhigh]

/-- What GRANT and REVOKE leave: DONE in `rd`, and the words of `changeRights`. -/
theorem rightsOp_writesWords {s : State} (hs : s.issuing = true) {ra rb : Reg} {v : Nat} (h0 : s.cls.level = 0) (hv : v < 64)
    (hp : s.hasPartition v = true) (ha : s.getS ra = BitVec.ofNat 64 (v * 2 ^ 16)) (hb : (s.getS rb).toNat < 1024)
    (grant : Bool) (rd : Reg) :
    WritesWords s (rightsOp grant rd ra rb s) rd 0 (changeRights grant v none (s.getS rb) s).words := by
  have hu := changeRights_wordsOnly grant v (s.getS rb) s
  rw [rightsOp_level0 h0 hv hp ha hb]
  exact retire_setS_writesWords hu (stepping_level0 (hu.cls ▸ h0)) hs rd statusDone

theorem WritesWords.value_zero {s t : State} {rd : Reg} {ws : List (WKey × DWord)} (h : WritesWords s t rd 0 ws) :
    t.getS rd = 0 := by
  rw [h.value, ite_self]

/-- The lowest bit outside is the first that a search from bit 0 meets. -/
theorem firstOutside_eq {b p : DWord} {n : Nat} (hn : n < 64) (hb : b.getLsbD n = true) (hp : p.getLsbD n = false)
    (hlow : ∀ j, j < n → b.getLsbD j = true → p.getLsbD j = true) : firstOutside b p = n := by
  have hfind : (List.range 64).find? (fun i => b.getLsbD i && !p.getLsbD i) = some n := by
    rw [List.find?_range_eq_some]
    refine ⟨by simp [hb, hp], List.mem_range.mpr hn, fun j hj => ?_⟩
    cases hbj : b.getLsbD j with
    | false => rfl
    | true => simp [hlow j hj hbj]
  rw [firstOutside, hfind, Option.getD_some]

theorem and_not_ne_zero {b p : DWord} {n : Nat} (hn : n < 64) (hb : b.getLsbD n = true) (hp : p.getLsbD n = false) :
    b &&& ~~~p ≠ 0 := by
  intro h
  have hbit := congrArg (fun x : DWord => x.getLsbD n) h
  rw [BitVec.getLsbD_and, BitVec.getLsbD_not, hb, hp] at hbit
  simp [hn] at hbit

/-- At level 1 a GRANT of a right that the partition lacks is refused before its operands are looked at (R349). -/
theorem rightsOp_lacking {s : State} {ra rb : Reg} {n : Nat} (h1 : s.cls.level = 1)
    (hkind : bits (s.getS ra).toNat 63 62 ≠ 0) (hn : n < 64) (hb : (s.getS rb).getLsbD n = true)
    (hp : (s.rights 1 s.cls.vmid s.cls.asid).getLsbD n = false)
    (hlow : ∀ j, j < n → (s.getS rb).getLsbD j = true → (s.rights 1 s.cls.vmid s.cls.asid).getLsbD j = true) (rd : Reg) :
    rightsOp true rd ra rb s = raise { cause := .right, aux := n } s := by
  have hlack := and_not_ne_zero hn hb hp
  have hpriv : ¬ (2 ≤ s.cls.level ∨ (s.cls.level = 1 ∧ bits (s.getS ra).toNat 63 62 = 0)) := by omega
  simp only [rightsOp, if_neg hpriv]
  rw [h1, if_pos ⟨trivial, rfl, hlack⟩, firstOutside_eq hn hb hp hlow]

/-! ### Routing tables -/

/-- A four-bit field written: the field is new, what stands above and below it is not. -/
theorem setBits_nibble (x l e : Nat) :
    setBits x (l + 3) l e = (x / 2 ^ l / 16 * 16 + e % 16) * 2 ^ l + x % 2 ^ l := by
  have hx : 2 ^ l * (x / 2 ^ l) + x % 2 ^ l = x := Nat.div_add_mod x (2 ^ l)
  have hq : 16 * (x / 2 ^ l / 16) + x / 2 ^ l % 16 = x / 2 ^ l := Nat.div_add_mod _ 16
  have hw : l + 3 + 1 - l = 4 := by omega
  rw [setBits, bits, hw, Nat.shiftRight_eq_div_pow]
  generalize x / 2 ^ l = q at *
  generalize x % 2 ^ l = r at *
  generalize 2 ^ l = p at *
  have hsum : p * q + r = q / 16 * 16 * p + q % 16 * p + r := by
    rw [← Nat.add_mul, Nat.mul_comm (q / 16), hq, Nat.mul_comm]
  have h16 : (2 : Nat) ^ 4 = 16 := rfl
  rw [← hx, hsum, h16, Nat.add_mul]
  omega

theorem setBits_div (x l e : Nat) : setBits x (l + 3) l e / 2 ^ l = x / 2 ^ l / 16 * 16 + e % 16 := by
  rw [setBits_nibble, Nat.mul_comm, Nat.mul_add_div (Nat.two_pow_pos l),
    Nat.div_eq_of_lt (Nat.mod_lt _ (Nat.two_pow_pos l)), Nat.add_zero]

theorem setBits_mod (x l e : Nat) : setBits x (l + 3) l e % 2 ^ l = x % 2 ^ l := by
  rw [setBits_nibble, Nat.mul_add_mod_self_right, Nat.mod_mod]

theorem setBits_div_above (x l e : Nat) : setBits x (l + 3) l e / 2 ^ (l + 4) = x / 2 ^ (l + 4) := by
  rw [Nat.pow_add, ← Nat.div_div_eq_div_mul, ← Nat.div_div_eq_div_mul, setBits_div]
  omega

theorem bits_nibble (x l : Nat) : bits x (l + 3) l = x / 2 ^ l % 16 := by
  rw [bits, Nat.shiftRight_eq_div_pow, show l + 3 + 1 - l = 4 by omega]
  rfl

theorem bits_setBits_same (x l e : Nat) : bits (setBits x (l + 3) l e) (l + 3) l = e % 16 := by
  rw [bits_nibble, setBits_div]
  omega

/-- Bits of a number at or above a place are those of the number cut there. -/
theorem bits_above {x y l m : Nat} (hm : l ≤ m) (h : x / 2 ^ l = y / 2 ^ l) : bits x (m + 3) m = bits y (m + 3) m := by
  obtain ⟨d, rfl⟩ := Nat.exists_eq_add_of_le hm
  rw [bits_nibble, bits_nibble, Nat.pow_add, ← Nat.div_div_eq_div_mul, ← Nat.div_div_eq_div_mul, h]

/-- Four bits below a place are those of the number's rest there. -/
theorem bits_below {x y l m : Nat} (hm : m + 4 ≤ l) (h : x % 2 ^ l = y % 2 ^ l) : bits x (m + 3) m = bits y (m + 3) m := by
  have hcut : ∀ z : Nat, z / 2 ^ m % 16 = z % 2 ^ l % 2 ^ (m + 4) / 2 ^ m := fun z => by
    rw [Nat.mod_mod_of_dvd z (Nat.pow_dvd_pow 2 hm), Nat.pow_add, Nat.mod_mul_right_div_self]
  rw [bits_nibble, bits_nibble, hcut x, hcut y, h]

theorem bits_setBits_other {x l m e : Nat} (hm : m + 4 ≤ l ∨ l + 4 ≤ m) :
    bits (setBits x (l + 3) l e) (m + 3) m = bits x (m + 3) m := by
  rcases hm with hm | hm
  · exact bits_below hm (setBits_mod x l e)
  · exact bits_above hm (setBits_div_above x l e)

theorem setBits_lt {x l e : Nat} (hl : l + 4 ≤ 64) (hx : x < 2 ^ 64) : setBits x (l + 3) l e < 2 ^ 64 := by
  have hpow : (2 : Nat) ^ 64 = 2 ^ (64 - (l + 4)) * 2 ^ (l + 4) := by rw [← Nat.pow_add, Nat.sub_add_cancel hl]
  rw [hpow, ← Nat.div_lt_iff_lt_mul (Nat.two_pow_pos _)] at hx ⊢
  rwa [setBits_div_above]

/-- The word of a routing table that holds a cause's entry (Table 16-4). -/
def routeWord (c : Nat) : Nat := if c < 16 then 0x020 else 0x021

theorem routeEntry_eq (s : State) (v : Nat) {c : Nat} (hc : c < 32) :
    s.routeEntry v c = bits (s.word (.part v) (routeWord c)).toNat (4 * (c % 16) + 3) (4 * (c % 16)) := by
  unfold State.routeEntry routeWord
  by_cases h : c < 16
  · rw [if_pos h, if_pos h, Nat.mod_eq_of_lt h]
  · rw [if_neg h, if_neg h, show c % 16 = c - 16 by omega]

theorem setRoute_eq (v c e : Nat) (s : State) :
    setRoute v c e s = s.setWord (.part v) (routeWord c)
      (BitVec.ofNat 64 (setBits (s.word (.part v) (routeWord c)).toNat (4 * (c % 16) + 3) (4 * (c % 16)) e)) := rfl

theorem setRoute_wordsOnly (v c e : Nat) (s : State) : WordsOnly s (setRoute v c e s) := setWord_wordsOnly s _ _ _ _

/-- The word that `setRoute` writes, as a number. -/
theorem word_setRoute (v c e : Nat) (s : State) :
    ((setRoute v c e s).word (.part v) (routeWord c)).toNat =
      setBits (s.word (.part v) (routeWord c)).toNat (4 * (c % 16) + 3) (4 * (c % 16)) e := by
  have hlt := setBits_lt (l := 4 * (c % 16)) (e := e) (by omega) (s.word (.part v) (routeWord c)).isLt
  rw [setRoute_eq, word_setWord, if_pos ⟨rfl, rfl, rfl⟩, BitVec.toNat_ofNat, Nat.mod_eq_of_lt hlt]

theorem routeEntry_setRoute_same (v e : Nat) (s : State) {c : Nat} (hc : c < 32) :
    (setRoute v c e s).routeEntry v c = e % 16 := by
  rw [routeEntry_eq _ _ hc, word_setRoute, bits_setBits_same]

theorem routeEntry_setRoute_cause (v e : Nat) (s : State) {c d : Nat} (hc : c < 32) (hd : d < 32) (hne : d ≠ c) :
    (setRoute v c e s).routeEntry v d = s.routeEntry v d := by
  rw [routeEntry_eq _ _ hd, routeEntry_eq _ _ hd]
  by_cases hw : routeWord d = routeWord c
  · have hfield : d % 16 ≠ c % 16 := by
      intro h
      unfold routeWord at hw
      split at hw <;> split at hw <;> omega
    rw [hw, word_setRoute, bits_setBits_other (by omega)]
  · rw [setRoute_eq, word_setWord, if_neg (fun h => hw h.2.1)]

theorem routeEntry_setRoute_partition {u v : Nat} (c e : Nat) (s : State) (d : Nat) (hne : u ≠ v) :
    (setRoute v c e s).routeEntry u d = s.routeEntry u d := by
  have hword : ∀ ix, (setRoute v c e s).word (.part u) ix = s.word (.part u) ix := fun ix => by
    rw [setRoute_eq, word_setWord, if_neg (fun h => hne (Bank.part.inj h.1))]
  unfold State.routeEntry
  rw [hword, hword]

/-! ### ROUTE -/

section Route

variable {s : State} {rd ra rb : Reg} {v c : Nat} (h0 : s.cls.level = 0) (hv : v < 64) (hp : s.hasPartition v = true)
  (ha : s.getS ra = BitVec.ofNat 64 (v * 2 ^ 16 + c)) (he : (s.getS rb).toNat < 8) (hr : (s.getS rb).toNat % 4 ≠ 3)

include h0 hv hp ha he hr

/-- ROUTE at level 0 of a cause that is not reserved: ECC and DIRTYFULL answer PINNED, any other its old entry (R348, R349). -/
theorem execRightsRoute_level0 (hl : s.legal (.rightsRoute rd ra rb) = true) (hdef : causeDefined c = true) :
    execRightsRoute rd ra rb s = .next (
      if c = 0x1B ∨ c = 0x1C then retire (s.setS rd (BitVec.ofNat 64 (2 ^ 63 + 2 * 2 ^ 32 + s.routeEntry v c)))
      else retire ((setRoute v c (s.getS rb).toNat s).setS rd (BitVec.ofNat 64 (s.routeEntry v c)))) := by
  have hc : c < 0x1F := by
    simp only [causeDefined, Bool.and_eq_true, decide_eq_true_eq] at hdef
    exact hdef.1.1.1
  have hn := toNat_operand ha (by omega)
  obtain ⟨hhigh, hpart, hmid, hcause⟩ := bits_operand (v := v) (c := c) hv (by omega)
  rw [execRightsRoute, guarded_legal hl]
  simp only [hn, h0, hhigh, hpart, hmid, hcause, hp, hdef, if_true]
  rw [if_neg (by omega), if_neg (by simp [he, hr])]
  simp only [ne_eq, not_true_eq_false, false_and, or_false]
  rfl

theorem execRightsRoute_pinned (hl : s.legal (.rightsRoute rd ra rb) = true) (hc : c ∈ [0x1B, 0x1C]) :
    execRightsRoute rd ra rb s =
      .next (retire (s.setS rd (BitVec.ofNat 64 (2 ^ 63 + 2 * 2 ^ 32 + s.routeEntry v c)))) := by
  have hc' : c = 0x1B ∨ c = 0x1C := by simpa using hc
  have hdef : causeDefined c = true := by rcases hc' with rfl | rfl <;> rfl
  rw [execRightsRoute_level0 h0 hv hp ha he hr hl hdef, if_pos hc']

theorem execRightsRoute_routes (hl : s.legal (.rightsRoute rd ra rb) = true) (hpos : 0 < c) (hlt : c < 0x1F)
    (hc : c ∉ [0x17, 0x1A, 0x1B, 0x1C]) :
    execRightsRoute rd ra rb s =
      .next (retire ((setRoute v c (s.getS rb).toNat s).setS rd (BitVec.ofNat 64 (s.routeEntry v c)))) := by
  simp only [List.mem_cons, List.not_mem_nil, or_false, not_or] at hc
  obtain ⟨h17, h1A, h1B, h1C⟩ := hc
  have hdef : causeDefined c = true := by simp [causeDefined, hlt, h17, h1A, hpos.ne']
  rw [execRightsRoute_level0 h0 hv hp ha he hr hl hdef, if_neg (not_or.mpr ⟨h1B, h1C⟩)]

end Route

/-! ### Where an event goes (R338) -/

theorem route_level0 (s : State) (vmid : Nat) (c : Cause) (stage2 : Bool) : s.route 0 vmid c stage2 = 0 := if_pos rfl

theorem route_fixed (s : State) (level vmid : Nat) {c : Cause} (stage2 : Bool) (hc : c = .ecc ∨ c = .dirtyfull) :
    s.route level vmid c stage2 = 0 := by
  unfold State.route
  rw [if_pos hc, ite_self]

theorem route_stage2 (s : State) (level vmid : Nat) {c : Cause} (hc : c = .xlate ∨ c = .prot) :
    s.route level vmid c true = 0 := by
  unfold State.route
  rw [if_pos (⟨rfl, hc⟩ : true = true ∧ (c = .xlate ∨ c = .prot)), ite_self, ite_self]

theorem route_table (s : State) {level : Nat} (vmid : Nat) {c : Cause} {stage2 : Bool} (hl : level ≠ 0)
    (hf : ¬ (c = .ecc ∨ c = .dirtyfull)) (h2 : ¬ (stage2 = true ∧ (c = .xlate ∨ c = .prot))) :
    s.route level vmid c stage2 = min (s.routeEntry vmid c.code % 4) level := by
  unfold State.route
  rw [if_neg hl, if_neg hf, if_neg h2]

/-! ### The handler words of level 1 -/

/-- HENTRY, HBUF, HRTAB and HLIMIT. -/
def handlerWords : List Nat := [0x011, 0x012, 0x013, 0x014]

theorem handlerWord_cases {ix : Nat} (hix : ix ∈ handlerWords) : ix = 0x011 ∨ ix = 0x012 ∨ ix = 0x013 ∨ ix = 0x014 := by
  simpa [handlerWords] using hix

/-- What the tables say of a handler word: level 1 reads and writes its partition's copy, and needs no right for it. -/
theorem handlerWord_facts {ix : Nat} (hix : ix ∈ handlerWords) :
    wordDefined ix = true ∧ wordLevel0 ix = false ∧ wordRO 1 ix = false ∧ wordBanked ix = true ∧ wordWO ix = false ∧
      ∀ write, wordRight ix write = none := by
  revert ix
  decide

theorem copyOf_handlerWord (s : State) {x : Accessor} {ix : Nat} (hx : x.level = 1) (hix : ix ∈ handlerWords) (write : Bool) :
    s.copyOf x false ix write = .ok (.part x.vmid) := by
  obtain ⟨hdef, h0, hro, -, -, -⟩ := handlerWord_facts hix
  simp [State.copyOf, hx, hdef, h0, hro]

theorem wordRefused_handlerWord (s : State) (x : Accessor) {ix : Nat} (hix : ix ∈ handlerWords) (write : Bool) :
    s.wordRefused x ix write = none := by
  obtain ⟨-, -, -, -, -, hright⟩ := handlerWord_facts hix
  simp [State.wordRefused, hright write]

theorem copyBank_handlerWord (x : Accessor) (v : Nat) {ix : Nat} (hix : ix ∈ handlerWords) :
    copyBank x (.part v) ix = .part v := by
  obtain ⟨-, -, -, hbanked, -, -⟩ := handlerWord_facts hix
  simp [copyBank, hbanked]

theorem subOf_handlerWord (s : State) (level v : Nat) {ix : Nat} (hix : ix ∈ handlerWords) :
    s.subOf level (.part v) ix = 0 := by
  rcases handlerWord_cases hix with rfl | rfl | rfl | rfl <;> rfl

theorem readWord_handlerWord (s : State) {x : Accessor} {ix : Nat} (hx : x.level = 1) (hix : ix ∈ handlerWords) :
    s.readWord x (.part x.vmid) ix = s.word (.part x.vmid) ix := by
  obtain ⟨-, -, -, -, hwo, -⟩ := handlerWord_facts hix
  simp only [State.readWord, hwo, copyBank_handlerWord x x.vmid hix, hx, subOf_handlerWord s 1 x.vmid hix]
  rcases handlerWord_cases hix with rfl | rfl | rfl | rfl <;> rfl

theorem readControl_handlerWord (s : State) {x : Accessor} {ix : Nat} (hx : x.level = 1) (hix : ix ∈ handlerWords) :
    readControl x false ix s = .ok (s.word (.part x.vmid) ix, s) := by
  have hafter : s.afterRead x ix = s := by
    rcases handlerWord_cases hix with rfl | rfl | rfl | rfl <;> rfl
  simp only [readControl, copyOf_handlerWord s hx hix, wordRefused_handlerWord s x hix, readWord_handlerWord s hx hix, hafter]

/-- CRD of a handler word at level 1 completes with the stored value. -/
theorem execCrd_handlerWord {s : State} {rd : Reg} {ix : BitVec 10} (h1 : s.cls.level = 1) (hix : ix.toNat ∈ handlerWords)
    (hl : s.legal (.crd rd false ix) = true) :
    execCrd rd false ix s = .next (retire (s.setS rd (s.word (.part s.cls.vmid) ix.toNat))) := by
  have hread := readControl_handlerWord s (x := s.accessor) h1 hix
  rw [execCrd, guarded_legal hl, if_neg (by omega), hread]
  rfl

theorem writePart_handlerWord (s : State) (x : Accessor) (v : Nat) {ix : Nat} (hix : ix ∈ handlerWords) (y : DWord) :
    writePart x v ix y s = .ok (s.setWord (.part v) ix (y &&& wordMask ix)) := by
  have hbank := copyBank_handlerWord x v hix
  have hsub := subOf_handlerWord s x.level v hix
  simp only [writePart, hbank, hsub]
  rcases handlerWord_cases hix with rfl | rfl | rfl | rfl <;> rfl

/-- A class that lives and issues completes its group. -/
theorem retireFor_live {s : State} (h : s.cls.status = .live) : retireFor s.cls.id s.iss s = retire s := by
  have hf : s.focus s.cls.id = s := if_pos rfl
  have hlive : s.cls.live = true := beq_iff_eq.mpr h
  simp only [retireFor, hf]
  exact if_pos ⟨trivial, hlive⟩

/-- CWR of a handler word at level 1 stores its defined bits and completes. -/
theorem execCwr_handlerWord {s : State} {ra : Reg} {ix : BitVec 10} (h1 : s.cls.level = 1) (hlive : s.cls.status = .live)
    (hix : ix.toNat ∈ handlerWords) (hl : s.legal (.cwr ra false ix) = true) :
    execCwr ra false ix s =
      .next (retire (s.setWord (.part s.cls.vmid) ix.toNat (s.getS ra &&& wordMask ix.toNat))) := by
  have hcopy := copyOf_handlerWord s (x := s.accessor) h1 hix true
  have hright := wordRefused_handlerWord s s.accessor hix true
  have hwrite : writeWord s.accessor (.part s.accessor.vmid) ix.toNat (s.getS ra) s =
      .ok (s.setWord (.part s.cls.vmid) ix.toNat (s.getS ra &&& wordMask ix.toNat)) :=
    writePart_handlerWord s s.accessor s.accessor.vmid hix (s.getS ra)
  have hwait : ¬ (ix = 0x304 ∨ ix = 0x041) := by
    rintro (rfl | rfl) <;> simp [handlerWords] at hix
  have hretire := retireFor_live (s := s.setWord (.part s.cls.vmid) ix.toNat (s.getS ra &&& wordMask ix.toNat)) hlive
  rw [execCwr, guarded_legal hl, if_neg (by omega), hcopy]
  simp only [hright]
  rw [if_neg (fun h => hwait h.1), hwrite]
  exact congrArg Host.Outcome.next ((if_pos rfl).trans hretire)

theorem wordMask_handlerWord {ix : BitVec 10} (hix : ix ∈ [(0x011 : BitVec 10), 0x012, 0x013, 0x014]) :
    wordMask ix.toNat = if ix = 0x012 then 0xFFFFFFFFFFFF0000 else 0xFFFFFFFFFFFFFFFF := by
  simp only [List.mem_cons, List.not_mem_nil, or_false] at hix
  rcases hix with rfl | rfl | rfl | rfl <;> rfl

theorem mem_handlerWords {ix : BitVec 10} (hix : ix ∈ [(0x011 : BitVec 10), 0x012, 0x013, 0x014]) :
    ix.toNat ∈ handlerWords :=
  List.mem_map_of_mem (f := BitVec.toNat) hix

/-- The group completed and wrote one control word: nothing else of the class, and nothing outside it, has changed. -/
theorem retire_setWord {s : State} (hs : s.issuing = true) (v : Nat) {ix : Nat} (hix : ix ∈ handlerWords) (x : DWord) :
    let t := retire (s.setWord (.part v) ix x)
    GoesOn s t s.next ∧ t.word (.part v) ix = x ∧
      (∀ k, k ≠ ⟨.part v, ix, 0⟩ → assoc t.words k = assoc s.words k) ∧
      { t.cls with splits := s.cls.splits } = s.cls ∧ { t with cls := s.cls, words := s.words } = s ∧
      ∀ a, t.mem.get a = s.mem.get a := by
  have hstep : (s.setWord (.part v) ix x).stepping = false := by
    rw [setWord_stepping _ _ _ _ (by rintro rfl; simp [handlerWords] at hix) (by rintro rfl; simp [handlerWords] at hix)]
    exact State.issuing_step hs
  obtain ⟨hon, hcls, hout⟩ := retire_writesNothing (issuing_of_wordsOnly (setWord_wordsOnly s _ _ _ _) hstep hs)
  have hwords := outsideKept_words hout
  refine ⟨⟨hon.pc, hon.age, hon.cur, hon.splits, hon.issue⟩, ?_, fun k hk => ?_, hcls, ?_, hout.bytes⟩
  · rw [word_congr hwords, word_setWord, if_pos ⟨rfl, rfl, rfl⟩]
  · rw [hwords, assoc_words_setWord s _ _ _ _ hk]
  · exact congrArg (fun u : State => { u with words := s.words }) hout.rest

/-- Settles O36: GRANT and REVOKE by the words of `changeRights`, ROUTE by the four-bit fields of `setRoute`, the routing rule by
its cases, and the handler words by what the tables say of them. -/
theorem rightsAndRoutes : Obligations.RightsAndRoutes := by
  refine ⟨fun s rd ra rb hs => ⟨fun v h0 hv hp ha hb => ⟨fun hl => ?grant, fun hl => ?revoke⟩,
      fun n h1 hk hl hkind hn hb hright hlow => ?lacking⟩,
    fun s rd ra rb v c hs hl h0 hv hp ha he hr => ⟨fun hc => ?pinned, fun hpos hlt hc => ?routes⟩,
    fun s level vmid c stage2 => ⟨?level0, route_fixed s level vmid stage2, ?stage2, fun hl hecc hdirty h2 => ?table⟩,
    fun s r ix hs h1 hlive hix => ⟨fun hl => ?read, fun hl => ?write⟩⟩
  case grant =>
    have hw := rightsOp_writesWords hs h0 hv hp ha hb true rd
    refine next_of_legal hl ⟨hw.pc, hw.value_zero, hw.others, ?_, fun k hk => ?_, hw.bytes⟩
    · rw [word_congr hw.words, changeRights_grant, word_setWord, if_pos ⟨rfl, rfl, rfl⟩]
    · rw [hw.words, changeRights_grant, assoc_words_setWord s _ _ _ _ hk]
  case revoke =>
    have hw := rightsOp_writesWords hs h0 hv hp ha hb false rd
    refine next_of_legal hl ⟨hw.pc, hw.value_zero, hw.others, ?_, fun a => ?_, fun k hk ht => ?_, hw.bytes⟩
    · rw [word_congr hw.words, word_changeRights_revoke_part]
    · rw [word_congr hw.words, word_changeRights_revoke_tenant]
    · rw [hw.words, assoc_changeRights_revoke_other v _ s hk ht]
  case lacking =>
    refine next_raise hs hk ?_
    exact congrArg Host.Outcome.next
      ((guarded_legal hl _).trans (rightsOp_lacking h1 hkind hn hb hright hlow rd))
  case pinned => exact ⟨_, execRightsRoute_pinned h0 hv hp ha he hr hl hc, setS_retire_writesScalar hs rd _⟩
  case routes =>
    have hw := retire_setS_writesWords (setRoute_wordsOnly v c (s.getS rb).toNat s) (stepping_level0 h0) hs rd
      (BitVec.ofNat 64 (s.routeEntry v c))
    refine ⟨_, execRightsRoute_routes h0 hv hp ha he hr hl hpos hlt hc, hw.pc, hw.value, hw.others, ?_, fun d hd hne => ?_,
      fun u hu d => ?_, hw.bytes⟩
    · rw [routeEntry_congr hw.words, routeEntry_setRoute_same v _ s (by omega), Nat.mod_eq_of_lt (by omega)]
    · rw [routeEntry_congr hw.words, routeEntry_setRoute_cause v _ s (by omega) hd hne]
    · rw [routeEntry_congr hw.words, routeEntry_setRoute_partition c _ s d hu]
  case level0 =>
    rintro rfl
    exact route_level0 s vmid c stage2
  case stage2 =>
    rintro rfl hc
    exact route_stage2 s level vmid hc
  case table =>
    refine route_table s vmid hl (not_or.mpr ⟨hecc, hdirty⟩) ?_
    rintro ⟨rfl, hc⟩
    exact h2.elim nofun (fun h => hc.elim h.1 h.2)
  case read => exact ⟨_, execCrd_handlerWord h1 (mem_handlerWords hix) hl, setS_retire_writesScalar hs r _⟩
  case write =>
    refine ⟨_, execCwr_handlerWord h1 hlive (mem_handlerWords hix) hl, ?_⟩
    rw [wordMask_handlerWord hix]
    exact retire_setWord hs s.cls.vmid (mem_handlerWords hix) _

end Sys2Proof.Proofs.Privilege
end

section
/-!
Facts about the state that several chapters use: splits of the issuing class, the end of a class, what waits for nothing.
-/

namespace Sys2Proof.Proofs.Layer

open Sys2Proof Sys2Proof.Machine Sys2Proof.Proofs.Execution Sys2Proof.Proofs.Control

/-! ### Lanes, addresses and targets -/

theorem head?_lanesOf {lanes : Nat} {m : Mask} {j : Nat} (hj : j < lanes) (hm : m.getLsbD j = true)
    (h : ∀ i, i < j → m.getLsbD i = false) : (lanesOf lanes m).head? = some j := by
  unfold lanesOf
  rw [List.head?_filter, List.find?_range_eq_some]
  exact ⟨hm, List.mem_range.mpr hj, fun i hi => by simp [h i hi]⟩

theorem eaField_eq (ea : Int) : eaField ea = (ea % 2 ^ 64).toNat := BitVec.toNat_ofInt ea

theorem target_eq {n : Nat} (s : State) (off : BitVec n) : s.target off = branchTarget s off :=
  congrArg (· + 4 * off.toInt) ((Int.add_sub_assoc ..).trans (congrArg (s.iss.pc + ·) (Int.mul_sub 4 _ 1).symm))

/-! ### Splits of a class -/

theorem split_setSplit_self (c : Cls) {i : Nat} (sp : Split) (h : i < c.splits.length) : (c.setSplit i sp).split i = sp :=
  Cls.split_modSplit_self c i (fun _ => sp) h

theorem split_setSplit_other (c : Cls) {i j : Nat} (sp : Split) (h : j ≠ i) : (c.setSplit i sp).split j = c.split j :=
  Cls.split_modSplit_other c i j (fun _ => sp) h

theorem length_setSplit (c : Cls) (i : Nat) (sp : Split) : (c.setSplit i sp).splits.length = c.splits.length :=
  List.length_set

/-- Only splits differ. -/
theorem setSplit_frame (c : Cls) (i : Nat) (sp : Split) (x : List Split) :
    { c.setSplit i sp with splits := x } = { c with splits := x } := rfl

/-- The class with its splits replaced. -/
noncomputable def clsWith (c : Cls) (l : List Split) : Cls := { c with splits := l }

theorem modSplit_modSplit (c : Cls) {i : Nat} (hi : i < c.splits.length) (f g : Split → Split) :
    (c.modSplit i f).modSplit i g = c.modSplit i (fun sp => g (f sp)) :=
  (congrArg (fun sp => (c.modSplit i f).setSplit i (g sp)) (Cls.split_modSplit_self c i f hi)).trans
    (congrArg (clsWith c) (List.set_set ..))

/-- The state with its classes replaced. -/
noncomputable def withClasses (s : State) (c : Cls) (l : List Cls) : State := { s with cls := c, others := l }

/-- The state with its issuing class replaced. -/
noncomputable def withCls (s : State) (c : Cls) : State := withClasses s c s.others

theorem modCur_modCur {s : State} (hs : s.iss.split < s.cls.splits.length) (f g : Split → Split) :
    (s.modCur f).modCur g = s.modCur (fun sp => g (f sp)) :=
  congrArg (withCls s) (modSplit_modSplit s.cls hs f g)

theorem hold_cur {s : State} (hs : s.issuing = true) : (hold s).cur = { s.cur with held := true } :=
  Cls.split_modSplit_self s.cls s.iss.split _ (State.issuing_split hs)

theorem modCur_outsideKept (s : State) (f : Split → Split) : OutsideKept s (s.modCur f) := ⟨Eq.refl s, fun _ => rfl⟩

/-! ### The issuing class among the classes -/

theorem getCls_cls {s : State} {id : Nat} (h : s.cls.id = id) : s.getCls id = some s.cls :=
  List.find?_cons_of_pos (beq_iff_eq.mpr h)

theorem modCls_cls (s : State) (f : Cls → Cls) : (s.modCls s.cls.id f).cls = f s.cls := if_pos rfl

theorem modCls_eq (s : State) (id : Nat) (f : Cls → Cls) : s.modCls id f =
    withClasses s (if s.cls.id = id then f s.cls else s.cls) (s.others.map fun c => if c.id = id then f c else c) := rfl

theorem modCls_self {s : State} (hothers : ∀ d ∈ s.others, d.id ≠ s.cls.id) (f : Cls → Cls) :
    s.modCls s.cls.id f = withCls s (f s.cls) := by
  have hmap : s.others.map (fun c => if c.id = s.cls.id then f c else c) = s.others :=
    (List.map_congr_left fun d hd => if_neg (hothers d hd)).trans (List.map_id' _)
  rw [modCls_eq, if_pos rfl, hmap, withCls]

/-! ### What most instructions leave -/

/-- The issuing class and its group, the other classes, the words, the forms, the events, memory and its pins. -/
noncomputable def kept (s : State) := (s.cls, s.iss, s.words, s.others, s.forms, s.pending, s.mem, s.pins)

/-- What `kept` names is as in `s`. -/
def Touched (s u : State) : Prop := kept u = kept s

theorem Touched.refl (s : State) : Touched s s := rfl

theorem Touched.trans {s u v : State} (h : Touched s u) (g : Touched u v) : Touched s v := Eq.trans g h

section
variable {s u : State} (h : Touched s u)
include h

theorem Touched.cls : u.cls = s.cls := congrArg (fun x => x.1) h
theorem Touched.iss : u.iss = s.iss := congrArg (fun x => x.2.1) h
theorem Touched.words : u.words = s.words := congrArg (fun x => x.2.2.1) h
theorem Touched.others : u.others = s.others := congrArg (fun x => x.2.2.2.1) h
theorem Touched.forms : u.forms = s.forms := congrArg (fun x => x.2.2.2.2.1) h
theorem Touched.pending : u.pending = s.pending := congrArg (fun x => x.2.2.2.2.2.1) h
theorem Touched.mem : u.mem = s.mem := congrArg (fun x => x.2.2.2.2.2.2.1) h
theorem Touched.pins : u.pins = s.pins := congrArg (fun x => x.2.2.2.2.2.2.2) h
theorem Touched.next : u.next = s.next := by rw [State.next, h.iss, State.next]

theorem Touched.stepping (hs : s.issuing = true) : u.stepping = false :=
  (State.stepping_congr (by rw [h.cls]) (by rw [h.cls]) (by rw [h.cls]) h.words).trans (State.issuing_step hs)

theorem Touched.issuing (hs : s.issuing = true) : u.issuing = true :=
  issuing_congr h.iss (by rw [h.cls]) (by rw [h.cls]) (by rw [h.cls]) (by rw [h.cls]) h.words hs

end

/-! ### Releases, handlers and the end of a class (R18, R386) -/

theorem quiet_of_idle {s : State} (hmem : s.cls.mem = []) (hreqs : s.creqs = []) : s.quiet s.cls = true := by
  simp [State.quiet, State.reqsOut, hmem, hreqs]

theorem pipeHeld_of_idle {c : Cls} (h : c.mem = []) : c.pipeHeld = false := by rw [Cls.pipeHeld, h]; rfl

theorem mustWait_of_idle {c : Cls} (h : c.mem = []) (lanes : List LaneReq) : c.mustWait lanes = false := by
  rw [Cls.mustWait, pipeHeld_of_idle h, h]
  rfl

theorem soc_of_idle {c : Cls} (h : c.mem = []) : c.soc = 0 := by rw [Cls.soc, h]; rfl

/-- The state with its pins replaced. -/
noncomputable def withPins (s : State) (l : List Pin) : State := { s with pins := l }

/-- The state with widened pins, those of the widest reach let go. -/
noncomputable def pinned (s : State) (l : List Pin) : State :=
  (l.filter (fun p => p.reach.any (fun r => decide (4 ≤ r.scope)))).foldl (fun s p => s.unpin p) (withPins s l)

theorem widenPins_eq (s : State) (c : Cls) (scope : Nat) :
    s.widenPins c scope = pinned s (s.pins.map fun p => if p.has c then { p with reach := c.reach scope :: p.reach } else p) := rfl

theorem release_of_no_pins {s : State} {c : Cls} {scope : Nat} (hpins : s.pins = []) (hscope : scope ≠ 0) :
    s.release c scope = s.bumpTag c.tag :=
  (if_neg hscope).trans ((widenPins_eq ..).trans ((congrArg (fun l => pinned (s.bumpTag c.tag) (List.map _ l)) hpins).trans
    (congrArg (withPins (s.bumpTag c.tag)) hpins.symm)))

/-- A handler's class that has ended and drained is disposed of as its reply says. -/
noncomputable def replied (endC : Nat → State → State) (id : Nat) (h : HSlot) (b : Byte × State) : State :=
  disposeWith endC h.ev (b.1.toNat % 4) (b.2.freeHandler id)

noncomputable def finishClass (endC : Nat → State → State) (id : Nat) (s : State) (h : HSlot) : Option Cls → State
  | none => s
  | some c => if c.live || c.soc != 0 then s else replied endC id h (s.readReply h)

noncomputable def finishSlot (endC : Nat → State → State) (id : Nat) (s : State) : Option HSlot → State
  | none => s
  | some h => finishClass endC id s h (s.getCls id)

theorem finishHandler_eq (endC : Nat → State → State) (id : Nat) (s : State) :
    finishHandler endC id s = finishSlot endC id s (s.hslots.find? (fun h => h.cls == id)) := rfl

theorem finishHandler_of_none {endC : Nat → State → State} {id : Nat} {s : State} (h : s.hslots = []) :
    finishHandler endC id s = s :=
  (finishHandler_eq ..).trans (congrArg (fun l => finishSlot endC id s (List.find? (fun h => h.cls == id) l)) h)

theorem endClassN_of_no_handler {n id : Nat} {s : State} (h : (s.closeCls id).hslots = []) :
    endClassN (n + 1) id s = s.closeCls id := finishHandler_of_none h

/-- A class that does not wait for room frees no slot. -/
theorem settleEnding_of_not_ending {s : State} (h : ∀ c ∈ s.allCls, c.status ≠ .ending) :
    s.settleEnding = s.allCls.foldl State.settleEnd s :=
  List.foldl_ext _ _ _ fun u c hc => by rw [beq_eq_false_iff_ne.mpr (h c hc)]; rfl

theorem settleEnd_of_not_due (s : State) {c : Cls} (h : c.endDue = false) : s.settleEnd c = s := by
  rw [State.settleEnd, h]
  rfl

/-- The accesses that a class keeps when it ends (R386). -/
noncomputable def keptAccs (c : Cls) : List Access := (c.mem.filter Access.kept).map Access.residual

/-- The core of the class has room for what it keeps. -/
noncomputable def roomFor (s : State) (c : Cls) : Bool := decide (s.residuals c.core + ((keptAccs c).filter Access.logged).length ≤ 32)

noncomputable def emptied (keep : List Access) (room : Bool) (c : Cls) : Cls :=
  { c with status := if room then .ended else .ending, splits := c.splits.map (fun _ => {}), bracket := none,
           v := [], locks := [], mem := keep, poisonV := [], endDue := true }

theorem emptied_splits {keep : List Access} {room : Bool} {c : Cls} {sp : Split} (h : sp ∈ (emptied keep room c).splits) : sp = {} := by
  obtain ⟨_, _, hsp⟩ := List.mem_map.mp h
  exact hsp.symm

/-- The class `id`, found as `c`, is ended; its end is not released yet. -/
noncomputable def closingOf (s : State) (id : Nat) (c : Cls) : State :=
  let u := s.modCls id (emptied (keptAccs c) (roomFor s c))
  { u with tlb := u.tlb.filter (fun e => e.home != TlbHome.lockable c.core id),
           runners := u.runners.filter (fun r => r.cls != id), shoots := u.shoots.filter (fun w => w.cls != id),
           pending := u.pending.filter (fun p => !(p.ev.cls == id && !p.ev.async)),
           misses := if c.kind == ClsKind.walker then endRun c.core u.misses else u.misses }

/-- The issuing class is ended; its end is not released yet. -/
noncomputable def closing (s : State) : State := closingOf s s.cls.id s.cls

/-- The end of a class is a release, of the class if it is there. -/
noncomputable def releasedEnd (s : State) : Option Cls → State
  | none => s
  | some c => s.settleEnd c

noncomputable def closeFound (s : State) (id : Nat) : Option Cls → State
  | none => s
  | some c => if c.status != .live then s else releasedEnd (closingOf s id c) ((closingOf s id c).getCls id)

theorem closeCls_eq (s : State) (id : Nat) : s.closeCls id = closeFound s id (s.getCls id) := rfl

theorem closing_cls (s : State) : (closing s).cls = emptied (keptAccs s.cls) (roomFor s s.cls) s.cls := modCls_cls s _

theorem closeCls_of_live {s : State} (hlive : s.cls.status = .live) : s.closeCls s.cls.id = (closing s).settleEnd (closing s).cls :=
  (closeCls_eq ..).trans ((congrArg (closeFound s _) (getCls_cls rfl)).trans ((if_neg (by rw [hlive]; decide)).trans
    (congrArg (releasedEnd (closing s)) (getCls_cls (s := closing s) (congrArg Cls.id (closing_cls s))))))

theorem closing_cls_of_idle {s : State} (hlive : ∀ c ∈ s.allCls, c.status = .live) (hmem : s.cls.mem = []) :
    (closing s).cls = emptied [] true s.cls := by
  have hnone : s.allCls.filter (fun c => c.core == s.cls.core && c.status == .ended) = [] :=
    List.filter_eq_nil_iff.mpr fun d hd h =>
      ClsStatus.noConfusion ((hlive d hd).symm.trans (beq_iff_eq.mp (Bool.and_eq_true_iff.mp h).2))
  have hkeep : keptAccs s.cls = [] := congrArg (fun l => (l.filter Access.kept).map Access.residual) hmem
  have hroom : roomFor s s.cls = true :=
    congrArg₂ (fun (l : List Cls) (k : List Access) => decide ((l.map Cls.logUse).sum + (k.filter Access.logged).length ≤ 32)) hnone hkeep
  exact (closing_cls s).trans (congrArg₂ (fun k r => emptied k r s.cls) hkeep hroom)

end Sys2Proof.Proofs.Layer
end

section
/-!
Chapter 9 (encoding): the round trip between instructions and the words of their groups (R180 to R191).
-/

namespace Sys2Proof.Proofs.Encoding

open Sys2Proof Sys2Proof.Laws

/-! ### A word is its fields (R180) -/

theorem eq_ofNat {n k : Nat} {o : BitVec n} (h : o.toNat = k) : o = BitVec.ofNat n k := by
  rw [← h, BitVec.ofNat_toNat, BitVec.setWidth_eq]

theorem append_inj {m n : Nat} {a x : BitVec m} {b y : BitVec n} : a ++ b = x ++ y ↔ a = x ∧ b = y := by
  refine ⟨fun h => ?_, by rintro ⟨rfl, rfl⟩; rfl⟩
  have hn : a.toNat * 2 ^ n + b.toNat = x.toNat * 2 ^ n + y.toNat := by
    simpa only [appendNat] using congrArg BitVec.toNat h
  have hdiv := congrArg (· / 2 ^ n) hn
  have hmod := congrArg (· % 2 ^ n) hn
  simp only [Nat.mul_add_div (Nat.two_pow_pos n), Nat.mul_comm _ (2 ^ n), Nat.mul_add_mod, Nat.div_eq_of_lt b.isLt,
    Nat.div_eq_of_lt y.isLt, Nat.mod_eq_of_lt b.isLt, Nat.mod_eq_of_lt y.isLt] at hdiv hmod
  exact ⟨BitVec.eq_of_toNat_eq hdiv, BitVec.eq_of_toNat_eq hmod⟩

/-- A field is the concatenation of its adjacent parts. -/
theorem field_eq_append (w : Word) {lo m n : Nat} (x : BitVec m) (y : BitVec n) :
    w.extractLsb' lo (m + n) = x ++ y ↔ w.extractLsb' (lo + n) m = x ∧ w.extractLsb' lo n = y := by
  have h : w.extractLsb' (lo + n) m ++ w.extractLsb' lo n = w.extractLsb' lo (m + n) :=
    BitVec.extractLsb'_append_extractLsb'_eq_extractLsb' (by omega)
  rw [← h]
  exact append_inj

theorem eq_word_iff {v w : Word} : v = w ↔ w.extractLsb' 0 32 = v := by
  rw [BitVec.extractLsb'_eq_self, eq_comm]

theorem mkR_eq_iff {op : BitVec 7} {d a b : Reg} {f : BitVec 4} {w : Word} :
    mkR op d a b f = w ↔ wOp w = op ∧ wRd w = d ∧ wRa w = a ∧ wRb w = b ∧ wFn w = f := by
  have hd := field_eq_append w (lo := 18) (m := 7) (n := 7) op d
  have ha := field_eq_append w (lo := 11) (m := 14) (n := 7) (op ++ d) a
  have hb := field_eq_append w (lo := 4) (m := 21) (n := 7) (op ++ d ++ a) b
  have hf := field_eq_append w (lo := 0) (m := 28) (n := 4) (op ++ d ++ a ++ b) f
  have hall := hf.trans (and_congr_left' (hb.trans (and_congr_left' (ha.trans (and_congr_left' hd)))))
  simp only [and_assoc] at hall
  exact eq_word_iff.trans hall

theorem mkI_eq_iff {op : BitVec 7} {d a : Reg} {c : BitVec 11} {w : Word} :
    mkI op d a c = w ↔ wOp w = op ∧ wRd w = d ∧ wRa w = a ∧ wImm11 w = c := by
  have hd := field_eq_append w (lo := 18) (m := 7) (n := 7) op d
  have ha := field_eq_append w (lo := 11) (m := 14) (n := 7) (op ++ d) a
  have hc := field_eq_append w (lo := 0) (m := 21) (n := 11) (op ++ d ++ a) c
  have hall := hc.trans (and_congr_left' (ha.trans (and_congr_left' hd)))
  simp only [and_assoc] at hall
  exact eq_word_iff.trans hall

theorem mkJ_eq_iff {op : BitVec 7} {c : BitVec 25} {w : Word} : mkJ op c = w ↔ wOp w = op ∧ wImm25 w = c :=
  eq_word_iff.trans (field_eq_append w (lo := 0) op c)

theorem mkU_eq_iff {op : BitVec 7} {d : Reg} {c : BitVec 18} {w : Word} :
    mkU op d c = w ↔ wOp w = op ∧ wRd w = d ∧ wImm18 w = c := by
  have hd := field_eq_append w (lo := 18) (m := 7) (n := 7) op d
  have hc := field_eq_append w (lo := 0) (m := 14) (n := 18) (op ++ d) c
  have hall := hc.trans (and_congr_left' hd)
  simp only [and_assoc] at hall
  exact eq_word_iff.trans hall

theorem mkB_eq_iff {op : BitVec 7} {k c : BitVec 3} {off : BitVec 19} {w : Word} :
    mkB op k c off = w ↔ wOp w = op ∧ w.extractLsb' 22 3 = k ∧ w.extractLsb' 19 3 = c ∧ wOff19 w = off := by
  have hk := field_eq_append w (lo := 22) (m := 7) (n := 3) op k
  have hc := field_eq_append w (lo := 19) (m := 10) (n := 3) (op ++ k) c
  have hoff := field_eq_append w (lo := 0) (m := 13) (n := 19) (op ++ k ++ c) off
  have hall := hoff.trans (and_congr_left' (hc.trans (and_congr_left' hk)))
  simp only [and_assoc] at hall
  exact eq_word_iff.trans hall

/-! ### A code names one function (Table 9-9) -/

theorem code_of_table {α : Type} [DecidableEq α] {T : List α} (hT : T.Nodup) {n : Nat} {c : BitVec n} {f : α}
    (h : T[c.toNat]? = some f) : c = BitVec.ofNat n (T.idxOf f) := by
  obtain ⟨hlt, rfl⟩ := List.getElem?_eq_some_iff.mp h
  rw [hT.idxOf_getElem, BitVec.ofNat_toNat, BitVec.setWidth_eq]

/-- Reading a code back is reading the table, so a code is read as `f` exactly when it is the code of `f`. -/
theorem ofTable_iff {α : Type} [DecidableEq α] {T : List α} (hT : T.Nodup) {n : Nat} (hn : T.length ≤ 2 ^ n)
    (hall : ∀ f, f ∈ T) (c : BitVec n) (f : α) : T[c.toNat]? = some f ↔ c = BitVec.ofNat n (T.idxOf f) := by
  refine ⟨code_of_table hT, ?_⟩
  rintro rfl
  have hlt : T.idxOf f < T.length := List.idxOf_lt_length_of_mem (hall f)
  rw [BitVec.toNat_ofNat, Nat.mod_eq_of_lt (by omega), List.getElem?_eq_getElem hlt, List.getElem_idxOf]

theorem aluFn_iff (c : BitVec 4) (f : AluFn) : AluFn.ofCode c = some f ↔ c = f.code 4 :=
  ofTable_iff (by decide) (by decide) (by rintro ⟨⟩ <;> decide) c f
theorem cmpFn_iff (c : BitVec 4) (f : CmpFn) : CmpFn.ofCode c = some f ↔ c = f.code 4 :=
  ofTable_iff (by decide) (by decide) (by rintro ⟨⟩ <;> decide) c f
theorem madFn_iff (c : BitVec 4) (f : MadFn) : MadFn.ofCode c = some f ↔ c = f.code 4 :=
  ofTable_iff (by decide) (by decide) (by rintro ⟨⟩ <;> decide) c f
theorem vunFn_iff (c : BitVec 4) (f : VunFn) : VunFn.ofCode c = some f ↔ c = f.code 4 :=
  ofTable_iff (by decide) (by decide) (by rintro ⟨⟩ <;> decide) c f
theorem packFn_iff (c : BitVec 4) (f : PackFn) : PackFn.ofCode c = some f ↔ c = f.code 4 :=
  ofTable_iff (by decide) (by decide) (by rintro ⟨⟩ <;> decide) c f
theorem voteFn_iff (c : BitVec 4) (f : VoteFn) : VoteFn.ofCode c = some f ↔ c = f.code 4 :=
  ofTable_iff (by decide) (by decide) (by rintro ⟨⟩ <;> decide) c f
theorem shflOp_iff (c : BitVec 2) (f : ShflOp) : ShflOp.ofCode c = some f ↔ c = f.code 2 :=
  ofTable_iff (by decide) (by decide) (by rintro ⟨⟩ <;> decide) c f
theorem kopFn_iff (c : BitVec 4) (f : KopFn) : KopFn.ofCode c = some f ↔ c = f.code 4 :=
  ofTable_iff (by decide) (by decide) (by rintro ⟨⟩ <;> decide) c f
theorem faluFn_iff (c : BitVec 4) (f : FaluFn) : FaluFn.ofCode c = some f ↔ c = f.code 4 :=
  ofTable_iff (by decide) (by decide) (by rintro ⟨⟩ <;> decide) c f
theorem fmaFn_iff (c : BitVec 2) (f : FmaFn) : FmaFn.ofCode c = some f ↔ c = f.code 2 :=
  ofTable_iff (by decide) (by decide) (by rintro ⟨⟩ <;> decide) c f
theorem fcmpFn_iff (c : BitVec 4) (f : FcmpFn) : FcmpFn.ofCode c = some f ↔ c = f.code 4 :=
  ofTable_iff (by decide) (by decide) (by rintro ⟨⟩ <;> decide) c f
theorem funFn_iff (c : BitVec 4) (f : FunFn) : FunFn.ofCode c = some f ↔ c = f.code 4 :=
  ofTable_iff (by decide) (by decide) (by rintro ⟨⟩ <;> decide) c f
theorem haluFn_iff (c : BitVec 3) (f : HaluFn) : HaluFn.ofCode c = some f ↔ c = f.code 3 :=
  ofTable_iff (by decide) (by decide) (by rintro ⟨⟩ <;> decide) c f
theorem cvtFn_iff (c : BitVec 4) (f : CvtFn) : CvtFn.ofCode c = some f ↔ c = f.code 4 :=
  ofTable_iff (by decide) (by decide) (by rintro ⟨⟩ <;> decide) c f
theorem expdKind_iff (c : BitVec 3) (f : ExpdKind) : ExpdKind.ofCode c = some f ↔ c = f.code 3 :=
  ofTable_iff (by decide) (by decide) (by rintro ⟨⟩ <;> decide) c f
theorem redFn_iff (c : BitVec 4) (f : RedFn) : RedFn.ofCode c = some f ↔ c = f.code 4 :=
  ofTable_iff (by decide) (by decide) (by rintro ⟨⟩ <;> decide) c f
theorem redFn_iff7 (c : BitVec 7) (f : RedFn) : RedFn.ofCode c = some f ↔ c = f.code 7 :=
  ofTable_iff (by decide) (by decide) (by rintro ⟨⟩ <;> decide) c f
theorem redfFn_iff (c : BitVec 4) (f : RedfFn) : RedfFn.ofCode c = some f ↔ c = f.code 4 :=
  ofTable_iff (by decide) (by decide) (by rintro ⟨⟩ <;> decide) c f
theorem redfFn_iff7 (c : BitVec 7) (f : RedfFn) : RedfFn.ofCode c = some f ↔ c = f.code 7 :=
  ofTable_iff (by decide) (by decide) (by rintro ⟨⟩ <;> decide) c f
theorem shiftKind_iff (c : BitVec 2) (f : ShiftKind) : ShiftKind.ofCode c = some f ↔ c = f.code 2 :=
  ofTable_iff (by decide) (by decide) (by rintro ⟨⟩ <;> decide) c f
theorem buCond_iff (c : BitVec 3) (f : BuCond) : BuCond.ofCode c = some f ↔ c = f.code 3 :=
  ofTable_iff (by decide) (by decide) (by rintro ⟨⟩ <;> decide) c f
theorem fenceKind_iff (c : BitVec 2) (f : FenceKind) : FenceKind.ofCode c = some f ↔ c = f.code 2 :=
  ofTable_iff (by decide) (by decide) (by rintro ⟨⟩ <;> decide) c f
theorem waitCond_iff (c : BitVec 4) (f : WaitCond) : WaitCond.ofCode c = some f ↔ c = f.code 4 :=
  ofTable_iff (by decide) (by decide) (by rintro ⟨⟩ <;> decide) c f

/-- A register field names a k or a register exactly when it is that register's field (R181). -/
theorem reg3_iff (r : Reg) (k : Reg3) : reg3 r = some k ↔ r = field3 k := by
  revert r k
  decide

/-! ### Sub-fields (Table 9-9) -/

/-- One bit of a word is a field of one bit. -/
theorem bit_eq_ofBool (w : Word) (i : Nat) (b : Bool) : w.extractLsb' i 1 = BitVec.ofBool b ↔ wBit w i = b := by
  have h : w.extractLsb' i 1 = BitVec.ofBool (wBit w i) := by
    ext j hj
    obtain rfl : j = 0 := by omega
    simp [wBit]
  rw [h]
  cases wBit w i <;> cases b <;> decide

theorem bit_eq_zero (w : Word) (i : Nat) : w.extractLsb' i 1 = 0#1 ↔ wBit w i = false := bit_eq_ofBool w i false

theorem bit_eq_one (w : Word) (i : Nat) : w.extractLsb' i 1 = 1#1 ↔ wBit w i = true := bit_eq_ofBool w i true

theorem setWidth_eq_append {n : Nat} (m : Nat) (x : BitVec n) : x.setWidth (m + n) = 0#m ++ x := by
  apply BitVec.eq_of_toNat_eq
  rw [appendNat, BitVec.toNat_setWidth, Nat.mod_eq_of_lt (Nat.lt_of_lt_of_le x.isLt (Nat.pow_le_pow_right (by omega) (by omega)))]
  simp

/-! The functions that share a field with flags, one lemma for each layout. -/

theorem wFn_shfl (w : Word) (b : Bool) (c : BitVec 2) :
    wFn w = 0#1 ++ BitVec.ofBool b ++ c ↔ wBit w 3 = false ∧ wBit w 2 = b ∧ w.extractLsb' 0 2 = c := by
  rw [← bit_eq_zero, ← bit_eq_ofBool, ← and_assoc, ← field_eq_append w (lo := 2) (m := 1) (n := 1)]
  exact field_eq_append w (lo := 0) _ c

theorem wFn_ffma (w : Word) (b : Bool) (c : BitVec 2) :
    wFn w = BitVec.ofBool b ++ 0#1 ++ c ↔ wBit w 3 = b ∧ wBit w 2 = false ∧ w.extractLsb' 0 2 = c := by
  rw [← bit_eq_zero, ← bit_eq_ofBool, ← and_assoc, ← field_eq_append w (lo := 2) (m := 1) (n := 1)]
  exact field_eq_append w (lo := 0) _ c

theorem wFn_halu (w : Word) (b : Bool) (c : BitVec 3) :
    wFn w = BitVec.ofBool b ++ c ↔ wBit w 3 = b ∧ w.extractLsb' 0 3 = c := by
  rw [← bit_eq_ofBool]
  exact field_eq_append w (lo := 0) _ c

theorem wFn_expd (w : Word) (b : Bool) (c : BitVec 3) :
    wFn w = c ++ BitVec.ofBool b ↔ w.extractLsb' 1 3 = c ∧ wBit w 0 = b := by
  rw [← bit_eq_ofBool]
  exact field_eq_append w (lo := 0) (n := 1) c (BitVec.ofBool b)

theorem wFn_hfma (w : Word) (a b : Bool) :
    wFn w = BitVec.ofBool a ++ 0#2 ++ BitVec.ofBool b ↔
      wBit w 3 = a ∧ w.extractLsb' 1 2 = 0#2 ∧ wBit w 0 = b := by
  rw [← bit_eq_ofBool, ← bit_eq_ofBool, ← and_assoc, ← field_eq_append w (lo := 1) (m := 1) (n := 2)]
  exact field_eq_append w (lo := 0) (m := 3) (n := 1) _ (BitVec.ofBool b)

theorem wFn_cvt8Pack (w : Word) (a b c : Bool) :
    wFn w = 0#1 ++ BitVec.ofBool a ++ BitVec.ofBool b ++ BitVec.ofBool c ↔
      wBit w 3 = false ∧ wBit w 2 = a ∧ wBit w 1 = b ∧ wBit w 0 = c := by
  rw [← bit_eq_zero, ← bit_eq_ofBool, ← bit_eq_ofBool, ← bit_eq_ofBool, ← and_assoc, ← and_assoc,
    ← field_eq_append w (lo := 2) (m := 1) (n := 1), ← field_eq_append w (lo := 1) (m := 2) (n := 1)]
  exact field_eq_append w (lo := 0) (m := 3) (n := 1) _ (BitVec.ofBool c)

theorem wFn_cvt8Unpack (w : Word) (a : Bool) (c : BitVec 2) :
    wFn w = 1#1 ++ BitVec.ofBool a ++ c ↔ wBit w 3 = true ∧ wBit w 2 = a ∧ w.extractLsb' 0 2 = c := by
  rw [← bit_eq_one, ← bit_eq_ofBool, ← and_assoc, ← field_eq_append w (lo := 2) (m := 1) (n := 1)]
  exact field_eq_append w (lo := 0) _ c

theorem wFn_vsel (w : Word) (k : Reg3) : wFn w = k.setWidth 4 ↔ wBit w 3 = false ∧ w.extractLsb' 0 3 = k := by
  rw [← bit_eq_zero, setWidth_eq_append 1 k]
  exact field_eq_append w (lo := 0) _ k

theorem wRb_rldsF (w : Word) (b : Bool) (c : BitVec 6) :
    wRb w = BitVec.ofBool b ++ c ↔ wBit w 10 = b ∧ w.extractLsb' 4 6 = c := by
  rw [← bit_eq_ofBool]
  exact field_eq_append w (lo := 4) _ c

theorem wRb_rldsI (w : Word) (c : BitVec 6) :
    wRb w = 0#1 ++ c ↔ wBit w 10 = false ∧ w.extractLsb' 4 6 = c := wRb_rldsF w false c

theorem wImm11_ctl (w : Word) (b : Bool) (c : BitVec 10) :
    wImm11 w = ctlBelow b c ↔ wBit w 10 = b ∧ w.extractLsb' 0 10 = c := by
  rw [← bit_eq_ofBool]
  exact field_eq_append w (lo := 0) _ c

theorem wImm11_lane (w : Word) (c : BitVec 10) :
    wImm11 w = c.setWidth 11 ↔ wBit w 10 = false ∧ w.extractLsb' 0 10 = c := by
  rw [← bit_eq_zero, setWidth_eq_append 1 c]
  exact field_eq_append w (lo := 0) _ c

theorem wImm11_wbase (w : Word) (c : BitVec 9) :
    wImm11 w = c.setWidth 11 ↔ w.extractLsb' 9 2 = 0#2 ∧ w.extractLsb' 0 9 = c := by
  rw [setWidth_eq_append 2 c]
  exact field_eq_append w (lo := 0) _ c

theorem wImm11_shImm6 (w : Word) (k : ShiftKind) (n : BitVec 6) :
    wImm11 w = shImm6 k n ↔ w.extractLsb' 9 2 = k.code 2 ∧ w.extractLsb' 6 3 = 0#3 ∧ w.extractLsb' 0 6 = n := by
  rw [← and_assoc, ← field_eq_append w (lo := 6) (m := 2) (n := 3)]
  exact field_eq_append w (lo := 0) _ n

theorem wImm11_shImm5 (w : Word) (k : ShiftKind) (n : BitVec 5) :
    wImm11 w = shImm5 k n ↔ w.extractLsb' 9 2 = k.code 2 ∧ w.extractLsb' 5 4 = 0#4 ∧ w.extractLsb' 0 5 = n := by
  rw [← and_assoc, ← field_eq_append w (lo := 5) (m := 2) (n := 4)]
  exact field_eq_append w (lo := 0) _ n

theorem wImm11_fence (w : Word) (scope : BitVec 3) (c : BitVec 2) :
    wImm11 w = 0#6 ++ scope ++ c ↔
      w.extractLsb' 5 6 = 0#6 ∧ w.extractLsb' 2 3 = scope ∧ w.extractLsb' 0 2 = c := by
  rw [← and_assoc, ← field_eq_append w (lo := 2) (m := 6) (n := 3)]
  exact field_eq_append w (lo := 0) _ c

theorem condition_bspl (w : Word) (b : Bool) :
    w.extractLsb' 19 3 = 0#2 ++ BitVec.ofBool b ↔ w.extractLsb' 20 2 = 0#2 ∧ wBit w 19 = b := by
  rw [← bit_eq_ofBool]
  exact field_eq_append w (lo := 19) (m := 2) (n := 1) _ (BitVec.ofBool b)

/-! ### What a word decodes to -/

/-- Whatever instruction `o` gives is the one that these words encode. -/
def Spells (o : Option Instr) (ws : List Word) : Prop := ∀ i, o = some i → i.encode = ws

theorem spells_none {ws : List Word} : Spells none ws ↔ True := by
  simp [Spells]

theorem spells_some {i : Instr} {ws : List Word} : Spells (some i) ws ↔ i.encode = ws := by
  simp [Spells]

theorem spells_ite {c : Prop} [Decidable c] {o q : Option Instr} {ws : List Word} :
    Spells (if c then o else q) ws ↔ (c → Spells o ws) ∧ (¬ c → Spells q ws) := by
  by_cases hc : c <;> simp [hc]

theorem spells_map {α : Type} {o : Option α} {f : α → Instr} {ws : List Word} :
    Spells (o.map f) ws ↔ ∀ a, o = some a → (f a).encode = ws := by
  cases o <;> simp [Spells]

theorem spells_bind {α : Type} {o : Option α} {f : α → Option Instr} {ws : List Word} :
    Spells (o.bind f) ws ↔ ∀ a, o = some a → Spells (f a) ws := by
  cases o <;> simp [Spells]

theorem spells_when {c : Bool} {i : Instr} {ws : List Word} (h : c = true → i.encode = ws) :
    Spells (if c then some i else none) ws := by
  match c with
  | false => exact spells_none.mpr trivial
  | true => exact spells_some.mpr (h rfl)

/-- A function of the fields of formats R and I beside the prefixes and the word. -/
abbrev ByFields : Type := BitVec 7 → Reg → Reg → Reg → BitVec 4 → BitVec 11 → Imx → Pfx → Word → Except DecodeError Instr

/-- `decodeWord` as a function of these fields, beside the word whose other fields it reads. -/
noncomputable def decodeFields : ByFields := by
  refine (?result : ∀ f : ByFields, (∀ x p w, decodeWord x p w = f (wOp w) (wRd w) (wRa w) (wRb w) (wFn w) (wImm11 w) x p w) → ByFields)
    ?fields ?reads
  case reads =>
    intro x p w
    unfold decodeWord
    generalize wOp w = op, wRd w = d, wRa w = a, wRb w = b, wFn w = f, wImm11 w = c
    exact rfl
  case result => exact fun f _ => f

theorem decodeWord_eq {op : BitVec 7} {x : Imx} {p : Pfx} {w : Word} (h : wOp w = op) :
    decodeWord x p w = decodeFields op (wRd w) (wRa w) (wRb w) (wFn w) (wImm11 w) x p w := by
  subst h
  rfl

theorem error_ne_ok {e : DecodeError} {i : Instr} {P : Prop} (h : Except.error e = Except.ok i) : P := nomatch h

section Prefixes

variable {x : Imx} {p : Pfx} {w : Word} {i : Instr} (o : Option Instr)

/-- An opcode that accepts both prefixes. -/
theorem encode_of_both {ws : List Word} (ho : Spells o ws)
    (h : (match o with | some i => .ok i | none => .error DecodeError.illegalField) = Except.ok i) : i.encode = ws := by
  rcases o with _ | j
  · exact error_ne_ok h
  · exact Except.ok.inj h ▸ ho j rfl

/-- An opcode that accepts no prefixes. -/
theorem encode_of_noPrefix (ho : Spells o [w])
    (h : (if x.isSome || p.isSome then .error .prefixGroup
      else match o with | some i => .ok i | none => .error DecodeError.illegalField) = Except.ok i) :
    i.encode = prefixWords x p ++ [w] :=
  match x, p with
  | none, none => encode_of_both o ho h
  | none, some _ => error_ne_ok h
  | some _, _ => error_ne_ok h

/-- An opcode that accepts PFXP alone. -/
theorem encode_of_pfxp (ho : Spells o (prefixWords none p ++ [w]))
    (h : (if x.isSome then .error .prefixGroup
      else match o with | some i => .ok i | none => .error DecodeError.illegalField) = Except.ok i) :
    i.encode = prefixWords x p ++ [w] :=
  match x with
  | none => encode_of_both o ho h
  | some _ => error_ne_ok h

/-- An opcode that accepts PFXI alone. -/
theorem encode_of_pfxi (ho : Spells o (prefixWords x none ++ [w]))
    (h : (if p.isSome then .error .prefixGroup
      else match o with | some i => .ok i | none => .error DecodeError.illegalField) = Except.ok i) :
    i.encode = prefixWords x p ++ [w] :=
  match p with
  | none => encode_of_both o ho h
  | some _ => error_ne_ok h

end Prefixes

theorem encode_kend : Instr.kend.encode = [0x06000000] := by
  decide

/-- What words with opcode `n` decode to encodes as these words: first the prefixes that the opcode accepts, then its fields. -/
def Respells (n : Nat) : Prop :=
  ∀ x p w i, wOp w = BitVec.ofNat 7 n → decodeFields (BitVec.ofNat 7 n) (wRd w) (wRa w) (wRb w) (wFn w) (wImm11 w) x p w = .ok i →
    i.encode = prefixWords x p ++ [w]

theorem mkR_self {op : BitVec 7} {w : Word} (h : wOp w = op) : mkR op (wRd w) (wRa w) (wRb w) (wFn w) = w :=
  mkR_eq_iff.mpr ⟨h, rfl, rfl, rfl, rfl⟩

theorem mkI_self {op : BitVec 7} {w : Word} (h : wOp w = op) : mkI op (wRd w) (wRa w) (wImm11 w) = w :=
  mkI_eq_iff.mpr ⟨h, rfl, rfl, rfl⟩

theorem mkJ_self {op : BitVec 7} {w : Word} (h : wOp w = op) : mkJ op (wImm25 w) = w := mkJ_eq_iff.mpr ⟨h, rfl⟩

theorem mkU_self {op : BitVec 7} {w : Word} (h : wOp w = op) : mkU op (wRd w) (wImm18 w) = w := mkU_eq_iff.mpr ⟨h, rfl, rfl⟩

theorem respells_both : [0x50, 0x51, 0x52, 0x53, 0x54, 0x55, 0x56, 0x57, 0x60, 0x61, 0x62, 0x63, 0x64, 0x65, 0x66, 0x67, 0x68,
    0x69].Forall Respells := by
  and_intros
  all_goals
    intro x p w i hop h
    exact encode_of_both (some _) (spells_some.mpr (congrArg (prefixWords x p ++ [·]) (mkR_self hop))) h

theorem respells_vaddi : Respells 0x37 := fun x p _ _ hop h =>
  encode_of_both (some _) (spells_some.mpr (congrArg (prefixWords x p ++ [·]) (mkI_self hop))) h

theorem respells_onlyP : [0x58, 0x59, 0x5A, 0x5B, 0x5C, 0x5D, 0x5E, 0x5F, 0x6A, 0x6B, 0x6C, 0x6D, 0x6E, 0x6F, 0x70, 0x71, 0x72,
    0x7D].Forall Respells := by
  and_intros
  all_goals
    intro x p w i hop h
    exact encode_of_pfxp (some _) (spells_some.mpr (congrArg (prefixWords none p ++ [·]) (mkR_self hop))) h

theorem respells_onlyX : [0x22, 0x23, 0x24].Forall Respells := by
  and_intros
  all_goals
    intro x p w i hop h
    exact encode_of_pfxi (some _) (spells_some.mpr (congrArg (prefixWords x none ++ [·]) (mkI_self hop))) h

theorem respells_no : [0x1F, 0x2F].Forall Respells := by
  and_intros
  all_goals
    intro x p w i hop h
    refine encode_of_noPrefix (some _) ?_ h
    exact spells_some.mpr (congrArg ([·]) (mkR_self hop))

theorem respells_jump : [0x04, 0x05].Forall Respells := by
  and_intros
  all_goals
    intro x p w i hop h
    refine encode_of_noPrefix (some _) ?_ h
    exact spells_some.mpr (congrArg ([·]) (mkJ_self hop))

theorem respells_long : [0x09, 0x0A, 0x26].Forall Respells := by
  and_intros
  all_goals
    intro x p w i hop h
    refine encode_of_noPrefix (some _) ?_ h
    exact spells_some.mpr (congrArg ([·]) (mkU_self hop))

theorem respells_reserved : [0x00, 0x0B, 0x0D, 0x0E, 0x0F, 0x3A, 0x3B, 0x3C, 0x3D, 0x3E, 0x3F, 0x4C, 0x4D, 0x4E, 0x4F, 0x7F].Forall
    Respells := by
  and_intros
  all_goals
    intro x p w i hop h
    exact error_ne_ok h

theorem respells_fns : [0x20, 0x21].Forall Respells := by
  and_intros
  all_goals
    intro x p w i hop h
    refine encode_of_noPrefix _ ?_ h
    simp only [spells_map, aluFn_iff, cmpFn_iff]
    intro f hf
    exact congrArg ([·]) (mkR_eq_iff.mpr ⟨hop, rfl, rfl, rfl, hf⟩)

theorem respells_redScalar : [0x13, 0x4A, 0x4B].Forall Respells := by
  and_intros
  all_goals
    intro x p w i hop h
    refine encode_of_noPrefix _ ?_ h
    simp only [spells_ite, spells_none, spells_map, beq_iff_eq, voteFn_iff, redFn_iff, redfFn_iff, implies_true, and_true]
    intro hb f hf
    exact congrArg ([·]) (mkR_eq_iff.mpr ⟨hop, rfl, rfl, hb, hf⟩)

theorem respells_laneFns : [0x1A, 0x30, 0x31, 0x32, 0x39, 0x40, 0x41, 0x47].Forall Respells := by
  and_intros
  all_goals
    intro x p w i hop h
    refine encode_of_pfxp _ ?_ h
    simp only [spells_map, kopFn_iff, aluFn_iff, madFn_iff, packFn_iff, faluFn_iff, cvtFn_iff]
    intro f hf
    exact congrArg (prefixWords none p ++ [·]) (mkR_eq_iff.mpr ⟨hop, rfl, rfl, rfl, hf⟩)

theorem respells_laneFns1 : [0x35, 0x44].Forall Respells := by
  and_intros
  all_goals
    intro x p w i hop h
    refine encode_of_pfxp _ ?_ h
    simp only [spells_ite, spells_none, spells_map, beq_iff_eq, vunFn_iff, funFn_iff, implies_true, and_true]
    intro hb f hf
    exact congrArg (prefixWords none p ++ [·]) (mkR_eq_iff.mpr ⟨hop, rfl, rfl, hb, hf⟩)

theorem respells_mred : [0x73, 0x74, 0x75].Forall Respells := by
  and_intros
  all_goals
    intro x p w i hop h
    refine encode_of_pfxp _ ?_ h
    simp only [spells_map, redFn_iff7, redfFn_iff7]
    intro f hf
    exact congrArg (prefixWords none p ++ [·]) (mkR_eq_iff.mpr ⟨hop, hf, rfl, rfl, rfl⟩)

theorem respells_laneCmps : [0x33, 0x34, 0x43].Forall Respells := by
  and_intros
  all_goals
    intro x p w i hop h
    refine encode_of_pfxp _ ?_ h
    simp only [spells_bind, spells_map, cmpFn_iff, fcmpFn_iff, reg3_iff]
    intro k hk f hf
    exact congrArg (prefixWords none p ++ [·]) (mkR_eq_iff.mpr ⟨hop, hk, rfl, rfl, hf⟩)

theorem eq_zero_of_and {m n : Nat} {a : BitVec m} {b : BitVec n} (h : (a == 0 && b == 0) = true) : a = 0 ∧ b = 0 := by
  rwa [Bool.and_eq_true, beq_iff_eq, beq_iff_eq] at h

theorem encode_of_mkI {i : Instr} {op : BitVec 7} {d a : Reg} {c : BitVec 11} {w : Word} (hop : wOp w = op) (he : i.encode = [mkI op d a c])
    (hd : wRd w = d) (ha : wRa w = a) (hc : wImm11 w = c) : i.encode = [w] :=
  he.trans (congrArg ([·]) (mkI_eq_iff.mpr ⟨hop, hd, ha, hc⟩))

theorem respells_bare : [0x01, 0x02, 0x06, 0x0C, 0x10, 0x11, 0x2A].Forall Respells := by
  and_intros
  all_goals
    intro x p w i hop h
    refine encode_of_noPrefix _ (spells_when fun hz => ?_) h
    obtain ⟨hda, hc⟩ := Bool.and_eq_true_iff.mp hz
    exact encode_of_mkI hop rfl (eq_zero_of_and hda).1 (eq_zero_of_and hda).2 (beq_iff_eq.mp hc)

theorem respells_swr : [0x07, 0x16].Forall Respells := by
  and_intros
  all_goals
    intro x p w i hop h
    exact encode_of_noPrefix _ (spells_when fun hd => encode_of_mkI hop rfl (beq_iff_eq.mp hd) rfl rfl) h

theorem respells_codes : [0x17, 0x18].Forall Respells := by
  and_intros
  all_goals
    intro x p w i hop h
    refine encode_of_noPrefix _ (spells_when fun hz => ?_) h
    exact encode_of_mkI hop rfl (eq_zero_of_and hz).1 (eq_zero_of_and hz).2 rfl

theorem respells_srd : Respells 0x15 := fun _ _ _ _ hop h =>
  encode_of_noPrefix _ (spells_when fun ha => encode_of_mkI hop rfl rfl (beq_iff_eq.mp ha) rfl) h

theorem respells_launch : Respells 0x19 := fun _ _ _ _ hop h =>
  encode_of_noPrefix _ (spells_when fun hc => encode_of_mkI hop rfl rfl rfl (beq_iff_eq.mp hc)) h

theorem respells_kend : Respells 0x03 := by
  intro x p w i hop h
  change (if w == 0x06000000 then _ else _) = _ at h
  split at h
  case isTrue hw =>
    rw [beq_iff_eq] at hw
    exact encode_of_noPrefix (some .kend) (spells_some.mpr (hw ▸ encode_kend)) h
  case isFalse => cases h

theorem respells_bu : Respells 0x08 := by
  intro x p w i hop h
  refine encode_of_noPrefix _ ?_ h
  simp only [spells_map, buCond_iff]
  intro c hc
  exact congrArg ([·]) (mkB_eq_iff.mpr ⟨hop, rfl, hc, rfl⟩)

theorem respells_pref : Respells 0x7E := by
  intro x p w i hop h
  refine encode_of_pfxp _ ?_ h
  simp only [spells_ite, spells_none, spells_some, beq_iff_eq, implies_true, and_true]
  intro hf
  exact congrArg (prefixWords none p ++ [·]) (mkR_eq_iff.mpr ⟨hop, rfl, rfl, rfl, hf⟩)

theorem respells_wait : Respells 0x79 := by
  intro x p w i hop h
  refine encode_of_pfxp _ ?_ h
  simp only [spells_ite, spells_none, spells_map, beq_iff_eq, implies_true, and_true, waitCond_iff]
  intro hd c hf
  exact congrArg (prefixWords none p ++ [·]) (mkR_eq_iff.mpr ⟨hop, hd, rfl, rfl, hf⟩)

theorem respells_rldsF : Respells 0x76 := by
  intro x p w i hop h
  refine encode_of_pfxp (some _) (spells_some.mpr ?_) h
  exact congrArg (prefixWords none p ++ [·]) (mkR_eq_iff.mpr ⟨hop, rfl, rfl, (wRb_rldsF ..).mpr ⟨rfl, rfl⟩, rfl⟩)

/-! Opcodes whose function shares its field with flags. -/

theorem respells_sub : [0x12, 0x25, 0x27, 0x28, 0x29, 0x78].Forall Respells := by
  and_intros
  all_goals
    intro x p w i hop h
    refine encode_of_noPrefix _ ?_ h
    simp only [spells_ite, spells_none, spells_some, spells_map, Bool.and_eq_true, Bool.not_eq_true', beq_iff_eq, implies_true, and_true,
      shiftKind_iff, fenceKind_iff]
    intros
    refine congrArg ([·]) (mkI_eq_iff.mpr ⟨hop, ?_⟩)
    simp [*, wImm11_wbase, wImm11_shImm6, wImm11_lane, wImm11_ctl, wImm11_fence]

theorem respells_laneSub : [0x14, 0x36, 0x42, 0x45, 0x46, 0x49, 0x77].Forall Respells := by
  and_intros
  all_goals
    intro x p w i hop h
    refine encode_of_pfxp _ ?_ h
    simp only [spells_ite, spells_none, spells_some, spells_map, Bool.not_eq_true', Bool.not_eq_true, beq_iff_eq, implies_true,
      and_true, true_and, shflOp_iff, fmaFn_iff, haluFn_iff, expdKind_iff]
    intros
    refine congrArg (prefixWords none p ++ [·]) (mkR_eq_iff.mpr ⟨hop, ?_⟩)
    simp [*, wFn_shfl, wFn_vsel, wFn_ffma, wFn_halu, wFn_hfma, wFn_expd, wRb_rldsI]

theorem respells_vshi : Respells 0x38 := by
  intro x p w i hop h
  refine encode_of_pfxp _ ?_ h
  simp only [spells_ite, spells_none, spells_map, beq_iff_eq, implies_true, and_true, shiftKind_iff]
  intro hz k hk
  exact congrArg (prefixWords none p ++ [·]) (mkI_eq_iff.mpr ⟨hop, rfl, rfl, (wImm11_shImm5 ..).mpr ⟨hk, hz, rfl⟩⟩)

theorem respells_cvt8 : Respells 0x48 := by
  intro x p w i hop h
  refine encode_of_pfxp _ ?_ h
  simp only [spells_ite, spells_none, spells_some, beq_iff_eq, implies_true, and_true, Bool.not_eq_true]
  refine ⟨fun hone hb => ?_, fun hz => ?_⟩
  · exact congrArg (prefixWords none p ++ [·]) (mkR_eq_iff.mpr ⟨hop, rfl, rfl, hb, (wFn_cvt8Unpack ..).mpr ⟨hone, rfl, rfl⟩⟩)
  · exact congrArg (prefixWords none p ++ [·]) (mkR_eq_iff.mpr ⟨hop, rfl, rfl, rfl, (wFn_cvt8Pack ..).mpr ⟨hz, rfl, rfl, rfl⟩⟩)

/-! Opcodes with several instructions. -/

/-- A word of format R that names an instruction by its function. -/
theorem encode_of_fn {i : Instr} {op : BitVec 7} {d a b : Reg} {n : Nat} {w : Word} {pre : List Word} (hf : (wFn w).toNat = n)
    (hop : wOp w = op) (he : i.encode = pre ++ [mkR op d a b (BitVec.ofNat 4 n)]) (hd : wRd w = d) (ha : wRa w = a) (hb : wRb w = b) :
    i.encode = pre ++ [w] :=
  he.trans (congrArg (pre ++ [·]) (mkR_eq_iff.mpr ⟨hop, hd, ha, hb, eq_ofNat hf⟩))

theorem spells_fn {i : Instr} {op : BitVec 7} {n : Nat} {w : Word} {pre : List Word} (hf : (wFn w).toNat = n) (hop : wOp w = op)
    (he : i.encode = pre ++ [mkR op (wRd w) (wRa w) (wRb w) (BitVec.ofNat 4 n)]) : Spells (some i) (pre ++ [w]) :=
  spells_some.mpr (encode_of_fn hf hop he rfl rfl rfl)

/-- A function without `rb`. -/
theorem spells_fn_b {i : Instr} {op : BitVec 7} {n : Nat} {w : Word} {pre : List Word} (hf : (wFn w).toNat = n) (hop : wOp w = op)
    (he : i.encode = pre ++ [mkR op (wRd w) (wRa w) 0 (BitVec.ofNat 4 n)]) : Spells (if wRb w == 0 then some i else none) (pre ++ [w]) :=
  spells_when fun hb => encode_of_fn hf hop he rfl rfl (beq_iff_eq.mp hb)

/-- A function of `ra` alone. -/
theorem spells_fn_d_b {i : Instr} {op : BitVec 7} {n : Nat} {w : Word} {pre : List Word} (hf : (wFn w).toNat = n) (hop : wOp w = op)
    (he : i.encode = pre ++ [mkR op 0 (wRa w) 0 (BitVec.ofNat 4 n)]) : Spells (if wRd w == 0 && wRb w == 0 then some i else none) (pre ++ [w]) := by
  refine spells_when fun hz => ?_
  rw [Bool.and_eq_true, beq_iff_eq, beq_iff_eq] at hz
  exact encode_of_fn hf hop he hz.1 rfl hz.2

theorem respells_plainGroups : [0x1D, 0x2E, 0x7B].Forall Respells := by
  and_intros
  all_goals
    intro x p w i hop h
    refine encode_of_noPrefix _ ?_ h
    split
  any_goals exact spells_fn (pre := []) ‹_› hop rfl
  all_goals exact spells_none.mpr trivial

theorem respells_buffers : Respells 0x1B := by
  intro x p w i hop h
  refine encode_of_noPrefix _ ?_ h
  split
  case h_1 hf => exact spells_fn_b (pre := []) hf hop rfl
  case h_2 hf => exact spells_fn_d_b (pre := []) hf hop rfl
  case h_3 hf => exact spells_fn (pre := []) hf hop rfl
  case h_4 hf => exact spells_fn (pre := []) hf hop rfl
  case h_5 hf => exact spells_fn_b (pre := []) hf hop rfl
  case h_6 => exact spells_none.mpr trivial

theorem respells_locks : Respells 0x1E := by
  intro x p w i hop h
  refine encode_of_noPrefix _ ?_ h
  split
  case h_1 hf => exact spells_fn (pre := []) hf hop rfl
  case h_2 hf => exact spells_fn_d_b (pre := []) hf hop rfl
  case h_3 => exact spells_none.mpr trivial

theorem respells_tlb : Respells 0x2B := by
  intro x p w i hop h
  refine encode_of_noPrefix _ ?_ h
  split
  case h_1 hf => exact spells_fn (pre := []) hf hop rfl
  case h_2 hf => exact spells_fn (pre := []) hf hop rfl
  case h_3 hf => exact spells_when fun ha => encode_of_fn (pre := []) hf hop rfl rfl (beq_iff_eq.mp ha) rfl
  case h_4 hf => exact spells_fn (pre := []) hf hop rfl
  case h_5 hf => exact spells_fn (pre := []) hf hop rfl
  case h_6 => exact spells_none.mpr trivial

theorem respells_seal : Respells 0x2C := by
  intro x p w i hop h
  refine encode_of_noPrefix _ ?_ h
  split
  case h_1 hf => exact spells_fn (pre := []) hf hop rfl
  case h_2 hf => exact spells_fn (pre := []) hf hop rfl
  case h_3 hf => exact spells_fn_b (pre := []) hf hop rfl
  case h_4 => exact spells_none.mpr trivial

theorem respells_ctx : Respells 0x2D := by
  intro x p w i hop h
  refine encode_of_noPrefix _ ?_ h
  split
  case h_1 hf => exact spells_fn (pre := []) hf hop rfl
  case h_2 hf => exact spells_fn (pre := []) hf hop rfl
  case h_3 hf => exact spells_fn_b (pre := []) hf hop rfl
  case h_4 hf => exact spells_fn_b (pre := []) hf hop rfl
  case h_5 => exact spells_none.mpr trivial

theorem respells_content : Respells 0x7C := by
  intro x p w i hop h
  refine encode_of_noPrefix _ ?_ h
  split
  case h_1 hf => exact spells_fn_b (pre := []) hf hop rfl
  case h_2 hf => exact spells_fn_b (pre := []) hf hop rfl
  case h_3 hf => exact spells_fn_d_b (pre := []) hf hop rfl
  case h_4 hf => exact spells_fn_d_b (pre := []) hf hop rfl
  case h_5 hf => exact spells_fn_b (pre := []) hf hop rfl
  case h_6 hf => exact spells_fn (pre := []) hf hop rfl
  case h_7 hf => exact spells_fn_b (pre := []) hf hop rfl
  case h_8 => exact spells_none.mpr trivial

theorem respells_tiles : Respells 0x1C := by
  intro x p w i hop h
  refine encode_of_noPrefix _ ?_ h
  split
  all_goals
    simp only [spells_ite, spells_none, spells_map, Bool.and_eq_true, beq_iff_eq, implies_true, and_true, reg3_iff]
  case h_1 hf => exact fun hz t ht => encode_of_fn (pre := []) hf hop rfl ht hz.1 hz.2
  case h_2 hf => exact fun t ht => encode_of_fn (pre := []) hf hop rfl ht rfl rfl
  case h_3 hf => exact fun t ht => encode_of_fn (pre := []) hf hop rfl ht rfl rfl
  case h_4 hf => exact fun hb t ht => encode_of_fn (pre := []) hf hop rfl rfl ht hb

theorem respells_barriers : Respells 0x7A := by
  intro x p w i hop h
  refine encode_of_pfxp _ ?_ h
  split
  case h_1 hf => exact spells_when fun hd => encode_of_fn hf hop rfl (beq_iff_eq.mp hd) rfl rfl
  case h_2 hf => exact spells_when fun hd => encode_of_fn hf hop rfl (beq_iff_eq.mp hd) rfl rfl
  case h_3 hf => exact spells_when fun hd => encode_of_fn hf hop rfl (beq_iff_eq.mp hd) rfl rfl
  case h_4 hf => exact spells_when fun hd => encode_of_fn hf hop rfl (beq_iff_eq.mp hd) rfl rfl
  case h_5 hf => exact spells_fn_d_b hf hop rfl
  case h_6 hf => exact spells_fn_b hf hop rfl
  case h_7 => exact spells_none.mpr trivial

theorem respells_others : [0x37, 0x15, 0x19, 0x03, 0x08, 0x1B, 0x1C, 0x1E, 0x2B, 0x2C, 0x2D, 0x7C, 0x7E, 0x79, 0x76, 0x38, 0x48, 0x7A].Forall Respells :=
  ⟨respells_vaddi, respells_srd, respells_launch, respells_kend, respells_bu, respells_buffers, respells_tiles,
    respells_locks, respells_tlb, respells_seal, respells_ctx, respells_content, respells_pref, respells_wait, respells_rldsF, respells_vshi, respells_cvt8, respells_barriers⟩

/-- Every opcode is in one of the families above. -/
theorem respells (n : Nat) (hn : n < 128) : Respells n := by
  have happend {l m : List Nat} (hl : l.Forall Respells) (hm : m.Forall Respells) : (l ++ m).Forall Respells :=
    List.forall_append.mpr ⟨hl, hm⟩
  have hfields := happend respells_both (happend respells_onlyP (happend respells_onlyX (happend respells_no (happend respells_jump (happend respells_long respells_reserved)))))
  have hfns := happend respells_fns (happend respells_redScalar (happend respells_laneFns (happend respells_laneFns1 (happend respells_mred respells_laneCmps))))
  have hrest := happend respells_bare (happend (happend respells_swr respells_codes) (happend respells_sub (happend respells_laneSub (happend respells_plainGroups respells_others))))
  refine List.forall_iff_forall_mem.mp (happend hfields (happend hfns hrest)) n ?_
  revert n
  decide +kernel

/-- What a word and its prefixes decode to encodes as these prefixes and this word. -/
theorem encode_of_decodeWord {x : Imx} {p : Pfx} {w : Word} {i : Instr} (h : decodeWord x p w = .ok i) :
    i.encode = prefixWords x p ++ [w] := by
  have hop : wOp w = BitVec.ofNat 7 (wOp w).toNat := eq_ofNat rfl
  exact respells _ (wOp w).isLt x p w i hop ((decodeWord_eq hop).symm.trans h)

theorem reg3_field3 (k : Reg3) : reg3 (field3 k) = some k := (reg3_iff _ _).mpr rfl
theorem redFn_code7 (f : RedFn) : RedFn.ofCode (f.code 7) = some f := (redFn_iff7 _ _).mpr rfl
theorem redfFn_code7 (f : RedfFn) : RedfFn.ofCode (f.code 7) = some f := (redfFn_iff7 _ _).mpr rfl

/-- The instruction encodes as its prefixes and one word, and these decode to it. -/
def Reads (i : Instr) : Prop := ∃ x p w, i.encode = prefixWords x p ++ [w] ∧ decodeWord x p w = .ok i

section Accepted

variable {x : Imx} {p : Pfx} {o : Option Instr} {i : Instr} (ho : o = some i)
include ho

theorem noPrefix_accepted :
    (if (none : Imx).isSome || (none : Pfx).isSome then .error .prefixGroup
      else match o with | some i => .ok i | none => .error DecodeError.illegalField) = Except.ok i := by
  simp [ho]

theorem pfxp_accepted :
    (if (none : Imx).isSome then .error .prefixGroup
      else match o with | some i => .ok i | none => .error DecodeError.illegalField) = Except.ok i := by
  simp [ho]

theorem pfxi_accepted :
    (if (none : Pfx).isSome then .error .prefixGroup
      else match o with | some i => .ok i | none => .error DecodeError.illegalField) = Except.ok i := by
  simp [ho]

theorem both_accepted :
    (match o with | some i => .ok i | none => .error DecodeError.illegalField) = Except.ok i := by
  simp [ho]

end Accepted

/-- Format R, where what stands outside its five fields does not matter. -/
theorem reads_mkR {i : Instr} {x : Imx} {p : Pfx} {op : BitVec 7} {d a b : Reg} {f : BitVec 4}
    (he : i.encode = prefixWords x p ++ [mkR op d a b f]) (hd : ∀ c w, decodeFields op d a b f c x p w = .ok i) : Reads i := by
  refine ⟨x, p, _, he, (decodeWord_eq (wOp_mkR ..)).trans ?_⟩
  rw [wRd_mkR, wRa_mkR, wRb_mkR, wFn_mkR]
  exact hd _ _

/-- Format R with bits of `rb` or `fn` of their own. -/
theorem reads_mkR_bits {i : Instr} {x : Imx} {p : Pfx} {op : BitVec 7} {d a b : Reg} {f : BitVec 4}
    (he : i.encode = prefixWords x p ++ [mkR op d a b f])
    (hd : ∀ c w, wRb w = b → wFn w = f → decodeFields op d a b f c x p w = .ok i) : Reads i := by
  refine ⟨x, p, _, he, (decodeWord_eq (wOp_mkR ..)).trans ?_⟩
  rw [wRd_mkR, wRa_mkR, wRb_mkR, wFn_mkR]
  exact hd _ _ (wRb_mkR ..) (wFn_mkR ..)

/-- Format I, the bits of its immediate among what may matter. -/
theorem reads_mkI {i : Instr} {x : Imx} {p : Pfx} {op : BitVec 7} {d a : Reg} {c : BitVec 11}
    (he : i.encode = prefixWords x p ++ [mkI op d a c])
    (hd : ∀ b f w, wImm11 w = c → decodeFields op d a b f c x p w = .ok i) : Reads i := by
  refine ⟨x, p, _, he, (decodeWord_eq (wOp_mkI ..)).trans ?_⟩
  rw [wRd_mkI, wRa_mkI, wImm11_mkI]
  exact hd _ _ _ (wImm11_mkI ..)

theorem reads_mkJ {i : Instr} {op : BitVec 7} {c : BitVec 25} (he : i.encode = [mkJ op c])
    (hd : ∀ d a b f m w, wImm25 w = c → decodeFields op d a b f m none none w = .ok i) : Reads i :=
  ⟨none, none, _, he, (decodeWord_eq (wOp_mkJ ..)).trans (hd _ _ _ _ _ _ (wImm25_mkJ ..))⟩

theorem reads_mkU {i : Instr} {op : BitVec 7} {d : Reg} {c : BitVec 18} (he : i.encode = [mkU op d c])
    (hd : ∀ a b f m w, wImm18 w = c → decodeFields op d a b f m none none w = .ok i) : Reads i := by
  refine ⟨none, none, _, he, (decodeWord_eq (wOp_mkU ..)).trans ?_⟩
  rw [wRd_mkU]
  exact hd _ _ _ _ _ (wImm18_mkU ..)

theorem reads_bare {i : Instr} {w : Word} (he : i.encode = [w]) (hd : decodeWord none none w = .ok i) : Reads i :=
  ⟨none, none, w, he, hd⟩

/-- An instruction has words that are read back, two in BSPL's case (R210), and a device event has none. -/
inductive Spelt (i : Instr) : Prop where
  | word (hi : i.isEvent = false) (h : Reads i)
  | bspl (joinOff : BitVec 25) (k : Reg3) (inv : Bool) (off : BitVec 19) (h : i = .bspl joinOff k inv off)
  | event (hi : i.isEvent = true) (h : i.encode = [])

theorem spelt (i : Instr) : Spelt i := by
  induction i with
  | nop | endClass | kend | ret | join | allb | alle | tret => exact .word rfl (reads_bare rfl rfl)
  | bspl joinOff k inv off => exact .bspl joinOff k inv off rfl
  | switch | srd | swr | trap | brk | launch => exact .word rfl (reads_mkI (x := none) (p := none) rfl fun _ _ _ _ => rfl)
  | saddi | sandi | sori => exact .word rfl (reads_mkI (p := none) rfl fun _ _ _ _ => rfl)
  | vaddi => exact .word rfl (reads_mkI rfl fun _ _ _ _ => rfl)
  | bra | call => exact .word rfl (reads_mkJ rfl (by rintro _ _ _ _ _ w rfl; rfl))
  | bz | bnz | slui => exact .word rfl (reads_mkU rfl (by rintro _ _ _ _ w rfl; rfl))
  | bu k c off =>
    refine .word rfl ⟨none, none, _, rfl, (decodeWord_eq (wOp_mkB ..)).trans (noPrefix_accepted ?_)⟩
    simp
  | pstd | pldd | obSt | obLd | chkbLane | chkbScalar | tlkLock | tlbFill | tlbInv | tlbShoot | tlbLook | sealAdmit | sealSeal
  | ctxSave | ctxLoad | rightsGrant | rightsRevoke | rightsRoute | cpyGs | cpySg | cpyGob | cpyGb | cpySob | cpyCas | cpyCag | cpySca
  | cpyGg | caSwap | obRes | obStat | sealUnseal | ctxPark | ctxResume | caLoa | caNode | caGet | caStat | obRel | tlkUnlk | caRef
  | caRel | tlbInva => exact .word rfl (reads_mkR (x := none) (p := none) rfl fun _ _ => rfl)
  | matLoop t | matDrain t | matZero t | matStat _ t =>
    exact .word rfl (reads_mkR (x := none) (p := none) rfl fun _ _ => noPrefix_accepted (congrArg (Option.map _) (reg3_field3 t)))
  | salu fn => exact .word rfl (reads_mkR (x := none) (p := none) rfl fun _ _ => noPrefix_accepted (congrArg (Option.map _) ((aluFn_iff _ fn).mpr rfl)))
  | scmp fn => exact .word rfl (reads_mkR (x := none) (p := none) rfl fun _ _ => noPrefix_accepted (congrArg (Option.map _) ((cmpFn_iff _ fn).mpr rfl)))
  | vote fn => exact .word rfl (reads_mkR (x := none) (p := none) rfl fun _ _ => noPrefix_accepted (congrArg (Option.map _) ((voteFn_iff _ fn).mpr rfl)))
  | redi fn => exact .word rfl (reads_mkR (x := none) (p := none) rfl fun _ _ => noPrefix_accepted (congrArg (Option.map _) ((redFn_iff _ fn).mpr rfl)))
  | redf fn => exact .word rfl (reads_mkR (x := none) (p := none) rfl fun _ _ => noPrefix_accepted (congrArg (Option.map _) ((redfFn_iff _ fn).mpr rfl)))
  | wbase n =>
    exact .word rfl (reads_mkI (x := none) (p := none) rfl (by
      intro _ _ w hc
      exact noPrefix_accepted (by simp [(wImm11_wbase ..).mp hc])))
  | sshi kind rd ra n =>
    exact .word rfl (reads_mkI (x := none) (p := none) rfl (by
      intro _ _ w hc
      exact noPrefix_accepted (by simp [(wImm11_shImm6 ..).mp hc])))
  | smovv rd ra lane =>
    exact .word rfl (reads_mkI (x := none) (p := none) rfl (by
      intro _ _ w hc
      exact noPrefix_accepted (by simp [(wImm11_lane ..).mp hc])))
  | crd rd below ix =>
    exact .word rfl (reads_mkI (x := none) (p := none) rfl (by
      intro _ _ w hc
      obtain ⟨hbelow, hix⟩ := (wImm11_ctl ..).mp hc
      exact congrArg₂ (fun below ix => Except.ok (Instr.crd rd below ix)) hbelow hix))
  | cwr ra below ix =>
    exact .word rfl (reads_mkI (x := none) (p := none) rfl (by
      intro _ _ w hc
      obtain ⟨hbelow, hix⟩ := (wImm11_ctl ..).mp hc
      exact congrArg₂ (fun below ix => Except.ok (Instr.cwr ra below ix)) hbelow hix))
  | fence scope kind =>
    exact .word rfl (reads_mkI (x := none) (p := none) rfl (by
      intro _ _ w hc
      exact noPrefix_accepted (by simp [(wImm11_fence ..).mp hc])))
  | ldl x p wd | stl x p wd => cases wd <;> exact .word rfl (reads_mkR rfl fun _ _ => rfl)
  | sld x p dbl | sst x p dbl | lds x p dbl | sts x p dbl => cases dbl <;> exact .word rfl (reads_mkR rfl fun _ _ => rfl)
  | ldaq | strl => exact .word rfl (reads_mkR rfl fun _ _ => rfl)
  | ldi p wd | sti p wd => cases wd <;> exact .word rfl (reads_mkR (x := none) rfl fun _ _ => rfl)
  | aadd | amin | amax | aand | aor | axor | axch | acas | afadd | cld | bari | barv | barw | barx | barz | barp | pref =>
    exact .word rfl (reads_mkR (x := none) rfl fun _ _ => rfl)
  | kop _ fn => exact .word rfl (reads_mkR (x := none) rfl fun _ _ => pfxp_accepted (congrArg (Option.map _) ((kopFn_iff _ fn).mpr rfl)))
  | valu _ fn | valus _ fn =>
    exact .word rfl (reads_mkR (x := none) rfl fun _ _ => pfxp_accepted (congrArg (Option.map _) ((aluFn_iff _ fn).mpr rfl)))
  | vmad _ fn => exact .word rfl (reads_mkR (x := none) rfl fun _ _ => pfxp_accepted (congrArg (Option.map _) ((madFn_iff _ fn).mpr rfl)))
  | vun _ fn => exact .word rfl (reads_mkR (x := none) rfl fun _ _ => pfxp_accepted (congrArg (Option.map _) ((vunFn_iff _ fn).mpr rfl)))
  | vpack _ fn => exact .word rfl (reads_mkR (x := none) rfl fun _ _ => pfxp_accepted (congrArg (Option.map _) ((packFn_iff _ fn).mpr rfl)))
  | falu _ fn | falus _ fn =>
    exact .word rfl (reads_mkR (x := none) rfl fun _ _ => pfxp_accepted (congrArg (Option.map _) ((faluFn_iff _ fn).mpr rfl)))
  | funit _ fn => exact .word rfl (reads_mkR (x := none) rfl fun _ _ => pfxp_accepted (congrArg (Option.map _) ((funFn_iff _ fn).mpr rfl)))
  | cvt _ fn => exact .word rfl (reads_mkR (x := none) rfl fun _ _ => pfxp_accepted (congrArg (Option.map _) ((cvtFn_iff _ fn).mpr rfl)))
  | mredW _ fn | mredD _ fn =>
    exact .word rfl (reads_mkR (x := none) rfl fun _ _ => pfxp_accepted (congrArg (Option.map _) ((redFn_iff7 _ fn).mpr rfl)))
  | mredF _ fn => exact .word rfl (reads_mkR (x := none) rfl fun _ _ => pfxp_accepted (congrArg (Option.map _) ((redfFn_iff7 _ fn).mpr rfl)))
  | wait _ c => exact .word rfl (reads_mkR (x := none) rfl fun _ _ => pfxp_accepted (congrArg (Option.map _) ((waitCond_iff _ c).mpr rfl)))
  | vcmp _ fn k | vcmps _ fn k =>
    exact .word rfl (reads_mkR (x := none) rfl fun _ _ => pfxp_accepted (by rw [reg3_field3, (cmpFn_iff _ fn).mpr rfl]; rfl))
  | fcmp _ fn k => exact .word rfl (reads_mkR (x := none) rfl fun _ _ => pfxp_accepted (by rw [reg3_field3, (fcmpFn_iff _ fn).mpr rfl]; rfl))
  | shfl p op all rd ra rb =>
    exact .word rfl (reads_mkR_bits (x := none) rfl (by
      intro _ w hb hf
      exact pfxp_accepted (by simp [(wFn_shfl ..).mp hf])))
  | vsel p rd ra rb k =>
    exact .word rfl (reads_mkR_bits (x := none) rfl (by
      intro _ w hb hf
      exact pfxp_accepted (by simp [(wFn_vsel ..).mp hf])))
  | vshi p kind rd ra n =>
    exact .word rfl (reads_mkI (x := none) rfl (by
      intro _ _ w hc
      exact pfxp_accepted (by simp [(wImm11_shImm5 ..).mp hc])))
  | ffma p fn scalar rd ra rb =>
    exact .word rfl (reads_mkR_bits (x := none) rfl (by
      intro _ w hb hf
      exact pfxp_accepted (by simp [(wFn_ffma ..).mp hf])))
  | halu p bf fn rd ra rb =>
    exact .word rfl (reads_mkR_bits (x := none) rfl (by
      intro _ w hb hf
      exact pfxp_accepted (by simp [(wFn_halu ..).mp hf])))
  | hfma p bf wide rd ra rb =>
    exact .word rfl (reads_mkR_bits (x := none) rfl (by
      intro _ w hb hf
      exact pfxp_accepted (by simp [(wFn_hfma ..).mp hf])))
  | cvt8Pack p e5 hi sat rd ra rb =>
    exact .word rfl (reads_mkR_bits (x := none) rfl (by
      intro _ w hb hf
      exact pfxp_accepted (by simp [(wFn_cvt8Pack ..).mp hf])))
  | cvt8Unpack p e5 byte rd ra =>
    exact .word rfl (reads_mkR_bits (x := none) rfl (by
      intro _ w hb hf
      exact pfxp_accepted (by simp [(wFn_cvt8Unpack ..).mp hf])))
  | expd p kind hi rd ra rb =>
    exact .word rfl (reads_mkR_bits (x := none) rfl (by
      intro _ w hb hf
      exact pfxp_accepted (by simp [(wFn_expd ..).mp hf])))
  | rldsF p bf rd ra off la =>
    exact .word rfl (reads_mkR_bits (x := none) rfl (by
      intro _ w hb hf
      exact pfxp_accepted (o := some _) (by simp [(wRb_rldsF ..).mp hb])))
  | rldsI p rd ra off la =>
    exact .word rfl (reads_mkR_bits (x := none) rfl (by
      intro _ w hb hf
      exact pfxp_accepted (by simp [(wRb_rldsI ..).mp hb])))
  | _ => exact .event rfl rfl

/-! ### Groups (R184) -/

/-- A word whose opcode is one of the prefixes' decodes to no instruction of its own. -/
theorem not_prefix_of_decodeWord {x : Imx} {p : Pfx} {w : Word} {i : Instr} (h : decodeWord x p w = .ok i) :
    (wOp w).toNat ≠ 0x0B ∧ (wOp w).toNat ≠ 0x0D ∧ (wOp w).toNat ≠ 0x0E ∧ (wOp w).toNat ≠ 0x0F := by
  refine ⟨?_, ?_, ?_, ?_⟩
  all_goals
    intro hop
    cases (decodeWord_eq (eq_ofNat hop)).symm.trans h

/-- How a group is read from one of its words, given what an accepted PFXI or PFXP leads to. -/
noncomputable def readWord (x : Imx) (p : Pfx) (w : Word) (onImm : BitVec 25 → Except DecodeError Instr)
    (onPred : Pfxp → Except DecodeError Instr) : Except DecodeError Instr :=
  match (wOp w).toNat with
  | 0x0D => if x.isSome then .error .prefixGroup else onImm (wImm25 w)
  | 0x0E =>
    if p.isSome then .error .prefixGroup else
      match Pfxp.ofWord w with
      | some q => onPred q
      | none => .error .prefixGroup
  | 0x0F | 0x0B => .error .prefixGroup
  | _ => checkWf (decodeWord x p w)

theorem decodeRest_succ (n : Nat) (x : Imx) (p : Pfx) (w : Word) (rest : List Word) :
    decodeRest (n + 1) x p (w :: rest) =
      readWord x p w (fun imm => decodeRest n (some imm) p rest) (fun q => decodeRest n x (some q) rest) := by
  delta readWord decodeRest
  exact rfl

/-- After both prefixes no third is read. -/
theorem decodeRest_last (imm : BitVec 25) (q : Pfxp) (w : Word) (rest : List Word) :
    decodeRest 0 (some imm) (some q) (w :: rest) =
      readWord (some imm) (some q) w (fun _ => .error .prefixGroup) (fun _ => .error .prefixGroup) := by
  delta readWord decodeRest
  exact rfl

section
variable {x : Imx} {p : Pfx} {onImm : BitVec 25 → Except DecodeError Instr} {onPred : Pfxp → Except DecodeError Instr} {i : Instr}

theorem readWord_word {w : Word} (h : decodeWord x p w = .ok i) : readWord x p w onImm onPred = checkWf (.ok i) := by
  obtain ⟨hb, hd, he, hf⟩ := not_prefix_of_decodeWord h
  unfold readWord
  split
  · contradiction
  · contradiction
  · contradiction
  · contradiction
  · rw [h]

theorem readWord_pfxi (imm : BitVec 25) : readWord none p (mkJ 0x0D imm) onImm onPred = onImm imm := by
  rw [readWord, wOp_mkJ]
  simp

theorem readWord_pfxp (q : Pfxp) : readWord x none q.toWord onImm onPred = onPred q := by
  rw [readWord, wOp_pfxp]
  simp

end

/-- A group that does not begin with PFXJ is prefixes and a word. -/
theorem decodeGroup_of_not_pfxj {w : Word} (h : (wOp w).toNat ≠ 0x0F) (rest : List Word) :
    decodeGroup (w :: rest) = decodeRest 2 none none (w :: rest) := by
  unfold decodeGroup
  dsimp only
  split
  · contradiction
  · rfl

theorem decodeGroup_prefixWords {x : Imx} {p : Pfx} {w : Word} {i : Instr} (h : decodeWord x p w = .ok i) (rest : List Word) :
    decodeGroup (prefixWords x p ++ w :: rest) = checkWf (.ok i) := by
  have hj := (not_prefix_of_decodeWord h).2.2.2
  cases x with
  | none =>
    cases p with
    | none => exact (decodeGroup_of_not_pfxj hj rest).trans ((decodeRest_succ ..).trans (readWord_word h))
    | some q =>
      exact (decodeGroup_of_not_pfxj (by simp) _).trans ((decodeRest_succ ..).trans ((readWord_pfxp q).trans
        ((decodeRest_succ ..).trans (readWord_word h))))
  | some imm =>
    refine (decodeGroup_of_not_pfxj (by simp) _).trans ((decodeRest_succ ..).trans ((readWord_pfxi imm).trans ?_))
    cases p with
    | none => exact (decodeRest_succ ..).trans (readWord_word h)
    | some q => exact (decodeRest_succ ..).trans ((readWord_pfxp q).trans ((decodeRest_last ..).trans (readWord_word h)))

theorem groupLength_word {w : Word} (hd : (wOp w).toNat ≠ 0x0D) (he : (wOp w).toNat ≠ 0x0E) (hf : (wOp w).toNat ≠ 0x0F)
    (rest : List Word) : groupLength (w :: rest) = 1 := by
  unfold groupLength
  dsimp only
  split <;> first | contradiction | rfl

theorem groupLength_prefix {v w : Word} (hv : (wOp v).toNat = 0x0D ∨ (wOp v).toNat = 0x0E) (rest : List Word) :
    groupLength (v :: w :: rest) = if (wOp w).toNat = 0x0D ∨ (wOp w).toNat = 0x0E then 3 else 2 := by
  rcases hv with hv | hv <;> simp only [groupLength, hv]

theorem groupLength_prefixWords {x : Imx} {p : Pfx} {w : Word} {i : Instr} (h : decodeWord x p w = .ok i) (rest : List Word) :
    groupLength (prefixWords x p ++ w :: rest) = (prefixWords x p ++ [w]).length := by
  obtain ⟨hb, hd, he, hf⟩ := not_prefix_of_decodeWord h
  cases x <;> cases p <;>
    simp [prefixWords, groupLength_word, groupLength_prefix, hd, he, hf]

theorem decodeGroup_bspl (joinOff : BitVec 25) (k : Reg3) (inv : Bool) (off : BitVec 19) (rest : List Word) :
    decodeGroup ((Instr.bspl joinOff k inv off).encode ++ rest) = .ok (.bspl joinOff k inv off) := by
  obtain ⟨hz, hi⟩ := (condition_bspl _ _).mp (condition_mkB 0x0B#7 k (0#2 ++ BitVec.ofBool inv) off)
  change decodeGroup (mkJ 0x0F#7 joinOff :: mkB 0x0B#7 k (0#2 ++ BitVec.ofBool inv) off :: rest) = _
  simp [decodeGroup, hz, hi]

theorem groupLength_bspl (joinOff : BitVec 25) (k : Reg3) (inv : Bool) (off : BitVec 19) (rest : List Word) :
    groupLength ((Instr.bspl joinOff k inv off).encode ++ rest) = 2 := by
  change groupLength (mkJ 0x0F#7 joinOff :: mkB 0x0B#7 k (0#2 ++ BitVec.ofBool inv) off :: rest) = 2
  simp [groupLength]

/-- Settles O1: every instruction but BSPL is its prefixes and one word, which reads them back; BSPL's two words are read field by
field. -/
theorem encodedInstructionsDecode : Obligations.EncodedInstructionsDecode := by
  intro i
  cases spelt i with
  | word hi h =>
    obtain ⟨x, p, w, henc, hdec⟩ := h
    refine ⟨fun hwf _ rest => ?_, fun he => absurd (hi.symm.trans he) nofun⟩
    rw [henc, List.append_assoc]
    refine ⟨(decodeGroup_prefixWords hdec rest).trans ?_, groupLength_prefixWords hdec rest⟩
    simp [checkWf, hwf]
  | bspl joinOff k inv off h =>
    subst h
    exact ⟨fun _ _ rest => ⟨decodeGroup_bspl joinOff k inv off rest, groupLength_bspl joinOff k inv off rest⟩, nofun⟩
  | event hi h => exact ⟨fun _ he => absurd (he.symm.trans hi) nofun, fun _ => h⟩

/-! ### The other direction -/

theorem toWord_of_ofWord {w : Word} {q : Pfxp} (hop : (wOp w).toNat = 0x0E) (h : Pfxp.ofWord w = some q) : q.toWord = w := by
  have hop : w.extractLsb' 25 7 = 0x0E := eq_ofNat hop
  unfold Pfxp.ofWord at h
  split at h
  case isFalse => cases h
  case isTrue hz =>
    obtain rfl := Option.some.inj h
    have hpred := (field_eq_append w (lo := 22) (m := 7) (n := 3) _ _).mpr ⟨hop, rfl⟩
    have hinv := (field_eq_append w (lo := 21) (n := 1) _ _).mpr ⟨hpred, (bit_eq_ofBool w 21 _).mpr rfl⟩
    have hpol := (field_eq_append w (lo := 19) (n := 2) _ _).mpr ⟨hinv, rfl⟩
    have hscope := (field_eq_append w (lo := 16) (n := 3) _ _).mpr ⟨hpol, rfl⟩
    have hrbs := (field_eq_append w (lo := 15) (n := 1) _ _).mpr ⟨hscope, (bit_eq_ofBool w 15 _).mpr rfl⟩
    have hall := (field_eq_append w (lo := 0) (n := 15) _ _).mpr ⟨hrbs, hz⟩
    exact hall.symm.trans BitVec.extractLsb'_eq_self

/-- What holds of a word that is read, and of one of the prefixes before what it leads to, holds of the group. -/
theorem readWord_cases {P : List Word → Prop} {x : Imx} {p : Pfx} {w : Word} {rest : List Word} {i : Instr}
    {onImm : BitVec 25 → Except DecodeError Instr} {onPred : Pfxp → Except DecodeError Instr} (h : readWord x p w onImm onPred = .ok i)
    (himm : ∀ imm, x = none → onImm imm = .ok i → P (mkJ 0x0D imm :: rest))
    (hpred : ∀ q, p = none → onPred q = .ok i → P (q.toWord :: rest))
    (hword : decodeWord x p w = .ok i → i.wf = true → P (w :: rest)) : P (w :: rest) := by
  unfold readWord at h
  split at h
  case h_1 hop =>
    have hw : mkJ 0x0D (wImm25 w) = w := mkJ_eq_iff.mpr ⟨eq_ofNat hop, rfl⟩
    cases x with
    | none => exact hw ▸ himm _ rfl h
    | some _ => exact error_ne_ok h
  case h_2 hop =>
    cases p with
    | none =>
      dsimp only [Option.isSome] at h
      split at h
      case isTrue => contradiction
      case isFalse =>
        split at h
        case h_1 q hq => exact toWord_of_ofWord hop hq ▸ hpred q rfl h
        case h_2 => exact error_ne_ok h
    | some _ => exact error_ne_ok h
  case h_3 => exact error_ne_ok h
  case h_4 => exact error_ne_ok h
  case h_5 =>
    unfold checkWf at h
    split at h
    case h_1 j hj =>
      split at h
      case isTrue hwf => exact hword (hj.trans h) (Except.ok.inj h ▸ hwf)
      case isFalse => exact error_ne_ok h
    case h_2 => exact error_ne_ok h

/-- The words of an instruction are those of its group, but for the order of two prefixes (R184). -/
def EncodesGroup (i : Instr) (ws : List Word) : Prop :=
  i.encode = ws.take (groupLength ws) ∨ ∃ a b c, ws.take (groupLength ws) = [a, b, c] ∧ i.encode = [b, a, c]

/-- Prefixes that stand as the encoder writes them. -/
theorem encodesGroup_of_ordered {x : Imx} {p : Pfx} {w : Word} {i : Instr} (h : decodeWord x p w = .ok i) (rest : List Word) :
    EncodesGroup i (prefixWords x p ++ w :: rest) := by
  refine .inl ((encode_of_decodeWord h).trans ?_)
  rw [groupLength_prefixWords h, List.append_cons _ w rest, List.take_left]

/-- PFXP before PFXI. -/
theorem encodesGroup_of_swapped {imm : BitVec 25} {q : Pfxp} {w : Word} {i : Instr} (h : decodeWord (some imm) (some q) w = .ok i)
    (rest : List Word) : EncodesGroup i (q.toWord :: mkJ 0x0D imm :: w :: rest) := by
  have hlen : groupLength (q.toWord :: mkJ 0x0D imm :: w :: rest) = 3 := by
    rw [groupLength_prefix (by simp)]
    simp
  refine .inr ⟨q.toWord, mkJ 0x0D imm, w, ?_, encode_of_decodeWord h⟩
  rw [hlen]
  rfl

/-- The words are a group that encodes the well-formed instruction. -/
def GroupOf (i : Instr) (ws : List Word) : Prop := i.wf = true ∧ EncodesGroup i ws

/-- After both prefixes stands a word. -/
theorem groupOf_both {imm : BitVec 25} {q : Pfxp} {ws : List Word} {i : Instr} (h : decodeRest 0 (some imm) (some q) ws = .ok i) :
    GroupOf i (mkJ 0x0D imm :: q.toWord :: ws) ∧ GroupOf i (q.toWord :: mkJ 0x0D imm :: ws) :=
  match ws with
  | [] => error_ne_ok h
  | _ :: rest =>
    readWord_cases (P := fun ws => GroupOf i (mkJ 0x0D imm :: q.toWord :: ws) ∧ GroupOf i (q.toWord :: mkJ 0x0D imm :: ws))
      ((decodeRest_last imm q _ rest).symm.trans h) (fun _ h => absurd h (Option.some_ne_none _))
      (fun _ h => absurd h (Option.some_ne_none _))
      fun h hwf => ⟨⟨hwf, encodesGroup_of_ordered h rest⟩, ⟨hwf, encodesGroup_of_swapped h rest⟩⟩

theorem groupOf_pfxi {imm : BitVec 25} {ws : List Word} {i : Instr} (h : decodeRest 1 (some imm) none ws = .ok i) :
    GroupOf i (mkJ 0x0D imm :: ws) :=
  match ws with
  | [] => error_ne_ok h
  | _ :: rest => readWord_cases (P := fun ws => GroupOf i (mkJ 0x0D imm :: ws)) ((decodeRest_succ ..).symm.trans h)
      (fun _ h => absurd h (Option.some_ne_none _))
      (fun _ _ h => (groupOf_both h).1) fun h hwf => ⟨hwf, encodesGroup_of_ordered h rest⟩

theorem groupOf_pfxp {q : Pfxp} {ws : List Word} {i : Instr} (h : decodeRest 1 none (some q) ws = .ok i) : GroupOf i (q.toWord :: ws) :=
  match ws with
  | [] => error_ne_ok h
  | _ :: rest => readWord_cases (P := fun ws => GroupOf i (q.toWord :: ws)) ((decodeRest_succ ..).symm.trans h)
      (fun _ _ h => (groupOf_both h).2) (fun _ h => absurd h (Option.some_ne_none _)) fun h hwf => ⟨hwf, encodesGroup_of_ordered h rest⟩

theorem groupOf_decodeRest {ws : List Word} {i : Instr} (h : decodeRest 2 none none ws = .ok i) : GroupOf i ws :=
  match ws with
  | [] => error_ne_ok h
  | _ :: rest => readWord_cases ((decodeRest_succ ..).symm.trans h) (fun _ _ h => groupOf_pfxi h) (fun _ _ h => groupOf_pfxp h)
      fun h hwf => ⟨hwf, encodesGroup_of_ordered h rest⟩

/-- What follows PFXJ (R184). -/
noncomputable def pfxjRest (w : Word) (rest : List Word) : Except DecodeError Instr :=
  match rest with
  | b :: _ =>
    if (wOp b).toNat = 0x0B then
      if b.extractLsb' 20 2 = 0 then .ok (.bspl (wImm25 w) (b.extractLsb' 22 3) (wBit b 19) (wOff19 b)) else .error .illegalField
    else .error .prefixGroup
  | [] => .error .prefixGroup

theorem decodeGroup_pfxj {w : Word} (hw : (wOp w).toNat = 0x0F) (rest : List Word) : decodeGroup (w :: rest) = pfxjRest w rest := by
  have hgroup : decodeGroup (w :: rest) = match (wOp w).toNat with
      | 0x0F => pfxjRest w rest
      | _ => decodeRest 2 none none (w :: rest) := rfl
  rw [hgroup, hw]
  rfl

/-- PFXJ and BSPL are one instruction (R184). -/
theorem groupOf_pfxj {w : Word} (hw : (wOp w).toNat = 0x0F) {rest : List Word} {i : Instr}
    (h : decodeGroup (w :: rest) = .ok i) : GroupOf i (w :: rest) := by
  rw [decodeGroup_pfxj hw] at h
  match rest with
  | [] => exact error_ne_ok h
  | b :: rest =>
    dsimp only [pfxjRest] at h
    split at h
    case isFalse => exact error_ne_ok h
    case isTrue hb =>
      split at h
      case isFalse => exact error_ne_ok h
      case isTrue hz =>
        obtain rfl := Except.ok.inj h
        have hfirst : mkJ 0x0F (wImm25 w) = w := mkJ_eq_iff.mpr ⟨eq_ofNat hw, rfl⟩
        have hsecond : mkB 0x0B (b.extractLsb' 22 3) (0#2 ++ BitVec.ofBool (wBit b 19)) (wOff19 b) = b :=
          mkB_eq_iff.mpr ⟨eq_ofNat hb, rfl, (condition_bspl _ _).mpr ⟨hz, rfl⟩, rfl⟩
        have hlen : groupLength (w :: b :: rest) = 2 := by simp [groupLength, hw]
        refine ⟨rfl, .inl ?_⟩
        rw [hlen]
        exact congrArg₂ (fun v u => [v, u]) hfirst hsecond

theorem groupOf_decodeGroup {ws : List Word} {i : Instr} (h : decodeGroup ws = .ok i) : GroupOf i ws := by
  match ws with
  | [] => exact error_ne_ok h
  | w :: rest =>
    by_cases hw : (wOp w).toNat = 0x0F
    · exact groupOf_pfxj hw h
    · rw [decodeGroup_of_not_pfxj hw] at h
      exact groupOf_decodeRest h

theorem groupLength_pos (ws : List Word) : 0 < groupLength ws := by
  unfold groupLength
  repeat' split
  all_goals omega

/-- Settles O2: what decodes is a reading of a word after its prefixes, and its encoding gives these back; no device event
has words. -/
theorem decodedGroupsEncode : Obligations.DecodedGroupsEncode := by
  intro ws i h
  obtain ⟨hwf, henc⟩ := groupOf_decodeGroup h
  refine ⟨hwf, ?_, henc⟩
  rw [← Bool.not_eq_true]
  intro he
  have hnil := (encodedInstructionsDecode i).2 he
  rcases henc with henc | ⟨a, b, c, -, henc⟩
  · have hpos := groupLength_pos ws
    rw [hnil, eq_comm, List.take_eq_nil_iff] at henc
    obtain hlen | rfl := henc
    · omega
    · cases h
  · exact absurd (hnil.symm.trans henc) nofun

end Sys2Proof.Proofs.Encoding
end

section
/-!
Chapter 11 (lane instructions): results, flags and frames (R229 to R250).
-/

namespace Sys2Proof.Proofs.Lanes

open Sys2Proof Sys2Proof.Machine Sys2Proof.Proofs.Execution Sys2Proof.Proofs.Control

/-! ### Lane integer arithmetic -/

/-- An admitted lane instruction completes and writes the effective lanes of `rd` and its flags, whatever `r` computes in a
lane. -/
theorem lane_completes {s : State} (hs : s.issuing = true) {i : Instr} (hl : s.legal i = true) (p : Pfx) (rd : Reg)
    (r : State → Nat → Fl Word) {f : Nat → Word} {fl : Nat → Word} (hf : ∀ n, (r s n).val = f n)
    (hfl : ∀ n, (r s n).flags = fl n) :
    ∃ t, (Host.Outcome.next (guarded i (fun s => laneOp p rd (r s) s) s) : Out) = .next t ∧
      WritesLanes s t s.next rd (s.eff p) f (laneFlags s (s.eff p) fl) :=
  next_of_legal hl ((laneOp_writesLanes hs p rd (r s)).of_eq (funext hf) (congrArg _ (funext hfl)))

/-- An admitted comparison completes and writes the effective lanes' bits of `kd` and its flags. -/
theorem compare_completes {s : State} (hs : s.issuing = true) {i : Instr} (hl : s.legal i = true) (p : Pfx) (kd : Reg3)
    (r : State → Nat → Fl Bool) {f : Nat → Bool} {fl : Nat → Word} (hf : ∀ n, (r s n).val = f n)
    (hfl : ∀ n, (r s n).flags = fl n) :
    ∃ t, (Host.Outcome.next (guarded i (fun s => laneCmp p kd (r s) s) s) : Out) = .next t ∧
      WritesMask s t s.next kd (s.eff p) (fun n => decide (n < s.cls.lanes) && f n) (laneFlags s (s.eff p) fl) := by
  refine next_of_legal hl ((laneCmp_writesMask hs p kd (r s)).of_eq (funext fun n => ?_) (congrArg _ (funext hfl)))
  rw [hf]

theorem setWidth_ofInt (k : Int) : (BitVec.ofInt 64 k).setWidth 32 = BitVec.ofInt 32 k := by
  apply BitVec.eq_of_toNat_eq
  have hdvd : k % 2 ^ 64 % 2 ^ 32 = k % 2 ^ 32 := Int.emod_emod_of_dvd k (by decide)
  rw [BitVec.toNat_setWidth, BitVec.toNat_ofInt, BitVec.toNat_ofInt]
  exact (Int.toNat_emod (Int.emod_nonneg k (by decide)) (by decide)).symm.trans (congrArg Int.toNat hdvd)

/-- The low half of the immediate, added, is its number modulo 2^32 (R185, R237). -/
theorem add_imm32 (a : Word) (x : Imx) (imm : BitVec 11) :
    a + (imm64 x imm).setWidth 32 = BitVec.ofInt 32 (a.toInt + immInt x imm) := by
  rw [imm64_eq_ofInt, setWidth_ofInt, BitVec.ofInt_add, BitVec.ofInt_toInt]

theorem vunSource_eq (s : State) (fn : VunFn) (ra : Reg) (i : Nat) :
    vunSource s fn ra i = if fn = .bcst then s.lowS ra else if fn = .lane then BitVec.ofNat 32 i else s.getV ra i := by
  cases fn <;> rfl

/-- Settles O10: every instruction of the family is one `laneOp`, with its value's and its flags' specification. -/
theorem laneIntegerResults : Obligations.LaneIntegerResults := by
  refine fun s hs => ⟨?valu, ?valus, ?vmad, ?vun, ?vsel, ?vaddi, ?vshi, ?vpack⟩
  case valu =>
    exact fun p fn rd ra rb hl =>
      lane_completes hs hl p rd (fun s i => alu fn (s.getV ra i) (s.getV rb i)) (fun _ => alu_val ..) (fun _ => alu_flags ..)
  case valus =>
    exact fun p fn rd ra rb hl =>
      lane_completes hs hl p rd (fun s i => alu fn (s.getV ra i) (s.lowS rb)) (fun _ => alu_val ..) (fun _ => alu_flags ..)
  case vmad =>
    exact fun p fn rd ra rb hl =>
      lane_completes hs hl p rd (fun s i => mad fn (s.getV ra i) (s.laneB (Pfxp.rbsOf p) rb i) (s.getV rd i))
        (fun _ => mad_val ..) (fun _ => mad_flags ..)
  case vun =>
    exact fun p fn rd ra hl =>
      lane_completes hs hl p rd (fun s i => ⟨vunary fn (vunSource s fn ra i), 0⟩)
        (fun i => (vunary_spec fn _).trans (congrArg _ (vunSource_eq s fn ra i))) (fun _ => rfl)
  case vsel =>
    exact fun p rd ra rb k hl =>
      lane_completes hs hl p rd
        (fun s i => ⟨if (s.getK k).getLsbD i then s.getV ra i else s.laneB (Pfxp.rbsOf p) rb i, 0⟩) (fun _ => rfl) (fun _ => rfl)
  case vaddi =>
    exact fun x p rd ra imm hl =>
      lane_completes hs hl p rd (fun s i => ⟨s.getV ra i + (imm64 x imm).setWidth 32, 0⟩) (fun _ => add_imm32 ..) (fun _ => rfl)
  case vshi =>
    exact fun p kind rd ra n hl =>
      lane_completes hs hl p rd (fun s i => ⟨shiftK kind (s.getV ra i) n.toNat, 0⟩) (fun _ => shiftK_spec ..) (fun _ => rfl)
  case vpack =>
    exact fun p fn rd ra rb hl =>
      lane_completes hs hl p rd (fun s i => ⟨vpack fn (s.getV ra i) (s.laneB (Pfxp.rbsOf p) rb i) (s.getV rd i), 0⟩)
        (fun _ => vpack_spec ..) (fun _ => rfl)

/-- Settles O11: each comparison is one `laneCmp`. -/
theorem laneCompares : Obligations.LaneCompares := by
  refine fun s hs => ⟨?vcmp, ?vcmps, ?fcmp⟩
  case vcmp =>
    exact fun p fn kd ra rb hl =>
      compare_completes hs hl p kd (fun s i => ⟨cmp fn (s.getV ra i) (s.getV rb i), 0⟩) (fun _ => cmp_spec ..) (fun _ => rfl)
  case vcmps =>
    exact fun p fn kd ra rb hl =>
      compare_completes hs hl p kd (fun s i => ⟨cmp fn (s.getV ra i) (s.lowS rb), 0⟩) (fun _ => cmp_spec ..) (fun _ => rfl)
  case fcmp =>
    exact fun p fn kd ra rb hl =>
      compare_completes hs hl p kd (fun s i => fcmp fn (s.getV ra i) (s.laneB (Pfxp.rbsOf p) rb i)) (fun _ => rfl)
        (fun _ => rfl)

/-! ### NaN operands (R77, R240 to R243) -/

theorem neg_isNan (a : FpVal) : a.neg.isNan = a.isNan := by cases a <;> rfl
theorem neg_isSig (a : FpVal) : a.neg.isSig = a.isSig := by cases a <;> rfl

theorem exists_eq_nan {a : FpVal} (h : a.isNan = true) : ∃ sig, a = .nan sig := by
  cases a with
  | nan sig => exact ⟨sig, rfl⟩
  | _ => contradiction

theorem fma_nan_left (f : Fmt) (sig : Bool) (b c : FpVal) : f.fma (.nan sig) b c = f.nanR (sig || b.isSig || c.isSig) := by
  cases b <;> rfl

theorem fma_nan_right (f : Fmt) (a : FpVal) (sig : Bool) (c : FpVal) : f.fma a (.nan sig) c = f.nanR (a.isSig || sig || c.isSig) := by
  cases a <;> rfl

theorem fma_val_nan_addend (f : Fmt) (a b : FpVal) (sig : Bool) : (f.fma a b (.nan sig)).val = f.qnan := by
  cases a with
  | nan => exact congrArg Fl.val (fma_nan_left ..)
  | inf =>
    cases b with
    | fin => exact (apply_ite Fl.val ..).trans (ite_self _)
    | _ => rfl
  | fin =>
    cases b with
    | inf => exact (apply_ite Fl.val ..).trans (ite_self _)
    | _ => rfl

/-- A NaN among the operands of a fused operation gives the one quiet NaN. -/
theorem fma_val_of_nan (f : Fmt) {a b c : FpVal} (h : a.isNan = true ∨ b.isNan = true ∨ c.isNan = true) :
    (f.fma a b c).val = f.qnan := by
  rcases h with h | h | h <;> obtain ⟨sig, rfl⟩ := exists_eq_nan h
  · exact congrArg Fl.val (fma_nan_left ..)
  · exact congrArg Fl.val (fma_nan_right ..)
  · exact fma_val_nan_addend f a b sig

/-- A NaN factor or addend of a sum sets NV when one of them signals. -/
theorem add_of_nan (f : Fmt) {a b : FpVal} (h : a.isNan = true ∨ b.isNan = true) :
    f.fma a one b = ⟨f.qnan, flagIf (a.isSig || b.isSig) fNV⟩ := by
  have hleft (sig : Bool) : f.fma (.nan sig) one b = f.nanR (sig || b.isSig) :=
    (fma_nan_left f sig one b).trans (congrArg (fun x => f.nanR (x || b.isSig)) (Bool.or_false sig))
  rcases h with h | h <;> obtain ⟨sig, rfl⟩ := exists_eq_nan h
  · exact hleft sig
  · cases a with
    | nan sig' => exact hleft sig'
    | _ => rfl

theorem mul_of_nan (f : Fmt) {a b : FpVal} (h : a.isNan = true ∨ b.isNan = true) :
    f.mul a b = ⟨f.qnan, flagIf (a.isSig || b.isSig) fNV⟩ := by
  rcases h with h | h <;> obtain ⟨sig, rfl⟩ := exists_eq_nan h
  · exact (fma_nan_left f sig b negZero).trans (congrArg f.nanR (Bool.or_false _))
  · exact (fma_nan_right f a sig negZero).trans (congrArg f.nanR (Bool.or_false _))

/-- With a NaN among two words the other one is chosen, if it is a number. -/
theorem choice_of_nan {p q : Bool} (h : p = true ∨ q = true) (x y fl : Word) (r : Fl Nat) :
    (if (p && q) = true then (⟨F32.qnan, fl⟩ : Fl Nat) else if p = true then ⟨y.toNat, fl⟩ else if q = true then ⟨x.toNat, fl⟩ else r).word =
      ⟨if p = false then x else if q = false then y else 0x7FC00000, fl⟩ :=
  match p, q with
  | true, true => rfl
  | true, false => congrArg (Fl.mk · fl) ((BitVec.ofNat_toNat 32 y).trans (BitVec.setWidth_eq y))
  | false, true => congrArg (Fl.mk · fl) ((BitVec.ofNat_toNat 32 x).trans (BitVec.setWidth_eq x))
  | false, false => absurd h (by decide)

theorem minMax_of_nan (isMax magnitude : Bool) {a b : Word} (h : (f32 a).isNan = true ∨ (f32 b).isNan = true) :
    (F32.minMax isMax magnitude a.toNat b.toNat).word =
      ⟨if (f32 a).isNan = false then a else if (f32 b).isNan = false then b else 0x7FC00000,
        flagIf ((f32 a).isSig || (f32 b).isSig) fNV⟩ :=
  choice_of_nan h a b _ _

theorem falu_arith_of_nan {fn : FaluFn} {a b : Word} (hfn : fn ∈ [FaluFn.add, .sub, .mul, .absd])
    (h : (f32 a).isNan = true ∨ (f32 b).isNan = true) :
    falu fn a b = ⟨0x7FC00000, flagIf ((f32 a).isSig || (f32 b).isSig) fNV⟩ := by
  have hsub : F32.sub (f32 a) (f32 b) = ⟨F32.qnan, flagIf ((f32 a).isSig || (f32 b).isSig) fNV⟩ :=
    (add_of_nan F32 (by rwa [neg_isNan])).trans (by rw [neg_isSig])
  simp only [List.mem_cons, List.not_mem_nil, or_false] at hfn
  rcases hfn with rfl | rfl | rfl | rfl
  · exact congrArg Fl.word (add_of_nan F32 h)
  · exact congrArg Fl.word hsub
  · exact congrArg Fl.word (mul_of_nan F32 h)
  · exact congrArg (fun r => (F32.absR r).word) hsub

theorem falu_extreme_of_nan {fn : FaluFn} {a b : Word} (hfn : fn ∈ [FaluFn.min, .max, .minm, .maxm])
    (h : (f32 a).isNan = true ∨ (f32 b).isNan = true) :
    falu fn a b = ⟨if (f32 a).isNan = false then a else if (f32 b).isNan = false then b else 0x7FC00000,
      flagIf ((f32 a).isSig || (f32 b).isSig) fNV⟩ := by
  simp only [List.mem_cons, List.not_mem_nil, or_false] at hfn
  rcases hfn with rfl | rfl | rfl | rfl
  · exact minMax_of_nan false false h
  · exact minMax_of_nan true false h
  · exact minMax_of_nan false true h
  · exact minMax_of_nan true true h

theorem ffma_of_nan (fn : FmaFn) {a b c : Word}
    (h : (f32 a).isNan = true ∨ (f32 b).isNan = true ∨ (f32 c).isNan = true) : (ffma fn a b c).val = 0x7FC00000 := by
  have hval {x y z : FpVal} (hx : x.isNan = true ∨ y.isNan = true ∨ z.isNan = true) :
      (F32.fma x y z).word.val = 0x7FC00000 := congrArg (BitVec.ofNat 32) (fma_val_of_nan F32 hx)
  cases fn
  · exact hval h
  · exact hval (by rwa [neg_isNan])
  · exact hval (by rwa [neg_isNan, neg_isNan])
  · exact hval (by rwa [neg_isNan])

/-- Inverting the top bit is adding or taking 2^31. -/
theorem xor_top (a : Word) :
    a ^^^ 0x80000000 = BitVec.ofNat 32 (a.toNat % 2 ^ 31 + if bit a.toNat 31 then 0 else 2 ^ 31) := by
  have hlow : (a.setWidth 31).toNat = a.toNat % 2 ^ 31 := BitVec.toNat_setWidth ..
  have hcons : a ^^^ 0x80000000 = BitVec.cons (!a.msb) (a.setWidth 31) := by
    have hxor := BitVec.cons_xor_cons (a.setWidth 31) (0#31) a.msb true
    rw [BitVec.xor_zero, Bool.xor_true] at hxor
    exact (congrArg (· ^^^ 0x80000000) (BitVec.cons_msb_setWidth a).symm).trans hxor
  have htop : bit a.toNat 31 = a.msb := (BitVec.msb_eq_getLsbD_last a).symm
  rw [hcons, htop, ← hlow, Nat.add_comm]
  refine (BitVec.setWidth_eq _).symm.trans ((BitVec.ofNat_toNat 32 _).symm.trans
    (congrArg (BitVec.ofNat 32) (BitVec.toNat_cons'.trans (congrArg (· + (a.setWidth 31).toNat) ?_))))
  cases a.msb <;> rfl

theorem signOp_of_number {a : Word} (h : (f32 a).isNan = false) (clear : Bool) :
    (F32.signOp clear a.toNat).word.val = if clear then a &&& 0x7FFFFFFF else a ^^^ 0x80000000 := by
  have hlow : a &&& 0x7FFFFFFF = BitVec.ofNat 32 (a.toNat % 2 ^ 31) := by
    apply BitVec.eq_of_toNat_eq
    rw [BitVec.toNat_and, BitVec.toNat_ofNat]
    exact (Nat.and_two_pow_sub_one_eq_mod a.toNat 31).trans
      (Nat.mod_eq_of_lt ((Nat.mod_lt _ (by decide)).trans (by decide : 2 ^ 31 < 2 ^ 32))).symm
  have hnum : F32.signOp clear a.toNat =
      ⟨if clear then a.toNat % 2 ^ 31 else a.toNat % 2 ^ 31 + F32.sign (!bit a.toNat 31), 0⟩ := by
    unfold Fmt.signOp
    rw [show F32.decode a.toNat = f32 a from rfl]
    simp [h, F32]
  rw [hnum]
  cases clear
  · rw [xor_top]
    cases bit a.toNat 31 <;> rfl
  · rw [hlow]
    rfl

/-! ### The wide HFMA writes a pair (R50, R245) -/

theorem getV_setV (s : State) (rd : Reg) (eff : Mask) (f : Nat → Word) {i : Nat} (hi : i < s.cls.lanes) :
    (s.setV rd eff f).getV rd i = if eff.getLsbD i then f i else s.getV rd i := by
  unfold State.setV
  split
  case isTrue he => simp [he]
  case isFalse => exact Cls.getV_setP s.cls rd eff f i hi

theorem getP_setV_other (s : State) (rd : Reg) (eff : Mask) (f : Nat → Word) {q : Nat} (hq : q ≠ s.cls.phys rd) (i : Nat) :
    (s.setV rd eff f).cls.getP q i = s.cls.getP q i := by
  unfold State.setV
  split
  · rfl
  · exact Cls.getP_setP_other s.cls _ q eff f i hq

theorem getV_setV_other (s : State) {rd r : Reg} (hr : r ≠ rd) (eff : Mask) (f : Nat → Word) (i : Nat) :
    (s.setV rd eff f).getV r i = s.getV r i := by
  have hphys : (s.setV rd eff f).cls.phys r = s.cls.phys r := by
    unfold State.setV
    split <;> rfl
  unfold State.getV Cls.getV
  rw [hphys]
  exact getP_setV_other s rd eff f (fun h => hr ((Cls.phys_inj s.cls r rd).mp h)) i

theorem setV_splits (s : State) (rd : Reg) (eff : Mask) (f : Nat → Word) : (s.setV rd eff f).cls.splits = s.cls.splits := by
  unfold State.setV
  split <;> rfl

theorem setV_lanes (s : State) (rd : Reg) (eff : Mask) (f : Nat → Word) : (s.setV rd eff f).cls.lanes = s.cls.lanes := by
  unfold State.setV
  split <;> rfl

theorem setV_phys (s : State) (rd : Reg) (eff : Mask) (f : Nat → Word) : (s.setV rd eff f).cls.phys = s.cls.phys := by
  unfold State.setV
  split <;> rfl

theorem setV_issuing {s : State} (hs : s.issuing = true) (rd : Reg) (eff : Mask) (f : Nat → Word) :
    (s.setV rd eff f).issuing = true := by
  unfold State.setV
  split
  · exact hs
  · exact issuing_congr rfl rfl rfl rfl rfl rfl hs

theorem orFlags_setV_outside (s : State) (fl : Word) (rd : Reg) (eff : Mask) (f : Nat → Word) :
    { (s.orFlags fl).setV rd eff f with cls := s.cls } = s := by
  unfold State.setV
  split <;> rfl

/-- Everything of the class that a lane write does not name is as before. -/
theorem orFlags_setV_frame (s : State) (fl : Word) (rd : Reg) (eff : Mask) (f : Nat → Word) :
    { ((s.orFlags fl).setV rd eff f).cls with
      splits := s.cls.splits, v := s.cls.v, cstat := s.cls.cstat, poisonV := s.cls.poisonV } = s.cls := by
  unfold State.setV
  split <;> rfl

/-- A class that agrees but for its lane registers, flags and marks names the same physical registers. -/
theorem phys_congr {c d : Cls} (h : { d with splits := c.splits, v := c.v, cstat := c.cstat, poisonV := c.poisonV } = c)
    (r : Reg) : d.phys r = c.phys r := by
  have hwb := congrArg (fun e : Cls => e.phys r) h
  exact hwb

/-- The group completed and wrote the lanes of `eff` of `rd` and of the register after it. -/
structure WritesPair (s t : State) (rd : Reg) (eff : Mask) (f g : Nat → Word) : Prop where
  on      : GoesOn s t s.next
  outside : OutsideKept s t
  low     : ∀ i, i < s.cls.lanes → t.getV rd i = if eff.getLsbD i then f i else s.getV rd i
  high    : ∀ i, i < s.cls.lanes → t.getV (rd + 1) i = if eff.getLsbD i then g i else s.getV (rd + 1) i
  others  : ∀ q, q ≠ s.cls.phys rd → q ≠ s.cls.phys (rd + 1) → ∀ i, t.cls.getP q i = s.cls.getP q i
  cls     : { t.cls with splits := s.cls.splits, v := s.cls.v, cstat := s.cls.cstat, poisonV := s.cls.poisonV } = s.cls

theorem setV_setV_writesPair {s : State} (hs : s.issuing = true) (rd : Reg) (eff : Mask) (f g : Nat → Word) (fl : Word) :
    WritesPair s (retire (((s.orFlags fl).setV rd eff f).setV (rd + 1) eff g)) rd eff f g := by
  have hne : rd ≠ rd + 1 := fun h => absurd (BitVec.self_eq_add_right.mp h) (by decide)
  have hiss : (s.orFlags fl).issuing = true := issuing_congr rfl rfl rfl rfl rfl rfl hs
  have hw := setV_retire_writesLanes (setV_issuing hiss rd eff f) (rd + 1) eff g
  have hsplits := setV_splits (s.orFlags fl) rd eff f
  have hlatch := setV_iss (s.orFlags fl) rd eff f
  have hlanes := setV_lanes (s.orFlags fl) rd eff f
  have hphys := setV_phys (s.orFlags fl) rd eff f
  have hcur : ((s.orFlags fl).setV rd eff f).cur = s.cur := by
    unfold State.cur Cls.split
    rw [hsplits, hlatch]
    rfl
  refine ⟨⟨?_, hw.on.age, ?_, fun j hj => ?_, hw.on.issue.trans hlatch⟩, ?_, fun i hi => ?_, fun i hi => ?_,
    fun q hq hq' i => ?_, ?_⟩
  · exact hw.on.pc.trans (State.setV_next (s.orFlags fl) rd eff f)
  · have hkept := hw.on.cur
    rwa [hcur] at hkept
  · refine (hw.on.splits j (by rwa [hlatch])).trans ?_
    unfold Cls.split
    rw [hsplits]
    rfl
  · exact OutsideKept.of_class_update (orFlags_setV_outside s fl rd eff f) hw.outside
  · refine Eq.trans ?_ (getV_setV (s.orFlags fl) rd eff f hi)
    unfold State.getV Cls.getV
    rw [phys_congr hw.cls]
    exact hw.others _ (fun h => hne ((Cls.phys_inj _ _ _).mp h)) i
  · rw [hw.value i (by rwa [hlanes]), getV_setV_other _ hne.symm]
    rfl
  · exact (hw.others q (by rwa [hphys]) i).trans (getP_setV_other (s.orFlags fl) rd eff f hq i)
  · have hkept := congrArg (fun c : Cls =>
      { c with splits := s.cls.splits, v := s.cls.v, cstat := s.cls.cstat, poisonV := s.cls.poisonV }) hw.cls
    exact hkept.trans (orFlags_setV_frame s fl rd eff f)

/-- Element `e` of the wide HFMA in lane `i` (R245). -/
noncomputable def wideElem (s : State) (p : Pfx) (bf : Bool) (rd ra rb : Reg) (e i : Nat) : Fl Word :=
  hfmaWide bf e (s.getV ra i) (s.laneB (Pfxp.rbsOf p) rb i) (s.getV (rd + BitVec.ofNat 7 e) i)

/-- Settles O12: every narrow instruction of the family is one `laneOp`, the wide HFMA two lane writes, and the NaN rules are
those of the fused operation, of the extremes and of the sign. -/
theorem laneFloatResults : Obligations.LaneFloatResults := by
  refine ⟨fun s hs => ⟨?falu, ?falus, ?ffma, ?funit, ?halu, ?hfma, ?cvt, ?pack, ?unpack, ?expd⟩, ?wide, ?arith, ?extreme,
    fun fn a b c => ffma_of_nan fn, ?sign, fun a b => rfl, by decide⟩
  case falu =>
    exact fun p fn rd ra rb hl =>
      lane_completes hs hl p rd (fun s i => falu fn (s.getV ra i) (s.getV rb i)) (fun _ => rfl) (fun _ => rfl)
  case falus =>
    exact fun p fn rd ra rb hl =>
      lane_completes hs hl p rd (fun s i => falu fn (s.getV ra i) (s.lowS rb)) (fun _ => rfl) (fun _ => rfl)
  case ffma =>
    exact fun p fn sc rd ra rb hl =>
      lane_completes hs hl p rd (fun s i => ffma fn (s.getV ra i) (s.laneB sc rb i) (s.getV rd i)) (fun _ => rfl)
        (fun _ => rfl)
  case funit =>
    exact fun p fn rd ra hl =>
      lane_completes hs hl p rd (fun s i => funit fn (s.getV ra i)) (fun _ => rfl) (fun _ => rfl)
  case halu =>
    exact fun p bf fn rd ra rb hl =>
      lane_completes hs hl p rd (fun s i => halu bf fn (s.getV ra i) (s.laneB (Pfxp.rbsOf p) rb i)) (fun _ => rfl)
        (fun _ => rfl)
  case hfma =>
    exact fun p bf rd ra rb hl =>
      lane_completes hs hl p rd (fun s i => hfma2 bf (s.getV ra i) (s.laneB (Pfxp.rbsOf p) rb i) (s.getV rd i)) (fun _ => rfl)
        (fun _ => rfl)
  case cvt =>
    exact fun p fn rd ra rb hl =>
      lane_completes hs hl p rd (fun s i => cvt fn (s.getV ra i) (s.laneB (Pfxp.rbsOf p) rb i)) (fun _ => rfl) (fun _ => rfl)
  case pack =>
    exact fun p e5 hi sat rd ra rb hl =>
      lane_completes hs hl p rd
        (fun s i => cvt8Pack e5 hi sat (s.getV ra i) (s.laneB (Pfxp.rbsOf p) rb i) (s.getV rd i)) (fun _ => rfl) (fun _ => rfl)
  case unpack =>
    exact fun p e5 byte rd ra hl =>
      lane_completes hs hl p rd (fun s i => cvt8Unpack e5 byte (s.getV ra i)) (fun _ => rfl) (fun _ => rfl)
  case expd =>
    exact fun p kind hi rd ra rb hl =>
      lane_completes hs hl p rd
        (fun s i => ⟨expdLane kind hi (s.getV ra i) (fun j => s.getV (rb + BitVec.ofNat 7 j) i), 0⟩) (fun _ => rfl)
        (fun _ => rfl)
  case wide =>
    intro s p bf rd ra rb hs hwf hl
    have hzero : rd + BitVec.ofNat 7 0 = rd := BitVec.add_zero rd
    have hw := setV_setV_writesPair hs rd (s.eff p) (fun i => (wideElem s p bf rd ra rb 0 i).val)
      (fun i => (wideElem s p bf rd ra rb 1 i).val)
      (flagsOver s.cls.lanes (s.eff p)
        (fun i => (wideElem s p bf rd ra rb 0 i).flags ||| (wideElem s p bf rd ra rb 1 i).flags))
    have hread (t : State) (i : Nat) (e : Fin 2) :
        t.getV (rd + BitVec.ofNat 7 e) i = if e = 0 then t.getV rd i else t.getV (rd + 1) i := by
      match e with
      | 0 => exact congrArg (t.getV · i) hzero
      | 1 => rfl
    refine next_of_legal hl ⟨hw.on, hw.outside, fun i hi he e => ?_, fun i hi he e => ?_, hw.others, hw.cls⟩
    · refine (hread _ i e).trans ?_
      match e with
      | 0 => exact (hw.low i hi).trans (if_pos he)
      | 1 => exact (hw.high i hi).trans (if_pos he)
    · refine (hread _ i e).trans (Eq.trans ?_ (hread s i e).symm)
      have hoff : ¬ (s.eff p).getLsbD i = true := by simp [he]
      match e with
      | 0 => exact (hw.low i hi).trans (if_neg hoff)
      | 1 => exact (hw.high i hi).trans (if_neg hoff)
  case arith =>
    intro fn a b hfn h
    rw [falu_arith_of_nan hfn h]
    exact ⟨rfl, rfl⟩
  case extreme =>
    intro fn a b hfn h
    rw [falu_extreme_of_nan hfn h]
    exact ⟨rfl, rfl⟩
  case sign => exact fun a h => ⟨signOp_of_number h true, signOp_of_number h false⟩

end Sys2Proof.Proofs.Lanes
end

section
/-!
Chapters 10 and 11 (exchange and reductions across the class, mask operations): VOTE, SHFL, REDI, REDF and KOP (R214, R215, R222,
R249, R250).
-/

namespace Sys2Proof.Proofs.Exchange

open Sys2Proof Sys2Proof.Machine Sys2Proof.Proofs.Execution Sys2Proof.Proofs.Layer Sys2Proof.Proofs.Control

/-! ### Live lanes and counts -/

theorem getLsbD_liveM (c : Cls) (i : Nat) : c.liveM.getLsbD i = (decide (i < 1024) && decide (i < c.lanes)) := by
  unfold Cls.liveM liveMask
  rw [BitVec.getLsbD_ofNat, Nat.testBit_two_pow_sub_one]

/-- A mask has a live lane when it meets the live lanes. -/
theorem and_liveM_ne_zero {c : Cls} (hc : c.lanes ≤ 1024) (m : Mask) :
    m &&& c.liveM ≠ 0 ↔ (List.range c.lanes).any (fun i => m.getLsbD i) = true := by
  rw [List.any_eq_true]
  constructor
  · intro h
    by_contra hno
    refine h (BitVec.eq_of_getLsbD_eq fun i hi => ?_)
    rw [BitVec.getLsbD_and, getLsbD_liveM]
    by_cases hlt : i < c.lanes
    · have hm : m.getLsbD i = false := by
        by_contra hb
        exact hno ⟨i, List.mem_range.mpr hlt, by simpa using hb⟩
      simp [hm]
    · simp [hlt]
  · rintro ⟨i, hi, hm⟩ h
    have hi' := List.mem_range.mp hi
    have hbit := congrArg (fun x : Mask => x.getLsbD i) h
    simp only [BitVec.getLsbD_and, getLsbD_liveM, hm] at hbit
    simp [hi', show i < 1024 by omega] at hbit

/-- A mask holds every live lane when its live part is the live lanes. -/
theorem and_liveM_eq {c : Cls} (hc : c.lanes ≤ 1024) (m : Mask) :
    m &&& c.liveM = c.liveM ↔ (List.range c.lanes).all (fun i => m.getLsbD i) = true := by
  rw [List.all_eq_true]
  constructor
  · intro h i hi
    have hi' := List.mem_range.mp hi
    have hbit := congrArg (fun x : Mask => x.getLsbD i) h
    simp only [BitVec.getLsbD_and, getLsbD_liveM] at hbit
    simpa [hi', show i < 1024 by omega] using hbit
  · intro h
    refine BitVec.eq_of_getLsbD_eq fun i hi => ?_
    rw [BitVec.getLsbD_and, getLsbD_liveM]
    by_cases hlt : i < c.lanes
    · rw [h i (List.mem_range.mpr hlt), Bool.true_and]
    · simp [hlt]

theorem laneCount_eq (lanes : Nat) (m : Mask) : laneCount lanes m = (List.range lanes).countP (fun i => m.getLsbD i) := by
  unfold laneCount lanesOf
  rw [List.countP_eq_length_filter]

theorem laneCount_liveM {c : Cls} (hc : c.lanes ≤ 1024) (m : Mask) :
    laneCount c.lanes (m &&& c.liveM) = (List.range c.lanes).countP (fun i => m.getLsbD i) := by
  rw [laneCount_eq]
  refine List.countP_congr fun i hi => ?_
  have hi' := List.mem_range.mp hi
  rw [BitVec.getLsbD_and, getLsbD_liveM]
  simp [hi', show i < 1024 by omega]

/-! ### The vote and the shuffle -/

theorem voteValue_eq (s : State) (ra : Reg) :
    voteValue s .eq ra = if ∀ i, i < s.cls.lanes → s.getV ra i = s.getV ra 0 then 1 else 0 := by
  unfold voteValue
  refine if_congr ?_ rfl rfl
  simp [List.all_eq_true]

/-- An admitted class-wide instruction of a whole class does what its body does. -/
theorem whole_completes {s : State} (hw : s.wholeClass = true) {i : Instr} (hl : s.legal i = true) {body : State → State}
    {P : State → Prop} (hp : P (body s)) :
    ∃ t, (Host.Outcome.next (guarded i (classWide body) s) : Out) = .next t ∧ P t :=
  next_of_legal hl (by rwa [classWide_whole hw])

/-! ### REDI's folds -/

theorem sum_signExtend (xs : List Word) (acc : DWord) :
    xs.foldl (fun acc x => acc + x.signExtend 64) acc = acc + BitVec.ofInt 64 (xs.map (fun a => a.toInt)).sum := by
  induction xs generalizing acc with
  | nil => simp
  | cons x xs ih =>
    rw [List.foldl_cons, ih, List.map_cons, List.sum_cons, BitVec.ofInt_add, BitVec.add_assoc]
    rfl

/-- A fold that keeps one of its two arguments, the better by a total order, ends at a best element. -/
theorem foldl_extreme {α : Type} (f : α → α → α) (r : α → α → Prop) (hrefl : ∀ a, r a a)
    (htrans : ∀ a b c, r a b → r b c → r a c) (hf : ∀ a b, (f a b = a ∧ r a b) ∨ (f a b = b ∧ r b a)) (x : α) (xs : List α) :
    xs.foldl f x ∈ x :: xs ∧ ∀ b ∈ x :: xs, r (xs.foldl f x) b := by
  induction xs generalizing x with
  | nil => exact ⟨List.mem_cons_self, List.forall_mem_singleton.mpr (hrefl x)⟩
  | cons y ys ih =>
    obtain ⟨hmem, hbest⟩ := ih (f x y)
    have hfirst := hbest _ List.mem_cons_self
    have hrest : ∀ b ∈ ys, r (ys.foldl f (f x y)) b := fun b hb => hbest b (List.mem_cons_of_mem _ hb)
    rw [List.foldl_cons]
    rcases hf x y with ⟨he, hr⟩ | ⟨he, hr⟩
    · rw [he] at hmem hfirst hrest ⊢
      refine ⟨?_, List.forall_mem_cons.mpr ⟨hfirst, List.forall_mem_cons.mpr ⟨htrans _ _ _ hfirst hr, hrest⟩⟩⟩
      exact List.mem_cons.mpr ((List.mem_cons.mp hmem).imp_right (List.mem_cons_of_mem y))
    · rw [he] at hmem hfirst hrest ⊢
      exact ⟨List.mem_cons_of_mem _ hmem, List.forall_mem_cons.mpr ⟨htrans _ _ _ hfirst hr, List.forall_mem_cons.mpr ⟨hfirst, hrest⟩⟩⟩

/-- A fold of words by a function that acts bit by bit is the fold of their bits. -/
theorem getLsbD_foldl {f : Word → Word → Word} {g : Bool → Bool → Bool}
    (h : ∀ a b j, (f a b).getLsbD j = g (a.getLsbD j) (b.getLsbD j)) (x : Word) (xs : List Word) (j : Nat) :
    (xs.foldl f x).getLsbD j = (xs.map (fun a => a.getLsbD j)).foldl g (x.getLsbD j) := by
  induction xs generalizing x with
  | nil => rfl
  | cons y ys ih => rw [List.foldl_cons, ih, List.map_cons, List.foldl_cons, h x y j]

/-- The same of the fold extended to 64 bits. -/
theorem getLsbD_foldl_wide {f : Word → Word → Word} {g : Bool → Bool → Bool}
    (h : ∀ a b j, (f a b).getLsbD j = g (a.getLsbD j) (b.getLsbD j)) (x : Word) (xs : List Word) (j : Nat) :
    ((xs.foldl f x).setWidth 64).getLsbD j =
      (decide (j < 32) && (xs.map (fun a => a.getLsbD j)).foldl g (x.getLsbD j)) := by
  rw [BitVec.getLsbD_setWidth]
  by_cases hj : j < 32
  · rw [getLsbD_foldl h]
    simp [hj, show j < 64 by omega]
  · simp [hj, BitVec.getLsbD_of_ge _ _ (Nat.le_of_not_lt hj)]

/-- A choice between two by a test that tells the better. -/
theorem ite_better {α : Type} {r : α → α → Prop} {p : Prop} [Decidable p] {a b : α} (h : p → r a b) (h' : ¬p → r b a) :
    ((if p then a else b) = a ∧ r a b) ∨ ((if p then a else b) = b ∧ r b a) := by
  by_cases hp : p
  · exact .inl ⟨if_pos hp, h hp⟩
  · exact .inr ⟨if_neg hp, h' hp⟩

theorem foldl_least {K : Type} [LinearOrder K] (key : Word → K) {p : Word → Word → Bool} (hp : ∀ {a b}, p a b = true ↔ key a < key b)
    (x : Word) (xs : List Word) : xs.foldl (fun a b => if p a b then a else b) x ∈ x :: xs ∧
      ∀ b ∈ x :: xs, key (xs.foldl (fun a b => if p a b then a else b) x) ≤ key b :=
  foldl_extreme _ (fun a b => key a ≤ key b) (fun _ => le_refl _) (fun _ _ _ => le_trans)
    (fun _ _ => ite_better (r := fun a b => key a ≤ key b) (fun h => (hp.mp h).le) fun h => not_lt.mp fun hlt => h (hp.mpr hlt)) x xs

theorem foldl_greatest {K : Type} [LinearOrder K] (key : Word → K) {p : Word → Word → Bool}
    (hp : ∀ {a b}, p a b = true ↔ key a < key b) (x : Word) (xs : List Word) :
    xs.foldl (fun a b => if p a b then b else a) x ∈ x :: xs ∧
      ∀ b ∈ x :: xs, key b ≤ key (xs.foldl (fun a b => if p a b then b else a) x) :=
  foldl_extreme _ (fun a b => key b ≤ key a) (fun _ => le_refl _) (fun _ _ _ h h' => le_trans h' h)
    (fun _ _ => (ite_better (r := fun a b => key b ≤ key a) (fun h => (hp.mp h).le)
      fun h => not_lt.mp fun hlt => h (hp.mpr hlt)).symm) x xs

theorem foldl_and (b : Bool) (bs : List Bool) : bs.foldl (· && ·) b = (b && bs.all id) := by
  induction bs generalizing b with
  | nil => simp
  | cons c cs ih => rw [List.foldl_cons, ih, List.all_cons, Bool.and_assoc]; rfl

theorem foldl_or (b : Bool) (bs : List Bool) : bs.foldl (· || ·) b = (b || bs.any id) := by
  induction bs generalizing b with
  | nil => simp
  | cons c cs ih => rw [List.foldl_cons, ih, List.any_cons, Bool.or_assoc]; rfl

theorem foldl_xor (b : Bool) (bs : List Bool) : bs.foldl xor b = decide ((b :: bs).countP id % 2 = 1) := by
  induction bs generalizing b with
  | nil => cases b <;> rfl
  | cons c cs ih =>
    rw [List.foldl_cons, ih]
    match b, c with
    | false, _ => rw [Bool.false_xor, List.countP_cons_of_neg (a := false) Bool.false_ne_true]
    | true, false => rfl
    | true, true =>
      rw [List.countP_cons_of_pos (a := true) rfl, List.countP_cons_of_pos (a := true) rfl]
      exact congrArg (fun n => decide (n = 1)) (Nat.add_mod_right _ 2).symm

/-- REDI's value is the reduction that the manual names (R249). -/
theorem rediValue_says (fn : RedFn) (x : Word) (xs : List Word) : RediSays fn (x :: xs) (rediValue fn (x :: xs)) := by
  cases fn
  case add =>
    refine (sum_signExtend (x :: xs) 0).trans ?_
    exact BitVec.zero_add _
  case min =>
    obtain ⟨hmem, hbest⟩ := foldl_least BitVec.toInt BitVec.slt_iff_toInt_lt x xs
    exact ⟨_, hmem, rfl, hbest⟩
  case max =>
    obtain ⟨hmem, hbest⟩ := foldl_greatest BitVec.toInt BitVec.slt_iff_toInt_lt x xs
    exact ⟨_, hmem, rfl, hbest⟩
  case minn =>
    obtain ⟨hmem, hbest⟩ := foldl_least BitVec.toNat BitVec.ult_iff_toNat_lt x xs
    exact ⟨_, hmem, (BitVec.ofNat_toNat ..).symm, hbest⟩
  case maxn =>
    obtain ⟨hmem, hbest⟩ := foldl_greatest BitVec.toNat BitVec.ult_iff_toNat_lt x xs
    exact ⟨_, hmem, (BitVec.ofNat_toNat ..).symm, hbest⟩
  case and =>
    intro j
    refine (getLsbD_foldl_wide (g := (· && ·)) (fun a b j => BitVec.getLsbD_and) x xs j).trans ?_
    rw [foldl_and, List.all_cons, List.all_map]
    rfl
  case or =>
    intro j
    refine (getLsbD_foldl_wide (g := (· || ·)) (fun a b j => BitVec.getLsbD_or) x xs j).trans ?_
    rw [foldl_or, List.any_map]
    by_cases hj : j < 32
    · simp [hj]
    · simp [hj, BitVec.getLsbD_of_ge _ _ (Nat.le_of_not_lt hj)]
  case xor =>
    intro j
    refine (getLsbD_foldl_wide (g := xor) (fun a b j => BitVec.getLsbD_xor) x xs j).trans ?_
    rw [foldl_xor, ← List.map_cons (f := fun a : Word => a.getLsbD j), List.countP_map]
    by_cases hj : j < 32
    · simp only [hj, decide_true, Bool.true_and]
      rfl
    · have hnone : (x :: xs).countP (fun a => a.getLsbD j) = 0 :=
        List.countP_eq_zero.mpr fun a _ => by simp [BitVec.getLsbD_of_ge a j (Nat.le_of_not_lt hj)]
      rw [hnone]
      simp [hj]

/-- Settles O13: each instruction of the family is one write of a register, of the value that its rule names. -/
theorem classWideResults : Obligations.ClassWideResults := by
  refine ⟨fun s hs hw hlanes => ⟨?any, ?all, ?cnt, ?eq, ?shfl, ?redf⟩, ?redi⟩
  case any =>
    exact fun rd ra hl => whole_completes hw hl ((setS_retire_writesScalar hs rd (voteValue s .any ra)).of_eq
      (if_congr (and_liveM_ne_zero hlanes _) rfl rfl) rfl)
  case all =>
    exact fun rd ra hl => whole_completes hw hl ((setS_retire_writesScalar hs rd (voteValue s .all ra)).of_eq
      (if_congr (and_liveM_eq hlanes _) rfl rfl) rfl)
  case cnt =>
    exact fun rd ra hl => whole_completes hw hl ((setS_retire_writesScalar hs rd (voteValue s .cnt ra)).of_eq
      (congrArg (BitVec.ofNat 64) (laneCount_liveM hlanes _)) rfl)
  case eq =>
    exact fun rd ra hl => whole_completes hw hl ((setS_retire_writesScalar hs rd (voteValue s .eq ra)).of_eq
      (voteValue_eq s ra) rfl)
  case shfl =>
    refine fun p op all rd ra rb hl => whole_completes hw hl ((setV_retire_writesLanes hs rd s.cls.liveM
      (fun i => shflLane s op all ra i (s.laneB (Pfxp.rbsOf p) rb i))).of_eq (funext fun i => ?_) rfl)
    unfold shflLane
    rw [Nat.mul_comm 32 (i / 32)]
    cases op <;> rfl
  case redf =>
    refine fun fn rd ra hl => whole_completes hw hl ((scalarOp_writesScalar hs rd _).of_eq ?_ rfl)
    exact (BitVec.ofNat_toNat 64 (redfValue fn _).val).symm
  case redi =>
    intro s fn rd ra hs hw hpos hl
    refine ⟨_, ?_, whole_completes hw hl (scalarOp_writesScalar hs rd _)⟩
    obtain ⟨n, hn⟩ := Nat.exists_eq_add_one.mpr hpos
    rw [hn, List.range_succ_eq_map, List.map_cons]
    exact rediValue_says fn _ _

/-! ### Mask operations (R222) -/

/-- A write of `m` under `eff`, and of no flag. -/
theorem setK_retire_writesMask {s : State} (hs : s.issuing = true) (kd : Reg3) (eff m : Mask) {f : Nat → Bool}
    (hf : ∀ i, i < 1024 → eff.getLsbD i = true → m.getLsbD i = f i) :
    WritesMask s (retire (s.setK kd eff m)) s.next kd eff f 0 := by
  have hflags : s.orFlags 0 = s := congrArg (fun w => { s with cls := { s.cls with cstat := w } }) BitVec.or_zero
  have hw := setK_writesMask hs kd eff m 0 s.next ((s.setK kd eff m).cls.passPend (s.setK kd eff m).cur.pend) f hf
  unfold retire
  rw [retireAt_eq (by rw [State.setK_stepping]; exact State.issuing_step hs), State.setK_next]
  rw [hflags] at hw
  exact hw

theorem lanesOf_eq_nil {lanes : Nat} {m : Mask} (h : ∀ i, i < lanes → m.getLsbD i = false) : lanesOf lanes m = [] := by
  unfold lanesOf
  exact List.filter_eq_nil_iff.mpr fun i hi => by simp [h i (List.mem_range.mp hi)]

theorem getLast?_lanesOf {lanes : Nat} {m : Mask} {j : Nat} (hj : j < lanes) (hm : m.getLsbD j = true)
    (h : ∀ i, j < i → i < lanes → m.getLsbD i = false) : (lanesOf lanes m).getLast? = some j := by
  obtain ⟨n, rfl⟩ := Nat.exists_eq_add_of_lt hj
  have hrest : ((List.range n).map (j + 1 + ·)).filter (fun i => m.getLsbD i) = [] :=
    List.filter_eq_nil_iff.mpr fun i hi => by
      obtain ⟨k, hk, rfl⟩ := List.mem_map.mp hi
      have hk' := List.mem_range.mp hk
      simp [h (j + 1 + k) (by omega) (by omega)]
  unfold lanesOf
  rw [show j + n + 1 = j + 1 + n by omega, List.range_add, List.filter_append, hrest, List.append_nil, List.range_succ,
    List.filter_append, List.filter_cons_of_pos (by simpa using hm)]
  simp

theorem getLsbD_not (a : Mask) {i : Nat} (hi : i < 1024) : (~~~a).getLsbD i = !a.getLsbD i :=
  BitVec.getLsbD_not.trans ((congrArg (· && _) (decide_eq_true hi)).trans (Bool.true_and _))

theorem getLsbD_andn (a b : Mask) {i : Nat} (hi : i < 1024) : (a &&& ~~~b).getLsbD i = (a.getLsbD i && !b.getLsbD i) :=
  BitVec.getLsbD_and.trans (congrArg (a.getLsbD i && ·) (getLsbD_not b hi))

theorem getLsbD_fromv (s : State) (ra : Reg) {i : Nat} (hi : i < 1024) :
    (maskOf s.cls.lanes fun i => s.getV ra i != 0).getLsbD i =
      (decide (i < s.cls.lanes) && decide (s.getV ra i ≠ 0)) := by
  rw [maskOf_getLsbD, decide_eq_true hi, Bool.true_and, decide_not]
  rfl

/-- Settles O15: each function is one write of a mask register, a scalar or lanes. -/
theorem kopResults : Obligations.KopResults := by
  refine fun s hs => ⟨?mask, ?pop, ?first, ?last, ?tov⟩
  case mask =>
    intro p fn rd ra rb hl hfn
    refine next_of_legal hl ?_
    cases fn with
    | and => exact setK_retire_writesMask hs _ _ _ fun _ _ _ => BitVec.getLsbD_and
    | or => exact setK_retire_writesMask hs _ _ _ fun _ _ _ => BitVec.getLsbD_or
    | xor => exact setK_retire_writesMask hs _ _ _ fun _ _ _ => BitVec.getLsbD_xor
    | andn => exact setK_retire_writesMask hs _ _ _ fun i hi _ => getLsbD_andn _ _ hi
    | not => exact setK_retire_writesMask hs _ _ _ fun i hi _ => getLsbD_not _ hi
    | mov => exact setK_retire_writesMask hs _ _ _ fun _ _ _ => rfl
    | fromv => exact setK_retire_writesMask hs _ _ _ fun i hi _ => getLsbD_fromv _ _ hi
    | clear => exact setK_retire_writesMask hs _ _ _ fun _ _ _ => BitVec.getLsbD_zero
    | fill => exact setK_retire_writesMask hs _ _ _ fun _ _ he => he
    | pop | first | last | tov => exact absurd hfn (by decide)
  case pop =>
    intro p rd ra rb hl
    refine next_of_legal hl ((setS_retire_writesScalar hs rd _).of_eq (congrArg (BitVec.ofNat 64) ?_) rfl)
    rw [laneCount_eq]
    exact List.countP_congr fun i _ => by rw [BitVec.getLsbD_and]
  case first =>
    intro p rd ra rb hl
    have hw := setS_retire_writesScalar hs rd (laneOrOnes (lanesOf s.cls.lanes (s.getK (k3 ra) &&& s.eff p)).head?)
    refine next_of_legal hl ⟨fun hnone => hw.of_eq ?_ rfl, fun j hj hm hbelow => hw.of_eq ?_ rfl⟩
    · rw [lanesOf_eq_nil fun i hi => BitVec.getLsbD_and.trans (hnone i hi)]
      rfl
    · rw [head?_lanesOf hj (BitVec.getLsbD_and.trans hm) fun i hi => BitVec.getLsbD_and.trans (hbelow i hi)]
      rfl
  case last =>
    intro p rd ra rb hl
    have hw := setS_retire_writesScalar hs rd (laneOrOnes (lanesOf s.cls.lanes (s.getK (k3 ra) &&& s.eff p)).getLast?)
    refine next_of_legal hl ⟨fun hnone => hw.of_eq ?_ rfl, fun j hj hm habove => hw.of_eq ?_ rfl⟩
    · rw [lanesOf_eq_nil fun i hi => BitVec.getLsbD_and.trans (hnone i hi)]
      rfl
    · rw [getLast?_lanesOf hj (BitVec.getLsbD_and.trans hm) fun i hi hl => BitVec.getLsbD_and.trans (habove i hi hl)]
      rfl
  case tov =>
    exact fun p rd ra rb hl => next_of_legal hl (setV_retire_writesLanes hs rd (s.eff p) _)

end Sys2Proof.Proofs.Exchange
end

section
/-!
Chapters 2 and 10 (control flow): uniform transfers, splits and joins (R30 to R32, R202, R205 to R211).
-/

namespace Sys2Proof.Proofs.Flow

open Sys2Proof Sys2Proof.Machine Sys2Proof.Proofs.Execution Sys2Proof.Proofs.Layer Sys2Proof.Proofs.Control

/-! ### Uniform transfers -/

/-- A branch to `pc` after a write of a scalar register. -/
theorem setS_branchTo_writesScalar {s : State} (hs : s.issuing = true) (pc : Int) (rd : Reg) (x : DWord) :
    WritesScalar s (branchTo pc (s.setS rd x)) pc rd x 0 := by
  have hflags : s.orFlags 0 = s := congrArg (fun w => { s with cls := { s.cls with cstat := w } }) BitVec.or_zero
  have hstep : (s.setS rd x).stepping = false :=
    (State.stepping_congr (s := s) (t := s.setS rd x) (Cls.setS_level s.cls rd x) (Cls.setS_vmid s.cls rd x) (Cls.setS_asid s.cls rd x)
      rfl).trans (State.issuing_step hs)
  have hw := setS_writesScalar hs pc rd x 0 (((s.setS rd x).cls.passPend (s.setS rd x).cur.pend).map fun p => { p with left := 0 })
  rw [branchTo_eq hstep]
  rw [hflags] at hw
  exact hw

theorem and_not_eq_zero (a k : Mask) : a &&& ~~~k = 0 ↔ k &&& a = a := by
  constructor
  · intro h
    have hor : k &&& a = (k &&& a) ||| (a &&& ~~~k) := by rw [h]; exact BitVec.or_zero.symm
    rw [hor, BitVec.and_comm k a, ← BitVec.and_or_distrib_left, BitVec.or_not_self, BitVec.and_allOnes]
  · intro h
    rw [← h, BitVec.and_comm k a, BitVec.and_assoc, BitVec.and_not_self]
    exact BitVec.and_zero

/-- The condition of BU as a statement about lanes (R208). -/
theorem buTaken_iff (c : BuCond) (k act : Mask) :
    buTaken c k act = true ↔ (match c with
      | .any => k &&& act ≠ 0
      | .all => act &&& ~~~ k = 0
      | .none => k &&& act = 0
      | .nall => act &&& ~~~ k ≠ 0) := by
  cases c
  case any => simp [buTaken]
  case all => simpa [buTaken] using (and_not_eq_zero act k).symm
  case none => simp [buTaken]
  case nall => simpa [buTaken] using (not_congr (and_not_eq_zero act k)).symm

/-- A return address has no bit of 63:57 or 1:0 set when it is a multiple of 4 below 2^57 (R206). -/
theorem misplaced_iff (a : DWord) : (a.extractLsb' 57 7 ≠ 0 ∨ a.extractLsb' 0 2 ≠ 0) ↔ ¬ (a.toNat < 2 ^ 57 ∧ a.toNat % 4 = 0) := by
  have hhigh : a.extractLsb' 57 7 = 0 ↔ a.toNat < 2 ^ 57 := by
    rw [← BitVec.toNat_inj, BitVec.extractLsb'_toNat, Nat.shiftRight_eq_div_pow, Nat.mod_eq_of_lt (b := 2 ^ 7) (Nat.div_lt_of_lt_mul (n := 2 ^ 57) a.isLt)]
    exact Nat.div_eq_zero_iff_lt (by decide)
  have hlow : a.extractLsb' 0 2 = 0 ↔ a.toNat % 4 = 0 := by
    rw [← BitVec.toNat_inj, BitVec.extractLsb'_toNat]
    simp
  rw [← hhigh, ← hlow]
  tauto

/-- Settles O16. -/
theorem uniformTransfers : Obligations.UniformTransfers := by
  refine ⟨fun s hs => ⟨?nop, ?bra, ?call, ?bu, ?bz, ?bnz⟩, ?ret, ?switch⟩
  case nop => exact ⟨_, rfl, retire_writesNothing hs⟩
  case bra => exact fun off => ⟨_, rfl, target_eq s off ▸ branchTo_writesNothing hs _⟩
  case call => exact fun off => ⟨_, rfl, target_eq s off ▸ setS_branchTo_writesScalar hs _ 127 _⟩
  case bu =>
    intro k c off hl
    refine next_of_legal hl ⟨fun h => ?_, fun h => ?_⟩
    · rw [if_pos ((buTaken_iff c _ _).mpr h), target_eq]
      exact branchTo_writesNothing hs _
    · rw [if_neg (fun hb => h ((buTaken_iff c _ _).mp hb))]
      exact branchTo_writesNothing hs _
  case bz =>
    intro ra off hl
    rw [← target_eq]
    exact next_of_legal hl (branchTo_writesNothing hs _)
  case bnz =>
    intro ra off hl
    rw [← target_eq]
    refine next_of_legal hl ?_
    rw [ite_not]
    exact branchTo_writesNothing hs _
  case ret =>
    refine fun s hs hl => ⟨fun hlt hmod => ?_, fun hbad hk => ?_⟩
    · refine next_of_legal hl ?_
      rw [if_neg fun h => (misplaced_iff _).mp h ⟨hlt, hmod⟩]
      exact branchTo_writesNothing hs _
    · refine next_of_legal hl ?_
      rw [if_pos ((misplaced_iff _).mpr fun h => hbad h.1 h.2)]
      exact raise_raises _ (State.issuing_split hs) hk
  case switch =>
    intro s ra table hs
    refine ⟨fun hnjt hk => next_raise hs hk ?_, fun hl im tab lane hnjt hfind htab hlane hact hlow => ?_⟩
    · refine congrArg Host.Outcome.next (guarded_unallocated ?_ _)
      have hvalue : valuesOk (.switch ra table) s = false := decide_eq_false (Nat.not_lt.mpr hnjt)
      rw [operandsOk, hvalue, Bool.and_false]
    · have hindex : lowestLane s.cls.lanes s.act = some lane := head?_lanesOf hlane hact hlow
      have htable : im.tables.getD table.toNat [] = tab := by rw [List.getD, htab]; rfl
      refine ⟨fun w hw => ?_, fun hlen hk => ?_⟩
      · refine next_of_legal hl ?_
        simp only [hfind, hindex, Option.map_some, Option.getD_some, htable, hw]
        exact branchTo_writesNothing hs _
      · refine next_of_legal hl ?_
        simp only [hfind, hindex, Option.map_some, Option.getD_some, htable, List.getElem?_eq_none hlen]
        exact raise_raises _ (State.issuing_split hs) hk

/-! ### The split table -/

/-- No single-stepping is on in a state whose class differs in its splits alone. -/
theorem stepping_of_splits {s u : State} (hs : s.issuing = true) (hc : { u.cls with splits := s.cls.splits } = s.cls)
    (hw : u.words = s.words) : u.stepping = false := by
  have hl : u.cls.level = s.cls.level := (congrArg Cls.level hc : ({ u.cls with splits := s.cls.splits } : Cls).level = _)
  have hv : u.cls.vmid = s.cls.vmid := (congrArg Cls.vmid hc : ({ u.cls with splits := s.cls.splits } : Cls).vmid = _)
  have ha : u.cls.asid = s.cls.asid := (congrArg Cls.asid hc : ({ u.cls with splits := s.cls.splits } : Cls).asid = _)
  exact (State.stepping_congr hl hv ha hw).trans (State.issuing_step hs)

/-! ### BSPL (R30, R31, R210) -/

/-- A state in which the class of `s` has other splits. -/
noncomputable def withSplits (s : State) (c : Cls) (on : Nat) : State := { s with cls := c, iss := { s.iss with split := on } }

/-- Splits and the split that issues alone may differ. -/
def SplitsOnly (s t : State) : Prop :=
  { t.cls with splits := s.cls.splits } = s.cls ∧ { t with cls := s.cls, iss := s.iss } = s ∧ ∀ x, t.mem.get x = s.mem.get x

/-- The issuing split alone may differ. -/
def OthersKept (s t : State) : Prop :=
  (∀ j, j ≠ s.iss.split → t.cls.split j = s.cls.split j) ∧ { t.cls with splits := s.cls.splits } = s.cls ∧ OutsideKept s t

theorem withSplits_splitsOnly {s : State} {c : Cls} (on : Nat) (h : { c with splits := s.cls.splits } = s.cls) :
    SplitsOnly s (withSplits s c on) := ⟨h, rfl, fun _ => rfl⟩

theorem withSplits_othersKept {s : State} {c : Cls} (hsplits : ∀ j, j ≠ s.iss.split → c.split j = s.cls.split j)
    (hc : { c with splits := s.cls.splits } = s.cls) : OthersKept s (withSplits s c s.iss.split) := ⟨hsplits, hc, rfl, fun _ => rfl⟩

/-- A child of the issuing split (R31). -/
noncomputable def childSplit (s : State) (join pc : Int) (m : Mask) : Split :=
  { state := .ready, pc := pc, mask := m, parent := s.iss.split, levels := .child join :: s.cur.levels,
    pend := closed (s.cls.passPend s.cur.pend) }

/-- The parent waits at the join, and the children stand in entries a and b (R31). -/
noncomputable def divided (s : State) (join tgt next : Int) (taken other : Mask) (a b : Nat) : Cls :=
  ((s.cls.modSplit s.iss.split (fun sp => { sp with state := .joinParent join, age := 0, pend := [] })).setSplit a
    (childSplit s join tgt taken)).setSplit b (childSplit s join next other)

/-- A level record in the issuing split: `first` runs, `later` is deferred (R31). -/
noncomputable def recorded (s : State) (join : Int) (first later : Int × Mask) : Split :=
  { s.cur with pc := first.1, mask := first.2, levels := .deferred join later.1 later.2 0 :: s.cur.levels, age := 0,
               pend := closed (s.cls.passPend s.cur.pend) }

theorem divided_frame (s : State) (join tgt next : Int) (taken other : Mask) (a b : Nat) :
    { divided s join tgt next taken other a b with splits := s.cls.splits } = s.cls :=
  (setSplit_frame _ b _ _).trans ((setSplit_frame _ a _ _).trans (setSplit_frame _ _ _ _))

/-- The issuing split after BSPL has opened a level record in it (R31). -/
noncomputable def levelOpened (s : State) (join tgt next : Int) (taken other : Mask) : Split :=
  recorded s join (if taken ≠ 0 then (tgt, taken) else (next, other)) (if taken ≠ 0 then (next, other) else (tgt, taken))

/-- The class after BSPL has opened a level record. -/
noncomputable def withRecord (s : State) (join tgt next : Int) (taken other : Mask) : State :=
  withSplits s (s.cls.setSplit s.iss.split (levelOpened s join tgt next taken other)) s.iss.split

theorem record_eq (join tgt next : Int) (taken other : Mask) (s : State) :
    openSplit.record join tgt next taken other s s.cur (closed (s.cls.passPend s.cur.pend)) =
      (withRecord s join tgt next taken other).stepped (levelOpened s join tgt next taken other).pc := by
  unfold openSplit.record
  rfl

/-- What BSPL leaves where the class's free entries are those of the list. -/
noncomputable def opened (join tgt next : Int) (taken other : Mask) (s : State) : List Nat → State
  | a :: b :: _ =>
    if taken ≠ 0 ∧ other ≠ 0 then (withSplits s (divided s join tgt next taken other a b) b).stepped next
    else openSplit.record join tgt next taken other s s.cur (closed (s.cls.passPend s.cur.pend))
  | _ => openSplit.record join tgt next taken other s s.cur (closed (s.cls.passPend s.cur.pend))

theorem openSplit_eq (join tgt next : Int) (taken other : Mask) (s : State) :
    openSplit join tgt next taken other s = opened join tgt next taken other s s.cls.freeEntries := by
  rfl

theorem openSplit_divides {s : State} (hs : s.issuing = true) {join tgt next : Int} {taken other : Mask} {a b : Nat}
    {rest : List Nat} (hfree : s.cls.freeEntries = a :: b :: rest) (ht : taken ≠ 0) (ho : other ≠ 0) :
    openSplit join tgt next taken other s = withSplits s (divided s join tgt next taken other a b) b := by
  have hstep : (withSplits s (divided s join tgt next taken other a b) b).stepping = false :=
    stepping_of_splits hs (divided_frame s join tgt next taken other a b) rfl
  rw [openSplit_eq, hfree]
  exact (if_pos ⟨ht, ho⟩).trans (State.stepped_of_not hstep next)

theorem openSplit_records {s : State} (hs : s.issuing = true) {join tgt next : Int} {taken other : Mask}
    (h : (taken = 0 ∨ other = 0) ∨ s.cls.freeEntries.length < 2) :
    openSplit join tgt next taken other s = withRecord s join tgt next taken other := by
  have hstep : (withRecord s join tgt next taken other).stepping = false := stepping_of_splits hs (setSplit_frame _ _ _ _) rfl
  rw [← State.stepped_of_not hstep (levelOpened s join tgt next taken other).pc, ← record_eq, openSplit_eq]
  revert h
  match s.cls.freeEntries with
  | [] | [_] => exact fun _ => rfl
  | _ :: _ :: _ =>
    intro h
    refine if_neg fun hlanes => ?_
    rcases h with (h | h) | h
    · exact hlanes.1 h
    · exact hlanes.2 h
    · simp at h

section
variable {s : State} {join tgt next : Int} {taken other : Mask} {a b : Nat}

theorem divided_first (ha : a < s.cls.splits.length) (hab : a ≠ b) :
    (divided s join tgt next taken other a b).split a = childSplit s join tgt taken :=
  (split_setSplit_other _ _ hab).trans (split_setSplit_self _ _ (by simpa [Cls.modSplit, length_setSplit] using ha))

theorem divided_second (hb : b < s.cls.splits.length) :
    (divided s join tgt next taken other a b).split b = childSplit s join next other :=
  split_setSplit_self _ _ (by simpa [Cls.modSplit, length_setSplit] using hb)

theorem divided_other {j : Nat} (ha : j ≠ a) (hb : j ≠ b) :
    (divided s join tgt next taken other a b).split j =
      (s.cls.modSplit s.iss.split (fun sp => { sp with state := .joinParent join, age := 0, pend := [] })).split j :=
  (split_setSplit_other _ _ hb).trans (split_setSplit_other _ _ ha)

end

/-- The lanes that BSPL takes (R210). -/
noncomputable def taken (s : State) (k : Reg3) (inv : Bool) : Mask := if inv then ~~~ (s.getK k) else s.getK k

/-- BSPL below depth 15 opens a level. -/
theorem exec_bspl_opens {s : State} {joinOff : BitVec 25} {k : Reg3} {inv : Bool} {off : BitVec 19}
    (hl : s.legal (.bspl joinOff k inv off) = true) (hdepth : s.depth < 15) :
    exec (.bspl joinOff k inv off) s = .next (openSplit (branchTarget s joinOff) (branchTarget s off) s.next
      (s.act &&& taken s k inv) (s.act &&& ~~~ taken s k inv) s) := by
  rw [← target_eq, ← target_eq]
  exact congrArg Host.Outcome.next ((guarded_legal hl _).trans (if_neg (Nat.ne_of_lt hdepth)))

theorem withRecord_cur {s : State} (hs : s.issuing = true) (join tgt next : Int) (taken other : Mask) :
    (withRecord s join tgt next taken other).cur = levelOpened s join tgt next taken other :=
  split_setSplit_self _ _ (State.issuing_split hs)

theorem withRecord_othersKept (s : State) (join tgt next : Int) (taken other : Mask) :
    OthersKept s (withRecord s join tgt next taken other) :=
  withSplits_othersKept (fun _ hj => split_setSplit_other _ _ hj) (setSplit_frame s.cls _ _ _)

section
variable {s : State} {joinOff : BitVec 25} {k : Reg3} {inv : Bool} {off : BitVec 19} {a b : Nat} {rest : List Nat} (hs : s.issuing = true)
  (hl : s.legal (.bspl joinOff k inv off) = true)
include hs hl

/-- BSPL with lanes on both sides and two free entries (R31). -/
theorem bspl_divides (hdepth : s.depth < 15) (ha : a < s.cls.splits.length)
    (hb : b < s.cls.splits.length) (hfree : s.cls.freeEntries = a :: b :: rest) (ha' : a ≠ s.iss.split) (hb' : b ≠ s.iss.split)
    (hab : a ≠ b) (htaken : s.act &&& taken s k inv ≠ 0) (hother : s.act &&& ~~~taken s k inv ≠ 0) :
    ∃ t, exec (.bspl joinOff k inv off) s = .next t ∧
      (t.cls.split a).state = .ready ∧ (t.cls.split a).mask = s.act &&& taken s k inv ∧ (t.cls.split a).pc = branchTarget s off ∧
      (t.cls.split b).state = .ready ∧ (t.cls.split b).mask = s.act &&& ~~~taken s k inv ∧ (t.cls.split b).pc = s.next ∧
      (∀ c ∈ [a, b], (t.cls.split c).parent = s.iss.split ∧
        (t.cls.split c).levels = .child (branchTarget s joinOff) :: s.cur.levels) ∧
      (t.cls.split s.iss.split).state = .joinParent (branchTarget s joinOff) ∧
      (∀ j, j ≠ a → j ≠ b → j ≠ s.iss.split → t.cls.split j = s.cls.split j) ∧ SplitsOnly s t := by
  refine ⟨withSplits s (divided s (branchTarget s joinOff) (branchTarget s off) s.next (s.act &&& taken s k inv)
    (s.act &&& ~~~taken s k inv) a b) b, (exec_bspl_opens hl hdepth).trans
      (congrArg Host.Outcome.next (openSplit_divides hs hfree htaken hother)), ?_⟩
  generalize branchTarget s joinOff = join, branchTarget s off = tgt, s.next = next, s.act &&& taken s k inv = m₁,
    s.act &&& ~~~taken s k inv = m₂
  have hfirst := divided_first (s := s) (join := join) (tgt := tgt) (next := next) (taken := m₁) (other := m₂) ha hab
  have hsecond := divided_second (s := s) (join := join) (tgt := tgt) (next := next) (taken := m₁) (other := m₂) (a := a) hb
  have hparent := (divided_other (s := s) (join := join) (tgt := tgt) (next := next) (taken := m₁) (other := m₂) ha'.symm hb'.symm).trans
    (Cls.split_modSplit_self _ _ _ (State.issuing_split hs))
  exact ⟨congrArg Split.state hfirst, congrArg Split.mask hfirst, congrArg Split.pc hfirst, congrArg Split.state hsecond,
    congrArg Split.mask hsecond, congrArg Split.pc hsecond,
    List.forall_mem_cons.mpr ⟨⟨congrArg Split.parent hfirst, congrArg Split.levels hfirst⟩,
      List.forall_mem_singleton.mpr ⟨congrArg Split.parent hsecond, congrArg Split.levels hsecond⟩⟩,
    congrArg Split.state hparent, fun j hja hjb hj => (divided_other hja hjb).trans (Cls.split_modSplit_other _ _ _ _ hj),
    withSplits_splitsOnly b (divided_frame _ _ _ _ _ _ _ _)⟩

/-- BSPL that opens a level record (R31). -/
theorem bspl_records (hdepth : s.depth < 15)
    (h : (s.act &&& taken s k inv = 0 ∨ s.act &&& ~~~taken s k inv = 0) ∨ s.cls.freeEntries.length < 2) {sp : Split}
    (hsp : levelOpened s (branchTarget s joinOff) (branchTarget s off) s.next (s.act &&& taken s k inv) (s.act &&& ~~~taken s k inv) = sp) :
    ∃ t, exec (.bspl joinOff k inv off) s = .next t ∧ t.cur = sp ∧ OthersKept s t :=
  ⟨_, (exec_bspl_opens hl hdepth).trans (congrArg Host.Outcome.next (openSplit_records hs h)), (withRecord_cur hs ..).trans hsp,
    withRecord_othersKept s ..⟩

theorem bspl_takes (hdepth : s.depth < 15) (htaken : s.act &&& taken s k inv ≠ 0)
    (h : s.act &&& ~~~taken s k inv = 0 ∨ s.cls.freeEntries.length < 2) :
    ∃ t, exec (.bspl joinOff k inv off) s = .next t ∧ t.cur.pc = branchTarget s off ∧ t.cur.mask = s.act &&& taken s k inv ∧
      t.cur.state = s.cur.state ∧
      t.cur.levels = .deferred (branchTarget s joinOff) s.next (s.act &&& ~~~taken s k inv) 0 :: s.cur.levels ∧ OthersKept s t := by
  obtain ⟨t, hexec, hcur, hkept⟩ := bspl_records (off := off) hs hl hdepth (h.imp_left .inr)
    (by rw [levelOpened, if_pos htaken, if_pos htaken])
  exact ⟨t, hexec, congrArg Split.pc hcur, congrArg Split.mask hcur, (congrArg Split.state hcur :), congrArg Split.levels hcur, hkept⟩

theorem bspl_defers (hdepth : s.depth < 15) (htaken : s.act &&& taken s k inv = 0) :
    ∃ t, exec (.bspl joinOff k inv off) s = .next t ∧ t.cur.pc = s.next ∧ t.cur.mask = s.act &&& ~~~taken s k inv ∧
      t.cur.levels = .deferred (branchTarget s joinOff) (branchTarget s off) 0 0 :: s.cur.levels ∧ OthersKept s t := by
  obtain ⟨t, hexec, hcur, hkept⟩ := bspl_records (off := off) hs hl hdepth (.inl (.inl htaken))
    (by rw [levelOpened, if_neg (not_not.mpr htaken), if_neg (not_not.mpr htaken), htaken])
  exact ⟨t, hexec, congrArg Split.pc hcur, congrArg Split.mask hcur, congrArg Split.levels hcur, hkept⟩

theorem bspl_tooDeep (hdepth : s.depth = 15) (hk : s.cls.kind ≠ .handler) :
    ∃ t, exec (.bspl joinOff k inv off) s = .next t ∧ Raises s t { cause := .illstate } :=
  next_raise hs hk (congrArg Host.Outcome.next ((guarded_legal hl _).trans (if_pos hdepth)))

end

/-- Settles O17. -/
theorem bsplOpensLevel : Obligations.BsplOpensLevel :=
  ⟨@bspl_divides, fun _ _ _ _ _ hs hl => ⟨bspl_takes hs hl, bspl_defers hs hl, bspl_tooDeep hs hl⟩⟩

/-! ### JOIN (R32, R211) -/

/-- The deferred side of a level record runs next. -/
theorem arrive_deferred_runs {fuel i : Nat} {m : Mask} {c : Cls} {join dpc : Int} {set kept : Mask} {rest : List LevelRec}
    (hlev : (c.split i).levels = .deferred join dpc set kept :: rest) (hset : set ≠ 0) :
    arrive (fuel + 1) i m c = c.setSplit i { c.split i with
      mask := set, pc := dpc, levels := .deferred join dpc 0 (kept ||| m) :: rest, pend := closed (c.split i).pend }.go := by
  simp only [arrive, hlev]
  rw [if_pos hset]

/-- A level record with nothing deferred closes. -/
theorem arrive_deferred_closes {fuel i : Nat} {m : Mask} {c : Cls} {join dpc : Int} {kept : Mask} {rest : List LevelRec}
    (hlev : (c.split i).levels = .deferred join dpc 0 kept :: rest) (hm : kept ||| m ≠ 0) :
    arrive (fuel + 1) i m c = c.setSplit i { c.split i with
      mask := kept ||| m, pc := join + 4, levels := rest, pend := closed (c.split i).pend }.go := by
  simp only [arrive, hlev]
  rw [if_neg (by simp), if_neg hm]

/-- A child whose sibling has not arrived, or that an event holds, waits. -/
theorem arrive_child_waits {fuel i j : Nat} {m : Mask} {c : Cls} {join : Int} {rest : List LevelRec}
    (hlev : (c.split i).levels = .child join :: rest) (hsib : c.sibling i = some j)
    (h : ¬ ((c.split j).state = .joinChild ∧ (c.split j).stops = 0 ∧ (c.split i).stops = 0)) :
    arrive (fuel + 1) i m c = c.setSplit i { c.split i with state := .joinChild, mask := m } := by
  simp only [arrive, hlev, hsib]
  rw [if_neg h]

/-- The parent after both children have arrived with lanes. -/
noncomputable def merged (c : Cls) (i j : Nat) (m : Mask) (join : Int) : Cls :=
  ((c.setSplit i {}).setSplit j {}).setSplit (c.split i).parent
    { ((c.setSplit i {}).setSplit j {}).split (c.split i).parent with
      mask := (c.split j).mask ||| m, pc := join + 4, pend := closed ((c.split i).pend ++ (c.split j).pend) }.go

theorem arrive_child_merges {fuel i j : Nat} {m : Mask} {c : Cls} {join : Int} {rest : List LevelRec}
    (hlev : (c.split i).levels = .child join :: rest) (hsib : c.sibling i = some j)
    (h : (c.split j).state = .joinChild ∧ (c.split j).stops = 0 ∧ (c.split i).stops = 0) (hm : (c.split j).mask ||| m ≠ 0) :
    arrive (fuel + 1) i m c = merged c i j m join := by
  simp only [arrive, hlev, hsib]
  rw [if_pos h, if_neg hm]
  rfl

theorem go_state (sp : Split) : sp.go.state = if sp.stops = 0 then .ready else .blocked .event := by
  unfold Split.go
  split <;> rfl

theorem go_not_free (sp : Split) : sp.go.state ≠ .free := by
  rw [go_state]
  split <;> simp

theorem go_state_of_stops {sp : Split} {n : Nat} (h : sp.stops = n) : sp.go.state = if n = 0 then .ready else .blocked .event :=
  h ▸ go_state sp

theorem go_pc (sp : Split) : sp.go.pc = sp.pc := by
  unfold Split.go
  split <;> rfl

theorem go_mask (sp : Split) : sp.go.mask = sp.mask := by
  unfold Split.go
  split <;> rfl

theorem go_levels (sp : Split) : sp.go.levels = sp.levels := by
  unfold Split.go
  split <;> rfl

theorem survivor_of_live {before after : Cls} {fuel i : Nat} (h : (after.split i).state ≠ .free) :
    survivor before after (fuel + 1) i = i := if_neg h

theorem survivor_of_free {before after : Cls} {fuel i : Nat} (h : (after.split i).state = .free) :
    survivor before after (fuel + 1) i = survivor before after fuel (before.split i).parent := if_pos h

/-- The class at a JOIN: the windows of the arriving split have passed. -/
noncomputable def passed (s : State) : Cls := s.cls.modSplit s.iss.split (fun sp => { sp with pend := s.cls.passPend sp.pend })

theorem passed_cur {s : State} (hs : s.issuing = true) :
    (passed s).split s.iss.split = { s.cur with pend := s.cls.passPend s.cur.pend } :=
  Cls.split_modSplit_self _ _ _ (State.issuing_split hs)

theorem passed_other (s : State) {j : Nat} (hj : j ≠ s.iss.split) : (passed s).split j = s.cls.split j :=
  Cls.split_modSplit_other _ _ _ _ hj

theorem passed_length (s : State) : (passed s).splits.length = s.cls.splits.length := length_setSplit ..

theorem passed_sibling {s : State} (hs : s.issuing = true) (i : Nat) : (passed s).sibling i = s.cls.sibling i := by
  have hparent (j : Nat) : ((passed s).split j).parent = (s.cls.split j).parent := by
    by_cases hj : j = s.iss.split
    · rw [hj, passed_cur hs]
      rfl
    · rw [passed_other s hj]
  have hstate (j : Nat) : ((passed s).split j).state = (s.cls.split j).state := by
    by_cases hj : j = s.iss.split
    · rw [hj, passed_cur hs]
      rfl
    · rw [passed_other s hj]
  unfold Cls.sibling
  simp only [hparent, hstate]

/-- A JOIN of the innermost level leaves the class `c` that the arrival gives, and the split that goes on in the latch. -/
theorem execJoin_arrives {s : State} (hs : s.issuing = true) (hjoin : s.cur.joinAt = some s.iss.pc) {c : Cls}
    (hc : arrive arriveFuel s.iss.split s.act (passed s) = c) (hframe : { c with splits := s.cls.splits } = s.cls) :
    exec .join s = .next (withSplits s c (survivor (passed s) c 16 s.iss.split)) := by
  have hstep : (withSplits s c (survivor (passed s) c 16 s.iss.split)).stepping = false := stepping_of_splits hs hframe rfl
  have harrived : arrived s.act s = withSplits s c (survivor (passed s) c 16 s.iss.split) := by
    refine Eq.trans ?_ (State.stepped_of_not hstep (c.split (survivor (passed s) c 16 s.iss.split)).pc)
    subst hc
    rfl
  change execJoin s = _
  unfold execJoin
  rw [if_neg (not_not.mpr hjoin), harrived]

theorem joinAt_deferred {sp : Split} {join dpc : Int} {set kept : Mask} {rest : List LevelRec}
    (h : sp.levels = .deferred join dpc set kept :: rest) : sp.joinAt = some join := by
  unfold Split.joinAt
  rw [h]

theorem joinAt_child {sp : Split} {join : Int} {rest : List LevelRec} (h : sp.levels = .child join :: rest) :
    sp.joinAt = some join := by
  unfold Split.joinAt
  rw [h]

theorem passed_levels {s : State} (hs : s.issuing = true) : ((passed s).split s.iss.split).levels = s.cur.levels := by
  rw [passed_cur hs]

theorem passed_parent {s : State} (hs : s.issuing = true) : ((passed s).split s.iss.split).parent = s.cur.parent := by
  rw [passed_cur hs]

theorem passed_stops {s : State} (hs : s.issuing = true) : ((passed s).split s.iss.split).stops = s.cur.stops := by
  rw [passed_cur hs]

/-- The class of a JOIN that leaves everything but the issuing split, which is `sp` from now on. -/
noncomputable def joined (s : State) (sp : Split) : State := withSplits s ((passed s).setSplit s.iss.split sp) s.iss.split

theorem joined_cur {s : State} (hs : s.issuing = true) (sp : Split) : (joined s sp).cur = sp :=
  split_setSplit_self _ _ (by rw [passed_length]; exact State.issuing_split hs)

theorem joined_frame (s : State) (sp : Split) : { (passed s).setSplit s.iss.split sp with splits := s.cls.splits } = s.cls :=
  (setSplit_frame (passed s) s.iss.split sp _).trans (setSplit_frame s.cls s.iss.split _ _)

theorem joined_othersKept (s : State) (sp : Split) : OthersKept s (joined s sp) :=
  withSplits_othersKept (fun _ hj => (split_setSplit_other _ _ hj).trans (passed_other s hj)) (joined_frame s sp)

theorem execJoin_in_split {s : State} (hs : s.issuing = true) (hjoin : s.cur.joinAt = some s.iss.pc) {sp : Split}
    (hlive : sp.state ≠ .free) (hc : arrive arriveFuel s.iss.split s.act (passed s) = (passed s).setSplit s.iss.split sp) :
    exec .join s = .next (joined s sp) := by
  have hself : ((passed s).setSplit s.iss.split sp).split s.iss.split = sp := joined_cur hs sp
  have hexec := execJoin_arrives hs hjoin hc (joined_frame s sp)
  rw [survivor_of_live (by rwa [hself])] at hexec
  exact hexec

/-- The issuing split goes on with what the arrival leaves of it. -/
theorem join_goesOn {s : State} (hs : s.issuing = true) (hjoin : s.cur.joinAt = some s.iss.pc) {sp : Split}
    (hc : arrive arriveFuel s.iss.split s.act (passed s) = (passed s).setSplit s.iss.split sp.go) (hstops : sp.stops = s.cur.stops) :
    ∃ t, exec .join s = .next t ∧ t.cur.pc = sp.pc ∧ t.cur.mask = sp.mask ∧
      t.cur.state = (if s.cur.stops = 0 then .ready else .blocked .event) ∧ t.cur.levels = sp.levels ∧ OthersKept s t := by
  have hcur := joined_cur hs sp.go
  exact ⟨_, execJoin_in_split hs hjoin (go_not_free _) hc, (congrArg Split.pc hcur).trans (go_pc _), (congrArg Split.mask hcur).trans (go_mask _),
    (congrArg Split.state hcur).trans (go_state_of_stops hstops), (congrArg Split.levels hcur).trans (go_levels _), joined_othersKept s _⟩

section
variable {s : State} {join : Int} {rest : List LevelRec} {j : Nat} (hs : s.issuing = true) (hlev : s.cur.levels = .child join :: rest)
  (hjoin : join = s.iss.pc) (hsib : s.cls.sibling s.iss.split = some j) (hji : j ≠ s.iss.split)
include hs hlev hjoin hsib hji

theorem join_waits (h : (s.cls.split j).state ≠ .joinChild ∨ (s.cls.split j).stops ≠ 0 ∨ s.cur.stops ≠ 0) :
    ∃ t, exec .join s = .next t ∧ t.cur.state = .joinChild ∧ t.cur.mask = s.act ∧ OthersKept s t := by
  have hnot : ¬ (((passed s).split j).state = .joinChild ∧ ((passed s).split j).stops = 0 ∧
      ((passed s).split s.iss.split).stops = 0) := by
    rw [passed_other s hji, passed_stops hs]
    tauto
  have hcur := joined_cur hs { (passed s).split s.iss.split with state := .joinChild, mask := s.act }
  exact ⟨_, execJoin_in_split hs ((joinAt_child hlev).trans (congrArg some hjoin)) (fun h => SplitState.noConfusion h)
      (arrive_child_waits ((passed_levels hs).trans hlev) ((passed_sibling hs _).trans hsib) hnot),
    (congrArg Split.state hcur :), (congrArg Split.mask hcur :), joined_othersKept s _⟩

/-- The parent goes on in place of two children that have merged. -/
theorem join_merges (hpi : s.cur.parent ≠ s.iss.split) (hpj : s.cur.parent ≠ j) (hj : j < s.cls.splits.length)
    (hp : s.cur.parent < s.cls.splits.length) (hstate : (s.cls.split j).state = .joinChild) (hstop : (s.cls.split j).stops = 0)
    (hfree : s.cur.stops = 0) (hm : (s.cls.split j).mask ||| s.act ≠ 0) :
    ∃ t, exec .join s = .next t ∧ t.cls.split s.iss.split = {} ∧ t.cls.split j = {} ∧
      (t.cls.split s.cur.parent).state = (if (s.cls.split s.cur.parent).stops = 0 then .ready else .blocked .event) ∧
      (t.cls.split s.cur.parent).pc = join + 4 ∧ (t.cls.split s.cur.parent).mask = (s.cls.split j).mask ||| s.act ∧
      (t.cls.split s.cur.parent).levels = (s.cls.split s.cur.parent).levels ∧
      (∀ i, i ≠ s.iss.split → i ≠ j → i ≠ s.cur.parent → t.cls.split i = s.cls.split i) ∧ SplitsOnly s t := by
  have hparent := passed_parent hs
  have hsibling := passed_other s hji
  have hlen : (passed s).splits.length = s.cls.splits.length := passed_length s
  have harrive : arrive arriveFuel s.iss.split s.act (passed s) = merged (passed s) s.iss.split j s.act join := by
    refine arrive_child_merges ((passed_levels hs).trans hlev) ((passed_sibling hs _).trans hsib) ?_ (by rwa [hsibling])
    rw [hsibling]
    exact ⟨hstate, hstop, (passed_stops hs).trans hfree⟩
  have hself : (merged (passed s) s.iss.split j s.act join).split s.iss.split = {} := by
    unfold merged
    rw [hparent, split_setSplit_other _ _ hpi.symm, split_setSplit_other _ _ hji.symm,
      split_setSplit_self _ _ (by rw [hlen]; exact State.issuing_split hs)]
  have hother : (merged (passed s) s.iss.split j s.act join).split j = {} := by
    unfold merged
    rw [hparent, split_setSplit_other _ _ hpj.symm, split_setSplit_self _ _ (by rwa [length_setSplit, hlen])]
  have hpar : (merged (passed s) s.iss.split j s.act join).split s.cur.parent = { s.cls.split s.cur.parent with
      mask := (s.cls.split j).mask ||| s.act, pc := join + 4,
      pend := closed (((passed s).split s.iss.split).pend ++ (s.cls.split j).pend) }.go := by
    unfold merged
    rw [hparent, split_setSplit_self _ _ (by rwa [length_setSplit, length_setSplit, hlen]), split_setSplit_other _ _ hpj,
      split_setSplit_other _ _ hpi, passed_other s hpi, hsibling]
  have hframe : { merged (passed s) s.iss.split j s.act join with splits := s.cls.splits } = s.cls :=
    (setSplit_frame _ _ _ _).trans ((setSplit_frame _ _ _ _).trans (setSplit_frame _ _ _ _))
  have hjoins := execJoin_arrives hs ((joinAt_child hlev).trans (congrArg some hjoin)) harrive hframe
  refine ⟨_, hjoins, hself, hother, (congrArg Split.state hpar).trans (go_state _), (congrArg Split.pc hpar).trans (go_pc _),
    (congrArg Split.mask hpar).trans (go_mask _), (congrArg Split.levels hpar).trans (go_levels _), fun i hi hij hip => ?_,
    withSplits_splitsOnly _ hframe⟩
  exact (split_setSplit_other _ _ (by rwa [hparent])).trans
    ((split_setSplit_other _ _ hij).trans ((split_setSplit_other _ _ hi).trans (passed_other s hi)))

end

/-- Settles O18. -/
theorem joinClosesLevel : Obligations.JoinClosesLevel := by
  refine ⟨fun s hs => ⟨fun join dpc set kept rest hlev hjoin => ⟨fun hset => ?runs, fun hset hkept => ?closes⟩,
    fun hjoin hk => next_raise hs hk (if_pos hjoin)⟩, ?child⟩
  case runs =>
    exact join_goesOn hs ((joinAt_deferred hlev).trans (congrArg some hjoin)) 
      (arrive_deferred_runs ((passed_levels hs).trans hlev) hset) (passed_stops hs)
  case closes =>
    exact join_goesOn hs ((joinAt_deferred hlev).trans (congrArg some hjoin)) 
      (arrive_deferred_closes ((passed_levels hs).trans (hset ▸ hlev)) hkept) (passed_stops hs)
  case child =>
    exact fun s join rest j hs hlev hjoin hsib hji hpi hpj hj hp =>
      ⟨join_waits hs hlev hjoin hsib hji, join_merges hs hlev hjoin hsib hji hpi hpj hj hp⟩

end Sys2Proof.Proofs.Flow
end

section
/-!
Chapters 3 and 10 (special registers, traps, the end of a class): R18, R33, R60 to R62, R203, R204, R216 to R218, R454.
-/

namespace Sys2Proof.Proofs.Traps

open Sys2Proof Sys2Proof.Machine Sys2Proof.Proofs.Execution Sys2Proof.Proofs.Layer Sys2Proof.Proofs.Control

/-! ### Special registers (R60 to R62, R216) -/

/-- SRD of a listed register writes its value to `rd`. -/
theorem srd_reads {s : State} (hs : s.issuing = true) (hdue : s.flagsDue = false) (rd : Reg) {ix : BitVec 11} {x : DWord}
    (h : special s ix.toNat = some x) : ∃ t, exec (.srd rd ix) s = .next t ∧ WritesScalar s t s.next rd x 0 := by
  refine ⟨retire (s.setS rd x), ?_, setS_retire_writesScalar hs rd x⟩
  change execSrd rd ix s = _
  unfold execSrd
  simp [h, hdue]

/-- An index of no special register. -/
theorem special_eq_none (s : State) {n : Nat} (h : n = 0 ∨ n = 0x00F ∨ 0x012 < n) : special s n = none := by
  rcases h with rfl | rfl | h
  · rfl
  · rfl
  · obtain ⟨m, rfl⟩ := Nat.exists_eq_add_of_le' h
    exact rfl

/-- The class's flags set to `w`. -/
noncomputable def withFlags (s : State) (w : Word) : State := withCls s { s.cls with cstat := w }

/-- SWR's group completes with the flags `w`. -/
theorem retire_withFlags {s : State} (hs : s.issuing = true) (w : Word) :
    GoesOn s (retire (withFlags s w)) s.next ∧ (retire (withFlags s w)).cls.cstat = w ∧
      { (retire (withFlags s w)).cls with splits := s.cls.splits, cstat := s.cls.cstat } = s.cls ∧
      OutsideKept s (retire (withFlags s w)) := by
  have hiss : (withFlags s w).issuing = true := issuing_congr rfl rfl rfl rfl rfl rfl hs
  obtain ⟨⟨hpc, hage, hcur, hsplits, hlatch⟩, hcls, hout⟩ := retire_writesNothing hiss
  have hflags := congrArg Cls.cstat hcls
  have hkept := congrArg (fun c : Cls => { c with cstat := s.cls.cstat }) hcls
  exact ⟨⟨hpc, hage, hcur, hsplits, hlatch⟩, hflags, hkept, OutsideKept.of_class_update (u := withFlags s w) rfl hout⟩

theorem swr_clears {s : State} (hs : s.issuing = true) (hdue : s.flagsDue = false) (ra : Reg) (hl : s.legal (.swr ra 0x00A) = true) :
    ∃ t, exec (.swr ra 0x00A) s = .next t ∧ GoesOn s t s.next ∧ t.cls.cstat = s.cls.cstat &&& ~~~ (s.getS ra).setWidth 32 ∧
      { t.cls with splits := s.cls.splits, cstat := s.cls.cstat } = s.cls ∧ OutsideKept s t := by
  refine next_of_legal hl ?_
  rw [hdue]
  exact retire_withFlags hs _

/-- SRD of an index of no special register. -/
theorem srd_unlisted {s : State} (hs : s.issuing = true) (hk : s.cls.kind ≠ .handler) (rd : Reg) (ix : BitVec 11)
    (h : ix.toNat = 0 ∨ ix.toNat = 0x00F ∨ 0x012 < ix.toNat) : ∃ t, exec (.srd rd ix) s = .next t ∧ Raises s t { cause := .illop } := by
  refine next_raise hs hk ?_
  change execSrd rd ix s = _
  rw [execSrd, special_eq_none s h]

/-- SWR of another register than CSTAT. -/
theorem swr_readOnly {s : State} (hs : s.issuing = true) (hk : s.cls.kind ≠ .handler) (ra : Reg) (ix : BitVec 11) (h : ix ≠ 0x00A) :
    ∃ t, exec (.swr ra ix) s = .next t ∧ Raises s t { cause := .illop } := by
  refine next_raise hs hk (congrArg Host.Outcome.next (guarded_unallocated ?_ _))
  have hvalue : valuesOk (.swr ra ix) s = false := beq_eq_false_iff_ne.mpr h
  rw [operandsOk, hvalue, Bool.and_false]

/-- Settles O20. -/
theorem specialRegisters : Obligations.SpecialRegisters :=
  fun s hs hdue => ⟨fun rd _ _ hx => srd_reads hs hdue rd
      ((List.forall_iff_forall_mem (p := fun y : BitVec 11 × DWord => special s y.1.toNat = some y.2)).mp
        (by exact ⟨rfl, rfl, rfl, rfl, rfl, rfl, rfl, rfl, rfl, rfl, rfl, rfl, rfl, rfl, rfl⟩) _ hx),
    fun rd _ hf =>
      ⟨srd_reads hs hdue rd (congrArg (fun o : Option Form => some (BitVec.ofNat 64 ((o.map Form.energy).getD 0))) hf),
        srd_reads hs hdue rd (congrArg (fun o : Option Form => some (BitVec.ofNat 64 ((o.map Form.timeLeft).getD 0))) hf)⟩,
    swr_clears hs hdue, fun hk => ⟨srd_unlisted hs hk, swr_readOnly hs hk⟩⟩

/-! ### Single-stepping (R454) -/

/-- A split at `pc`, whose windows are `g` of what they were. -/
noncomputable def movedSplit (sp : Split) (pc : Int) (g : List Pend → List Pend) : Split := { sp with pc := pc, age := 0, pend := g sp.pend }

/-- The issuing split moved on. -/
noncomputable def moved (s : State) (pc : Int) (g : List Pend → List Pend) : State := s.modCur (movedSplit · pc g)

theorem moved_length (s : State) (pc : Int) (g : List Pend → List Pend) :
    (moved s pc g).cls.splits.length = s.cls.splits.length := length_setSplit ..

theorem stop_of_ready {c : Cls} {i : Nat} (h : (c.split i).state = .ready) :
    c.stop i = c.modSplit i (fun sp => { sp with state := .blocked .event }) := by
  unfold Cls.stop
  rw [h]

/-- The BREAK of a single step, of which the split goes on at `pc` (R454). -/
noncomputable def breakEvent (s : State) (pc : Int) : Event :=
  { s.eventOf { cause := .breakp, aux := 0x800 } with
    epc := pcWord s.next, resume := pc, skipTo := pc + 4 * (s.iss.words.length : Int) }

theorem breakEvent_moved {s : State} {pc npc : Int} {g : List Pend → List Pend} (hact : (moved s pc g).act = s.act)
    (hdepth : (moved s pc g).depth = s.depth) : breakEvent (moved s pc g) npc = breakEvent s npc := by
  unfold breakEvent State.eventOf
  rw [hact, hdepth]
  rfl

/-- Under single-stepping a ready split is blocked and BREAK waits at its level. -/
theorem stepped_of_ready {s : State} (hstep : s.stepping = true) (hready : s.cur.state = .ready) (hk : s.cls.kind ≠ .handler)
    (pc : Int) :
    s.stepped pc = (s.modCur (fun sp => { sp with state := .blocked .event })).post (breakEvent s pc) s.cls.level false := by
  have hkind : (s.cls.kind == ClsKind.handler) = false := by simpa using hk
  refine (if_neg (by rw [hstep]; decide)).trans ?_
  rw [hready, hkind]
  exact congrArg (fun c => (withCls s c).post (breakEvent s pc) s.cls.level false) (stop_of_ready hready)

/-- The split of a single step's BREAK. -/
noncomputable def brokenSplit (sp : Split) (pc : Int) (g : List Pend → List Pend) : Split :=
  { movedSplit sp pc g with state := .blocked .event }

/-- Posting the BREAK of a split that has moved on to `pc`. -/
theorem breaks_raisesAfter {s : State} (hs : s.iss.split < s.cls.splits.length) (pc : Int) (g : List Pend → List Pend) :
    RaisesAfter s ((s.modCur (brokenSplit · pc g)).post (breakEvent s pc) s.cls.level false) pc
      (pc + 4 * (s.iss.words.length : Int)) { cause := .breakp, aux := 0x800 } := by
  have hcur : (s.cls.modSplit s.iss.split (brokenSplit · pc g)).split s.iss.split = brokenSplit s.cur pc g :=
    Cls.split_modSplit_self _ _ _ hs
  have hstate := congrArg Split.state hcur
  have hpc := congrArg Split.pc hcur
  have hmask := congrArg Split.mask hcur
  have hlevels := congrArg Split.levels hcur
  have hparent := congrArg Split.parent hcur
  exact ⟨⟨hstate, hpc⟩, ⟨hmask, hlevels, hparent⟩, fun j hj => Cls.split_modSplit_other _ _ _ _ hj,
    setSplit_frame s.cls _ _ _, rfl, rfl, fun _ => rfl⟩

theorem retire_eq_moved (s : State) : retire s = (moved s s.next s.cls.passPend).stepped s.next := rfl

theorem branchTo_eq_moved (s : State) (pc : Int) :
    branchTo pc s = (moved s pc (fun l => (s.cls.passPend l).map (fun p => { p with left := 0 }))).stepped pc := rfl

/-- A group that completes at `pc` under single-stepping raises BREAK, and its split goes on there when it is resumed. -/
theorem stepped_raisesAfter {s : State} (hstep : s.stepping = true) (hs : s.iss.split < s.cls.splits.length)
    (hready : s.cur.state = .ready) (hk : s.cls.kind ≠ .handler) (pc : Int) (g : List Pend → List Pend) :
    RaisesAfter s ((moved s pc g).stepped pc) pc
      (pc + 4 * (s.iss.words.length : Int)) { cause := .breakp, aux := 0x800 } := by
  have hcur : (moved s pc g).cur = movedSplit s.cur pc g := Cls.split_modSplit_self _ _ _ hs
  have hready' := congrArg Split.state hcur
  have hact := congrArg Split.mask hcur
  have hdepth := congrArg (fun sp : Split => sp.levels.length) hcur
  have hstep' : (moved s pc g).stepping = true := (State.stepping_congr rfl rfl rfl rfl).trans hstep
  have hfinal := breaks_raisesAfter hs pc g
  rw [stepped_of_ready hstep' (hready'.trans hready) hk, breakEvent_moved hact hdepth]
  have htwice : (moved s pc g).modCur (fun sp => { sp with state := .blocked .event }) = s.modCur (brokenSplit · pc g) :=
    modCur_modCur hs _ _
  rw [htwice]
  exact hfinal

/-! ### The end of a class (R18, R33, R203) -/

/-- The end of the class is released. -/
noncomputable def released (c : Cls) : Cls := { c with endDue := false }

/-- The end of a class with nothing outstanding is a release of its tag. -/
theorem settleEnd_of_quiet {s : State} (hdue : s.cls.endDue = true) (hmem : s.cls.mem = []) (hreqs : s.creqs = []) (hpins : s.pins = []) :
    s.settleEnd s.cls = (s.modCls s.cls.id released).bumpTag s.cls.tag := by
  rw [State.settleEnd, hdue, quiet_of_idle hmem hreqs]
  exact release_of_no_pins (s := s.modCls s.cls.id released) (scope := 4) hpins (by decide)

/-- The state after the end of the issuing class. -/
noncomputable def ended (s : State) : State := ((closing s).modCls (closing s).cls.id released).bumpTag (closing s).cls.tag

theorem closeCls_of_idle {s : State} (hlive : ∀ c ∈ s.allCls, c.status = .live) (hmem : s.cls.mem = []) (hreqs : s.creqs = [])
    (hpins : s.pins = []) : s.closeCls s.cls.id = ended s := by
  have hcls := closing_cls_of_idle hlive hmem
  exact (closeCls_of_live (hlive _ List.mem_cons_self)).trans
    (settleEnd_of_quiet (congrArg Cls.endDue hcls) (congrArg Cls.mem hcls) hreqs hpins)

theorem ended_cls {s : State} (hlive : ∀ c ∈ s.allCls, c.status = .live) (hmem : s.cls.mem = []) :
    (ended s).cls = released (emptied [] true s.cls) :=
  (modCls_cls (closing s) released).trans (congrArg released (closing_cls_of_idle hlive hmem))

theorem ended_tagCount (s : State) : (ended s).tagCount = (s.bumpTag s.cls.tag).tagCount := by
  have htag : (closing s).cls.tag = s.cls.tag := (congrArg Cls.tag (closing_cls s) :)
  exact congrArg (fun tag => assocSet s.tagCount tag ((assoc s.tagCount tag).getD 0 + 1)) htag

theorem ended_kept (s : State) :
    (ended s).words = s.words ∧ (ended s).forms = s.forms ∧ (ended s).mem = s.mem ∧ (ended s).hslots = s.hslots :=
  ⟨rfl, rfl, rfl, rfl⟩

/-- The class's root split is finished. -/
noncomputable def rootFreed (s : State) : State := withCls s (s.cls.setSplit 0 {})

/-- END of a class's only split ends the class. -/
theorem execEndClass_ends {s : State} (hs : s.issuing = true) (hkind : s.cls.kind = .launch) (hbracket : s.cls.bracket = none)
    (hsplit : s.iss.split = 0) (hlevels : s.cur.levels = []) :
    execEndClass s = .next (endClassN 4 s.cls.id (rootFreed s)) := by
  have hlen : 0 < s.cls.splits.length := hsplit ▸ State.issuing_split hs
  have hlevels' : (s.cls.split 0).levels = [] := by
    rw [State.cur, hsplit] at hlevels
    exact hlevels
  have harrive : arrive arriveFuel s.iss.split 0 s.cls = s.cls.setSplit 0 {} := by
    rw [hsplit]
    change arrive (255 + 1) 0 0 s.cls = _
    simp only [arrive, hlevels']
    rw [if_pos trivial]
  have hfree : ((s.cls.setSplit 0 {}).split 0).state = .free := by rw [split_setSplit_self _ _ hlen]
  refine (if_neg (by simp [hbracket])).trans ?_
  rw [harrive]
  exact (if_neg (not_not.mpr hfree)).trans (if_neg (by simp [hkind]))

theorem nop_breaks {s : State} (hstep : s.stepping = true) (hs : s.iss.split < s.cls.splits.length) (hready : s.cur.state = .ready)
    (hk : s.cls.kind ≠ .handler) : ∃ t, exec .nop s = .next t ∧
      RaisesAfter s t s.next (s.next + 4 * (s.iss.words.length : Int)) { cause := .breakp, aux := 0x800 } :=
  ⟨_, rfl, retire_eq_moved s ▸ stepped_raisesAfter hstep hs hready hk s.next s.cls.passPend⟩

theorem bra_breaks {s : State} (hstep : s.stepping = true) (hs : s.iss.split < s.cls.splits.length) (hready : s.cur.state = .ready)
    (hk : s.cls.kind ≠ .handler) (off : BitVec 25) : ∃ t, exec (.bra off) s = .next t ∧
      RaisesAfter s t (branchTarget s off) (branchTarget s off + 4 * (s.iss.words.length : Int)) { cause := .breakp, aux := 0x800 } :=
  ⟨_, congrArg (fun pc => Host.Outcome.next (branchTo pc s)) (target_eq s off),
    branchTo_eq_moved s _ ▸ stepped_raisesAfter hstep hs hready hk _ _⟩

/-- END of a class's only split, with nothing of the class outstanding. -/
theorem endClass_closes {s : State} (hs : s.issuing = true) (hkind : s.cls.kind = .launch) (hlive : s.cls.status = .live)
    (hbracket : s.cls.bracket = none) (hsplit : s.iss.split = 0) (hlevels : s.cur.levels = []) (hslots : s.hslots = [])
    (hmem : s.cls.mem = []) (hreqs : s.creqs = []) (hpins : s.pins = []) (hothers : s.others = []) :
    ∃ t, exec .endClass s = .next t ∧ t.cls.status = .ended ∧ (∀ sp ∈ t.cls.splits, sp = {}) ∧ t.cls.v = [] ∧ t.cls.locks = [] ∧
      t.cls.s = s.cls.s ∧ t.cls.id = s.cls.id ∧
      (assoc t.tagCount s.cls.tag).getD 0 = (assoc s.tagCount s.cls.tag).getD 0 + 1 ∧
      t.words = s.words ∧ t.forms = s.forms ∧ ∀ x, t.mem.get x = s.mem.get x := by
  have hlives : ∀ c ∈ (rootFreed s).allCls, c.status = .live :=
    List.forall_mem_cons.mpr ⟨hlive, fun _ hc => absurd (hothers ▸ hc) List.not_mem_nil⟩
  have hclosed : (rootFreed s).closeCls s.cls.id = ended (rootFreed s) := closeCls_of_idle (s := rootFreed s) hlives hmem hreqs hpins
  obtain ⟨hwords, hforms, hbytes, hslots'⟩ := ended_kept (rootFreed s)
  have hends : endClassN 4 s.cls.id (rootFreed s) = ended (rootFreed s) :=
    (endClassN_of_no_handler ((congrArg State.hslots hclosed).trans (hslots'.trans hslots))).trans hclosed
  have htag : (assoc ((rootFreed s).bumpTag s.cls.tag).tagCount s.cls.tag).getD 0 = (assoc s.tagCount s.cls.tag).getD 0 + 1 :=
    congrArg (Option.getD · 0) ((assoc_assocSet ..).trans (if_pos rfl))
  refine ⟨_, (execEndClass_ends hs hkind hbracket hsplit hlevels).trans (congrArg Host.Outcome.next hends), ?_⟩
  rw [ended_cls hlives hmem, ended_tagCount, hwords, hforms, hbytes]
  exact ⟨rfl, fun sp hsp => emptied_splits (keep := []) (room := true) hsp, rfl, rfl, rfl, rfl, htag, rfl, rfl, fun _ => rfl⟩

theorem endClass_bracketed {s : State} (hs : s.issuing = true) (hbracket : s.cls.bracket ≠ none) (hk : s.cls.kind ≠ .handler) :
    ∃ t, exec .endClass s = .next t ∧ Raises s t { cause := .illstate } :=
  next_raise hs hk (execEndClass_inside hbracket)

/-- Settles O21. -/
theorem trapsAndEnds : Obligations.TrapsAndEnds :=
  ⟨fun _ hs hk => ⟨next_raise hs hk rfl, fun _ => next_raise hs hk rfl,
    fun _ => ⟨_, rfl, raiseAfter_raises _ (State.issuing_split hs) hk⟩, rfl⟩,
    fun _ hstep hs hready hk => ⟨nop_breaks hstep hs hready hk, bra_breaks hstep hs hready hk⟩,
    fun _ hs => ⟨endClass_closes hs, endClass_bracketed hs⟩⟩

end Sys2Proof.Proofs.Traps
end

section
/-!
Chapter 9 (encoding) and issue: words of the manual, the decode checks in their order, and the step that runs a group (R184, R188, R192,
R193, R200, R453).
-/

namespace Sys2Proof.Proofs.Issue

open Sys2Proof Sys2Proof.Machine Sys2Proof.Proofs.Execution Sys2Proof.Proofs.Layer

/-- Settles O3: each word decodes to the instruction whose fields are laid out in it. -/
theorem manualWordsDecode : Obligations.ManualWordsDecode := by
  unfold Obligations.ManualWordsDecode
  decide

/-! ### The decode checks (R192, R193) -/

/-- The checks after the first two: the privilege of the opcode, then the fields. -/
def checkLater (level : Nat) (r : Except DecodeError Instr) (priv : Option Nat) : Except Cause Instr :=
  if (match priv with
      | none => false
      | some l => decide (l < level)) then .error .priv
  else
    match r with
    | .ok i => .ok i
    | .error _ => .error .illop

/-- The checks of a group that decodes to `r`. -/
def checkFirst (level : Nat) (priv : Option Nat) : Except DecodeError Instr → Except Cause Instr
  | .error .reservedOpcode | .error .prefixGroup => .error .illop
  | r => checkLater level r priv

theorem decodeChecked_eq (level : Nat) (ws : List Word) :
    decodeChecked level ws = checkFirst level (privLevel (groupOpcode ws)) (decodeGroup ws) := rfl

theorem decodeChecked_of_malformed {level : Nat} {ws : List Word}
    (h : decodeGroup ws = .error .reservedOpcode ∨ decodeGroup ws = .error .prefixGroup) :
    decodeChecked level ws = .error .illop :=
  (decodeChecked_eq level ws).trans (h.elim (congrArg (checkFirst level _)) (congrArg (checkFirst level _)))

theorem checkFirst_later {level : Nat} {priv : Option Nat} {r : Except DecodeError Instr} (hreserved : r ≠ .error .reservedOpcode)
    (hprefix : r ≠ .error .prefixGroup) : checkFirst level priv r = checkLater level r priv := by
  rcases r with ((_ | _) | _) | _
  · exact absurd rfl hreserved
  · exact absurd rfl hprefix
  · rfl
  · rfl

/-- A class below the level of a privileged opcode. -/
theorem decodeChecked_of_below {level h : Nat} {ws : List Word} (hop : privLevel (groupOpcode ws) = some h) (hlt : h < level)
    (hreserved : decodeGroup ws ≠ .error .reservedOpcode) (hprefix : decodeGroup ws ≠ .error .prefixGroup) :
    decodeChecked level ws = .error .priv :=
  (checkFirst_later hreserved hprefix).trans ((congrArg (checkLater level _) hop).trans (if_pos (decide_eq_true hlt)))

theorem decodeChecked_of_field {level : Nat} {ws : List Word} (hlevel : ∀ h, privLevel (groupOpcode ws) = some h → level ≤ h)
    (hfield : decodeGroup ws = .error .illegalField) : decodeChecked level ws = .error .illop := by
  refine ((decodeChecked_eq level ws).trans (congrArg (checkFirst level _) hfield)).trans ?_
  cases hop : privLevel (groupOpcode ws) with
  | none => rfl
  | some l => exact if_neg fun hlt => Nat.not_lt.mpr (hlevel l hop) (of_decide_eq_true hlt)

/-- What a fetched group comes to once it is decoded, `v` the state in which its class issues. -/
noncomputable def issued (v : State) : Except Cause Instr → Prep
  | .error c => .done (raise { cause := c } v)
  | .ok i => if interlocked i v then .done (hold v) else .run i v

noncomputable def withIssue (s : State) (iss : Issue) : State := { s with iss := iss }

/-- The state in which a class issues the group `ws` of one of its splits. -/
noncomputable def issuing (s : State) (cls split : Nat) (c : Cls) (ws : List Word) : State :=
  withIssue (s.focus cls) { split := split, pc := (c.split split).pc, words := ws }

/-- What a split that owes nothing comes to with the group fetched. -/
noncomputable def fetched (s : State) (cls split : Nat) : FetchedGroup → Prep
  | .failed a ws r => .done (fetchFailed a r (issuing s cls split (s.focus cls).cls ws))
  | .words ws _ => issued (issuing s cls split (s.focus cls).cls ws) (decodeChecked (s.focus cls).cls.level ws)

/-- What a split of the issuing class comes to with the group that it owes, if it does. -/
noncomputable def prepared (s : State) (cls split : Nat) : Option (List Word) → Prep
  | some ws =>
    let pc := ((s.focus cls).cls.split split).pc
    .done (((withIssue (s.focus cls) { split := split, pc := pc - 4 * (ws.length : Int), words := ws }).modCur
      (fun sp => { sp with owed := none })).stepped pc)
  | none => fetched s cls split ((s.focus cls).fetchGroup (s.focus cls).cls ((s.focus cls).cls.split split).pc)

/-- A split of a core issues what it comes to. -/
noncomputable def issuePrepared (s : State) (core cls split : Nat) : Prep → Out
  | .done t => .next (noteIssue core cls split (s.formKey cls) none t)
  | .run i t => thenNext (noteIssue core cls split (s.formKey cls) (some (unitOf i, t.occupancy i))) (exec i t)

theorem prepare_eq (s : State) (cls split : Nat) : s.prepare cls split = prepared s cls split ((s.focus cls).cls.split split).owed := rfl

/-- A split that nothing holds issues the group that it fetches. -/
theorem prepare_of_words {s : State} {cls split : Nat} {c : Cls} {ws : List Word} {lines : List Nat} (hc : (s.focus cls).cls = c)
    (howed : (c.split split).owed = none) (hfetch : (s.focus cls).fetchGroup c (c.split split).pc = .words ws lines) :
    s.prepare cls split = issued (issuing s cls split c ws) (decodeChecked c.level ws) := by
  subst hc
  rw [prepare_eq, howed, prepared, hfetch]
  rfl

/-- The instruction goes through decode step 5. -/
def Guards (s : State) (i : Instr) : Prop := ∃ body, exec i s = .next (guarded i body s)

theorem Guards.of_exec {s : State} {i : Instr} {body : State → State} (h : exec i s = .next (guarded i body s)) : Guards s i :=
  ⟨body, h⟩

/-- ILLOP for a register outside the allocation, and ECC for a marked source. -/
theorem Guards.raises {s : State} {i : Instr} (h : Guards s i) (hs : s.iss.split < s.cls.splits.length) (hk : s.cls.kind ≠ .handler) :
    (operandsOk i s = false → ∃ t, exec i s = .next t ∧ Raises s t { cause := .illop }) ∧
    (operandsOk i s = true → readsMarked i s = true →
      ∃ t, exec i s = .next t ∧ Raises s t { cause := .ecc, mask := some (s.eff (instrPfx i)) }) := by
  obtain ⟨body, he⟩ := h
  refine ⟨fun h => ⟨_, he, ?_⟩, fun h hm => ⟨_, he, ?_⟩⟩
  · rw [guarded_unallocated h]
    exact raise_raises _ hs hk
  · rw [guarded_marked h hm]
    exact raise_raises _ hs hk

theorem illegalGroup_raises {s : State} {cls split : Nat} {c : Cls} {ws : List Word} {lines : List Nat} {cause : Cause}
    (hc : (s.focus cls).cls = c) (howed : (c.split split).owed = none) (hlen : split < c.splits.length) (hk : c.kind ≠ .handler)
    (hfetch : (s.focus cls).fetchGroup c (c.split split).pc = .words ws lines) (hdecode : decodeChecked c.level ws = .error cause) :
    ∃ t, Raises (issuing s cls split c ws) t { cause := cause } ∧
      ∀ core, issueSplit exec core cls split s = .next (noteIssue core cls split (s.formKey cls) none t) := by
  have hprep := (prepare_of_words hc howed hfetch).trans (congrArg (issued _) hdecode)
  subst hc
  exact ⟨raise { cause := cause } _, raise_raises _ hlen hk, fun core => congrArg (issuePrepared s core cls split) hprep⟩

/-- Settles O5. -/
theorem illegalGroupsRaise : Obligations.IllegalGroupsRaise := by
  refine ⟨⟨fun level ws h => decodeChecked_of_malformed h, fun level h ws => decodeChecked_of_below,
    fun level ws => decodeChecked_of_field, rfl, ?issue⟩, ?operands⟩
  case issue =>
    exact @illegalGroup_raises
  case operands =>
    intro s i hs hk hi
    have hguards : Guards s i := by
      clear hs hk
      revert hi
      induction i with
      | salu | scmp | saddi | sandi | sori | sshi | smovv | valu | valus | vmad | vcmp | vcmps | vun | vsel | vaddi | vshi | vpack
      | falu | falus | ffma | fcmp | funit | halu | hfma | cvt | cvt8Pack | cvt8Unpack | expd => exact fun _ => Guards.of_exec rfl
      | _ => exact False.elim
    exact hguards.raises hs hk

/-! ### A step that issues (R37, R38, R188) -/

/-- The state with a class found for `id` as the issuing one. -/
noncomputable def focusOn (s : State) (id : Nat) : Option Cls → State
  | none => s
  | some c => { s with cls := c, others := (s.cls :: s.others.filter (fun d => d.id != id)).filter (fun d => !Cls.gone s d) }

theorem focus_eq (s : State) (id : Nat) :
    s.focus id = if s.cls.id = id then s else focusOn s id (s.others.find? (fun c => c.id == id)) := rfl

theorem focus_cls {s : State} {id : Nat} {c : Cls} (h : s.getCls id = some c) : (s.focus id).cls = c := by
  rw [focus_eq]
  by_cases hid : s.cls.id = id
  · rw [if_pos hid]
    exact Option.some.inj ((getCls_cls hid).symm.trans h)
  · have hfind : s.others.find? (fun c => c.id == id) = some c := (List.find?_cons_of_neg (by simpa using hid)).symm.trans h
    rw [if_neg hid, hfind]
    rfl

/-- The states have the same memory, control words, time and pending work. -/
def Kept (s t : State) : Prop := t.mem = s.mem ∧ t.words = s.words ∧ t.time = s.time ∧ t.pending = s.pending

theorem Kept.refl (s : State) : Kept s s := ⟨rfl, rfl, rfl, rfl⟩

theorem Kept.trans {s t u : State} : Kept s t → Kept t u → Kept s u
  | ⟨hmem, hwords, htime, hpending⟩, ⟨hmem', hwords', htime', hpending'⟩ =>
    ⟨hmem'.trans hmem, hwords'.trans hwords, htime'.trans htime, hpending'.trans hpending⟩

theorem focusOn_kept (s : State) (id : Nat) (o : Option Cls) : Kept s (focusOn s id o) := by
  cases o <;> exact ⟨rfl, rfl, rfl, rfl⟩

/-- Making a class the issuing one changes which class issues, and drops classes that are gone, alone. -/
theorem focus_kept (s : State) (id : Nat) : Kept s (s.focus id) := by
  rw [focus_eq]
  exact iteInduction (fun _ => .refl s) (fun _ => focusOn_kept s id _)

/-- The state with other turns taken, busy units and meter. -/
noncomputable def withNotes (s : State) (slots : List (Nat × Nat)) (busy : List (Nat × PipeUnit × Nat)) (meter : Meter) : State :=
  { s with slots := slots, busy := busy, meter := meter }

/-- The second state differs in the turns taken, the busy units and the meter alone. -/
def Rests (s t : State) : Prop := withNotes t s.slots s.busy s.meter = s

/-- The activity of an instruction's unit counts for the core's energy (R424). -/
noncomputable def metered (s : State) (core : Nat) : Option (EnergyKind × Nat) → State
  | none => s
  | some (k, m) => s.meterPipe core k m

theorem metered_rests (s : State) (core : Nat) (slots : List (Nat × Nat)) (busy : List (Nat × PipeUnit × Nat)) (meter : Meter)
    (o : Option (EnergyKind × Nat)) : Rests s (metered (withNotes s slots busy meter) core o) := by
  cases o <;> rfl

theorem took_rests (s : State) (core cls : Nat) (form : Nat × Nat) (w : Option (PipeUnit × Nat)) : Rests s (s.took core cls form w) :=
  match w with
  | none => rfl
  | some (u, n) => metered_rests s core ((core, cls) :: s.slots) ((core, u, s.time + n) :: s.busy)
      { s.meter with slots := addCount s.meter.slots (core, form) 1 } (u.activity n)

theorem noteIssue_rests (s : State) (core cls split : Nat) (form : Nat × Nat) (w : Option (PipeUnit × Nat)) :
    Rests s (noteIssue core cls split form w s) := by
  unfold noteIssue
  rcases s.getCls cls with _ | c
  · exact took_rests s core cls form w
  · exact iteInduction (fun _ => rfl) (fun _ => took_rests s core cls form w)

/-- The state with other moves left in its agenda. -/
noncomputable def withAgenda (s : State) (ms : List Move) : State := { s with agenda := ms }

/-- With nothing in the agenda: the split that the step finds issues, or the cycle ends. -/
noncomputable def picked (s : State) : Option (Nat × Candidate) → Out
  | some (core, x) => issueSplit exec core x.cls x.split s
  | none => endCycle exec s

/-- A step, by its agenda. -/
noncomputable def stepOn (s : State) : List Move → Out
  | m :: ms => doMove exec m (withAgenda s ms)
  | [] => picked s s.pick

theorem step_eq (s : State) : step s = stepOn s s.agenda := rfl

theorem step_of_agenda {s : State} {m : Move} {ms : List Move} (h : s.agenda = m :: ms) : step s = doMove exec m (withAgenda s ms) :=
  (step_eq s).trans (congrArg (stepOn s) h)

/-- A split that the agenda names issues if it is the one that its core issues next. -/
noncomputable def issueNext (s : State) (cls split core : Nat) : Option Candidate → Out
  | none => .next s
  | some x => if x.cls = cls ∧ x.split = split then issueSplit exec core cls split s else .next s

noncomputable def issueMove (s : State) (cls split : Nat) : Option Cls → Out
  | none => .next s
  | some c => issueNext s cls split c.core (s.nextOn c.core)

theorem doMove_issue (s : State) (cls split : Nat) : doMove exec (.issue cls split) s = issueMove s cls split (s.getCls cls) := rfl

/-- The split to issue is the one that the agenda names, or that the step finds with an empty agenda. -/
def Chooses (s u : State) (x : Candidate) (core : Nat) : Prop :=
  s.agenda = [] ∧ u = s ∧ s.pick = some (core, x) ∨
    (∃ ms, s.agenda = .issue x.cls x.split :: ms ∧ u = withAgenda s ms ∧ u.nextOn core = some x)

section
variable {s u : State} {x : Candidate} {c : Cls} {ws : List Word} {lines : List Nat} {i : Instr} (h : Chooses s u x c.core)
include h

theorem Chooses.step (hc : u.getCls x.cls = some c) : Machine.step s = issueSplit exec c.core x.cls x.split u := by
  rcases h with ⟨hagenda, rfl, hpick⟩ | ⟨ms, hagenda, rfl, hnext⟩
  · exact (step_eq _).trans ((congrArg (stepOn _) hagenda).trans (congrArg (picked _) hpick))
  · exact (step_of_agenda hagenda).trans ((doMove_issue ..).trans ((congrArg (issueMove _ _ _) hc).trans
      ((congrArg (issueNext _ _ _ _) hnext).trans (if_pos ⟨rfl, rfl⟩))))

theorem Chooses.kept : Kept s u := by
  rcases h with ⟨-, rfl, -⟩ | ⟨ms, -, rfl, -⟩ <;> exact ⟨rfl, rfl, rfl, rfl⟩

/-- The chosen split's group runs, or is passed over while a register that it names is being written. -/
theorem Chooses.runs (hc : u.getCls x.cls = some c)
    (howed : (c.split x.split).owed = none) (hfetch : (u.focus x.cls).fetchGroup c (c.split x.split).pc = .words ws lines)
    (hdecode : decodeChecked c.level ws = .ok i) :
    (interlocked i (issuing u x.cls x.split c ws) = false →
      Machine.step s = thenNext (noteIssue c.core x.cls x.split (u.formKey x.cls)
        (some (unitOf i, (issuing u x.cls x.split c ws).occupancy i))) (exec i (issuing u x.cls x.split c ws))) ∧
    (interlocked i (issuing u x.cls x.split c ws) = true →
      Machine.step s = .next (noteIssue c.core x.cls x.split (u.formKey x.cls) none (hold (issuing u x.cls x.split c ws)))) ∧
    (issuing u x.cls x.split c ws).cls = c ∧ Kept s (issuing u x.cls x.split c ws) := by
  have hfocus := focus_cls hc
  have hprep := (prepare_of_words hfocus howed hfetch).trans (congrArg (issued _) hdecode)
  have hstep := (h.step hc).trans (congrArg (issuePrepared u c.core x.cls x.split) hprep)
  refine ⟨fun hfree => hstep.trans (congrArg (issuePrepared u _ _ _) (if_neg ?_)), fun hlocked =>
    hstep.trans (congrArg (issuePrepared u _ _ _) (if_pos hlocked)), hfocus, h.kept.trans (focus_kept u x.cls)⟩
  exact Bool.eq_false_iff.mp hfree

end

theorem step_event {s : State} {ms : List Move} {i : Instr} (hagenda : s.agenda = .event i :: ms) (hevent : i.isEvent = true) :
    step s = exec i (withAgenda s ms).unhold :=
  (step_of_agenda hagenda).trans (if_pos hevent)

/-- Settles O4. -/
theorem stepRunsInstruction : Obligations.StepRunsInstruction :=
  ⟨@Chooses.runs, noteIssue_rests, @step_event⟩

/-! ### A power-on reset (R444, Tables 16-3, 16-4) -/

/-- Every word of a reset device has its reset value. -/
theorem reset_word (b : Bank) (ix sub : Nat) : State.reset.word b ix sub = resetWord ix := rfl

theorem reset_routeEntry (v code : Nat) : State.reset.routeEntry v code =
    if code < 16 then bits (resetWord 0x020).toNat (4 * code + 3) (4 * code)
    else bits (resetWord 0x021).toNat (4 * (code - 16) + 3) (4 * (code - 16)) := rfl

/-- Settles O8. -/
theorem resetValues : Obligations.ResetValues := by
  refine ⟨by decide, rfl, rfl, fun _ => rfl, rfl, rfl, rfl, rfl, rfl, rfl, rfl, rfl, fun v _ => ⟨?_, ?_, ?_, rfl⟩⟩ <;>
    simp only [reset_routeEntry] <;> decide

end Sys2Proof.Proofs.Issue
end

section
/-!
Chapters 0 and 22 (bytes of memory): the canonical form, and what a unit writes and reads back under a key (R1, R447; log entry 2).
-/

namespace Sys2Proof.Proofs.Bytes
open Sys2Proof Sys2Proof.Machine

/-! ### The canonical form determines memory (log entry 2) -/

theorem get_of_head {k : Nat} {v : Byte} {m : Memory} : Memory.get ((k, v) :: m) k = v := if_pos rfl

theorem get_ne_zero_of_head {k : Nat} {v : Byte} {m : Memory} (h : Memory.wf ((k, v) :: m) = true) :
    Memory.get ((k, v) :: m) k ≠ 0 := by
  rw [get_of_head]
  exact (Memory.wf_cons.1 h).1

/-- Two memories in canonical form with equal bytes are equal. -/
theorem eq_of_get_eq {m n : Memory} (hm : m.wf = true) (hn : n.wf = true) (h : ∀ x, m.get x = n.get x) : m = n := by
  induction m generalizing n with
  | nil =>
    cases n with
    | nil => rfl
    | cons d n => exact absurd (h d.1).symm (get_ne_zero_of_head hn)
  | cons c m ih =>
    obtain ⟨k, v⟩ := c
    cases n with
    | nil => exact absurd (h k) (get_ne_zero_of_head hm)
    | cons d n =>
      obtain ⟨j, w⟩ := d
      obtain ⟨-, hk, hm'⟩ := Memory.wf_cons.1 hm
      obtain ⟨-, hj, hn'⟩ := Memory.wf_cons.1 hn
      have hkj : k = j := by
        rcases lt_trichotomy k j with hlt | heq | hlt
        · refine absurd ((h k).trans ?_) (get_ne_zero_of_head hm)
          exact (if_neg hlt.ne').trans (Memory.get_below fun c hc => hlt.trans (hj c hc))
        · exact heq
        · refine absurd ((h j).symm.trans ?_) (get_ne_zero_of_head hn)
          exact (if_neg hlt.ne').trans (Memory.get_below fun c hc => hlt.trans (hk c hc))
      subst hkj
      have hvw : v = w := by simpa [get_of_head] using h k
      subst hvw
      have hrest : ∀ x, Memory.get m x = Memory.get n x := by
        intro x
        by_cases hx : k = x
        · subst hx
          exact (Memory.get_below hk).trans (Memory.get_below hj).symm
        · have hboth := h x
          rwa [Memory.get, if_neg hx, Memory.get, if_neg hx] at hboth
      rw [ih hm' hn' hrest]

/-! ### A sector brought under another key (R446, R447) -/

theorem length_xorBytes_le (x y : List Nat) : (xorBytes x y).length ≤ y.length := by
  unfold xorBytes
  rw [List.length_zipWith]
  exact Nat.min_le_right ..

theorem length_xorBytes_le_left (x y : List Nat) : (xorBytes x y).length ≤ x.length := by
  unfold xorBytes
  rw [List.length_zipWith]
  exact Nat.min_le_left ..

theorem length_aesEncrypt (keys : List (List Nat)) (block : List Nat) : (aesEncrypt keys block).length ≤ 16 := by
  unfold aesEncrypt
  simp only []
  rw [List.range_succ, List.map_append, List.foldl_append]
  refine (length_xorBytes_le_left _ _).trans ?_
  split
  · unfold shiftRows
    simp
  · unfold mixBy
    simp

theorem length_toBytes (n x : Nat) : (toBytes n x).length = n := by
  induction n generalizing x with
  | zero => rfl
  | succ n ih => exact congrArg (· + 1) (ih _)

theorem length_tweakNext (t : List Nat) : (tweakNext t).length ≤ 16 := by
  unfold tweakNext
  simp only []
  rw [List.length_map, length_toBytes]

/-- What a sector becomes is a sector's length at most. -/
theorem length_xts (decrypt : Bool) (key : BitVec 512) (n : Nat) (bs : List Byte) : (xts decrypt key n bs).length ≤ 32 := by
  unfold xts
  simp only [List.length_append, List.length_map]
  have hfirst := length_aesEncrypt (roundKeys (((toBytes 64 key.toNat).map (fun b => b.toNat)).drop 32))
    ((toBytes 16 n).map (fun b => b.toNat))
  exact Nat.add_le_add ((length_xorBytes_le _ _).trans hfirst) ((length_xorBytes_le _ _).trans (length_tweakNext _))

theorem length_rekeyed (s : State) {wk rk : Nat} (h : wk ≠ rk) (a : Nat) (bs : List Byte) : (s.reKey wk rk a bs).length ≤ 32 := by
  unfold State.reKey
  rw [if_neg h]
  exact length_xts ..

theorem rekeySector_same {s : State} {key a : Nat} (h : s.keyAt a = key) : s.rekeySector key a = s := if_pos h

/-- A sector under another key is written again under this one. -/
theorem rekeySector_other {s : State} {key a : Nat} (h : s.keyAt a ≠ key) :
    (s.rekeySector key a).mem = s.mem.write (sector a) (s.reKey (s.keyAt a) key a (s.mem.read (sector a) 32)) ∧
      (s.rekeySector key a).keyOf = if key = 0 then assocDel s.keyOf (sector a) else assocSet s.keyOf (sector a) key := by
  unfold State.rekeySector
  simp only []
  rw [if_neg h]
  exact ⟨rfl, rfl⟩

theorem keyAt_rekeySector (s : State) (key a : Nat) : (s.rekeySector key a).keyAt a = key := by
  by_cases hk : s.keyAt a = key
  · rw [rekeySector_same hk, hk]
  · rw [State.keyAt, (rekeySector_other hk).2]
    split
    case isTrue hz => rw [assoc_assocDel, if_pos rfl, hz]; rfl
    case isFalse => rw [assoc_assocSet, if_pos rfl]; rfl

theorem get_rekeySector_outside (s : State) (key a : Nat) {x : Nat} (hx : sector x ≠ sector a) :
    (s.rekeySector key a).mem.get x = s.mem.get x := by
  by_cases hk : s.keyAt a = key
  · rw [rekeySector_same hk]
  · have hlen := length_rekeyed s hk a (s.mem.read (sector a) 32)
    rw [(rekeySector_other hk).1]
    refine Memory.get_write_outside _ _ _ _ ?_
    rcases Nat.lt_or_gt_of_ne (fun h => hx (congrArg (· * 32) h) : x / 32 ≠ a / 32) with h | h
    · exact .inl (Nat.lt_mul_of_div_lt h (by decide))
    · exact .inr ((Nat.add_le_add_left hlen _).trans ((Nat.succ_mul _ 32).symm.trans_le ((Nat.le_div_iff_mul_le (by decide)).mp h)))

/-! ### What a hardware unit writes, it reads back (R447) -/

/-- The key that a unit's write of a byte leaves the sector under: the tag's, or that of the line's L2 copy (R446). -/
noncomputable def writeKey (s : State) (tag a : Nat) : Nat :=
  match s.l2find a with
  | none => s.keyId tag
  | some x => s.keyId x.tag

/-- A unit reads the home copy. -/
theorem physByte_unit (s : State) (key a : Nat) (h : s.keyAt a = key) : s.physByte .unit key a = s.mem.get a := by
  unfold State.physByte
  simp only [if_pos h]
  split
  · rfl
  · rfl

/-- The state is `u` with the byte set, but for what the caches hold. -/
def SetsByte (u : State) (a : Nat) (b : Byte) (t : State) : Prop := t.mem = u.mem.set a b ∧ t.keyOf = u.keyOf

/-- A unit's write of one byte brings the sector under its key and sets the byte. -/
theorem writeByte_unit (s : State) (tag a : Nat) (b : Byte) :
    SetsByte (s.rekeySector (writeKey s tag a) a) a b (s.writeByte .unit tag false a b) := by
  unfold State.writeByte writeKey
  cases s.l2find a with
  | none => exact ⟨rfl, rfl⟩
  | some x =>
    refine iteInduction (motive := SetsByte _ a b) (fun hpast => nomatch hpast) (fun _ => ?_)
    refine iteInduction (motive := SetsByte _ a b) (fun hwb => nomatch hwb) (fun _ => ?_)
    exact iteInduction (motive := SetsByte _ a b) (fun _ => ⟨rfl, rfl⟩) (fun _ => ⟨rfl, rfl⟩)

/-- What a unit's write of one byte comes to. -/
theorem hwWrite_singleton (s : State) (tag a : Nat) (b : Byte) :
    s.hwWrite tag a [b] = ((s.writeByte .unit tag false a b).invalRdc .unit 32 a 1).clearMarks .unit false a 1 := rfl

theorem clearMarks_bytes (s : State) (w : Via) (wb : Bool) (a n : Nat) :
    (s.clearMarks w wb a n).mem = s.mem ∧ (s.clearMarks w wb a n).keyOf = s.keyOf := ⟨rfl, rfl⟩

theorem invalRdc_bytes (s : State) (w : Via) (grain base n : Nat) :
    (s.invalRdc w grain base n).mem = s.mem ∧ (s.invalRdc w grain base n).keyOf = s.keyOf := ⟨rfl, rfl⟩

theorem hwWrite_one (s : State) (tag a : Nat) (b : Byte) : SetsByte (s.rekeySector (writeKey s tag a) a) a b (s.hwWrite tag a [b]) := by
  rw [SetsByte, hwWrite_singleton, (clearMarks_bytes _ _ _ _ _).1, (clearMarks_bytes _ _ _ _ _).2, (invalRdc_bytes _ _ _ _ _).1,
    (invalRdc_bytes _ _ _ _ _).2]
  exact writeByte_unit s tag a b

/-- Settles O7. -/
theorem memoryReadsWhatWasWritten : Obligations.MemoryReadsWhatWasWritten := by
  refine ⟨fun m a x b hm => ?byte, fun m a x bs hm => ?bytes, fun m n hm hn h => eq_of_get_eq hm hn h,
    fun s tag a b hm => ⟨fun hkey => ?unit, fun x hx => ?others⟩⟩
  case byte =>
    by_cases hx : x = a
    · rw [if_pos hx, hx, Memory.get_set_self m a b hm]
    · rw [if_neg hx, Memory.get_set_other m a x b hx]
  case bytes =>
    by_cases hx : a ≤ x ∧ x < a + bs.length
    · have hget := Memory.get_write m a (x - a) bs hm (by omega)
      rw [Nat.add_sub_cancel' hx.1] at hget
      rw [if_pos hx, hget]
    · rw [if_neg hx, Memory.get_write_outside m a x bs (by omega)]
  case unit =>
    obtain ⟨hmem, hkeys⟩ := hwWrite_one s tag a b
    have hwrite : writeKey s tag a = s.keyId tag := by
      unfold writeKey
      cases hl : s.l2find a with
      | none => rfl
      | some x => exact hkey x hl
    have hat : (s.hwWrite tag a [b]).keyAt a = s.keyId tag := by
      have hrekeyed := keyAt_rekeySector s (writeKey s tag a) a
      unfold State.keyAt at hrekeyed ⊢
      rw [hkeys, hrekeyed, hwrite]
    rw [physByte_unit _ _ _ hat, hmem]
    exact Memory.get_set_self _ a b (rekeySector_wf s _ a hm)
  case others =>
    have hne : x ≠ a := fun h => hx (h ▸ rfl)
    rw [(hwWrite_one s tag a b).1, Memory.get_set_other _ _ _ _ hne, get_rekeySector_outside _ _ _ hx]

end Sys2Proof.Proofs.Bytes
end

section
/-!
Chapter 12 (memory instructions at issue): what enters the outstanding list, and what stops an instruction before any access (R95 to
R99, R251 to R264, R352).
-/

namespace Sys2Proof.Proofs.MemoryIssue

open Sys2Proof Sys2Proof.Machine Sys2Proof.Proofs.Execution Sys2Proof.Proofs.Layer

/-! ### Entering the outstanding list -/

/-- Also the numbering of instructions is as in `s`. -/
def SameNumber (s u : State) : Prop := Touched s u ∧ u.nextId = s.nextId

theorem SameNumber.refl (s : State) : SameNumber s s := ⟨rfl, rfl⟩

theorem SameNumber.trans {s u v : State} (h : SameNumber s u) (g : SameNumber u v) : SameNumber s v :=
  ⟨h.1.trans g.1, g.2.trans h.2⟩

theorem roomTlb_same (s : State) (size : Nat) (among : TlbEntry → Bool) : SameNumber s (s.roomTlb size among) := by
  refine iteInduction (fun _ => .refl s) (fun _ => ?_)
  cases (s.tlb.filter among)[Config.choice s.free % (s.tlb.filter among).length]? with
  | none => exact .refl s
  | some e => exact ⟨rfl, rfl⟩

theorem touchTlb_same (s : State) (core vmid asid va : Nat) : SameNumber s (s.touchTlb core vmid asid va) := by
  unfold State.touchTlb
  split
  · exact .refl s
  · split
    · exact (roomTlb_same s _ _).trans ⟨rfl, rfl⟩
    all_goals exact .refl s

theorem touchAll_same (s : State) (c : Cls) (lanes : List LaneReq) : SameNumber s (s.touchAll c lanes) := by
  unfold State.touchAll
  split
  · exact .refl s
  · clear * -
    induction lanes generalizing s with
    | nil => exact .refl s
    | cons l lanes ih => exact (touchTlb_same s _ _ _ _).trans (ih _)

theorem fresh_touched (s : State) : Touched s s.fresh := rfl

/-- The class with the access in its outstanding list. -/
noncomputable def withAccess (s : State) (a : Access) : State := withCls s { s.cls with mem := s.cls.mem ++ [a] }

/-- Entering an access moves the split on, with some windows. -/
theorem enter_eq {s : State} (hs : s.issuing = true) (a : Access) (la : Nat) (waits : Bool) :
    ∃ pend, enter a la waits s = (withAccess s a).modCur (fun sp => { sp with pc := s.next, age := 0, pend := pend }) := by
  have hstep : (withAccess s a).stepping = false := (State.stepping_congr rfl rfl rfl rfl).trans (State.issuing_step hs)
  have hretire := retireAt_eq hstep (withAccess s a).next
  cases waits with
  | false => exact ⟨_, hretire⟩
  | true =>
    refine ⟨(withAccess s a).cls.passPend (withAccess s a).cur.pend ++ [⟨a.id, la⟩], ?_⟩
    refine (congrArg (fun t : State => t.modCur (fun sp => { sp with pend := sp.pend ++ [⟨a.id, la⟩] })) hretire).trans ?_
    exact modCur_modCur (s := withAccess s a) (State.issuing_split hs) _ _

/-- An access that asks for what `f` does. -/
structure Asks (s : State) (p : Pfx) (f : MemForm) (a : Access) : Prop where
  op    : a.op = f.op
  lanes : a.lanes = f.reqs
  dest  : a.dest = f.dest ∧ a.sdest = f.sdest
  group : a.split = s.iss.split ∧ a.pc = s.iss.pc ∧ a.words = s.iss.words ∧ a.mask = f.mask
  pol   : a.pol = Pfxp.polOf p
  stage : a.stage = .fabric

theorem enter_entersMemory {s u : State} (hs : s.issuing = true) (hu : Touched s u) {f : MemForm} {a : Access} (la : Nat)
    (waits : Bool) (hop : a.op = f.op) (hlanes : a.lanes.map LaneReq.asked = f.reqs.map LaneReq.asked)
    (hdest : a.dest = f.dest ∧ a.sdest = f.sdest)
    (hgroup : a.split = s.iss.split ∧ a.pc = s.iss.pc ∧ a.words = s.iss.words ∧ a.mask = f.mask) :
    EntersMemory s (enter a la waits u) f a := by
  have hcls := hu.cls
  obtain ⟨pend, he⟩ := enter_eq (hu.issuing hs) a la waits
  rw [he, hu.next]
  have hsplits : (withAccess u a).cls.splits = s.cls.splits := (congrArg Cls.splits hcls :)
  have hmem : (withAccess u a).cls.mem = s.cls.mem ++ [a] := (congrArg (fun c : Cls => c.mem ++ [a]) hcls :)
  have hframe : { (withAccess u a).cls with splits := s.cls.splits, mem := s.cls.mem } = s.cls :=
    (congrArg (fun c : Cls => { c with splits := s.cls.splits, mem := s.cls.mem }) hcls :)
  exact ⟨hmem, hop, hlanes, hdest, hgroup, goesOn_of_modCur (u := withAccess u a) (State.issuing_split hs) hu.iss hsplits pend,
    hframe, ⟨hu.words, hu.others, hu.forms, hu.pending⟩, fun x => congrArg (fun m : Memory => m.get x) hu.mem⟩

/-! ### Phase 2 (R97) -/

/-- What a check lets pass asks for what it did. -/
def KeepsAsk (l : LaneReq) : LaneCheck → Prop
  | .ok l' => l'.asked = l.asked
  | .miss _ | .bad _ | .now _ => True

theorem keepsAsk_ite {l : LaneReq} {c : Prop} [Decidable c] {a b : LaneCheck} (ha : KeepsAsk l a) (hb : KeepsAsk l b) :
    KeepsAsk l (if c then a else b) := by
  split
  · exact ha
  · exact hb

theorem keepsAsk_gather {l : LaneReq} (op : AccOp) {f : Bool → Bool → LaneCheck} {a : LaneCheck} (hf : ∀ b i, KeepsAsk l (f b i))
    (ha : KeepsAsk l a) : KeepsAsk l (match op with
      | .rlds b i => f b i
      | _ => a) := by
  cases op with
  | rlds b i => exact hf b i
  | _ => exact ha

theorem keepsAsk_entry {l : LaneReq} (r : Except Bool TlbEntry) {a b : LaneCheck} {f : TlbEntry → LaneCheck} (ha : KeepsAsk l a)
    (hb : KeepsAsk l b) (hf : ∀ e, KeepsAsk l (f e)) : KeepsAsk l (match r with
      | .error true => a
      | .error false => b
      | .ok e => f e) :=
  match r with
  | .error true => ha
  | .error false => hb
  | .ok e => hf e

theorem keepsAsk_race {l : LaneReq} (r : Option FaultInfo) {a : LaneCheck} (ha : KeepsAsk l a) : KeepsAsk l (match r with
      | some f => .bad f
      | none => a) :=
  match r with
  | some _ => trivial
  | none => ha

theorem checkLane_keepsAsk (s : State) (c : Cls) (op : AccOp) (l : LaneReq) (pol : Nat) : KeepsAsk l (s.checkLane c op l pol) :=
  keepsAsk_ite (keepsAsk_ite rfl trivial) (keepsAsk_ite
    (keepsAsk_gather op (fun _ _ => trivial) (keepsAsk_ite trivial (keepsAsk_ite trivial rfl)))
    (keepsAsk_entry _ trivial trivial fun _ => keepsAsk_ite trivial (keepsAsk_ite trivial (keepsAsk_ite trivial
      (keepsAsk_gather op (fun _ _ => keepsAsk_ite trivial rfl)
        (keepsAsk_ite rfl (keepsAsk_ite trivial (keepsAsk_ite trivial (keepsAsk_race _ rfl)))))))))

/-- A lane that passes its checks asks for what it did. -/
theorem checkLane_asked {s : State} {c : Cls} {op : AccOp} {l l' : LaneReq} {pol : Nat} (h : s.checkLane c op l pol = .ok l') :
    l'.asked = l.asked := by
  have hkeeps := checkLane_keepsAsk s c op l pol
  rwa [h] at hkeeps

theorem phase2_ok {s : State} {c : Cls} {op : AccOp} {lanes : List LaneReq} {pol : Nat}
    (h : ∀ l ∈ lanes, l.done = false ∧ ∃ l', s.checkLane c op l pol = .ok l') :
    (s.phase2 c op lanes pol).missed = [] ∧ (s.phase2 c op lanes pol).fault = none ∧
      (s.phase2 c op lanes pol).lanes.map LaneReq.asked = lanes.map LaneReq.asked := by
  induction lanes with
  | nil => exact ⟨rfl, rfl, rfl⟩
  | cons l lanes ih =>
    obtain ⟨hdone, l', hl'⟩ := h l List.mem_cons_self
    obtain ⟨hmissed, hfault, hasked⟩ := ih fun m hm => h m (List.mem_cons_of_mem _ hm)
    have hcons : s.phase2 c op (l :: lanes) pol =
        { s.phase2 c op lanes pol with lanes := l' :: (s.phase2 c op lanes pol).lanes } := by
      unfold State.phase2
      simp only [List.foldr_cons, hdone, hl']
      rfl
    rw [hcons]
    exact ⟨hmissed, hfault, congrArg₂ List.cons (checkLane_asked hl') hasked⟩

/-- The access that `enter` takes once every lane has passed. -/
noncomputable def translated (s : State) (a : Access) : Access := { a with id := s.nextId, lanes := (s.phase2 s.cls a.op a.lanes a.pol).lanes }

/-- With nothing outstanding the counter of stores has room. -/
theorem storeRoom_of_idle {c : Cls} (h : c.mem = []) (counts : Bool) : (counts && decide (65535 ≤ c.soc)) = false :=
  (congrArg (fun n => counts && decide (65535 ≤ n)) (soc_of_idle h)).trans (Bool.and_false _)

/-- A fault found is raised as `f` says. -/
noncomputable def faultOr (o : Option (LaneReq × Cause)) (f : LaneReq → Cause → State) (t : State) : State :=
  match o with
  | some (l, c) => f l c
  | none => t

/-- With nothing outstanding an access whose lanes all pass enters the list. -/
theorem issueAccess_of_ok {s : State} {a : Access} (la : Nat) (hmem : s.cls.mem = [])
    (h : ∀ l ∈ a.lanes, l.done = false ∧ ∃ l', s.checkLane s.cls a.op l a.pol = .ok l') :
    issueAccess a la s = enter (translated s a) la a.op.waited (s.touchAll s.cls a.lanes).fresh := by
  obtain ⟨hmissed, hfault, -⟩ := phase2_ok h
  have hfound : (!(s.phase2 s.cls a.op a.lanes a.pol).missed.isEmpty) = false := by rw [hmissed]; rfl
  refine (if_neg (Bool.eq_false_iff.mp (mustWait_of_idle hmem _))).trans ((if_neg (Bool.eq_false_iff.mp (storeRoom_of_idle hmem _))).trans
    ((if_neg (Bool.eq_false_iff.mp hfound)).trans ?_))
  rw [hfault]
  rfl

/-- What an instruction that has entered memory leaves of the rest of the machine. -/
structure Entered (s t : State) (f : MemForm) (a : Access) : Prop where
  enters : EntersMemory s t f a
  stage  : a.stage = .fabric
  id     : a.id = s.nextId
  nextId : t.nextId = s.nextId + 1
  pins   : t.pins = s.pins

theorem enter_rest (a : Access) (la : Nat) (waits : Bool) {s : State} (hs : s.issuing = true) :
    (enter a la waits s).nextId = s.nextId ∧ (enter a la waits s).pins = s.pins := by
  obtain ⟨pend, he⟩ := enter_eq hs a la waits
  rw [he]
  exact ⟨rfl, rfl⟩

theorem enter_entered {s u : State} {p : Pfx} {f : MemForm} {a b : Access} (hs : s.issuing = true) (hu : Touched s u)
    (hid : u.nextId = s.nextId + 1) (ha : Asks s p f a) (la : Nat) (waits : Bool)
    (hb : b = { a with id := s.nextId, lanes := b.lanes }) (hlanes : b.lanes.map LaneReq.asked = a.lanes.map LaneReq.asked) :
    Entered s (enter b la waits u) f b := by
  obtain ⟨hnext, hpins⟩ := enter_rest b la waits (hu.issuing hs)
  have hlanes' : b.lanes.map LaneReq.asked = f.reqs.map LaneReq.asked := by rw [hlanes, ha.lanes]
  refine ⟨enter_entersMemory hs hu la waits ?_ hlanes' ?_ ?_, ?_, ?_, hnext.trans hid, hpins.trans hu.pins⟩
  · rw [hb]; exact ha.op
  · rw [hb]; exact ha.dest
  · rw [hb]; exact ha.group
  · rw [hb]; exact ha.stage
  · rw [hb]

theorem issueAccess_entered {s : State} {p : Pfx} {f : MemForm} {a : Access} (la : Nat) (hs : s.issuing = true)
    (hmem : s.cls.mem = []) (ha : Asks s p f a)
    (h : ∀ l ∈ f.reqs, l.done = false ∧ ∃ l', s.checkLane s.cls f.op l (Pfxp.polOf p) = .ok l') :
    ∃ b, Entered s (issueAccess a la s) f b := by
  have h' : ∀ l ∈ a.lanes, l.done = false ∧ ∃ l', s.checkLane s.cls a.op l a.pol = .ok l' := by
    rwa [ha.lanes, ha.op, ha.pol]
  rw [issueAccess_of_ok la hmem h']
  obtain ⟨htouched, hnext⟩ := touchAll_same s s.cls a.lanes
  exact ⟨_, enter_entered hs (htouched.trans (fresh_touched _)) (congrArg (· + 1) hnext) ha la a.op.waited rfl (phase2_ok h').2.2⟩

/-! ### Phase 1 (R95 to R97) -/

theorem addrFault_eq (level n : Nat) (l : LaneReq) :
    addrFault level n n l.ea =
      if phase1 level n l = true then none
      else if l.ea < 0 ∨ topOf level l.ea < l.ea + n then some .addr else some .align := by
  have hphase : phase1 level n l = true ↔ (0 ≤ l.ea ∧ l.ea + n ≤ topOf level l.ea) ∧ l.ea % (n : Int) = 0 := by
    unfold phase1
    simp only [Bool.and_eq_true, decide_eq_true_eq]
  unfold addrFault
  change (if l.ea < 0 ∨ topOf level l.ea < l.ea + n then _ else _) = _
  by_cases hout : l.ea < 0 ∨ topOf level l.ea < l.ea + n
  · have hfail : ¬ phase1 level n l = true := by
      rw [hphase]
      rintro ⟨⟨hlow, hhigh⟩, -⟩
      omega
    rw [if_pos hout, if_neg hfail, if_pos hout]
  · rw [if_neg hout]
    by_cases hal : l.ea % (n : Int) = 0
    · rw [if_neg (not_not.mpr hal), if_pos (hphase.mpr ⟨by omega, hal⟩)]
    · rw [if_pos hal, if_neg fun h => hal (hphase.mp h).2, if_neg hout]

theorem firstFault_none {lanes : List LaneReq} {f : LaneReq → Option Cause} (h : ∀ l ∈ lanes, f l = none) :
    firstFault lanes f = none := by
  unfold firstFault
  rw [List.findSome?_eq_none_iff]
  exact fun l hl => by rw [h l hl]; rfl

/-- The lowest lane that fails a check is the one reported. -/
theorem firstFault_some {pre post : List LaneReq} {l : LaneReq} {f : LaneReq → Option Cause} {c : Cause}
    (hpre : ∀ m ∈ pre, f m = none) (hl : f l = some c) : firstFault (pre ++ l :: post) f = some (l, c) := by
  have hnone := firstFault_none hpre
  unfold firstFault at hnone ⊢
  rw [List.findSome?_append, hnone, List.findSome?_cons, hl]
  rfl

theorem memAccess_eq (a : Access) (n la : Nat) (s : State) :
    memAccess a n la s = faultOr (firstFault a.lanes (fun l => addrFault s.cls.level a.op.size n l.ea))
      (fun l c => raise { cause := c, addr := eaField l.ea, lane := l.lane, aux := a.op.size, write := a.op.need.writes,
                          mask := some a.mask } s)
      (if a.lanes.isEmpty then retire s else issueAccess a la s) := rfl

theorem memAccess_of_phase1 {s : State} {a : Access} (la : Nat)
    (h : ∀ l ∈ a.lanes, phase1 s.cls.level a.op.size l = true) :
    memAccess a a.op.size la s = if a.lanes.isEmpty then retire s else issueAccess a la s :=
  (memAccess_eq a _ la s).trans (congrArg (faultOr · _ _)
    (firstFault_none fun l hl => (addrFault_eq _ _ l).trans (if_pos (h l hl))))

/-! ### Table 12-3: what each instruction asks for -/

theorem size_eq_bytes (wd : Width) : Width.size wd = Width.bytes wd := by cases wd <;> rfl

theorem laneReqs_eq (s : State) (eff : Mask) {ea ea' : Nat → Int} {data data' : Nat → Nat} (hea : ∀ i, ea i = ea' i)
    (hdata : ∀ i, data i = data' i) : s.laneReqs eff ea data = lanesAt s eff ea' data' := by
  rw [funext hea, funext hdata]
  rfl

/-- No lane of a new request is done. -/
theorem lanesAt_new {s : State} {eff : Mask} {ea : Nat → Int} {data : Nat → Nat} (l : LaneReq) (hl : l ∈ lanesAt s eff ea data) :
    l.done = false := by
  obtain ⟨_, _, rfl⟩ := List.mem_map.mp hl
  rfl

theorem off32_toInt (x : Imx) (off : BitVec 7) : (off32 x off).toInt = offInt x off := by
  cases x with
  | none => exact BitVec.toInt_signExtend_of_le (by decide)
  | some h => rfl

theorem offS_eq (x : Imx) (off : BitVec 7) (n : Nat) : offS x off n = offInt x off * n := by
  rw [offS, off32_toInt]

theorem eaL_eq (s : State) (ra : Reg) (n : Nat) (off : Int) (i : Nat) : s.eaL ra n (off * n) i = eaLinear s ra n off i := by
  unfold State.eaL eaLinear
  push_cast
  ring

theorem eaL_off (s : State) (x : Imx) (ra : Reg) (n : Nat) (off : BitVec 7) (i : Nat) :
    s.eaL ra n (offS x off n) i = eaLinear s ra n (offInt x off) i := by
  rw [offS_eq, eaL_eq]

theorem eaL_word (s : State) (ra : Reg) (off : BitVec 6) (i : Nat) :
    s.eaL ra 4 (4 * off.toInt) i = eaLinear s ra 4 off.toInt i := by
  rw [Int.mul_comm]
  exact eaL_eq s ra 4 off.toInt i

theorem eaX_eq (s : State) (ra rb : Reg) (n i : Nat) : s.eaX ra rb n i = eaIndexed s ra rb n i := by
  unfold State.eaX eaIndexed
  push_cast
  ring

theorem laneData_eq (s : State) (r : Reg) (n i : Nat) : s.laneData r n i = laneBytes s r n i := by
  unfold State.laneData laneBytes
  by_cases hn : n = 8
  · have hpair : (s.getV r i).toNat + (s.getV (r + 1) i).toNat * 2 ^ 32 < 2 ^ (8 * 8) :=
      calc _ < 2 ^ 32 + (s.getV (r + 1) i).toNat * 2 ^ 32 := Nat.add_lt_add_right (s.getV r i).isLt _
        _ = ((s.getV (r + 1) i).toNat + 1) * 2 ^ 32 := by rw [Nat.add_comm, Nat.succ_mul]
        _ ≤ 2 ^ 32 * 2 ^ 32 := Nat.mul_le_mul_right _ (s.getV (r + 1) i).isLt
    rw [if_pos hn, if_pos hn, hn, Nat.mod_eq_of_lt hpair]
  · rw [if_neg hn, if_neg hn, Nat.add_zero]

/-- The one request of a scalar access (R256). -/
theorem scalarReq_eq (s : State) (x : Imx) (dbl : Bool) (ra : Reg) (off : BitVec 7) {data data' : Nat} (hdata : data = data') :
    scalarReq ((s.getS ra).toNat + offS x off (dblBytes dbl)) data =
      [{ lane := 0x7FFF, ea := (s.getS ra).toNat + offInt x off * (if dbl then 8 else 4), data := data' }] := by
  rw [offS_eq, hdata]
  cases dbl <;> rfl

/-- The requests of an atomic, with the second datum of ACAS (R260). -/
theorem atomReqs_eq (s : State) (f : AtomFn) (p : Pfx) (rd ra rb : Reg) :
    (s.laneReqs (s.eff p) (s.eaX ra rb 4) (fun i => (s.getV rd i).toNat)).map
        (fun l => { l with cmp := if f = .cas then (s.getV (rd + 1) l.lane).toNat else 0 }) = (atomForm s f p rd ra rb).reqs := by
  unfold State.laneReqs atomForm lanesAt
  rw [List.map_map, funext (eaX_eq s ra rb 4)]
  rfl

/-- STRL with its access `a` (R259). -/
noncomputable def releasing (a : Access) (la scope : Nat) (s : State) : State :=
  if a.lanes.isEmpty then retire s
  else if scope != 0 && !s.quiet s.cls then hold s
  else if (memAccess a 4 la s).nextId = s.nextId then memAccess a 4 la s else (memAccess a 4 la s).release s.cls scope

/-- RLDS with its access `a` (R264). -/
noncomputable def gathering (a : Access) (la : Nat) (s : State) : State :=
  match (memAccess a 4 la s).cls.mem.find? (fun x => x.id == s.nextId) with
  | none => memAccess a 4 la s
  | some x => if x.stage = .fabric then sendGather s.cls.vmid x (memAccess a 4 la s) else memAccess a 4 la s

/-- The access `a` is issued alone, as a release, or with a gather request. -/
def Issues (s : State) (op : AccOp) (la : Nat) (a : Access) (t : State) : Prop :=
  t = memAccess a op.size la s ∨ op.size = 4 ∧ ((∃ scope, t = releasing a la scope s) ∨ t = gathering a la s)

theorem issues_alone (s : State) (op : AccOp) (la : Nat) (a : Access) : Issues s op la a (memAccess a op.size la s) := .inl rfl

theorem issues_release {op : AccOp} (hsize : op.size = 4) (s : State) (la scope : Nat) (a : Access) :
    Issues s op la a (releasing a la scope s) := .inr ⟨hsize, .inl ⟨scope, rfl⟩⟩

theorem issues_gather {op : AccOp} (hsize : op.size = 4) (s : State) (la : Nat) (a : Access) :
    Issues s op la a (gathering a la s) := .inr ⟨hsize, .inr rfl⟩

/-- An admitted instruction makes the access `a` of Table 12-3. -/
structure Makes (s : State) (i : Instr) (f : MemForm) (a : Access) (la : Nat) : Prop where
  asks : Asks s (instrPfx i) f a
  new  : ∀ l ∈ f.reqs, l.done = false
  runs : ∃ body, exec i s = .next (guarded i body s) ∧ Issues s f.op la a (body s)

/-- The access of `p`'s effective lanes with these requests. -/
noncomputable def asking (s : State) (p : Pfx) (op : AccOp) (reqs : List LaneReq) (dest : List Nat) (sdest : Option Reg)
    (scope perLane : Nat) : Access :=
  { s.access p op reqs with dest, sdest, scope, perLane }

theorem asks_asking {s : State} {p : Pfx} {f : MemForm} {reqs : List LaneReq} (scope perLane : Nat) (hmask : s.eff p = f.mask)
    (hreqs : reqs = f.reqs) : Asks s p f (asking s p f.op reqs f.dest f.sdest scope perLane) :=
  ⟨rfl, hreqs, ⟨rfl, rfl⟩, ⟨rfl, rfl, rfl, hmask⟩, rfl, rfl⟩

/-- What has the form of a memory instruction acts as one. -/
def Accesses (s : State) (i : Instr) : Prop := ∀ f, memForm s i = some f → ∃ a la, Makes s i f a la

theorem accesses_of_none {s : State} {i : Instr} (h : memForm s i = none) : Accesses s i :=
  fun _ hf => nomatch h.symm.trans hf

theorem accesses_of {s : State} {i : Instr} {f : MemForm} {reqs : List LaneReq} {scope perLane la : Nat} {body : State → State}
    (hf : memForm s i = some f) (hmask : s.eff (instrPfx i) = f.mask) (hexec : exec i s = .next (guarded i body s))
    (hbody : Issues s f.op la (asking s (instrPfx i) f.op reqs f.dest f.sdest scope perLane) (body s)) (hreqs : reqs = f.reqs)
    (hnew : ∀ l ∈ f.reqs, l.done = false) : Accesses s i := by
  rintro g hg
  obtain rfl := Option.some.inj (hg.symm.trans hf)
  exact ⟨_, la, asks_asking _ _ hmask hreqs, hnew, body, hexec, hbody⟩

theorem accesses_of_lanes {s : State} {i : Instr} {op : AccOp} {ea ea' : Nat → Int} {data data' : Nat → Nat}
    {dest : List Nat} {scope perLane : Nat} (la : Nat)
    (hf : memForm s i = some { op, mask := s.eff (instrPfx i), reqs := lanesAt s (s.eff (instrPfx i)) ea' data', dest })
    {body : State → State} (hexec : exec i s = .next (guarded i body s))
    (hbody : Issues s op la (asking s (instrPfx i) op (s.laneReqs (s.eff (instrPfx i)) ea data) dest none scope perLane) (body s))
    (hea : ∀ i, ea i = ea' i) (hdata : ∀ i, data i = data' i) : Accesses s i :=
  accesses_of hf rfl hexec hbody (laneReqs_eq s _ hea hdata) lanesAt_new

theorem accesses_of_scalar {s : State} {i : Instr} {op : AccOp} {reqs : List LaneReq} {l : LaneReq} {sdest : Option Reg}
    {perLane : Nat} (la : Nat) (hf : memForm s i = some { op, mask := s.eff (instrPfx i), reqs := [l], sdest }) {body : State → State}
    (hexec : exec i s = .next (guarded i body s))
    (hbody : Issues s op la (asking s (instrPfx i) op reqs [] sdest 0 perLane) (body s)) (hreqs : reqs = [l])
    (hl : l.done = false) : Accesses s i :=
  accesses_of hf rfl hexec hbody hreqs (List.forall_mem_singleton.mpr hl)

theorem accesses_of_atom {s : State} {i : Instr} (fn : AtomFn) (rd ra rb : Reg) (la : La)
    (hf : memForm s i = some (atomForm s fn (instrPfx i) rd ra rb))
    (hexec : exec i s = .next (guarded i (atomicOp fn (instrPfx i) rd ra rb la) s)) : Accesses s i :=
  accesses_of hf rfl hexec (issues_alone ..) (atomReqs_eq s fn _ rd ra rb) fun _ hl => by
    obtain ⟨_, _, rfl⟩ := List.mem_map.mp hl
    rfl

/-- The instructions of Table 12-3. -/
theorem accesses (s : State) (i : Instr) : Accesses s i := by
  induction i with
  | ldl x p wd rd ra off la => exact accesses_of_lanes la.toNat rfl rfl (issues_alone ..) (eaL_off s x ra _ off) fun _ => rfl
  | stl x p wd rs ra off la => exact accesses_of_lanes la.toNat rfl rfl (issues_alone ..) (eaL_off s x ra _ off) (laneData_eq s _ _)
  | ldi p wd rd ra rb la => exact accesses_of_lanes la.toNat rfl rfl (issues_alone ..) (eaX_eq s _ _ _) fun _ => rfl
  | sti p wd rs ra rb la => exact accesses_of_lanes la.toNat rfl rfl (issues_alone ..) (eaX_eq s _ _ _) (laneData_eq s _ _)
  | sld x p dbl rd ra off la => exact accesses_of_scalar la.toNat rfl rfl (issues_alone ..) (scalarReq_eq s x dbl ra off rfl) rfl
  | sst x p dbl rs ra off la =>
    exact accesses_of_scalar la.toNat rfl rfl (issues_alone ..) (scalarReq_eq s x dbl ra off (by cases dbl <;> rfl)) rfl
  | ldaq x p rd ra off la => exact accesses_of_lanes la.toNat rfl rfl (issues_alone ..) (eaL_off s x ra 4 off) fun _ => rfl
  | strl x p rs ra off la =>
    exact accesses_of_lanes la.toNat rfl rfl (issues_release rfl ..) (eaL_off s x ra 4 off) (laneData_eq s _ _)
  | aadd | amin | amax | aand | aor | axor | axch | acas | afadd => exact accesses_of_atom _ _ _ _ _ rfl rfl
  | mredW | mredD | mredF => exact accesses_of_lanes _ rfl rfl (issues_alone ..) (eaX_eq s _ _ _) (laneData_eq s _ _)
  | rldsF p bf rd ra off la =>
    exact accesses_of_lanes _ rfl rfl (issues_gather rfl ..) (eaL_word s ra off) fun _ => rfl
  | rldsI p rd ra off la =>
    exact accesses_of_lanes _ rfl rfl (issues_gather rfl ..) (eaL_word s ra off) fun _ => rfl
  | _ => exact accesses_of_none rfl

/-- An instruction of the form `f` runs: it issues the access `a`. -/
structure Runs (s : State) (i : Instr) (f : MemForm) (a : Access) (la : Nat) (t : State) : Prop where
  asks   : Asks s (instrPfx i) f a
  new    : ∀ l ∈ f.reqs, l.done = false
  exec   : exec i s = .next t
  issues : Issues s f.op la a t

theorem runs_of_memForm {s : State} {i : Instr} {f : MemForm} (hf : memForm s i = some f) (hl : s.legal i = true) :
    ∃ a la t, Runs s i f a la t := by
  obtain ⟨a, la, ha, hnew, body, hexec, hissues⟩ := accesses s i f hf
  exact ⟨a, la, _, ha, hnew, hexec.trans (congrArg Host.Outcome.next (guarded_legal hl body)), hissues⟩

/-! ### What a release and a gather request add -/

theorem goesOn_congr {s t u : State} {pc : Int} (h : GoesOn s t pc) (hu : Touched t u) : GoesOn s u pc := by
  have hcls := hu.cls
  have hsp : u.cur = t.cur := congrArg₂ (fun (c : Cls) (i : Issue) => c.split i.split) hcls hu.iss
  exact ⟨(congrArg Split.pc hsp).trans h.pc, (congrArg Split.age hsp).trans h.age,
    (congrArg (fun x : Split => { x with pc := s.cur.pc, age := s.cur.age, pend := s.cur.pend }) hsp).trans h.cur,
    fun j hj => (congrArg (·.split j) hcls).trans (h.splits j hj), hu.iss.trans h.issue⟩

theorem entersMemory_congr {s t u : State} {f : MemForm} {a : Access} (h : EntersMemory s t f a) (hu : Touched t u) :
    EntersMemory s u f a := by
  have hcls := hu.cls
  obtain ⟨hwords, hothers, hforms, hpending⟩ := h.rest
  exact ⟨(congrArg Cls.mem hcls).trans h.entry, h.op, h.asked, h.dest, h.group, goesOn_congr h.on hu,
    (congrArg (fun c : Cls => { c with splits := s.cls.splits, mem := s.cls.mem }) hcls).trans h.cls,
    ⟨hu.words.trans hwords, hu.others.trans hothers, hu.forms.trans hforms, hu.pending.trans hpending⟩,
    fun x => (congrArg (·.get x) hu.mem).trans (h.bytes x)⟩

theorem memAccess_entered {s : State} {p : Pfx} {f : MemForm} {a : Access} (la : Nat) (hs : s.issuing = true)
    (hmem : s.cls.mem = []) (ha : Asks s p f a) (hne : f.reqs ≠ []) (hdone : ∀ l ∈ f.reqs, l.done = false)
    (hphase : ∀ l ∈ f.reqs, phase1 s.cls.level f.op.size l = true)
    (hok : ∀ l ∈ f.reqs, ∃ l', s.checkLane s.cls f.op l (Pfxp.polOf p) = .ok l') :
    ∃ b, Entered s (memAccess a f.op.size la s) f b := by
  have hphase' : ∀ l ∈ a.lanes, phase1 s.cls.level a.op.size l = true := by rwa [ha.lanes, ha.op]
  have hissue : memAccess a f.op.size la s = issueAccess a la s := by
    rw [← ha.op, memAccess_of_phase1 la hphase', if_neg]
    simpa [ha.lanes] using hne
  rw [hissue]
  exact issueAccess_entered la hs hmem ha fun l hl => ⟨hdone l hl, hok l hl⟩

theorem release_touched {s : State} (c : Cls) (scope : Nat) (hpins : s.pins = []) : Touched s (s.release c scope) := by
  by_cases hscope : scope = 0
  · rw [State.release, if_pos hscope]
    rfl
  · rw [release_of_no_pins hpins hscope]
    rfl

/-- The gather request of an RLDS is sent (R264). -/
noncomputable def gatherSent (vmid : Nat) (a : Access) (bf isInt : Bool) (s : State) : State :=
  { s with sent := s.sent ++ [.gather (gatherFormat bf isInt) (a.lanes.filterMap (fun l =>
      (s.replicaSet vmid l.pa).map (fun r => (r.2.1, r.2.2.1))))] }

theorem sendGather_touched (vmid : Nat) (a : Access) (s : State) : Touched s (sendGather vmid a s) := by
  have hsent (op : AccOp) : Touched s (match op with
      | .rlds bf isInt => gatherSent vmid a bf isInt s
      | _ => s) := by
    cases op with
    | rlds => rfl
    | _ => exact .refl s
  exact hsent a.op

/-- An RLDS enters memory, and its gather request is sent when it may go. -/
theorem gathering_enters {s : State} {f : MemForm} {a b : Access} {la : Nat} (h : EntersMemory s (memAccess a 4 la s) f b) :
    EntersMemory s (gathering a la s) f b := by
  unfold gathering
  split
  · exact h
  · split
    · exact entersMemory_congr h (sendGather_touched _ _ _)
    · exact h

/-- STRL enters memory and is a release. -/
theorem releasing_enters {s : State} {f : MemForm} {a b : Access} {la scope : Nat} (hlanes : a.lanes.isEmpty = false)
    (hquiet : s.quiet s.cls = true) (hnext : (memAccess a 4 la s).nextId = s.nextId + 1) (hpins : (memAccess a 4 la s).pins = [])
    (h : EntersMemory s (memAccess a 4 la s) f b) : EntersMemory s (releasing a la scope s) f b := by
  unfold releasing
  rw [if_neg (Bool.eq_false_iff.mp hlanes), if_neg (by rw [hquiet, Bool.not_true, Bool.and_false]; decide),
    if_neg (by rw [hnext]; exact Nat.succ_ne_self _)]
  exact entersMemory_congr h (release_touched _ _ hpins)

theorem memory_enters {s : State} {i : Instr} {f : MemForm} (hf : memForm s i = some f) (hs : s.issuing = true) (hl : s.legal i = true)
    (hmem : s.cls.mem = []) (hreqs : s.creqs = []) (hpins : s.pins = []) (hne : f.reqs ≠ [])
    (hphase : ∀ l ∈ f.reqs, phase1 s.cls.level f.op.size l = true)
    (hok : ∀ l ∈ f.reqs, ∃ l', s.checkLane s.cls f.op l (Pfxp.polOf (instrPfx i)) = .ok l') :
    ∃ t a, exec i s = .next t ∧ EntersMemory s t f a ∧ a.stage = .fabric := by
  obtain ⟨a, la, t, ha, hnew, hexec, hissues⟩ := runs_of_memForm hf hl
  obtain ⟨b, henters, hstage, -, hnext, hpins'⟩ := memAccess_entered la hs hmem ha hne hnew hphase hok
  refine ⟨t, b, hexec, ?_, hstage⟩
  rcases hissues with rfl | ⟨hsize, ⟨scope, rfl⟩ | rfl⟩
  · exact henters
  · rw [hsize] at henters hnext hpins'
    have hlanes : a.lanes.isEmpty = false := List.isEmpty_eq_false_iff.mpr (ha.lanes ▸ hne)
    exact releasing_enters hlanes (quiet_of_idle hmem hreqs) hnext (hpins'.trans hpins) henters
  · rw [hsize] at henters
    exact gathering_enters henters

/-- A memory instruction of no lane only goes on (R28). -/
theorem memory_passes {s : State} {i : Instr} {f : MemForm} (hf : memForm s i = some f) (hs : s.issuing = true) (hl : s.legal i = true)
    (hmem : s.cls.mem = []) (hempty : f.reqs = []) : ∃ t, exec i s = .next t ∧ WritesNothing s t s.next := by
  obtain ⟨a, la, t, ha, -, hexec, hissues⟩ := runs_of_memForm hf hl
  have hlanes : a.lanes = [] := ha.lanes.trans hempty
  have hretire (n : Nat) : memAccess a n la s = retire s := by
    unfold memAccess
    rw [hlanes]
    rfl
  have hnothing := retire_writesNothing hs
  refine ⟨t, hexec, ?_⟩
  rcases hissues with rfl | ⟨-, ⟨scope, rfl⟩ | rfl⟩
  · exact hretire _ ▸ hnothing
  · have hnone : releasing a la scope s = retire s := if_pos (List.isEmpty_iff.mpr hlanes)
    exact hnone ▸ hnothing
  · have hnone : (retire s).cls.mem.find? (fun x => x.id == s.nextId) = none := by
      rw [show (retire s).cls.mem = [] from (congrArg Cls.mem hnothing.cls).trans hmem]
      rfl
    rw [gathering, hretire, hnone]
    exact hnothing

/-- Settles O22. -/
theorem memoryIssues : Obligations.MemoryIssues := ⟨@memory_enters, @memory_passes⟩

/-! ### Scratchpad and physical accesses (R257, R352) -/

/-- The requests of LDS and STS. -/
theorem scratchReqs_eq (s : State) (p : Pfx) (x : Imx) (ra : Reg) (off : BitVec 7) (n : Nat) {data data' : Nat → Nat}
    (hdata : ∀ i, data i = data' i) :
    s.laneReqs (s.eff p) (fun i => ((s.getV ra i).toNat + offU x off n : Nat)) data =
      lanesAt s (s.eff p) (fun j => (s.getV ra j).toNat + (match x with
        | none => off.toNat
        | some h => (h ++ off : BitVec 32).toNat) * (n : Int)) data' := by
  refine laneReqs_eq s _ (fun i => ?_) hdata
  cases x <;> exact (Nat.cast_add _ _).trans (congrArg ((((s.getV ra i).toNat : Int)) + ·) (Nat.cast_mul _ _))

theorem scratchAccess_eq (a : Access) (store : Bool) (la : Nat) (s : State) :
    scratchAccess a store la s = faultOr (s.scratchFirst a.op.size store a.lanes)
      (fun l c => raiseScratch a.op.size store (some a.mask) l c s)
      (if a.lanes.isEmpty then retire s
        else if s.cls.pipeHeld || (a.counts && decide (65535 ≤ s.cls.soc)) then hold s else enter a la a.op.waited s.fresh) := rfl

section
variable {s : State} {p : Pfx} {f : MemForm} {a : Access} {n : Nat} {store : Bool} (la : Nat)
  (ha : Asks s p f a) (hn : a.op.size = n)
include ha hn

theorem scratchAccess_entered (hs : s.issuing = true) (hmem : s.cls.mem = []) (hid : a.id = s.nextId) (hne : f.reqs ≠ [])
    (hfirst : s.scratchFirst n store f.reqs = none) : ∃ b, Entered s (scratchAccess a store la s) f b := by
  have hnone : s.scratchFirst a.op.size store a.lanes = none := by rw [hn, ha.lanes, hfirst]
  have hlanes : a.lanes.isEmpty = false := List.isEmpty_eq_false_iff.mpr (ha.lanes ▸ hne)
  have hroom : (s.cls.pipeHeld || (a.counts && decide (65535 ≤ s.cls.soc))) = false :=
    Bool.or_eq_false_iff.mpr ⟨pipeHeld_of_idle hmem, storeRoom_of_idle hmem _⟩
  have hentry : scratchAccess a store la s = enter a la a.op.waited s.fresh :=
    (scratchAccess_eq a store la s).trans ((congrArg (faultOr · _ _) hnone).trans ((if_neg (Bool.eq_false_iff.mp hlanes)).trans (if_neg (Bool.eq_false_iff.mp hroom))))
  exact ⟨a, hentry ▸ enter_entered hs (fresh_touched s) rfl ha la a.op.waited (by rw [← hid]) rfl⟩

omit hn in
theorem scratchAccess_none (hs : s.issuing = true) (hempty : f.reqs = []) :
    WritesNothing s (scratchAccess a store la s) s.next := by
  unfold scratchAccess
  rw [ha.lanes, hempty]
  exact retire_writesNothing hs

theorem scratchAccess_raises (hs : s.issuing = true) (hk : s.cls.kind ≠ .handler) (hmask : a.mask = s.eff p) {l : LaneReq} {c : Cause}
    (hfirst : s.scratchFirst n store f.reqs = some (l, c)) :
    Raises s (scratchAccess a store la s)
      { cause := c, addr := (l.ea % 2 ^ 64).toNat, lane := l.lane, aux := scratchAux c n store, write := store,
        mask := some (s.eff p) } := by
  have hsome : s.scratchFirst a.op.size store a.lanes = some (l, c) := by rw [hn, ha.lanes, hfirst]
  rw [(scratchAccess_eq a store la s).trans (congrArg (faultOr · _ _) hsome), ← eaField_eq, ← hmask, ← hn]
  exact raise_raises _ (State.issuing_split hs) hk

end

/-- LDS, or STS. -/
def scratchInstr (x : Imx) (p : Pfx) (dbl : Bool) (r ra : Reg) (off : BitVec 7) (la : La) (store : Bool) : Instr :=
  if store then .sts x p dbl r ra off la else .lds x p dbl r ra off la

/-- What LDS and STS ask for (Table 12-3). -/
noncomputable def scratchForm (s : State) (x : Imx) (p : Pfx) (dbl : Bool) (r ra : Reg) (off : BitVec 7) (store : Bool) : MemForm :=
  let n := if dbl then 8 else 4
  { op := if store then .storeScratch n else .loadScratch n, mask := s.eff p, dest := if store then [] else destOf s (s.eff p) r n,
    reqs := lanesAt s (s.eff p) (fun j => (s.getV ra j).toNat + (match x with
      | none => off.toNat
      | some h => (h ++ off : BitVec 32).toNat) * (n : Int)) (if store then laneBytes s r n else fun _ => 0) }

/-- LDS and STS make the access `a` in the scratchpad. -/
structure ScratchRun (s : State) (i : Instr) (p : Pfx) (f : MemForm) (n : Nat) (store : Bool) (la : Nat) (a : Access) : Prop where
  asks : Asks s p f a
  size : a.op.size = n
  id   : a.id = s.nextId
  mask : a.mask = s.eff p
  exec : exec i s = .next (scratchAccess a store la s)

theorem exec_scratch {s : State} {x : Imx} {p : Pfx} {dbl : Bool} {r ra : Reg} {off : BitVec 7} {la : La} {store : Bool}
    (hl : s.legal (scratchInstr x p dbl r ra off la store) = true) :
    ∃ a, ScratchRun s (scratchInstr x p dbl r ra off la store) p (scratchForm s x p dbl r ra off store) (if dbl then 8 else 4) store
      la.toNat a := by
  have hexec {i : Instr} {body : State → State} (hl : s.legal i = true) : (Host.Outcome.next (guarded i body s) : Out) = .next (body s) :=
    congrArg Host.Outcome.next (guarded_legal hl body)
  cases store with
  | false => exact ⟨_, asks_asking _ _ rfl (scratchReqs_eq s p x ra off _ fun _ => rfl), rfl, rfl, rfl, hexec hl⟩
  | true => exact ⟨_, asks_asking _ _ rfl (scratchReqs_eq s p x ra off _ (laneData_eq s r _)), rfl, rfl, rfl, hexec hl⟩

/-! #### The checks of a scratchpad address -/

theorem scratchAddr_unplaced {s : State} {form n : Nat} {ea : Int} (h : ea < 0 ∨ s.scratchPlace form ea.toNat n = none) :
    s.scratchAddr form ea n = some .scratch := by
  unfold State.scratchAddr
  by_cases hneg : ea < 0
  · rw [if_pos hneg]
  · rw [if_neg hneg, h.resolve_left hneg]

theorem scratchAddr_placed {s : State} {form n : Nat} {ea : Int} {f : Form} {off : Nat} (hea : 0 ≤ ea)
    (h : s.scratchPlace form ea.toNat n = some (f, off)) :
    s.scratchAddr form ea n = if off % n ≠ 0 then some .align else none := by
  unfold State.scratchAddr
  rw [if_neg (by omega), h]

theorem scratchLate_placed {s : State} {form n : Nat} {ea : Int} {f : Form} {off : Nat} (store : Bool)
    (h : s.scratchPlace form ea.toNat n = some (f, off)) :
    s.scratchLate form ea n store =
      if store = true ∧ off < 16 * f.bars then some .scratch
      else if store = false ∧ s.scratchPoisoned f.id off n = true then some .ecc
      else if s.engineRace f.id off n store = true then some .race else none := by
  unfold State.scratchLate Form.onBarrier
  rw [h]
  cases store <;> simp

theorem scratchAddr_misaligned {s : State} {form n : Nat} {ea : Int} {f : Form} {off : Nat} (hea : 0 ≤ ea)
    (h : s.scratchPlace form ea.toNat n = some (f, off)) : (off % n ≠ 0 → s.scratchAddr form ea n = some .align) ∧
      (off % n = 0 → s.scratchAddr form ea n = none) := by
  rw [scratchAddr_placed hea h]
  exact ⟨fun hal => if_pos hal, fun hal => if_neg (not_not.mpr hal)⟩

theorem scratchLate_cases {s : State} {form n : Nat} {ea : Int} {f : Form} {off : Nat} (store : Bool)
    (h : s.scratchPlace form ea.toNat n = some (f, off)) :
    (store = true → off < 16 * f.bars → s.scratchLate form ea n store = some .scratch) ∧
    (store = false → s.scratchPoisoned f.id off n = true → s.scratchLate form ea n store = some .ecc) ∧
    ((store = true → 16 * f.bars ≤ off) → (store = false → s.scratchPoisoned f.id off n = false) →
      s.scratchLate form ea n store = if s.engineRace f.id off n store = true then some .race else none) := by
  rw [scratchLate_placed store h]
  refine ⟨fun hst hbar => if_pos ⟨hst, hbar⟩, fun hld hmark => ?_, fun hbar hmark => ?_⟩
  · exact (if_neg fun h => Bool.false_ne_true (hld.symm.trans h.1)).trans (if_pos ⟨hld, hmark⟩)
  · exact (if_neg fun h => Nat.not_lt.mpr (hbar h.1) h.2).trans
      (if_neg fun h => Bool.false_ne_true ((hmark h.1).symm.trans h.2))

/-- The address checks of all lanes come before the rest of any. -/
theorem scratchFirst_early {s : State} {n : Nat} {store : Bool} (pre post : List LaneReq) (l : LaneReq) (c : Cause)
    (hpre : ∀ m ∈ pre, s.scratchAddr s.cls.form m.ea n = none) (hl : s.scratchAddr s.cls.form l.ea n = some c) :
    s.scratchFirst n store (pre ++ l :: post) = some (l, c) := by
  unfold State.scratchFirst
  rw [firstFault_some hpre hl]

theorem scratchFirst_late {s : State} {n : Nat} {store : Bool} (pre post : List LaneReq) (l : LaneReq) (c : Cause)
    (hall : ∀ m ∈ pre ++ l :: post, s.scratchAddr s.cls.form m.ea n = none)
    (hpre : ∀ m ∈ pre, s.scratchLate s.cls.form m.ea n store = none) (hl : s.scratchLate s.cls.form l.ea n store = some c) :
    s.scratchFirst n store (pre ++ l :: post) = some (l, c) := by
  unfold State.scratchFirst
  rw [firstFault_none hall, firstFault_some hpre hl]

theorem scratchFirst_none {s : State} {n : Nat} {store : Bool} (lanes : List LaneReq)
    (h : ∀ m ∈ lanes, s.scratchAddr s.cls.form m.ea n = none ∧ s.scratchLate s.cls.form m.ea n store = none) :
    s.scratchFirst n store lanes = none := by
  unfold State.scratchFirst
  rw [firstFault_none fun m hm => (h m hm).1, firstFault_none fun m hm => (h m hm).2]

section
variable {s : State} {x : Imx} {p : Pfx} {dbl : Bool} {r ra : Reg} {off : BitVec 7} {la : La} {store : Bool} (hs : s.issuing = true)
  (hl : s.legal (scratchInstr x p dbl r ra off la store) = true)
include hs hl

theorem scratch_enters (hmem : s.cls.mem = []) (hne : (scratchForm s x p dbl r ra off store).reqs ≠ [])
    (hfirst : s.scratchFirst (if dbl then 8 else 4) store (scratchForm s x p dbl r ra off store).reqs = none) :
    ∃ t a, exec (scratchInstr x p dbl r ra off la store) s = .next t ∧
      EntersMemory s t (scratchForm s x p dbl r ra off store) a ∧ a.stage = .fabric := by
  obtain ⟨a, ha, hn, hid, -, hexec⟩ := exec_scratch hl
  obtain ⟨b, henters, hstage, -⟩ := scratchAccess_entered la.toNat ha hn hs hmem hid hne hfirst
  exact ⟨_, b, hexec, henters, hstage⟩

theorem scratch_passes (hempty : (scratchForm s x p dbl r ra off store).reqs = []) :
    ∃ t, exec (scratchInstr x p dbl r ra off la store) s = .next t ∧ WritesNothing s t s.next := by
  obtain ⟨a, ha, -, -, -, hexec⟩ := exec_scratch hl
  exact ⟨_, hexec, scratchAccess_none _ ha hs hempty⟩

theorem scratch_raises (hk : s.cls.kind ≠ .handler) (l : LaneReq) (c : Cause)
    (hfirst : s.scratchFirst (if dbl then 8 else 4) store (scratchForm s x p dbl r ra off store).reqs = some (l, c)) :
    ∃ t, exec (scratchInstr x p dbl r ra off la store) s = .next t ∧
      Raises s t { cause := c, addr := (l.ea % 2 ^ 64).toNat, lane := l.lane, aux := scratchAux c (if dbl then 8 else 4) store,
                   write := store, mask := some (s.eff p) } := by
  obtain ⟨a, ha, hn, -, hmask, hexec⟩ := exec_scratch hl
  exact ⟨_, hexec, scratchAccess_raises _ ha hn hs hk hmask hfirst⟩

end

/-- Settles O24: the checks of a scratchpad access are two searches over its lanes, the address checks of all before the rest of any. -/
theorem scratchpadAccesses : Obligations.ScratchpadAccesses :=
  ⟨fun _ _ _ _ _ _ _ _ _ hs hl hmem => ⟨scratch_enters hs hl hmem, scratch_passes hs hl, scratch_raises hs hl⟩,
    fun _ _ store => ⟨fun _ => ⟨scratchAddr_unplaced, fun _ _ hea hplace =>
        ⟨(scratchAddr_misaligned hea hplace).1, (scratchAddr_misaligned hea hplace).2, scratchLate_cases store hplace⟩⟩,
      scratchFirst_early, scratchFirst_late, scratchFirst_none⟩⟩

/-- The checks of a physical address (R352). -/
noncomputable def physFault (l : LaneReq) : Option Cause :=
  if l.ea < 0 ∨ (2 ^ 48 : Int) ≤ l.ea ∨ (Config.memLimit : Int) ≤ l.ea then some .addr
  else if l.ea % 8 ≠ 0 then some .align else none

theorem physAccess_eq (a : Access) (la : Nat) (s : State) :
    physAccess a la s = faultOr (firstFault a.lanes physFault)
      (fun l c => raise { cause := c, addr := eaField l.ea, lane := l.lane, aux := 8, write := a.op.need.writes, mask := some a.mask } s)
      (if a.lanes.isEmpty then retire s else issueAccess a la s) := rfl

section
variable {s : State} {f : MemForm} {a : Access} (la : Nat) (ha : Asks s none f a)
include ha

theorem physAccess_issues (hne : f.reqs ≠ []) (h : ∀ l ∈ f.reqs, physFault l = none) :
    physAccess a la s = issueAccess a la s := by
  have hnone : firstFault a.lanes physFault = none := ha.lanes ▸ firstFault_none h
  have hlanes : a.lanes.isEmpty = false := List.isEmpty_eq_false_iff.mpr (ha.lanes ▸ hne)
  exact (physAccess_eq a la s).trans ((congrArg (faultOr · _ _) hnone).trans (if_neg (Bool.eq_false_iff.mp hlanes)))

theorem physAccess_raises (hs : s.issuing = true) (hk : s.cls.kind ≠ .handler) {l : LaneReq} {rest : List LaneReq} {c : Cause}
    (hreqs : f.reqs = l :: rest) (hl : physFault l = some c) :
    Raises s (physAccess a la s)
      { cause := c, addr := (l.ea % 2 ^ 64).toNat, lane := l.lane, aux := 8, write := f.op.need.writes, mask := some f.mask } := by
  have hsome : firstFault a.lanes physFault = some (l, c) :=
    (ha.lanes.trans hreqs) ▸ firstFault_some (pre := []) (List.forall_mem_nil _) hl
  obtain ⟨-, -, -, hmask⟩ := ha.group
  rw [(physAccess_eq a la s).trans (congrArg (faultOr · _ _) hsome), ← eaField_eq, ← hmask, ← ha.op]
  exact raise_raises _ (State.issuing_split hs) hk

end

/-- PLDD, or PSTD. -/
def physInstr (r ra : Reg) (off : BitVec 7) (la : La) (store : Bool) : Instr := if store then .pstd r ra off la else .pldd r ra off la

/-- What PLDD and PSTD ask for (R352). -/
noncomputable def physForm (s : State) (r ra : Reg) (off : BitVec 7) (store : Bool) : MemForm :=
  { op := if store then .physStore else .physLoad, mask := s.act, dest := if store then [] else destOf s s.act r 8,
    reqs := lanesAt s s.act (fun j => (s.getV ra j).toNat + (s.getV (ra + 1) j).toNat * 2 ^ 32 + 8 * off.toInt)
      (if store then laneBytes s r 8 else fun _ => 0) }

/-- PLDD and PSTD make the access of Table 12-3 at physical addresses. -/
theorem exec_phys {s : State} {r ra : Reg} {off : BitVec 7} {la : La} {store : Bool}
    (hl : s.legal (physInstr r ra off la store) = true) :
    ∃ a, Asks s none (physForm s r ra off store) a ∧ exec (physInstr r ra off la store) s = .next (physAccess a la.toNat s) := by
  have hexec {i : Instr} {body : State → State} (hl : s.legal i = true) : (Host.Outcome.next (guarded i body s) : Out) = .next (body s) :=
    congrArg Host.Outcome.next (guarded_legal hl body)
  have hea (j : Nat) : s.eaP ra off j = (s.getV ra j).toNat + (s.getV (ra + 1) j).toNat * 2 ^ 32 + 8 * off.toInt :=
    congrArg (· + 8 * off.toInt) (Nat.cast_add _ _)
  cases store with
  | false => exact ⟨_, ⟨rfl, laneReqs_eq s _ hea fun _ => rfl, ⟨rfl, rfl⟩, ⟨rfl, rfl, rfl, rfl⟩, rfl, rfl⟩, hexec hl⟩
  | true => exact ⟨_, ⟨rfl, laneReqs_eq s _ hea (laneData_eq s r 8), ⟨rfl, rfl⟩, ⟨rfl, rfl, rfl, rfl⟩, rfl, rfl⟩, hexec hl⟩

/-- The request of a lane at its physical address. -/
noncomputable def physLane (s : State) (l : LaneReq) : LaneReq := { l with pa := l.ea.toNat, key := s.pkey, unc := true }

/-- The sector of a physical load carries no mark. -/
theorem laneMark_phys {s : State} {c : Cls} {l : LaneReq} (hlevel : c.level = 0) (hmark : s.markAt .unit l.pa = false) :
    s.laneMark c .physLoad 0 l = false := by
  have hsector : s.sectorMark c { l with pa := l.pa + 32 * 0 } 0 (AccOp.atHome .physLoad) = false := (if_pos hlevel).trans hmark
  change (_ && ([0] : List Nat).any _) = false
  rw [List.any_cons, hsector]
  exact Bool.and_false _

/-- The checks of a lane at level 0 (R352). -/
noncomputable def physCheck (s : State) (c : Cls) (op : AccOp) (l : LaneReq) : LaneCheck :=
  if op.need.writes && s.sealed l.ea.toNat || s.inRecords l.ea.toNat op.size then
    .bad { cause := .prot, write := op.need.writes, addr := l.ea.toNat, lane := l.lane }
  else if s.laneMark c op 0 (physLane s l) then .now { cause := .ecc, write := op.need.writes, addr := l.ea.toNat, lane := l.lane }
  else .ok (physLane s l)

theorem checkLane_level0 {s : State} {c : Cls} (op : AccOp) {l : LaneReq} (hlevel : c.level = 0) (h48 : l.ea < 2 ^ 48) :
    s.checkLane c op l = match op with
      | .rlds _ _ => .bad { cause := .prot, write := op.need.writes, addr := l.ea.toNat, lane := l.lane }
      | _ => physCheck s c op l :=
  have hwin : l.ea.toNat < windowBase := (Int.toNat_lt' (by decide)).mpr (h48.trans (by decide))
  (if_neg fun h => Nat.not_le.mpr hwin h.1).trans (if_pos hlevel)

/-- At level 0 a physical address in memory that carries no error mark, no seal and no device record passes phase 2. -/
theorem checkLane_phys {s : State} {c : Cls} {l : LaneReq} {store : Bool} (hlevel : c.level = 0) (h48 : l.ea < 2 ^ 48)
    (hmark : store = false → s.markAt .unit l.ea.toNat = false) (hseal : store = true → s.sealed l.ea.toNat = false)
    (hrec : s.inRecords l.ea.toNat 8 = false) :
    s.checkLane c (if store then .physStore else .physLoad) l = .ok (physLane s l) := by
  refine (checkLane_level0 _ hlevel h48).trans ?_
  cases store with
  | false =>
    have hlane : s.laneMark c .physLoad 0 (physLane s l) = false := laneMark_phys hlevel (hmark rfl)
    exact (if_neg (Bool.eq_false_iff.mp (Bool.or_eq_false_iff.mpr ⟨rfl, hrec⟩))).trans (if_neg (Bool.eq_false_iff.mp hlane))
  | true =>
    exact (if_neg (Bool.eq_false_iff.mp (Bool.or_eq_false_iff.mpr ⟨congrArg (true && ·) (hseal rfl), hrec⟩))).trans (if_neg Bool.false_ne_true)

/-- A lane of PLDD or PSTD that passes its checks. -/
def PhysOk (s : State) (store : Bool) (l : LaneReq) : Prop :=
  0 ≤ l.ea ∧ l.ea < 2 ^ 48 ∧ l.ea < Config.memLimit ∧ l.ea % 8 = 0 ∧ (store = false → s.markAt .unit l.ea.toNat = false) ∧
    (store = true → s.sealed l.ea.toNat = false) ∧ s.inRecords l.ea.toNat 8 = false

theorem physFault_outside {l : LaneReq} (h : l.ea < 0 ∨ (2 ^ 48 : Int) ≤ l.ea ∨ (Config.memLimit : Int) ≤ l.ea) :
    physFault l = some .addr := if_pos h

theorem physFault_inside {l : LaneReq} (hlow : 0 ≤ l.ea) (h48 : l.ea < 2 ^ 48) (hlim : l.ea < Config.memLimit) :
    physFault l = if l.ea % 8 ≠ 0 then some .align else none :=
  if_neg (not_or.mpr ⟨Int.not_lt.mpr hlow, not_or.mpr ⟨Int.not_le.mpr h48, Int.not_le.mpr hlim⟩⟩)

theorem PhysOk.physFault {s : State} {store : Bool} {l : LaneReq} (h : PhysOk s store l) : physFault l = none := by
  obtain ⟨hlow, h48, hlim, hal, -⟩ := h
  exact (physFault_inside hlow h48 hlim).trans (if_neg (not_not.mpr hal))

theorem PhysOk.checkLane {s : State} {c : Cls} {store : Bool} {l : LaneReq} (h : PhysOk s store l) (hlevel : c.level = 0) :
    s.checkLane c (if store then .physStore else .physLoad) l = .ok (physLane s l) := by
  obtain ⟨-, h48, -, -, hmark, hseal, hrec⟩ := h
  exact checkLane_phys hlevel h48 hmark hseal hrec

section
variable {s : State} {r ra : Reg} {off : BitVec 7} {la : La} {store : Bool} (hs : s.issuing = true)
  (hl : s.legal (physInstr r ra off la store) = true)
include hs hl

theorem phys_enters (hlevel : s.cls.level = 0) (hmem : s.cls.mem = []) (hne : (physForm s r ra off store).reqs ≠ [])
    (hok : ∀ l ∈ (physForm s r ra off store).reqs, PhysOk s store l) :
    ∃ t a, exec (physInstr r ra off la store) s = .next t ∧ EntersMemory s t (physForm s r ra off store) a ∧ a.stage = .fabric := by
  obtain ⟨a, ha, hexec⟩ := exec_phys hl
  have hissue := physAccess_issues la.toNat ha hne fun l hl => (hok l hl).physFault
  obtain ⟨b, henters, hstage, -⟩ := issueAccess_entered la.toNat hs hmem ha fun l hl =>
    ⟨lanesAt_new l hl, _, (hok l hl).checkLane hlevel⟩
  exact ⟨_, b, hexec.trans (congrArg _ hissue), henters, hstage⟩

theorem phys_raises (hk : s.cls.kind ≠ .handler) {l : LaneReq} {rest : List LaneReq} {c : Cause}
    (hreqs : (physForm s r ra off store).reqs = l :: rest) (hc : physFault l = some c) :
    ∃ t, exec (physInstr r ra off la store) s = .next t ∧
      Raises s t { cause := c, addr := (l.ea % 2 ^ 64).toNat, lane := l.lane, aux := 8, write := store, mask := some s.act } := by
  obtain ⟨a, ha, hexec⟩ := exec_phys hl
  have hraises := physAccess_raises la.toNat ha hs hk hreqs hc
  cases store <;> exact ⟨_, hexec, hraises⟩

end

/-- Settles O25. -/
theorem physicalAccesses : Obligations.PhysicalAccesses :=
  fun _ _ _ _ _ _ hs hl hlevel hmem => ⟨phys_enters hs hl hlevel hmem, fun hk _ _ hreqs =>
    ⟨fun hout => phys_raises hs hl hk hreqs (physFault_outside hout),
      fun hlow h48 hlim hal => phys_raises hs hl hk hreqs ((physFault_inside hlow h48 hlim).trans (if_pos hal))⟩⟩

end Sys2Proof.Proofs.MemoryIssue
end

section
/-!
Chapter 12 (fences, waits and barriers): what FENCE orders, where WAIT goes on, and what a barrier operation leaves (R119, R135, R265 to
R269).
-/

namespace Sys2Proof.Proofs.Sync

open Sys2Proof Sys2Proof.Machine Sys2Proof.Proofs.Execution Sys2Proof.Proofs.Layer

/-! ### Going on from a state whose issuing class has the same splits -/

theorem retire_cls_frame {u : State} (h : u.stepping = false) (x : List Split) :
    { (retire u).cls with splits := x } = { u.cls with splits := x } := by
  rw [retire, retireAt_eq h]
  rfl

/-- What a group that completes leaves outside its class. -/
noncomputable def outside (u : State) := (u.forms, u.iss, u.words, u.pending, u.mem, u.l1, u.tagCount)

theorem retire_outside {u : State} (h : u.stepping = false) : outside (retire u) = outside u := by
  rw [retire, retireAt_eq h]
  rfl

theorem touched_goesOn {s u : State} (h : Touched s u) (hs : s.issuing = true) :
    GoesOn s (retire u) s.next ∧ { (retire u).cls with splits := s.cls.splits } = s.cls := by
  have hstep := h.stepping hs
  constructor
  · rw [retire, retireAt_eq hstep, h.next]
    exact goesOn_of_modCur (State.issuing_split hs) h.iss (congrArg Cls.splits h.cls) _
  · rw [retire_cls_frame hstep, h.cls]

/-! ### FENCE (R265) -/

theorem acquire_touched (s : State) (core scope : Nat) : Touched s (s.acquire core scope) := by
  unfold State.acquire
  split <;> rfl

theorem acquire_tagCount (s : State) (core scope : Nat) : (s.acquire core scope).tagCount = s.tagCount := by
  unfold State.acquire
  split <;> rfl

theorem acquire_l1 {s : State} (core : Nat) {scope : Nat} (h : scope ≠ 0) :
    (s.acquire core scope).l1 = s.l1.filter (fun x => x.core != core || x.priv) := by
  rw [State.acquire, if_neg h, State.acquireL1]
  refine List.filter_congr fun x _ => ?_
  cases x.priv <;> simp [bne]

/-- What a fence of these kinds leaves before its split goes on. -/
noncomputable def fenced (s : State) (kind : FenceKind) (scope : Nat) : State :=
  let s' := if kind = .acq then s else s.bumpTag s.cls.tag
  if kind = .rel then s' else s'.acquire s.cls.core scope

/-- A fence of a class with nothing outstanding does not wait. -/
theorem execFence_of_idle {s : State} {scope : BitVec 3} (kind : FenceKind) (h : scope ≠ 0) (hmem : s.cls.mem = [])
    (hreqs : s.creqs = []) (hpins : s.pins = []) :
    exec (.fence scope kind) s = .next (retire (fenced s kind scope.toNat)) := by
  have hscope : scope.toNat ≠ 0 := fun h0 => h (BitVec.eq_of_toNat_eq h0)
  have hloads : s.cls.loadsOut = false := by rw [Cls.loadsOut, hmem]; rfl
  refine (if_neg h).trans ((if_neg ?_).trans ?_)
  · rw [quiet_of_idle hmem hreqs, hloads]
    simp
  · rw [release_of_no_pins hpins hscope]
    cases kind <;> rfl

theorem fenced_touched (s : State) (kind : FenceKind) (scope : Nat) : Touched s (fenced s kind scope) := by
  cases kind with
  | acq => exact acquire_touched s s.cls.core scope
  | rel => rfl
  | acqrel | sc => exact acquire_touched (s.bumpTag s.cls.tag) s.cls.core scope

theorem fenced_tagCount (s : State) (kind : FenceKind) (scope : Nat) :
    (assoc (fenced s kind scope).tagCount s.cls.tag).getD 0 =
      (assoc s.tagCount s.cls.tag).getD 0 + (if kind = .acq then 0 else 1) := by
  have hbump : (assoc (s.bumpTag s.cls.tag).tagCount s.cls.tag).getD 0 = (assoc s.tagCount s.cls.tag).getD 0 + 1 := by
    simp [State.bumpTag, assoc_assocSet]
  have htags (u : State) : (assoc (u.acquire s.cls.core scope).tagCount s.cls.tag).getD 0 = (assoc u.tagCount s.cls.tag).getD 0 := by
    rw [acquire_tagCount]
  cases kind with
  | acq => exact htags s
  | rel => exact hbump
  | acqrel | sc => exact (htags (s.bumpTag s.cls.tag)).trans hbump

theorem fenced_l1 (s : State) (kind : FenceKind) {scope : Nat} (h : scope ≠ 0) :
    (fenced s kind scope).l1 =
      if kind = .rel then s.l1 else s.l1.filter (fun x => x.core != s.cls.core || x.priv) := by
  unfold fenced
  cases kind with
  | rel => rfl
  | acq => exact acquire_l1 _ h
  | acqrel | sc => exact acquire_l1 (s := s.bumpTag s.cls.tag) _ h

section
variable {s : State} (hs : s.issuing = true) (scope : BitVec 3) (kind : FenceKind)
include hs

theorem fence_ofClass (h : scope = 0) : ∃ t, exec (.fence scope kind) s = .next t ∧ WritesNothing s t s.next :=
  ⟨_, if_pos h, retire_writesNothing hs⟩

theorem fence_passes (hscope : scope ≠ 0) (hmem : s.cls.mem = []) (hreqs : s.creqs = []) (hpins : s.pins = []) :
    ∃ t, exec (.fence scope kind) s = .next t ∧ GoesOn s t s.next ∧ { t.cls with splits := s.cls.splits } = s.cls ∧
      (assoc t.tagCount s.cls.tag).getD 0 = (assoc s.tagCount s.cls.tag).getD 0 + (if kind = .acq then 0 else 1) ∧
      t.l1 = (if kind = .rel then s.l1 else s.l1.filter (fun x => x.core != s.cls.core || x.priv)) ∧
      t.words = s.words ∧ t.pending = s.pending ∧ t.forms = s.forms ∧ ∀ a, t.mem.get a = s.mem.get a := by
  have htouched := fenced_touched s kind scope.toNat
  have hgoesOn := touched_goesOn htouched hs
  have hout := retire_outside (htouched.stepping hs)
  exact ⟨_, execFence_of_idle kind hscope hmem hreqs hpins, hgoesOn.1, hgoesOn.2,
    (congrArg (fun x => (assoc x.2.2.2.2.2.2 s.cls.tag).getD 0) hout).trans (fenced_tagCount s kind scope.toNat),
    (congrArg (fun x => x.2.2.2.2.2.1) hout).trans (fenced_l1 s kind fun h0 => hscope (BitVec.eq_of_toNat_eq h0)),
    (congrArg (fun x => x.2.2.1) hout).trans htouched.words, (congrArg (fun x => x.2.2.2.1) hout).trans htouched.pending,
    (congrArg (fun x => x.1) hout).trans htouched.forms,
    fun a => congrArg (Memory.get · a) ((congrArg (fun x => x.2.2.2.2.1) hout).trans htouched.mem)⟩

theorem fence_holds (hscope : scope ≠ 0) (h : kind ≠ .acq ∧ s.quiet s.cls = false ∨ kind ≠ .rel ∧ s.cls.loadsOut = true) :
    ∃ t, exec (.fence scope kind) s = .next t ∧ t.cur.pc = s.cur.pc ∧ t.cur.held = true ∧ OutsideKept s t := by
  have hcur := hold_cur hs
  refine ⟨_, (if_neg hscope).trans (if_pos ?_), (congrArg Split.pc hcur :), congrArg Split.held hcur, modCur_outsideKept s _⟩
  cases kind <;> simpa using h

end

/-! ### WAIT (R266) -/

theorem waitHolds_iff (c : WaitCond) (w x : Word) :
    waitHolds c w x = true ↔ (match c with
      | .eq => w = x
      | .ne => w ≠ x
      | .gep => (w - x).toNat < 2 ^ 31
      | .gen => x.toNat ≤ w.toNat
      | .masknz => w &&& x ≠ 0) := by
  cases c <;> simp [waitHolds, BitVec.ult]

theorem storesTo_of_idle {c : Cls} (h : c.mem = []) (ea n : Nat) : c.storesTo ea n = false := by rw [Cls.storesTo, h]; rfl

section
variable {s : State} {p : Pfx} {c : WaitCond} {ra rb : Reg} (hl : s.legal (.wait p c ra rb) = true)
include hl

theorem exec_wait_raises {m : LaneReq} {cause : Cause}
    (h : s.scratchFirst 4 false [{ lane := 0x7FFF, ea := (s.getS ra).toNat }] = some (m, cause)) :
    exec (.wait p c ra rb) s = .next (raiseScratch 4 false none m cause s) := by
  refine (congrArg Host.Outcome.next (guarded_legal hl _)).trans (congrArg Host.Outcome.next ?_)
  simp only [h]

theorem exec_wait_of_idle (hmem : s.cls.mem = []) {f : Form} {off : Nat}
    (h : s.scratchFirst 4 false [{ lane := 0x7FFF, ea := (s.getS ra).toNat }] = none)
    (hplace : s.scratchPlace s.cls.form (s.getS ra).toNat 4 = some (f, off)) :
    exec (.wait p c ra rb) s = .next
      (if waitHolds c (BitVec.ofNat 32 (f.scratch.num off 4)) ((s.getS rb).setWidth 32)
       then retire (s.acquire s.cls.core (Pfxp.scopeOf p 2))
       else blockOn (.wait f.id off c ((s.getS rb).setWidth 32) (Pfxp.scopeOf p 2)) s) := by
  refine (congrArg Host.Outcome.next (guarded_legal hl _)).trans (congrArg Host.Outcome.next ?_)
  simp only [h, hplace, pipeHeld_of_idle hmem, storesTo_of_idle hmem]
  rfl

end

theorem firstFault_mem {lanes : List LaneReq} {f : LaneReq → Option Cause} {m : LaneReq} {c : Cause}
    (h : firstFault lanes f = some (m, c)) : m ∈ lanes := by
  obtain ⟨l, hl, hmap⟩ := List.exists_of_findSome?_eq_some h
  obtain ⟨_, -, heq⟩ := Option.map_eq_some_iff.mp hmap
  obtain rfl : l = m := congrArg Prod.fst heq
  exact hl

/-- The one lane of a check that fails is the one reported. -/
theorem scratchFirst_singleton {s : State} {n : Nat} {store : Bool} {l m : LaneReq} {c : Cause}
    (h : s.scratchFirst n store [l] = some (m, c)) : m = l := by
  unfold State.scratchFirst at h
  split at h
  next hfault => exact List.mem_singleton.mp (firstFault_mem (hfault.trans h))
  next => exact List.mem_singleton.mp (firstFault_mem h)

theorem blockOn_cur {s : State} (hs : s.issuing = true) (b : Block) :
    (blockOn b s).cur.state = .blocked b ∧ (blockOn b s).cur.pc = s.next ∧ (blockOn b s).cur.mask = s.cur.mask := by
  have hcur : (blockOn b s).cur = _ := Cls.split_modSplit_self s.cls s.iss.split _ (State.issuing_split hs)
  rw [hcur]
  exact ⟨rfl, rfl, rfl⟩

theorem eaField_nat (x : DWord) : eaField (x.toNat : Int) = x.toNat := by
  rw [eaField, BitVec.ofInt_natCast, BitVec.ofNat_toNat, BitVec.setWidth_eq]

/-- The event of an address in a scalar register. -/
theorem raiseScratch_raises {s : State} (hs : s.issuing = true) (hk : s.cls.kind ≠ .handler) (n : Nat) (x : DWord) (cause : Cause) :
    Raises s (raiseScratch n false none { lane := 0x7FFF, ea := x.toNat } cause s)
      { cause := cause, addr := x.toNat, aux := scratchAux cause n false } := by
  unfold raiseScratch
  rw [eaField_nat]
  exact raise_raises _ (State.issuing_split hs) hk

section
variable {s : State} {p : Pfx} {c : WaitCond} {ra rb : Reg} {f : Form} {off : Nat} (hs : s.issuing = true)
  (hl : s.legal (.wait p c ra rb) = true)
include hs hl

theorem wait_raises (hk : s.cls.kind ≠ .handler) (m : LaneReq) (cause : Cause)
    (hfirst : s.scratchFirst 4 false [{ lane := 0x7FFF, ea := (s.getS ra).toNat }] = some (m, cause)) :
    ∃ t, exec (.wait p c ra rb) s = .next t ∧
      Raises s t { cause := cause, addr := (s.getS ra).toNat, aux := scratchAux cause 4 false } := by
  obtain rfl := scratchFirst_singleton hfirst
  exact ⟨_, exec_wait_raises hl hfirst, raiseScratch_raises hs hk 4 (s.getS ra) cause⟩

variable (hmem : s.cls.mem = []) (hfirst : s.scratchFirst 4 false [{ lane := 0x7FFF, ea := (s.getS ra).toNat }] = none)
  (hplace : s.scratchPlace s.cls.form (s.getS ra).toNat 4 = some (f, off))
include hmem hfirst hplace

theorem wait_passes (h : waitHolds c (BitVec.ofNat 32 (f.scratch.num off 4)) ((s.getS rb).setWidth 32) = true) :
    ∃ t, exec (.wait p c ra rb) s = .next t ∧ GoesOn s t s.next ∧ { t.cls with splits := s.cls.splits } = s.cls ∧
      t.forms = s.forms ∧ ∀ a, t.mem.get a = s.mem.get a := by
  have htouched := acquire_touched s s.cls.core (Pfxp.scopeOf p 2)
  have hgoesOn := touched_goesOn htouched hs
  have hout := retire_outside (htouched.stepping hs)
  exact ⟨_, (exec_wait_of_idle hl hmem hfirst hplace).trans (congrArg Host.Outcome.next (if_pos h)), hgoesOn.1, hgoesOn.2,
    (congrArg (fun x => x.1) hout).trans htouched.forms,
    fun a => congrArg (Memory.get · a) ((congrArg (fun x => x.2.2.2.2.1) hout).trans htouched.mem)⟩

theorem wait_blocks (h : ¬ waitHolds c (BitVec.ofNat 32 (f.scratch.num off 4)) ((s.getS rb).setWidth 32) = true) :
    ∃ t, exec (.wait p c ra rb) s = .next t ∧
      t.cur.state = .blocked (.wait f.id off c ((s.getS rb).setWidth 32) (Pfxp.scopeOf p 2)) ∧ t.cur.pc = s.next ∧
      t.cur.mask = s.cur.mask ∧ { t.cls with splits := s.cls.splits } = s.cls ∧ OutsideKept s t := by
  have hcur := blockOn_cur hs (.wait f.id off c ((s.getS rb).setWidth 32) (Pfxp.scopeOf p 2))
  exact ⟨_, (exec_wait_of_idle hl hmem hfirst hplace).trans (congrArg Host.Outcome.next (if_neg h)), hcur.1, hcur.2.1, hcur.2.2, rfl,
    modCur_outsideKept s _⟩

end

/-- Settles O26. -/
theorem fencesAndWaits : Obligations.FencesAndWaits :=
  ⟨fun _ scope kind hs => ⟨fence_ofClass hs scope kind, fence_passes hs scope kind, fence_holds hs scope kind⟩,
    fun _ _ c _ _ _ _ hs hl hmem => ⟨wait_raises hs hl, fun hfirst hplace =>
      ⟨fun h => wait_passes hs hl hmem hfirst hplace ((waitHolds_iff c _ _).mpr h),
        fun h => wait_blocks hs hl hmem hfirst hplace fun hw => h ((waitHolds_iff c _ _).mp hw)⟩⟩⟩

/-! ### Waking splits (R266, R269) -/

/-- From `c` to `d` some splits that were blocked as `q` says have become ready. -/
structure WokeCls (q : Block → Prop) (c d : Cls) : Prop where
  frame  : { d with splits := c.splits } = c
  length : d.splits.length = c.splits.length
  split  : ∀ j, { d.split j with state := (c.split j).state, age := (c.split j).age } = c.split j
  still  : ∀ j b, (c.split j).state = .blocked b → ¬ q b → (d.split j).state = .blocked b

theorem WokeCls.refl (q : Block → Prop) (c : Cls) : WokeCls q c c := ⟨rfl, rfl, fun _ => rfl, fun _ _ h _ => h⟩

theorem WokeCls.trans {q : Block → Prop} {c d e : Cls} (h : WokeCls q c d) (g : WokeCls q d e) : WokeCls q c e := by
  refine ⟨?_, g.length.trans h.length, fun j => ?_, fun j b hb hq => g.still j b (h.still j b hb hq) hq⟩
  · exact (congrArg (fun x : Cls => { x with splits := c.splits }) g.frame).trans h.frame
  · exact (congrArg (fun x : Split => { x with state := (c.split j).state, age := (c.split j).age }) (g.split j)).trans (h.split j)

theorem wokeCls_modSplit {q : Block → Prop} {c : Cls} {i : Nat} {b : Block} (hb : (c.split i).state = .blocked b) (hq : q b) :
    WokeCls q c (c.modSplit i (fun sp => { sp with state := .ready, age := 0 })) := by
  by_cases hi : i < c.splits.length
  · have hself := Cls.split_modSplit_self c i (fun sp => { sp with state := .ready, age := 0 }) hi
    refine ⟨rfl, List.length_set, fun j => ?_, fun j b' hb' hq' => ?_⟩
    all_goals by_cases hj : j = i
    · rw [hj, hself]
    · rw [Cls.split_modSplit_other _ _ _ _ hj]
    · have hbb : b = b' := SplitState.blocked.inj (hb.symm.trans (hj ▸ hb'))
      exact absurd (hbb ▸ hq) hq'
    · rwa [Cls.split_modSplit_other _ _ _ _ hj]
  · have hsame : c.modSplit i (fun sp => { sp with state := .ready, age := 0 }) = c := by
      rw [Cls.modSplit, Cls.setSplit, List.set_eq_of_length_le (by omega)]
    rw [hsame]
    exact .refl q c

theorem foldl_wokeCls {q : Block → Prop} {c : Cls} {step : Cls × Nat → Nat → Cls × Nat}
    (hstep : ∀ r i, WokeCls q r.1 (step r i).1) (l : List Nat) (n : Nat) : WokeCls q c (l.foldl step (c, n)).1 := by
  suffices h : ∀ r, WokeCls q r.1 (l.foldl step r).1 from h (c, n)
  induction l with
  | nil => exact fun r => .refl q r.1
  | cons i l ih => exact fun r => (hstep r i).trans (ih (step r i))

/-- Splits that wait on a word. -/
def Waits : Block → Prop
  | .wait .. => True
  | _ => False

/-- Splits that wait on a barrier's phase. -/
def AtBarrier : Block → Prop
  | .barw .. => True
  | _ => False

theorem wakeClass_woke (form : Nat) (m : Memory) (off n : Nat) (c : Cls) : WokeCls Waits c (wakeClass form m off n c).1 := by
  refine foldl_wokeCls (fun r i => ?_) _ _
  split
  next hstate =>
    split
    · exact wokeCls_modSplit hstate trivial
    · exact .refl _ _
  next => exact .refl _ _

/-- The part of a state outside its classes that a barrier operation does not touch. -/
noncomputable def rest (s : State) := (s.iss, s.words, s.pending, s.mem)

theorem rest_of_touched {s u : State} (h : Touched s u) : rest u = rest s :=
  congrArg (fun x => (x.2.1, x.2.2.1, x.2.2.2.2.2.1, x.2.2.2.2.2.2.1)) h

/-- From `s` to `t` some splits have been woken, which are acquires of their classes' cores, and the scratchpads are `forms`. -/
def Woke (q : Block → Prop) (s t : State) (forms : List Form) : Prop := WokeCls q s.cls t.cls ∧ rest t = rest s ∧ t.forms = forms

theorem Woke.refl (q : Block → Prop) (s : State) : Woke q s s s.forms := ⟨.refl q s.cls, rfl, rfl⟩

theorem Woke.trans {q : Block → Prop} {s t u : State} {forms : List Form} (h : Woke q s t forms) (g : Woke q t u t.forms) :
    Woke q s u forms := ⟨h.1.trans g.1, g.2.1.trans h.2.1, g.2.2.trans h.2.2⟩

theorem foldl_woke {q : Block → Prop} {step : State → Nat → State} (hstep : ∀ s i, Woke q s (step s i) s.forms) (l : List Nat)
    (s : State) : Woke q s (l.foldl step s) s.forms := by
  induction l generalizing s with
  | nil => exact .refl q s
  | cons i l ih => exact (hstep s i).trans (ih _)

/-- A class found by its number is replaced by itself with some splits woken. -/
theorem modCls_acquire_woke {q : Block → Prop} {s : State} {id : Nat} {c d : Cls} (core scope : Nat) (hc : s.getCls id = some c)
    (h : WokeCls q c d) : Woke q s ((s.modCls id (fun _ => d)).acquire core scope) s.forms := by
  have hcls : WokeCls q s.cls (s.modCls id (fun _ => d)).cls := by
    show WokeCls q s.cls (if s.cls.id = id then d else s.cls)
    by_cases hid : s.cls.id = id
    · have hfound : s.cls = c := by
        rw [State.getCls, State.allCls, List.find?_cons_of_pos (by simpa using hid)] at hc
        exact Option.some.inj hc
      rw [if_pos hid, hfound]
      exact h
    · rw [if_neg hid]
      exact .refl q _
  have htouched := acquire_touched (s.modCls id (fun _ => d)) core scope
  exact ⟨htouched.cls ▸ hcls, (rest_of_touched htouched :), htouched.forms⟩

theorem wakeWaits_woke (s : State) (form off n : Nat) : Woke Waits s (s.wakeWaits form off n) s.forms := by
  unfold State.wakeWaits
  split
  · exact .refl _ s
  · refine foldl_woke (fun s id => ?_) _ _
    split
    next => exact .refl _ s
    next c hc => exact modCls_acquire_woke _ _ hc (wakeClass_woke ..)

theorem wakeBar_woke (s : State) (form off phase : Nat) : Woke AtBarrier s (s.wakeBar form off phase) s.forms := by
  refine foldl_woke (fun s id => ?_) _ _
  split
  next => exact .refl _ s
  next c hc =>
    refine modCls_acquire_woke _ _ hc (foldl_wokeCls (fun r i => ?_) _ _)
    split
    next hstate =>
      split
      · exact wokeCls_modSplit hstate trivial
      · exact .refl _ _
    next => exact .refl _ _

/-! ### Writing a barrier object (R269) -/

/-- Scratchpad bytes have been written, `forms` is what they leave, and splits have been woken. -/
def Wrote (s t : State) (forms : List Form) : Prop := Woke (fun _ => True) s t forms

/-- Which splits were woken no longer matters. -/
theorem Woke.wrote {q : Block → Prop} {s t : State} {forms : List Form} (h : Woke q s t forms) : Wrote s t forms :=
  ⟨⟨h.1.frame, h.1.length, h.1.split, fun _ _ _ hn => absurd trivial hn⟩, h.2⟩

noncomputable def withForms (s : State) (l : List Form) : State := { s with forms := l }

theorem writeScratch_woke (s : State) (form off : Nat) (bs : List Byte) :
    Woke Waits s (s.writeScratch form off bs) (scratchWritten s form off bs) :=
  wakeWaits_woke (withForms s (scratchWritten s form off bs)) form off bs.length

theorem putBarrier_wrote (s : State) (form off : Nat) (b : Barrier) :
    Wrote s (s.putBarrier form off b) (scratchWritten s form off (barAfter b).bytes) := by
  unfold State.putBarrier barAfter
  by_cases hdone : b.v = true ∧ b.parr = 0 ∧ b.pbytes = 0
  · have hdone' : (b.v && b.parr == 0 && b.pbytes == 0) = true := by simp [hdone]
    have hwoke := (writeScratch_woke s form off (Barrier.bytes { b with phase := (b.phase + 1) % 256, parr := b.xcount })).wrote
    rw [if_pos hdone, if_pos hdone']
    exact Woke.trans hwoke (wakeBar_woke _ form off b.phase).wrote
  · have hdone' : ¬ (b.v && b.parr == 0 && b.pbytes == 0) = true := by simpa [and_assoc] using hdone
    rw [if_neg hdone, if_neg hdone']
    exact (writeScratch_woke s form off _).wrote

theorem Woke.cur_eq {q : Block → Prop} {s t : State} {forms : List Form} (h : Woke q s t forms) :
    { t.cur with state := s.cur.state, age := s.cur.age } = s.cur := by
  rw [State.cur, show t.iss = s.iss from congrArg (fun x => x.1) h.2.1]
  exact h.1.split s.iss.split

theorem Wrote.stepping {s t : State} {forms : List Form} (h : Wrote s t forms) (hs : s.issuing = true) : t.stepping = false :=
  (State.stepping_congr (congrArg Cls.level h.1.frame :) (congrArg Cls.vmid h.1.frame :) (congrArg Cls.asid h.1.frame :)
    (congrArg (fun x => x.2.1) h.2.1)).trans (State.issuing_step hs)

/-- The group goes on after its write. -/
theorem Wrote.done {s t : State} {forms : List Form} (h : Wrote s t forms) (hs : s.issuing = true) :
    BarrierDone s (retire t) forms := by
  have hstep := h.stepping hs
  have hiss : t.iss = s.iss := congrArg (fun x => x.1) h.2.1
  have hlen : t.iss.split < t.cls.splits.length := by rw [hiss, h.1.length]; exact State.issuing_split hs
  have hnext : t.next = s.next := by rw [State.next, State.next, hiss]
  have hcur : (retire t).cur = { t.cur with pc := s.next, age := 0, pend := t.cls.passPend t.cur.pend } := by
    rw [retire, retireAt_eq hstep, hnext]
    exact Cls.split_modSplit_self t.cls t.iss.split _ hlen
  have hout := retire_outside hstep
  have hrest := h.2.1
  exact ⟨(congrArg (fun x => x.1) hout).trans h.2.2,
    ⟨(congrArg Split.pc hcur :), (congrArg Split.mask hcur).trans (congrArg Split.mask h.cur_eq :),
      (congrArg Split.levels hcur).trans (congrArg Split.levels h.cur_eq :), (congrArg (fun x => x.2.1) hout).trans hiss⟩,
    (retire_cls_frame hstep _).trans h.1.frame,
    ⟨(congrArg (fun x => x.2.2.1) hout).trans (congrArg (fun x => x.2.1) hrest),
      (congrArg (fun x => x.2.2.2.1) hout).trans (congrArg (fun x => x.2.2.1) hrest)⟩,
    fun x => congrArg (Memory.get · x) ((congrArg (fun x => x.2.2.2.2.1) hout).trans (congrArg (fun x => x.2.2.2) hrest))⟩

/-! ### Finding a barrier object (R269) -/

theorem withBarrier_fault {s : State} {ra : Reg} (body : Form → Nat → Barrier → State → State) {cause : Cause}
    (h : s.barFault s.cls.form (s.getS ra).toNat = some cause) :
    withBarrier ra body s = raiseScratch 16 false none { lane := 0x7FFF, ea := (s.getS ra).toNat } cause s := by
  simp only [withBarrier, h]

theorem barFault_placed {s : State} {form a : Nat} {f : Form} {off : Nat} (hplace : s.scratchPlace form a 16 = some (f, off)) :
    s.barFault form a = if off % 16 ≠ 0 then some .align else if off < 16 * f.bars then none else some .scratch := by
  unfold State.barFault Form.onBarrier
  rw [hplace]
  simp

theorem withBarrier_found {s : State} {ra : Reg} (body : Form → Nat → Barrier → State → State) {f : Form} {off : Nat}
    (hmem : s.cls.mem = []) (hplace : s.scratchPlace s.cls.form (s.getS ra).toNat 16 = some (f, off)) (hal : off % 16 = 0)
    (hbar : off < 16 * f.bars) (hmark : s.scratchPoisoned f.id off 16 = false) :
    withBarrier ra body s = body f off (s.barrier f.id off) s := by
  have hfault : s.barFault s.cls.form (s.getS ra).toNat = none := by
    rw [barFault_placed hplace, if_neg (not_not.mpr hal), if_pos hbar]
  simp only [withBarrier, hfault, hplace, hmark, pipeHeld_of_idle hmem]
  rfl

theorem exec_guarded {s : State} {i : Instr} {body : State → State} {t : State} (hl : s.legal i = true)
    (he : exec i s = .next (guarded i body s)) (ht : body s = t) : exec i s = .next t := by
  rw [he, guarded_legal hl, ht]

theorem boundary_iff (b : Barrier) : b.boundary = true ↔ b.parr = b.xcount ∧ b.pbytes = 0 := by simp [Barrier.boundary]

/-- BARI and BARZ need an object not in use, or between phases. -/
theorem inUse_iff (b : Barrier) : (b.v && !b.boundary) = true ↔ b.v = true ∧ (b.parr ≠ b.xcount ∨ b.pbytes ≠ 0) := by
  rw [Bool.and_eq_true, Bool.not_eq_true', Bool.eq_false_iff, ne_eq, boundary_iff, not_and_or]

theorem not_inUse {b : Barrier} (h : b.v = false ∨ (b.parr = b.xcount ∧ b.pbytes = 0)) : ¬ (b.v && !b.boundary) = true := by
  rw [inUse_iff]
  rintro ⟨hv, hbusy⟩
  rcases h with h | ⟨harr, hbytes⟩
  · exact Bool.false_ne_true (h.symm.trans hv)
  · exact hbusy.elim (· harr) (· hbytes)

/-- What BARI refuses. -/
theorem bariRefused_iff (b : Barrier) (n : Nat) : ((b.v && !b.boundary) || decide (n < 1 ∨ 131072 < n)) = true ↔
    (b.v = true ∧ (b.parr ≠ b.xcount ∨ b.pbytes ≠ 0)) ∨ n = 0 ∨ 131072 < n := by
  rw [Bool.or_eq_true, inUse_iff, decide_eq_true_iff, Nat.lt_one_iff]

/-- What BARX refuses. -/
theorem barxRefused_iff (b : Barrier) (n : Nat) : (!b.v || decide (2 ^ 31 ≤ n ∨ 2 ^ 31 - 1 < b.pbytes + n)) = true ↔
    b.v = false ∨ 2 ^ 31 ≤ n ∨ 2 ^ 31 ≤ b.pbytes + n := by
  rw [Bool.or_eq_true, Bool.not_eq_true', decide_eq_true_iff]
  exact Iff.rfl

theorem barCount_raises {s : State} (hs : s.issuing = true) (hk : s.cls.kind ≠ .handler) (ra : Reg) :
    Raises s (barCount ra s) { cause := .barcount, addr := (s.getS ra).toNat } := raise_raises _ (State.issuing_split hs) hk

/-! ### Arrivals (R269) -/

theorem release_touched (s : State) (c : Cls) {scope : Nat} (hpins : s.pins = []) : Touched s (s.release c scope) := by
  by_cases hscope : scope = 0
  · rw [State.release, if_pos hscope]
    rfl
  · rw [release_of_no_pins hpins hscope]
    rfl

theorem Wrote.of_touched {s u t : State} {forms : List Form} (h : Touched s u) (g : Wrote u t forms) : Wrote s t forms :=
  ⟨h.cls ▸ g.1, g.2.1.trans (rest_of_touched h), g.2.2⟩

theorem scratchWritten_touched {s u : State} (h : Touched s u) (form off : Nat) (bs : List Byte) :
    scratchWritten u form off bs = scratchWritten s form off bs :=
  congrArg (List.map _) h.forms

section
variable {s : State} {p : Pfx} {ra rb : Reg} {f : Form} {off : Nat} (hs : s.issuing = true) (hmem : s.cls.mem = [])
  (hplace : s.scratchPlace s.cls.form (s.getS ra).toNat 16 = some (f, off)) (hal : off % 16 = 0)
  (hbar : off < 16 * f.bars) (hmark : s.scratchPoisoned f.id off 16 = false) (hlanes : laneCount s.cls.lanes (s.eff p) ≠ 0)
include hmem hplace hal hbar hmark hlanes

theorem arrival_refused {wait : Bool} (h : (s.barrier f.id off).v = false ∨ (s.getS rb).toNat ≠ (s.barrier f.id off).xcount ∨
    (s.barrier f.id off).parr < laneCount s.cls.lanes (s.eff p)) : arrival wait p ra rb s = barCount ra s := by
  unfold arrival
  rw [if_neg hlanes, withBarrier_found _ hmem hplace hal hbar hmark]
  refine if_pos ?_
  rcases h with h | h | h <;> simp [h]

/-- An arrival that is counted is a release, and leaves the object with that many fewer to come. -/
theorem arrival_counted {wait : Bool} (hreqs : s.creqs = []) (hv : (s.barrier f.id off).v = true)
    (hx : (s.getS rb).toNat = (s.barrier f.id off).xcount) (hm : laneCount s.cls.lanes (s.eff p) ≤ (s.barrier f.id off).parr) :
    arrival wait p ra rb s =
      let b' := { s.barrier f.id off with parr := (s.barrier f.id off).parr - laneCount s.cls.lanes (s.eff p) }
      let u := s.release s.cls (Pfxp.scopeOf p 2)
      if wait then (blockOn (.barw f.id off (s.barrier f.id off).phase (Pfxp.scopeOf p 2)) u).putBarrier f.id off b'
      else retire (u.putBarrier f.id off b') := by
  unfold arrival
  rw [if_neg hlanes, withBarrier_found _ hmem hplace hal hbar hmark]
  refine (if_neg ?_).trans ((if_neg ?_).trans ?_)
  · simp [hv, hx, hm]
  · simp [quiet_of_idle hmem hreqs]
  · cases wait <;> rfl

end

/-- A split that waits at the barrier is not woken by the write of its own arrival. -/
theorem blockOn_wrote {s u : State} (hs : s.issuing = true) (h : Touched s u) (form off : Nat) (b : Barrier) {w : Block}
    (hw : ¬ Waits w) (hopen : ¬ (b.v = true ∧ b.parr = 0 ∧ b.pbytes = 0)) :
    BarrierDone s ((blockOn w u).putBarrier form off b) (scratchWritten s form off b.bytes) ∧
      ((blockOn w u).putBarrier form off b).cur.state = .blocked w := by
  have hput : (blockOn w u).putBarrier form off b = (blockOn w u).writeScratch form off b.bytes :=
    if_neg (by simpa [and_assoc] using hopen)
  have hwoke := writeScratch_woke (blockOn w u) form off b.bytes
  have hlen : u.iss.split < u.cls.splits.length := by rw [h.iss, h.cls]; exact State.issuing_split hs
  have hcur : (blockOn w u).cur = _ := Cls.split_modSplit_self u.cls u.iss.split _ hlen
  have hucur : u.cur = s.cur := by rw [State.cur, h.cls, h.iss, State.cur]
  rw [hput]
  generalize (blockOn w u).writeScratch form off b.bytes = t at hwoke
  have hiss : t.iss = u.iss := congrArg (fun x => x.1) hwoke.2.1
  have hrest : rest t = rest s := hwoke.2.1.trans (rest_of_touched h :)
  exact ⟨⟨hwoke.2.2.trans (scratchWritten_touched h form off _),
      ⟨(congrArg Split.pc (hwoke.cur_eq.trans hcur)).trans h.next,
        (congrArg Split.mask (hwoke.cur_eq.trans hcur)).trans (congrArg Split.mask hucur :),
        (congrArg Split.levels (hwoke.cur_eq.trans hcur)).trans (congrArg Split.levels hucur :), hiss.trans h.iss⟩,
      (congrArg (fun x : Cls => { x with splits := s.cls.splits }) hwoke.1.frame :).trans
        (congrArg (fun x : Cls => { x with splits := s.cls.splits }) h.cls :),
      ⟨congrArg (fun x => x.2.1) hrest, congrArg (fun x => x.2.2.1) hrest⟩,
      fun x => congrArg (Memory.get · x) (congrArg (fun x => x.2.2.2) hrest)⟩,
    (congrArg (fun i : Issue => (t.cls.split i.split).state) hiss).trans (hwoke.1.still u.iss.split w (congrArg Split.state hcur) hw)⟩

theorem barAfter_of_arriving {b : Barrier} (h : b.parr ≠ 0) : barAfter b = b := if_neg fun hb => h hb.2.1

section
variable {s : State} {p : Pfx} {ra rb rd : Reg} {f : Form} {off : Nat} (hs : s.issuing = true) (hmem : s.cls.mem = [])
  (hreqs : s.creqs = []) (hpins : s.pins = []) (hplace : s.scratchPlace s.cls.form (s.getS ra).toNat 16 = some (f, off))
  (hal : off % 16 = 0) (hbar : off < 16 * f.bars) (hmark : s.scratchPoisoned f.id off 16 = false)

/-! #### What each operation leaves -/

section
include hs hmem hplace hal hbar hmark

theorem bari_done (hl : s.legal (.bari p ra rb) = true)
    (hfree : (s.barrier f.id off).v = false ∨ ((s.barrier f.id off).parr = (s.barrier f.id off).xcount ∧ (s.barrier f.id off).pbytes = 0))
    (hlo : 1 ≤ (s.getS rb).toNat) (hhi : (s.getS rb).toNat ≤ 131072) :
    ∃ t, exec (.bari p ra rb) s = .next t ∧ BarrierDone s t (scratchWritten s f.id off (Barrier.bytes
      { phase := (s.barrier f.id off).phase, v := true, parr := (s.getS rb).toNat, xcount := (s.getS rb).toNat, pbytes := 0 })) := by
  have hne : (s.getS rb).toNat ≠ 0 := Nat.one_le_iff_ne_zero.mp hlo
  have hok := (bariRefused_iff (s.barrier f.id off) (s.getS rb).toNat).not.mpr (not_or.mpr
    ⟨fun h => not_inUse hfree ((inUse_iff _).mpr h), not_or.mpr ⟨hne, Nat.not_lt.mpr hhi⟩⟩)
  have hwrote := (putBarrier_wrote s f.id off { s.barrier f.id off with
    xcount := (s.getS rb).toNat, parr := (s.getS rb).toNat, pbytes := 0, v := true }).done hs
  rw [barAfter_of_arriving (by exact hne)] at hwrote
  exact ⟨_, exec_guarded hl rfl ((withBarrier_found _ hmem hplace hal hbar hmark).trans (if_neg hok)), hwrote⟩

theorem barx_done (hl : s.legal (.barx p ra rb) = true) (hv : (s.barrier f.id off).v = true) (hn : (s.getS rb).toNat < 2 ^ 31)
    (hbytes : (s.barrier f.id off).pbytes + (s.getS rb).toNat < 2 ^ 31) :
    ∃ t, exec (.barx p ra rb) s = .next t ∧ BarrierDone s t (scratchWritten s f.id off
      (barAfter { s.barrier f.id off with pbytes := (s.barrier f.id off).pbytes + (s.getS rb).toNat }).bytes) := by
  have hok := (barxRefused_iff (s.barrier f.id off) (s.getS rb).toNat).not.mpr (not_or.mpr
    ⟨fun h => Bool.false_ne_true (h.symm.trans hv), not_or.mpr ⟨Nat.not_le.mpr hn, Int.not_le.mpr hbytes⟩⟩)
  exact ⟨_, exec_guarded hl rfl ((withBarrier_found _ hmem hplace hal hbar hmark).trans (if_neg hok)), (putBarrier_wrote s f.id off _).done hs⟩

theorem barz_done (hl : s.legal (.barz p ra) = true)
    (hfree : (s.barrier f.id off).v = false ∨ ((s.barrier f.id off).parr = (s.barrier f.id off).xcount ∧ (s.barrier f.id off).pbytes = 0)) :
    ∃ t, exec (.barz p ra) s = .next t ∧ BarrierDone s t (scratchWritten s f.id off (List.replicate 16 0)) :=
  ⟨_, exec_guarded hl rfl ((withBarrier_found _ hmem hplace hal hbar hmark).trans (if_neg (not_inUse hfree))),
    (writeScratch_woke s f.id off _).wrote.done hs⟩

theorem barp_reads (hl : s.legal (.barp p rd ra) = true) : ∃ t, exec (.barp p rd ra) s = .next t ∧
    WritesScalar s t s.next rd (BitVec.ofNat 64 (s.barrier f.id off).phase) 0 :=
  ⟨_, exec_guarded hl rfl (withBarrier_found _ hmem hplace hal hbar hmark), setS_retire_writesScalar hs rd _⟩

variable (hm0 : laneCount s.cls.lanes (s.eff p) ≠ 0) (hv : (s.barrier f.id off).v = true)
  (hx : (s.getS rb).toNat = (s.barrier f.id off).xcount)
include hreqs hpins hm0 hv hx

theorem barv_done (hl : s.legal (.barv p ra rb) = true) (hle : laneCount s.cls.lanes (s.eff p) ≤ (s.barrier f.id off).parr) :
    ∃ t, exec (.barv p ra rb) s = .next t ∧ BarrierDone s t (scratchWritten s f.id off
      (barAfter { s.barrier f.id off with parr := (s.barrier f.id off).parr - laneCount s.cls.lanes (s.eff p) }).bytes) := by
  have htouched := release_touched s s.cls (scope := Pfxp.scopeOf p 2) hpins
  have hwrote := putBarrier_wrote (s.release s.cls (Pfxp.scopeOf p 2)) f.id off
    { s.barrier f.id off with parr := (s.barrier f.id off).parr - laneCount s.cls.lanes (s.eff p) }
  rw [scratchWritten_touched htouched] at hwrote
  exact ⟨_, exec_guarded hl rfl (arrival_counted (wait := false) hmem hplace hal hbar hmark hm0 hreqs hv hx hle),
    (Wrote.of_touched htouched hwrote).done hs⟩

theorem barw_waits (hl : s.legal (.barw p ra rb) = true) (hlt : laneCount s.cls.lanes (s.eff p) < (s.barrier f.id off).parr) :
    ∃ t, exec (.barw p ra rb) s = .next t ∧ BarrierDone s t (scratchWritten s f.id off (Barrier.bytes
        { s.barrier f.id off with parr := (s.barrier f.id off).parr - laneCount s.cls.lanes (s.eff p) })) ∧
      t.cur.state = .blocked (.barw f.id off (s.barrier f.id off).phase (Pfxp.scopeOf p 2)) :=
  ⟨_, exec_guarded hl rfl (arrival_counted (wait := true) hmem hplace hal hbar hmark hm0 hreqs hv hx (Nat.le_of_lt hlt)),
    blockOn_wrote hs (release_touched s s.cls hpins) f.id off _ id fun h => Nat.sub_ne_zero_of_lt hlt h.2.1⟩

end

/-! #### Where each operation stops -/

section
variable (hk : s.cls.kind ≠ .handler)
include hs hk

theorem barx_faults {cause : Cause} (hl : s.legal (.barx p ra rb) = true) (h : s.barFault s.cls.form (s.getS ra).toNat = some cause) :
    ∃ t, exec (.barx p ra rb) s = .next t ∧
      Raises s t { cause := cause, addr := (s.getS ra).toNat, aux := scratchAux cause 16 false } :=
  ⟨_, exec_guarded hl rfl (withBarrier_fault _ h), raiseScratch_raises hs hk 16 (s.getS ra) cause⟩

include hmem hplace hal hbar hmark

theorem barx_refused (hl : s.legal (.barx p ra rb) = true)
    (hbad : (s.barrier f.id off).v = false ∨ 2 ^ 31 ≤ (s.getS rb).toNat ∨ 2 ^ 31 ≤ (s.barrier f.id off).pbytes + (s.getS rb).toNat) :
    ∃ t, exec (.barx p ra rb) s = .next t ∧ Raises s t { cause := .barcount, addr := (s.getS ra).toNat } := by
  exact ⟨_, exec_guarded hl rfl ((withBarrier_found _ hmem hplace hal hbar hmark).trans (if_pos ((barxRefused_iff _ _).mpr hbad))),
    barCount_raises hs hk ra⟩

theorem barv_refused (hl : s.legal (.barv p ra rb) = true) (hm0 : laneCount s.cls.lanes (s.eff p) ≠ 0)
    (hbad : (s.barrier f.id off).v = false ∨ (s.getS rb).toNat ≠ (s.barrier f.id off).xcount ∨
      (s.barrier f.id off).parr < laneCount s.cls.lanes (s.eff p)) :
    ∃ t, exec (.barv p ra rb) s = .next t ∧ Raises s t { cause := .barcount, addr := (s.getS ra).toNat } := by
  exact ⟨_, exec_guarded hl rfl (arrival_refused hmem hplace hal hbar hmark hm0 hbad), barCount_raises hs hk ra⟩

theorem bari_refused (hl : s.legal (.bari p ra rb) = true)
    (hbad : ((s.barrier f.id off).v = true ∧ ((s.barrier f.id off).parr ≠ (s.barrier f.id off).xcount ∨ (s.barrier f.id off).pbytes ≠ 0)) ∨
      (s.getS rb).toNat = 0 ∨ 131072 < (s.getS rb).toNat) :
    ∃ t, exec (.bari p ra rb) s = .next t ∧ Raises s t { cause := .barcount, addr := (s.getS ra).toNat } := by
  exact ⟨_, exec_guarded hl rfl ((withBarrier_found _ hmem hplace hal hbar hmark).trans (if_pos ((bariRefused_iff _ _).mpr hbad))),
    barCount_raises hs hk ra⟩

end
end

theorem barFault_unplaced {s : State} {form a : Nat} (h : s.scratchPlace form a 16 = none) : s.barFault form a = some .scratch := by
  rw [State.barFault, h]

theorem barFault_misaligned {s : State} {form a : Nat} {f : Form} {off : Nat} (hplace : s.scratchPlace form a 16 = some (f, off))
    (hal : off % 16 ≠ 0) : s.barFault form a = some .align := (barFault_placed hplace).trans (if_pos hal)

theorem barFault_beyond {s : State} {form a : Nat} {f : Form} {off : Nat} (hplace : s.scratchPlace form a 16 = some (f, off))
    (hal : off % 16 = 0) (hbar : 16 * f.bars ≤ off) : s.barFault form a = some .scratch :=
  (barFault_placed hplace).trans ((if_neg (not_not.mpr hal)).trans (if_neg (Nat.not_lt.mpr hbar)))

/-- Settles O27: each operation finds its object by the one check of addresses, and then either raises or writes the object once. -/
theorem barrierOperations : Obligations.BarrierOperations :=
  ⟨fun _ _ _ _ _ _ _ hs hmem hreqs hpins hplace hal hbar hmark =>
      ⟨bari_done hs hmem hplace hal hbar hmark,
        fun hl hm0 hv hx => barv_done hs hmem hreqs hpins hplace hal hbar hmark hm0 hv hx hl,
        barx_done hs hmem hplace hal hbar hmark, barz_done hs hmem hplace hal hbar hmark, barp_reads hs hmem hplace hal hbar hmark,
        fun hl hm0 hv hx => barw_waits hs hmem hreqs hpins hplace hal hbar hmark hm0 hv hx hl⟩,
    fun _ _ _ _ hs hk hmem hl => ⟨fun hnone => barx_faults hs hk hl (barFault_unplaced hnone),
      fun _ _ hplace => ⟨fun hal => barx_faults hs hk hl (barFault_misaligned hplace hal),
        fun hal hbar => barx_faults hs hk hl (barFault_beyond hplace hal hbar),
        fun hal hbar hmark => ⟨barx_refused hs hmem hplace hal hbar hmark hk hl,
          barv_refused hs hmem hplace hal hbar hmark hk, bari_refused hs hmem hplace hal hbar hmark hk⟩⟩⟩⟩

end Sys2Proof.Proofs.Sync
end

section
/-!
Claims about level 0 and about bandwidth that leave out what else the event looks at: the generation that level-0 requests carry (R392), and
the requests from outside that wait for tokens (R422).
-/

namespace Sys2Proof.Proofs.Hypotheses

open Sys2Proof Sys2Proof.Machine

/-! ### The generation of a level-0 access (R392) -/

/-- A class at level 0 on the core of a halted context of the same number, with one access in the fabric that carries that context's
generation. -/
noncomputable def lateState (a : Access) : State :=
  { cls := { id := 1, level := 0, mem := [a], splits := [{ state := .ready, mask := 1 }] }, ctxGen := [((0, 0), 1)] }

/-- An access of the generation after the first, of lane 0 at a place. -/
noncomputable def lateAccess (op : AccOp) (pa : Nat) : Access := { id := 7, op := op, lanes := [{ lane := 0, ea := pa, pa := pa }], dest := [0], gen := 1 }

/-- An access whose generation is not its class's is not in the fabric. -/
theorem inFabric_of_gen {s : State} {a : Access} (hmem : s.cls.mem = [a]) (hgen : a.gen ≠ s.genOf s.cls) :
    s.inFabric s.cls.id a.id = none := by
  have hget : s.getCls s.cls.id = some s.cls := List.find?_cons_of_pos (beq_self_eq_true s.cls.id)
  have hout : ¬ (a.stage = .fabric ∧ a.gen = s.genOf s.cls) := fun h => hgen h.2
  simp only [State.inFabric, hget, hmem, List.find?_cons, beq_self_eq_true, if_neg hout]

/-- Level 0 belongs to no context: its requests carry generation 0. -/
theorem late_notInFabric (op : AccOp) (pa : Nat) : (lateState (lateAccess op pa)).inFabric 1 7 = none :=
  inFabric_of_gen (s := lateState (lateAccess op pa)) (a := lateAccess op pa) rfl (by decide : (1 : Nat) ≠ 0)

/-- Refutes O30: the generation is stated as the context's, which level-0 requests do not carry; so the store beyond memory is no access in
the fabric, and nothing happens. -/
theorem not_loadsAndStoresPerform : ¬ Obligations.LoadsAndStoresPerform := by
  unfold Obligations.LoadsAndStoresPerform
  rintro ⟨-, -, -, h⟩
  have hstops := h (lateState (lateAccess (.store 4) Config.memLimit)) _ _ 4 rfl rfl rfl rfl rfl rfl rfl rfl rfl (by decide +kernel)
  have hstays : exec (.storePerformed 1 7 0) (lateState (lateAccess (.store 4) Config.memLimit)) =
      .next (lateState (lateAccess (.store 4) Config.memLimit)) := by
    change execStorePerformed 1 7 0 (lateState (lateAccess (.store 4) Config.memLimit)) = _
    rw [execStorePerformed, late_notInFabric]
  cases hstays.symm.trans hstops

/-- Refutes O31, likewise: the atomic is no access in the fabric, and stays outstanding. -/
theorem not_atomicReturnsOldWord : ¬ Obligations.AtomicReturnsOldWord := by
  unfold Obligations.AtomicReturnsOldWord
  intro h
  obtain ⟨t, ht, -, -, -, hdone, -⟩ := h (lateState (lateAccess (.atomic .add) 0)) _ _ .add 0 rfl (by decide +kernel) rfl rfl rfl rfl rfl rfl rfl
    rfl rfl rfl rfl (by decide +kernel) (by decide +kernel) (by simp [lateState, State.l2find]) rfl (by decide +kernel) rfl rfl rfl rfl rfl
  have hstays : exec (.monitorAtomic 1 7) (lateState (lateAccess (.atomic .add) 0)) =
      .next (lateState (lateAccess (.atomic .add) 0)) := by
    change execMonitorAtomic 1 7 (lateState (lateAccess (.atomic .add) 0)) = _
    rw [execMonitorAtomic, late_notInFabric]
  rw [← Host.Outcome.next.inj (hstays.symm.trans ht)] at hdone
  exact List.cons_ne_nil _ _ hdone

/-! ### A refill of the buckets (R422) -/

/-- One microsecond after reset, with a request of the switch waiting for a set that no word names. -/
noncomputable def waitingState : State := { cls := { id := 0 }, time := 4000, portq := [⟨0, .replica 0 0 0 0⟩] }

/-- Refutes O54: BANDWIDTH_REFILL tries the requests from outside that wait, and one that it serves waits no more. -/
theorem not_budgets : ¬ Obligations.Budgets := by
  unfold Obligations.Budgets
  rintro ⟨h, -⟩
  obtain ⟨t, ht, -, -, hframe⟩ := (h waitingState 0 0 0).2.2.1 (by decide +kernel)
  have hwaits : t.portq = waitingState.portq := (congrArg State.portq hframe :)
  have hserved : (match exec .bandwidthRefill waitingState with
      | .next t => t.portq
      | _ => waitingState.portq) = [] := by decide +kernel
  rw [ht] at hserved
  exact List.cons_ne_nil _ _ (hwaits.symm.trans hserved)

end Sys2Proof.Proofs.Hypotheses
end

section
/-!
Chapter 16: what CRD, CWR and the operations of RIGHTS raise without the level or the right (R331, R335).
-/

namespace Sys2Proof.Proofs.Refusals

open Sys2Proof Sys2Proof.Machine Sys2Proof.Proofs.Execution

variable {s : State} {rd ra rb : Reg} {below : Bool} {ix : BitVec 10}

/-- The words of level 0 that the claim names: SELVMID, PKEY, S2ROOT and ROTPER. -/
noncomputable def reservedWords : List (BitVec 10) := [0x002, 0x030, 0x103, 0x201]

theorem wordLevel0_of_mem (h : ix ∈ reservedWords) : wordLevel0 ix.toNat = true :=
  (by decide +kernel : ∀ x ∈ reservedWords, wordLevel0 x.toNat = true) ix h

/-- At level 1 a word reserved to level 0 is PRIV. -/
theorem copyOf_priv {x : Accessor} {n : Nat} (hx : x.level ≠ 0) (hn : wordLevel0 n = true) (write : Bool) :
    s.copyOf x below n write = .error .priv := by
  unfold State.copyOf
  rw [if_pos (by simp [hx, hn]), if_neg hx]

section
variable (h : 2 ≤ s.cls.level ∨ s.cls.level = 1 ∧ ix ∈ reservedWords)
include h

theorem crd_priv (hl : s.legal (.crd rd below ix) = true) : exec (.crd rd below ix) s = .next (raise { cause := .priv } s) := by
  refine (congrArg Host.Outcome.next (guarded_legal hl _)).trans (congrArg Host.Outcome.next ?_)
  rcases h with h | ⟨h1, hix⟩
  · exact if_pos h
  · refine (if_neg (by omega)).trans ?_
    rw [readControl, copyOf_priv (by simp [State.accessor, h1]) (wordLevel0_of_mem hix)]

theorem cwr_priv (hl : s.legal (.cwr ra below ix) = true) : exec (.cwr ra below ix) s = .next (raise { cause := .priv } s) := by
  refine (congrArg Host.Outcome.next (guarded_legal hl _)).trans (congrArg Host.Outcome.next ?_)
  rcases h with h | ⟨h1, hix⟩
  · exact if_pos h
  · refine (if_neg (by omega)).trans ?_
    rw [copyOf_priv (by simp [State.accessor, h1]) (wordLevel0_of_mem hix)]

end

theorem rightsGrant_priv (h2 : 2 ≤ s.cls.level) (hl : s.legal (.rightsGrant rd ra rb) = true) :
    exec (.rightsGrant rd ra rb) s = .next (raise { cause := .priv } s) :=
  (congrArg Host.Outcome.next (guarded_legal hl _)).trans (congrArg Host.Outcome.next (if_pos (.inl h2)))

theorem rightsRevoke_priv (h2 : 2 ≤ s.cls.level) (hl : s.legal (.rightsRevoke rd ra rb) = true) :
    exec (.rightsRevoke rd ra rb) s = .next (raise { cause := .priv } s) :=
  (congrArg Host.Outcome.next (guarded_legal hl _)).trans (congrArg Host.Outcome.next (if_pos (.inl h2)))

theorem rightsRoute_priv (h2 : 2 ≤ s.cls.level) (hl : s.legal (.rightsRoute rd ra rb) = true) :
    exec (.rightsRoute rd ra rb) s = .next (raise { cause := .priv } s) :=
  (congrArg Host.Outcome.next (guarded_legal hl _)).trans (congrArg Host.Outcome.next (if_pos h2))

/-- The words whose writes need a right at level 1, with its bit (Table 20-1, R361, R423, R427, R434). -/
noncomputable def guardedWords : List (BitVec 10 × Nat) :=
  [(0x211, 3), (0x212, 3), (0x251, 6), (0x259, 6), (0x261, 6), (0x262, 6), (0x232, 8), (0x113, 7)]

/-- Each is a partition's own word that level 1 may otherwise write. -/
theorem guardedWords_spec : ∀ p ∈ guardedWords, wordDefined p.1.toNat = true ∧ wordLevel0 p.1.toNat = false ∧
    wordRO 1 p.1.toNat = false ∧ wordRight p.1.toNat true = some p.2 ∧ p.1 ≠ 0x304 := by
  decide +kernel

theorem cwr_right {r : Reg} {bit : Nat} (h1 : s.cls.level = 1) (hl : s.legal (.cwr r false ix) = true)
    (hp : (ix, bit) ∈ guardedWords) (hno : (s.rights 1 s.cls.vmid 0).getLsbD bit = false) :
    exec (.cwr r false ix) s = .next (raise { cause := .right, aux := bit } s) := by
  obtain ⟨hdef, hlow, hro, hright, -⟩ := guardedWords_spec _ hp
  have hlevel : s.accessor.level = 1 := h1
  have hcopy : s.copyOf s.accessor false ix.toNat true = .ok (.part s.cls.vmid) := by
    simp [State.copyOf, hlevel, hdef, hlow, hro]
    rfl
  have hrefused : s.wordRefused s.accessor ix.toNat true = some { cause := .right, aux := bit } := by
    rw [State.wordRefused, hright]
    exact if_neg (by simp [h1, State.accessor, hno])
  refine (congrArg Host.Outcome.next (guarded_legal hl _)).trans (congrArg Host.Outcome.next ?_)
  refine (if_neg (by omega)).trans ?_
  rw [hcopy]
  simp only [hrefused]

/-- The class is of a level that may not run the instruction: PRIV. -/
def Privileged (s : State) (i : Instr) : Prop := s.legal i = true → exec i s = .next (raise { cause := .priv } s)

theorem privileged_of_neither {i : Instr} {p : Prop} (h : False ∨ p ∧ False) : Privileged s i := by simp at h

theorem privileged_of_level {i : Instr} {p : Prop} (hi : 2 ≤ s.cls.level → Privileged s i) (h : 2 ≤ s.cls.level ∨ p ∧ False) :
    Privileged s i := hi (h.resolve_right And.right)

/-- Settles O35: the level is looked at first, then which words the level has, then the right. -/
theorem privilegeAndRights : Obligations.PrivilegeAndRights := by
  unfold Obligations.PrivilegeAndRights
  refine ⟨fun s i hs hl hk h => next_raise hs hk ?_, fun s r ix bit hs h1 hk hl hp hno => next_raise hs hk (cwr_right h1 hl hp hno)⟩
  clear hs hk
  revert h
  suffices hsuf : _ → Privileged s i from fun h => hsuf h hl
  clear hl
  induction i with
  | crd rd below ix => exact crd_priv
  | cwr ra below ix => exact cwr_priv
  | rightsGrant rd ra rb => exact privileged_of_level rightsGrant_priv
  | rightsRevoke rd ra rb => exact privileged_of_level rightsRevoke_priv
  | rightsRoute rd ra rb => exact privileged_of_level rightsRoute_priv
  | _ => exact privileged_of_neither

end Sys2Proof.Proofs.Refusals
end

section
/-!
Chapter 16, handlers: RESUME, SKIP, KILL and ABORT of a precise event, and TRET (R344, R345).
-/

namespace Sys2Proof.Proofs.Dispositions

open Sys2Proof Sys2Proof.Machine Sys2Proof.Proofs.Execution Sys2Proof.Proofs.Layer

/-! ### RESUME and SKIP -/

/-- A split that an event alone holds goes on at a program counter. -/
noncomputable def wokenAt (pc : Int) (sp : Split) : Split := { sp with pc := pc, state := .ready, age := 0 }

/-- What the end of a split's event does to the split. -/
noncomputable def unblocked (pc : Option Int) (sp : Split) : Split :=
  let sp := if sp.state = .blocked .event then { sp with pc := pc.getD sp.pc } else sp
  if sp.stops ≠ 0 then { sp with stops := sp.stops - 1 }
  else if sp.state = .blocked .event then { sp with state := .ready, age := 0 } else sp

theorem unblocked_of_event {sp : Split} (hev : sp.state = .blocked .event) (hone : sp.stops = 0) (pc : Int) :
    unblocked (some pc) sp = wokenAt pc sp := by
  unfold unblocked
  rw [if_pos hev]
  exact (if_neg (not_not.mpr hone)).trans (if_pos hev)

section
variable {c : Cls} {i : Nat} (hi : i < c.splits.length) (hev : (c.split i).state = .blocked .event)
  (hone : (c.split i).stops = 0)
include hi hev hone

theorem wake_of_event (pc : Int) : c.wake i (some pc) = c.modSplit i (wokenAt pc) := by
  have hready : ((c.modSplit i (wokenAt pc)).split i).state = .ready := congrArg Split.state (Cls.split_modSplit_self _ _ _ hi)
  exact (congrArg (fun sp => (c.setSplit i sp).rejoin i) (unblocked_of_event hev hone pc)).trans
    (if_neg fun h => SplitState.noConfusion (hready.symm.trans h.1))

theorem wake_unfinished (hroot : (c.split 0).state ≠ .free) (pc : Int) : (c.wake i (some pc)).finished = false := by
  have hstate : ((c.modSplit i (wokenAt pc)).split 0).state ≠ .free := by
    by_cases h0 : i = 0
    · subst h0
      exact fun h => SplitState.noConfusion ((congrArg Split.state (Cls.split_modSplit_self _ _ _ hi)).symm.trans h)
    · rwa [Cls.split_modSplit_other _ _ _ _ (Ne.symm h0)]
  refine (congrArg Cls.finished (wake_of_event hi hev hone pc)).trans ?_
  exact (congrArg (_ && ·) (beq_eq_false_iff_ne.mpr hstate)).trans (Bool.and_false _)

end

/-- The disposition returns the split to a program counter (R344). -/
def GoesTo (ev : Event) (d : Nat) (pc : Int) : Prop := (d = 0 ∧ pc = ev.resume) ∨ (d = 1 ∧ pc = ev.skipTo)

/-- The classes whose time is up end. -/
noncomputable def expired (endC : Nat → State → State) (s : State) (l : List Nat) : State := l.foldl (fun s i => endC i s) s

/-- The class of the event ends if its root is finished. -/
noncomputable def endedIf (endC : Nat → State → State) (id : Nat) (s : State) : State :=
  if ((s.getCls id).map Cls.finished).getD false then endC id s else s

/-- The split goes on at a program counter, or its access is disposed of by `g`. -/
noncomputable def returned (endC : Nat → State → State) (ev : Event) (pc : Int) (g : Nat → Cls → Cls) (s : State) : Option Nat → State
  | none => endedIf endC ev.cls (s.modCls ev.cls (fun c => c.wake ev.split (some pc)))
  | some a => endedIf endC ev.cls (s.modCls ev.cls (g a))

section
variable {s : State} {ev : Event} (hasync : ev.async = false)
include hasync

theorem expired_precise : s.expired ev = [] :=
  if_neg fun h => Bool.false_ne_true (hasync.symm.trans (Bool.and_eq_true_iff.mp h).2)

theorem dropOwn_precise : s.dropOwn ev = s := if_neg fun h => Bool.false_ne_true (hasync.symm.trans h.2.1)

theorem dispose_precise (hsaved : s.saved = []) (endC : Nat → State → State) (d : Nat) :
    disposeWith endC ev d s = (disposeEvent endC ev d s).settleEnding := by
  have hsav : (!s.inSaved ev.cls) = true := by rw [State.inSaved, hsaved]; rfl
  exact (if_pos hsav).trans (congrArg State.settleEnding (dropOwn_precise hasync))

omit hasync in
/-- RESUME and SKIP of a precise event wake its split, and end a class whose root is finished. -/
theorem disposeEvent_eq {d : Nat} {pc : Int} (hd : GoesTo ev d pc) (endC : Nat → State → State) (s : State) : ∃ g,
    disposeEvent endC ev d s = if ev.async = true then expired endC s (s.expired ev) else
      returned endC ev pc g (expired endC s (s.expired ev)) ev.acc := by
  obtain ⟨rfl, rfl⟩ | ⟨rfl, rfl⟩ := hd
  · exact ⟨fun a c => (c.modAcc a Access.resumed).wake ev.split none, rfl⟩
  · exact ⟨fun a c => ((c.dropAcc a).wake ev.split none).wakeHeld a ev.split ev.skipTo, rfl⟩

/-- A class whose root is not finished only has the split woken. -/
theorem disposeEvent_goesOn {endC : Nat → State → State} {c : Cls} {d : Nat} {pc : Int} (hacc : ev.acc = none) (hd : GoesTo ev d pc)
    (hget : (s.modCls ev.cls (fun c => c.wake ev.split (some pc))).getCls ev.cls = some c) (hfin : c.finished = false) :
    disposeEvent endC ev d s = s.modCls ev.cls (fun c => c.wake ev.split (some pc)) := by
  obtain ⟨g, hg⟩ := disposeEvent_eq hd endC s
  have hroot := (congrArg (fun o : Option Cls => (o.map Cls.finished).getD false) hget).trans hfin
  exact hg.trans ((if_neg (Bool.eq_false_iff.mp hasync)).trans
    ((congrArg₂ (fun l => returned endC ev pc g (expired endC s l)) (expired_precise hasync) hacc).trans
      (if_neg (Bool.eq_false_iff.mp hroot))))

end

/-! ### The end of the issuing class -/

/-- What the end of the issuing class leaves. -/
noncomputable def kept (s : State) := (s.others, s.pins, s.hslots, s.launches, s.mem, s.words, s.saved, s.replyByte)

/-- The end of a class leaves what others rest on. -/
def Closed (s t : State) : Prop := kept t = kept s

section
variable {s t : State} (h : Closed s t)
include h

theorem Closed.others : t.others = s.others := congrArg (fun x => x.1) h
theorem Closed.pins : t.pins = s.pins := congrArg (fun x => x.2.1) h
theorem Closed.hslots : t.hslots = s.hslots := congrArg (fun x => x.2.2.1) h
theorem Closed.launches : t.launches = s.launches := congrArg (fun x => x.2.2.2.1) h
theorem Closed.mem : t.mem = s.mem := congrArg (fun x => x.2.2.2.2.1) h
theorem Closed.words : t.words = s.words := congrArg (fun x => x.2.2.2.2.2.1) h
theorem Closed.saved : t.saved = s.saved := congrArg (fun x => x.2.2.2.2.2.2.1) h
theorem Closed.replyByte : t.replyByte = s.replyByte := congrArg (fun x => x.2.2.2.2.2.2.2) h

end

/-- The issuing class has ended, with nothing left outstanding. -/
structure Ended (s t : State) : Prop where
  status : t.cls.status = .ended
  id     : t.cls.id = s.cls.id
  mem    : t.cls.mem = []
  closed : Closed s t

theorem Ended.modCls {s t : State} (h : Ended s t) (hothers : ∀ d ∈ s.others, d.id ≠ s.cls.id) {c : Cls} (hc : c.id = s.cls.id) :
    Ended s (t.modCls c.id (fun c => { c with endDue := false })) := by
  have hothers' : ∀ d ∈ t.others, d.id ≠ t.cls.id := by rwa [h.closed.others, h.id]
  rw [hc.trans h.id.symm, modCls_self hothers']
  exact ⟨h.status, h.id, h.mem, h.closed⟩

/-- A release where nothing is pinned only counts for the race detector. -/
theorem Ended.release {s t : State} (h : Ended s t) (hpins : s.pins = []) (c : Cls) : Ended s (t.release c 4) := by
  rw [release_of_no_pins (h.closed.pins.trans hpins) (by decide)]
  exact ⟨h.status, h.id, h.mem, h.closed⟩

section
variable {s : State} (hpins : s.pins = []) (hothers : ∀ d ∈ s.others, d.id ≠ s.cls.id)
include hothers

theorem closing_closed : Closed s (closing s) := by
  have hmap : s.others.map (fun c => if c.id = s.cls.id then emptied (keptAccs s.cls) (roomFor s s.cls) c else c) = s.others :=
    (List.map_congr_left fun d hd => if_neg (hothers d hd)).trans (List.map_id' _)
  exact congrArg (fun l => (l, (kept s).2)) hmap

include hpins

theorem Ended.settleEnd {t : State} (h : Ended s t) {c : Cls} (hc : c.id = s.cls.id) : Ended s (t.settleEnd c) :=
  iteInduction (fun _ => (h.modCls hothers hc).release hpins c) (fun _ => h)

/-- A class with nothing outstanding ends at once: no class of the core holds its slot. -/
theorem closeCls_ended (hlive : s.cls.status = .live) (hmem : s.cls.mem = []) (hlives : ∀ d ∈ s.others, d.status = .live) :
    Ended s (s.closeCls s.cls.id) := by
  have hcls := closing_cls_of_idle (List.forall_mem_cons.mpr ⟨hlive, hlives⟩) hmem
  have hid : (closing s).cls.id = s.cls.id := (congrArg Cls.id hcls :)
  rw [closeCls_of_live hlive]
  exact Ended.settleEnd hpins hothers ⟨congrArg Cls.status hcls, hid, congrArg Cls.mem hcls, closing_closed hothers⟩ hid

end

section
variable {s t : State} (h : Ended s t)
include h

theorem Ended.settleEnding (hpins : s.pins = []) (hothers : s.others = []) : Ended s t.settleEnding := by
  have hall : t.allCls = [t.cls] := congrArg (_ :: ·) (h.closed.others.trans hothers)
  have hended : ∀ c ∈ [t.cls], c.status ≠ .ending := List.forall_mem_singleton.mpr fun he => ClsStatus.noConfusion (h.status.symm.trans he)
  rw [settleEnding_of_not_ending (hall ▸ hended), hall]
  exact h.settleEnd hpins (hothers ▸ List.forall_mem_nil _) h.id

end

/-! ### KILL and ABORT -/

/-- The class is a live class of the launch. -/
noncomputable def ofLaunch (launch : Nat) (c : Cls) : Bool := c.kind == .launch && c.launch == launch && c.live

/-- The live classes of a launch. -/
noncomputable def launchIds (s : State) (launch : Nat) : List Nat := (s.allCls.filter (ofLaunch launch)).map (·.id)

/-- The classes of a list end, and with them the class `id`. -/
noncomputable def endedAll (endC : Nat → State → State) (id : Nat) (s : State) (ids : List Nat) : State :=
  (if ids.contains id then ids else id :: ids).foldl (fun s i => endC i s) s

/-- Every class of the event's launch ends, and the launch is orphaned. -/
noncomputable def aborted (endC : Nat → State → State) (ev : Event) (s : State) : State :=
  endedAll endC ev.cls ((s.orphanLaunch ev.launch).endSaved ev.launch) (launchIds s ev.launch)

section
variable {s : State} {ev : Event} (hacc : ev.acc = none)
include hacc

theorem dropRaised_of_none : s.dropRaised ev = s :=
  congrArg (fun o : Option Nat => match o with | none => s | some a => s.modCls ev.cls (fun c => c.dropAcc a)) hacc

theorem disposeEvent_kill (hasync : ev.async = false) : disposeEvent endClass ev 2 s = endClass ev.cls s :=
  (congrArg (fun l => endClass ev.cls ((expired endClass s l).dropRaised ev)) (expired_precise hasync)).trans
    (congrArg (endClass ev.cls) (dropRaised_of_none hacc))

omit hacc in
/-- Only the issuing class is of the launch. -/
theorem launchIds_only {launch : Nat} (hlaunch : launch = s.cls.launch) (hkind : s.cls.kind = .launch) (hlive : s.cls.status = .live)
    (hothers : s.others = []) : launchIds s launch = [s.cls.id] := by
  have hall : s.allCls = [s.cls] := congrArg (s.cls :: ·) hothers
  have hof : ofLaunch launch s.cls = true := Bool.and_eq_true_iff.mpr
    ⟨Bool.and_eq_true_iff.mpr ⟨beq_iff_eq.mpr hkind, beq_iff_eq.mpr hlaunch.symm⟩, beq_iff_eq.mpr hlive⟩
  exact (congrArg (fun l => (List.filter (ofLaunch launch) l).map (·.id)) hall).trans (congrArg (List.map _) (List.filter_cons_of_pos hof))

/-- ABORT of the event of a launch's only class ends that class; the launch is orphaned. -/
theorem disposeEvent_abort (hcls : ev.cls = s.cls.id) (hlaunch : ev.launch = s.cls.launch) (hkind : s.cls.kind = .launch)
    (hlive : s.cls.status = .live) (hothers : s.others = []) :
    disposeEvent endClass ev 3 s = endClass s.cls.id ((s.orphanLaunch ev.launch).endSaved ev.launch) :=
  (congrArg (aborted endClass ev) (dropRaised_of_none hacc)).trans
    ((congrArg (endedAll endClass ev.cls _) (launchIds_only hlaunch hkind hlive hothers)).trans
      (congrArg (fun l : List Nat => l.foldl (fun s i => endClass i s) _) (if_pos (List.elem_iff.mpr (List.mem_singleton.mpr hcls)))))

end

theorem endClass_ended {s : State} (hlive : s.cls.status = .live) (hmem : s.cls.mem = []) (hothers : s.others = [])
    (hpins : s.pins = []) (hslots : s.hslots = []) : Ended s (endClass s.cls.id s) := by
  have hclosed : Ended s (s.closeCls s.cls.id) :=
    closeCls_ended hpins (hothers ▸ List.forall_mem_nil _) hlive hmem (hothers ▸ List.forall_mem_nil _)
  have hends : endClass s.cls.id s = s.closeCls s.cls.id := endClassN_of_no_handler (hclosed.closed.hslots.trans hslots)
  rwa [hends]

section
variable {s : State} {ev : Event} (hsaved : s.saved = []) (hasync : ev.async = false) (hacc : ev.acc = none) (hcls : ev.cls = s.cls.id)
  (hothers : s.others = [])
include hsaved hasync hacc hcls hothers

/-- The only class goes on at the split that waits for its event. -/
theorem dispose_goesOn {d : Nat} {pc : Int} (hlive : s.cls.status = .live) (hdue : s.cls.endDue = false)
    (hone : (s.cls.split ev.split).stops = 0) (hev : (s.cls.split ev.split).state = .blocked .event)
    (hroot : (s.cls.split 0).state ≠ .free) (hi : ev.split < s.cls.splits.length) (hd : GoesTo ev d pc) :
    dispose ev d s = withCls s (s.cls.modSplit ev.split (wokenAt pc)) := by
  have hwake := wake_of_event hi hev hone pc
  have hmod : s.modCls ev.cls (fun c => c.wake ev.split (some pc)) = withCls s (s.cls.wake ev.split (some pc)) :=
    hcls ▸ modCls_self (hothers ▸ List.forall_mem_nil _) _
  have hget : (withCls s (s.cls.wake ev.split (some pc))).getCls ev.cls = some (s.cls.wake ev.split (some pc)) :=
    getCls_cls ((congrArg Cls.id hwake).trans hcls.symm)
  have hall : (withCls s (s.cls.modSplit ev.split (wokenAt pc))).allCls = [s.cls.modSplit ev.split (wokenAt pc)] :=
    congrArg (_ :: ·) hothers
  have hlives : ∀ c ∈ [s.cls.modSplit ev.split (wokenAt pc)], c.status ≠ .ending :=
    List.forall_mem_singleton.mpr fun he => ClsStatus.noConfusion (hlive.symm.trans he)
  have hevent := (disposeEvent_goesOn (endC := endClass) hasync hacc hd ((congrArg (State.getCls · ev.cls) hmod).trans hget)
    (wake_unfinished hi hev hone hroot pc)).trans (hmod.trans (congrArg (withCls s) hwake))
  refine (dispose_precise hasync hsaved endClass d).trans ((congrArg State.settleEnding hevent).trans ?_)
  rw [settleEnding_of_not_ending (hall ▸ hlives), hall]
  exact settleEnd_of_not_due _ hdue

section
variable (hpins : s.pins = []) (hslots : s.hslots = []) (hlive : s.cls.status = .live) (hmem : s.cls.mem = [])
include hpins hslots hlive hmem

theorem dispose_kill : Ended s (dispose ev 2 s) := by
  have hkill : dispose ev 2 s = (endClass s.cls.id s).settleEnding := (dispose_precise hasync hsaved endClass 2).trans
    ((congrArg State.settleEnding (disposeEvent_kill hacc hasync)).trans (congrArg (fun i => (endClass i s).settleEnding) hcls))
  exact hkill ▸ (endClass_ended hlive hmem hothers hpins hslots).settleEnding hpins hothers

theorem dispose_abort (hkind : s.cls.kind = .launch) (hlaunch : ev.launch = s.cls.launch) :
    Ended ((s.orphanLaunch ev.launch).endSaved ev.launch) (dispose ev 3 s) := by
  have habort : dispose ev 3 s = (endClass s.cls.id _).settleEnding := (dispose_precise hasync hsaved endClass 3).trans
    (congrArg State.settleEnding (disposeEvent_abort hacc hcls hlaunch hkind hlive hothers))
  exact habort ▸ (endClass_ended (s := (s.orphanLaunch ev.launch).endSaved ev.launch) hlive hmem hothers hpins hslots).settleEnding
    hpins hothers

end

end

/-- Settles O38: a precise event's split goes on where the disposition says, or every class of its launch ends. -/
theorem dispositions : Obligations.Dispositions := by
  intro s ev hsaved hasync hacc hcls hothers hslots hpins hlive hdue hone hev hroot hi
  refine ⟨fun d pc hd => ?_, fun hkind hmem => ?_⟩
  · rw [dispose_goesOn hsaved hasync hacc hcls hothers hlive hdue hone hev hroot hi hd]
    have hself := Cls.split_modSplit_self _ _ (wokenAt pc) hi
    exact ⟨(congrArg Split.state hself :), (congrArg Split.pc hself :), (congrArg Split.mask hself :),
      fun j hj => Cls.split_modSplit_other _ _ _ _ hj, Eq.refl s.cls, ⟨Eq.refl s, fun _ => rfl⟩⟩
  · have hkill := dispose_kill hsaved hasync hacc hcls hothers hpins hslots hlive hmem
    have habort := dispose_abort hsaved hasync hacc hcls hothers hpins hslots hlive hmem hkind
    exact ⟨hkill.status, hkill.closed.launches, fun x => congrArg (Memory.get · x) hkill.closed.mem, fun hlaunch =>
      ⟨(habort hlaunch).status, (habort hlaunch).closed.launches, fun x => congrArg (Memory.get · x) (habort hlaunch).closed.mem⟩⟩

/-! ### TRET (R345) -/

/-- The handled class goes on where its event found it. -/
noncomputable def wokenCls (c : Cls) (ev : Event) : Cls := c.modSplit ev.split (wokenAt ev.resume)

noncomputable def withOthers (s : State) (l : List Cls) : State := withClasses s s.cls l

/-- A handler whose class has ended is disposed of as its reply says. -/
theorem finishHandler_disposes {s u : State} {h : HSlot} (hu : Ended s u) (hslots : s.hslots = [h]) (hh : h.cls = s.cls.id)
    (hpeer : h.replyPeer = false) (endC : Nat → State → State) :
    finishHandler endC s.cls.id u = disposeWith endC h.ev ((s.replyByte h).toNat % 4) (u.freeHandler s.cls.id) := by
  have hfind : u.hslots.find? (fun x => x.cls == s.cls.id) = some h :=
    (congrArg (List.find? (fun x : HSlot => x.cls == s.cls.id)) (hu.closed.hslots.trans hslots)).trans
      (List.find?_cons_of_pos (beq_iff_eq.mpr hh))
  have hover : (u.cls.live || u.cls.soc != 0) = false :=
    congrArg₂ (fun x (l : List Access) => x == ClsStatus.live || (l.filter (fun a => a.counts)).length != 0) hu.status hu.mem
  have hread : u.readReply h = (s.replyByte h, u) :=
    (if_neg (Bool.eq_false_iff.mp hpeer)).trans (congrArg (·, u) (congrFun hu.closed.replyByte h))
  exact (finishHandler_eq ..).trans ((congrArg (finishSlot endC _ u) hfind).trans
    ((congrArg (finishClass endC _ u h) (getCls_cls hu.id)).trans ((if_neg (Bool.eq_false_iff.mp hover)).trans
      (congrArg (replied endC _ h) hread))))

section
variable {s : State} {c : Cls} {h : HSlot} (hothers : s.others = [c]) (hne : c.id ≠ s.cls.id) (hev : h.ev.cls = c.id)
  (hasync : h.ev.async = false) (hacc : h.ev.acc = none) (hsaved : s.saved = []) (hlive : c.status = .live) (hdue : c.endDue = false)
  (hone : (c.split h.ev.split).stops = 0) (hstate : (c.split h.ev.split).state = .blocked .event) (hroot : (c.split 0).state ≠ .free)
  (hi : h.ev.split < c.splits.length) (hpins : s.pins = [])
include hothers hne hev hasync hacc hsaved hlive hdue hone hstate hroot hi hpins

/-- RESUME of the event of the only other class, where the issuing class has ended. -/
theorem dispose_other (hended : s.cls.status = .ended) (hmem : s.cls.mem = []) (endC : Nat → State → State) :
    Ended (withOthers s [wokenCls c h.ev]) (disposeWith endC h.ev 0 s) := by
  have hwake : c.wake h.ev.split (some h.ev.resume) = wokenCls c h.ev := wake_of_event hi hstate hone h.ev.resume
  have hmap : s.others.map (fun d => if d.id = c.id then d.wake h.ev.split (some h.ev.resume) else d) =
      [c.wake h.ev.split (some h.ev.resume)] := (congrArg (List.map _) hothers).trans (congrArg (· :: []) (if_pos rfl))
  have hmod : s.modCls h.ev.cls (fun c => c.wake h.ev.split (some h.ev.resume)) =
      withOthers s [c.wake h.ev.split (some h.ev.resume)] := by
    rw [modCls_eq, hev, if_neg (Ne.symm hne), hmap]
    rfl
  have hget : (withOthers s [c.wake h.ev.split (some h.ev.resume)]).getCls h.ev.cls = some (c.wake h.ev.split (some h.ev.resume)) :=
    (List.find?_cons_of_neg (by exact fun he => hne ((beq_iff_eq.mp he).trans hev).symm)).trans
      (List.find?_cons_of_pos (by exact beq_iff_eq.mpr ((congrArg Cls.id hwake).trans hev.symm)))
  have hlives : ∀ d ∈ [s.cls, wokenCls c h.ev], d.status ≠ .ending := List.forall_mem_cons.mpr
    ⟨fun he => ClsStatus.noConfusion (hended.symm.trans he),
      List.forall_mem_singleton.mpr fun he => ClsStatus.noConfusion (hlive.symm.trans he)⟩
  have hevent := (disposeEvent_goesOn (endC := endC) hasync hacc (.inl ⟨rfl, rfl⟩) ((congrArg (State.getCls · h.ev.cls) hmod).trans hget)
    (wake_unfinished hi hstate hone hroot h.ev.resume)).trans (hmod.trans (congrArg (fun d => withOthers s [d]) hwake))
  have hdispose := (dispose_precise hasync hsaved endC 0).trans ((congrArg State.settleEnding hevent).trans
    (settleEnding_of_not_ending (s := withOthers s [wokenCls c h.ev]) hlives))
  have hself : Ended (withOthers s [wokenCls c h.ev]) (withOthers s [wokenCls c h.ev]) := ⟨hended, rfl, hmem, rfl⟩
  exact (hdispose.trans (settleEnd_of_not_due _ hdue)) ▸ Ended.settleEnd (s := withOthers s [wokenCls c h.ev]) hpins (List.forall_mem_singleton.mpr hne) hself rfl

end

/-- The handler's class has ended and its slot is free; the only other class is `d`. -/
structure Resumed (s : State) (d : Cls) (t : State) : Prop where
  hslots : t.hslots = []
  status : t.cls.status = .ended
  others : t.others = [d]
  words  : t.words = s.words
  mem    : t.mem = s.mem

/-- The state in which TRET disposes of the event: the handler's class has ended, and its slot is free. -/
noncomputable def tretEnd (s : State) : State := ((s.bumpTag s.cls.tag).closeCls s.cls.id).freeHandler s.cls.id

section
variable {s : State} {c : Cls} {h : HSlot} (hlive : s.cls.status = .live) (hmem : s.cls.mem = []) (hothers : s.others = [c])
  (hne : c.id ≠ s.cls.id) (hclive : c.status = .live) (hpins : s.pins = [])
include hlive hmem hothers hne hclive hpins

theorem tret_closes : Ended (s.bumpTag s.cls.tag) ((s.bumpTag s.cls.tag).closeCls s.cls.id) :=
  have hids : ∀ d ∈ s.others, d.id ≠ s.cls.id := hothers ▸ List.forall_mem_singleton.mpr hne
  have hlives : ∀ d ∈ s.others, d.status = .live := hothers ▸ List.forall_mem_singleton.mpr hclive
  closeCls_ended (s := s.bumpTag s.cls.tag) hpins hids hlive hmem hlives

theorem exec_tret (hkind : s.cls.kind = .handler) (hslots : s.hslots = [h]) (hh : h.cls = s.cls.id) (hpeer : h.replyPeer = false)
    (hreply : (s.replyByte h).toNat % 4 = 0) : exec .tret s = .next (disposeWith (endClassN 3) h.ev 0 (tretEnd s)) := by
  have hsoc : s.cls.soc = 0 := soc_of_idle hmem
  have hclosed := tret_closes hlive hmem hothers hne hclive hpins
  have hfinish := (finishHandler_disposes hclosed hslots hh hpeer (endClassN 3)).trans
    (congrArg (disposeWith (endClassN 3) h.ev · (tretEnd s)) hreply)
  refine congrArg Host.Outcome.next ((if_neg (not_not.mpr hkind)).trans ((if_neg (not_not.mpr hsoc)).trans ?_))
  exact (congrArg (endClass s.cls.id) (release_of_no_pins hpins (by decide))).trans hfinish

/-- RESUME by TRET, where the handled class waits for nothing but its event. -/
theorem tret_disposes (hslots : s.hslots = [h]) (hh : h.cls = s.cls.id) (hev : h.ev.cls = c.id) (hasync : h.ev.async = false)
    (hacc : h.ev.acc = none) (hsaved : s.saved = []) (hdue : c.endDue = false) (hone : (c.split h.ev.split).stops = 0)
    (hstate : (c.split h.ev.split).state = .blocked .event) (hi : h.ev.split < c.splits.length) (hroot : (c.split 0).state ≠ .free) :
    Resumed s (wokenCls c h.ev) (disposeWith (endClassN 3) h.ev 0 (tretEnd s)) := by
  have hclosed := tret_closes hlive hmem hothers hne hclive hpins
  have hframe := hclosed.closed
  have hback := dispose_other (s := tretEnd s) (hframe.others.trans hothers) (fun he => hne (he.trans hclosed.id)) hev hasync hacc
    (hframe.saved.trans hsaved) hclive hdue hone hstate hroot hi (hframe.pins.trans hpins) hclosed.status hclosed.mem (endClassN 3)
  have hnone : (tretEnd s).hslots = [] := (congrArg (List.filter _) (hframe.hslots.trans hslots)).trans
    (List.filter_cons_of_neg fun he => bne_iff_ne.mp he hh)
  exact ⟨hback.closed.hslots.trans hnone, hback.status, hback.closed.others, hback.closed.words.trans hframe.words,
    hback.closed.mem.trans hframe.mem⟩

end

/-- With a store outstanding TRET is passed over. -/
theorem tret_holds {s : State} (hs : s.issuing = true) (hk : s.cls.kind = .handler) (hsoc : s.cls.soc ≠ 0) :
    ∃ t, exec .tret s = .next t ∧ t.cur.pc = s.cur.pc ∧ t.cur.held = true ∧ OutsideKept s t :=
  ⟨hold s, congrArg Host.Outcome.next ((if_neg (not_not.mpr hk)).trans (if_pos hsoc)), (congrArg Split.pc (hold_cur hs) :),
    (congrArg Split.held (hold_cur hs) :), modCur_outsideKept s _⟩

/-- Settles O39: the handler ends, and its event's split goes on at the instruction. -/
theorem tretReturns : Obligations.TretReturns := by
  intro s hs
  refine ⟨fun h c hkind hlive hmem hslots hh hothers hne hclive hev hasync hacc hsaved hpins hl1 hdue hone hstate hi hroot hpeer hreply => ?_,
    fun hk => next_raise hs hk (congrArg Host.Outcome.next (if_pos hk)), tret_holds hs⟩
  have hself := Cls.split_modSplit_self c _ (wokenAt h.ev.resume) hi
  have hback := tret_disposes hlive hmem hothers hne hclive hpins hslots hh hev hasync hacc hsaved hdue hone hstate hi hroot
  exact ⟨_, wokenCls c h.ev, exec_tret hlive hmem hothers hne hclive hpins hkind hslots hh hpeer hreply, hback.hslots, hback.status, hback.others,
    (congrArg Split.state hself :), (congrArg Split.pc hself :), fun j hj => Cls.split_modSplit_other _ _ _ _ hj, Eq.refl c,
    hback.words, fun x => congrArg (Memory.get · x) hback.mem⟩

end Sys2Proof.Proofs.Dispositions
end

section
/-!
Strict-mode retries and what becomes of peer and gather requests (R131, R264, R434, R435).
-/

namespace Sys2Proof.Proofs.Timeouts

open Sys2Proof Sys2Proof.Machine Sys2Proof.Proofs.Execution Sys2Proof.Proofs.Layer

/-! ### The only access of the only class -/

/-- The class with other accesses outstanding. -/
noncomputable def withAccs (c : Cls) (l : List Access) : Cls := { c with mem := l }

theorem modAcc_only {c : Cls} {a : Access} (hmem : c.mem = [a]) (f : Access → Access) : c.modAcc a.id f = withAccs c [f a] :=
  congrArg (withAccs c) ((congrArg (List.map _) hmem).trans (congrArg (· :: []) (if_pos rfl)))

/-- What `f` makes of an access of a class, `d` where it is not there. -/
noncomputable def onAccess {β : Type} (s : State) (cid acc : Nat) (d : β) (f : Cls → Access → β) : β :=
  match s.getCls cid with
  | none => d
  | some c =>
    match c.mem.find? (fun a => a.id == acc) with
    | none => d
    | some a => f c a

theorem forall_none {s : State} (hothers : s.others = []) {P : Cls → Prop} : ∀ d ∈ s.others, P d :=
  hothers ▸ List.forall_mem_nil _

section
variable {s : State} {a : Access} (hmem : s.cls.mem = [a])
include hmem

theorem onAccess_only {β : Type} (d : β) (f : Cls → Access → β) : onAccess s s.cls.id a.id d f = f s.cls a := by
  have hfind : s.cls.mem.find? (fun x => x.id == a.id) = some a :=
    (congrArg (List.find? (fun x : Access => x.id == a.id)) hmem).trans (List.find?_cons_of_pos (beq_self_eq_true a.id))
  rw [onAccess, getCls_cls rfl]
  dsimp only
  rw [hfind]

/-- The only access changes in the only class. -/
theorem modCls_only (hothers : s.others = []) (f : Access → Access) :
    s.modCls s.cls.id (fun c => c.modAcc a.id f) = withCls s (withAccs s.cls [f a]) :=
  (modCls_self (forall_none hothers) _).trans (congrArg (withCls s) (modAcc_only hmem f))

/-- The access if it is in the fabric in its class's context. -/
noncomputable def ifFabric (s : State) (c : Cls) (a : Access) : Option (Cls × Access) :=
  if a.stage = .fabric ∧ a.gen = s.genOf c then some (c, a) else none

theorem inFabric_only (hstage : a.stage = .fabric) (hgen : a.gen = s.genOf s.cls) : s.inFabric s.cls.id a.id = some (s.cls, a) :=
  (onAccess_only hmem none (ifFabric s)).trans (if_pos ⟨hstage, hgen⟩)

/-- The access if it waits for a retry, with the time since when it does. -/
noncomputable def ifRetry (c : Cls) (a : Access) : Option (Cls × Access × Nat) :=
  match a.stage with
  | .retry since => some (c, a, since)
  | _ => none

theorem inRetry_only {since : Nat} (hstage : a.stage = .retry since) : s.inRetry s.cls.id a.id = some (s.cls, a, since) := by
  refine (onAccess_only hmem none ifRetry).trans ?_
  rw [ifRetry, hstage]

/-! ### Strict mode (R131) -/

noncomputable def retried (s : State) (cid acc : Nat) : Option (Cls × Access × Nat) → Out
  | none => .next s
  | some (c, a, _) =>
    if s.stillRefused c a then .next s else .next (s.modCls cid (fun c => c.modAcc acc (fun a => { a with stage := .fabric })))

/-- The lane that a refused access reports. -/
noncomputable def refusedLane (s : State) (c : Cls) (a : Access) : LaneReq :=
  (a.lanes.find? (fun l => !l.done && s.strictRefuses c a l)).getD { lane := 0x7FFF, ea := 0 }

/-- What STRICT_TIMEOUT reports. -/
noncomputable def strictFault (s : State) (c : Cls) (a : Access) : FaultInfo :=
  { cause := .strict, addr := eaField (refusedLane s c a).ea, lane := (refusedLane s c a).lane, write := a.op.need.writes }

noncomputable def refusedFor (s : State) (cid acc : Nat) : Option (Cls × Access × Nat) → Out
  | none => .next s
  | some (c, a, since) =>
    if s.time < since + 65536 ∨ !s.stillRefused c a then .next s else .next (s.stopAccess cid acc (strictFault s c a))

/-- The access stopped by a fault. -/
noncomputable def stoppedBy (f : FaultInfo) (a : Access) : Access := { a with stage := .stopped, fault := some f }

noncomputable def stopAt (s : State) (cid acc : Nat) (f : FaultInfo) (c : Cls) (a : Access) : State :=
  (s.modCls cid (fun c => c.stopAcc acc a.split (stoppedBy f))).post (a.event c f s.time) c.level (c.kind == .handler)

section
variable {since : Nat} (hstage : a.stage = .retry since) (hothers : s.others = [])
include hstage hothers

theorem strictRetry_returns (hstill : s.stillRefused s.cls a = false) :
    exec (.strictRetry s.cls.id a.id) s = .next (withCls s (withAccs s.cls [{ a with stage := .fabric }])) :=
  (congrArg (retried s s.cls.id a.id) (inRetry_only hmem hstage)).trans ((if_neg (Bool.eq_false_iff.mp hstill)).trans
    (congrArg Host.Outcome.next (modCls_only hmem hothers _)))

theorem strictTimeout_raises (hstill : s.stillRefused s.cls a = true) (hdue : since + 65536 ≤ s.time) (hk : s.cls.kind ≠ .handler) :
    exec (.strictTimeout s.cls.id a.id) s = .next
      ((withCls s ((withAccs s.cls [stoppedBy (strictFault s s.cls a) a]).stop a.split)).post
        (a.event s.cls (strictFault s s.cls a) s.time) s.cls.level false) := by
  have hwait : ¬ (s.time < since + 65536 ∨ (!s.stillRefused s.cls a) = true) :=
    not_or.mpr ⟨Nat.not_lt.mpr hdue, fun h => Bool.false_ne_true ((congrArg not hstill).symm.trans h)⟩
  have hstop : s.modCls s.cls.id (fun c => c.stopAcc a.id a.split (stoppedBy (strictFault s s.cls a))) =
      withCls s ((withAccs s.cls [stoppedBy (strictFault s s.cls a) a]).stop a.split) :=
    (modCls_self (forall_none hothers) _).trans (congrArg (fun c => withCls s (c.stop a.split)) (modAcc_only hmem _))
  exact (congrArg (refusedFor s s.cls.id a.id) (inRetry_only hmem hstage)).trans ((if_neg hwait).trans (congrArg Host.Outcome.next
    ((onAccess_only hmem s (stopAt s s.cls.id a.id (strictFault s s.cls a))).trans
      (congrArg₂ (fun (u : State) => u.post (a.event s.cls (strictFault s s.cls a) s.time) s.cls.level) hstop
        (beq_eq_false_iff_ne.mpr hk)))))

end

/-! ### No answer (R434, R435) -/

/-- The access in the log of its class, its fault delivered to level `t`. -/
noncomputable def delivered (t : Nat) (f : FaultInfo) (c : Cls) (a : Access) : Access :=
  { a.intoLog c (.delivered t none) with fault := some f }

/-- The fault of an access goes where level `t` and the kind of its class say. -/
noncomputable def deliverTo (s : State) (cid acc : Nat) (f : FaultInfo) (c : Cls) (a : Access) (t : Nat) (handler : Bool) : State :=
  let own := handler && t == c.level
  if own && t == 0 then s.stopCore c.core f.cause.code none
  else
    let t := if own then t - 1 else if t = 2 ∧ !c.live then 1 else t
    if t ≤ 1 then
      (s.modCls cid (fun c => c.modAcc acc (delivered t f c))).queueFault (if t = 0 then none else some c.vmid) (.access cid acc)
    else s.forwardTo c a f 2 false

omit hmem in
theorem deliverFault_eq (s : State) (cid acc : Nat) (f : FaultInfo) : s.deliverFault cid acc f =
    onAccess s cid acc s (fun c a => deliverTo s cid acc f c a (s.route c.level c.vmid f.cause f.stage2) (c.kind == .handler)) := rfl

/-- A fault of a level-2 class's instruction that its partition routes to level 1 is queued there. -/
theorem deliverFault_level1 {f : FaultInfo} (hothers : s.others = []) (hk : s.cls.kind ≠ .handler)
    (hroute : s.route s.cls.level s.cls.vmid f.cause f.stage2 = 1) : s.deliverFault s.cls.id a.id f =
      (withCls s (withAccs s.cls [delivered 1 f s.cls a])).queueFault (some s.cls.vmid) (.access s.cls.id a.id) :=
  (deliverFault_eq ..).trans ((onAccess_only hmem s _).trans
    ((congrArg₂ (deliverTo s s.cls.id a.id f s.cls a) hroute (beq_eq_false_iff_ne.mpr hk)).trans
      (congrArg (fun u : State => u.queueFault (some s.cls.vmid) (.access s.cls.id a.id))
        ((modCls_self (forall_none hothers) _).trans (congrArg (withCls s) (modAcc_only hmem (delivered 1 f s.cls)))))))

/-- The fault `f` of the only access stands in its partition's fault queue. -/
def Queued (s t : State) (a : Access) (f : FaultInfo) : Prop :=
  t.queue = s.queue ++ [{ q := some s.cls.vmid, owner := .access s.cls.id a.id, entry := 0 }] ∧
    t.cls.mem.map (fun x => (x.stage, x.fault.map (fun g => (g.cause, g.stage2, g.lane)))) =
      [(.delivered 1 none, some (f.cause, f.stage2, f.lane))] ∧
    t.cls.splits = s.cls.splits ∧ t.cls.v = s.cls.v ∧ ∀ x, t.mem.get x = s.mem.get x

theorem xlate_queued {f : FaultInfo} (hothers : s.others = []) (hk : s.cls.kind ≠ .handler) (hlevel : s.cls.level = 2)
    (hcause : f.cause = .xlate) (hstage2 : f.stage2 = false) (hroute : s.route 2 s.cls.vmid .xlate false = 1) :
    Queued s (s.deliverFault s.cls.id a.id f) a f := by
  rw [deliverFault_level1 hmem hothers hk (by rw [hlevel, hcause, hstage2, hroute])]
  exact ⟨rfl, rfl, rfl, rfl, fun _ => rfl⟩

noncomputable def peerFault (a : Access) (l : LaneReq) : FaultInfo :=
  { cause := .xlate, write := a.op.need.writes, addr := eaField l.ea, lane := l.lane, aux := a.op.size }

noncomputable def peerUnanswered (s : State) (cid acc : Nat) (c : Cls) (a : Access) : Option LaneReq → Out
  | none => .next s
  | some l =>
    if s.time < a.sent + peerTime ∨ !s.logRoom c a then .next s else .next (s.deliverFault cid acc (peerFault a l))

noncomputable def peerLate (s : State) (cid acc : Nat) : Option (Cls × Access) → Out
  | none => .next s
  | some (c, a) => peerUnanswered s cid acc c a (a.lanes.find? (fun l => l.peer && !l.done))

/-- What the replicas of an access have to answer. -/
noncomputable def wantOf (s : State) (c : Cls) (lanes : List LaneReq) : Nat :=
  lanes.foldl (fun n l => max n (((s.replicaSet c.vmid l.pa).map (fun r => r.2.2.2)).getD 0)) 0

noncomputable def gatheringOf (s : State) : Option (Cls × Access) → Option (Cls × Access × Nat)
  | none => none
  | some (c, a) =>
    match a.op with
    | .rlds _ _ => some (c, a, wantOf s c a.lanes)
    | _ => none

noncomputable def gatherFaultOf (s : State) (cid acc : Nat) : Option LaneReq → State
  | none => s
  | some l => s.deliverFault cid acc { cause := .xlate, addr := eaField l.ea, lane := l.lane, aux := 4 }

noncomputable def gatherLate (s : State) (cid acc : Nat) : Option (Cls × Access × Nat) → Out
  | none => .next s
  | some (c, a, _) => if s.time < a.sent + gatherTime ∨ !s.logRoom c a then .next s else .next (gatherFault cid acc a s)

section
variable (hstage : a.stage = .fabric) (hgen : a.gen = s.genOf s.cls)
include hstage hgen

theorem gathering_only {bf isInt : Bool} (hop : a.op = .rlds bf isInt) :
    s.gathering s.cls.id a.id = some (s.cls, a, wantOf s s.cls a.lanes) := by
  refine (congrArg (gatheringOf s) (inFabric_only hmem hstage hgen)).trans ?_
  rw [gatheringOf, hop]

section
variable {l : LaneReq} (hlanes : a.lanes = [l]) (hroom : s.logRoom s.cls a = true)
include hlanes hroom

omit hmem hstage hgen hlanes in
theorem not_waiting {n : Nat} (hdue : a.sent + n ≤ s.time) : ¬ (s.time < a.sent + n ∨ (!s.logRoom s.cls a) = true) :=
  not_or.mpr ⟨Nat.not_lt.mpr hdue, fun h => Bool.false_ne_true ((congrArg not hroom).symm.trans h)⟩

theorem peerTimeout_delivers (hdone : l.done = false) (hpeer : l.peer = true) (hdue : a.sent + 400000 ≤ s.time) :
    exec (.peerTimeout s.cls.id a.id) s = .next (s.deliverFault s.cls.id a.id (peerFault a l)) := by
  have hfind : a.lanes.find? (fun l => l.peer && !l.done) = some l := by
    rw [hlanes]
    exact List.find?_cons_of_pos (by rw [hpeer, hdone]; rfl)
  exact (congrArg (peerLate s s.cls.id a.id) (inFabric_only hmem hstage hgen)).trans
    ((congrArg (peerUnanswered s _ _ _ a) hfind).trans (if_neg (not_waiting hroom hdue)))

theorem gatherTimeout_delivers {bf isInt : Bool} (hop : a.op = .rlds bf isInt) (hdue : a.sent + 4000000 ≤ s.time) :
    exec (.gatherTimeout s.cls.id a.id) s = .next (s.deliverFault s.cls.id a.id
      { cause := .xlate, addr := eaField l.ea, lane := l.lane, aux := 4 }) :=
  (congrArg (gatherLate s s.cls.id a.id) (gathering_only hmem hstage hgen hop)).trans ((if_neg (not_waiting hroom hdue)).trans
    (congrArg (fun l : List LaneReq => Host.Outcome.next (gatherFaultOf s s.cls.id a.id l.head?)) hlanes))

end

/-! ### An answer (R435) -/

/-- A sum as it binds. -/
noncomputable def canonSum (op : AccOp) (w : Word) : Nat :=
  match op with
  | .rlds true _ => execGatherResponse.canon16 (bits w.toNat 15 0) + execGatherResponse.canon16 (bits w.toNat 31 16) * 2 ^ 16
  | .rlds false false => if bits w.toNat 30 23 = 255 ∧ bits w.toNat 22 0 ≠ 0 then 0x7FC00000 else w.toNat
  | _ => w.toNat

/-- The sums bind, lane by lane. -/
noncomputable def bindSums (s : State) (cid : Nat) (a : Access) (sums : List Word) (lanes : List LaneReq) : State :=
  lanes.zipIdx.foldl (fun s p => s.bindValue cid a p.1.lane (canonSum a.op (sums.getD p.2 0))) s

noncomputable def answered (s : State) (cid acc count : Nat) (sums : List Word) : Option State → Option (Cls × Access × Nat) → Out
  | some s', _ => .next s'
  | none, none => .next s
  | none, some (c, a, want) =>
    if a.sent + gatherTime ≤ s.time then .next s
    else if count < want then .next (if s.logRoom c a then gatherFault cid acc a s else s)
    else .next (finishAcc cid acc (bindSums s cid a sums a.lanes))

/-- A value bound to a scalar register, or to lane registers. -/
noncomputable def boundTo (c : Cls) (lane v : Nat) (dest : List Nat) : Option Reg → Cls
  | some r => c.setS r (BitVec.ofNat 64 v)
  | none => c.deliver dest lane v

/-- An answer to a load of a class whose place is gone. -/
noncomputable def lateOf (s : State) : Option Ghost → Option State
  | none => none
  | some g => some { s with ghosts := s.ghosts.erase g }

/-- The sums of one lane arrive: its register takes its sum, and the load is over. -/
theorem gatherResponse_binds {l : LaneReq} {p n ix set off : Nat} {sum : Word} (hlanes : a.lanes = [l])
    (hop : a.op = .rlds false true) (hdest : a.dest = [p]) (hsdest : a.sdest = none)
    (hghosts : s.ghosts = []) (hset : s.replicaSet s.cls.vmid l.pa = some (ix, set, off, n)) (hdue : s.time < a.sent + 4000000)
    (hothers : s.others = []) : exec (.gatherResponse s.cls.id a.id n [sum]) s = .next (finishAcc s.cls.id a.id
      (withCls s (s.cls.setP p (1 <<< l.lane) (fun _ => sum)))) := by
  have hwant : wantOf s s.cls a.lanes = n := (congrArg (wantOf s s.cls) hlanes).trans
    ((congrArg (fun o : Option (Nat × Nat × Nat × Nat) => max 0 ((o.map (fun r => r.2.2.2)).getD 0)) hset).trans (Nat.zero_max n))
  have hlate : s.lateReturn s.cls.id a.id = none :=
    congrArg (fun l : List Ghost => lateOf s (l.find? (fun g => g.cls == s.cls.id && g.acc == a.id))) hghosts
  have hsum : (fun _ : Nat => BitVec.ofNat 32 (sum.toNat / 2 ^ (32 * 0))) = fun _ => sum := by simp
  have hbind : s.bindValue s.cls.id a l.lane sum.toNat = withCls s (s.cls.setP p (1 <<< l.lane) (fun _ => sum)) :=
    (modCls_self (forall_none hothers) _).trans (congrArg (withCls s) ((congrArg₂ (boundTo s.cls l.lane sum.toNat) hdest hsdest).trans
      (congrArg (s.cls.setP p (1 <<< l.lane)) hsum)))
  have hsums : bindSums s s.cls.id a [sum] a.lanes = withCls s (s.cls.setP p (1 <<< l.lane) (fun _ => sum)) :=
    (congrArg (bindSums s s.cls.id a [sum]) hlanes).trans
      ((congrArg (fun op => s.bindValue s.cls.id a l.lane (canonSum op sum)) hop).trans hbind)
  exact (congrArg₂ (answered s s.cls.id a.id n [sum]) hlate (gathering_only hmem hstage hgen hop)).trans
    ((if_neg (Nat.not_le.mpr hdue)).trans ((if_neg (hwant ▸ Nat.lt_irrefl n)).trans
      (congrArg (fun u => Host.Outcome.next (finishAcc s.cls.id a.id u)) hsums)))

end

end

noncomputable def stopAs (c : Cls) (i : Nat) : SplitState → Cls
  | .ready => c.modSplit i (fun sp => { sp with state := .blocked .event })
  | .blocked _ | .joinParent _ | .joinChild => c.modSplit i (fun sp => { sp with stops := sp.stops + 1 })
  | .free => c

/-- A stop changes splits alone. -/
theorem stop_kept (c : Cls) (i : Nat) : (c.stop i).mem = c.mem ∧ (c.stop i).s = c.s ∧ (c.stop i).v = c.v := by
  have hstop (st : SplitState) : (stopAs c i st).mem = c.mem ∧ (stopAs c i st).s = c.s ∧ (stopAs c i st).v = c.v := by
    cases st <;> exact ⟨rfl, rfl, rfl⟩
  exact hstop (c.split i).state

/-- The accesses and registers of the issuing class, the handlers and memory. -/
noncomputable def data (s : State) := (s.cls.mem, s.cls.s, s.cls.v, s.hslots, s.mem)

theorem settleEnd_data {t : State} (hothers : t.others = []) (hpins : t.pins = []) : data (t.settleEnd t.cls) = data t := by
  refine iteInduction (motive := fun u => data u = data t) (fun _ => ?_) (fun _ => rfl)
  rw [modCls_self (forall_none hothers), release_of_no_pins (by exact hpins) four_ne_zero]
  rfl

/-- A load that is over leaves its class, and the class's registers and memory stay. -/
theorem finishAcc_only {u : State} {a : Access} (hmem : u.cls.mem = [a]) (hlive : u.cls.status = .live) (hothers : u.others = [])
    (hslots : u.hslots = []) (hpins : u.pins = []) : data (finishAcc u.cls.id a.id u) = data (withCls u (withAccs u.cls [])) := by
  have hdrop : u.modCls u.cls.id (fun c => c.dropAcc a.id) = withCls u (withAccs u.cls []) :=
    (modCls_self (forall_none hothers) _).trans (congrArg (fun l => withCls u (withAccs u.cls l))
      ((congrArg (List.filter _) hmem).trans (List.filter_cons_of_neg fun h => bne_iff_ne.mp h rfl)))
  have hall : (withCls u (withAccs u.cls [])).allCls = [withAccs u.cls []] := congrArg (_ :: ·) hothers
  have hlives : ∀ c ∈ [withAccs u.cls []], c.status ≠ .ending :=
    List.forall_mem_singleton.mpr fun h => ClsStatus.noConfusion (hlive.symm.trans h)
  have hend := settleEnd_data (t := withCls u (withAccs u.cls [])) hothers hpins
  have hsettle : (withCls u (withAccs u.cls [])).settleEnding = (withCls u (withAccs u.cls [])).settleEnd (withAccs u.cls []) :=
    (settleEnding_of_not_ending (hall ▸ hlives)).trans (congrArg (List.foldl State.settleEnd _) hall)
  have hnone := (congrArg (fun x => x.2.2.2.1) hend).trans hslots
  rw [finishAcc, hdrop, hsettle]
  exact (congrArg data (finishHandler_of_none hnone)).trans hend

section
variable {s : State} {a : Access} (hmem : s.cls.mem = [a])
include hmem

theorem retry_returns {since : Nat} (hstage : a.stage = .retry since) (hothers : s.others = []) (hstill : s.stillRefused s.cls a = false) :
    ∃ t, exec (.strictRetry s.cls.id a.id) s = .next t ∧
      t.cls.mem = [{ a with stage := .fabric }] ∧ { t.cls with mem := s.cls.mem } = s.cls ∧ OutsideKept s t :=
  ⟨_, strictRetry_returns hmem hstage hothers hstill, rfl, Eq.refl s.cls, ⟨Eq.refl s, fun _ => rfl⟩⟩

theorem sum_binds {l : LaneReq} (hlanes : a.lanes = [l]) (hstage : a.stage = .fabric) (hothers : s.others = [])
    (hlive : s.cls.status = .live) (hslots : s.hslots = []) (hghosts : s.ghosts = []) (hpins : s.pins = [])
    (hgen : a.gen = s.genOf s.cls) (p : Nat) (sum : Word) (ix set off n : Nat) (hop : a.op = .rlds false true) (hdest : a.dest = [p])
    (hsdest : a.sdest = none) (hlane : l.lane < s.cls.lanes) (hlow : l.lane < 1024)
    (hset : s.replicaSet s.cls.vmid l.pa = some (ix, set, off, n)) (hdue : s.time < a.sent + 4000000) :
    ∃ t, exec (.gatherResponse s.cls.id a.id n [sum]) s = .next t ∧ t.cls.getP p l.lane = sum ∧
      (∀ q, q ≠ p → ∀ i, t.cls.getP q i = s.cls.getP q i) ∧ t.cls.mem = [] ∧ t.cls.s = s.cls.s ∧
      ∀ x, t.mem.get x = s.mem.get x := by
  have hdata := finishAcc_only (u := withCls s (s.cls.setP p (1 <<< l.lane) (fun _ => sum))) hmem hlive hothers hslots hpins
  have hbit : (((1 <<< l.lane : Nat)) : Mask).getLsbD l.lane = true := by
    rw [getLsbD_oneShift, decide_eq_true hlow, decide_eq_true rfl]; rfl
  have hlane' (q i : Nat) := congrArg (fun x => (x.2.2.1.getD q []).getD i 0) hdata
  exact ⟨_, gatherResponse_binds hmem hstage hgen hlanes hop hdest hsdest hghosts hset hdue hothers,
    (hlane' p l.lane).trans ((Cls.getP_setP_self _ _ _ _ _ hlane).trans (if_pos hbit)),
    fun q hq i => (hlane' q i).trans (Cls.getP_setP_other _ _ _ _ _ _ hq), congrArg (fun x => x.1) hdata, congrArg (fun x => x.2.1) hdata,
    fun y => congrArg (fun x => x.2.2.2.2.get y) hdata⟩

end

/-- Settles O32: each event finds its access, and its conditions decide. -/
theorem retriesAndTimeouts : Obligations.RetriesAndTimeouts := by
  refine ⟨fun s a since hmem hstage hothers => ⟨retry_returns hmem hstage hothers, fun hstill hdue hk => ?strict⟩,
    fun s a l hmem hlanes hdone hstage hothers hlive hslots hghosts hpins hk hlevel hroom hctx => ?_⟩
  case strict =>
    have hkept := stop_kept (withAccs s.cls [stoppedBy (strictFault s s.cls a) a]) a.split
    exact ⟨_, _, strictTimeout_raises hmem hstage hothers hstill hdue hk, rfl, rfl, rfl, rfl, rfl, rfl,
      congrArg (List.map Access.stage) hkept.1, hkept.2.1, hkept.2.2, fun _ => rfl⟩
  have hgen : a.gen = s.genOf s.cls := hctx.trans (if_neg fun h => absurd (hlevel.symm.trans h) (by decide)).symm
  exact ⟨fun hpeer hdue hroute => ⟨_, peerTimeout_delivers hmem hstage hgen hlanes hroom hdone hpeer hdue,
      xlate_queued hmem hothers hk hlevel rfl rfl hroute⟩,
    fun bf isInt hop hdue hroute => ⟨_, gatherTimeout_delivers hmem hstage hgen hlanes hroom hop hdue,
      xlate_queued hmem hothers hk hlevel rfl rfl hroute⟩,
    sum_binds hmem hlanes hstage hothers hlive hslots hghosts hpins hgen⟩

end Sys2Proof.Proofs.Timeouts
end

section
/-!
Claims about bytes written to a scratchpad or to an operand buffer that do not ask for the memory's canonical form (log entry 2): in a list of
bytes that is not in ascending order, writing a zero does not remove the byte that stands there.
-/

namespace Sys2Proof.Proofs.Unsorted

open Sys2Proof Sys2Proof.Machine

/-- Zeros written below the first listed address change nothing, whatever else is listed. -/
theorem write_zeros_below {k : Nat} {v : Byte} {m : Memory} {bs : List Byte} (hzero : ∀ b ∈ bs, b = 0) {a : Nat} (hbelow : a + bs.length ≤ k) :
    Memory.write ((k, v) :: m) a bs = (k, v) :: m := by
  induction bs generalizing a with
  | nil => rfl
  | cons b bs ih =>
    obtain ⟨hb, hbs⟩ := List.forall_mem_cons.1 hzero
    have hlt : a < k := Nat.lt_of_lt_of_le (Nat.lt_add_of_pos_right (Nat.succ_pos bs.length)) hbelow
    have hset : Memory.set ((k, v) :: m) a b = (k, v) :: m := (if_pos hlt).trans (if_pos hb)
    have hnext : a + 1 + bs.length ≤ k := (Nat.add_right_comm a 1 bs.length).symm ▸ hbelow
    exact (congrArg (Memory.write · (a + 1) bs) hset).trans (ih hbs hnext)

/-! ### A drain into scratchpad (R292) -/

/-- A form whose scratchpad lists byte 0 after an address past its end. -/
noncomputable def unsortedForm : Form := { id := 0, size := 2 ^ 20, scratch := [(2 ^ 20, 1), (0, 1)] }

/-- INT32 of tile 0 to scratchpad address 0, 256 bytes a row. -/
noncomputable def drainDesc : List DWord := [0x20000, 0, 256, 0]

noncomputable def drainOp : SeqOp := { id := 7, core := 0, cls := 1, split := 0, kind := .drain 0 drainDesc 0 }

noncomputable def drainState : State := { cls := { id := 1, level := 0, status := .ended }, forms := [unsortedForm], seq := [drainOp] }

/-- The tile has no element that is not zero. -/
theorem drainCodes_zero : ∀ x ∈ (drainCodes {} none drainDesc).map (fun x => x.val), x = 0 := by
  intro x hx
  obtain ⟨y, hy, rfl⟩ := List.mem_map.1 hx
  obtain ⟨n, -, rfl⟩ := List.mem_map.1 hy
  rfl

/-- The 64 elements of row i of the codes. -/
noncomputable def rowBytes (codes : List Nat) (i : Nat) : List Byte := (List.range 64).flatMap (fun j => toBytes 4 (codes.getD (64 * i + j) 0))

theorem length_rowBytes (codes : List Nat) (i : Nat) : (rowBytes codes i).length = 256 := by
  have hbytes (j : Nat) : (toBytes 4 (codes.getD (64 * i + j) 0)).length = 4 := rfl
  rw [rowBytes, List.length_flatMap]
  exact (congrArg List.sum (List.map_congr_left fun j _ => hbytes j)).trans (by decide)

/-- The bytes of a row of zeros are zero. -/
theorem rowBytes_zero {codes : List Nat} (hcodes : ∀ x ∈ codes, x = 0) (i : Nat) :
    ∀ b ∈ rowBytes codes i, b = 0 := by
  intro b hb
  obtain ⟨j, -, hb⟩ := List.mem_flatMap.1 hb
  have hcode : codes.getD (64 * i + j) 0 = 0 := by
    rw [List.getD_eq_getElem?_getD]
    cases hget : codes[64 * i + j]? with
    | none => rfl
    | some x => exact hcodes x (List.mem_of_getElem? hget)
  rw [hcode] at hb
  exact (by decide : ∀ b ∈ toBytes 4 0, b = 0) b hb

/-- Zeros written to the form's scratchpad leave the state as it is. -/
theorem writeScratch_zeros {off : Nat} {bs : List Byte} (hzero : ∀ b ∈ bs, b = 0) (hin : off + bs.length ≤ 2 ^ 20) :
    drainState.writeScratch 0 off bs = drainState := by
  have hwrite : unsortedForm.scratch.write off bs = unsortedForm.scratch := write_zeros_below hzero hin
  have hforms : drainState.modForm 0 (fun f => { f with scratch := unsortedForm.scratch.write off bs }) = drainState := by
    rw [hwrite]
    rfl
  exact congrArg (·.wakeWaits 0 off bs.length) hforms

/-- A drain of zeros leaves the state as it is. -/
theorem drainWrite_zeros {codes : List Nat} (hcodes : ∀ x ∈ codes, x = 0) : drainWrite drainState.cls drainDesc 0 codes drainState = drainState := by
  have hrows : drainWrite drainState.cls drainDesc 0 codes drainState =
      (List.range 64).foldl (fun s i => s.writeScratch 0 (0 + i * 256) (rowBytes codes i)) drainState := rfl
  rw [hrows]
  refine List.foldlRecOn (motive := (· = drainState)) (List.range 64) _ rfl ?_
  rintro s rfl i hi
  have hrow := List.mem_range.1 hi
  have hend : 0 + i * 256 + 256 ≤ 2 ^ 20 := calc
    0 + i * 256 + 256 = (i + 1) * 256 := (congrArg (· + 256) (Nat.zero_add _)).trans (Nat.succ_mul i 256).symm
    _ ≤ 64 * 256 := Nat.mul_le_mul_right 256 hrow
    _ ≤ 2 ^ 20 := by norm_num
  exact writeScratch_zeros (rowBytes_zero hcodes i) ((congrArg (0 + i * 256 + ·) (length_rowBytes codes i)).trans_le hend)

/-- The drain leaves byte 0 of the form as it was. -/
theorem drainAlone_forms : (settleSeq (drainAlone drainOp drainState.cls 0 drainDesc 0 drainState)).forms = [unsortedForm] := by
  have hdrain : drainAlone drainOp drainState.cls 0 drainDesc 0 drainState = drainDeliver drainOp drainState.cls 0 drainDesc 0 none drainState := rfl
  rw [hdrain, drainDeliver, show drainState.cls.tile 0 = {} from rfl, drainWrite_zeros drainCodes_zero]
  rfl

/-- Refutes O42: the drain writes a zero to byte 0 of the form, which still reads as 1. -/
theorem not_loopsAndDrains : ¬ Obligations.LoopsAndDrains := by
  intro hmoves
  have hrow := (hmoves.2.1 drainState 0 7 drainOp drainState.cls 0 drainDesc 0 unsortedForm 0 rfl rfl rfl rfl rfl rfl rfl rfl rfl rfl).1 rfl rfl
    (by decide)
  obtain ⟨t, g, -, hnext, -, hform, -, hval, -⟩ := hrow
  have hforms : (drainState.orWait (settleSeq (drainAlone drainOp drainState.cls 0 drainDesc 0 drainState))).forms = [unsortedForm] :=
    iteInduction (motive := fun u : State => u.forms = [unsortedForm]) (fun _ => drainAlone_forms) (fun _ => rfl)
  have hexec : exec (.matDrainRun 0 7) drainState = .next (drainState.orWait (settleSeq (drainAlone drainOp drainState.cls 0 drainDesc 0 drainState))) := rfl
  have ht : t = _ := Host.Outcome.next.inj (hnext.symm.trans hexec)
  have hg : some g = some unsortedForm := by
    rw [← hform, ht, State.formById, hforms]
    rfl
  have hbyte := hval 0 0 (by decide) (by decide)
  rw [Option.some.inj hg] at hbyte
  exact absurd hbyte (by decide)

/-! ### A copy from scratchpad to a reservation (R303) -/

/-- Byte 0 of scratchpad to the reservation at byte 0. -/
noncomputable def copyOp : EngineOp :=
  { id := 7, engine := 0, cls := 1, split := 0, form := 0, launch := 0, core := 0, vmid := 0, asid := 0, tag := 0, fn := 4, shape := 0,
    coords := [], far := 0, comp := 0, pc := 0, state := .running }

/-- The operand buffer lists its byte 0 after byte 1. -/
noncomputable def copyState : State :=
  { cls := { id := 1, level := 0, status := .ended, ob := [(1, 1), (0, 1)], obRes := [some 0] }, forms := [{ id := 0, size := 2 ^ 20 }], engines := [copyOp] }

/-- What the copy of a state leaves at byte 0 of the operand buffer. -/
noncomputable def copiedByte : Out → Option Byte
  | .next t => (t.getCls 1).map (fun c => c.ob.get 0)
  | .fault _ => none
  | .refused _ => none

theorem copiedByte_copyState : copiedByte (exec (.copyEngineComplete 7) copyState) = some 1 := by decide +kernel

theorem scratchPlace_copyOp : copyState.scratchPlace 0 (shBase 0) (shBytes 0) = some ({ id := 0, size := 2 ^ 20 }, 0) := by decide +kernel

/-- Refutes O45: the copy moves a zero to byte 0 of the reservation, which still reads as 1. -/
theorem not_copyEngineMoves : ¬ Obligations.CopyEngineMoves := by
  intro hmoves
  obtain ⟨t, c, hnext, -, hcls, hbyte, -⟩ := (hmoves copyState 7 copyOp copyState.cls rfl rfl rfl).2.1 { id := 0, size := 2 ^ 20 } 0 0 0 rfl rfl rfl
    rfl rfl rfl rfl scratchPlace_copyOp rfl rfl rfl
  have hcopied : (t.getCls 1).map (fun c => c.ob.get 0) = some 1 := (congrArg copiedByte hnext).symm.trans copiedByte_copyState
  have hone : c.ob.get 0 = 1 := Option.some.inj ((congrArg (Option.map fun c : Cls => c.ob.get 0) hcls).symm.trans hcopied)
  have hzero : c.ob.get 0 = 0 := hbyte 0 (by decide +kernel)
  exact absurd (hzero.symm.trans hone) (by decide)

end Sys2Proof.Proofs.Unsorted
end

section
/-!
A release store waits for what its class has outstanding before its addresses are looked at (R119, R259).
-/

namespace Sys2Proof.Proofs.ReleaseStore

open Sys2Proof Sys2Proof.Machine

/-- One lane of a class at level 2 whose content request has not reached its monitor. -/
noncomputable def askingState : State :=
  { cls := { id := 1, level := 2, vmid := 1, asid := 1, launch := 1, form := 1,
             splits := [{ state := .ready, pc := 0x1000, mask := 1 }] },
    iss := { split := 0, pc := 0x1000, words := [0] },
    creqs := [{ id := 9, vmid := 1, store := none, cls := some (1, 0), req := .rel 0 }] }

/-- A release store 4 bytes below address 0. -/
noncomputable def strlBelow : Instr := .strl none none 10 1 0x7F 0

/-- STRL at a scope above CLASS waits while an access or a request of its class is out, whatever its addresses. -/
theorem strl_holds {s : State} {x : Imx} {p : Pfx} {rs ra : Reg} {off : BitVec 7} {la : La}
    (hl : s.legal (.strl x p rs ra off la) = true)
    (hlanes : (s.laneReqs (s.eff p) (s.eaL ra 4 (offS x off 4)) (s.laneData rs 4)).isEmpty = false)
    (hscope : Pfxp.scopeOf p 4 ≠ 0) (hquiet : s.quiet s.cls = false) :
    exec (.strl x p rs ra off la) s = .next (hold s) := by
  have hwaits : (Pfxp.scopeOf p 4 != 0 && !s.quiet s.cls) = true := by simp [hscope, hquiet]
  refine (congrArg Host.Outcome.next (guarded_legal hl _)).trans (congrArg Host.Outcome.next ?_)
  exact (if_neg (Bool.eq_false_iff.mp hlanes)).trans (if_pos hwaits)

/-- Refutes O23: with the class's own content request outstanding a STRL waits for it before its addresses are looked at
(R119, R259), so that a lane at address −4 raises nothing yet. -/
theorem not_memoryFaultsAndMisses : ¬ Obligations.MemoryFaultsAndMisses := by
  unfold Obligations.MemoryFaultsAndMisses
  rintro ⟨h, -⟩
  obtain ⟨t, ht, hraises⟩ := h askingState strlBelow _ [] [] { lane := 0, ea := -4 } rfl (by decide +kernel) (by decide +kernel) rfl (by decide)
    (by decide +kernel) (by simp) (by decide +kernel)
  have hhold : exec strlBelow askingState = .next (hold askingState) :=
    strl_holds (by decide +kernel) (by decide +kernel) (by decide) rfl
  have ht' : hold askingState = t := Host.Outcome.next.inj (hhold.symm.trans ht)
  have hblocked := hraises.blocked.1
  rw [← ht'] at hblocked
  revert hblocked; decide +kernel

end Sys2Proof.Proofs.ReleaseStore
end
